-- ==== Sys2Proof/Word.lean ====
section
/-! DEFINITION. The words of the machine (R2, R36): bytes, 32-bit lane words, 64-bit pairs, instruction words. -/

namespace Sys2Proof

/-- One byte of memory. -/
abbrev Byte := BitVec 8
/-- One lane's value of a vector register (R36), or a 32-lane mask (R27). -/
abbrev Word := BitVec 32
/-- A 64-bit operand: a register pair (R36), an address, a PC (R52). -/
abbrev Dword := BitVec 64
/-- One instruction word (R58). -/
abbrev Slot := BitVec 96
/-- One fetch line (R50). -/
abbrev Line := BitVec 512

end Sys2Proof
end

