-- ==== Sys2Proof/Config.lean ====
section
/-! DEFINITION. What an implementation fixes, and the free values: constants without a body, so that no proof can use a
number of the model's own choosing. A value that must be fresh each time is applied to the counter `State.fresh`. -/

namespace Sys2Proof.Config

/-- The lease length the Umdun chooses for its k-th renewal (R228), before it is brought into 1 to 65,536. (DEDUCED, log 11) -/
opaque lease : Nat → Nat
/-- A value that the specification leaves open, the k-th one taken. (DESIGN CHOICE, log 10) -/
opaque freeNat : Nat → Nat
/-- The 64 bytes of the unique device secret (R417). (DESIGN CHOICE, log 6) -/
opaque deviceSecret : List Byte
/-- The SHA-512 digest of the boot ROM image, measurement 1 (R417). -/
opaque bootRom : List Byte
/-- The factory's MAC address of a port (R415). -/
opaque macAddr : Nat → BitVec 48
/-- Whether a signature over the SHA-512 digest of a firmware image verifies with the maker's release key (R417, R420). -/
opaque releaseVerifies : List Byte → List Byte → Bool
/-- The firmware image that the device holds as shipped, and its signature (R417, R420). -/
opaque firmwareImage : List Byte
opaque firmwareSignature : List Byte
/-- CTExponent, DataTransferSize and MaxSPDMmsgSize of the responder, 9 bytes (R419). -/
opaque spdmLimits : List Byte
/-- The board straps that measurement 3 covers beside the size of the GDDR7 (R417). -/
opaque boardStraps : List Byte
/-- The k-th signature over a message (R417, R419), ECDSA P-521, with the alias key derived from a CDI. -/
opaque aliasSign : List Byte → Nat → List Byte → List Byte
/-- The certificate chain of the alias key derived from a CDI (R417, R419). -/
opaque certChain : List Byte → List Byte
/-- The responder's nonce of the k-th response (R419). -/
opaque nonce : Nat → List Byte
/-- The frames with which a port's 802.1AS or TCP endpoint answers a frame that arrives at a device time (R413, R416). (DESIGN CHOICE, log 116) -/
opaque endpointFrames : Nat → List Byte → Nat → List (List Byte)
/-- The TCP segments, as frames, in which a port's endpoint sends bytes from a device time on (R416, R419). -/
opaque tcpFrames : Nat → List Byte → Nat → List (List Byte)
/-- The link delay of a port that 802.1AS measures, in nanoseconds (R413). -/
opaque linkDelay : Nat → Nat
/-- The offset in nanoseconds within which a port counts as locked (R413). -/
opaque lockWindow : Nat

end Sys2Proof.Config
end

