-- ==== Sys2Proof/Syntax.lean ====
section
/-! DEFINITION. The instructions and events of spec/opcode_table.json: ONE inductive, one constructor per row.
An encoded instruction carries the fields of its format class (R58, R60); an event of the machine or of its host
carries what it happens to. -/

namespace Sys2Proof

/-- The guard of an instruction (R58, R59): none, a predicate, or a negated predicate. -/
inductive Guard where
  | always
  | pos (p : BitVec 4)
  | neg (p : BitVec 4)
  deriving DecidableEq, Repr

/-- What every instruction word carries beside its class fields: guard, lookahead, counter select (R58, R66, R67). -/
structure Ctl where
  guard : Guard := .always
  la : BitVec 4 := 0
  cnt : BitVec 3 := 0
  deriving DecidableEq, Repr

/-- The type codes of R61. Reserved codes are no constructor. -/
inductive Ty where
  | none | s8 | s16 | s32 | s64 | n8 | n16 | n32 | n64 | b8 | b16 | b32 | b64 | b128
  | f64 | f32 | f16 | bf16 | e4m3 | e5m2 | e2m3 | e3m2 | e2m1
  deriving DecidableEq, Repr

/-- The rounding field RND (R62): dynamic, nearest-even, toward zero, up, down. -/
inductive Rnd where
  | dyn | rn | rz | ru | rd
  deriving DecidableEq, Repr

/-- Class V3 (R60): three source registers, the rounding and flag bits and OPX in IMM/EXT. -/
structure V3 where
  ctl : Ctl := {}
  ty : Ty := .none
  d : BitVec 8 := 0
  a : BitVec 8 := 0
  b : BitVec 8 := 0
  c : BitVec 8 := 0
  rnd : Rnd := .dyn
  sat : Bool := false
  fl : BitVec 4 := 0
  opx : BitVec 24 := 0
  deriving DecidableEq, Repr

/-- Class VI (R60): the immediate stands in place of the B operand; B holds the control bits RND, SAT and FL
(LOP3's truth table takes all eight of them, R140), so they are kept as one byte. -/
structure VI where
  ctl : Ctl := {}
  ty : Ty := .none
  d : BitVec 8 := 0
  a : BitVec 8 := 0
  c : BitVec 8 := 0
  bctl : BitVec 8 := 0
  imm : BitVec 32 := 0
  deriving DecidableEq, Repr

/-- Class MEM (R60, R63): the ordering byte and a signed byte offset (for atomics the operation stands in the
offset's top four bits, R249). -/
structure Mem where
  ctl : Ctl := {}
  ty : Ty := .none
  d : BitVec 8 := 0
  a : BitVec 8 := 0
  b : BitVec 8 := 0
  c : BitVec 8 := 0
  ord : BitVec 8 := 0
  off : BitVec 24 := 0
  deriving DecidableEq, Repr

/-- Class BR (R60, R64): link or target register pair, line displacement and slot. -/
structure Br where
  ctl : Ctl := {}
  d : BitVec 8 := 0
  a : BitVec 8 := 0
  disp : BitVec 29 := 0
  slot : BitVec 3 := 0
  deriving DecidableEq, Repr

/-- Class SYS (R60): registers and a 32-bit field, as each instruction states. -/
structure Sys where
  ctl : Ctl := {}
  d : BitVec 8 := 0
  a : BitVec 8 := 0
  b : BitVec 8 := 0
  c : BitVec 8 := 0
  imm : BitVec 32 := 0
  deriving DecidableEq, Repr

/-- Class ENG (R60): registers, tiles or accumulators, a type, and the descriptor fields in IMM. -/
structure Eng where
  ctl : Ctl := {}
  ty : Ty := .none
  d : BitVec 8 := 0
  a : BitVec 8 := 0
  b : BitVec 8 := 0
  c : BitVec 8 := 0
  imm : BitVec 32 := 0
  deriving DecidableEq, Repr

/-- A gang: its launch number and its index in the launch (R29, R305). A fill block is a gang of its own launch
number with index 0 (R356). -/
structure GangKey where
  launch : Nat
  idx : Nat
  deriving DecidableEq, Repr

/-- One constructor per row of spec/opcode_table.json. -/
inductive Instr where
  /-- NOP (R70). The all-zero instruction word issues on M and has no effect. -/
  | nop
  /-- JOIN (R104). Sets the issuing path's join PC to a checked target, waiting at once if it equals the next PC. -/
  | join (x : Br)
  /-- JOIN_CLR (R104). Sets the issuing path's join PC to none, which may let its former group merge. -/
  | joinClr (x : Br)
  /-- EXIT (R105). Removes the guarded lanes from the wave, frees empty entries and ends the wave when no lane remains. -/
  | exit (x : Sys)
  /-- YIELD (R106). Waits until the wave's other eligible paths have issued, and makes the wave youngest. -/
  | yield (x : Sys)
  /-- VOTE (R107). Combines a predicate over the lane set into a predicate, mask or count. -/
  | vote (x : V3)
  /-- XMRD (R108). Writes the issuing path's XMASK to a register. -/
  | xmrd (x : Sys)
  /-- XMWR (R109). Removes lanes from the path and sends them ahead to its join point. -/
  | xmwr (x : Sys)
  /-- PATHQ (R108). Writes the path-table summary word to a register. -/
  | pathq (x : Sys)
  /-- REGROUP (R110). Checks the path, waits for counters and windows, and arrives at the block's regroup collective. -/
  | regroup (x : Sys)
  /-- BRA (R103). Branches the guarded lanes to an immediate target, splitting the path as needed. -/
  | bra (x : Br)
  /-- BRX (R103). Branches each guarded lane to the 64-bit PC in its register pair. -/
  | brx (x : Br)
  /-- CALL (R103). Writes the link PC to a register pair and branches to an immediate target. -/
  | call (x : Br)
  /-- RET (R103). Branches each lane to the PC in its register pair and marks a return in the trace. -/
  | ret (x : Br)
  /-- IADD (R137). Adds two integer registers, wrapping or saturating. -/
  | iadd (x : V3)
  /-- IADD_IMM (R137). Adds an immediate to an integer register, wrapping or saturating. -/
  | iaddImm (x : VI)
  /-- ISUB (R137). Subtracts two integer registers, wrapping or saturating. -/
  | isub (x : V3)
  /-- ISUB_IMM (R137). Subtracts an immediate from an integer register. -/
  | isubImm (x : VI)
  /-- IADDC (R138). Adds or subtracts with carry through a predicate. -/
  | iaddc (x : V3)
  /-- IADDC_IMM (R138). Adds or subtracts an immediate with carry through a predicate. -/
  | iaddcImm (x : VI)
  /-- IMIN (R137). Writes the smaller of two integers. -/
  | imin (x : V3)
  /-- IMIN_IMM (R137). Writes the smaller of an integer and an immediate. -/
  | iminImm (x : VI)
  /-- IMAX (R137). Writes the larger of two integers. -/
  | imax (x : V3)
  /-- IMAX_IMM (R137). Writes the larger of an integer and an immediate. -/
  | imaxImm (x : VI)
  /-- IABS (R137). Writes the absolute value of a signed integer. -/
  | iabs (x : V3)
  /-- SAD (R137). Adds the sum of absolute differences to an accumulator. -/
  | sad (x : V3)
  /-- LEA (R137). Adds a shifted index to a 64-bit base address. -/
  | lea (x : V3)
  /-- LEA_IMM (R137). Adds a shifted immediate index to a 64-bit base address. -/
  | leaImm (x : VI)
  /-- IADD64 (R137). Adds two 64-bit integer pairs. -/
  | iadd64 (x : V3)
  /-- IADD64_IMM (R137). Adds an extended immediate to a 64-bit integer pair. -/
  | iadd64Imm (x : VI)
  /-- IMUL (R137). Writes the low half of an integer product. -/
  | imul (x : V3)
  /-- IMUL_IMM (R137). Writes the low half of the product of an integer and an immediate. -/
  | imulImm (x : VI)
  /-- IMULH (R137). Writes the high half of an integer product. -/
  | imulh (x : V3)
  /-- IMULH_IMM (R137). Writes the high half of the product of an integer and an immediate. -/
  | imulhImm (x : VI)
  /-- IMAD (R137). Writes a product plus an addend. -/
  | imad (x : V3)
  /-- IMAD_IMM (R137). Writes a product with an immediate plus an addend. -/
  | imadImm (x : VI)
  /-- IMADW (R137). Writes a 64-bit product of 32-bit sources plus a 64-bit addend. -/
  | imadw (x : V3)
  /-- IMADW_IMM (R137). Writes a 64-bit product with an immediate plus a 64-bit addend. -/
  | imadwImm (x : VI)
  /-- SHL (R139). Shifts left by a register count. -/
  | shl (x : V3)
  /-- SHL_IMM (R139). Shifts left by an immediate count. -/
  | shlImm (x : VI)
  /-- SHR (R139). Shifts right logically by a register count. -/
  | shr (x : V3)
  /-- SHR_IMM (R139). Shifts right logically by an immediate count. -/
  | shrImm (x : VI)
  /-- SAR (R139). Shifts right arithmetically by a register count. -/
  | sar (x : V3)
  /-- SAR_IMM (R139). Shifts right arithmetically by an immediate count. -/
  | sarImm (x : VI)
  /-- ROT (R139). Rotates left by a register count. -/
  | rot (x : V3)
  /-- ROT_IMM (R139). Rotates left by an immediate count. -/
  | rotImm (x : VI)
  /-- AND (R140). Bitwise AND of two registers. -/
  | and (x : V3)
  /-- AND_IMM (R140). Bitwise AND of a register and an immediate. -/
  | andImm (x : VI)
  /-- OR (R140). Bitwise OR of two registers. -/
  | or (x : V3)
  /-- OR_IMM (R140). Bitwise OR of a register and an immediate. -/
  | orImm (x : VI)
  /-- XOR (R140). Bitwise XOR of two registers. -/
  | xor (x : V3)
  /-- XOR_IMM (R140). Bitwise XOR of a register and an immediate. -/
  | xorImm (x : VI)
  /-- LOP3 (R140). Applies a three-input truth table bitwise. -/
  | lop3 (x : V3)
  /-- LOP3_IMM (R140). Applies a three-input truth table with an immediate second input. -/
  | lop3Imm (x : VI)
  /-- POPC (R141). Counts set bits. -/
  | popc (x : V3)
  /-- CLZ (R141). Counts leading zero bits. -/
  | clz (x : V3)
  /-- CTZ (R141). Counts trailing zero bits. -/
  | ctz (x : V3)
  /-- BREV (R141). Reverses the bit order. -/
  | brev (x : V3)
  /-- BFX (R142). Extracts a bit field, signed or unsigned. -/
  | bfx (x : V3)
  /-- BFX_IMM (R142). Extracts a bit field described by an immediate. -/
  | bfxImm (x : VI)
  /-- BFI (R142). Inserts a bit field. -/
  | bfi (x : V3)
  /-- BFI_IMM (R142). Inserts a bit field described by an immediate. -/
  | bfiImm (x : VI)
  /-- PRMT (R143). Builds each result byte from eight source bytes under a selector. -/
  | prmt (x : V3)
  /-- PRMT_IMM (R143). Permutes bytes under an immediate selector. -/
  | prmtImm (x : VI)
  /-- SEL (R144). Selects one of two registers by a predicate. -/
  | sel (x : V3)
  /-- SEL_IMM (R144). Selects a register or an immediate by a predicate. -/
  | selImm (x : VI)
  /-- ISET (R145). Compares two integers into a predicate. -/
  | iset (x : V3)
  /-- ISET_IMM (R145). Compares an integer with an immediate into a predicate. -/
  | isetImm (x : VI)
  /-- PSET (R145). Combines three predicates by a truth table. -/
  | pset (x : V3)
  /-- PMOV_TOV (R144). Copies the sixteen predicates into a register. -/
  | pmovTov (x : V3)
  /-- PMOV_FROMV (R144). Sets the sixteen predicates from a register. -/
  | pmovFromv (x : V3)
  /-- MOV (R144). Copies a register. -/
  | mov (x : V3)
  /-- MOVI (R144). Writes an immediate to a register. -/
  | movi (x : VI)
  /-- SHFL (R146). Moves values between lanes of the issuing path within a segment. -/
  | shfl (x : V3)
  /-- SHFL_IMM (R146). Moves values between lanes with an immediate lane operand. -/
  | shflImm (x : VI)
  /-- WRED (R147). Reduces one value from every lane by a fixed tree and broadcasts it. -/
  | wred (x : V3)
  /-- FADD (R149). Adds two FP32 values, rounding once. -/
  | fadd (x : V3)
  /-- FADD_IMM (R149). Adds an FP32 immediate, rounding once. -/
  | faddImm (x : VI)
  /-- FMUL (R149). Multiplies two FP32 values, rounding once. -/
  | fmul (x : V3)
  /-- FMUL_IMM (R149). Multiplies by an FP32 immediate, rounding once. -/
  | fmulImm (x : VI)
  /-- FFMA (R149). Fused multiply-add in FP32. -/
  | ffma (x : V3)
  /-- FFMA_IMM (R149). Fused multiply-add with an FP32 immediate multiplier. -/
  | ffmaImm (x : VI)
  /-- FMIN (R150). Returns the smaller FP32 operand unrounded. -/
  | fmin (x : V3)
  /-- FMIN_IMM (R150). Returns the smaller of an FP32 operand and an immediate. -/
  | fminImm (x : VI)
  /-- FMAX (R150). Returns the larger FP32 operand unrounded. -/
  | fmax (x : V3)
  /-- FMAX_IMM (R150). Returns the larger of an FP32 operand and an immediate. -/
  | fmaxImm (x : VI)
  /-- FSET (R151). Compares two FP32 values into a predicate. -/
  | fset (x : V3)
  /-- FSET_IMM (R151). Compares an FP32 value with an immediate into a predicate. -/
  | fsetImm (x : VI)
  /-- FCLASS (R152). Writes a one-hot class mask of a float operand. -/
  | fclass (x : V3)
  /-- FRND (R153). Rounds an FP32 value to an integral value. -/
  | frnd (x : V3)
  /-- FRCP (R154). Correctly rounded reciprocal. -/
  | frcp (x : V3)
  /-- FRSQ (R154). Correctly rounded reciprocal square root. -/
  | frsq (x : V3)
  /-- FSQRT (R154). Correctly rounded square root. -/
  | fsqrt (x : V3)
  /-- FEX2 (R154). Correctly rounded power of two. -/
  | fex2 (x : V3)
  /-- FLG2 (R154). Correctly rounded base-2 logarithm. -/
  | flg2 (x : V3)
  /-- FSIN (R154). Correctly rounded sine. -/
  | fsin (x : V3)
  /-- FCOS (R154). Correctly rounded cosine. -/
  | fcos (x : V3)
  /-- FTANH (R154). Correctly rounded hyperbolic tangent. -/
  | ftanh (x : V3)
  /-- HADD2 (R155). Adds two packed pairs of FP16 values. -/
  | hadd2 (x : V3)
  /-- HADD2_IMM (R155). Adds a packed FP16 immediate pair. -/
  | hadd2Imm (x : VI)
  /-- HMUL2 (R155). Multiplies two packed pairs of FP16 values. -/
  | hmul2 (x : V3)
  /-- HMUL2_IMM (R155). Multiplies by a packed FP16 immediate pair. -/
  | hmul2Imm (x : VI)
  /-- HFMA2 (R155). Fused multiply-add on packed FP16 pairs. -/
  | hfma2 (x : V3)
  /-- HFMA2_IMM (R155). Fused multiply-add on packed FP16 pairs with an immediate. -/
  | hfma2Imm (x : VI)
  /-- BADD2 (R155). Adds two packed pairs of BF16 values. -/
  | badd2 (x : V3)
  /-- BADD2_IMM (R155). Adds a packed BF16 immediate pair. -/
  | badd2Imm (x : VI)
  /-- BFMA2 (R155). Fused multiply-add on packed BF16 pairs. -/
  | bfma2 (x : V3)
  /-- BFMA2_IMM (R155). Fused multiply-add on packed BF16 pairs with an immediate. -/
  | bfma2Imm (x : VI)
  /-- FDOT4 (R156). Four-element 8-bit dot product accumulated into FP32. -/
  | fdot4 (x : V3)
  /-- DADD (R157). Adds two FP64 values. -/
  | dadd (x : V3)
  /-- DMUL (R157). Multiplies two FP64 values. -/
  | dmul (x : V3)
  /-- DFMA (R157). Fused multiply-add in FP64. -/
  | dfma (x : V3)
  /-- CVT (R158). Converts between integer and float types. -/
  | cvt (x : V3)
  /-- CPACK (R159). Converts two FP32 values to a narrow format and packs them into a register. -/
  | cpack (x : V3)
  /-- CUNPK (R160). Widens one narrow element to FP32. -/
  | cunpk (x : V3)
  /-- TSHAPE (R174). Writes a shape register and optionally fills the tile's header array. -/
  | tshape (x : Eng)
  /-- TZERO (R175). Clears a tile or an accumulator. -/
  | tzero (x : Eng)
  /-- TLD (R176). Loads the rows of a shaped tile from memory, decoding tagged blocks. -/
  | tld (x : Eng)
  /-- TST (R176). Stores the rows of a shaped tile to memory, computing block checks. -/
  | tst (x : Eng)
  /-- TFEED (R180). Writes tile bytes or header entries from registers. -/
  | tfeed (x : Eng)
  /-- TDRAIN (R181). Reads accumulator elements, tile bytes or header entries into registers, optionally clearing. -/
  | tdrain (x : Eng)
  /-- MMA (R182). Multiplies tile A by the transpose of tile B into an accumulator. -/
  | mma (x : Eng)
  /-- ACVT (R184). Converts an accumulator window into a tile element by element. -/
  | acvt (x : Eng)
  /-- MENC (R185). Encodes an accumulator window into tagged blocks of a tile. -/
  | menc (x : Eng)
  /-- BOBJ_ARM (R186). Begins a new phase of a barrier object with a count. -/
  | bobjArm (x : Eng)
  /-- BOBJ_WAIT (R186). Waits until a barrier object is satisfied, dropping its counter then. -/
  | bobjWait (x : Eng)
  /-- RAYQ (R205). Traverses an acceleration structure per lane and writes a hit record. -/
  | rayq (x : Eng)
  /-- RAYW (R206). Performs one traversal step on a single object per lane. -/
  | rayw (x : Eng)
  /-- RAYH (R208). Looks up a shader record for a hit record. -/
  | rayh (x : Eng)
  /-- PTCH (R209). Evaluates the vertices of one micro-triangle of a patch. -/
  | ptch (x : Eng)
  /-- SNDM (R214). Marches a ray through a grid with null-collision sampling until scatter, exit or limit. -/
  | sndm (x : Eng)
  /-- SNDO (R215). Marches a ray to the first occupied cell. -/
  | sndo (x : Eng)
  /-- SNDE (R214). Marches a ray to the next tentative collision. -/
  | snde (x : Eng)
  /-- SNDA (R214). Marches a ray accumulating transmittance. -/
  | snda (x : Eng)
  /-- DRAW (R218). Computes the architected draw per lane. -/
  | draw (x : V3)
  /-- HGF (R221). Fetches and interpolates hash-grid features per lane. -/
  | hgf (x : Eng)
  /-- LD (R253). Loads from global, host or reckoned storage, decoding on formatted pages. -/
  | ld (x : Mem)
  /-- ST (R253). Stores to global or host storage. -/
  | st (x : Mem)
  /-- LDS (R256). Loads from the block's own scratchpad. -/
  | lds (x : Mem)
  /-- STS (R256). Stores to the block's own scratchpad. -/
  | sts (x : Mem)
  /-- LDRM (R256). Loads from a gang member's scratchpad by role. -/
  | ldrm (x : Mem)
  /-- STRM (R256). Stores to a gang member's scratchpad by role. -/
  | strm (x : Mem)
  /-- ATOM (R263). Performs an atomic read-modify-write on memory and returns the old value. -/
  | atom (x : Mem)
  /-- ATOMS (R263). Performs an atomic read-modify-write on scratchpad. -/
  | atoms (x : Mem)
  /-- RED (R263). Performs an atomic reduction without returning a value. -/
  | red (x : Mem)
  /-- FENCE (R265). Orders the agent's relaxed accesses at a scope. -/
  | fence (x : Mem)
  /-- MARM (R266). Loads and arms the wave's monitor on a line. -/
  | marm (x : Mem)
  /-- MWAIT (R267). Waits on the wave's monitor until written, expired, lost or none. -/
  | mwait (x : Mem)
  /-- PREF (R269). Requests lines into a cache level without an access. -/
  | pref (x : Mem)
  /-- TEXS (R273). Samples a texture with filtering and wrapping. -/
  | texs (x : Mem)
  /-- TEXF (R274). Fetches one texel without filtering. -/
  | texf (x : Mem)
  /-- LNKS (R277). Sends a register message to a formation neighbour's channel. -/
  | lnks (x : Eng)
  /-- LNKR (R277). Takes the oldest message of a neighbour channel into a register. -/
  | lnkr (x : Eng)
  /-- CPY (R287). Submits a two-dimensional copy job with an optional transform. -/
  | cpy (x : Eng)
  /-- CPYQ (R289). Contributes a slice to the block's collective copy job. -/
  | cpyq (x : Eng)
  /-- CBLD (R291). Submits a job that loads a channel's codebook. -/
  | cbld (x : Eng)
  /-- GTHR (R292). Submits a gather job over an index list. -/
  | gthr (x : Eng)
  /-- JOB (R293). Submits a copy, gather or matrix job described by a card. -/
  | job (x : Eng)
  /-- STAGE_HOLD (R295). Brings lines into the stacked cache and holds them against eviction. -/
  | stageHold (x : Eng)
  /-- STAGE_REL (R295). Drops the context's holds on lines. -/
  | stageRel (x : Eng)
  /-- BAR (R334). Arrives at a block barrier and waits for its completion. -/
  | bar (x : Sys)
  /-- GBAR (R334). Arrives at a gang barrier and waits for its completion. -/
  | gbar (x : Sys)
  /-- WAITC (R336). Holds the path until a counter reaches a value, or all counters and windows clear. -/
  | waitc (x : Sys)
  /-- RDZV (R337). Arrives at a gang rendezvous point with a count. -/
  | rdzv (x : Sys)
  /-- SLEEP (R338). Holds the path until a device-time deadline. -/
  | sleep (x : Sys)
  /-- FORK (R340). Starts another pilot program of the gang at a label. -/
  | fork (x : Eng)
  /-- LREC (R342). Reads a word of the launch record. -/
  | lrec (x : Eng)
  /-- PERMIT_Q (R341). Writes the number of free, unreserved permits of an engine. -/
  | permitQ (x : Eng)
  /-- PERMIT_RSV (R341). Requests a reservation of permits of an engine. -/
  | permitRsv (x : Eng)
  /-- PERMIT_REL (R341). Releases the agent's unused permit reservation. -/
  | permitRel (x : Eng)
  /-- QAPP (R343). Appends records to a queue of the context, or reports a refusal. -/
  | qapp (x : Eng)
  /-- VARPT (R345). Offers the helm a switch point, completing at once without a request. -/
  | varpt (x : Sys)
  /-- FILLC (R357). Commits one line of the fill's unit at its home. -/
  | fillc (x : Mem)
  /-- FILLX (R363). Aborts the issuing fill with a reason code. -/
  | fillx (x : Sys)
  /-- RKINV (R370). Invalidates reckoned units, marking pending fills stale. -/
  | rkinv (x : Mem)
  /-- RKPIN_PIN (R371). Raises pin counts of reckoned units and enqueues absent ones. -/
  | rkpinPin (x : Mem)
  /-- RKPIN_UNPIN (R371). Lowers pin counts of reckoned units. -/
  | rkpinUnpin (x : Mem)
  /-- TSTAMP (R428). Reads device time and stores it to memory. -/
  | tstamp (x : Mem)
  /-- TSTAMP_WAKE (R428). Reads device time and sets a mark of an open wake trail. -/
  | tstampWake (x : Mem)
  /-- TRCM (R470). Writes a mark packet into the trace. -/
  | trcm (x : Sys)
  /-- SRD (R47). Reads a special register. -/
  | srd (x : Sys)
  /-- SWR (R48). Writes a special register from the lowest lane. -/
  | swr (x : Sys)
  /-- TRAP (R437). Enters the trap handler with a code. -/
  | trap (x : Sys)
  /-- BRK (R437). Holds the path at a stop, or enters the handler when stops are not armed. -/
  | brk (x : Sys)
  /-- ERET (R438). Restores the frame and reissues the faulting instruction. -/
  | eret (x : Sys)
  /-- ERET_SKIP (R438). Restores the frame and resumes after the faulting instruction. -/
  | eretSkip (x : Sys)
  /-- ERET_PC (R438). Restores the frame and resumes every lane at the frame's RPC. -/
  | eretPc (x : Sys)
  /-- CTXSV (R442). Suspends the issuing gang to the context store and stores its slot number. -/
  | ctxsv (x : Sys)
  /-- CTXLD (R442). Makes a suspended gang of the context eligible again. -/
  | ctxld (x : Sys)
  /-- TLBI_VA (R402). Drops translations of an address range of an ASN. -/
  | tlbiVa (x : Sys)
  /-- TLBI_ASN (R402). Drops every translation of an ASN. -/
  | tlbiAsn (x : Sys)
  /-- TLBI_ALL (R402). Drops every translation of every ASN. -/
  | tlbiAll (x : Sys)
  /-- ILLEGAL_ENCODING (R70). A path issues a 96-bit word that is no instruction, or a line that failed its form check, and takes ILLEGAL_ENCODING. -/
  | illegalEncoding (word : BitVec 96)
  /-- FETCH_LINE_FILL (R57). A fetch line fills the instruction cache and is checked for parity and form. -/
  | fetchLineFill (core ctx : Nat) (va : BitVec 64) (err1 err2 : BitVec 512)
  /-- RESULT_VISIBLE (R40). A variable-latency result becomes visible, closing its window or dropping its counter. -/
  | resultVisible (agent id : Nat)
  /-- TRAP_ENTRY (R432). A path takes a handler: siblings held, frame written, supervisor mode entered. -/
  | trapEntry (agent path : Nat)
  /-- REGROUP_COMPLETE (R111). Once every wave of the block waits at REGROUP, lanes are packed, donors end and the waves resume. -/
  | regroupComplete (g : GangKey) (role : Nat)
  /-- GANG_RETIRE (R29). The gang retires in the clock after its last member block ends, freeing scratchpads. -/
  | gangRetire (g : GangKey)
  /-- BARRIER_COMPLETE (R334). A block or gang barrier completes once every remaining wave has arrived. -/
  | barrierComplete (g : GangKey) (role : Nat) (gang : Bool) (k : Nat)
  /-- RDZV_PHASE_COMPLETE (R337). A rendezvous phase completes at its n-th arrival. -/
  | rdzvPhaseComplete (g : GangKey) (k : Nat)
  /-- WAITC_COMPLETE (R336). A waiting WAITC completes once its counters are low enough. -/
  | waitcComplete (agent path : Nat)
  /-- SLEEP_EXPIRE (R338). A sleeping path's deadline passes and SLEEP completes. -/
  | sleepExpire (agent path : Nat)
  /-- MWAIT_WRITTEN (R267). A write to the monitored line ends a waiting MWAIT with WRITTEN. -/
  | mwaitWritten (agent path : Nat)
  /-- MWAIT_EXPIRE (R267). The MWAIT limit passes and it completes with EXPIRED. -/
  | mwaitExpire (agent path : Nat)
  /-- LINK_MESSAGE_LAND (R275). A link message lands in the neighbour's channel buffer. -/
  | linkMessageLand (id : Nat)
  /-- PERMIT_GRANT (R341). A pending permit reservation is granted once enough permits are free. -/
  | permitGrant (g : GangKey) (role : Nat)
  /-- JOB_START (R283). A job starts its accesses once its footprint edges are satisfied. -/
  | jobStart (id : Nat)
  /-- JOB_COMPLETE (R240). A job finishes its payload, writes its stamp and advances its write pointer. -/
  | jobComplete (id : Nat)
  /-- STAGING_DONE (R316). Every staged line of a launch is resident and its first gang may be placed. -/
  | stagingDone (launch : Nat)
  /-- STAGING_TIMEOUT (R316). 20 µs after staging began, the launch's first gang may be placed anyway. -/
  | stagingTimeout (launch : Nat)
  /-- SWITCH_POINT_REACHED (R318). All waves stand at one VARPT and the helm takes at most one action on the gang. -/
  | switchPointReached (g : GangKey)
  /-- SWITCH_WAIT_TIMEOUT (R346). 20 µs after a wave began waiting under a request, waiting waves are released. -/
  | switchWaitTimeout (g : GangKey)
  /-- FULL_SAVE_TIMEOUT (R321). A pending pre-emption's 20 µs end and the gang is saved whole. -/
  | fullSaveTimeout (g : GangKey)
  /-- MIGRATION_RESUME (R320). A migrated gang resumes once its records have landed and forwarding has drained. -/
  | migrationResume (g : GangKey)
  /-- PATH_OVERDUE (R326). A path ready for 32 clocks without issuing becomes overdue. -/
  | pathOverdue (agent path : Nat)
  /-- REQUEST_INJECT (R329). A request is injected once a reply landing buffer is reserved. -/
  | requestInject (id : Nat)
  /-- WALKER_MONITOR_WAKE (R393). A write to a monitored page-table line releases the parked paths to walk again. -/
  | walkerMonitorWake (line : Nat)
  /-- XLATE_REWALK (R393). Without a walker monitor, a parked path walks again every 10 µs. -/
  | xlateRewalk (agent path : Nat)
  /-- RECKON_RESOURCE_RETRY (R353). A miss waiting for a reckoning resource within its depth limit retries when one frees. -/
  | reckonResourceRetry (agent path : Nat)
  /-- WAIT_NODE_RELEASE (R354). A wait node whose lines are committed is released and its path replays. -/
  | waitNodeRelease (fill node : Nat)
  /-- UNIT_EVICT (R365). The stacked cache evicts a reckoned unit, writing it to the victim store under policy 1. -/
  | unitEvict (ctx rkidx unit : Nat)
  /-- WATCHDOG (R440). A gang or fill stalled for 2 s is ended with WATCHDOG. -/
  | watchdog (g : GangKey)
  /-- THERMAL_STOP (R11). A core reaching 110 °C stops issue, saves its gangs and moves its fills. -/
  | thermalStop (core : Nat)
  /-- THERMAL_RESUME (R11). A stopped core below 100 °C for 1 ms takes work again. -/
  | thermalResume (core : Nat)
  /-- DESTROY_COMPLETE (R398). Once the context's jobs and locks are done, CSTATE becomes free. -/
  | destroyComplete (ctx : Nat)
  /-- FRAME_TRANSMIT (R416). A posted frame leaves the port when its class gate allows and its descriptor completes. -/
  | frameTransmit (port : Nat)
  /-- FEATACCEPT_WRITE (R406). System software accepts the feature word, taking effect at the high-half write. -/
  | featacceptWrite (high : Bool) (val : BitVec 64)
  /-- MODECTL_WRITE (R407). A write enters or leaves fixed-clock mode, or is refused. -/
  | modectlWrite (val : BitVec 64)
  /-- CTX_CREATE (R396). The context command creates a context, checking its descriptor. -/
  | ctxCreate (ctx : Nat)
  /-- CTX_DESTROY (R398). The context command destroys a live context. -/
  | ctxDestroy (ctx : Nat)
  /-- TAIL_DOORBELL (R307). The host writes a queue's new TAIL, accepted or ignored with OVR. -/
  | tailDoorbell (q : Nat) (val : BitVec 64)
  /-- QUEUE_ENABLE (R308). The control doorbell enables a queue, checking descriptor and header. -/
  | queueEnable (q : Nat)
  /-- QUEUE_DISABLE (R308). The control doorbell disables an enabled queue. -/
  | queueDisable (q : Nat)
  /-- BANK_REFRESH (R455). A bank's refresh interval expires and the bank is refreshed. -/
  | bankRefresh (bank : Nat)
  /-- BREAKPOINT_HOLD (R471). A path whose next bundle matches an enabled breakpoint is held by a stop. -/
  | breakpointHold (agent path k : Nat)
  /-- GATE_CONFIG_CHANGE (R415). CONFIGCHANGE installs the admin gate control list pending its base time. -/
  | gateConfigChange (port : Nat)
  /-- GATE_CYCLE_START (R415). A gate cycle starts, installing a pending admin list. -/
  | gateCycleStart (port : Nat)
  /-- GATE_INTERVAL_EXPIRE (R415). A gate entry's time interval expires and the next gate states apply. -/
  | gateIntervalExpire (port : Nat)
  /-- TRCTL_WRITE (R464). Sets EN of the trace, zeroing its indices, or changes the traced set. -/
  | trctlWrite (val : BitVec 64)
  /-- STOPREL_RELEASE (R472). Releases one held path. -/
  | stoprelRelease (ctx agent path : Nat)
  /-- STOPARM_WRITE (R472). Arms or disarms stops per context, releasing paths when cleared. -/
  | stoparmWrite (idx : Nat) (val : BitVec 64)
  /-- HW_ERROR (R446). A hardware error on a core is classified, the gang re-executed or ended, and the core perhaps fenced. -/
  | hwError (core : Nat) (parity : Bool) (touched : List GangKey)
  /-- SENSOR_SAMPLE (R453). Every 8 µs each bank sensor is sampled and its state judged. -/
  | sensorSample (samples : List Int)
  /-- TRAIL_TIMEOUT (R427). A trail open for one second without TPIX closes with TIMEOUT. -/
  | trailTimeout (tag : BitVec 32)
  /-- FRAME_BOUNDARY (R423). At vertical blanking an output takes the latest accepted flip for its next frame. -/
  | frameBoundary (out : Nat)
  /-- FIRST_PIXEL (R424). The first pixel of a flipped frame leaves the output and closes the trail. -/
  | firstPixel (out : Nat)
  /-- REGISTER_WRITE (R404). A host write to a BAR0 register with no behaviour of its own stores or is ignored. -/
  | registerWrite (off : Nat) (val : BitVec 64)
  /-- TESTER_TURN (R457). The background tester steers a lane group to a spare and runs its pattern. -/
  | testerTurn (slice : Nat) (pass : Bool)
  /-- CORRECTED_ERROR (R443). A corrected error changes nothing and is counted. -/
  | correctedError (core : Nat)
  /-- DIE_UNCORRECTABLE (R461). An uncorrectable cache-die error is answered by the line's role; `4 + w` is role 1 for a line of pool `w`. -/
  | dieUncorrectable (slice : Nat) (addr : BitVec 64) (role : Nat)
  /-- TESTER_ABORT (R457). A demand beat needing the group under test without a spare aborts the pattern. -/
  | testerAbort (slice : Nat)
  /-- OVERPOWER (R407). Power above POWERLIM for 10 ms in fixed-clock mode sets OVERPOWER and interrupts. -/
  | overpower (power : Nat)
  /-- FIRMWARE_RELOAD (R420). System software reloads a firmware image in recovery over PCIe. -/
  | firmwareReload (image signature : List (BitVec 8))
  /-- HOST_TLBI_VA (R402). The host drops translations of an address range of an ASN. -/
  | hostTlbiVa (asn : Nat) (va len : BitVec 64)
  /-- HOST_TLBI_ASN (R402). The host drops every translation of an ASN. -/
  | hostTlbiAsn (asn : Nat)
  /-- WAKEOPEN (R424). The host opens a wake trail with a tag and sample time. -/
  | wakeopen (high : Bool) (val : BitVec 64)
  /-- FLIP (R426). The host flips an output to a buffer and stamps the trail. -/
  | flip (val : BitVec 64)
  /-- WTRING_WRITE (R425). A write to WTRING or WTLOG closes open trails and zeroes the indices. -/
  | wtringWrite (log : Bool) (val : BitVec 64)
  /-- WTRIDX_WRITE (R425). System software records consumed wake-trail records. -/
  | wtridxWrite (val : BitVec 64)
  /-- MEASEXT (R418). Eight writes of a digest extend the driver measurement. -/
  | measext (val : BitVec 64)
  /-- RESYNC (R448). The device writes a 128 KiB summary to host memory. -/
  | resync (val : BitVec 64)
  /-- STOPREL_STEP (R472). Releases a held path for one bundle, then holds it again. -/
  | stoprelStep (ctx agent path : Nat)
  /-- STOPREL_ALL (R472). Releases every held path of a context. -/
  | stoprelAll (ctx : Nat)
  /-- PCTL_WRITE (R415). Writes port control, zeroing the ring indices when EN is set. -/
  | pctlWrite (port : Nat) (val : BitVec 64)
  /-- FRAME_RECEIVE (R416). A received frame is checked, consumed by the port or delivered to a receive descriptor. -/
  | frameReceive (port : Nat) (frame : List (BitVec 8)) (fcsOk : Bool)
  /-- PORT_LINK_DOWN (R416). A port goes down and pending transmit frames are dropped. -/
  | portLinkDown (port : Nat)
  /-- GET_VERSION (R419). SPDM responder answers GET_VERSION. -/
  | getVersion (transport : Nat) (req : List (BitVec 8))
  /-- GET_CAPABILITIES (R419). SPDM responder answers GET_CAPABILITIES. -/
  | getCapabilities (transport : Nat) (req : List (BitVec 8))
  /-- NEGOTIATE_ALGORITHMS (R419). SPDM responder negotiates ECDSA P-521 and SHA-512. -/
  | negotiateAlgorithms (transport : Nat) (req : List (BitVec 8))
  /-- GET_DIGESTS (R419). SPDM responder returns certificate digests. -/
  | getDigests (transport : Nat) (req : List (BitVec 8))
  /-- GET_CERTIFICATE (R419). SPDM responder returns a certificate chain. -/
  | getCertificate (transport : Nat) (req : List (BitVec 8))
  /-- CHALLENGE (R419). SPDM responder answers a challenge with the alias key. -/
  | challenge (transport : Nat) (req : List (BitVec 8))
  /-- GET_MEASUREMENTS (R419). SPDM responder returns a signed measurement quote. -/
  | getMeasurements (transport : Nat) (req : List (BitVec 8))
  /-- DPCTL_ENABLE (R422). Setting EN trains the DisplayPort link or refuses the enable. -/
  | dpctlEnable (out : Nat) (val : BitVec 64)
  /-- HPD_LOSS (R422). Loss of HPD clears TRAINED and stops scan-out. -/
  | hpdLoss (out : Nat)
  /-- AUX_NATIVE_WRITE (R421). Starts a native AUX write to DPCD. -/
  | auxNativeWrite (out : Nat) (val : BitVec 64)
  /-- AUX_NATIVE_READ (R421). Starts a native AUX read from DPCD. -/
  | auxNativeRead (out : Nat) (val : BitVec 64)
  /-- AUX_I2C_WRITE (R421). Starts an I2C-over-AUX write. -/
  | auxI2cWrite (out : Nat) (val : BitVec 64)
  /-- AUX_I2C_READ (R421). Starts an I2C-over-AUX read. -/
  | auxI2cRead (out : Nat) (val : BitVec 64)
  /-- AUX_I2C_WRITE_MOT (R421). Starts an I2C-over-AUX write with MOT set. -/
  | auxI2cWriteMot (out : Nat) (val : BitVec 64)
  /-- AUX_I2C_READ_MOT (R421). Starts an I2C-over-AUX read with MOT set. -/
  | auxI2cReadMot (out : Nat) (val : BitVec 64)
  /-- AUX_REPLY (R421). An AUX transaction completes with ACK, NACK, DEFER or timeout. -/
  | auxReply (out reply : Nat) (data : List (BitVec 8))
  /-- BACK_INVALIDATE (R391). A CXL back-invalidate removes the device's copy of a pool line. -/
  | backInvalidate (window : Nat) (line : Nat)
  /-- PORT_LINK_UP (R415). An Ethernet port's link comes up and PSTAT LINK is set. -/
  | portLinkUp (port : Nat)
  /-- HPD_ASSERT (R421). A sink asserts hot-plug detect and DPSTAT HPD is set. -/
  | hpdAssert (out : Nat)
  /-- LINK_TRAINING_DONE (R422). DisplayPort link training ends, setting TRAINED and the trained rate and lanes, or falling back. -/
  | linkTrainingDone (out rate lanes : Nat) (ok : Bool)
  /-- TAKE_RECORD (R310). The helm chooses an eligible queue and takes a batch of records as launches. -/
  | takeRecord
  /-- PLACE_GANG (R314). The helm binds and places a waiting gang on the best feasible cluster. -/
  | placeGang
  /-- SAVE_SLOTS_FREE (R487). Context-store slots free and waiting saves are served in order. -/
  | saveSlotsFree
  /-- FILL_LAUNCH (R355). The helm launches a pending fill into a free fill reserve. -/
  | fillLaunch
  /-- RECKON_HELD_SAVE (R364). A gang held by reckoning for 50 µs is saved when another gang fits nowhere. -/
  | reckonHeldSave
  /-- ALLOWANCE_UPDATE (R462). Every 64 µs each core's ALLOWANCE is recomputed. -/
  | allowanceUpdate
  /-- ROTATION_PASS (R463). Every 1 ms the helm marks hot gangs for rotation. -/
  | rotationPass
  /-- RESET (R417). Reset clears device state and the boot ROM verifies and runs the firmware. -/
  | reset
  /-- HOST_TLBI_ALL (R402). The host drops every translation. -/
  | hostTlbiAll
  /-- STALLCLR (R474). Zeroes every stall counter. -/
  | stallclr
  /-- TRACE_LOSS_WRITE (R469). Once the ring has room again, a LOSS packet with the pending count is written. -/
  | traceLossWrite
  /-- GRANDMASTER_TIMEOUT (R413). Sync from the grandmaster stops arriving, and SYNCSTAT goes to holdover or free-running with PORT 3. -/
  | grandmasterTimeout
  deriving DecidableEq, Repr

end Sys2Proof
end

