-- ==== Sys2Proof/Machine/State.lean ====
section
/-! DEFINITION. The state of the Umdun as plain data: everything the specification gives the machine, the model's own
bookkeeping of what is under way, and the machine right after reset. -/

namespace Sys2Proof.Machine

/-- Why an instruction cannot run at all. -/
inductive Fault where
  /-- Raised by `exec` of an encoded instruction when the state names no issuing path, or names one that is not there.
  Safe: the hardware has no such happening. -/
  | noIssuer
  deriving DecidableEq, Repr

/-- Why a step is refused. -/
inductive Refusal where
  /-- Raised by `exec` for an instruction whose meaning is not written yet. Safe. -/
  | notModelled (mnemonic : String)
  /-- Raised by `step` when the agenda asks a path to issue that cannot issue now (free, waiting, parked, held, or held
  back by a lookahead window or a counter). Safe: the hardware does not issue it either. -/
  | notReady
  deriving DecidableEq, Repr

/-! ## Storage (R223) -/

/-- Where a byte lives (R223, R390): local memory behind its home slice, host memory, a peer device, a CXL pool, a
block's scratchpad, or the reckoned lines of an address space. -/
inductive Sp where
  | loc
  | host
  | peer (k : Nat)
  | pool (k : Nat)
  | scr (g : GangKey) (role : Nat)
  | rk (asn : Nat)
  deriving DecidableEq, Repr

/-- The timestamps of a home line or scratchpad word (R228). -/
structure Stamp where
  wts : Nat := 0
  rts : Nat := 0
  deriving DecidableEq, Repr

/-- A home line that has been read or written: its key is the storage and the line number (word number in scratchpad). -/
structure Home where
  sp : Sp
  line : Nat
  ts : Stamp
  deriving DecidableEq, Repr

/-- A copy of a home line in an L1 (place = core, 0-127) or a cluster cache (place = 128 + cluster): the data and the
timestamps the home held when the copy was made (R228), the moment it was taken (R231), its place in the sequence of
accesses, and that of the last access it served (R391). -/
structure Copy where
  place : Nat
  sp : Sp
  line : Nat
  data : List Byte
  ts : Stamp
  taken : Nat
  seq : Nat
  used : Nat := 0
  deriving DecidableEq, Repr

/-- A relaxed store that has not reached its home (R231). -/
structure Relaxed where
  agent : Nat
  sp : Sp
  addr : Nat
  bytes : List Byte
  since : Nat
  /-- the release fences that act on it: agent scope, storage scope, place in the sequence (R234) -/
  rel : List (Nat × Nat × Nat) := []
  deriving DecidableEq, Repr

/-- Who makes an access, as the scopes of R232 tell them apart: a wave or pilot program, which keeps its gang and role after it has
ended; an engine, whose stamp and pointer R240 speaks of; another unit of the device; the host or a peer device. -/
inductive Who where
  | agent (num : Nat) (gang : GangKey) (role : Nat) (pilot : Bool)
  | engine
  | unit
  | host
  deriving DecidableEq, Repr

/-- What a release left at the bytes it wrote, in one unit of timestamps (R234, R235): who, in which scopes, and after which
access; and the first timestamp at which its sequence has ended, while a copy may still show a value of it. -/
structure Release where
  who : Who
  ended : Option Nat := none
  sp : Sp
  addr : Nat
  len : Nat
  scope : Nat
  storage : Nat
  seq : Nat
  ts : Nat
  /-- the releaser's logical clock -/
  clk : Nat
  deriving DecidableEq, Repr

/-! ## Agents and paths (R25-R42, R99) -/

/-- The registers of a wave or pilot program that an instruction reads: vector registers (key 32 * register + lane),
predicates (key lane, bit K is pK), and the wave-scope special registers (R36, R39, R43). -/
structure Regs where
  v : List (Nat × Word) := []
  p : List (Nat × BitVec 16) := []
  rnd : Word := 0
  trapen : Word := 0
  arith : Word := 0
  mem : Word := 0
  fmask : Word := 0
  deriving DecidableEq, Repr

/-- A fault code with its lanes and INFO (R429, R433), issued in supervisor mode or not; of a completion trap, the clock at which its
instruction completed (R430), and whether the path's next instruction was waiting for that (R173). -/
structure FaultRec where
  code : Nat
  kind : Nat
  mask : Word
  info : Dword
  pc : Dword
  sup : Bool
  clk : Nat := 0
  mid : Bool := false
  deriving DecidableEq, Repr

/-- A translation miss (R393, R394): the line and address of the invalid entry, its level, the effective address of the
lowest missing lane, and the kind of access. -/
structure Miss where
  va : Dword
  pte : Nat
  level : Nat
  kind : Nat
  deriving DecidableEq, Repr

/-- Why a path is parked. -/
inductive Park where
  /-- On a translation miss (R393): the lines of the invalid entries that its lanes met, each with a walker monitor or not; released by
  a write or not; since when. -/
  | xlate (m : Miss) (lines : List (Nat × Bool)) (woken : Bool) (since : Nat)
  /-- On wait nodes of fills (R354). -/
  | reckon (since : Nat)
  /-- On a reckoning resource within its depth limit (R353). -/
  | resource (since : Nat)
  deriving DecidableEq, Repr

/-- What a Blk instruction waits for (R82). -/
inductive Wait where
  | bar (k : Nat)
  | gbar (k : Nat)
  | waitc (all : Bool) (k n : Nat)
  | rdzv (k n : Nat) (arrived : Bool)
  | sleep (until_ : Nat)
  | mwait (until_ : Option Nat) (d : Nat) (lanes : Word)
  | regroup (n : Nat)
  | yield (others : List Nat)
  | varpt (id d : Nat) (since : Nat) (asked : Bool)
  | bobj (b : Nat)
  | locks (jobs : List Nat)
  | suspended (d : Nat) (lanes : Word)
  deriving DecidableEq, Repr

/-- An instruction of a bundle that has not completed (R56): its slot, the lanes it has still to run for, and the fault
it raised or the reason it parked. With neither, it is issued again alone. -/
structure Redo where
  pc : Dword
  lanes : Word
  flt : Option FaultRec := none
  park : Option Park := none
  deriving DecidableEq, Repr

/-- A bundle under way on a path (R56, R101): its first slot, the bundle that follows it in sequence, the slots still to
issue, the sources captured at its issue, the next PCs its branches computed, the lanes that leave, what is unfinished,
and whether a branch, call or return was taken (for the trace). -/
structure Bun where
  first : Dword
  next : Dword
  rest : List Dword
  src : Regs
  nexts : List (Nat × Dword) := []
  exits : Word := 0
  redo : List Redo := []
  /-- the slot under way, and whether it is issued again alone -/
  now : Option (Dword × Bool) := none
  /-- an ERET of the bundle, by its mode (R438) -/
  eret : Option Nat := none
  /-- a BRK of the bundle that stops hold, and the trap it is where no entry is free (R437, R471) -/
  brk : Option FaultRec := none
  aux : Nat := 0
  branch : Bool := false
  /-- false while no slot of the bundle has issued: its line or entry was refused -/
  started : Bool := true
  /-- results named below this number were outstanding when the bundle issued (R69) -/
  since : Nat := 0
  /-- the path's XMASK when it issued (R54), and the lanes that issue it: those left over wait for an entry (R102) -/
  xmask : Word := 0
  lanes : Word := 0
  /-- the line it issued from, its slots, and how many of the part under way have still to issue (R54) -/
  line : Line := 0
  slots : List Dword := []
  more : Nat := 0
  /-- which slot has written which registers (R55) -/
  claims : List (Nat × Dword) := []
  deriving DecidableEq, Repr

/-- The states of R99. -/
inductive PState where
  | free | eligible | join | stopped | parked
  deriving DecidableEq, Repr

/-- The entry check a path's next issue makes (R53): none, an entry point, or a handler entry with the code of the fault
that took it. -/
inductive Entry where
  | none | entry | handler (code : Nat)
  deriving DecidableEq, Repr

/-- One entry of a path table (R27, R99), or the one path of a pilot program. -/
structure Path where
  pc : Dword := 0
  xmask : Word := 0
  jpc : Option Dword := none
  st : PState := .free
  /-- held by a sibling's trap entry (R432) -/
  trapHeld : Bool := false
  /-- the wait of a Blk instruction -/
  wait : Option Wait := none
  park : Option Park := none
  bun : Option Bun := none
  /-- the bundle set aside while a handler runs (R438) -/
  saved : Option Bun := none
  /-- completion traps that are due, in the order of completion (R430) -/
  due : List FaultRec := []
  /-- reckoned lines (address space, line) whose fill ended without them: the replay completes with poison (R362) -/
  abort : List (Nat × Nat) := []
  entry : Entry := .none
  /-- the next bundle does not match a breakpoint: released (R472); and the cause of a stop that takes the path before the
  bundle after (R471, R472) -/
  released : Bool := false
  stepping : Option Nat := none
  /-- it was released, and a handler came before the bundle that it was held at -/
  relAfter : Bool := false
  /-- clocks for which it has been ready since it last issued, and whether it is overdue (R323, R326) -/
  ready : Nat := 0
  overdue : Bool := false
  /-- could not issue when it last tried; cleared when anything else happens -/
  stall : Bool := false
  deriving DecidableEq, Repr

/-- A monitor (R266, R267). -/
structure Monitor where
  armed : Option (Sp × Nat) := none
  ts : Nat := 0
  written : Bool := false
  lost : Bool := false
  deriving DecidableEq, Repr

/-- A wave or a pilot program (R224), by its agent number. -/
structure Agent where
  num : Nat
  gang : GangKey
  role : Nat
  /-- WAVEINBLK, or the pilot program's number -/
  idx : Nat
  pilot : Bool := false
  fill : Bool := false
  /-- a pilot program's own name, which it keeps wherever it runs (R291) -/
  born : Nat := 0
  nregs : Nat := 8
  regs : Regs := {}
  /-- d0-d5 (R40) -/
  d : List Nat := [0, 0, 0, 0, 0, 0]
  paths : List Path := []
  /-- MODE bit 0 (R399) and the frame of the running handler (R432) -/
  sup : Bool := false
  frame : Dword := 0
  /-- the path in the handler and the fault that took it there (R449) -/
  inTrap : Option (Nat × FaultRec) := none
  /-- the logical clock (R228), and the newest timestamp that a relaxed store of the agent took at its home -/
  clock : Nat := 0
  relTs : Nat := 0
  mon : Monitor := {}
  /-- the release fences that act on the next store, each with its place in the sequence, and the releases whose values the last
  load read (R234) -/
  relFence : List (Nat × Nat × Nat) := []
  lastRel : List Release := []
  /-- below this place in the sequence no copy of the storage kind serves a relaxed load (R231, R234): scr glb rkn host -/
  floors : List Nat := [0, 0, 0, 0]
  /-- bytes of which a copy older than what the agent has observed is still kept: storage, address, length, timestamp observed
  (R231 rule 1) -/
  seen : List (Sp × Nat × Nat × Nat) := []
  /-- the wave has no lanes left and waits for its outstanding instructions (R105) -/
  ending : Bool := false
  ended : Bool := false
  exitCode : Nat := 0
  /-- start clock, device time of the last issue or of the last moment that counts as one (R323, R440), the clock after its
  last own issue (R327), issues in a row of one path (R325) -/
  started : Nat := 0
  lastIssue : Nat := 0
  issuedAt : Nat := 0
  lastPath : Nat := 0
  inRow : Nat := 0
  youngest : Nat := 0
  /-- the newest stamp of the jobs whose counter has dropped, and its place in the sequence: the next WAITC acquires it
  (R290) -/
  jobSync : Nat × Nat := (0, 0)
  /-- held at an instruction boundary by a switch request (R345) -/
  paused : Bool := false
  /-- trace: clock of the last packet, of the last SYNC, and whether a SYNC is owed (R465, R467) -/
  trLast : Nat := 0
  trSync : Nat := 0
  trOwed : Bool := true
  trDrop : Bool := false
  deriving DecidableEq, Repr

/-- What a result waits for before it can become visible. -/
inductive Hold where
  | none
  | link (dir ch d : Nat) (lanes : Word)
  /-- the counter of an LNKS whose message has not landed (R277) -/
  | linkSent (msg : Nat)
  | permit (role n d : Nat) (lanes : Word)
  | engine (op : Nat)
  | engineDone (op : Nat)
  | job (id : Nat)
  /-- a contribution to a collective copy: D and the lanes of L (R289) -/
  | coll (d : Nat) (lanes : Word)
  /-- lines that a STAGE holds and that are not resident yet (R295) -/
  | stage (lines : List (Nat × Nat))
  deriving DecidableEq, Repr

/-- An outstanding variable-latency instruction (R65-R67): its windows, one for each path that its lanes run on, with what is left
of each, or its counter; the values its result will write, the flags and completion traps it will raise. Path 255 is an entry that
has been freed. (DESIGN CHOICE, log 117) -/
structure Pend where
  id : Nat
  agent : Nat
  path : Nat
  pc : Dword
  wins : List (Nat × Nat)
  cnt : Nat
  writes : List (Nat × Word) := []
  arith : Word := 0
  mem : Word := 0
  traps : List (Nat × Word × Dword) := []
  hold : Hold := .none
  /-- the stall reason of a wait for it, as a counter's index: MEM, or ENGINE for a unit's (R222, R475) -/
  why : Nat := 17
  /-- its destinations, and those that something later has overwritten (R69) -/
  dest : List Nat := []
  covered : List Nat := []
  /-- TRAPEN and MODE when it issued (R121, R430) -/
  trapen : Word := 0
  sup : Bool := false
  /-- the refreshes that its accesses have met end then (R456) -/
  behind : Nat := 0
  deriving DecidableEq, Repr

/-! ## Tiles and the matrix engine (R161-R189) -/

/-- A tile register with its shape register and headers (R161, R162). -/
structure Tile where
  rows : Nat := 0
  kblk : Nat := 0
  kind : Nat := 0
  bytes : List (Nat × Byte) := []
  scale : List (Nat × Byte) := []
  tag : List (Nat × Byte) := []
  deriving DecidableEq, Repr

/-- A barrier object (R169, R186); `phase` counts its armings. -/
structure BObj where
  count : Nat := 0
  arr : Nat := 0
  phase : Nat := 0
  deriving DecidableEq, Repr

/-- Bytes of a tile row, with header entries (block, SCALE, TAG), that an accepted instruction will write. -/
structure TileWrite where
  row : Nat
  off : Nat := 0
  bytes : List Byte := []
  hdr : List (Nat × Nat × Nat) := []
  deriving DecidableEq, Repr

/-- One row, or one block of a row, of a TLD or TST: its address, length, and block number on a formatted page. -/
structure TileRow where
  row : Nat
  va : Nat
  len : Nat
  block : Option Nat
  fmt : Nat
  deriving DecidableEq, Repr

/-- Where a row, or a block of a row, of a TST goes: its address and length, and the pieces of storage (R177, R178). -/
structure TileStore where
  row : Nat
  block : Option Nat
  dest : List (Sp × Nat × Nat)
  va : Nat := 0
  len : Nat := 0
  deriving DecidableEq, Repr

/-- Where a row or block of a TLD comes from (R179): the pieces of storage that the engine reads when it performs it; or the poison of a
fill that ended without them. -/
inductive RowSrc where
  | at (ps : List (Sp × Nat × Nat))
  | poison (code : Nat)
  deriving DecidableEq, Repr

/-- An accepted engine instruction (R166, R167): from which agent, or for which matrix job; the shapes it was checked
against, what it reads from registers, where its rows of memory lie, the object it waits for and the one it arrives at (R169). -/
structure EngOp where
  id : Nat
  agent : Nat
  job : Option Nat := none
  instr : Instr
  rnd : Nat := 0
  lanes : Word := 1
  shapes : List (Nat × Nat × Nat) := []
  tw : List TileWrite := []
  ts : List TileStore := []
  ld : List (TileRow × RowSrc) := []
  mem : Word := 0
  traps : List (Nat × Word × Dword) := []
  aft : Option (Nat × Nat) := none
  arv : Option (Nat × Nat) := none
  /-- it waits for a reckoning resource since then (R353) -/
  retry : Option Nat := none
  /-- the engine has performed it; it stays until its result is visible (R168); the clock at which it started it (R187, R188) -/
  done : Bool := false
  start : Nat := 0
  deriving DecidableEq, Repr

/-! ## Blocks, gangs, launches, queues (R25-R33, R303-R330) -/

/-- A kernel variant (R312). -/
structure Variant where
  entry : Nat := 0
  regs : Nat := 0
  waves : Nat := 0
  scratch : Nat := 0
  nt : Nat := 0
  na : Nat := 0
  deriving DecidableEq, Repr

/-- A switch point of a kernel header (R312). -/
structure SwitchPt where
  id : Nat := 0
  live : Nat := 0
  bytes : Nat := 0
  resume : List Nat := []
  deriving DecidableEq, Repr

/-- A kernel header (R312). -/
structure Kernel where
  addr : Nat := 0
  gang : Nat := 1
  fw : Nat := 0
  fh : Nat := 0
  restart : Bool := false
  reckoner : Bool := false
  pilot : Bool := false
  pregs : Nat := 0
  pentry : Nat := 0
  variants : List Variant := []
  switches : List SwitchPt := []
  deriving DecidableEq, Repr

/-- A block (R25, R29, R161). -/
structure Block where
  gang : GangKey
  role : Nat
  core : Nat := 0
  phys : Nat := 0
  blockIdx : Nat := 0
  variant : Nat := 0
  scrSize : Nat := 0
  scr : List Host.Cell := []
  energy : Nat := 0
  exitStatus : Nat := 0
  faults : List Nat := []
  ended : Bool := false
  endedAt : Nat := 0
  nt : Nat := 0
  na : Nat := 0
  tiles : List Tile := []
  accs : List (List (Nat × Word)) := []
  bobj : List BObj := []
  engq : List EngOp := []
  /-- the engine is occupied and starts nothing that it accepts (R187) -/
  engBusy : Bool := false
  /-- permit reservations by agent (R341) -/
  rsv : List (Nat × Nat) := []
  deriving DecidableEq, Repr

/-- Where a gang stands. -/
inductive GangSt where
  /-- to be placed afresh, from the launch record -/
  | waiting
  | resident
  /-- in the context store, eligible to be placed -/
  | saved
  /-- in the context store until a CTXLD names it (R442) -/
  | suspended
  deriving DecidableEq, Repr

/-- A pre-emption or switch wanted of a gang (R318, R321, R345). -/
structure Wanted where
  /-- device time at which a pending pre-emption was decided -/
  preempt : Option Nat := none
  rotate : Bool := false
  leave : Bool := false
  deriving DecidableEq, Repr

/-- A run of context-store slots and the header written in its first (R441). -/
structure Slots where
  first : Nat
  len : Nat
  state : Nat
  ctx : Nat
  gang : GangKey
  saved : Nat
  swid : Nat
  /-- the gang's members, the pilot programs saved, the queue number, and the wait nodes that name the gang at the save (R364) -/
  size : Nat := 1
  pilots : Nat := 0
  queue : Nat := 0
  wnodes : Nat := 0
  deriving DecidableEq, Repr

/-- A gang of a launch, or a fill block (R29, R356). -/
structure Gang where
  key : GangKey
  ctx : Nat
  queue : Nat := 0
  prio : Nat := 0
  st : GangSt := .waiting
  size : Nat := 1
  cluster : Nat := 0
  fw : Nat := 1
  fh : Nat := 1
  fx : Nat := 0
  fy : Nat := 0
  placedAt : Nat := 0
  want : Wanted := {}
  fill : Bool := false
  /-- its run of slots while it is saved (R441); its blocks and agents stay in the lists of the machine -/
  slots : Option Slots := none
  /-- a restart checkpoint: its slots, blocks and agents, and the switch id it resumes at; with no blocks, the launch
  record (R445) -/
  ckSlots : Option Slots := none
  ckId : Option Nat := none
  ckBlocks : List Block := []
  ckAgents : List Agent := []
  reexec : Option Nat := none
  /-- a switch record: resumes at this switch id (R319) -/
  swid : Option Nat := none
  /-- waiting for slots since (R487) -/
  saveSince : Option Nat := none
  stopped : Bool := false
  migrating : Bool := false
  /-- a path of it has been held by a stop since then (R473) -/
  stopSince : Option Nat := none
  rotatedAt : Option Nat := none
  /-- rendezvous phases: point, n, agents that arrived (R337) -/
  rdzv : List (Nat × Nat × List Nat) := []
  /-- reserved permits requested and not yet granted: agent, role, n, in order (R341) -/
  permitQ : List (Nat × Nat × Nat) := []
  /-- a switch request of the helm stands (R345, R346) -/
  request : Bool := false
  /-- forwarding entries at the cores it has left, by role (R31, R260) -/
  fwd : List (Nat × Nat) := []
  /-- reserved job entries at clusters it has left, until its jobs of before have completed there: cluster, entries, and the name below which
  its jobs are of before (R320) -/
  oldEntries : List (Nat × Nat × Nat) := []
  /-- the newest logical clock of its agents that have ended (R230) -/
  clock : Nat := 0
  deriving DecidableEq, Repr

/-- A launch of the launch table (R307, R311, R316, R411). -/
structure Launch where
  id : Nat
  queue : Nat
  ctx : Nat
  kernel : Kernel := {}
  record : List Byte := []
  ngang : Nat := 0
  laneMask : Word := 0
  taken : Nat := 0
  deadline : Nat := 0
  clock : Nat := 0
  placed : Nat := 0
  retired : Nat := 0
  status : Nat := 0
  energy : Nat := 0
  blocks : Nat := 0
  stgStart : Option Nat := none
  staged : Bool := false
  stgLines : List (Sp × Nat) := []
  /-- the group binding table as it stood when the record was taken (R34) -/
  bind : List Nat := []
  deriving DecidableEq, Repr

/-- What the helm holds of a queue beside its descriptor in memory (R304-R310): its state, the launches' common data and
the device times at which its pending records became pending. -/
structure Queue where
  q : Nat
  ctx : Nat := 0
  kernel : Kernel := {}
  head : Nat := 0
  tail : Nat := 0
  status : Nat := 0
  ovr : Bool := false
  late : Nat := 0
  pendingAt : List (Nat × Nat) := []
  /-- logical clocks of appends, by record (R230, R245) -/
  clocks : List (Nat × Nat) := []
  deriving DecidableEq, Repr

/-! ## Contexts and translation (R383-R402) -/

/-- A leaf entry's contents (R386, R388). -/
structure Leaf where
  fmt : Nat := 0
  target : Nat := 0
  chip : Nat := 0
  pfn : Nat := 0
  logSize : Nat := 12
  sup : Bool := false
  rk : Bool := false
  x : Bool := false
  w : Bool := false
  r : Bool := false
  deriving DecidableEq, Repr

/-- A cached translation (R392). -/
structure Xlate where
  asn : Nat
  page : Nat
  leaf : Leaf
  deriving DecidableEq, Repr

/-- A context (R395-R397): its state, what its descriptor held at creation, and its context-scope registers with the
timestamps of their homes (R49). -/
structure Ctx where
  id : Nat
  cstate : Nat := 0
  root : Nat := 0
  asn : Nat := 0
  chanstat : Nat := 0
  rktab : Nat := 0
  rkcount : Nat := 0
  stgquota : Nat := 0
  acct : Nat := 0
  fring : Nat := 0
  frlog : Nat := 0
  msix : Nat := 0
  trapvec : Dword := 0
  trapvecTs : Stamp := {}
  nestmax : Nat := 2
  nestmaxTs : Stamp := {}
  /-- fault ring WIDX and LOST, block record index (R394, R411) -/
  fwidx : Nat := 0
  flost : Nat := 0
  bwidx : Nat := 0
  blost : Nat := 0
  /-- channel write pointers by cluster * 12 + kind and submission counts (R281, R284) -/
  wptr : List (Nat × Nat) := []
  subs : List (Nat × Nat) := []
  /-- last timestamp of the task scheduler (R284) -/
  schedTs : Nat := 0
  deriving DecidableEq, Repr

/-! ## Reckoned memory (R348-R372) -/

/-- Who waits on a fill (R354). A path keeps its node while its gang is saved (R364). -/
inductive Waiter where
  | path (agent path : Nat)
  | job (id : Nat)
  /-- a TLD that its engine has accepted, by its agent and name: its line left before the engine read it -/
  | op (agent id : Nat)
  deriving DecidableEq, Repr

/-- A wait node: who, with which lines of the unit (R354). A fill's priority and deadline are those of the moment; `prio` and `deadline`
are those of any other waiter, a job's as it was submitted (R359). -/
structure Node where
  id : Nat
  who : Waiter
  /-- the fill whose agent waits here, if it is one -/
  fill : Option Nat
  prio : Nat
  deadline : Nat
  lines : List Nat
  deriving DecidableEq, Repr

/-- A pending fill (R354-R362). -/
structure Fill where
  id : Nat
  ctx : Nat
  asn : Nat
  rkidx : Nat
  unit : Nat
  /-- number of the unit's first line (address / 128), and lines -/
  base : Nat
  nlines : Nat
  depth : Nat
  prio : Nat
  budget : Nat
  param : Dword
  missva : Dword
  kernel : Kernel
  clock : Nat
  created : Nat
  launched : Option GangKey := none
  /-- its depth when it was launched (R356) -/
  launchDepth : Nat := 0
  committed : List Nat := []
  stale : Bool := false
  reason : Nat := 255
  nodes : List Node := []
  deriving DecidableEq, Repr

/-- A prefetch-form miss that waits for a pending-miss entry (R353): its line, the depth of who asked, and its clock. -/
structure FillAsk where
  ctx : Nat
  rkidx : Nat
  line : Nat
  depth : Nat
  clock : Nat
  deriving DecidableEq, Repr

/-- A resident reckoned line (R244). -/
structure RkLine where
  asn : Nat
  line : Nat
  deriving DecidableEq, Repr

/-- A pinned unit (R371), by context, descriptor and unit. -/
structure Pin where
  ctx : Nat
  rkidx : Nat
  unit : Nat
  count : Nat
  deriving DecidableEq, Repr

/-! ## Copy, gather and matrix jobs (R278-R295) -/

/-- A region of a job (R283): a virtual range of the context, read or written, with its lines' translations locked. -/
structure Region where
  va : Nat
  len : Nat
  write : Bool
  deriving DecidableEq, Repr

/-- An extent of a job: how it is used, and the page formats its transform admits (0 any, 1 plain, 2 blocks, 3 blocks of more than
four bits; R288). -/
structure Ext where
  va : Nat
  len : Nat
  write : Bool
  fmt : Nat := 0
  deriving DecidableEq, Repr

/-- A submitted job (R278-R294). -/
structure Job where
  id : Nat
  ctx : Nat
  /-- the cluster and its counter: 0-7 a copy channel, 8 + role a matrix engine (R281) -/
  cluster : Nat
  chan : Nat
  /-- 0 copy, 1 gather, 2 codebook load, 3 matrix -/
  kind : Nat
  xform : Nat := 0
  ty : Ty := .none
  tag : Nat := 0
  auto : Bool := false
  /-- copy: source, destination, row length, rows, strides (as 64-bit numbers); gather: I, T, Q, N, E, element size;
  codebook load: address, entries; matrix: base, stride -/
  slices : List (List Nat) := []
  /-- a matrix job's word (R294), and the rounding mode that a dynamic rounding field takes -/
  word : Option Instr := none
  rnd : Nat := 0
  regions : List Region := []
  locks : List Xlate := []
  stamp : Nat := 0
  seq : Nat := 0
  /-- the submitting agents, and the gang and role whose block or engine it concerns -/
  agents : List Nat := []
  gang : GangKey
  role : Nat := 0
  sup : Bool := false
  /-- it holds the reserved entry of its block or pilot program (R278, R289) -/
  reserved : Option (List Nat) := none
  /-- what its reads of reckoned lines carry (R286): the submitter's fill, depth, priority, deadline and clock -/
  fill : Option Nat := none
  depth : Nat := 0
  prio : Nat := 0
  deadline : Nat := 0
  clock : Nat := 0
  started : Bool := false
  /-- it has finished its payload -/
  ran : Bool := false
  /-- the engine instruction of a matrix job -/
  op : Option Nat := none
  /-- the newest timestamp of its writes -/
  ts : Nat := 0
  /-- R282: FCODE, and POIS BCHK GIDX CBIDX SATF ARITHF from bit 0 up -/
  status : Nat := 0
  flags : Nat := 0
  /-- reckoned lines whose fill ended without them -/
  abort : List Nat := []
  deriving DecidableEq, Repr

/-- A block's collective copy under way (R289): the word its first contribution fixed, the stamp, which waves that have not ended
have contributed and what, the pages counted so far, the results that wait for its submission, and its newest contributor with that
one's clock and MODE (R284). -/
structure Collective where
  gang : GangKey
  role : Nat
  word : List Nat
  ty : Ty := .none
  stamp : Option Nat := none
  waves : List Nat := []
  slices : List (List Nat) := []
  exts : List Ext := []
  pages : List Xlate := []
  pends : List Nat := []
  last : Option Nat := none
  clock : Nat := 0
  sup : Bool := false
  /-- page-table lines on which the walk of the completed collective's job has found an invalid entry, and whether each has been written since -/
  missed : List (Nat × Bool) := []
  deriving DecidableEq, Repr

/-- A host's TLBI that has dropped its translations and is not complete (R402): the engine instructions that have still to make accesses under
them, and the jobs that hold locks on covered pages. -/
structure HostTlbi where
  users : List Nat := []
  locks : List Nat := []
  deriving DecidableEq, Repr

/-- A copy channel's codebook (R291): the owner that the most recently submitted CBLD named, and the entries loaded. -/
structure Codebook where
  cluster : Nat
  chan : Nat
  owner : List Nat := []
  entries : List (List Byte) := []
  deriving DecidableEq, Repr

/-- A message in a neighbour link (R275), from its sending until it is taken: the receiving gang, the side it arrives on and
its channel. A sender holds one credit less for each. -/
structure LinkMsg where
  id : Nat
  gang : GangKey
  dir : Nat
  ch : Nat
  words : List Word
  landed : Bool := false
  deriving DecidableEq, Repr

/-! ## Device units (R404-R475) -/

/-- A device event (R450). -/
structure Event where
  time : Nat
  kind : Nat
  unit : Nat
  num : Nat
  ctx : Nat := 255
  launch : Nat := 0
  detail : List Byte := []
  deriving DecidableEq, Repr

/-- A STOPTAB entry (R471). -/
structure Stop where
  slot : Nat
  pc : Dword
  agent : Nat
  path : Nat
  ctx : Nat
  cause : Nat
  xmask : Word
  deriving DecidableEq, Repr

/-- A bank sensor (R453, R454). -/
structure Sensor where
  bank : Nat
  st : Nat := 0
  latest : Int := 0
  samples : List Int := []
  deriving DecidableEq, Repr

/-- The refresh state of a bank (R455): its multiplier and the device time of its last refresh. -/
structure Bank where
  bank : Nat
  mult : Nat := 1
  last : Nat := 0
  deriving DecidableEq, Repr

/-- The lane-group tester of a slice (R457-R461). -/
structure Tester where
  slice : Nat
  group : Nat := 0
  testing : Bool := false
  spares : Nat := 2
  /-- the groups whose last pattern failed -/
  fails : List Nat := []
  retired : List Nat := []
  aborts : Nat := 0
  pfail : Nat := 0
  uncorr : Nat := 0
  degraded : Bool := false
  /-- the 64 ms period in which the next round of turns begins, and the device time from which an abandoned group is tried again (R457) -/
  round : Nat := 0
  retry : Nat := 0
  /-- device time at which the pattern under way began -/
  began : Nat := 0
  deriving DecidableEq, Repr

/-- What the device keeps of a core: junction temperature (1/16 degree), thermal stop (R11), fence and transient record
(R444, R447), corrected errors (R449), ALLOWANCE (R462). -/
structure CoreSt where
  core : Nat
  temp : Option Int := none
  stopped : Bool := false
  coolSince : Option Nat := none
  fenced : Bool := false
  transient : Bool := false
  corrected : Nat := 0
  allowance : Int := 0
  deriving DecidableEq, Repr

/-- A cached fetch line (R57): PCs are virtual, so it is named by core and address space, with whether its form is valid. -/
structure FetchLine where
  core : Nat
  asn : Nat
  va : Nat
  data : Line
  ok : Bool
  sup : Bool := false
  deriving DecidableEq, Repr

/-- An Ethernet port (R413-R416). -/
structure Port where
  port : Nat
  pctl : Dword := 0
  link : Bool := false
  ascap : Bool := false
  rxdrop : Nat := 0
  mac : Dword := 0
  ipv4 : Dword := 0
  ipv6lo : Dword := 0
  ipv6hi : Dword := 0
  spdmport : Dword := 0
  tcmap : Dword := 0
  txbase : Dword := 0
  txlog : Dword := 0
  txtail : Nat := 0
  txhead : Nat := 0
  rxbase : Dword := 0
  rxlog : Dword := 0
  rxtail : Nat := 0
  rxhead : Nat := 0
  gateEnabled : Bool := false
  adminStates : Nat := 0
  adminBase : Dword := 0
  adminCycle : Dword := 0
  adminExt : Dword := 0
  adminLen : Dword := 0
  adminList : List (Nat × Dword) := []
  operLen : Nat := 0
  operIdx : Nat := 0
  operStates : Nat := 0
  operBase : Dword := 0
  operCycle : Nat := 0
  operExt : Nat := 0
  operList : List (Nat × Dword) := []
  cfgErr : Nat := 0
  cfgPending : Option Nat := none
  cycleStart : Nat := 0
  entryEnd : Nat := 0
  sent : List Nat := []
  out : List (Nat × List Byte) := []
  /-- frames it has sent are on the wire until then -/
  busyUntil : Nat := 0
  /-- sequence number and device time of the last Sync that arrived (R413) -/
  syncAt : Option (Nat × Nat) := none
  /-- bytes received for the SPDM responder over TCP (R416) that make up no whole message yet -/
  tcpBuf : List Byte := []
  /-- the port's own frames that have not left, each with TXTAIL at the time (R416) -/
  own : List (Nat × List Byte) := []
  /-- the best grandmaster that was announced on the port, as its priority vector: less is better (R413) -/
  master : Option Nat := none
  deriving DecidableEq, Repr

/-- A display output (R421-R426). -/
structure Disp where
  out : Nat
  dpctl : Dword := 0
  hpd : Bool := false
  trained : Bool := false
  error : Bool := false
  trRate : Nat := 0
  trLanes : Nat := 0
  frames : Nat := 0
  pclk : Dword := 0
  htiming : Dword := 0
  vtiming : Dword := 0
  format : Dword := 0
  stride : Dword := 0
  scanbase : Dword := 0
  auxstat : Dword := 0
  auxdata : List Dword := [0, 0]
  auxBusy : Option (Nat × Nat × Nat) := none
  pending : Option (Dword × Option (BitVec 32)) := none
  scanTag : Option (BitVec 32) := none
  /-- a flip has reached a frame boundary -/
  shown : Bool := false
  training : Bool := false
  deriving DecidableEq, Repr

/-- An open wake trail (R424-R427). -/
structure Trail where
  tag : BitVec 32
  t0 : Nat
  t1 : Nat
  marks : List (Nat × Nat) := []
  tflip : Nat := 0
  out : Nat := 0
  flags : Nat := 0
  flipped : Bool := false
  opened : Nat := 0
  deriving DecidableEq, Repr

/-- The registers of BAR0 that stand alone (R404), the trace and stop registers among them (R464). -/
structure HostRegs where
  featLow : Dword := 0
  feat : BitVec 128 := 0
  featDone : Bool := false
  fixed : Bool := false
  shutdowns : Nat := 0
  refused : Bool := false
  overpower : Bool := false
  held : Bool := false
  powerlim : Nat := 900000
  qtable : Nat := 0
  ctxtable : Nat := 0
  tlbiLo : Dword := 0
  tlbiLen : Dword := 0
  wtring : Nat := 0
  wtlog : Nat := 0
  wakeTag : Option Dword := none
  wtwidx : Nat := 0
  wtridx : Nat := 0
  wtlost : Nat := 0
  syncOffset : Int := 0
  syncRate : Int := 0
  syncPort : Nat := 3
  syncState : Nat := 0
  stepped : Bool := false
  bindtab : Nat := 0
  cssize : Nat := 1024
  gddr : Nat := 48 * 2 ^ 30
  windows : List (Nat × Dword) := []
  evtcount : Nat := 0
  ctxEver : Bool := false
  trctl : Dword := 0
  trbase : Nat := 0
  trlog : Nat := 0
  trwidx : Nat := 0
  trridx : Nat := 0
  trlost : Nat := 0
  trpending : Nat := 0
  stoparm : List (Nat × Dword) := []
  bkpt : List (Nat × Dword) := []
  resyncSeq : Nat := 0
  /-- arithmetic clocks when the stall counters were last cleared (R474) -/
  stallSince : Nat := 0
  deriving DecidableEq, Repr

/-- Identity and the SPDM responder (R417-R420). -/
structure Attest where
  /-- the one firmware image, with its signature, and whether it failed its verification (R417, R420) -/
  firmware : List Byte := Config.firmwareImage
  signature : List Byte := Config.firmwareSignature
  recovery : Bool := false
  meas6 : List Byte := List.replicate 64 0
  measPart : List Byte := []
  /-- SPDM: how far the negotiation is (0 nothing, 1 version, 2 capabilities, 3 algorithms), the messages of it, of the
  measurements and of the certificates so far, and the responses sent, by transport -/
  stage : Nat := 0
  vca : List Byte := []
  measLog : List Byte := []
  certLog : List Byte := []
  responses : List (Nat × List Byte) := []
  /-- requests that have arrived, by transport, and wait for those before them (R419) -/
  requests : List (Nat × List Byte) := []
  nonces : Nat := 0
  sigs : Nat := 0
  deriving DecidableEq, Repr

/-- A host interrupt signalled (R393, R407, R450), by vector. -/
abbrev Signal := Nat

/-- The path that issues now: agent, path, slot, the captured sources, and the lanes it may run for (all of XMASK, or
the unfinished lanes of a replay, R56). -/
structure Cur where
  agent : Nat
  path : Nat
  pc : Dword
  src : Regs
  lanes : Word
  xmask : Word := 0
  /-- an unfinished instruction issued again alone (R56) -/
  replay : Bool := false
  /-- a later slot of a part that is under way (R54) -/
  cont : Bool := false
  /-- the path table before this issue (R467) -/
  tbl : List Path := []
  /-- the refreshes that its accesses so far have met end then (R456) -/
  behind : Nat := 0
  deriving DecidableEq, Repr

/-- What happens by itself: what recurs (R407, R453, R455, R457, R462, R463), and the service of a request that waits (R419). -/
inductive Recur where
  | allowance
  | sample
  | rotation
  | refresh (bank : Nat)
  | turn (slice : Nat)
  | overpower
  | request
  deriving DecidableEq, Repr

/-- What happens next, where the specification leaves the order or the moment open, and everything that arrives from
outside: the model reads it from this list, and follows the default order when the list is empty. -/
inductive Stim where
  | issue (agent path : Nat)
  | event (i : Instr)
  | advance (ticks clocks : Nat)
  | dropCopy (place : Nat) (sp : Sp) (line : Nat)
  | dropXlate (asn page : Nat)
  | dropFetch (core va : Nat)
  /-- one of an agent's relaxed stores reaches its home, by its place among them (R231) -/
  | drain (agent nth : Nat)
  | engine (g : GangKey) (role op : Nat)
  | engineBusy (g : GangKey) (role : Nat) (busy : Bool)
  | hostStore (sp : Sp) (addr : Nat) (bytes : List Byte)
  | temperature (core : Nat) (t : Option Int)
  | recur (r : Recur)
  /-- the caches of an agent's core take a copy of a line (R231) -/
  | takeCopy (agent : Nat) (sp : Sp) (line : Nat)
  deriving DecidableEq, Repr

/-- The machine. -/
structure State where
  /-- device time in sixteenths of a nanosecond (R5), and arithmetic clocks (R43) -/
  tick : Nat := 0
  clk : Nat := 0
  /-- ninths of a tick since the last arithmetic clock (R10) -/
  clkFrac : Nat := 0
  /-- memory by storage (R223); scratchpads are in their blocks -/
  loc : List Host.Cell := []
  host : List Host.Cell := []
  peer : List (Nat × List Host.Cell) := []
  pool : List (Nat × List Host.Cell) := []
  rkmem : List (Nat × List Host.Cell) := []
  homes : List Home := []
  copies : List Copy := []
  relaxed : List Relaxed := []
  releases : List Release := []
  poison : List (Sp × Nat) := []
  /-- the logical clock of the writers that are no agents: the host, the device's own units (R239, R245) -/
  extClk : Nat := 0
  /-- number of accesses made, of leases chosen, of free values taken, and of names given out -/
  seq : Nat := 0
  leases : Nat := 0
  fresh : Nat := 0
  nextId : Nat := 1
  /-- agents and what they have under way -/
  agents : List Agent := []
  pend : List Pend := []
  blocks : List Block := []
  gangs : List Gang := []
  launches : List Launch := []
  queues : List Queue := []
  nextLaunch : Nat := 1
  slotRuns : List Slots := []
  /-- the host's TLBIs that have not completed (R402) -/
  hostTlbis : List HostTlbi := []
  /-- contexts and translation -/
  ctxs : List Ctx := []
  tlb : List Xlate := []
  fetch : List FetchLine := []
  /-- reckoned memory -/
  fills : List Fill := []
  asks : List FillAsk := []
  rkLines : List RkLine := []
  pins : List Pin := []
  /-- engines and links -/
  jobs : List Job := []
  colls : List Collective := []
  books : List Codebook := []
  /-- the newest timestamp of the jobs completed on a counter, by cluster * 16 + counter (R240) -/
  chanTs : List (Nat × Nat) := []
  stageHolds : List (Nat × Sp × Nat) := []
  links : List LinkMsg := []
  /-- the device -/
  regs : HostRegs := {}
  events : List Event := []
  signals : List Signal := []
  stops : List Stop := []
  stalls : List (Nat × Nat) := []
  /-- the partitions (core * 4 + number) and pilots (512 + cluster) that have issued in this clock (R323, R327) -/
  issued : List Nat := []
  cores : List CoreSt := []
  sensors : List Sensor := []
  banks : List Bank := []
  testers : List Tester := []
  /-- the periods, of 8 µs, 64 µs and 1 ms, of the last sample, allowance update and rotation pass (R453, R462, R463) -/
  sampledIn : Nat := 0
  allowedIn : Nat := 0
  rotatedIn : Nat := 0
  ports : List Port := [{ port := 0, mac := (Config.macAddr 0).zeroExtend 64 }, { port := 1, mac := (Config.macAddr 1).zeroExtend 64 }]
  disps : List Disp := [{ out := 0 }, { out := 1 }, { out := 2 }, { out := 3 }]
  trails : List Trail := []
  attest : Attest := {}
  pilotLast : List (Nat × Nat) := []
  power : Nat := 0
  overSince : Option Nat := none
  /-- the issuing path while `exec` runs, and what comes next -/
  cur : Option Cur := none
  agenda : List Stim := []
  deriving DecidableEq, Repr

/-- The machine right after reset: every field at the value the specification gives, or at the value its log entry
names. (PRESUMED, log 7) -/
def State.reset : State := {}

end Sys2Proof.Machine
end

