-- ==== Sys2Proof/Machine/Mem.lean ====
section
/-! DEFINITION. Memory: the sparse maps every store of the machine is made of, the storages of R223, the timestamps, leases
and copies of R228, relaxed accesses (R231), releases and acquires (R234), poison (R488) and monitors' sight of writes. -/

namespace Sys2Proof.Machine

/-! ## Sparse maps in canonical form -/

/-- The value at a key; `d` where nothing is listed. -/
def mget (d : α) : List (Nat × α) → Nat → α
  | [], _ => d
  | (k', x) :: t, k => if k = k' then x else mget d t k

/-- The entries of a key removed. -/
def merase : List (Nat × α) → Nat → List (Nat × α)
  | [], _ => []
  | (k', y) :: t, k => if k = k' then merase t k else (k', y) :: merase t k

/-- An entry put in its place. -/
def minsert : List (Nat × α) → Nat → α → List (Nat × α)
  | [], k, x => [(k, x)]
  | (k', y) :: t, k, x =>
    if k < k' then (k, x) :: (k', y) :: t
    else if k = k' then (k, x) :: t
    else (k', y) :: minsert t k x

/-- The map with the value at a key replaced: keys stay rising, and no entry equals the default. -/
def mset [DecidableEq α] (d : α) (l : List (Nat × α)) (k : Nat) (x : α) : List (Nat × α) :=
  if x = d then merase l k else minsert l k x

/-- Keys above a bound, strictly rising, and no entry equal to the default. -/
def mwfFrom [DecidableEq α] (d : α) : Nat → List (Nat × α) → Bool
  | _, [] => true
  | lo, (k, x) :: t => decide (lo ≤ k) && decide (x ≠ d) && mwfFrom d (k + 1) t

/-- The canonical form of a map. -/
def mwf [DecidableEq α] (d : α) (m : List (Nat × α)) : Bool := mwfFrom d 0 m

/-- The canonical form of a memory: what an unlisted byte reads as is 0. -/
def Memory.wf (m : List Host.Cell) : Bool := mwf 0 m

/-- The elements that satisfy `p` changed by `f`. -/
def updWhere (p : α → Bool) (f : α → α) (l : List α) : List α := l.map fun x => if p x then f x else x

/-- The first element of a keyed list, or a default one. -/
def findD (p : α → Bool) (l : List α) (d : α) : α := (l.find? p).getD d

/-! ## Bytes and words (R2) -/

/-- Bits hi..lo of a number. -/
def bitsOf (x hi lo : Nat) : Nat := x / 2 ^ lo % 2 ^ (hi - lo + 1)

def bitOf (x k : Nat) : Bool := x / 2 ^ k % 2 == 1

/-- The number of little-endian bytes. -/
def leNat : List Byte → Nat
  | [] => 0
  | b :: t => b.toNat + 256 * leNat t

/-- The `n` low bytes of a number, lowest first. -/
def leBytes : Nat → Nat → List Byte
  | 0, _ => []
  | n + 1, x => BitVec.ofNat 8 x :: leBytes n (x / 256)

/-- Bytes off..off+len-1 of a list as a number; absent bytes are 0. -/
def leField (bs : List Byte) (off len : Nat) : Nat := leNat ((bs.drop off).take len)

/-- Round up to a multiple. -/
def roundUp (x m : Nat) : Nat := (x + m - 1) / m * m

/-- The lanes of a mask, ascending. -/
def lanesOf (m : Word) : List Nat := (List.range 32).filter fun l => m.getLsbD l

/-- The mask of a list of lanes. -/
def maskOf (ls : List Nat) : Word := ls.foldl (fun m l => m ||| (1 : Word) <<< l) 0

/-! ## Storage -/

def State.blockOf? (s : State) (g : GangKey) (role : Nat) : Option Block :=
  s.blocks.find? fun b => b.gang == g && b.role == role

def State.updBlock (s : State) (g : GangKey) (role : Nat) (f : Block → Block) : State :=
  { s with blocks := updWhere (fun b => b.gang == g && b.role == role) f s.blocks }

/-- The bytes of a storage. -/
def State.cells (s : State) : Sp → List Host.Cell
  | .loc => s.loc
  | .host => s.host
  | .peer k => mget [] s.peer k
  | .pool k => mget [] s.pool k
  | .scr g r => ((s.blockOf? g r).map (·.scr)).getD []
  | .rk asn => mget [] s.rkmem asn

def State.setCells (s : State) (sp : Sp) (c : List Host.Cell) : State :=
  match sp with
  | .loc => { s with loc := c }
  | .host => { s with host := c }
  | .peer k => { s with peer := mset [] s.peer k c }
  | .pool k => { s with pool := mset [] s.pool k c }
  | .scr g r => s.updBlock g r fun b => { b with scr := c }
  | .rk asn => { s with rkmem := mset [] s.rkmem asn c }

/-- One byte as its home holds it; a byte that nothing has written reads 0. -/
def State.byteAt (s : State) (sp : Sp) (a : Nat) : Byte := mget 0 (s.cells sp) a

/-- Bytes of a map from an address on. (DESIGN CHOICE, log 1) -/
def cellsRead (c : List Host.Cell) (a n : Nat) : List Byte := (List.range n).map fun i => mget 0 c (a + i)

/-- Bytes written to a map from an address on. -/
def cellsWrite (c : List Host.Cell) (a : Nat) : List Byte → List Host.Cell
  | [] => c
  | b :: t => cellsWrite (mset 0 c a b) (a + 1) t

/-- The bytes at their home. -/
def State.readHome (s : State) (sp : Sp) (a n : Nat) : List Byte := cellsRead (s.cells sp) a n

/-- The unit of timestamps: a 128-byte line, or a scratchpad word (R228). -/
def lineOf (sp : Sp) (a : Nat) : Nat :=
  match sp with
  | .scr _ _ => a / 4
  | _ => a / 128

/-- The timestamp units an access touches. -/
def linesOf (sp : Sp) (a n : Nat) : List Nat :=
  let lo := lineOf sp a
  (List.range (lineOf sp (a + (n - 1)) - lo + 1)).map (lo + ·)

def State.stampOf (s : State) (sp : Sp) (line : Nat) : Stamp :=
  match s.homes.find? fun h => h.sp == sp && h.line == line with
  | some h => h.ts
  | none => {}

def State.setStamp (s : State) (sp : Sp) (line : Nat) (ts : Stamp) : State :=
  { s with homes := { sp := sp, line := line, ts := ts } :: s.homes.filter fun h => !(h.sp == sp && h.line == line) }

/-- Storage whose lines may be copied on the device (R223, R390). -/
def cacheable : Sp → Bool
  | .loc | .rk _ | .pool _ => true
  | _ => false

/-- The storage kind of a scope (R223): 0 scratchpad, 1 global, 2 reckoned, 3 host. -/
def spKind : Sp → Nat
  | .scr _ _ => 0
  | .loc => 1
  | .rk _ => 2
  | _ => 3

/-- Whether a storage scope of R63 takes in a kind (R233). -/
def scopeHas (storage kind : Nat) : Bool := storage == 4 || storage == kind

/-- A write seen by monitors (R267), by walker monitors (R393): MARM's monitor on the line becomes written, and paths that park or are
to park on a page-table line are released. -/
def noteWrite (s : State) (sp : Sp) (a n : Nat) : State :=
  let ls := linesOf sp a n
  let hit (l : Nat) : Bool := ls.contains l
  let fixPark (k : Park) : Park :=
    match k with
    | .xlate m armed w since => .xlate m armed (w || (sp == .loc && armed.any fun e => e.2 && hit e.1)) since
    | k => k
  let fixPath (p : Path) : Path :=
    { p with park := p.park.map fixPark, bun := p.bun.map fun b => { b with redo := b.redo.map fun r => { r with park := r.park.map fixPark } } }
  let fixAgent (x : Agent) : Agent :=
    let mon := match x.mon.armed with
      | some (asp, al) => if asp == sp && hit al then { x.mon with written := true } else x.mon
      | none => x.mon
    { x with mon := mon, paths := x.paths.map fixPath }
  let fixColl (c : Collective) : Collective := { c with missed := c.missed.map fun e => (e.1, e.2 || (sp == .loc && hit e.1)) }
  { s with agents := s.agents.map fixAgent, colls := s.colls.map fixColl }

/-! ## Slices and banks (R19, R452, R455) -/

/-- The home slice of a physical address (R19). -/
def sliceOf (pa : Nat) : Nat := (bitsOf pa 12 7 ^^^ bitsOf pa 18 13) ^^^ bitsOf pa 24 19

/-- The home slice of a reckoned line (R19). -/
def rkSlice (asn va : Nat) : Nat := sliceOf va ^^^ (asn % 64)

def State.bankOf (s : State) (b : Nat) : Bank := findD (fun x => x.bank == b) s.banks { bank := b }
def State.setBank (s : State) (x : Bank) : State := { s with banks := x :: s.banks.filter fun y => y.bank != x.bank }

/-- R452: the bank of the stacked cache that a line lies in: the physical address of a local or pool line counts, the virtual address of
a reckoned one. (DESIGN CHOICE, log 96) -/
def homeBank (sp : Sp) (line : Nat) : Option Nat :=
  let a := 128 * line
  let bank (slice : Nat) : Nat := 16 * slice + (bitsOf a 28 25 ^^^ bitsOf a 32 29)
  match sp with
  | .loc | .pool _ => some (bank (sliceOf a))
  | .rk asn => some (bank (rkSlice asn a))
  | _ => none

/-- The end of the refresh that occupies a bank for 350 ns (R455), 0 where it is not being refreshed. -/
def State.refreshEnd (s : State) (bank : Nat) : Nat :=
  let k := s.bankOf bank
  if k.last != 0 && s.tick < k.last + 5600 then k.last + 5600 else 0

/-- R456: an access of the issuing instruction comes to the home of a line, and waits there for the refresh of its bank. (DESIGN CHOICE, log 96) -/
def meetRefresh (s : State) (sp : Sp) (line : Nat) : State :=
  match homeBank sp line with
  | some b => { s with cur := s.cur.map fun c => { c with behind := max c.behind (s.refreshEnd b) } }
  | none => s

/-- R488: the 16-byte units an access touches. -/
def unitsOf (a n : Nat) : List Nat := (List.range ((a + (n - 1)) / 16 - a / 16 + 1)).map (a / 16 + ·)

def State.poisoned (s : State) (sp : Sp) (a n : Nat) : Bool := (unitsOf a n).any fun u => s.poison.contains (sp, u)

/-- R488: a unit stops being poisoned when one write covers all of its bytes. -/
def unpoison (s : State) (sp : Sp) (a n : Nat) : State :=
  { s with poison := s.poison.filter fun (psp, u) => !(psp == sp && a ≤ 16 * u && 16 * u + 16 ≤ a + n) }

def addPoison (s : State) (sp : Sp) (a n : Nat) : State :=
  { s with poison := (unitsOf a n).foldl (fun ps u => if ps.contains (sp, u) then ps else (sp, u) :: ps) s.poison }

/-- Bytes put in their place, seen by monitors; the release sequences there go on (an atomic's write, R235). -/
def State.writeOn (s : State) (sp : Sp) (a : Nat) (bs : List Byte) : State :=
  noteWrite (unpoison (s.setCells sp (cellsWrite (s.cells sp) a bs)) sp a bs.length) sp a bs.length

def overlaps (a n b m : Nat) : Bool := a < b + m && b < a + n

/-- Whether a copy kept on the device still shows a value of a sequence. -/
def State.shows (s : State) (r : Release) : Bool :=
  match r.ended with
  | none => true
  | some e => s.copies.any fun k => k.sp == r.sp && k.line == lineOf r.sp r.addr && r.ts ≤ k.ts.wts && k.ts.wts < e

/-- The parts of a release before, in and after a range of bytes. The part in it ends there (R235): the home has shown the values
of its sequence up to now. -/
def Release.cut (r : Release) (a n now : Nat) : List Release :=
  let part (lo hi : Nat) : Release := { r with addr := lo, len := hi - lo }
  let mid := part (max r.addr a) (min (r.addr + r.len) (a + n))
  (if r.addr < a then [part r.addr a] else []) ++ [{ mid with ended := some (mid.ended.getD (now + 1)) }]
    ++ (if a + n < r.addr + r.len then [part (a + n) (r.addr + r.len)] else [])

/-- R235: a store that is no atomic ends the release sequences of its bytes; one that no copy shows any more is forgotten. -/
def State.endSequences (s : State) (sp : Sp) (a n : Nat) : State :=
  { s with releases := s.releases.flatMap fun r =>
      if r.sp == sp && overlaps r.addr r.len a n then (r.cut a n (s.stampOf sp (lineOf sp r.addr)).wts).filter s.shows else [r] }

/-- Bytes written at their home, with no timestamp of their own (engines, the host, the device: R239, R245). -/
def State.writeRaw (s : State) (sp : Sp) (a : Nat) (bs : List Byte) : State := (s.endSequences sp a bs.length).writeOn sp a bs

/-! ## Agents -/

def State.agent? (s : State) (n : Nat) : Option Agent := s.agents.find? fun x => x.num == n && !x.ended

def State.updAgent (s : State) (n : Nat) (f : Agent → Agent) : State :=
  { s with agents := updWhere (fun x => x.num == n && !x.ended) f s.agents }

def State.gang? (s : State) (k : GangKey) : Option Gang := s.gangs.find? fun g => g.key == k

def State.updGang (s : State) (k : GangKey) (f : Gang → Gang) : State :=
  { s with gangs := updWhere (fun g => g.key == k) f s.gangs }

def State.ctx? (s : State) (c : Nat) : Option Ctx := s.ctxs.find? fun x => x.id == c

def State.updCtx (s : State) (c : Nat) (f : Ctx → Ctx) : State :=
  { s with ctxs := updWhere (fun x => x.id == c) f s.ctxs }

/-- The core an agent's copies are kept at: its block's core; a pilot program's, its gang's member 0 (R42, R228). -/
def State.coreOf (s : State) (x : Agent) : Nat := ((s.blockOf? x.gang x.role).map (·.core)).getD 0

/-- The places whose copies serve an agent: its core's L1, then its cluster's cache (R223). -/
def State.placesOf (s : State) (x : Agent) : List Nat := let c := s.coreOf x; [c, 128 + c / 4]

/-- Who an agent's accesses are made by. -/
def State.whoOf (s : State) (n : Nat) : Who :=
  match s.agent? n with
  | some x => .agent n x.gang x.role x.pilot
  | none => .unit

/-- R232: whether `y` lies in an agent scope of `x`. The host and the peer devices lie in `.sys` alone, the device's engines and
units in `.dev` too. -/
def inScope (scope : Nat) (x y : Who) : Bool :=
  if scope == 4 then true
  else match x, y with
    | .host, _ | _, .host => false
    | .agent n g r p, .agent m h q o =>
      scope == 3 || n == m || (g == h && (if p then (scope == 1 || scope == 2) && !o else scope == 2 || (scope == 1 && r == q && !o)))
    | _, _ => scope == 3

/-! ## Timestamp units -/

/-- The bytes of a unit of timestamps (R228). -/
def unitSize : Sp → Nat
  | .scr _ _ => 4
  | _ => 128

/-- The parts of a span of bytes, one for each unit of timestamps. -/
def unitParts (sp : Sp) (a n : Nat) : List (Sp × Nat × Nat) :=
  (linesOf sp a n).map fun l => let lo := max a (l * unitSize sp); (sp, lo, min (a + n) ((l + 1) * unitSize sp) - lo)

/-- A release whose maker has another number, or has ended. -/
def renameRel (f : Nat → Nat) (r : Release) : Release :=
  match r.who with
  | .agent n g role p => { r with who := .agent (f n) g role p }
  | _ => r

/-- The releases that a write leaves at its bytes: the scopes and the place of each, the timestamp it took and the clock of its maker. -/
def releasesOf (who : Who) (sp : Sp) (a n : Nat) (rel : List (Nat × Nat × Nat)) (ts clk : Nat) : List Release :=
  rel.flatMap fun (scope, storage, q) => (unitParts sp a n).map fun (_, lo, len) =>
    { who := who, sp := sp, addr := lo, len := len, scope := scope, storage := storage, seq := q, ts := ts, clk := clk }

/-- The timestamp of a write at its home (R228): above the leases of every unit it touches. -/
def State.storeTs (s : State) (sp : Sp) (a n c : Nat) : Nat := (linesOf sp a n).foldl (fun m l => max m ((s.stampOf sp l).rts + 1)) c

def State.setStamps (s : State) (sp : Sp) (a n ts : Nat) : State := (linesOf sp a n).foldl (fun s l => s.setStamp sp l { wts := ts, rts := ts }) s

/-! ## What an agent has observed (R231 rule 1) -/

/-- The newest timestamp observed of some bytes, where an older copy is still kept. -/
def Agent.seenOf (x : Agent) (sp : Sp) (a n : Nat) : Nat :=
  x.seen.foldl (fun m e => if e.1 == sp && overlaps a n e.2.1 e.2.2.1 then max m e.2.2.2 else m) 0

/-- Whether a copy of the bytes' line is kept that is older than a timestamp. -/
def State.olderCopy (s : State) (sp : Sp) (a ts : Nat) : Bool := s.copies.any fun k => k.sp == sp && k.line == lineOf sp a && k.ts.wts < ts

/-- An agent observes bytes of one unit as of a timestamp. -/
def State.see (s : State) (n : Nat) (sp : Sp) (a len ts : Nat) : State :=
  if s.olderCopy sp a ts then
    let keep (e : Sp × Nat × Nat × Nat) : Bool := s.olderCopy e.1 e.2.1 e.2.2.2 && !(e.1 == sp && a ≤ e.2.1 && e.2.1 + e.2.2.1 ≤ a + len && e.2.2.2 ≤ ts)
    s.updAgent n fun x => { x with seen := (sp, a, len, ts) :: x.seen.filter keep }
  else s

def State.seeParts (s : State) (n : Nat) (ps : List ((Sp × Nat × Nat) × Nat)) : State :=
  ps.foldl (fun s p => s.see n p.1.1 p.1.2.1 p.1.2.2 p.2) s

/-! ## Relaxed stores reach their home (R231) -/

/-- One relaxed store performed at its home: its timestamp is taken there. -/
def performRelaxed (s : State) (r : Relaxed) : State :=
  let n := r.bytes.length
  let ts := s.storeTs r.sp r.addr n 0
  let s := (s.writeRaw r.sp r.addr r.bytes).setStamps r.sp r.addr n ts
  let s := (s.updAgent r.agent fun x => { x with relTs := max x.relTs ts }).seeParts r.agent ((unitParts r.sp r.addr n).map fun p => (p, ts))
  { s with seq := s.seq + 1, releases := releasesOf (s.whoOf r.agent) r.sp r.addr n r.rel ts (((s.agent? r.agent).map (·.clock)).getD ts) ++ s.releases }

/-- The relaxed stores of an agent that satisfy `p`, in program order, reach their homes. -/
def drainWhere (s : State) (p : Relaxed → Bool) : State :=
  let due := s.relaxed.filter p
  due.foldl performRelaxed { s with relaxed := s.relaxed.filter fun r => !p r }

def drainAgent (s : State) (n : Nat) : State := drainWhere s fun r => r.agent == n

/-- What a release does for its agent: its relaxed stores reach their homes, and its clock passes their timestamps, so
that an agent that synchronises with it reads no copy from before them (R231 rule 4). (DEDUCED, log 18) -/
def releaseAgent (s : State) (n : Nat) : State := (drainAgent s n).updAgent n fun x => { x with clock := max x.clock x.relTs }

def drainOverlap (s : State) (n : Nat) (sp : Sp) (a len : Nat) : State :=
  drainWhere s fun r => r.agent == n && r.sp == sp && overlaps r.addr r.bytes.length a len

/-! ## Edges to jobs (R241, R283) -/

def Job.stampRegion (j : Job) : Region := { va := j.stamp, len := if j.stamp == 0 then 0 else 8, write := true }

/-- Whether an earlier job's accesses in an interval are still to come: its payload, or its stamp. -/
def Job.holds (j : Job) (r : Region) (va len : Nat) : Bool :=
  overlaps va len r.va r.len && len != 0 && r.len != 0 &&
    (!j.ran || (let st := j.stampRegion; st.len != 0 && r.write && overlaps va len st.va st.len && overlaps r.va r.len st.va st.len))

/-- R241: whether a store of a context has to wait for an unfinished job of the context. (DEDUCED, log 24) -/
def jobEdge (s : State) (ctx va len : Nat) : Bool :=
  s.jobs.any fun j => j.ctx == ctx && j.regions.any fun r => j.holds r va len

/-! ## Loads and stores of agents (R226-R236) -/

/-- The lease of the next renewal (R228), 1 to 65,536. -/
def State.lease (s : State) : Nat := 1 + Config.lease s.leases % 65536

/-- The releases whose values a load of these bytes read, given the newest write of their unit that it could see (R234, R235). -/
def State.releasesAt (s : State) (sp : Sp) (a n wts : Nat) : List Release :=
  s.releases.filter fun r => r.sp == sp && overlaps r.addr r.len a n && r.ts ≤ wts && wts < r.ended.getD (wts + 1)

/-- R234: a release synchronises with an acquire of agent y when each lies in the other's scope; the storage kinds both
cover then take a floor for relaxed loads. -/
def syncWith (s : State) (r : Release) (y scope storage : Nat) : State :=
  if inScope r.scope r.who (s.whoOf y) && inScope scope (s.whoOf y) r.who then
    s.updAgent y fun x => { x with clock := max x.clock r.clk, floors := x.floors.mapIdx fun k f => if scopeHas r.storage k && scopeHas storage k then max f r.seq else f }
  else s

def syncAll (s : State) (rs : List Release) (y scope storage : Nat) : State := rs.foldl (fun s r => syncWith s r y scope storage) s

/-- The core of an agent by number. -/
def State.coreOfNum (s : State) (n : Nat) : Nat := ((s.agent? n).map s.coreOf).getD 0

/-- When a line that the device holds was last accessed, by any copy of it (R391). -/
def State.lastUse (s : State) (sp : Sp) (line : Nat) : Nat := (s.copies.filter fun c => c.sp == sp && c.line == line).foldl (fun m c => max m c.used) 0

/-- R391: the pool lines held on the device: with the snoop filter full, the least recently used makes room for a new line. (DESIGN CHOICE, log 128) -/
def poolRoom (s : State) (sp : Sp) (line : Nat) : State :=
  let isPool (sp : Sp) : Bool := match sp with | .pool _ => true | _ => false
  if !isPool sp then s
  else
    let held := ((s.copies.filter fun c => isPool c.sp).map fun c => (c.sp, c.line)).eraseDups
    if held.contains (sp, line) || held.length < 2 ^ 22 then s
    else
      let old := (s.copies.filter fun c => isPool c.sp).foldl (fun (b : Option Copy) c => match b with
        | none => some c
        | some d => if s.lastUse c.sp c.line < s.lastUse d.sp d.line then some c else some d) none
      match old with
      | some d => { s with copies := s.copies.filter fun c => !(c.sp == d.sp && c.line == d.line) }
      | none => s

/-- The copies that a cache holds: an L1 of 192 KiB, a cluster cache of 4 MiB (R13, R17). (DESIGN CHOICE, log 128) -/
def placeLines (place : Nat) : Nat := if place < 128 then 1536 else 32768

/-- A copy leaves a full cache for a new one; which, nothing fixes. (DESIGN CHOICE, log 128) -/
def copyRoom (s : State) (place : Nat) : State :=
  let ks := s.copies.filter fun c => c.place == place
  if ks.length < placeLines place then s
  else match ks[Config.freeNat s.fresh % ks.length]? with
    | some k => { s with copies := s.copies.erase k, fresh := s.fresh + 1 }
    | none => s

/-- A line renewed at its home for an agent (R228): its lease is extended, over the load's own timestamp `upto` where that takes
it from several units, and a new copy is kept in the L1 and the cluster cache where the storage is copied. -/
def renew (s : State) (n : Nat) (sp : Sp) (line clock upto : Nat) : State :=
  let h := s.stampOf sp line
  let rts := max (max h.rts upto) (max (clock + s.lease) (h.wts + s.lease))
  let s := meetRefresh { s.setStamp sp line { h with rts := rts } with leases := s.leases + 1 } sp line
  if cacheable sp then
    let data := s.readHome sp (line * 128) 128
    let core := s.coreOfNum n
    let mk (p : Nat) : Copy := { place := p, sp := sp, line := line, data := data, ts := { wts := h.wts, rts := rts }, taken := s.tick, seq := s.seq, used := s.seq }
    let places := [core, 128 + core / 4]
    let s := poolRoom s sp line
    let s := { s with copies := s.copies.filter fun c => !(places.contains c.place && c.sp == sp && c.line == line) }
    let s := places.foldl copyRoom s
    { s with copies := places.map mk ++ s.copies }
  else s

/-- The first copy that serves an agent and satisfies `ok`. -/
def State.copyFor (s : State) (n : Nat) (sp : Sp) (line : Nat) (ok : Copy → Bool) : Option Copy :=
  let core := s.coreOfNum n
  let find (p : Nat) := s.copies.find? fun c => c.place == p && c.sp == sp && c.line == line && ok c
  (find core).or (find (128 + core / 4))

/-- What a load returned: its bytes, whether a unit it touched is poisoned, and the newest write it could see. -/
structure Loaded where
  bytes : List Byte
  poison : Bool
  wts : Nat := 0
  deriving DecidableEq, Repr

/-- Whether a copy serves a load (R228, R231) of an agent: no older than what the agent has observed; for a plain or acquire load
while its lease covers the load's timestamp; for a relaxed one though its lease has expired, but taken no more than 10 µs ago and
not before a release the agent has synchronised with. -/
def Copy.serves (k : Copy) (x : Agent) (tick : Nat) (relaxed : Bool) (sp : Sp) (a len : Nat) : Bool :=
  x.seenOf sp a len ≤ k.ts.wts
    && (if relaxed then x.floors.getD (spKind sp) 0 ≤ k.seq && tick ≤ k.taken + 160000 else max x.clock (k.ts.wts + 1) ≤ k.ts.rts)

/-- The bytes of the parts of one atomic unit (R237), the newest write of each part that they can show, and the machine after. A copy
serves a part that is alone; otherwise the parts are read at their homes at one point, and renewed there for one timestamp above all
their writes, which all their leases then cover (R228). -/
def fetchParts (s : State) (n : Nat) (us : List (Sp × Nat × Nat)) (relaxed : Bool) : List Byte × List ((Sp × Nat × Nat) × Nat) × State :=
  let x := (s.agent? n).getD { num := n, gang := { launch := 0, idx := 0 }, role := 0, idx := 0 }
  let copy : Option (Copy × Nat × Nat) := match us with
    | [(sp, a, len)] => (s.copyFor n sp (lineOf sp a) fun k => k.serves x s.tick relaxed sp a len).map fun k => (k, a, len)
    | _ => none
  match copy with
  | some (k, a, len) => ((k.data.drop (a % 128)).take len, us.map fun u => (u, k.ts.wts), { s with copies := updWhere (fun c => c == k) (fun c => { c with used := s.seq }) s.copies })
  | none =>
    let wtsOf (u : Sp × Nat × Nat) : Nat := (s.stampOf u.1 (lineOf u.1 u.2.1)).wts
    let ts := us.foldl (fun m u => max m (wtsOf u + 1)) x.clock
    (us.flatMap fun u => s.readHome u.1 u.2.1 u.2.2, us.map fun u => (u, wtsOf u),
      us.foldl (fun s u => renew s n u.1 (lineOf u.1 u.2.1) x.clock (if relaxed then 0 else ts)) s)

/-- What a load does for its agent: its clock, unless it is relaxed, what it has observed, and the releases it read; then it
synchronises with them. A plain load synchronises with the engines at `.dev` over `.all` (R240). -/
def observe (s : State) (n : Nat) (seen : List ((Sp × Nat × Nat) × Nat)) (kind scope storage : Nat) : State :=
  let wts := seen.foldl (fun m p => max m p.2) 0
  let rels := seen.flatMap fun p => s.releasesAt p.1.1 p.1.2.1 p.1.2.2 p.2
  let s := (s.updAgent n fun x => { x with clock := if kind == 1 then x.clock else max x.clock (wts + 1), lastRel := rels }).seeParts n seen
  match kind with
  | 0 => syncAll s (rels.filter fun r => r.who == .engine) n 3 4
  | 2 => syncAll s rels n scope storage
  | _ => s

/-- A load by agent `n` of an ordering (R63: 0 plain, 1 relaxed, 2 acquire with its scopes; R228, R231, R234) of the parts of one
atomic unit. -/
def loadParts (s : State) (n : Nat) (ps : List (Sp × Nat × Nat)) (kind scope storage : Nat) : Loaded × State :=
  let s := ps.foldl (fun s p => drainOverlap s n p.1 p.2.1 p.2.2) s
  let poison := ps.any fun p => s.poisoned p.1 p.2.1 p.2.2
  let r := fetchParts s n (ps.flatMap fun p => unitParts p.1 p.2.1 p.2.2) (kind == 1)
  let s := observe r.2.2 n r.2.1 kind scope storage
  ({ bytes := r.1, poison := poison, wts := r.2.1.foldl (fun m p => max m p.2) 0 }, { s with seq := s.seq + 1 })

/-- A load of one access of a lane. -/
def loadOrd (s : State) (n : Nat) (sp : Sp) (a len kind scope storage : Nat) : Loaded × State := loadParts s n [(sp, a, len)] kind scope storage

def loadPlain (s : State) (n : Nat) (sp : Sp) (a len : Nat) : Loaded × State := loadOrd s n sp a len 0 0 0

/-- The release scopes that act on an agent's next store, each with its place in the sequence: its own, and those of the release
fences since the agent's last store (R234). -/
def takeRel (s : State) (n : Nat) (own : Option (Nat × Nat)) : List (Nat × Nat × Nat) × State :=
  ((own.map fun (scope, storage) => (scope, storage, s.seq)).toList ++ ((s.agent? n).map (·.relFence)).getD [], s.updAgent n fun x => { x with relFence := [] })

/-- A store of the parts of one atomic unit (R237), performed at their homes by agent `n` with one timestamp (R228): plain, or a
release with its scopes. An atomic keeps the release sequences of the bytes it writes (R235). -/
def storeParts (s : State) (n : Nat) (ps : List (Sp × Nat × List Byte)) (rel : Option (Nat × Nat)) (atomic bump : Bool) : State :=
  let s := ps.foldl (fun s p => drainOverlap s n p.1 p.2.1 p.2.2.length) s
  let s := if rel.isSome then releaseAgent s n else s
  let (rl, s) := takeRel s n rel
  let c := if bump then ((s.agent? n).map (·.clock)).getD 0 else 0
  let ts := ps.foldl (fun c p => s.storeTs p.1 p.2.1 p.2.2.length c) c
  let s := (ps.flatMap fun p => unitParts p.1 p.2.1 p.2.2.length).foldl (fun s u => meetRefresh s u.1 (lineOf u.1 u.2.1)) s
  let clk := max ts (((s.agent? n).map (·.clock)).getD 0)
  let put (s : State) (p : Sp × Nat × List Byte) : State :=
    let len := p.2.2.length
    let s := (if atomic then s.writeOn p.1 p.2.1 p.2.2 else s.writeRaw p.1 p.2.1 p.2.2).setStamps p.1 p.2.1 len ts
    { s with releases := releasesOf (s.whoOf n) p.1 p.2.1 len rl ts clk ++ s.releases }
  let s := ps.foldl put s
  let s := s.updAgent n fun x => { x with clock := if bump then ts else x.clock, relTs := max x.relTs ts }
  { s.seeParts n (ps.flatMap fun p => (unitParts p.1 p.2.1 p.2.2.length).map fun u => (u, ts)) with seq := s.seq + 1 }

def storeHome (s : State) (n : Nat) (sp : Sp) (a : Nat) (bs : List Byte) (rel : Option (Nat × Nat)) (atomic bump : Bool) : State :=
  storeParts s n [(sp, a, bs)] rel atomic bump

/-- A store of an ordering (R63): 0 plain, 1 relaxed, 3 release with its scopes. -/
def storeOrd (s : State) (n : Nat) (sp : Sp) (a : Nat) (bs : List Byte) (kind scope storage : Nat) : State :=
  if kind == 1 then
    let s := drainOverlap s n sp a bs.length
    let (rl, s) := takeRel s n none
    { s with relaxed := s.relaxed ++ [{ agent := n, sp := sp, addr := a, bytes := bs, since := s.tick, rel := rl }] }
  else storeHome s n sp a bs (if kind == 3 then some (scope, storage) else none) false true

/-- An atomic read-modify-write of agent `n` (R226, R237): the bytes it read, and the machine after its write. -/
def atomicRmw (s : State) (n : Nat) (sp : Sp) (a len kind scope storage : Nat) (f : List Byte → List Byte) : Loaded × State :=
  let s := drainOverlap s n sp a len
  let old := s.readHome sp a len
  let poison := s.poisoned sp a len
  let rels := (unitParts sp a len).flatMap fun p => s.releasesAt sp p.2.1 p.2.2 (s.stampOf sp (lineOf sp p.2.1)).wts
  let s := s.updAgent n fun x => { x with lastRel := rels }
  let s := if kind == 2 then syncAll s rels n scope storage else s
  ({ bytes := old, poison := poison, wts := (s.stampOf sp (lineOf sp a)).wts },
    storeHome s n sp a (f old) (if kind == 3 then some (scope, storage) else none) true (kind != 1))

/-- R234, R265: a release fence; it acts on the agent's next store, beside the fences before it that it does not take in. -/
def fenceRelease (s : State) (n scope storage : Nat) : State :=
  let s := releaseAgent s n
  s.updAgent n fun x => { x with relFence := (scope, storage, s.seq) :: x.relFence.filter fun (a, b, _) => !(a ≤ scope && (storage == 4 || storage == b)) }

/-- R234: an acquire fence acts on what the agent's last load read; relaxed stores reach their homes before any fence (R231). -/
def fenceAcquire (s : State) (n scope storage : Nat) : State :=
  let s := drainAgent s n
  syncAll s (((s.agent? n).map (·.lastRel)).getD []) n scope storage

/-- The relaxed loads of an agent take no copy older than this moment, in any storage: the departure side of a barrier,
a rendezvous, a queue append's work or a resumed gang (R335, R245). -/
def acquireAll (s : State) (n : Nat) : State :=
  s.updAgent n fun x => { x with floors := x.floors.map fun f => max f s.seq }

/-- A store of the host or of the device's own units, as a release (R240, R245, R394, R411): in the order of the stores of these
writers. (DEDUCED, log 19) -/
def storeAs (who : Who) (s : State) (sp : Sp) (a : Nat) (bs : List Byte) : State :=
  let ts := s.storeTs sp a bs.length s.extClk
  let s := { (s.writeRaw sp a bs).setStamps sp a bs.length ts with extClk := ts }
  { s with seq := s.seq + 1, releases := releasesOf who sp a bs.length [(4, 4, s.seq)] ts ts ++ s.releases }

def storeDevice (s : State) (sp : Sp) (a : Nat) (bs : List Byte) : State := storeAs .unit s sp a bs

/-- A store of the host or of a peer device (R245). -/
def storeHost (s : State) (sp : Sp) (a : Nat) (bs : List Byte) : State := storeAs .host s sp a bs

end Sys2Proof.Machine
end

