-- ==== Sys2Proof/Machine/Translate.lean ====
section
/-! DEFINITION. Translation: page-table entries, the walk, groups, rights, and the device's own accesses through a context's
page tables (R383-R393, R486, R348, R368). -/

namespace Sys2Proof.Machine

/-- The accepted feature word's bit (R72, R406). -/
def State.feature (s : State) (k : Nat) : Bool := s.regs.feat.getLsbD k

/-- The contents of a leaf entry (R386) at a level; the size of a page or group is its logarithm (R386, R388). (DEDUCED, log 147) -/
def leafOf (e level : Nat) : Leaf where
  fmt := bitsOf e 63 58
  target := bitsOf e 57 56
  chip := bitsOf e 55 52
  pfn := bitsOf e 51 12
  logSize := match bitsOf e 11 10, level with
    | 1, _ => 16
    | 2, _ => 36
    | _, 0 => 12
    | _, 1 => 21
    | _, _ => 30
  sup := bitOf e 9
  rk := bitOf e 6
  x := bitOf e 5
  w := bitOf e 4
  r := bitOf e 3

/-- R404: window k is set up when its length is not zero. -/
def State.windowSet (s : State) (k : Nat) : Bool := mget 0 s.regs.windows (2 * k + 1) != 0

/-- R387: whether a valid entry at a level is malformed. A reckoned leaf is not held to GDDRSIZE. (DEDUCED, log 141) -/
def malformed (s : State) (e level : Nat) : Bool :=
  let leaf := bitOf e 7
  let l := leafOf e level
  let span := bitsOf e 11 10
  if !leaf then level == 0 || bitsOf e 63 52 != 0 || bitsOf e 11 8 != 0 || bitsOf e 6 1 != 0
  else level ≥ 3 || bitOf e 8 || bitsOf e 2 1 != 0
    || span == 3 || (span == 1 && level != 0) || (span == 2 && level != 2)
    || (if l.rk then bitsOf e 51 24 != 0 else l.pfn * 4096 % 2 ^ l.logSize != 0)
    || l.fmt > 3 || (l.fmt != 0 && l.target != 0)
    || (l.chip != 0 && (l.target == 0 || l.target == 2))
    || (l.target == 0 && !l.rk && l.pfn * 4096 + 2 ^ l.logSize > s.regs.gddr)
    || ((l.target == 1 || l.target == 3) && !s.windowSet l.chip)
    || (l.target == 3 && !s.feature 12)

/-- How a walk ends (R384, R387, R393). -/
inductive WalkEnd where
  | leaf (l : Leaf)
  | invalid (pte level : Nat)
  | bad
  deriving DecidableEq, Repr

/-- One entry as the walker reads it at its home (R392). -/
def State.pteAt (s : State) (a : Nat) : Nat := leNat (s.readHome .loc a 8)

/-- The entries of a run that a group may take (R388). -/
def runOf (level : Nat) : Nat := if level == 0 then 16 else if level == 2 then 64 else 1

/-- Whether the first entry of an index's run governs it (R388): a valid leaf of a matching span. -/
def governs (s : State) (table ix level : Nat) : Bool :=
  let e := s.pteAt (table + 8 * (ix / runOf level * runOf level))
  let span := bitsOf e 11 10
  runOf level > 1 && bitOf e 0 && bitOf e 7 && ((level == 0 && span == 1) || (level == 2 && span == 2))

/-- The address of the entry that governs an index of a table (R388). (DEDUCED, log 147) -/
def governing (s : State) (table ix level : Nat) : Nat :=
  if governs s table ix level then table + 8 * (ix / runOf level * runOf level) else table + 8 * ix

/-- The size of what a leaf entry maps: a group only where the first entry of its run governs (R388). -/
def leafSize (e level : Nat) (group : Bool) : Nat :=
  if group then (leafOf e level).logSize else if level == 0 then 12 else if level == 1 then 21 else 30

/-- The walk from a table at a level down (R384). -/
def walkFrom (s : State) (va : Nat) : Nat → Nat → WalkEnd
  | level, table =>
    let ix := bitsOf va (20 + 9 * level) (12 + 9 * level)
    let a := governing s table ix level
    let e := s.pteAt a
    if !bitOf e 0 then .invalid a level
    else if malformed s e level then .bad
    else if bitOf e 7 then .leaf { leafOf e level with logSize := leafSize e level (governs s table ix level) }
    else match level with
      | 0 => .bad
      | k + 1 => walkFrom s va k (bitsOf e 51 12 * 4096)

/-- The translation of an address of a context, from the translation caches or by a walk (R392). -/
def translate (s : State) (c : Ctx) (va : Nat) : WalkEnd :=
  match s.tlb.find? fun t => t.asn == c.asn && t.page == va / 2 ^ t.leaf.logSize with
  | some t => .leaf t.leaf
  | none => walkFrom s va 4 c.root

/-- The translation kept (R392): only valid, well-formed entries are. -/
def keepXlate (s : State) (c : Ctx) (va : Nat) (l : Leaf) : State :=
  let t : Xlate := { asn := c.asn, page := va / 2 ^ l.logSize, leaf := l }
  if s.tlb.contains t then s else { s with tlb := t :: s.tlb }

/-- What an access asks of a page (R389, R368). -/
inductive Want where
  | read | write | atomic | fetch | reckon
  deriving DecidableEq, Repr

/-- R348: a reckoned page that no access may go through. -/
def rkRefused (s : State) (c : Ctx) (l : Leaf) : Bool :=
  l.pfn % 4096 ≥ c.rkcount || !s.feature 0 || l.target != 0

/-- R389, R368: whether a leaf grants an access. -/
def grants (s : State) (c : Ctx) (sup : Bool) (w : Want) (l : Leaf) : Bool :=
  (sup || !l.sup) && !(l.rk && rkRefused s c l) &&
  match w with
  | .read => l.r
  | .write => l.w && !l.rk
  | .atomic => l.r && l.w && !l.rk
  | .fetch => l.x && l.target == 0 && l.fmt == 0 && !l.rk
  | .reckon => l.rk && l.w

/-- The storage and address of a byte under a leaf (R386, R390). -/
def place (c : Ctx) (l : Leaf) (va : Nat) : Sp × Nat :=
  if l.rk then (.rk c.asn, va)
  else
    let pa := l.pfn * 4096 + va % 2 ^ l.logSize
    match l.target with
    | 0 => (.loc, pa)
    | 1 => (.peer l.chip, pa)
    | 2 => (.host, pa)
    | _ => (.pool l.chip, pa)

/-- A translated byte, a miss, or a refusal. -/
inductive Tr where
  | ok (sp : Sp) (a : Nat) (leaf : Leaf)
  | miss (m : Miss)
  | perm
  deriving DecidableEq, Repr

/-- R394's KIND of an access. -/
def Want.kind : Want → Nat
  | .read => 0 | .write => 1 | .fetch => 2 | .atomic => 3 | .reckon => 0

/-- One address translated for an access (R383, R389, R393). -/
def tr (s : State) (c : Ctx) (sup : Bool) (w : Want) (va : Nat) : Tr :=
  if va ≥ 2 ^ 57 then .perm
  else match translate s c va with
    | .invalid pte level => .miss { va := BitVec.ofNat 64 va, pte := pte, level := level, kind := w.kind }
    | .bad => .perm
    | .leaf l => if grants s c sup w l then let (sp, a) := place c l va; .ok sp a l else .perm

/-- The translation of an address kept after an access that used it. -/
def touch (s : State) (c : Ctx) (va : Nat) : State :=
  match translate s c va with
  | .leaf l => keepXlate s c va l
  | _ => s

/-! ## The device's own accesses (R486) -/

/-- Where a byte lies that the device reads or writes for system software: none where the page is not usable. -/
def devPlace (s : State) (c : Ctx) (va : Nat) : Option (Sp × Nat) :=
  if va ≥ 2 ^ 57 then none
  else match translate s c va with
    | .leaf l => if !l.rk && l.fmt == 0 then some (place c l va) else none
    | _ => none

/-- A range of bytes cut at line boundaries. -/
def pieces (va : Nat) (bs : List Byte) : List (Nat × List Byte) :=
  if bs.isEmpty then [] else
  (List.range ((va + bs.length - 1) / 128 - va / 128 + 1)).map fun i =>
    let lo := max va (128 * (va / 128 + i))
    let hi := min (va + bs.length) (128 * (va / 128 + i + 1))
    (lo, (bs.drop (lo - va)).take (hi - lo))

/-- Bytes the device reads from a context; bytes of an unusable page read as zero. (DEDUCED, log 16) -/
def devRead (s : State) (c : Ctx) (va n : Nat) : List Byte :=
  (pieces va (List.replicate n 0)).flatMap fun (a, z) => match devPlace s c a with
    | some (sp, pa) => s.readHome sp pa z.length
    | none => z

/-- Whether every byte of a range is on a usable page. -/
def devUsable (s : State) (c : Ctx) (va : Nat) (bs : List Byte) : Bool :=
  (pieces va bs).all fun (a, _) => (devPlace s c a).isSome

/-- Bytes the device writes into a context as a release at `.sys` (R394, R411); dropped whole when a page of them is not
usable (R486). -/
def devWrite (s : State) (c : Ctx) (va : Nat) (bs : List Byte) : State :=
  if devUsable s c va bs then
    (pieces va bs).foldl (fun s (a, b) => match devPlace s c a with
      | some (sp, pa) => storeDevice s sp pa b
      | none => s) s
  else s

end Sys2Proof.Machine
end

