-- ==== Sys2Proof/Machine/Fills.lean ====
section
/-! DEFINITION. Reckoned memory below the instructions: descriptors, resident lines, misses, depth and cycles, fills and
their ends, the victim store (R348-R366, R370-R372). -/

namespace Sys2Proof.Machine

/-- A reckon descriptor's fields (R349). -/
structure RkDesc where
  khdr : Nat
  rbase : Nat
  rlen : Nat
  logUnit : Nat
  prio : Nat
  policy : Nat
  dflags : Nat
  budget : Nat
  victim : Nat
  param : Dword
  prioHigh : Nat
  /-- bytes 55-127 are zero -/
  rest : Bool
  deriving DecidableEq, Repr

def rkDescOf (bs : List Byte) : RkDesc where
  khdr := leField bs 0 8
  rbase := leField bs 8 8
  rlen := leField bs 16 8
  logUnit := leField bs 24 1
  prio := leField bs 25 1 % 8
  prioHigh := leField bs 25 1 / 8
  policy := leField bs 26 1
  dflags := leField bs 27 1
  budget := leField bs 28 4
  victim := leField bs 32 8
  param := BitVec.ofNat 64 (leField bs 40 8)
  rest := (bs.drop 55).all (· == 0)

def rkDesc (s : State) (c : Ctx) (idx : Nat) : RkDesc := rkDescOf (devRead s c (c.rktab + 128 * idx) 128)

/-- R350: VALID set and every field within the limits of R349. -/
def RkDesc.ok (d : RkDesc) : Bool :=
  d.dflags == 1 && d.prioHigh == 0 && d.logUnit ≤ 6 && d.policy ≤ 1 && d.rlen != 0
    && d.rbase % (128 * 2 ^ d.logUnit) == 0 && d.rlen % (128 * 2 ^ d.logUnit) == 0
    && (d.policy == 0 || d.victim % 128 == 0) && d.rest

/-! ## Kernel headers (R312, R78-R80, R351) -/

/-- The variants of a header's bytes. -/
def variantOf (bs : List Byte) (v : Nat) : Variant where
  entry := leField bs (16 + 16 * v) 4
  regs := leField bs (20 + 16 * v) 2
  waves := leField bs (22 + 16 * v) 2
  scratch := leField bs (24 + 16 * v) 4
  nt := leField bs (28 + 16 * v) 1
  na := leField bs (29 + 16 * v) 1

def switchOf (bs : List Byte) (i : Nat) : SwitchPt where
  id := leField bs (80 + 24 * i) 1
  live := leField bs (82 + 24 * i) 2
  bytes := leField bs (84 + 24 * i) 4
  resume := (List.range 4).map fun v => leField bs (88 + 24 * i + 4 * v) 4

/-- R15, R26: the waves of a block of n that partition p takes. -/
def wavesIn (n p : Nat) : Nat := (n + 3 - p) / 4

/-- R78-R80, R312: one variant within its limits. -/
def variantOk (v : Variant) (bs : List Byte) (k : Nat) : Bool :=
  v.entry % 64 == 0 && v.regs ≥ 8 && v.regs ≤ 256 && v.regs % 8 == 0 && 1 ≤ v.waves && v.waves ≤ 16
    && v.scratch ≤ 360448 && v.scratch % 128 == 0 && v.nt ≤ 14 && v.na ≤ 7
    && leField bs (30 + 16 * k) 2 == 0 && wavesIn v.waves 0 ≤ 15 && wavesIn v.waves 0 * v.regs * 128 ≤ 262144

def strictlyRising : List Nat → Bool
  | a :: b :: t => decide (a < b) && strictlyRising (b :: t)
  | _ => true

/-- A kernel header read from its 1,616 bytes; none when it is invalid (R312). -/
def kernelOf (addr : Nat) (bs : List Byte) : Option Kernel :=
  let nvar := leField bs 0 1; let gang := leField bs 1 1; let fw := leField bs 2 1; let fh := leField bs 3 1
  let flags := leField bs 4 1; let pregs := leField bs 5 1; let nsw := leField bs 6 1; let pentry := leField bs 8 4
  let vs := (List.range nvar).map (variantOf bs)
  let sw := (List.range nsw).map (switchOf bs)
  let pilot := bitOf flags 2
  let okVars := (List.range nvar).all fun k => variantOk (variantOf bs k) bs k
  let zeroVars := (List.range 4).all fun k => k < nvar || leField bs (16 + 16 * k) 16 == 0
  let okSw := sw.all fun x => x.id ≤ 63 && x.live ≤ 256 && x.bytes ≤ 360448
    && vs.all (fun v => x.live ≤ v.regs && x.bytes ≤ v.scratch)
    && (List.range 4).all fun v => if v < nvar then [0, 12, 24, 36, 48].contains (x.resume.getD v 0 % 64) else x.resume.getD v 0 == 0
  let swZero := (List.range nsw).all fun i => leField bs (81 + 24 * i) 1 == 0
  if 1 ≤ nvar && nvar ≤ 4 && 1 ≤ gang && gang ≤ 4
      && ((fw == 0 && fh == 0) || (1 ≤ fw && fw ≤ 8 && 1 ≤ fh && fh ≤ 4))
      && flags < 8 && nsw ≤ 64 && leField bs 7 1 == 0 && leField bs 12 4 == 0
      && (if pilot then 8 ≤ pregs && pregs ≤ 64 && pregs % 8 == 0 && pentry % 64 == 0 && pentry != 0 else pregs == 0 && pentry == 0)
      && okVars && zeroVars && okSw && swZero && strictlyRising (sw.map (·.id))
  then some { addr := addr, gang := gang, fw := fw, fh := fh, restart := bitOf flags 0, reckoner := bitOf flags 1, pilot := pilot, pregs := pregs, pentry := pentry, variants := vs, switches := sw }
  else none

/-- A kernel header through its context (R486): an unusable page reads as zeros, which is invalid. -/
def kernelAt (s : State) (c : Ctx) (va : Nat) : Option Kernel :=
  if va % 64 != 0 then none else kernelOf va (devRead s c va 1616)

/-- R351: a header valid for a reckoner. -/
def Kernel.forFill (k : Kernel) : Bool :=
  k.reckoner && k.variants.length == 1 && k.gang == 1 && k.fw == 0 && k.fh == 0 && !k.pilot && !k.restart
    && k.switches.isEmpty
    && k.variants.all fun v => 1 ≤ v.waves && v.waves ≤ 4 && v.scratch ≤ 32768 && v.nt ≤ 2 && v.na ≤ 1

/-! ## Lines (R19) -/

def State.resident (s : State) (asn line : Nat) : Bool := s.rkLines.any fun r => r.asn == asn && r.line == line

/-- A line takes its bytes at its home as a store at a new timestamp (R243, R366); writers' clocks are raised by the
caller. -/
def putLine (s : State) (asn line : Nat) (bs : List Byte) (clock : Nat) : State :=
  let sp := Sp.rk asn
  let ts := max clock ((s.stampOf sp line).rts + 1)
  let s := (s.writeRaw sp (line * 128) bs).setStamp sp line { wts := ts, rts := ts }
  { s with rkLines := if s.resident asn line then s.rkLines else { asn := asn, line := line } :: s.rkLines, seq := s.seq + 1 }

/-- Lines that leave the stacked cache (R365, R370): their copies become unusable at once. -/
def dropLines (s : State) (asn : Nat) (p : Nat → Bool) : State :=
  { s with rkLines := s.rkLines.filter fun r => !(r.asn == asn && p r.line)
           copies := s.copies.filter fun k => !(k.sp == .rk asn && p k.line)
           rkmem := mset [] s.rkmem asn ((mget [] s.rkmem asn).filter fun (a, _) => !p (a / 128)) }

/-! ## Fills -/

def State.fill? (s : State) (id : Nat) : Option Fill := s.fills.find? fun f => f.id == id

def State.updFill (s : State) (id : Nat) (f : Fill → Fill) : State :=
  { s with fills := updWhere (fun x => x.id == id) f s.fills }

/-- The fill that a gang runs, if it runs one. -/
def State.fillOfGang (s : State) (g : GangKey) : Option Fill := s.fills.find? fun f => f.launched == some g

/-- The pending fill of a unit (R354). -/
def State.pendingFill (s : State) (asn rbaseLine : Nat) : Option Fill :=
  s.fills.find? fun f => f.asn == asn && f.base == rbaseLine && !f.stale

/-- The fills on which a fill has a wait node (R354). -/
def State.waitsOn (s : State) (id : Nat) : List Fill := s.fills.filter fun g => g.nodes.any fun n => n.fill == some id

/-- R354's Reaches. The number of fills bounds the chain. -/
def reaches (s : State) : Nat → Nat → Nat → Bool
  | 0, _, _ => false
  | fuel + 1, f, x => f == x || (s.waitsOn f).any fun g => reaches s fuel g.id x

/-- R354's Raise: the depths that would rise, or none when one would pass NESTMAX. -/
def raise (s : State) (nestmax : Nat) : Nat → Nat → Nat → Option (List (Nat × Nat))
  | 0, _, _ => none
  | fuel + 1, id, d =>
    match s.fill? id with
    | none => some []
    | some f =>
      if f.depth ≥ d then some []
      else if d > nestmax then none
      else (s.waitsOn id).foldl (fun acc g => match acc, raise s nestmax fuel g.id (d + 1) with
        | some l, some r => some (l ++ r)
        | _, _ => none) (some [(id, d)])

def applyRaise (s : State) (l : List (Nat × Nat)) : State :=
  l.foldl (fun s (id, d) => s.updFill id fun f => { f with depth := max f.depth d }) s

/-- R359: the priority of a fill: its own, and of everything that waits on it; a fill that waits counts with its priority of now, a job with
its submitter's when it was submitted. -/
def effPrio (s : State) : Nat → Nat → Nat
  | 0, _ => 0
  | fuel + 1, id =>
    match s.fill? id with
    | none => 0
    | some f => f.nodes.foldl (fun m n => max m (match n.who, n.fill with
        | .path _ _, some x | .op _ _, some x => effPrio s fuel x
        | _, _ => n.prio)) f.prio

def State.fillPrio (s : State) (id : Nat) : Nat := effPrio s (s.fills.length + 1) id

/-- R355, R328: the earliest deadline of what waits on a fill, a fill's taken as it is now; without one, its budget's. -/
def deadlineFrom (s : State) : Nat → Nat → Nat
  | 0, _ => 2 ^ 64 - 1
  | fuel + 1, id =>
    match s.fill? id with
    | none => 2 ^ 64 - 1
    | some f =>
      let d := f.nodes.foldl (fun m n => min m (match n.who, n.fill with
        | .path _ _, some x | .op _ _, some x => deadlineFrom s fuel x
        | _, _ => n.deadline)) (2 ^ 64 - 1)
      if d == 2 ^ 64 - 1 then (if f.budget == 0 then 2 ^ 64 - 1 else f.created / 16 + f.budget) else d

def fillDeadline (s : State) (f : Fill) : Nat := deadlineFrom s (s.fills.length + 1) f.id

/-- R353: cores with a usable fill reserve. -/
def State.core (s : State) (k : Nat) : CoreSt := findD (fun c => c.core == k) s.cores { core := k }

def State.usableCores (s : State) : Nat :=
  128 - (s.cores.filter fun c => c.fenced || c.stopped).length

/-- R353: the limits at a depth. -/
def reserveLimit (nf d : Nat) : Nat := nf - (nf + 15) / 16 * (4 - d)
def entryLimit (d : Nat) : Nat := 1024 - 64 * (4 - d)
def nodeLimit (d : Nat) : Nat := 65536 - 4096 * (4 - d)

/-- R353: pending-miss entries of a slice held at a depth or less. -/
def State.entriesAt (s : State) (slice d : Nat) : Nat :=
  (s.fills.filter fun f => rkSlice f.asn (f.base * 128) == slice && f.depth ≤ d).length

/-- R353: wait nodes held by agents at a depth or less. -/
def State.nodesAt (s : State) (d : Nat) : Nat :=
  s.fills.foldl (fun n f => n + (f.nodes.filter fun x => match x.fill with
    | none => true
    | some g => ((s.fill? g).map fun y => decide (y.depth ≤ d)).getD true).length) 0

/-- Who misses (R354). -/
structure Misser where
  who : Waiter
  fill : Option Nat
  depth : Nat
  prio : Nat
  deadline : Nat
  clock : Nat
  deriving DecidableEq, Repr

/-- How an access to a reckoned line goes on (R354). -/
inductive RkGo where
  | present
  | parked
  | resource
  | poison (code : Nat)
  deriving DecidableEq, Repr

/-- The unit of a range that holds a line: its number, and its first line. -/
def RkDesc.unitOf (d : RkDesc) (line : Nat) : Nat := (line - d.rbase / 128) / 2 ^ d.logUnit
def RkDesc.unitBase (d : RkDesc) (u : Nat) : Nat := d.rbase / 128 + u * 2 ^ d.logUnit

/-- A wait node for a line on a fill: one node per waiter, whose lines grow. -/
def addNode (s : State) (id : Nat) (m : Misser) (line : Nat) : State :=
  let s := s.updFill id fun f =>
    if f.nodes.any (fun n => n.who == m.who) then
      { f with nodes := updWhere (fun n => n.who == m.who) (fun n => { n with lines := if n.lines.contains line then n.lines else n.lines ++ [line] }) f.nodes }
    else { f with nodes := f.nodes ++ [{ id := s.nextId, who := m.who, fill := m.fill, prio := m.prio, deadline := m.deadline, lines := [line] }] }
  { s with nextId := s.nextId + 1 }

/-- A fill of a unit created (R354). -/
def newFill (s : State) (c : Ctx) (idx : Nat) (d : RkDesc) (kern : Kernel) (u depth clock : Nat) (missva : Nat) : Nat × State :=
  let f : Fill := { id := s.nextId, ctx := c.id, asn := c.asn, rkidx := idx, unit := u, base := d.unitBase u, nlines := 2 ^ d.logUnit, depth := depth, prio := d.prio, budget := d.budget, param := d.param, missva := BitVec.ofNat 64 missva, kernel := kern, clock := clock, created := s.tick }
  (s.nextId, { s with fills := s.fills ++ [f], nextId := s.nextId + 1 })

/-- R366: whether a page of the victim store is one the store may use. -/
def victimPlace (s : State) (c : Ctx) (va : Nat) : Option Nat :=
  match devPlace s c va with
  | some (.loc, a) => some a
  | _ => none

/-- R366: the presence bit of a unit. -/
def victimBit (s : State) (c : Ctx) (d : RkDesc) (u : Nat) : Bool :=
  d.policy == 1 && match victimPlace s c (d.victim + d.rlen + u / 8) with
    | some a => (s.byteAt .loc a).getLsbD (u % 8)
    | none => false

def setVictimBit (s : State) (c : Ctx) (d : RkDesc) (u : Nat) (b : Bool) : State :=
  match victimPlace s c (d.victim + d.rlen + u / 8) with
  | some a =>
    let old := s.byteAt .loc a
    let bit := (1 : Byte) <<< (u % 8)
    storeDevice s .loc a [if b then old ||| bit else old &&& ~~~bit]
  | none => s

/-- A unit's first line and its number of lines. -/
def unitSpan (s : State) (c : Ctx) (u : Nat × Nat) : Nat × Nat := let d := rkDesc s c u.1; (d.unitBase u.2, 2 ^ d.logUnit)

/-- The lines of a unit that are absent. -/
def absentLines (s : State) (c : Ctx) (u : Nat × Nat) : List Nat :=
  let (b, n) := unitSpan s c u
  ((List.range n).map (b + ·)).filter fun l => !s.resident c.asn l

/-- Whether any context of an address space has the unit of a first line pinned (R371): a pin holds the unit's lines, which all those
contexts share. -/
def State.pinned (s : State) (asn base : Nat) : Bool :=
  s.pins.any fun p => match s.ctx? p.ctx with
    | some y => y.asn == asn && (unitSpan s y (p.rkidx, p.unit)).1 == base
    | none => false

/-! ## Eviction (R365, R366) -/

/-- Whether a unit may be evicted: something of it is resident, no fill of it is pending, it is not pinned and none of its
lines is held by staging. -/
def evictable (s : State) (c : Ctx) (u : Nat × Nat) : Bool :=
  let (b, n) := unitSpan s c u
  let mine (l : Nat) : Bool := b ≤ l && l < b + n
  let held (sp : Sp) (l : Nat) : Bool := sp == .rk c.asn && mine l
  s.rkLines.any (fun r => r.asn == c.asn && mine r.line) && !(s.fills.any fun f => f.asn == c.asn && f.base == b) && !s.pinned c.asn b
    && !(s.stageHolds.any fun h => held h.2.1 h.2.2) && !(s.launches.any fun l => l.stgLines.any fun h => held h.1 h.2)

/-- R366: a unit written to the victim store, then its bit; none where a page cannot be used. (DEDUCED, log 75) -/
def victimWrite (s : State) (c : Ctx) (d : RkDesc) (u : Nat) : Option State :=
  let n := 2 ^ d.logUnit
  let places := (List.range n).map fun i => (d.unitBase u + i, victimPlace s c (d.victim + 128 * (u * n + i)))
  if places.any (fun p => p.2.isNone) || (victimPlace s c (d.victim + d.rlen + u / 8)).isNone then none
  else
    let put (s : State) (p : Nat × Option Nat) : State := match p.2 with
      | some a =>
        let sp := Sp.rk c.asn
        let t := storeDevice s .loc a (s.readHome sp (p.1 * 128) 128)
        (List.range 8).foldl (fun t i => if s.poison.contains (sp, p.1 * 8 + i) then addPoison t .loc (a + 16 * i) 16 else t) t
      | none => s
    some (setVictimBit (places.foldl put s) c d u true)

/-- A unit leaves the stacked cache (R365): under POLICY 1 a whole one goes to the victim store first. -/
def evictUnit (s : State) (c : Ctx) (u : Nat × Nat) : State :=
  let d := rkDesc s c u.1
  let (b, n) := unitSpan s c u
  let s := if d.policy == 1 && (absentLines s c u).isEmpty then (victimWrite s c d u.2).getD s else s
  dropLines s c.asn fun l => b ≤ l && l < b + n

/-- The unit of a context's ranges that a line belongs to. -/
def unitOfLine (s : State) (c : Ctx) (line : Nat) : Option (Nat × Nat) :=
  (List.range 4096).findSome? fun i =>
    let d := rkDesc s c i
    if d.ok && d.rbase / 128 ≤ line && line < (d.rbase + d.rlen) / 128 then some (i, d.unitOf line) else none

/-- The lines that a slice holds of the last-level cache (R19, R20): 256 MiB, less its share of the context store. (DESIGN CHOICE, log 128) -/
def sliceLines (s : State) : Nat := (16384 - s.regs.cssize) * 128

/-- A full slice makes room for a line (R19, R365): one of the units with a line there that may go; which, nothing fixes. (DESIGN CHOICE, log 128) -/
def sliceRoom (s : State) (asn line : Nat) : State :=
  let slice := rkSlice asn (line * 128)
  let here := s.rkLines.filter fun r => rkSlice r.asn (r.line * 128) == slice
  if s.resident asn line || here.length < sliceLines s then s
  else
    let units := here.flatMap fun r => (s.ctxs.filter fun c => c.asn == r.asn).filterMap fun c => (unitOfLine s c r.line).bind fun u => if evictable s c u then some (c, u) else none
    match units[Config.freeNat s.fresh % units.length]? with
    | some (c, u) => evictUnit { s with fresh := s.fresh + 1 } c u
    | none => s

/-- R366: a unit reloaded from the victim store; none when the reload fails. -/
def victimReload (s : State) (c : Ctx) (d : RkDesc) (u : Nat) (clock : Nat) : Option State :=
  let n := 2 ^ d.logUnit
  let base := d.unitBase u
  (List.range n).foldl (fun acc i => match acc with
    | none => none
    | some s => match victimPlace s c (d.victim + 128 * (u * n + i)) with
      | some a => if s.poisoned .loc a 128 then none else some (putLine (sliceRoom s c.asn (base + i)) c.asn (base + i) (s.readHome .loc a 128) clock)
      | none => none) (some s)

/-- R49, R228: NESTMAX read at its home as a plain load of an agent: its lease end is extended, and so is the agent's
clock. -/
def readNestmax (s : State) (c : Ctx) (clock : Nat) : Nat × Nat × State :=
  let h := c.nestmaxTs
  let rts := max h.rts (max (clock + s.lease) (h.wts + s.lease))
  (c.nestmax, max clock (h.wts + 1), { s.updCtx c.id fun x => { x with nestmaxTs := { h with rts := rts } } with leases := s.leases + 1 })

/-- NESTMAX as the missing agent reads it: a wave's or pilot program's clock takes the load's timestamp. -/
def nestmaxFor (s : State) (c : Ctx) (m : Misser) : Nat × State :=
  let (n, ts, s) := readNestmax s c m.clock
  match m.who with
  | .path a _ | .op a _ => (n, s.updAgent a fun x => { x with clock := max x.clock ts })
  | .job _ => (n, s)

/-- A prefetch form that finds no pending-miss entry within its limit waits for one (R353). -/
def askLater (s : State) (c : Ctx) (idx line : Nat) (m : Misser) : State :=
  let a : FillAsk := { ctx := c.id, rkidx := idx, line := line, depth := m.depth, clock := m.clock }
  if s.asks.any fun b => b.ctx == a.ctx && b.line == a.line then s else { s with asks := s.asks ++ [a] }

/-- R354: an access of `m` to a line under a descriptor. The depth is checked first, and the descriptor and its header only of a miss
that would create a fill (R350); in a context that is being destroyed none is created (R372). A prefetch form takes the same checks and raises the depth of a pending fill; it parks nothing and produces no
poison. -/
def rkAccess (s : State) (c : Ctx) (idx line : Nat) (m : Misser) (prefetch : Bool) : RkGo × State :=
  if s.resident c.asn line then (.present, s)
  else
    let d := rkDesc s c idx
    let kern := kernelAt s c d.khdr
    let inRange := d.rbase / 128 ≤ line && line < (d.rbase + d.rlen) / 128
    let u := d.unitOf line
    let base := d.unitBase u
    let reload := if d.ok && inRange && victimBit s c d u then victimReload s c d u m.clock else none
    match reload with
    | some s => (.present, s)
    | none =>
      let (nestmax, s) := nestmaxFor s c m
      let fuel := s.fills.length + 1
      let nodeRoom := s.nodesAt m.depth < nodeLimit (min 4 m.depth)
      let poison (code : Nat) : RkGo × State := if prefetch then (.present, s) else (.poison code, s)
      match s.fills.find? fun f => f.asn == c.asn && f.base ≤ line && line < f.base + f.nlines with
      | some f =>
        if (m.fill.map (reaches s fuel f.id)).getD false then poison 0x13
        else match raise s nestmax fuel f.id (m.depth + 1) with
          | none => poison 0x13
          | some l => if prefetch then (.present, applyRaise s l) else if nodeRoom then (.parked, addNode (applyRaise s l) f.id m line) else (.resource, s)
      | none =>
        if m.depth + 1 > nestmax then poison 0x13
        else if c.cstate == 2 then poison 0x14
        else match d.ok && inRange, kern with
        | true, some k =>
          if !k.forFill then poison 0x14
          else if s.entriesAt (rkSlice c.asn (base * 128)) (m.depth + 1) ≥ entryLimit (min 4 (m.depth + 1)) then
            if prefetch then (.present, askLater s c idx line m) else (.resource, s)
          else if !(prefetch || nodeRoom) then (.resource, s)
          else
            let (id, s) := newFill s c idx d k u (m.depth + 1) m.clock (line * 128)
            if prefetch then (.present, s) else (.parked, addNode s id m line)
        | _, _ => poison 0x14

/-- The prefetch forms that wait for an entry try again (R353). -/
def retryAsks (s : State) : State :=
  s.asks.foldl (fun s a => match s.ctx? a.ctx with
    | some c => (rkAccess s c a.rkidx a.line { who := .job 0, fill := none, depth := a.depth, prio := 0, deadline := 2 ^ 64 - 1, clock := a.clock } true).2
    | none => s) { s with asks := [] }

/-! ## Waiters released (R354, R362) -/

/-- A path whose wait node went: the lines that no fill committed, and whether it still waits on another node. -/
def releasePath (p : Path) (asn : Nat) (aborted : List Nat) (still : Bool) : Path :=
  let p := { p with abort := p.abort ++ aborted.map fun l => (asn, l) }
  if still then p
  else match p.park with
    | some (.reckon _) =>
      let fix (l : List Redo) : List Redo := match l with
        | r :: t => { r with park := none } :: t
        | [] => []
      { p with park := none, st := if p.st == .parked then .eligible else p.st, bun := p.bun.map fun b => { b with redo := fix b.redo } }
    | _ => p

/-- A node's waiter goes on (R354): a path replays, at once or once its saved gang resumes, a job's reads go on, and so do a TLD's.
`aborted` are the lines that stay absent. -/
def releaseNode (s : State) (asn : Nat) (n : Node) (aborted : List Nat) : State :=
  let still := s.fills.any fun f => f.nodes.any fun x => x.who == n.who
  match n.who with
  | .path a p =>
    s.updAgent a fun x => { x with paths := x.paths.mapIdx fun i q => if i == p then releasePath q asn aborted still else q }
  | .job id =>
    { s with jobs := updWhere (fun j => j.id == id) (fun j => { j with abort := j.abort ++ aborted }) s.jobs }
  | .op _ id =>
    let lost (ps : List (Sp × Nat × Nat)) : Bool := ps.any fun p => p.1 == .rk asn && aborted.contains (p.2.1 / 128)
    let fix (r : TileRow × RowSrc) : TileRow × RowSrc := match r.2 with
      | .at ps => if lost ps then (r.1, .poison 0x14) else r
      | .poison _ => r
    { s with blocks := s.blocks.map fun b => { b with engq := updWhere (fun o => o.id == id) (fun o => { o with ld := o.ld.map fix }) b.engq } }

/-- Every wait node of a fill whose lines are all committed is released (R357). -/
def releaseReady (s : State) (id : Nat) : State :=
  match s.fill? id with
  | none => s
  | some f =>
    let done (n : Node) : Bool := n.lines.all fun l => f.committed.contains l
    let s := s.updFill id fun f => { f with nodes := f.nodes.filter fun n => !done n }
    (f.nodes.filter done).foldl (fun s n => releaseNode s f.asn n []) s

/-- A waiter that is gone takes its nodes with it (R372). -/
def dropWaiter (s : State) (p : Waiter → Bool) : State :=
  { s with fills := s.fills.map fun f => { f with nodes := f.nodes.filter fun n => !p n.who } }

/-- A relaxed atomic of the device itself (R349): no release, and the release sequences of its bytes go on (R235). -/
def devAtomic (s : State) (c : Ctx) (va : Nat) (bs : List Byte) : State :=
  if devUsable s c va bs then
    (pieces va bs).foldl (fun s (a, b) => match devPlace s c a with
      | some (sp, pa) => let ts := s.storeTs sp pa b.length 0; { (s.writeOn sp pa b).setStamps sp pa b.length ts with seq := s.seq + 1 }
      | none => s) s
  else s

/-- R349: FILLS, ABORTS and LASTREASON in the descriptor. -/
def countFill (s : State) (c : Ctx) (idx : Nat) (complete : Bool) (reason : Nat) : State :=
  let at_ := c.rktab + 128 * idx + 48
  let b := devRead s c at_ 7
  if complete then devAtomic s c at_ (leBytes 4 (min 4294967295 (leField b 0 4 + 1)))
  else devAtomic (devAtomic s c (at_ + 4) (leBytes 2 (min 65535 (leField b 4 2 + 1)))) c (at_ + 6) [BitVec.ofNat 8 reason]

/-- R362, R370: a fill ends: counted and its waiters released, or, when stale, replaced by a new fill of the unit; the entry is free for what waited for one. -/
def fillEnd (s : State) (id : Nat) : State :=
  match s.fill? id with
  | none => s
  | some f =>
    let s := { s with fills := s.fills.filter fun x => x.id != id }
    if f.stale then
      { s with fills := s.fills ++ [{ f with id := s.nextId, launched := none, committed := [], stale := false, reason := 255, created := s.tick }], nextId := s.nextId + 1 }
    else
      let all := (List.range f.nlines).map (f.base + ·)
      let complete := all.all fun l => f.committed.contains l
      let s := match s.ctx? f.ctx with
        | some c => countFill s c f.rkidx complete f.reason
        | none => s
      retryAsks (f.nodes.foldl (fun s n => releaseNode s f.asn n (n.lines.filter fun l => !f.committed.contains l)) s)

end Sys2Proof.Machine
end

