-- ==== Sys2Proof/Machine/Jobs.lean ====
section
/-! DEFINITION. Jobs below the instructions (R239-R242, R278-R294): entries, permits, pages and locks, submission, collective
copies, footprint edges, and what a copy, gather or codebook load reads and writes. -/

namespace Sys2Proof.Machine

/-- Values written by register key. -/
def Regs.setKeys (r : Regs) (ws : List (Nat × Word)) : Regs := ws.foldl (fun r (k, x) => { r with v := mset 0 r.v k x }) r

/-- The context of a gang. -/
def State.ctxOf (s : State) (g : GangKey) : Ctx := ((s.gang? g).bind fun y => s.ctx? y.ctx).getD { id := 0 }

/-- The depth of an agent (R354): its fill's, or 0. -/
def State.agentFill (s : State) (n : Nat) : Option Fill := (s.agent? n).bind fun x => if x.fill then s.fillOfGang x.gang else none

/-- The effective priority of an agent (R324, R359). -/
def State.agentPrio (s : State) (n : Nat) : Nat :=
  match s.agentFill n with
  | some f => s.fillPrio f.id
  | none => ((s.agent? n).bind fun x => (s.gang? x.gang).map (·.prio)).getD 0

/-- The deadline an agent's requests carry (R328). -/
def State.agentDeadline (s : State) (n : Nat) : Nat :=
  match s.agentFill n with
  | some f => fillDeadline s f
  | none => ((s.agent? n).bind fun x => (s.launches.find? fun l => l.id == x.gang.launch).map (·.deadline)).getD (2 ^ 64 - 1)

/-! ## Entries, reserved entries, permits (R278, R289, R341) -/

def State.job? (s : State) (id : Nat) : Option Job := s.jobs.find? fun j => j.id == id
def State.updJob (s : State) (id : Nat) (f : Job → Job) : State := { s with jobs := updWhere (fun j => j.id == id) f s.jobs }

/-- The name of a block's or a pilot program's reserved entry. -/
def entryKey (pilot : Bool) (g : GangKey) (role idx : Nat) : List Nat := if pilot then [1, g.launch, g.idx, idx] else [0, g.launch, g.idx, role]

def State.clusterOf (s : State) (g : GangKey) : Nat := ((s.gang? g).map (·.cluster)).getD 0

/-- Whether a gang stands on a cluster, and is no fill block. -/
def State.standsOn (s : State) (g : GangKey) (cluster : Nat) : Bool := ((s.gang? g).map fun y => y.st == .resident && y.cluster == cluster && !y.fill).getD false

/-- The reserved entries that the blocks and pilot programs of a cluster own (R278); a fill block owns none (R352). -/
def State.ownKeys (s : State) (cluster : Nat) : List (List Nat) :=
  ((s.blocks.filter fun b => s.standsOn b.gang cluster).map fun b => entryKey false b.gang b.role 0)
    ++ (s.agents.filter fun x => x.pilot && !x.ended && s.standsOn x.gang cluster).map fun x => entryKey true x.gang 0 x.idx

/-- The reserved entries of one gang, by the names of their owners. -/
def State.gangEntries (s : State) (g : GangKey) : List (List Nat) :=
  ((s.blocks.filter fun b => b.gang == g).map fun b => entryKey false g b.role 0) ++ (s.agents.filter fun x => x.pilot && !x.ended && x.gang == g).map fun x => entryKey true g 0 x.idx

/-- Reserved entries of gangs that have left a cluster, each gang's until the copy and gather jobs that it submitted before have completed
there (R320). -/
def State.oldEntriesAt (s : State) (cluster : Nat) : List (GangKey × Nat) :=
  s.gangs.flatMap fun y => (y.oldEntries.filter fun e => e.1 == cluster && s.jobs.any fun j => j.gang == y.key && j.kind != 3 && j.cluster == cluster && j.id < e.2.2).map fun e => (y.key, e.2.1)

/-- Reserved entries of a cluster: those owned there, those of gangs that have left with jobs unfinished there, and those that jobs of
other owners gone elsewhere still hold (R278, R320). -/
def State.reservedEntries (s : State) (cluster : Nat) : Nat :=
  let own := s.ownKeys cluster
  let old := s.oldEntriesAt cluster
  own.length + old.foldl (fun n e => n + e.2) 0
    + (s.jobs.filter fun j => j.cluster == cluster && !(old.any fun e => e.1 == j.gang) && match j.reserved with | some k => !own.contains k | none => false).length

/-- Whether a shared entry of a cluster's pool is free. -/
def State.sharedFree (s : State) (cluster : Nat) : Bool :=
  (s.jobs.filter fun j => j.cluster == cluster && j.kind != 3 && j.reserved.isNone).length + s.reservedEntries cluster < 512

def State.reserveFree (s : State) (cluster : Nat) (key : List Nat) : Bool := !s.jobs.any fun j => j.cluster == cluster && j.reserved == some key

/-- Permits of an engine that neither jobs nor reservations hold. -/
def State.permitsFree (s : State) (g : GangKey) (role : Nat) : Nat :=
  32 - (s.jobs.filter fun j => j.kind == 3 && j.gang == g && j.role == role).length
    - (((s.blockOf? g role).map fun b => b.rsv.foldl (fun n r => n + r.2) 0).getD 0)

/-- Whether a cluster's page-lock table has room for more pages (R285). -/
def State.locksFree (s : State) (cluster : Nat) (ls : List Xlate) : Bool :=
  ((s.jobs.filter fun j => j.cluster == cluster).foldl (fun a j => a ++ j.locks.filter fun x => !a.contains x) ls).length ≤ 1024

/-! ## Pages of a footprint (R285, R286) -/

def Ext.region (e : Ext) : Region := { va := e.va, len := e.len, write := e.write }

def fmtAdmits (need fmt : Nat) : Bool :=
  match need with
  | 0 => true
  | 1 => fmt == 0
  | 2 => fmt != 0
  | _ => fmt ≥ 2

/-- The first address of each page that an interval meets, with how it translates. -/
def pagesFrom (s : State) (c : Ctx) (sup : Bool) (w : Want) (last : Nat) : Nat → Nat → List (Nat × Tr)
  | 0, _ => []
  | fuel + 1, va =>
    let t := tr s c sup w va
    let next := match t with
      | .ok _ _ l => (va / 2 ^ l.logSize + 1) * 2 ^ l.logSize
      | _ => (va / 4096 + 1) * 4096
    (va, t) :: if next > last then [] else pagesFrom s c sup w last fuel next

def Ext.pages (e : Ext) (s : State) (c : Ctx) (sup : Bool) : List (Nat × Tr) :=
  if e.len == 0 then [] else pagesFrom s c sup (if e.write then .write else .read) (e.va + (e.len - 1)) (e.len / 4096 + 2) e.va

/-- How the checks 5 to 8 of R286 end. -/
inductive PageCheck where
  | fault (code info : Nat)
  | miss (ms : List Miss)
  | ok (locks : List Xlate)

/-- Checks 5 to 8 over extents, counting pages locked already; a miss is an engine submission's (R394). (DEDUCED, log 140) -/
def checkPages (s : State) (c : Ctx) (sup : Bool) (es : List Ext) (held : List Xlate) : PageCheck :=
  let ps := es.flatMap fun e => (e.pages s c sup).map fun p => (e, p)
  let bad (x : Ext × Nat × Tr) : Bool := match x.2.2 with
    | .perm => true
    | .ok _ _ l => !fmtAdmits x.1.fmt l.fmt
    | .miss _ => false
  match ps.find? bad with
  | some (_, va, _) => .fault 0x11 va
  | none =>
    if c.chanstat == 0 then .fault 0x11 0
    else
      let locks := ps.foldl (fun (a : List Xlate) (x : Ext × Nat × Tr) => match x.2.2 with
        | .ok _ _ l => let t : Xlate := { asn := c.asn, page := x.2.1 / 2 ^ l.logSize, leaf := l }; if a.contains t then a else a ++ [t]
        | _ => a) held
      let misses := ps.filterMap fun (_, _, t) => match t with | .miss m => some { m with kind := 4 } | _ => none
      if locks.length + (misses.map (·.va.toNat / 4096)).eraseDups.length > 256 then .fault 0x21 0
      else if misses.isEmpty then .ok locks else .miss misses

/-- Whether two regions share a byte. -/
def Region.meets (a b : Region) : Bool := a.len != 0 && b.len != 0 && overlaps a.va a.len b.va b.len

/-- R286 step 3: a read region over a write region. -/
def selfOverlap (rs : List Region) : Bool := rs.any fun a => !a.write && rs.any fun b => b.write && a.meets b

/-! ## Submission (R281, R284) -/

/-- The submissions of a context to a counter so far. -/
def Ctx.subsOf (c : Ctx) (cluster chan : Nat) : Nat := mget 0 c.subs (16 * cluster + chan)

/-- R284: a submission accepted: it takes its timestamp at the scheduler and its sequence number on its counter (R281).
The clock is that of the agent whose instruction completed it. -/
def submitJob (s : State) (n : Nat) (clock : Nat) (j : Job) : Job × State :=
  let s := releaseAgent s n
  let c := (s.ctx? j.ctx).getD { id := j.ctx }
  let ts := max (max clock (((s.agent? n).map (·.clock)).getD 0)) (c.schedTs + 1)
  let seq := c.subsOf j.cluster j.chan + 1
  let s := s.updCtx j.ctx fun c => { c with schedTs := ts, subs := mset 0 c.subs (16 * j.cluster + j.chan) seq }
  let j := { j with id := s.nextId, seq := seq, clock := ts }
  let s := { s with nextId := s.nextId + 1, jobs := s.jobs ++ [j] }
  (j, s.updAgent n fun x => { x with clock := max x.clock ts })

/-- The writes of a 64-bit value to a register pair in lanes. -/
def pairWrites (d : Nat) (v : Nat) (ls : List Nat) : List (Nat × Word) :=
  ls.map (fun l => (32 * d + l, BitVec.ofNat 32 v)) ++ ls.map (fun l => (32 * (d + 1) + l, BitVec.ofNat 32 (v / 2 ^ 32)))

/-! ## Collective copies (R289) -/

/-- Waves of a block that have not ended. -/
def State.wavesOf (s : State) (g : GangKey) (role : Nat) : List Agent := s.agents.filter fun x => x.gang == g && x.role == role && !x.pilot && !x.ended

/-- Whether every wave that has not ended has contributed. -/
def collDone (s : State) (c : Collective) : Bool := (s.wavesOf c.gang c.role).all fun x => c.waves.contains x.num

/-- What a submission carries of its submitter for reckoned reads (R286, R359). -/
def jobOrigin (s : State) (n : Nat) (j : Job) : Job :=
  let f := s.agentFill n
  { j with fill := f.map (·.id), depth := (f.map (·.depth)).getD 0, prio := s.agentPrio n, deadline := s.agentDeadline n }

def stampExt (stamp : Nat) : List Ext := if stamp == 0 then [] else [{ va := stamp, len := 8, write := true }]

/-- The extents of a collective's job: its slices' and its stamp's. -/
def Collective.job (c : Collective) : List Ext := c.exts ++ stampExt (c.stamp.getD 0)

/-- The job of a completed collective, with the translations it locks. -/
def collJob (s : State) (c : Collective) (locks : List Xlate) : Job :=
  { id := 0, ctx := (s.ctxOf c.gang).id, cluster := s.clusterOf c.gang, chan := c.word.getD 0 0, kind := 0, xform := c.word.getD 1 0,
    tag := c.word.getD 2 0, auto := c.word.getD 3 0 == 1, ty := c.ty, slices := c.slices, regions := c.job.map Ext.region, locks := locks,
    stamp := c.stamp.getD 0, agents := c.waves, gang := c.gang, role := c.role, sup := c.sup }

/-- The results of a collective's contributions, once it is submitted: the sequence number in every contributor's D, and
the counters waiting for the job. -/
def giveColl (s : State) (c : Collective) (j : Job) : State :=
  let give (s : State) (p : Pend) : State := match p.hold with
    | .coll d lanes =>
      let ws := pairWrites d j.seq (lanesOf lanes)
      if p.cnt == 0 then { s with pend := updWhere (fun q => q.id == p.id) (fun q => { q with writes := ws, hold := .none }) s.pend }
      else { s.updAgent p.agent (fun x => { x with regs := x.regs.setKeys ws }) with pend := updWhere (fun q => q.id == p.id) (fun q => { q with hold := .job j.id }) s.pend }
    | _ => s
  (s.pend.filter fun p => c.pends.contains p.id).foldl give s

/-! ## Fault records (R394) -/

/-- An interrupt vector signalled. -/
def signal (s : State) (v : Nat) : State := { s with signals := s.signals ++ [v] }

/-- R394: a fault record appended to the context's ring, or counted in LOST; an unusable page drops the record (R486).
A job's walk, of KIND 4, names no agent. (DEDUCED, log 140) -/
def faultRecord (s : State) (c : Ctx) (agent : Nat) (m : Miss) : State :=
  let size := 2 ^ c.frlog
  let ridx := leField (devRead s c (c.fring + 8) 8) 0 8
  if c.fwidx - ridx ≥ size then
    let s := s.updCtx c.id fun y => { y with flost := y.flost + 1 }
    devWrite s c (c.fring + 16) (leBytes 8 (c.flost + 1))
  else
    let rec_ := leBytes 8 m.va.toNat ++ leBytes 8 m.pte ++ leBytes 4 (if m.kind == 4 then 0xFFFFFFFF else agent) ++ [BitVec.ofNat 8 m.level, BitVec.ofNat 8 m.kind, BitVec.ofNat 8 c.id, 0] ++ leBytes 2 c.asn ++ leBytes 6 0
    let at_ := c.fring + 64 + 32 * (c.fwidx % size)
    if devUsable s c at_ rec_ && devUsable s c c.fring (leBytes 8 0) then
      let s := devWrite (devWrite s c at_ rec_) c c.fring (leBytes 8 (c.fwidx + 1))
      s.updCtx c.id fun y => { y with fwidx := y.fwidx + 1 }
    else s

/-- R393, R394: the misses of a completed collective's job that no instruction waits for: a record and an interrupt for each page-table line
it newly finds invalid. (DEDUCED, log 51) -/
def missColl (s : State) (c : Collective) (ms : List Miss) : State :=
  let (c', s') := ms.foldl (fun ((c', s) : Collective × State) m =>
    if c'.missed.any fun e => e.1 == m.pte / 128 then (c', s)
    else
      let x := s.ctxOf c.gang
      ({ c' with missed := c'.missed ++ [(m.pte / 128, false)] }, signal (faultRecord s x 0 m) x.msix)) (c, s)
  { s' with colls := updWhere (fun z => z.pends == c.pends) (fun z => { z with missed := c'.missed }) s'.colls }

/-- One completed collective submitted, where its pages translate (R285) and it finds an entry and its page locks: a shared entry,
or else the block's reserved one. It takes the clock of its newest contributor (R284). (DEDUCED, log 51) -/
def submitColl (s : State) (c : Collective) : State :=
  let key := entryKey false c.gang c.role 0
  let cl := s.clusterOf c.gang
  let shared := s.sharedFree cl
  match checkPages s (s.ctxOf c.gang) c.sup c.job [] with
  | .ok locks =>
    if !(shared || s.reserveFree cl key) || !s.locksFree cl locks then s
    else
      let last := c.last.getD 0x20000
      let j := jobOrigin s last { collJob s c locks with reserved := if shared then none else some key }
      let (j, s) := submitJob (c.waves.foldl releaseAgent s) last c.clock j
      giveColl { s with colls := s.colls.filter fun z => z.pends != c.pends } c j
  | .miss ms => missColl s c ms
  | .fault .. => s

/-- The completed collectives that can be submitted, in order; a block's later collective waits behind its earlier one. (DEDUCED, log 51) -/
def submitReady (s : State) : State :=
  (s.colls.foldl (fun (acc : List (GangKey × Nat) × State) c =>
    let (stuck, s) := acc
    if stuck.contains (c.gang, c.role) || !collDone s c then (stuck ++ [(c.gang, c.role)], s)
    else
      let t := submitColl s c
      if t.colls.length == s.colls.length then (stuck ++ [(c.gang, c.role)], t) else (stuck, t)) (([] : List (GangKey × Nat)), s)).2

/-! ## Edges (R241, R283) -/

/-- R283: whether an earlier job of the context holds a job back. -/
def edgeOn (s : State) (j : Job) : Bool :=
  (s.jobs.takeWhile fun k => k.id != j.id).any fun k => k.ctx == j.ctx &&
    k.regions.any fun r => j.regions.any fun q => (r.write || q.write) && k.holds r q.va q.len

/-- R291, R280: the order of a channel's codebook loads and the copies that use its codebook, and of matrix jobs from one
agent to one engine (R166). -/
def turnOf (s : State) (j : Job) : Bool :=
  let before := s.jobs.takeWhile fun k => k.id != j.id
  match j.kind with
  | 2 => before.all fun k => k.cluster != j.cluster || k.chan != j.chan || k.ran
  | 3 => before.all fun k => k.kind != 3 || k.gang != j.gang || k.role != j.role || k.agents != j.agents || k.started
  | _ => j.xform != 3 || j.kind != 0 || before.all fun k => k.cluster != j.cluster || k.chan != j.chan || k.kind != 2 || k.ran

/-- Whether a matrix job of a gang may still go on: it runs, its engine performs it or waits for lines, or what holds it is no such job. -/
def matrixMoves (s : State) (mine : List Job) (j : Job) : Bool :=
  j.ran || match j.op with
    | some op => (((s.blockOf? j.gang j.role).bind fun b => (b.engq.find? fun o => o.id == op).map fun o =>
        o.aft.isNone && !b.engq.any fun p => p.agent == o.agent && p.id < o.id && !p.done)).getD false
    | none => (!edgeOn s j && turnOf s j) || (s.jobs.takeWhile fun k => k.id != j.id).any fun k => k.ctx == j.ctx && !mine.contains k
        && k.regions.any fun r => j.regions.any fun q => (r.write || q.write) && k.holds r q.va q.len

/-- Whether a gang's engines have matrix jobs that may still go on: the gang keeps its blocks until they have. (DEDUCED, log 49) -/
def matrixBusy (s : State) (g : GangKey) : Bool :=
  let mine := s.jobs.filter fun j => j.kind == 3 && j.gang == g
  mine.any (matrixMoves s mine)

/-- The matrix jobs of a gang that leaves end, with no effect: what they wait for can no longer come. (DEDUCED, log 49) -/
def endMatrix (s : State) (g : GangKey) : State :=
  { s with jobs := updWhere (fun j => j.kind == 3 && j.gang == g && !j.ran) (fun j => { j with ran := true, status := 0x04, op := none }) s.jobs }

/-- A host's TLBI completes once its users have made their accesses and its jobs have completed (R402). (DEDUCED, log 138) -/
def settleTlbis (s : State) : State :=
  let left (h : HostTlbi) : HostTlbi :=
    { users := h.users.filter fun u => s.blocks.any fun b => b.engq.any fun o => o.id == u && !o.done, locks := h.locks.filter fun id => s.jobs.any fun j => j.id == id }
  { s with hostTlbis := (s.hostTlbis.map left).filter fun h => !(h.users.isEmpty && h.locks.isEmpty) }

/-! ## What jobs read and write (R240, R288, R292) -/

/-- The storage of a byte under a job's locked translations (R285). -/
def Job.storage (j : Job) (c : Ctx) (va : Nat) : Option (Sp × Nat × Leaf) :=
  (j.locks.find? fun t => t.page == va / 2 ^ t.leaf.logSize).map fun t => let (sp, a) := place c t.leaf va; (sp, a, t.leaf)

/-- Bytes a job reads, with whether they are poisoned. -/
def Job.read (j : Job) (s : State) (c : Ctx) (va len : Nat) : List Byte × Bool :=
  (pieces va (List.replicate len 0)).foldl (fun (bs, po) (a, z) =>
    match j.storage c a with
    | some (sp, pa, l) =>
      if l.rk && j.abort.contains (a / 128) then (bs ++ z, true)
      else (bs ++ s.readHome sp pa z.length, po || s.poisoned sp pa z.length)
    | none => (bs ++ z, true)) (([] : List Byte), false)

/-- One part of a job's write at its home; with `rel` it releases at `.dev` over `.all` (R240). -/
def enginePut (rel : Bool) (ts : Nat) (s : State) (p : Sp × Nat × List Byte) : State :=
  let s := (s.writeRaw p.1 p.2.1 p.2.2).setStamps p.1 p.2.1 p.2.2.length ts
  { s with releases := (if rel then releasesOf .engine p.1 p.2.1 p.2.2.length [(3, 4, s.seq)] ts ts else []) ++ s.releases }

/-- A write of a job's parts at their homes, at one timestamp of its own (R237, R240): no release but the stamp's and the pointer's. -/
def engineWrite (s : State) (ps : List (Sp × Nat × List Byte)) (atLeast : Nat) (rel : Bool) : Nat × State :=
  let ts := ps.foldl (fun c p => s.storeTs p.1 p.2.1 p.2.2.length c) atLeast
  (ts, { ps.foldl (enginePut rel ts) s with seq := s.seq + 1 })

/-- Bytes a job writes; `poison` leaves the 16-byte units of the piece poisoned (R488). -/
def jobWrite (s : State) (id : Nat) (va : Nat) (bs : List Byte) (poison : Bool) : State :=
  match s.job? id with
  | none => s
  | some j =>
    let c := (s.ctx? j.ctx).getD { id := j.ctx }
    let ps := (pieces va bs).filterMap fun (a, b) => (j.storage c a).map fun (sp, pa, _) => (sp, pa, b)
    let (ts, s) := engineWrite s ps 0 false
    let s := if poison then ps.foldl (fun s p => addPoison s p.1 p.2.1 p.2.2.length) s else s
    s.updJob id fun j => { j with ts := max j.ts ts }

/-- (DEDUCED, log 47) -/
def jobFlag (s : State) (id bits : Nat) : State := s.updJob id fun j => { j with flags := (BitVec.ofNat 16 j.flags ||| BitVec.ofNat 16 bits).toNat }

/-- An address a number of strides on, modulo 2^64. -/
def strideAddr (base r stride : Nat) : Nat := (base + r * stride) % 2 ^ 64

/-- The reckoned lines that a job's read regions need and its slices read. -/
def readSpans (j : Job) (src : List (Nat × Nat)) (c : Ctx) : List (Nat × Nat) :=
  src.flatMap fun (va, len) => (pieces va (List.replicate len 0)).filterMap fun (a, _) => match j.storage c a with
    | some (_, _, l) => if l.rk then some (l.pfn % 4096, a / 128) else none
    | none => none

/-- R286: the absent lines of a job's reads take their wait nodes, at the submitter's depth of now (R354); whether every line is there, or has been poisoned. -/
def jobLines (s : State) (id : Nat) (lines : List (Nat × Nat)) : Bool × State :=
  lines.foldl (fun (ok, s) (idx, l) =>
    match s.job? id with
    | none => (ok, s)
    | some j =>
      let c := (s.ctx? j.ctx).getD { id := j.ctx }
      if j.abort.contains l then (ok, s)
      else
        let depth := ((j.fill.bind s.fill?).map (·.depth)).getD j.depth
        let m : Misser := { who := .job id, fill := j.fill, depth := depth, prio := j.prio, deadline := j.deadline, clock := j.clock }
        let (go, s) := rkAccess s c idx l m false
        match go with
        | .present => (ok, s)
        | .poison _ => (ok, s.updJob id fun j => { j with abort := j.abort ++ [l] })
        | _ => (false, s)) (true, s)

end Sys2Proof.Machine
end

