-- ==== Sys2Proof/WellFormed.lean ====
section
/-! DEFINITION. Which instruction terms have a word: the checks of R70 that need nothing but the word itself (reserved
bits, types, rounding, lookahead and counter, pairs and quads), and the field limits of each instruction's description.
What depends on the machine (NREGS, features, mode, pilot) is checked when the instruction issues. -/

namespace Sys2Proof

/-- LA and CNT of a fixed-latency instruction are zero (R65, R68). -/
def Ctl.fixed (c : Ctl) : Bool := c.la == 0 && c.cnt == 0

/-- LA and CNT of a variable-latency instruction: no CNT 7, and not both nonzero (R66, R67, R68). -/
def Ctl.var (c : Ctl) : Bool := c.cnt != 7 && (c.cnt == 0 || c.la == 0)

/-- No guard (path-level instructions: R104, R106, R110, R332, R436). -/
def Ctl.unguarded (c : Ctl) : Bool := c.guard == .always

/-- Bytes of a type in storage and registers (R112, R248); 0 for a type without one. -/
def Ty.bytes : Ty → Nat
  | .s8 | .n8 | .b8 => 1
  | .s16 | .n16 | .b16 | .f16 | .bf16 => 2
  | .s32 | .n32 | .b32 | .f32 => 4
  | .s64 | .n64 | .b64 | .f64 => 8
  | .b128 => 16
  | .e4m3 | .e5m2 | .e2m3 | .e3m2 | .e2m1 => 1
  | .none => 0

/-- Vector registers of a type: one, a pair, or a quad (R36, R112). -/
def Ty.nregs (t : Ty) : Nat := if t.bytes == 16 then 4 else if t.bytes == 8 then 2 else 1

/-- A register that may name an operand of type `t`: pairs even, quads a multiple of 4 (R36). -/
def Ty.aligned (t : Ty) (r : BitVec 8) : Bool := r.toNat % t.nregs == 0

def evenReg (r : BitVec 8) : Bool := r.toNat % 2 == 0
def quadReg (r : BitVec 8) : Bool := r.toNat % 4 == 0
/-- A field that names a predicate uses its low four bits (R60). -/
def predField (r : BitVec 8) : Bool := r.toNat < 16
def tileField (r : BitVec 8) : Bool := r.toNat < 16
def accField (r : BitVec 8) : Bool := r.toNat < 8

/-- The rounding code in a VI control byte (bits 7:5), its SAT (bit 4) and its FL (bits 3:0) (R60). -/
def VI.rndCode (x : VI) : Nat := x.bctl.toNat / 32
def VI.sat (x : VI) : Bool := x.bctl.getLsbD 4
def VI.fl (x : VI) : BitVec 4 := x.bctl.extractLsb' 0 4

/-- What a V3 instruction leaves unused must be zero (R135): no rounding, no saturation, no flags, no OPX. -/
def V3.noRnd (x : V3) : Bool := x.rnd == .dyn
def V3.noSat (x : V3) : Bool := !x.sat
def V3.plain (x : V3) : Bool := x.rnd == .dyn && !x.sat && x.fl == 0 && x.opx == 0
def V3.regs (x : V3) (d a b c : Bool) : Bool :=
  (!d || x.ty.aligned x.d) && (!a || x.ty.aligned x.a) && (!b || x.ty.aligned x.b) && (!c || x.ty.aligned x.c)

def VI.noRnd (x : VI) : Bool := x.rndCode == 0
def VI.noSat (x : VI) : Bool := !x.sat
def VI.plain (x : VI) : Bool := x.bctl == 0
def VI.regs (x : VI) (d a c : Bool) : Bool :=
  (!d || x.ty.aligned x.d) && (!a || x.ty.aligned x.a) && (!c || x.ty.aligned x.c)

def Ty.int32 (t : Ty) : Bool := t == .s32 || t == .n32
def Ty.int64 (t : Ty) : Bool := t == .s64 || t == .n64
def Ty.intAny (t : Ty) : Bool := t.int32 || t.int64
def Ty.raw (t : Ty) : Bool := t == .b32 || t == .b64

/-- Numeric types CVT accepts (R158). -/
def Ty.numeric : Ty → Bool
  | .none | .b8 | .b16 | .b32 | .b64 | .b128 => false
  | _ => true

/-- The type of a five-bit code (R61); none for a reserved code. -/
def tyOfCode (n : Nat) : Option Ty :=
  match n with
  | 0 => some .none | 1 => some .s8 | 2 => some .s16 | 3 => some .s32 | 4 => some .s64
  | 5 => some .n8 | 6 => some .n16 | 7 => some .n32 | 8 => some .n64
  | 9 => some .b8 | 10 => some .b16 | 11 => some .b32 | 12 => some .b64 | 13 => some .b128
  | 16 => some .f64 | 17 => some .f32 | 18 => some .f16 | 19 => some .bf16
  | 20 => some .e4m3 | 21 => some .e5m2 | 22 => some .e2m3 | 23 => some .e3m2 | 24 => some .e2m1
  | _ => none

/-- The source type of CVT in OPX[4:0] (R158). -/
def V3.srcTy (x : V3) : Option Ty := tyOfCode (x.opx.toNat % 32)

/-- The latency class that the type selects for IMUL, IMULH and IMAD (R83). -/
def mulCtl (c : Ctl) (t : Ty) : Bool := if t.int64 then c.var else c.fixed

/-- The element width of CPACK and CUNPK (R159). -/
def packWidth : Ty → Nat
  | .f16 | .bf16 => 16
  | .e4m3 | .e5m2 | .e2m3 | .e3m2 => 8
  | .e2m1 => 4
  | _ => 0

/-- WRED's operations and types (R147). -/
def wredOk (op : Nat) (t : Ty) : Bool :=
  if op ≤ 2 then t == .s32 || t == .n32 || t == .f32 else op ≤ 5 && t == .b32

/-- Types of V3 instructions with no flags and no OPX: integer forms of R137. -/
def V3.int (x : V3) (c : Bool) (sat : Bool) : Bool :=
  x.rnd == .dyn && (sat || !x.sat) && x.fl == 0 && x.opx == 0 && (c || x.c == 0)

def VI.int (x : VI) (c : Bool) (sat : Bool) : Bool :=
  x.rndCode == 0 && (sat || !x.sat) && x.fl == 0 && (c || x.c == 0)

/-- Float forms with rounding and saturation (R149, R154, R155, R157). -/
def V3.flt (x : V3) (t : Ty) (b c fl : Bool) : Bool :=
  x.ty == t && (b || x.b == 0) && (c || x.c == 0) && (fl || x.fl == 0) && x.opx == 0

def VI.flt (x : VI) (t : Ty) (c fl : Bool) : Bool :=
  x.ty == t && x.rndCode ≤ 4 && (c || x.c == 0) && (fl || x.fl == 0)

/-- The parts of an ordering byte (R63): agent scope, storage scope, ordering. -/
def ordAgent (o : BitVec 8) : Nat := o.toNat / 32
def ordStorage (o : BitVec 8) : Nat := o.toNat / 4 % 8
def ordKind (o : BitVec 8) : Nat := o.toNat % 4

/-- The ordering bytes an instruction accepts (R250): which of plain, relaxed, acquire and release. -/
def ordOk (o : BitVec 8) (plain rlx acq rel : Bool) : Bool :=
  match ordKind o with
  | 0 => plain && o == 0
  | 1 => rlx && o == 1
  | 2 => acq && ordAgent o ≤ 4 && ordStorage o ≤ 4
  | _ => rel && ordAgent o ≤ 4 && ordStorage o ≤ 4

/-- The types of LD, ST and the scratchpad accesses (R248). -/
def memTy : Ty → Bool
  | .none | .e4m3 | .e5m2 | .e2m3 | .e3m2 | .e2m1 => false
  | _ => true

/-- The atomic operation in EXT[23:20] (R249, R262). -/
def Mem.op (x : Mem) : Nat := x.off.toNat / 1048576

/-- The pairings of atomic operation and type (R262). -/
def atomTy (op : Nat) (t : Ty) : Bool :=
  if op ≤ 2 then t.intAny else if op ≤ 7 then t.raw else if op ≤ 9 then t == .n32
  else op ≤ 12 && t == .f32

/-- The link byte IMM[31:24] of the tile group (R171). -/
def linkOk (imm : BitVec 32) : Bool :=
  (imm.getLsbD 31 || imm.extractLsb' 28 3 == 0) && (imm.getLsbD 27 || imm.extractLsb' 24 3 == 0)

/-- Bits hi..lo of a field as a number. -/
def fieldOf (w : BitVec n) (hi lo : Nat) : Nat := w.toNat / 2 ^ lo % 2 ^ (hi - lo + 1)

/-- The most blocks per row of a tile kind (R163). -/
def kindMaxK : Nat → Nat
  | 1 => 4 | 2 => 2 | 3 => 2 | 4 => 1 | 5 => 1 | _ => 0

/-- TSHAPE's limits (R174). -/
def tshapeOk (imm : BitVec 32) : Bool :=
  let rows := fieldOf imm 12 6; let kblk := fieldOf imm 5 3; let kind := fieldOf imm 2 0
  let fill := imm.getLsbD 13
  (if kind == 0 then rows == 0 && kblk == 0
   else kind ≤ 5 && rows ≥ 1 && rows ≤ 64 && kblk ≥ 1 && kblk ≤ kindMaxK kind)
  && (if fill then kind == 1 || kind == 2 || kind == 3 else fieldOf imm 23 14 == 0)

/-- TDRAIN's limits (R181). -/
def tdrainOk (x : Eng) : Bool :=
  let row := fieldOf x.imm 5 0; let col := fieldOf x.imm 11 6
  let t := x.imm.getLsbD 12; let clr := x.imm.getLsbD 13; let hdr := x.imm.getLsbD 14
  fieldOf x.imm 23 15 == 0 &&
  (if t then !clr && col == 0 && tileField x.a &&
      (if hdr then (row == 0 || row == 32) && evenReg x.d else row % 2 == 0)
   else !hdr && (col == 0 || col == 32) && accField x.a)

/-- The commands of CPY and CPYQ (R287). -/
def cpyOk (x : Eng) : Bool :=
  let xf := fieldOf x.imm 4 3; let tag := fieldOf x.imm 6 5; let auto := x.imm.getLsbD 7
  evenReg x.d && quadReg x.a && evenReg x.b && x.c == 0 && fieldOf x.imm 31 8 == 0 &&
  (match xf with
   | 0 => x.ty == .none
   | 1 => x.ty == .f32 || x.ty == .f16 || x.ty == .bf16 || x.ty == .s32
   | 2 => x.ty == .f32 || x.ty == .f16 || x.ty == .bf16
   | _ => x.ty == .none) &&
  (xf == 2 || (tag == 0 && !auto)) && (!auto || tag == 0) && tag != 3

/-- The 64-bit special registers (R43). -/
def sreg64 (n : Nat) : Bool := n == 0x010 || n == 0x012 || n == 0x202 || n == 0x800

/-- The assigned special registers, high halves included (R43). -/
def sregAssigned (n : Nat) : Bool :=
  n ≤ 0x00E || (0x010 ≤ n && n ≤ 0x013) || (0x100 ≤ n && n ≤ 0x102) || (0x200 ≤ n && n ≤ 0x203)
    || (0x800 ≤ n && n ≤ 0x805)

/-- The field checks of SRD and SWR, steps 1 to 3 of R46. -/
def sregOk (imm : BitVec 32) (r : BitVec 8) : Bool :=
  let n := fieldOf imm 11 0; let w := imm.getLsbD 12
  fieldOf imm 31 13 == 0 && (!w || (sreg64 n && evenReg r)) && sregAssigned n

def Sys.zero (x : Sys) (d a b c imm : Bool) : Bool :=
  x.ctl.fixed && (d || x.d == 0) && (a || x.a == 0) && (b || x.b == 0) && (c || x.c == 0) && (imm || x.imm == 0)

def Eng.zero (x : Eng) (ty d a b c imm : Bool) : Bool :=
  x.ctl.var && (ty || x.ty == .none) && (d || x.d == 0) && (a || x.a == 0) && (b || x.b == 0) && (c || x.c == 0)
    && (imm || x.imm == 0)

def Mem.zero (x : Mem) (ty d a b c ord off : Bool) : Bool :=
  x.ctl.var && (ty || x.ty == .none) && (d || x.d == 0) && (a || x.a == 0) && (b || x.b == 0) && (c || x.c == 0)
    && (ord || x.ord == 0) && (off || x.off == 0)

/-- The well-formed instruction terms: exactly those that a word encodes. Events carry nothing to check. A word that breaks a rule of its
own form alone, as an ERET of mode 3 does (R436), is refused here, before its privilege is checked. (DEDUCED, log 131) -/
def Instr.wf (i : Instr) : Bool :=
  match i with
  -- paths and control (R103-R110)
  | .nop => true
  | .join x => x.ctl.fixed && x.ctl.unguarded && x.d == 0 && x.a == 0 && x.slot.toNat ≤ 4
  | .joinClr x => x.ctl.fixed && x.ctl.unguarded && x.d == 0 && x.a == 0 && x.disp == 0 && x.slot == 0
  | .exit x => x.zero false false false false false
  | .yield x => x.zero false false false false false && x.ctl.unguarded
  | .vote x => x.ctl.fixed && x.ty == .none && x.noRnd && x.noSat && x.fl == 0 && x.b == 0 && x.c == 0 &&
      predField x.a && x.opx.toNat ≤ 4 && (x.opx.toNat ≥ 3 || predField x.d)
  | .xmrd x => x.zero true false false false false
  | .xmwr x => x.zero false true false false false
  | .pathq x => x.zero true false false false false
  | .regroup x => x.zero false false false false true && x.ctl.unguarded && 1 ≤ x.imm.toNat && x.imm.toNat ≤ 256
  | .bra x => x.ctl.fixed && x.d == 0 && x.a == 0 && x.slot.toNat ≤ 4
  | .brx x => x.ctl.fixed && x.d == 0 && evenReg x.a && x.disp == 0 && x.slot == 0
  | .call x => x.ctl.fixed && evenReg x.d && x.a == 0 && x.slot.toNat ≤ 4
  | .ret x => x.ctl.fixed && x.d == 0 && evenReg x.a && x.disp == 0 && x.slot == 0
  -- integer arithmetic (R137, R138)
  | .iadd x | .isub x => x.ctl.fixed && x.ty.int32 && x.int false true
  | .iaddImm x | .isubImm x => x.ctl.fixed && x.ty.int32 && x.int false true
  | .iaddc x => x.ctl.fixed && x.ty == .n32 && x.noRnd && x.noSat && x.fl.toNat ≤ 1 && x.opx == 0 && predField x.c
  | .iaddcImm x => x.ctl.fixed && x.ty == .n32 && x.noRnd && x.noSat && x.fl.toNat ≤ 1 && predField x.c
  | .imin x | .imax x => x.ctl.fixed && x.ty.int32 && x.int false false
  | .iminImm x | .imaxImm x => x.ctl.fixed && x.ty.int32 && x.int false false
  | .iabs x => x.ctl.fixed && x.ty == .s32 && x.b == 0 && x.int false true
  | .sad x => x.ctl.fixed && (x.ty.int32 || x.ty == .n8) && x.int true false
  | .lea x => x.ctl.fixed && x.ty.int32 && x.noRnd && x.noSat && x.opx == 0 && x.c == 0 && evenReg x.d && evenReg x.a
  | .leaImm x => x.ctl.fixed && x.ty.int32 && x.noRnd && x.noSat && x.c == 0 && evenReg x.d && evenReg x.a
  | .iadd64 x => x.ctl.fixed && x.ty.int64 && x.int false true && x.regs true true true false
  | .iadd64Imm x => x.ctl.fixed && x.ty.int64 && x.int false true && x.regs true true false
  | .imul x => mulCtl x.ctl x.ty && x.ty.intAny && x.int false true && x.regs true true true false
  | .imulImm x => mulCtl x.ctl x.ty && x.ty.intAny && x.int false true && x.regs true true false
  | .imulh x => mulCtl x.ctl x.ty && x.ty.intAny && x.int false false && x.regs true true true false
  | .imulhImm x => mulCtl x.ctl x.ty && x.ty.intAny && x.int false false && x.regs true true false
  | .imad x => mulCtl x.ctl x.ty && x.ty.intAny && x.int true true && x.regs true true true true
  | .imadImm x => mulCtl x.ctl x.ty && x.ty.intAny && x.int true true && x.regs true true true
  | .imadw x => x.ctl.var && x.ty.int32 && x.int true true && evenReg x.d && evenReg x.c
  | .imadwImm x => x.ctl.var && x.ty.int32 && x.int true true && evenReg x.d && evenReg x.c
  -- shifts, logic and bit fields (R139-R143)
  | .shl x | .shr x => x.ctl.fixed && x.ty.raw && x.int false false && x.regs true true false false
  | .shlImm x | .shrImm x => x.ctl.fixed && x.ty.raw && x.int false false && x.regs true true false
  | .sar x => x.ctl.fixed && (x.ty == .s32 || x.ty == .s64) && x.int false false && x.regs true true false false
  | .sarImm x => x.ctl.fixed && (x.ty == .s32 || x.ty == .s64) && x.int false false && x.regs true true false
  | .rot x => x.ctl.fixed && x.ty == .b32 && x.int false false
  | .rotImm x => x.ctl.fixed && x.ty == .b32 && x.int false false
  | .and x | .or x | .xor x => x.ctl.fixed && x.ty.raw && x.int false false && x.regs true true true false
  | .andImm x | .orImm x | .xorImm x => x.ctl.fixed && x.ty.raw && x.int false false && x.regs true true false
  | .lop3 x => x.ctl.fixed && x.ty == .b32 && x.noRnd && x.noSat && x.fl == 0 && x.opx.toNat < 256
  | .lop3Imm x => x.ctl.fixed && x.ty == .b32
  | .popc x | .clz x | .ctz x => x.ctl.fixed && x.ty.raw && x.int false false && x.b == 0 && x.regs false true false false
  | .brev x => x.ctl.fixed && x.ty.raw && x.int false false && x.b == 0 && x.regs true true false false
  | .bfx x => x.ctl.fixed && x.ty.int32 && x.int false false
  | .bfxImm x => x.ctl.fixed && x.ty.int32 && x.int false false
  | .bfi x | .prmt x => x.ctl.fixed && x.ty == .b32 && x.int true false
  | .bfiImm x | .prmtImm x => x.ctl.fixed && x.ty == .b32 && x.int true false
  -- moves, selection and predicates (R144, R145)
  | .sel x => x.ctl.fixed && x.ty.raw && x.int true false && predField x.c && x.regs true true true false
  | .selImm x => x.ctl.fixed && x.ty.raw && x.int true false && predField x.c && x.regs true true false
  | .iset x => x.ctl.fixed && x.ty.intAny && x.noRnd && x.noSat && x.opx == 0 && x.c == 0 && x.fl.toNat ≤ 5
      && predField x.d && x.regs false true true false
  | .isetImm x => x.ctl.fixed && x.ty.intAny && x.noRnd && x.noSat && x.c == 0 && x.fl.toNat ≤ 5
      && predField x.d && x.regs false true false
  | .pset x => x.ctl.fixed && x.ty == .none && x.noRnd && x.noSat && x.fl == 0 && x.opx.toNat < 256
      && predField x.d && predField x.a && predField x.b && predField x.c
  | .pmovTov x => x.ctl.fixed && x.ty == .none && x.noRnd && x.noSat && x.fl == 0 && x.opx == 0
      && x.a == 0 && x.b == 0 && x.c == 0
  | .pmovFromv x => x.ctl.fixed && x.ty == .none && x.noRnd && x.noSat && x.fl == 0 && x.opx == 1
      && x.d == 0 && x.b == 0 && x.c == 0
  | .mov x => x.ctl.fixed && (x.ty.raw || x.ty == .s64 || x.ty == .f32) && x.int false false && x.b == 0
      && x.regs true true false false
  | .movi x => x.ctl.fixed && (x.ty.raw || x.ty == .s64 || x.ty == .f32) && x.int false false && x.a == 0
      && x.regs true false false
  -- across lanes (R146, R147)
  | .shfl x => x.ctl.fixed && x.ty == .b32 && x.noRnd && x.noSat && x.opx == 0 && x.c == 0
  | .shflImm x => x.ctl.fixed && x.ty == .b32 && x.noRnd && x.noSat && x.c == 0
  | .wred x => x.ctl.fixed && wredOk x.opx.toNat x.ty && x.fl == 0 && x.noSat && x.b == 0 && x.c == 0
      && (x.noRnd || (x.opx == 0 && x.ty == .f32))
  -- FP32 (R149-R154)
  | .fadd x | .fmul x => x.ctl.fixed && x.flt .f32 true false false
  | .faddImm x | .fmulImm x => x.ctl.fixed && x.flt .f32 false false
  | .ffma x => x.ctl.fixed && x.flt .f32 true true false
  | .ffmaImm x => x.ctl.fixed && x.flt .f32 true false
  | .fmin x | .fmax x => x.ctl.fixed && x.flt .f32 true false false && x.noRnd && x.noSat
  | .fminImm x | .fmaxImm x => x.ctl.fixed && x.flt .f32 false false && x.noRnd && x.noSat
  | .fset x => x.ctl.fixed && x.flt .f32 true false true && x.noRnd && x.noSat && x.fl.toNat ≤ 13 && predField x.d
  | .fsetImm x => x.ctl.fixed && x.flt .f32 false true && x.noRnd && x.noSat && x.fl.toNat ≤ 13 && predField x.d
  | .fclass x => x.ctl.fixed && (x.ty == .f32 || x.ty == .f16 || x.ty == .bf16) && x.int false false && x.b == 0
  | .frnd x => x.ctl.fixed && x.flt .f32 false false false && x.noSat
  | .frcp x | .frsq x | .fsqrt x | .fex2 x | .flg2 x | .fsin x | .fcos x | .ftanh x =>
      x.ctl.var && x.flt .f32 false false false
  -- packed 16-bit, dot product, FP64 (R155-R157)
  | .hadd2 x | .hmul2 x => x.ctl.fixed && x.flt .f16 true false true
  | .hadd2Imm x | .hmul2Imm x => x.ctl.fixed && x.flt .f16 false true
  | .hfma2 x => x.ctl.fixed && x.flt .f16 true true true
  | .hfma2Imm x => x.ctl.fixed && x.flt .f16 true true
  | .badd2 x => x.ctl.fixed && x.flt .bf16 true false true
  | .badd2Imm x => x.ctl.fixed && x.flt .bf16 false true
  | .bfma2 x => x.ctl.fixed && x.flt .bf16 true true true
  | .bfma2Imm x => x.ctl.fixed && x.flt .bf16 true true
  | .fdot4 x => x.ctl.fixed && (x.ty == .e4m3 || x.ty == .e5m2 || x.ty == .s8) && x.fl == 0
      && (x.opx == 0 || x.opx == 1 || x.opx == 0x14 || x.opx == 0x15)
  | .dadd x | .dmul x => x.ctl.var && x.flt .f64 true false false && x.regs true true true false
  | .dfma x => x.ctl.var && x.flt .f64 true true false && x.regs true true true true
  -- conversion and packing (R158-R160)
  | .cvt x => (match x.srcTy with
      | some ts => x.ty.numeric && ts.numeric && x.opx.toNat < 32 && x.fl == 0 && x.b == 0 && x.c == 0
          && x.ty.aligned x.d && ts.aligned x.a
          && (if x.ty == .f64 || ts == .f64 then x.ctl.var else x.ctl.fixed)
      | none => false)
  | .cpack x => x.ctl.fixed && packWidth x.ty != 0 && x.fl == 0 && x.c == 0 && (x.opx.toNat + 1) * 2 * packWidth x.ty ≤ 32
  | .cunpk x => x.ctl.fixed && packWidth x.ty != 0 && x.noRnd && x.noSat && x.fl == 0 && x.b == 0 && x.c == 0
      && (x.opx.toNat + 1) * packWidth x.ty ≤ 32
  -- tiles and the matrix engine (R171-R186)
  | .tshape x => x.zero false true false false false true && linkOk x.imm && tileField x.d && tshapeOk x.imm
  | .tzero x => x.zero false true false false false true && linkOk x.imm && fieldOf x.imm 23 1 == 0
      && (if x.imm.getLsbD 0 then accField x.d else tileField x.d)
  | .tld x => x.zero false true true true false true && linkOk x.imm && tileField x.d && evenReg x.a
  | .tst x => x.zero false false true true true true && linkOk x.imm && tileField x.c && evenReg x.a
  | .tfeed x => x.zero false true true false false true && linkOk x.imm && tileField x.d && fieldOf x.imm 23 9 == 0
      && fieldOf x.imm 7 6 == 0
      && (if x.imm.getLsbD 8 then evenReg x.a && (fieldOf x.imm 5 0 == 0 || fieldOf x.imm 5 0 == 32)
          else fieldOf x.imm 5 0 % 2 == 0)
  | .tdrain x => x.zero false true true false false true && linkOk x.imm && tdrainOk x
  | .mma x => x.zero false true true true false true && linkOk x.imm && accField x.d && tileField x.a && tileField x.b
      && fieldOf x.imm 23 21 == 0 && fieldOf x.imm 19 12 == 0
  | .acvt x => x.zero true true true true false true && linkOk x.imm && tileField x.d && accField x.a
      && (x.ty == .f16 || x.ty == .bf16 || x.ty == .e4m3 || x.ty == .e5m2)
      && fieldOf x.imm 23 21 ≤ 4 && fieldOf x.imm 19 13 == 0
      && (if x.ty == .f16 || x.ty == .bf16 then x.b == 0 else x.b != 0xFF)
  | .menc x => x.zero false true true false false true && linkOk x.imm && tileField x.d && accField x.a
      && fieldOf x.imm 23 16 == 0 && (!x.imm.getLsbD 15 || fieldOf x.imm 14 13 == 0) && fieldOf x.imm 14 13 != 3
  | .bobjArm x => x.zero false true false false false true && x.d.toNat < 8 && fieldOf x.imm 31 16 == 0
      && fieldOf x.imm 7 0 == 0 && fieldOf x.imm 15 8 != 0
  | .bobjWait x => x.zero false true false false false true && x.d.toNat < 8 && x.imm == 1 && x.ctl.cnt != 0
  -- intersection, sounding, hash grid (R191, R205-R221)
  | .rayq x => x.zero false true true true true true && quadReg x.d && quadReg x.a && evenReg x.b
      && fieldOf x.imm 31 5 == 0 && !(x.imm.getLsbD 2 && x.imm.getLsbD 3)
  | .rayw x => x.zero false true true true true true && quadReg x.d && quadReg x.a && evenReg x.b
      && fieldOf x.imm 31 4 == 0 && fieldOf x.imm 1 0 == 0 && !(x.imm.getLsbD 2 && x.imm.getLsbD 3)
  | .rayh x => x.zero false true true true false false && quadReg x.d && quadReg x.a && evenReg x.b
  | .ptch x => x.zero false true true true false false && quadReg x.d && evenReg x.a
  | .sndm x | .sndo x | .snde x | .snda x =>
      x.zero false true true true false false && quadReg x.d && quadReg x.a && evenReg x.b
  | .draw x => x.ctl.fixed && (x.ty == .b32 || x.ty == .f32) && x.noRnd && x.noSat && x.fl == 0 && x.opx.toNat < 256
  | .hgf x => x.zero false true true true false true && evenReg x.b && fieldOf x.imm 31 9 == 0
      && 1 ≤ fieldOf x.imm 7 4 && fieldOf x.imm 7 4 ≤ 8 && fieldOf x.imm 3 0 + fieldOf x.imm 7 4 ≤ 16
  -- memory (R247-R274)
  | .ld x => x.zero true true true false true true true && memTy x.ty && x.ty.aligned x.d && evenReg x.a
      && ordOk x.ord true true true false
  | .st x => x.zero true false true true false true true && memTy x.ty && x.ty.aligned x.b && evenReg x.a
      && ordOk x.ord true true false true
  | .lds x => x.zero true true true false false true true && memTy x.ty && x.ty.aligned x.d && ordOk x.ord true true true false
  | .sts x => x.zero true false true true false true true && memTy x.ty && x.ty.aligned x.b && ordOk x.ord true true false true
  | .ldrm x => x.zero true true true false true true true && memTy x.ty && x.ty.aligned x.d && x.c.toNat < 4
      && ordOk x.ord true true true false
  | .strm x => x.zero true false true true true true true && memTy x.ty && x.ty.aligned x.b && x.c.toNat < 4
      && ordOk x.ord true true false true
  | .atom x => x.zero true true true true true true true && atomTy x.op x.ty && evenReg x.a && x.ty.aligned x.d
      && x.ty.aligned x.b && (if x.op == 7 then x.ty.aligned x.c else x.c == 0) && ordOk x.ord true true true true
  | .atoms x => x.zero true true true true true true true && atomTy x.op x.ty && x.ty.aligned x.d
      && x.ty.aligned x.b && (if x.op == 7 then x.ty.aligned x.c else x.c == 0) && ordOk x.ord true true true true
  | .red x => x.zero true false true true false true true && atomTy x.op x.ty && x.op != 7 && evenReg x.a
      && x.ty.aligned x.b && ordOk x.ord true true false true
  | .fence x => x.zero false false false false false true false && x.ctl.fixed && ordOk x.ord true false true true
  | .marm x => x.zero true true true false false true true && x.ty.raw && x.ty.aligned x.d && evenReg x.a
      && ordOk x.ord true true true false
  | .mwait x => x.zero false true false false false false true && x.ctl.fixed
  | .pref x => x.zero false true true false false false true && x.d.toNat ≤ 2 && evenReg x.a
  | .texs x | .texf x => x.zero true true true true false false true && x.ty == .f32 && quadReg x.d && evenReg x.a
  | .lnks x => x.zero false false true false false true && fieldOf x.imm 31 6 == 0
  | .lnkr x => x.zero false true false false false true && fieldOf x.imm 31 6 == 0
  -- copies, gathers, jobs, staging (R287-R295)
  | .cpy x | .cpyq x => x.ctl.var && cpyOk x
  | .cbld x => x.zero false true true true false true && evenReg x.d && evenReg x.a && evenReg x.b
      && fieldOf x.imm 31 11 == 0
  | .gthr x => x.zero false true true true false true && evenReg x.d && quadReg x.a && evenReg x.b
      && fieldOf x.imm 31 6 == 0 && 2 ≤ fieldOf x.imm 5 3
  | .job x => x.zero false true true true false false && evenReg x.d && evenReg x.a && evenReg x.b
  | .stageHold x => x.zero false true true true false false && evenReg x.a
  | .stageRel x => x.zero false true true true false true && evenReg x.a && x.imm == 1
  -- synchronisation, pilot, queues, variants (R332, R339)
  | .bar x | .gbar x => x.zero false false false false true && x.ctl.unguarded && x.imm.toNat < 16
  | .waitc x => x.zero false false false false true && x.ctl.unguarded && fieldOf x.imm 31 10 == 0
      && (if x.imm.getLsbD 9 then fieldOf x.imm 8 0 == 0 else fieldOf x.imm 8 6 ≤ 5)
  | .rdzv x => x.zero false false false false true && x.ctl.unguarded && fieldOf x.imm 31 14 == 0 && fieldOf x.imm 7 3 == 0
  | .sleep x => x.zero false false false false true && x.ctl.unguarded && 1 ≤ x.imm.toNat && x.imm.toNat < 16777216
  | .fork x => x.zero false true false false false true && fieldOf x.imm 2 0 ≤ 4
  | .lrec x => x.zero false true false false false true && x.imm.toNat < 4096 && x.imm.toNat % 4 == 0
  | .permitQ x => x.zero false true false false false true && x.imm.toNat < 16 && fieldOf x.imm 1 0 == 0
  | .permitRsv x => x.zero false true false false false true && fieldOf x.imm 1 0 == 1 && fieldOf x.imm 7 4 == 0
      && fieldOf x.imm 31 14 == 0 && 1 ≤ fieldOf x.imm 13 8 && fieldOf x.imm 13 8 ≤ 32
  | .permitRel x => x.zero false true false false false true && x.imm.toNat < 16 && fieldOf x.imm 1 0 == 2
  | .qapp x => x.zero false true true true false true && evenReg x.d && evenReg x.a && x.imm.toNat < 16
  | .varpt x => x.zero true false false false true && x.ctl.unguarded && x.imm.toNat < 64
  -- reckoning, time, trace, system
  | .fillc x => x.zero true false true true false false true && x.ty == .b32 && evenReg x.a
  | .fillx x => x.zero false false false false true && x.imm.toNat < 255
  | .rkinv x => x.zero false true true true false false true && evenReg x.a
  | .rkpinPin x => x.zero false true true true false false true && evenReg x.a
  | .rkpinUnpin x => x.zero false true true true true false true && evenReg x.a && x.c == 1
  | .tstamp x => x.zero true true true false false true true && x.ty == .b64 && evenReg x.d && evenReg x.a
      && ordOk x.ord true false false true
  | .tstampWake x => x.zero true true true false true false false && x.ty == .b64 && evenReg x.d
      && 1 ≤ x.c.toNat && x.c.toNat ≤ 4
  | .trcm x => x.zero false true false false true && x.imm.toNat < 65536
  | .srd x => x.zero true false false false true && sregOk x.imm x.d
  | .swr x => x.zero false true false false true && sregOk x.imm x.a
  | .trap x | .brk x => x.zero false false false false true && x.imm.toNat < 65536
  | .eret x => x.zero false false false false true && x.ctl.unguarded && x.imm == 0
  | .eretSkip x => x.zero false false false false true && x.ctl.unguarded && x.imm == 1
  | .eretPc x => x.zero false false false false true && x.ctl.unguarded && x.imm == 2
  | .ctxsv x => x.zero true true false false false && evenReg x.a
  | .ctxld x => x.zero true false true false false
  | .tlbiVa x => x.zero false true true true false && evenReg x.a
  | .tlbiAsn x => x.zero false false false true true && x.imm == 1
  | .tlbiAll x => x.zero false false false false true && x.imm == 2
  -- events
  | .regroupComplete _ _ => true
  | .resultVisible _ _ => true
  | .trapEntry _ _ => true
  | .fetchLineFill _ _ _ _ _ => true
  | .gangRetire _ => true
  | .barrierComplete _ _ _ _ => true
  | .rdzvPhaseComplete _ _ => true
  | .waitcComplete _ _ => true
  | .sleepExpire _ _ => true
  | .mwaitWritten _ _ => true
  | .mwaitExpire _ _ => true
  | .linkMessageLand _ => true
  | .permitGrant _ _ => true
  | .jobStart _ => true
  | .jobComplete _ => true
  | .takeRecord => true
  | .placeGang => true
  | .stagingDone _ => true
  | .stagingTimeout _ => true
  | .switchPointReached _ => true
  | .switchWaitTimeout _ => true
  | .fullSaveTimeout _ => true
  | .saveSlotsFree => true
  | .migrationResume _ => true
  | .pathOverdue _ _ => true
  | .requestInject _ => true
  | .walkerMonitorWake _ => true
  | .xlateRewalk _ _ => true
  | .reckonResourceRetry _ _ => true
  | .fillLaunch => true
  | .waitNodeRelease _ _ => true
  | .reckonHeldSave => true
  | .unitEvict _ _ _ => true
  | .watchdog _ => true
  | .thermalStop _ => true
  | .thermalResume _ => true
  | .hwError _ _ _ => true
  | .correctedError _ => true
  | .dieUncorrectable _ _ _ => true
  | .sensorSample _ => true
  | .bankRefresh _ => true
  | .allowanceUpdate => true
  | .rotationPass => true
  | .testerTurn _ _ => true
  | .testerAbort _ => true
  | .overpower _ => true
  | .reset => true
  | .firmwareReload _ _ => true
  | .registerWrite _ _ => true
  | .featacceptWrite _ _ => true
  | .modectlWrite _ => true
  | .ctxCreate _ => true
  | .ctxDestroy _ => true
  | .destroyComplete _ => true
  | .hostTlbiVa _ _ _ => true
  | .hostTlbiAsn _ => true
  | .hostTlbiAll => true
  | .tailDoorbell _ _ => true
  | .queueEnable _ => true
  | .queueDisable _ => true
  | .wakeopen _ _ => true
  | .flip _ => true
  | .frameBoundary _ => true
  | .firstPixel _ => true
  | .trailTimeout _ => true
  | .wtringWrite _ _ => true
  | .wtridxWrite _ => true
  | .measext _ => true
  | .resync _ => true
  | .stoprelRelease _ _ _ => true
  | .stoprelStep _ _ _ => true
  | .stoprelAll _ => true
  | .stoparmWrite _ _ => true
  | .breakpointHold _ _ _ => true
  | .stallclr => true
  | .trctlWrite _ => true
  | .traceLossWrite => true
  | .pctlWrite _ _ => true
  | .frameTransmit _ => true
  | .frameReceive _ _ _ => true
  | .gateConfigChange _ => true
  | .gateCycleStart _ => true
  | .gateIntervalExpire _ => true
  | .portLinkDown _ => true
  | .getVersion _ _ => true
  | .getCapabilities _ _ => true
  | .negotiateAlgorithms _ _ => true
  | .getDigests _ _ => true
  | .getCertificate _ _ => true
  | .challenge _ _ => true
  | .getMeasurements _ _ => true
  | .dpctlEnable _ _ => true
  | .hpdLoss _ => true
  | .auxNativeWrite _ _ => true
  | .auxNativeRead _ _ => true
  | .auxI2cWrite _ _ => true
  | .auxI2cRead _ _ => true
  | .auxI2cWriteMot _ _ => true
  | .auxI2cReadMot _ _ => true
  | .auxReply _ _ _ => true
  | .backInvalidate _ _ => true
  | .illegalEncoding _ => true
  | .portLinkUp _ => true
  | .hpdAssert _ => true
  | .linkTrainingDone _ _ _ _ => true
  | .grandmasterTimeout => true

end Sys2Proof
end

