-- ==== Sys2Proof/Decode.lean ====
section
/-! DEFINITION. The decoder and the encoder of instruction words (R58, R60, R64, R70, R81-R98). Decoding is total: a word is a
well-formed instruction, or is rejected with a reason (every reason is ILLEGAL_ENCODING to the machine, R70). -/

namespace Sys2Proof

/-- Why a word is no instruction (R70). -/
inductive Reject where
  /-- OP 0, SUB 0 and any other bit set. -/
  | nopBits
  /-- G = 0 with N or PG nonzero. -/
  | guardBits
  /-- A pair of OP and SUB that the opcode map does not list, a reserved type or rounding code, or a nonzero bit in a
  field that the class reserves. -/
  | unassigned
  /-- A field outside what the instruction's description allows. -/
  | fields
  deriving DecidableEq, Repr

/-- The fields of a 96-bit word (R58). -/
structure Fields where
  op : BitVec 8
  sub : BitVec 6
  g : Bool
  n : Bool
  pg : BitVec 4
  la : BitVec 4
  d : BitVec 8
  a : BitVec 8
  b : BitVec 8
  c : BitVec 8
  cnt : BitVec 3
  ty : BitVec 5
  imm : BitVec 32
  deriving DecidableEq, Repr

/-- R58: the places of the fields. -/
def fieldsOf (w : Slot) : Fields where
  op := w.extractLsb' 88 8
  sub := w.extractLsb' 82 6
  g := w.getLsbD 81
  n := w.getLsbD 80
  pg := w.extractLsb' 76 4
  la := w.extractLsb' 72 4
  d := w.extractLsb' 64 8
  a := w.extractLsb' 56 8
  b := w.extractLsb' 48 8
  c := w.extractLsb' 40 8
  cnt := w.extractLsb' 37 3
  ty := w.extractLsb' 32 5
  imm := w.extractLsb' 0 32

/-- R58: the word of its fields. -/
def packFields (f : Fields) : Slot :=
  f.op ++ f.sub ++ BitVec.ofBool f.g ++ BitVec.ofBool f.n ++ f.pg ++ f.la ++ f.d ++ f.a ++ f.b ++ f.c ++ f.cnt ++ f.ty ++ f.imm

/-- R61: the code of a type. -/
def tyCode : Ty → BitVec 5
  | .none => 0 | .s8 => 1 | .s16 => 2 | .s32 => 3 | .s64 => 4 | .n8 => 5 | .n16 => 6 | .n32 => 7 | .n64 => 8
  | .b8 => 9 | .b16 => 10 | .b32 => 11 | .b64 => 12 | .b128 => 13 | .f64 => 16 | .f32 => 17 | .f16 => 18 | .bf16 => 19
  | .e4m3 => 20 | .e5m2 => 21 | .e2m3 => 22 | .e3m2 => 23 | .e2m1 => 24

/-- R62: the code of a rounding. -/
def rndCode : Rnd → BitVec 3
  | .dyn => 0 | .rn => 1 | .rz => 2 | .ru => 3 | .rd => 4

/-- R62: 5 to 7 are reserved. -/
def rndOfCode (n : Nat) : Option Rnd :=
  match n with
  | 0 => some .dyn | 1 => some .rn | 2 => some .rz | 3 => some .ru | 4 => some .rd | _ => none

/-- R59: the guard of G, N and PG. -/
def Fields.guard (f : Fields) : Guard :=
  if f.g then if f.n then .neg f.pg else .pos f.pg else .always

def Fields.ctl (f : Fields) : Ctl := { guard := f.guard, la := f.la, cnt := f.cnt }

/-- The class records of a word (R60). -/
def Fields.asV3 (f : Fields) (k : V3 → Instr) : Option Instr :=
  match tyOfCode f.ty.toNat, rndOfCode (f.imm.extractLsb' 29 3).toNat with
  | some t, some r => some (k { ctl := f.ctl, ty := t, d := f.d, a := f.a, b := f.b, c := f.c, rnd := r, sat := f.imm.getLsbD 28, fl := f.imm.extractLsb' 24 4, opx := f.imm.extractLsb' 0 24 })
  | _, _ => none

def Fields.asVI (f : Fields) (k : VI → Instr) : Option Instr :=
  match tyOfCode f.ty.toNat with
  | some t => some (k { ctl := f.ctl, ty := t, d := f.d, a := f.a, c := f.c, bctl := f.b, imm := f.imm })
  | none => none

def Fields.asMem (f : Fields) (k : Mem → Instr) : Option Instr :=
  match tyOfCode f.ty.toNat with
  | some t => some (k { ctl := f.ctl, ty := t, d := f.d, a := f.a, b := f.b, c := f.c, ord := f.imm.extractLsb' 24 8, off := f.imm.extractLsb' 0 24 })
  | none => none

def Fields.asEng (f : Fields) (k : Eng → Instr) : Option Instr :=
  match tyOfCode f.ty.toNat with
  | some t => some (k { ctl := f.ctl, ty := t, d := f.d, a := f.a, b := f.b, c := f.c, imm := f.imm })
  | none => none

def Fields.asSys (f : Fields) (k : Sys → Instr) : Option Instr :=
  if f.ty == 0 then some (k { ctl := f.ctl, d := f.d, a := f.a, b := f.b, c := f.c, imm := f.imm }) else none

/-- Class BR: the target is EXT[31:3] lines away, slot EXT[2:0] (R64). B is 1 for `join.clr` alone (R104). -/
def Fields.asBrWith (bval : BitVec 8) (f : Fields) (k : Br → Instr) : Option Instr :=
  if f.ty == 0 && f.b == bval && f.c == 0 then
    some (k { ctl := f.ctl, d := f.d, a := f.a, disp := f.imm.extractLsb' 3 29, slot := f.imm.extractLsb' 0 3 })
  else none

/-- The minor codes of major code 0x00 (R88-R96, R84). -/
def rawOp00 (f : Fields) : Option Instr :=
  match f.sub.toNat with
  | 0 => some .nop
  | 1 => if f.b == 1 then f.asBrWith 1 .joinClr else f.asBrWith 0 .join
  | 2 => f.asSys .exit
  | 3 => f.asSys .yield
  | 4 => f.asV3 .vote
  | 5 => f.asSys .xmrd
  | 6 => f.asSys .xmwr
  | 7 => f.asSys .pathq
  | 8 => f.asSys .regroup
  | _ => none

/-- The minor codes of major code 0x01 (R88-R96, R84). -/
def rawOp01 (f : Fields) : Option Instr :=
  match f.sub.toNat with
  | 0 => f.asBrWith 0 .bra
  | 1 => f.asBrWith 0 .brx
  | 2 => f.asBrWith 0 .call
  | 3 => f.asBrWith 0 .ret
  | _ => none

/-- The minor codes of major code 0x10 (R88-R96, R84). -/
def rawOp10 (f : Fields) : Option Instr :=
  match f.sub.toNat with
  | 0 => f.asV3 .iadd
  | 1 => f.asVI .iaddImm
  | 2 => f.asV3 .isub
  | 3 => f.asVI .isubImm
  | 4 => f.asV3 .iaddc
  | 5 => f.asVI .iaddcImm
  | 6 => f.asV3 .imin
  | 7 => f.asVI .iminImm
  | 8 => f.asV3 .imax
  | 9 => f.asVI .imaxImm
  | 10 => f.asV3 .iabs
  | 12 => f.asV3 .sad
  | 14 => f.asV3 .lea
  | 15 => f.asVI .leaImm
  | 16 => f.asV3 .iadd64
  | 17 => f.asVI .iadd64Imm
  | _ => none

/-- The minor codes of major code 0x11 (R88-R96, R84). -/
def rawOp11 (f : Fields) : Option Instr :=
  match f.sub.toNat with
  | 0 => f.asV3 .imul
  | 1 => f.asVI .imulImm
  | 2 => f.asV3 .imulh
  | 3 => f.asVI .imulhImm
  | 4 => f.asV3 .imad
  | 5 => f.asVI .imadImm
  | 6 => f.asV3 .imadw
  | 7 => f.asVI .imadwImm
  | _ => none

/-- The minor codes of major code 0x12 (R88-R96, R84). -/
def rawOp12 (f : Fields) : Option Instr :=
  match f.sub.toNat with
  | 0 => f.asV3 .shl
  | 1 => f.asVI .shlImm
  | 2 => f.asV3 .shr
  | 3 => f.asVI .shrImm
  | 4 => f.asV3 .sar
  | 5 => f.asVI .sarImm
  | 6 => f.asV3 .rot
  | 7 => f.asVI .rotImm
  | 8 => f.asV3 .and
  | 9 => f.asVI .andImm
  | 10 => f.asV3 .or
  | 11 => f.asVI .orImm
  | 12 => f.asV3 .xor
  | 13 => f.asVI .xorImm
  | 14 => f.asV3 .lop3
  | 15 => f.asVI .lop3Imm
  | _ => none

/-- The minor codes of major code 0x13 (R88-R96, R84). -/
def rawOp13 (f : Fields) : Option Instr :=
  match f.sub.toNat with
  | 0 => f.asV3 .popc
  | 2 => f.asV3 .clz
  | 4 => f.asV3 .ctz
  | 6 => f.asV3 .brev
  | 8 => f.asV3 .bfx
  | 9 => f.asVI .bfxImm
  | 10 => f.asV3 .bfi
  | 11 => f.asVI .bfiImm
  | 12 => f.asV3 .prmt
  | 13 => f.asVI .prmtImm
  | _ => none

/-- The minor codes of major code 0x14 (R88-R96, R84). -/
def rawOp14 (f : Fields) : Option Instr :=
  match f.sub.toNat with
  | 0 => f.asV3 .sel
  | 1 => f.asVI .selImm
  | 2 => f.asV3 .iset
  | 3 => f.asVI .isetImm
  | 4 => f.asV3 .pset
  | 6 => if f.imm.getLsbD 0 then f.asV3 .pmovFromv else f.asV3 .pmovTov
  | _ => none

/-- The minor codes of major code 0x15 (R88-R96, R84). -/
def rawOp15 (f : Fields) : Option Instr :=
  match f.sub.toNat with
  | 0 => f.asV3 .mov
  | 1 => f.asVI .movi
  | 2 => f.asV3 .shfl
  | 3 => f.asVI .shflImm
  | 4 => f.asV3 .wred
  | _ => none

/-- The minor codes of major code 0x30 (R88-R96, R84). -/
def rawOp30 (f : Fields) : Option Instr :=
  match f.sub.toNat with
  | 0 => f.asV3 .fadd
  | 1 => f.asVI .faddImm
  | 2 => f.asV3 .fmul
  | 3 => f.asVI .fmulImm
  | 4 => f.asV3 .ffma
  | 5 => f.asVI .ffmaImm
  | 6 => f.asV3 .fmin
  | 7 => f.asVI .fminImm
  | 8 => f.asV3 .fmax
  | 9 => f.asVI .fmaxImm
  | 10 => f.asV3 .fset
  | 11 => f.asVI .fsetImm
  | 12 => f.asV3 .fclass
  | 14 => f.asV3 .frnd
  | _ => none

/-- The minor codes of major code 0x31 (R88-R96, R84). -/
def rawOp31 (f : Fields) : Option Instr :=
  match f.sub.toNat with
  | 0 => f.asV3 .frcp
  | 2 => f.asV3 .frsq
  | 4 => f.asV3 .fsqrt
  | 6 => f.asV3 .fex2
  | 8 => f.asV3 .flg2
  | 10 => f.asV3 .fsin
  | 12 => f.asV3 .fcos
  | 14 => f.asV3 .ftanh
  | _ => none

/-- The minor codes of major code 0x32 (R88-R96, R84). -/
def rawOp32 (f : Fields) : Option Instr :=
  match f.sub.toNat with
  | 0 => f.asV3 .hadd2
  | 1 => f.asVI .hadd2Imm
  | 2 => f.asV3 .hmul2
  | 3 => f.asVI .hmul2Imm
  | 4 => f.asV3 .hfma2
  | 5 => f.asVI .hfma2Imm
  | 6 => f.asV3 .badd2
  | 7 => f.asVI .badd2Imm
  | 8 => f.asV3 .bfma2
  | 9 => f.asVI .bfma2Imm
  | 10 => f.asV3 .fdot4
  | _ => none

/-- The minor codes of major code 0x33 (R88-R96, R84). -/
def rawOp33 (f : Fields) : Option Instr :=
  match f.sub.toNat with
  | 0 => f.asV3 .dadd
  | 2 => f.asV3 .dmul
  | 4 => f.asV3 .dfma
  | _ => none

/-- The minor codes of major code 0x34 (R88-R96, R84). -/
def rawOp34 (f : Fields) : Option Instr :=
  match f.sub.toNat with
  | 0 => f.asV3 .cvt
  | 2 => f.asV3 .cpack
  | 4 => f.asV3 .cunpk
  | _ => none

/-- The minor codes of major code 0x50 (R88-R96, R84). -/
def rawOp50 (f : Fields) : Option Instr :=
  match f.sub.toNat with
  | 0 => f.asEng .tshape
  | 1 => f.asEng .tzero
  | _ => none

/-- The minor codes of major code 0x51 (R88-R96, R84). -/
def rawOp51 (f : Fields) : Option Instr :=
  match f.sub.toNat with
  | 0 => f.asEng .tld
  | 1 => f.asEng .tst
  | 2 => f.asEng .tfeed
  | 3 => f.asEng .tdrain
  | _ => none

/-- The minor codes of major code 0x52 (R88-R96, R84). -/
def rawOp52 (f : Fields) : Option Instr :=
  match f.sub.toNat with
  | 0 => f.asEng .mma
  | 1 => f.asEng .acvt
  | 2 => f.asEng .menc
  | _ => none

/-- The minor codes of major code 0x53 (R88-R96, R84). -/
def rawOp53 (f : Fields) : Option Instr :=
  match f.sub.toNat with
  | 0 => if (f.imm.extractLsb' 0 2) == 1 then f.asEng .bobjWait else f.asEng .bobjArm
  | _ => none

/-- The minor codes of major code 0x60 (R88-R96, R84). -/
def rawOp60 (f : Fields) : Option Instr :=
  match f.sub.toNat with
  | 0 => f.asEng .rayq
  | 1 => f.asEng .rayw
  | 2 => f.asEng .rayh
  | 3 => f.asEng .ptch
  | _ => none

/-- The minor codes of major code 0x61 (R88-R96, R84). -/
def rawOp61 (f : Fields) : Option Instr :=
  match f.sub.toNat with
  | 0 => f.asEng .sndm
  | 1 => f.asEng .sndo
  | 2 => f.asEng .snde
  | 3 => f.asEng .snda
  | _ => none

/-- The minor codes of major code 0x62 (R88-R96, R84). -/
def rawOp62 (f : Fields) : Option Instr :=
  match f.sub.toNat with
  | 0 => f.asV3 .draw
  | _ => none

/-- The minor codes of major code 0x63 (R88-R96, R84). -/
def rawOp63 (f : Fields) : Option Instr :=
  match f.sub.toNat with
  | 0 => f.asEng .hgf
  | _ => none

/-- The minor codes of major code 0x70 (R88-R96, R84). -/
def rawOp70 (f : Fields) : Option Instr :=
  match f.sub.toNat with
  | 0 => f.asMem .ld
  | 1 => f.asMem .st
  | _ => none

/-- The minor codes of major code 0x71 (R88-R96, R84). -/
def rawOp71 (f : Fields) : Option Instr :=
  match f.sub.toNat with
  | 0 => f.asMem .lds
  | 1 => f.asMem .sts
  | _ => none

/-- The minor codes of major code 0x72 (R88-R96, R84). -/
def rawOp72 (f : Fields) : Option Instr :=
  match f.sub.toNat with
  | 0 => f.asMem .ldrm
  | 1 => f.asMem .strm
  | _ => none

/-- The minor codes of major code 0x73 (R88-R96, R84). -/
def rawOp73 (f : Fields) : Option Instr :=
  match f.sub.toNat with
  | 0 => f.asMem .atom
  | 1 => f.asMem .atoms
  | 2 => f.asMem .red
  | _ => none

/-- The minor codes of major code 0x74 (R88-R96, R84). -/
def rawOp74 (f : Fields) : Option Instr :=
  match f.sub.toNat with
  | 0 => f.asMem .fence
  | 1 => f.asMem .marm
  | 2 => f.asMem .mwait
  | 3 => f.asMem .pref
  | _ => none

/-- The minor codes of major code 0x75 (R88-R96, R84). -/
def rawOp75 (f : Fields) : Option Instr :=
  match f.sub.toNat with
  | 0 => f.asMem .texs
  | 1 => f.asMem .texf
  | _ => none

/-- The minor codes of major code 0x76 (R88-R96, R84). -/
def rawOp76 (f : Fields) : Option Instr :=
  match f.sub.toNat with
  | 0 => f.asEng .lnks
  | 1 => f.asEng .lnkr
  | _ => none

/-- The minor codes of major code 0x90 (R88-R96, R84). -/
def rawOp90 (f : Fields) : Option Instr :=
  match f.sub.toNat with
  | 0 => f.asEng .cpy
  | 1 => f.asEng .cpyq
  | _ => none

/-- The minor codes of major code 0x91 (R88-R96, R84). -/
def rawOp91 (f : Fields) : Option Instr :=
  match f.sub.toNat with
  | 0 => f.asEng .cbld
  | _ => none

/-- The minor codes of major code 0x92 (R88-R96, R84). -/
def rawOp92 (f : Fields) : Option Instr :=
  match f.sub.toNat with
  | 0 => f.asEng .gthr
  | _ => none

/-- The minor codes of major code 0x93 (R88-R96, R84). -/
def rawOp93 (f : Fields) : Option Instr :=
  match f.sub.toNat with
  | 0 => f.asEng .job
  | _ => none

/-- The minor codes of major code 0x94 (R88-R96, R84). -/
def rawOp94 (f : Fields) : Option Instr :=
  match f.sub.toNat with
  | 0 => if f.imm.getLsbD 0 then f.asEng .stageRel else f.asEng .stageHold
  | _ => none

/-- The minor codes of major code 0xa0 (R88-R96, R84). -/
def rawOpA0 (f : Fields) : Option Instr :=
  match f.sub.toNat with
  | 0 => f.asSys .bar
  | 1 => f.asSys .gbar
  | 2 => f.asSys .waitc
  | 3 => f.asSys .rdzv
  | 4 => f.asSys .sleep
  | _ => none

/-- The minor codes of major code 0xa1 (R88-R96, R84). -/
def rawOpA1 (f : Fields) : Option Instr :=
  match f.sub.toNat with
  | 0 => f.asEng .fork
  | 1 => f.asEng .lrec
  | 2 => if (f.imm.extractLsb' 0 2) == 1 then f.asEng .permitRsv else if (f.imm.extractLsb' 0 2) == 2 then f.asEng .permitRel else f.asEng .permitQ
  | _ => none

/-- The minor codes of major code 0xa2 (R88-R96, R84). -/
def rawOpA2 (f : Fields) : Option Instr :=
  match f.sub.toNat with
  | 0 => f.asEng .qapp
  | _ => none

/-- The minor codes of major code 0xa3 (R88-R96, R84). -/
def rawOpA3 (f : Fields) : Option Instr :=
  match f.sub.toNat with
  | 0 => f.asSys .varpt
  | _ => none

/-- The minor codes of major code 0xb0 (R88-R96, R84). -/
def rawOpB0 (f : Fields) : Option Instr :=
  match f.sub.toNat with
  | 0 => f.asMem .fillc
  | 1 => f.asSys .fillx
  | _ => none

/-- The minor codes of major code 0xb1 (R88-R96, R84). -/
def rawOpB1 (f : Fields) : Option Instr :=
  match f.sub.toNat with
  | 0 => f.asMem .rkinv
  | 1 => if f.c == 1 then f.asMem .rkpinUnpin else f.asMem .rkpinPin
  | _ => none

/-- The minor codes of major code 0xb8 (R88-R96, R84). -/
def rawOpB8 (f : Fields) : Option Instr :=
  match f.sub.toNat with
  | 0 => if f.c != 0 then f.asMem .tstampWake else f.asMem .tstamp
  | _ => none

/-- The minor codes of major code 0xb9 (R88-R96, R84). -/
def rawOpB9 (f : Fields) : Option Instr :=
  match f.sub.toNat with
  | 0 => f.asSys .trcm
  | _ => none

/-- The minor codes of major code 0xc0 (R88-R96, R84). -/
def rawOpC0 (f : Fields) : Option Instr :=
  match f.sub.toNat with
  | 0 => f.asSys .srd
  | 1 => f.asSys .swr
  | _ => none

/-- The minor codes of major code 0xc1 (R88-R96, R84). -/
def rawOpC1 (f : Fields) : Option Instr :=
  match f.sub.toNat with
  | 0 => f.asSys .trap
  | 1 => f.asSys .brk
  | 2 => if (f.imm.extractLsb' 0 2) == 1 then f.asSys .eretSkip else if (f.imm.extractLsb' 0 2) == 2 then f.asSys .eretPc else f.asSys .eret
  | _ => none

/-- The minor codes of major code 0xc2 (R88-R96, R84). -/
def rawOpC2 (f : Fields) : Option Instr :=
  match f.sub.toNat with
  | 0 => f.asSys .ctxsv
  | 1 => f.asSys .ctxld
  | _ => none

/-- The minor codes of major code 0xc3 (R88-R96, R84). -/
def rawOpC3 (f : Fields) : Option Instr :=
  match f.sub.toNat with
  | 0 => if (f.imm.extractLsb' 0 2) == 1 then f.asSys .tlbiAsn else if (f.imm.extractLsb' 0 2) == 2 then f.asSys .tlbiAll else f.asSys .tlbiVa
  | _ => none

/-- The instruction of a word's fields, before the field checks: the class record under the constructor of its major
and minor code (R81). -/
def rawDecode (f : Fields) : Option Instr :=
  match f.op.toNat with
  | 0 => rawOp00 f
  | 1 => rawOp01 f
  | 16 => rawOp10 f
  | 17 => rawOp11 f
  | 18 => rawOp12 f
  | 19 => rawOp13 f
  | 20 => rawOp14 f
  | 21 => rawOp15 f
  | 48 => rawOp30 f
  | 49 => rawOp31 f
  | 50 => rawOp32 f
  | 51 => rawOp33 f
  | 52 => rawOp34 f
  | 80 => rawOp50 f
  | 81 => rawOp51 f
  | 82 => rawOp52 f
  | 83 => rawOp53 f
  | 96 => rawOp60 f
  | 97 => rawOp61 f
  | 98 => rawOp62 f
  | 99 => rawOp63 f
  | 112 => rawOp70 f
  | 113 => rawOp71 f
  | 114 => rawOp72 f
  | 115 => rawOp73 f
  | 116 => rawOp74 f
  | 117 => rawOp75 f
  | 118 => rawOp76 f
  | 144 => rawOp90 f
  | 145 => rawOp91 f
  | 146 => rawOp92 f
  | 147 => rawOp93 f
  | 148 => rawOp94 f
  | 160 => rawOpA0 f
  | 161 => rawOpA1 f
  | 162 => rawOpA2 f
  | 163 => rawOpA3 f
  | 176 => rawOpB0 f
  | 177 => rawOpB1 f
  | 184 => rawOpB8 f
  | 185 => rawOpB9 f
  | 192 => rawOpC0 f
  | 193 => rawOpC1 f
  | 194 => rawOpC2 f
  | 195 => rawOpC3 f
  | _ => none
/-- Decoding (R70, R71): total, rejecting by name. (DEDUCED, log 131) -/
def decode (w : Slot) : Except Reject Instr :=
  let f := fieldsOf w
  if f.op == 0 && f.sub == 0 then if w == 0 then .ok .nop else .error .nopBits
  else if !f.g && (f.n || f.pg != 0) then .error .guardBits
  else match rawDecode f with
    | none => .error .unassigned
    | some i => if i.wf then .ok i else .error .fields

/-- The fields that every class shares (R58, R59). -/
def ctlFields (c : Ctl) (op sub : Nat) : Fields where
  op := BitVec.ofNat 8 op
  sub := BitVec.ofNat 6 sub
  g := c.guard != .always
  n := match c.guard with | .neg _ => true | _ => false
  pg := match c.guard with | .pos p => p | .neg p => p | .always => 0
  la := c.la
  cnt := c.cnt
  d := 0
  a := 0
  b := 0
  c := 0
  ty := 0
  imm := 0

def V3.pack (x : V3) (op sub : Nat) : Slot :=
  packFields { ctlFields x.ctl op sub with d := x.d, a := x.a, b := x.b, c := x.c, ty := tyCode x.ty, imm := rndCode x.rnd ++ BitVec.ofBool x.sat ++ x.fl ++ x.opx }

def VI.pack (x : VI) (op sub : Nat) : Slot :=
  packFields { ctlFields x.ctl op sub with d := x.d, a := x.a, b := x.bctl, c := x.c, ty := tyCode x.ty, imm := x.imm }

def Mem.pack (x : Mem) (op sub : Nat) : Slot :=
  packFields { ctlFields x.ctl op sub with d := x.d, a := x.a, b := x.b, c := x.c, ty := tyCode x.ty, imm := x.ord ++ x.off }

def Eng.pack (x : Eng) (op sub : Nat) : Slot :=
  packFields { ctlFields x.ctl op sub with d := x.d, a := x.a, b := x.b, c := x.c, ty := tyCode x.ty, imm := x.imm }

def Sys.pack (x : Sys) (op sub : Nat) : Slot :=
  packFields { ctlFields x.ctl op sub with d := x.d, a := x.a, b := x.b, c := x.c, imm := x.imm }

def Br.pack (x : Br) (op sub : Nat) (b : Nat) : Slot :=
  packFields { ctlFields x.ctl op sub with d := x.d, a := x.a, b := BitVec.ofNat 8 b, imm := x.disp ++ x.slot }

/-- The word of an instruction (R58): its codes (R88-R96) and the fields of its class. An event has no word. -/
def encode (i : Instr) : Option Slot :=
  match i with
  | .nop => some 0
  | .join x => some (x.pack 0 1 0)
  | .joinClr x => some (x.pack 0 1 1)
  | .exit x => some (x.pack 0 2)
  | .yield x => some (x.pack 0 3)
  | .vote x => some (x.pack 0 4)
  | .xmrd x => some (x.pack 0 5)
  | .xmwr x => some (x.pack 0 6)
  | .pathq x => some (x.pack 0 7)
  | .regroup x => some (x.pack 0 8)
  | .regroupComplete _ _ => none
  | .bra x => some (x.pack 1 0 0)
  | .brx x => some (x.pack 1 1 0)
  | .call x => some (x.pack 1 2 0)
  | .ret x => some (x.pack 1 3 0)
  | .iadd x => some (x.pack 16 0)
  | .iaddImm x => some (x.pack 16 1)
  | .isub x => some (x.pack 16 2)
  | .isubImm x => some (x.pack 16 3)
  | .iaddc x => some (x.pack 16 4)
  | .iaddcImm x => some (x.pack 16 5)
  | .imin x => some (x.pack 16 6)
  | .iminImm x => some (x.pack 16 7)
  | .imax x => some (x.pack 16 8)
  | .imaxImm x => some (x.pack 16 9)
  | .iabs x => some (x.pack 16 10)
  | .sad x => some (x.pack 16 12)
  | .lea x => some (x.pack 16 14)
  | .leaImm x => some (x.pack 16 15)
  | .iadd64 x => some (x.pack 16 16)
  | .iadd64Imm x => some (x.pack 16 17)
  | .imul x => some (x.pack 17 0)
  | .imulImm x => some (x.pack 17 1)
  | .imulh x => some (x.pack 17 2)
  | .imulhImm x => some (x.pack 17 3)
  | .imad x => some (x.pack 17 4)
  | .imadImm x => some (x.pack 17 5)
  | .imadw x => some (x.pack 17 6)
  | .imadwImm x => some (x.pack 17 7)
  | .shl x => some (x.pack 18 0)
  | .shlImm x => some (x.pack 18 1)
  | .shr x => some (x.pack 18 2)
  | .shrImm x => some (x.pack 18 3)
  | .sar x => some (x.pack 18 4)
  | .sarImm x => some (x.pack 18 5)
  | .rot x => some (x.pack 18 6)
  | .rotImm x => some (x.pack 18 7)
  | .and x => some (x.pack 18 8)
  | .andImm x => some (x.pack 18 9)
  | .or x => some (x.pack 18 10)
  | .orImm x => some (x.pack 18 11)
  | .xor x => some (x.pack 18 12)
  | .xorImm x => some (x.pack 18 13)
  | .lop3 x => some (x.pack 18 14)
  | .lop3Imm x => some (x.pack 18 15)
  | .popc x => some (x.pack 19 0)
  | .clz x => some (x.pack 19 2)
  | .ctz x => some (x.pack 19 4)
  | .brev x => some (x.pack 19 6)
  | .bfx x => some (x.pack 19 8)
  | .bfxImm x => some (x.pack 19 9)
  | .bfi x => some (x.pack 19 10)
  | .bfiImm x => some (x.pack 19 11)
  | .prmt x => some (x.pack 19 12)
  | .prmtImm x => some (x.pack 19 13)
  | .sel x => some (x.pack 20 0)
  | .selImm x => some (x.pack 20 1)
  | .iset x => some (x.pack 20 2)
  | .isetImm x => some (x.pack 20 3)
  | .pset x => some (x.pack 20 4)
  | .pmovTov x => some (x.pack 20 6)
  | .pmovFromv x => some (x.pack 20 6)
  | .mov x => some (x.pack 21 0)
  | .movi x => some (x.pack 21 1)
  | .shfl x => some (x.pack 21 2)
  | .shflImm x => some (x.pack 21 3)
  | .wred x => some (x.pack 21 4)
  | .fadd x => some (x.pack 48 0)
  | .faddImm x => some (x.pack 48 1)
  | .fmul x => some (x.pack 48 2)
  | .fmulImm x => some (x.pack 48 3)
  | .ffma x => some (x.pack 48 4)
  | .ffmaImm x => some (x.pack 48 5)
  | .fmin x => some (x.pack 48 6)
  | .fminImm x => some (x.pack 48 7)
  | .fmax x => some (x.pack 48 8)
  | .fmaxImm x => some (x.pack 48 9)
  | .fset x => some (x.pack 48 10)
  | .fsetImm x => some (x.pack 48 11)
  | .fclass x => some (x.pack 48 12)
  | .frnd x => some (x.pack 48 14)
  | .frcp x => some (x.pack 49 0)
  | .frsq x => some (x.pack 49 2)
  | .fsqrt x => some (x.pack 49 4)
  | .fex2 x => some (x.pack 49 6)
  | .flg2 x => some (x.pack 49 8)
  | .fsin x => some (x.pack 49 10)
  | .fcos x => some (x.pack 49 12)
  | .ftanh x => some (x.pack 49 14)
  | .hadd2 x => some (x.pack 50 0)
  | .hadd2Imm x => some (x.pack 50 1)
  | .hmul2 x => some (x.pack 50 2)
  | .hmul2Imm x => some (x.pack 50 3)
  | .hfma2 x => some (x.pack 50 4)
  | .hfma2Imm x => some (x.pack 50 5)
  | .badd2 x => some (x.pack 50 6)
  | .badd2Imm x => some (x.pack 50 7)
  | .bfma2 x => some (x.pack 50 8)
  | .bfma2Imm x => some (x.pack 50 9)
  | .fdot4 x => some (x.pack 50 10)
  | .dadd x => some (x.pack 51 0)
  | .dmul x => some (x.pack 51 2)
  | .dfma x => some (x.pack 51 4)
  | .cvt x => some (x.pack 52 0)
  | .cpack x => some (x.pack 52 2)
  | .cunpk x => some (x.pack 52 4)
  | .tshape x => some (x.pack 80 0)
  | .tzero x => some (x.pack 80 1)
  | .tld x => some (x.pack 81 0)
  | .tst x => some (x.pack 81 1)
  | .tfeed x => some (x.pack 81 2)
  | .tdrain x => some (x.pack 81 3)
  | .mma x => some (x.pack 82 0)
  | .acvt x => some (x.pack 82 1)
  | .menc x => some (x.pack 82 2)
  | .bobjArm x => some (x.pack 83 0)
  | .bobjWait x => some (x.pack 83 0)
  | .rayq x => some (x.pack 96 0)
  | .rayw x => some (x.pack 96 1)
  | .rayh x => some (x.pack 96 2)
  | .ptch x => some (x.pack 96 3)
  | .sndm x => some (x.pack 97 0)
  | .sndo x => some (x.pack 97 1)
  | .snde x => some (x.pack 97 2)
  | .snda x => some (x.pack 97 3)
  | .draw x => some (x.pack 98 0)
  | .hgf x => some (x.pack 99 0)
  | .ld x => some (x.pack 112 0)
  | .st x => some (x.pack 112 1)
  | .lds x => some (x.pack 113 0)
  | .sts x => some (x.pack 113 1)
  | .ldrm x => some (x.pack 114 0)
  | .strm x => some (x.pack 114 1)
  | .atom x => some (x.pack 115 0)
  | .atoms x => some (x.pack 115 1)
  | .red x => some (x.pack 115 2)
  | .fence x => some (x.pack 116 0)
  | .marm x => some (x.pack 116 1)
  | .mwait x => some (x.pack 116 2)
  | .pref x => some (x.pack 116 3)
  | .texs x => some (x.pack 117 0)
  | .texf x => some (x.pack 117 1)
  | .lnks x => some (x.pack 118 0)
  | .lnkr x => some (x.pack 118 1)
  | .cpy x => some (x.pack 144 0)
  | .cpyq x => some (x.pack 144 1)
  | .cbld x => some (x.pack 145 0)
  | .gthr x => some (x.pack 146 0)
  | .job x => some (x.pack 147 0)
  | .stageHold x => some (x.pack 148 0)
  | .stageRel x => some (x.pack 148 0)
  | .bar x => some (x.pack 160 0)
  | .gbar x => some (x.pack 160 1)
  | .waitc x => some (x.pack 160 2)
  | .rdzv x => some (x.pack 160 3)
  | .sleep x => some (x.pack 160 4)
  | .fork x => some (x.pack 161 0)
  | .lrec x => some (x.pack 161 1)
  | .permitQ x => some (x.pack 161 2)
  | .permitRsv x => some (x.pack 161 2)
  | .permitRel x => some (x.pack 161 2)
  | .qapp x => some (x.pack 162 0)
  | .varpt x => some (x.pack 163 0)
  | .fillc x => some (x.pack 176 0)
  | .fillx x => some (x.pack 176 1)
  | .rkinv x => some (x.pack 177 0)
  | .rkpinPin x => some (x.pack 177 1)
  | .rkpinUnpin x => some (x.pack 177 1)
  | .tstamp x => some (x.pack 184 0)
  | .tstampWake x => some (x.pack 184 0)
  | .trcm x => some (x.pack 185 0)
  | .srd x => some (x.pack 192 0)
  | .swr x => some (x.pack 192 1)
  | .trap x => some (x.pack 193 0)
  | .brk x => some (x.pack 193 1)
  | .eret x => some (x.pack 193 2)
  | .eretSkip x => some (x.pack 193 2)
  | .eretPc x => some (x.pack 193 2)
  | .ctxsv x => some (x.pack 194 0)
  | .ctxld x => some (x.pack 194 1)
  | .tlbiVa x => some (x.pack 195 0)
  | .tlbiAsn x => some (x.pack 195 0)
  | .tlbiAll x => some (x.pack 195 0)
  | .resultVisible _ _ => none
  | .trapEntry _ _ => none
  | .fetchLineFill _ _ _ _ _ => none
  | .gangRetire _ => none
  | .barrierComplete _ _ _ _ => none
  | .rdzvPhaseComplete _ _ => none
  | .waitcComplete _ _ => none
  | .sleepExpire _ _ => none
  | .mwaitWritten _ _ => none
  | .mwaitExpire _ _ => none
  | .linkMessageLand _ => none
  | .permitGrant _ _ => none
  | .jobStart _ => none
  | .jobComplete _ => none
  | .takeRecord => none
  | .placeGang => none
  | .stagingDone _ => none
  | .stagingTimeout _ => none
  | .switchPointReached _ => none
  | .switchWaitTimeout _ => none
  | .fullSaveTimeout _ => none
  | .saveSlotsFree => none
  | .migrationResume _ => none
  | .pathOverdue _ _ => none
  | .requestInject _ => none
  | .walkerMonitorWake _ => none
  | .xlateRewalk _ _ => none
  | .reckonResourceRetry _ _ => none
  | .fillLaunch => none
  | .waitNodeRelease _ _ => none
  | .reckonHeldSave => none
  | .unitEvict _ _ _ => none
  | .watchdog _ => none
  | .thermalStop _ => none
  | .thermalResume _ => none
  | .hwError _ _ _ => none
  | .correctedError _ => none
  | .dieUncorrectable _ _ _ => none
  | .sensorSample _ => none
  | .bankRefresh _ => none
  | .allowanceUpdate => none
  | .rotationPass => none
  | .testerTurn _ _ => none
  | .testerAbort _ => none
  | .overpower _ => none
  | .reset => none
  | .firmwareReload _ _ => none
  | .registerWrite _ _ => none
  | .featacceptWrite _ _ => none
  | .modectlWrite _ => none
  | .ctxCreate _ => none
  | .ctxDestroy _ => none
  | .destroyComplete _ => none
  | .hostTlbiVa _ _ _ => none
  | .hostTlbiAsn _ => none
  | .hostTlbiAll => none
  | .tailDoorbell _ _ => none
  | .queueEnable _ => none
  | .queueDisable _ => none
  | .wakeopen _ _ => none
  | .flip _ => none
  | .frameBoundary _ => none
  | .firstPixel _ => none
  | .trailTimeout _ => none
  | .wtringWrite _ _ => none
  | .wtridxWrite _ => none
  | .measext _ => none
  | .resync _ => none
  | .stoprelRelease _ _ _ => none
  | .stoprelStep _ _ _ => none
  | .stoprelAll _ => none
  | .stoparmWrite _ _ => none
  | .breakpointHold _ _ _ => none
  | .stallclr => none
  | .trctlWrite _ => none
  | .traceLossWrite => none
  | .pctlWrite _ _ => none
  | .frameTransmit _ => none
  | .frameReceive _ _ _ => none
  | .gateConfigChange _ => none
  | .gateCycleStart _ => none
  | .gateIntervalExpire _ => none
  | .portLinkDown _ => none
  | .getVersion _ _ => none
  | .getCapabilities _ _ => none
  | .negotiateAlgorithms _ _ => none
  | .getDigests _ _ => none
  | .getCertificate _ _ => none
  | .challenge _ _ => none
  | .getMeasurements _ _ => none
  | .dpctlEnable _ _ => none
  | .hpdLoss _ => none
  | .auxNativeWrite _ _ => none
  | .auxNativeRead _ _ => none
  | .auxI2cWrite _ _ => none
  | .auxI2cRead _ _ => none
  | .auxI2cWriteMot _ _ => none
  | .auxI2cReadMot _ _ => none
  | .auxReply _ _ _ => none
  | .backInvalidate _ _ => none
  | .illegalEncoding _ => none
  | .portLinkUp _ => none
  | .hpdAssert _ => none
  | .linkTrainingDone _ _ _ _ => none
  | .grandmasterTimeout => none

/-- The instruction the decoder reads from a word of `nbits` bits numbered from the least significant bit of the first
byte (R2, R58): the slot's 96 bits, absent ones zero. -/
def decodeTableWord (nbits w : Nat) : Option Instr :=
  match decode (BitVec.ofNat 96 (w % 2 ^ nbits)) with
  | .ok i => some i
  | .error _ => none

end Sys2Proof
end

