-- ==== Sys2Proof/Machine/Lines.lean ====
section
/-! DEFINITION. Fetch lines and their slots, the bundles and parts a line holds, and what a slot's instruction writes at its issue
(R50-R57, R64, R65, R83, R88-R97). -/

namespace Sys2Proof.Machine

/-! ## The fetch line (R50-R52, R57) -/

/-- Slot k of a line. -/
def slotWord (l : Line) (k : Nat) : Slot := l.extractLsb' (96 * k) 96

def lineTgt (l : Line) (k : Nat) : Bool := l.getLsbD (480 + k)
def lineBrk (l : Line) (k : Nat) : Bool := k == 4 || l.getLsbD (485 + k)

/-- R50: the XOR of the thirty halfwords of the slots. -/
def parityOf (l : Line) : BitVec 16 := (List.range 30).foldl (fun x i => x ^^^ l.extractLsb' (16 * i) 16) 0

def parityOk (l : Line) : Bool := parityOf l == l.extractLsb' 496 16

/-- R57 step 2: BRK nonzero, bits 15:9 zero, and every TGT bit on a slot that begins a bundle. -/
def formOk (l : Line) : Bool :=
  l.extractLsb' 485 4 != 0 && l.extractLsb' 489 7 == 0
    && (List.range 5).all fun k => !lineTgt l k || k == 0 || lineBrk l (k - 1)

/-- The slot index of a PC within its line; none when it is misaligned (R52). -/
def slotIndex (pc : Nat) : Option Nat :=
  let o := pc % 64
  if o % 12 == 0 && o ≤ 48 then some (o / 12) else none

def lineBase (pc : Nat) : Nat := pc / 64 * 64

/-- The slots of the bundle that begins at slot k (R51), and where the next bundle in sequence begins (R52). -/
def bundleFrom (l : Line) : Nat → Nat → List Nat
  | 0, _ => []
  | fuel + 1, k => if lineBrk l k then [k] else k :: bundleFrom l fuel (k + 1)

def slotPc (base k : Nat) : Dword := BitVec.ofNat 64 (base + 12 * k)

/-- The PC that follows slot k in sequence. -/
def nextPc (base k : Nat) : Dword := if k ≥ 4 then BitVec.ofNat 64 (base + 64) else slotPc base (k + 1)

/-- R64: the target of a BR-class word in the slot at `pc`. -/
def brTarget (pc : Dword) (disp : BitVec 29) (slot : BitVec 3) : Dword :=
  BitVec.ofNat 64 (lineBase pc.toNat) + 64 * disp.signExtend 64 + 12 * slot.zeroExtend 64

/-- The instruction that a word stands for; a word that is none is the happening ILLEGAL_ENCODING (R70). -/
def instrOf (w : Slot) : Instr :=
  match decode w with
  | .ok i => i
  | .error _ => .illegalEncoding w

/-- The word of a slot of a bundle, in the line that the bundle was issued from. -/
def Bun.word (b : Bun) (pc : Dword) : Slot := slotWord b.line ((slotIndex pc.toNat).getD 0)

/-! ## Pipes and parts (R14, R54, R83) -/

/-- The pipe that counts toward the bundle mix. -/
inductive Pipe where
  | ab | s | m
  deriving DecidableEq, Repr

/-- R83, R88-R96: the pipe of a word by its codes and type. A word that is no instruction counts for A/B under the codes 0x10, 0x12 to 0x15,
0x30, 0x32, 0x34 and 0x62, for S under 0x31 and 0x33, and else for M. (DESIGN CHOICE, log 119) -/
def pipeOf (w : Slot) : Pipe :=
  match (fieldsOf w).op.toNat with
  | 0x11 => match instrOf w with
    | .imadw _ | .imadwImm _ => .s
    | .imul x | .imulh x | .imad x => if x.ty.int64 then .s else .ab
    | .imulImm x | .imulhImm x | .imadImm x => if x.ty.int64 then .s else .ab
    | _ => .m
  | 0x31 | 0x33 => .s
  | 0x34 => match instrOf w with
    | .cvt x => if x.ty == .f64 || x.srcTy == some .f64 then .s else .ab
    | _ => .ab
  | 0x10 | 0x12 | 0x13 | 0x14 | 0x15 | 0x30 | 0x32 | 0x62 => .ab
  | _ => .m

/-- R54: the parts of a bundle, by their lengths: a part is closed before the slot that would take it past two A/B, one S and
one M instruction. `a`, `s`, `m` count what the part under way holds, `n` its slots. -/
def partLens : List Pipe → Nat → Nat → Nat → List Nat
  | [], a, s, m => if a + s + m == 0 then [] else [a + s + m]
  | .ab :: t, a, s, m => if a == 2 then (a + s + m) :: partLens t 1 0 0 else partLens t (a + 1) s m
  | .s :: t, a, s, m => if s == 1 then (a + s + m) :: partLens t 0 1 0 else partLens t a 1 m
  | .m :: t, a, s, m => if m == 1 then (a + s + m) :: partLens t 0 0 1 else partLens t a s 1

/-- How many slots of the part that holds slot `i` follow it. -/
def partRest : List Nat → Nat → Nat
  | [], _ => 0
  | n :: t, i => if i < n then n - 1 - i else partRest t (i - n)

/-- The slots after `pc` in its part of the bundle; a pilot issues one instruction at a time (R327). -/
def Bun.partAfter (b : Bun) (pilot : Bool) (pc : Dword) : Nat :=
  if pilot then 0 else partRest (partLens (b.slots.map fun q => pipeOf (b.word q)) 0 0 0) (b.slots.findIdx (· == pc))

/-- The slots of the bundle after `pc`. -/
def Bun.after (b : Bun) (pc : Dword) : Nat := (b.slots.filter fun q => decide (pc < q)).length

/-! ## Results at issue (R65) -/

/-- The registers that an instruction writes when it issues, or, for a Blk instruction, when it completes: the first and how many.
Results that wait to become visible stand in the list of what is outstanding. -/
def nowDest : Instr → List (Nat × Nat)
  | .iadd x | .isub x | .imin x | .imax x | .iabs x | .iadd64 x | .shl x | .shr x | .sar x | .rot x | .and x | .or x | .xor x | .brev x | .bfx x | .sel x | .mov x =>
    [(x.d.toNat, x.ty.nregs)]
  | .iaddImm x | .isubImm x | .iminImm x | .imaxImm x | .iadd64Imm x | .shlImm x | .shrImm x | .sarImm x | .rotImm x | .andImm x | .orImm x | .xorImm x
  | .bfxImm x | .selImm x | .movi x => [(x.d.toNat, x.ty.nregs)]
  | .imul x | .imulh x | .imad x => if x.ty.int64 then [] else [(x.d.toNat, 1)]
  | .imulImm x | .imulhImm x | .imadImm x => if x.ty.int64 then [] else [(x.d.toNat, 1)]
  | .cvt x => if x.ty == .f64 || x.srcTy == some .f64 then [] else [(x.d.toNat, x.ty.nregs)]
  | .iaddc x | .sad x | .lop3 x | .popc x | .clz x | .ctz x | .bfi x | .prmt x | .fadd x | .fmul x | .ffma x | .fmin x | .fmax x | .fclass x | .frnd x
  | .hadd2 x | .hmul2 x | .hfma2 x | .badd2 x | .bfma2 x | .fdot4 x | .cpack x | .cunpk x | .shfl x | .wred x | .draw x | .pmovTov x => [(x.d.toNat, 1)]
  | .iaddcImm x | .lop3Imm x | .bfiImm x | .prmtImm x | .faddImm x | .fmulImm x | .ffmaImm x | .fminImm x | .fmaxImm x | .hadd2Imm x | .hmul2Imm x
  | .hfma2Imm x | .badd2Imm x | .bfma2Imm x | .shflImm x => [(x.d.toNat, 1)]
  | .lea x => [(x.d.toNat, 2)]
  | .leaImm x => [(x.d.toNat, 2)]
  | .vote x => if x.opx.toNat ≥ 3 then [(x.d.toNat, 1)] else []
  | .call x => [(x.d.toNat, 2)]
  | .srd x => [(x.d.toNat, if x.imm.getLsbD 12 then 2 else 1)]
  | .xmrd x | .pathq x | .ctxsv x | .ctxld x | .varpt x => [(x.d.toNat, 1)]
  | .mwait x => [(x.d.toNat, 1)]
  | .cpy x | .cpyq x | .gthr x | .cbld x | .job x => if x.ctl.cnt == 0 then [] else [(x.d.toNat, 2)]
  | _ => []

/-- The predicates that an instruction writes at its issue (R55). -/
def nowPreds : Instr → List Nat
  | .iset x | .fset x | .pset x => [x.d.toNat]
  | .isetImm x | .fsetImm x => [x.d.toNat]
  | .iaddc x => [x.c.toNat]
  | .iaddcImm x => [x.c.toNat]
  | .vote x => if x.opx.toNat ≥ 3 then [] else [x.d.toNat]
  | .pmovFromv _ => List.range 16
  | _ => []

/-- The name of a predicate among the registers of a bundle's claims: they stand above the vector registers. -/
def predReg (p : Nat) : Nat := 256 + p

end Sys2Proof.Machine
end

