-- ==== Sys2Proof/Machine/Ops.lean ====
section
/-! DEFINITION. The shared operations of every instruction: registers, the trace, leaving lanes and merging paths, taking an
exception and returning from one, the end of a slot and of a bundle, and the frame of an instruction's issue. -/

namespace Sys2Proof.Machine

/-! ## Registers (R36, R39) -/

def Regs.get (r : Regs) (reg lane : Nat) : Word := mget 0 r.v (32 * reg + lane)
def Regs.set (r : Regs) (reg lane : Nat) (x : Word) : Regs := { r with v := mset 0 r.v (32 * reg + lane) x }
def Regs.pred (r : Regs) (k lane : Nat) : Bool := (mget 0 r.p lane).getLsbD k
def Regs.setPred (r : Regs) (k lane : Nat) (b : Bool) : Regs :=
  let old := mget 0 r.p lane
  let bit := (1 : BitVec 16) <<< k
  { r with p := mset 0 r.p lane (if b then old ||| bit else old &&& ~~~bit) }

/-- A 64-bit operand: the even register is bits 31:0 (R36). -/
def Regs.get64 (r : Regs) (reg lane : Nat) : Dword := r.get (reg + 1) lane ++ r.get reg lane

/-- A register written in the lanes of a list. -/
def Regs.setLanes (r : Regs) (reg : Nat) (f : Nat → Word) (ls : List Nat) : Regs := ls.foldl (fun r l => r.set reg l (f l)) r
def Regs.setPreds (r : Regs) (k : Nat) (f : Nat → Bool) (ls : List Nat) : Regs := ls.foldl (fun r l => r.setPred k l (f l)) r

def State.mapRegs (s : State) (n : Nat) (f : Regs → Regs) : State := s.updAgent n fun x => { x with regs := f x.regs }

def State.updPath (s : State) (n p : Nat) (f : Path → Path) : State :=
  s.updAgent n fun x => { x with paths := x.paths.mapIdx fun i q => if i == p then f q else q }

def State.path? (s : State) (n p : Nat) : Option Path := (s.agent? n).bind fun x => x.paths[p]?

/-- R59: whether a guard holds in a lane. -/
def guardHolds (r : Regs) (g : Guard) (lane : Nat) : Bool :=
  match g with
  | .always => true
  | .pos k => r.pred k.toNat lane
  | .neg k => !r.pred k.toNat lane

/-- The lanes of a mask in which a guard holds. -/
def guarded (r : Regs) (g : Guard) (m : Word) : Word := maskOf ((lanesOf m).filter (guardHolds r g))

/-! ## Device events and interrupts (R450) -/

/-- R450: an event appended to the last 256, counted, and signalled on vector 0. -/
def addEvent (s : State) (e : Event) : State :=
  signal { s with events := (s.events ++ [{ e with time := s.tick / 16 }]).drop (s.events.length - 255), regs := { s.regs with evtcount := s.regs.evtcount + 1 } } 0

/-! ## Trace (R464-R469) -/

/-- R464: whether a wave's packets are written. -/
def traced (s : State) (x : Agent) : Bool :=
  let c := s.regs.trctl.toNat
  bitOf c 0 && (match s.gang? x.gang with
    | some g => g.ctx == bitsOf c 15 8 && (bitsOf c 63 32 == 0 || g.key.launch == bitsOf c 63 32)
    | none => false)

/-- A write of the trace unit as monitors see it: what passes the ring's end lies at its start (R267, R468). -/
def noteRing (s : State) (n : Nat) : State :=
  let size := 2 ^ s.regs.trlog
  let off := s.regs.trwidx % size
  let s' := noteWrite s .loc (s.regs.trbase + off) (min n (size - off))
  if n ≤ size - off then s' else noteWrite s' .loc s.regs.trbase (n - (size - off))

/-- Bytes written to the trace ring (R468): outside every order and every context. -/
def ringWrite (s : State) (bs : List Byte) : State :=
  let size := 2 ^ s.regs.trlog
  let cells := (bs.foldl (fun (c, i) b => (mset 0 c (s.regs.trbase + i % size) b, i + 1)) (s.loc, s.regs.trwidx)).1
  { noteRing s bs.length with loc := cells, regs := { s.regs with trwidx := s.regs.trwidx + bs.length } }

def room (s : State) (n : Nat) : Bool := s.regs.trwidx + n ≤ s.regs.trridx + 2 ^ s.regs.trlog

/-- The LOSS packet that stands before the next packet where losses are pending (R469). -/
def lossBytes (s : State) : List Byte := if s.regs.trpending == 0 then [] else leBytes 8 (0xE * 2 ^ 60 + min s.regs.trpending (2 ^ 32 - 1))

/-- Whether a packet finds room, with the LOSS before it. -/
def fits (s : State) (bs : List Byte) : Bool := room s ((lossBytes s).length + bs.length)

/-- One packet into the ring, behind a LOSS packet where losses are pending (R469); false when it was dropped. -/
def emit (s : State) (bs : List Byte) : Bool × State :=
  if fits s bs then (true, ringWrite { s with regs := { s.regs with trpending := 0 } } (lossBytes s ++ bs))
  else (false, { s with regs := { s.regs with trlost := s.regs.trlost + 1, trpending := s.regs.trpending + 1 } })

/-- R465: a packet's header. -/
def packetHead (type path wave delta payload : Nat) : List Byte :=
  leBytes 8 (type * 2 ^ 60 + path * 2 ^ 57 + wave % 8192 * 2 ^ 44 + delta % 4096 * 2 ^ 32 + payload % 2 ^ 32)

/-- R465: an extension word that carries a PC. -/
def extPc (pc : Dword) (aux : Nat) : List Byte := leBytes 8 (pc.toNat % 2 ^ 57 + aux * 2 ^ 61)

def stateCode (p : Path) : Nat :=
  if p.trapHeld then 2 else match p.st with
  | .free => 0 | .eligible => 0 | .join => 1 | .stopped => 2 | .parked => 3

/-- R466: the entries of a SYNC packet. -/
def syncEntries (ps : List Path) : List Byte :=
  (ps.mapIdx fun i p => if p.st == .free then [] else
    leBytes 8 p.pc.toNat ++ leBytes 8 (match p.jpc with | some j => j.toNat | none => 2 ^ 64 - 1) ++ leBytes 4 p.xmask.toNat
      ++ [BitVec.ofNat 8 i, BitVec.ofNat 8 (stateCode p), 0, 0]).flatten

/-- A packet of a wave, its drop remembered (R469): a SYNC then comes before the wave's next packet. -/
def packet (s : State) (x : Agent) (bs : List Byte) (isSync : Bool) : State :=
  let (ok, s) := emit s bs
  s.updAgent x.num fun y =>
    if ok then { y with trLast := s.clk, trSync := if isSync then s.clk else y.trSync, trOwed := if isSync then false else y.trOwed, trDrop := if isSync then false else y.trDrop }
    else { y with trDrop := true, trOwed := if isSync then false else y.trOwed }

/-- R465, R466: a SYNC packet over a path table. -/
def syncBytes (s : State) (x : Agent) (path : Nat) (ps : List Path) : List Byte :=
  packetHead 1 path x.num 0 ((ps.filter fun p => p.st != .free).length) ++ leBytes 8 s.clk ++ syncEntries ps

/-- R467: a SYNC of a wave over a path table. -/
def traceSync (s : State) (n : Nat) (path : Nat) (ps : List Path) : State :=
  match s.agent? n with
  | some x => if traced s x && !x.pilot then packet s x (syncBytes s x path ps) true else s
  | none => s

/-- The path table a SYNC of this moment reflects (R467): before the issue, where an instruction issues. -/
def syncTable (s : State) (x : Agent) : List Path :=
  match s.cur with
  | some c => if c.agent == x.num && !c.tbl.isEmpty then c.tbl else x.paths
  | none => x.paths

/-- A packet dropped unseen: counted once, whether or not a SYNC was due before it (R469). -/
def dropPacket (s : State) (n : Nat) : State :=
  { s with regs := { s.regs with trlost := s.regs.trlost + 1, trpending := s.regs.trpending + 1 } }.updAgent n fun y => { y with trDrop := true }

/-- R466, R467: a packet of a wave, behind the SYNC that is due before it, over the path table given. Where that SYNC finds no room the
packet is dropped (R469). Of a wave that lost a packet, a SYNC stands in place of a MERGE. -/
def traceFrom (s : State) (n type path : Nat) (payload : Word) (ext : List Byte) (tbl : List Path) : State :=
  match s.agent? n with
  | none => s
  | some x =>
    if !traced s x || x.pilot then s
    else if x.trDrop && type == 4 then traceSync s n path x.paths
    else
      let due := x.trOwed || x.trDrop || s.clk ≥ x.trSync + 4096
      if due && !fits s (syncBytes s x path tbl) then dropPacket s n
      else
        let s := if due then traceSync s n path tbl else s
        match s.agent? n with
        | some x => packet s x (packetHead type path x.num (s.clk - x.trLast) payload.toNat ++ ext) false
        | none => s

/-- A packet of a wave, behind a SYNC of the path table before the issue where one is due (R467). -/
def trace (s : State) (n type path : Nat) (payload : Word) (ext : List Byte) : State :=
  traceFrom s n type path payload ext (((s.agent? n).map (syncTable s)).getD [])

/-! ## Paths (R99, R100) -/

/-! ## What is outstanding on a path (R65-R69) -/

/-- R66: the windows of several entries' lanes when these come together in one: the shortest holds. -/
def joinWins (ws : List (Nat × Nat)) (from_ : List Nat) (dst : Nat) : List (Nat × Nat) :=
  match ws.filter fun w => from_.contains w.1 || w.1 == dst with
  | [] => ws
  | w :: t => (dst, t.foldl (fun m x => min m x.2) w.2) :: ws.filter fun w => !(from_.contains w.1 || w.1 == dst)

/-- Entries' lanes come together in one: their windows, and the traps of their results, follow them. (DESIGN CHOICE, log 120) -/
def joinPends (s : State) (n : Nat) (from_ : List Nat) (dst : Nat) : State :=
  { s with pend := s.pend.map fun (q : Pend) => if q.agent == n then { q with path := if from_.contains q.path then dst else q.path, wins := joinWins q.wins from_ dst } else q }

/-- R66: lanes of a path go on in another entry, in the windows that are open on it. -/
def splitPends (s : State) (n from_ dst : Nat) : State :=
  { s with pend := s.pend.map fun (q : Pend) => if q.agent == n then { q with wins := joinWins (q.wins ++ (q.wins.filter fun w => w.1 == from_).map fun w => (dst, w.2)) [] dst } else q }

/-- An entry is freed: no window of it holds anything back, and no trap of its results is taken (R173). -/
def freeEntry (s : State) (n p : Nat) : State :=
  { s.updPath n p fun _ => {} with
    pend := s.pend.map fun (q : Pend) => if q.agent == n then { q with path := if q.path == p then 255 else q.path, wins := q.wins.filter fun w => w.1 != p } else q }

/-- R69: something later writes registers; a result that will write them has been overwritten there. (DESIGN CHOICE, log 12) -/
def overwrite (s : State) (n before : Nat) (keys : List Nat) : State :=
  { s with pend := s.pend.map fun (q : Pend) => if q.agent == n && decide (q.id < before) then { q with covered := q.covered ++ q.dest.filter fun k => keys.contains k && !q.covered.contains k } else q }

/-- The keys of a register in some lanes. -/
def laneKeys (reg : Nat) (m : Word) : List Nat := (lanesOf m).map (32 * reg + ·)

/-- Completion traps of several entries in the order in which their instructions completed (R430); of one clock, in entry order. (DESIGN CHOICE, log 120) -/
def orderDue (l : List FaultRec) : List FaultRec :=
  l.foldl (fun acc f => (acc.takeWhile fun g => g.clk ≤ f.clk) ++ f :: acc.dropWhile fun g => g.clk ≤ f.clk) []

/-- The entry that a merge leaves (R100): the union of the masks, eligible at X, with no join PC. What its entries held beside that goes on: the
completion traps that are due, the bundle that a handler has set aside (R438), poison still to be delivered, and a release. (DESIGN CHOICE, log 120) -/
def mergedPath (pc : Dword) (ps : List Path) : Path :=
  { pc := pc, xmask := ps.foldl (fun m p => m ||| p.xmask) 0, st := .eligible, due := orderDue (ps.flatMap (·.due)), saved := ps.findSome? (·.saved),
    abort := ps.flatMap (·.abort), stepping := ps.findSome? (·.stepping), released := ps.any (·.released), relAfter := ps.any (·.relAfter) }

/-- The merge of the entries that wait at one join PC (R100): into the lowest-indexed, the others freed. Entries that a
trap entry holds do not merge. (DESIGN CHOICE, log 120) -/
def mergeAt (s : State) (n : Nat) (x : Agent) (pc : Dword) : State :=
  let mine (p : Path) : Bool := p.st != .free && p.jpc == some pc
  if x.paths.all fun p => !mine p || (p.st == .join && !p.trapHeld) then
    let idxs := (List.range x.paths.length).filter fun i => (x.paths[i]?.map mine).getD false
    match idxs with
    | [] => s
    | i :: _ =>
      let one := mergedPath pc (x.paths.filter mine)
      let t := s.updAgent n fun y => { y with paths := y.paths.mapIdx fun k p => if k == i then one else if mine p then {} else p, inTrap := y.inTrap.map fun h => (if idxs.contains h.1 then i else h.1, h.2) }
      traceFrom (joinPends t n idxs i) n 4 i one.xmask [] (syncTable s x)
  else s

/-! ## Stops (R471) -/

/-- R471: a path held by a stop, with its STOPTAB entry; nothing where all 64 entries are valid. -/
def holdPath (s : State) (n p cause : Nat) : State :=
  match s.agent? n, s.path? n p, (List.range 64).find? fun k => !s.stops.any fun t => t.slot == k with
  | some x, some q, some slot =>
    let ctx := (s.ctxOf x.gang).id
    let s := s.updPath n p fun q => { q with st := .stopped, stepping := none }
    let s := s.updGang x.gang fun y => { y with stopSince := y.stopSince.or (some s.tick) }
    let s := { s with stops := s.stops ++ [{ slot := slot, pc := q.pc, agent := n, path := p, ctx := ctx, cause := cause, xmask := q.xmask }] }
    trace s n 8 p q.xmask (extPc q.pc 0)
  | _, _, _ => s

/-- R471: the enabled breakpoint a path's next bundle matches, where stops are armed for its context. -/
def stopsArmed (s : State) (ctx : Nat) : Bool := (mget 0 s.regs.stoparm (ctx / 64)).getLsbD (ctx % 64)

def breakAt (s : State) (ctx : Nat) (pc : Dword) : Option Nat :=
  if !stopsArmed s ctx then none
  else (List.range 8).find? fun k =>
    let hi := (mget 0 s.regs.bkpt (2 * k + 1)).toNat
    bitOf hi 8 && hi % 256 == ctx && mget 0 s.regs.bkpt (2 * k) == pc

/-- A breakpoint holds a path; with WAVE its siblings are held before their next issue (R471). -/
def breakHold (s : State) (n p k : Nat) : State :=
  let wave := bitOf (mget 0 s.regs.bkpt (2 * k + 1)).toNat 9
  let s := holdPath s n p k
  if wave then s.updAgent n fun x => { x with paths := x.paths.mapIdx fun i q => if i == p || q.st == .free || q.st == .stopped then q else { q with stepping := some k, released := false } }
  else s

/-- Whether a path that comes to wait at a join goes on waiting for an entry of its group that is held there, or was released there: the
group is held once (R484). (DEDUCED, log 137) -/
def groupHeld (ps : List Path) (i : Nat) (pc : Dword) : Bool :=
  ((List.range ps.length).zip ps).any fun (j, z) => j != i && z.jpc == some pc && z.pc == pc && (z.st == .stopped || z.st == .join && z.released)

/-- R471, R484: the path of a group that first comes to wait at its join, where a breakpoint matches the bundle there, is held instead. It
goes on waiting when the stop is released, and the merged path does not match again. (DEDUCED, log 137) -/
def stopArrivals (s : State) (n : Nat) : State :=
  match s.agent? n with
  | none => s
  | some x => (List.range x.paths.length).foldl (fun s i => match s.path? n i with
    | some q =>
      if q.st == .join && !q.trapHeld && !q.released && s.stops.length < 64 && !groupHeld (((s.agent? n).map (·.paths)).getD []) i q.pc then
        match breakAt s (s.ctxOf x.gang).id q.pc with
        | some k => breakHold s n i k
        | none => s
      else s
    | none => s) s

/-- The merge test of R100 over every join PC of the wave. (DEDUCED, log 137) -/
def mergeTest (s : State) (n : Nat) : State :=
  let s := stopArrivals s n
  match s.agent? n with
  | none => s
  | some x =>
    let pcs := (x.paths.filterMap fun p => if p.st == .join then p.jpc else none).eraseDups
    pcs.foldl (fun s pc => match s.agent? n with
      | some y => mergeAt s n y pc
      | none => s) s

/-- R473: the device time during which a gang has been held is not counted by the watchdog. -/
def endHeld (s : State) (g : GangKey) : State :=
  match (s.gang? g).bind (·.stopSince) with
  | none => s
  | some t =>
    if s.stops.any fun e => ((s.agent? e.agent).map fun x => x.gang == g).getD false then s
    else
      let s := s.updGang g fun y => { y with stopSince := none }
      { s with agents := updWhere (fun x => x.gang == g && !x.ended) (fun x => { x with lastIssue := x.lastIssue + (s.tick - max t x.lastIssue) }) s.agents }

/-- R465, R484: a MERGE that a release brings about counts its DELTA from the wave's packet before the release's GO, so that it counts the
clocks of the hold; not where a SYNC stands before the GO. (DEDUCED, log 143) -/
def mergeAfterGo (s : State) (n : Nat) (before : Agent) : State :=
  match s.agent? n with
  | none => s
  | some x =>
    if x.trSync != before.trSync then mergeTest s n
    else
      let t := mergeTest (s.updAgent n fun y => { y with trLast := before.trLast }) n
      t.updAgent n fun y => { y with trLast := max y.trLast x.trLast }

/-- R472: a held path released, for one bundle where it is a step; one that stands at its join PC waits there (R484). (DEDUCED, log 137) (DEDUCED, log 143) -/
def releaseStop (s : State) (t : Stop) (step : Bool) : State :=
  let s := { s with stops := s.stops.filter fun e => e.slot != t.slot }
  match s.agent? t.agent with
  | none => s
  | some x =>
    let s := s.updPath t.agent t.path fun q => if q.st == .stopped then { q with st := if q.jpc == some q.pc then .join else .eligible, released := true, stepping := if step then some t.cause else none } else q
    endHeld (mergeAfterGo (trace s t.agent 9 t.path t.xmask (extPc t.pc 0)) t.agent x) x.gang

def stopNamed (s : State) (ctx agent path : Nat) : Option Stop := s.stops.find? fun t => t.ctx == ctx && t.agent == agent && t.path == path

/-- Every held path of a context released. -/
def releaseCtx (s : State) (ctx : Nat) : State := (s.stops.filter fun t => t.ctx == ctx).foldl (fun s t => releaseStop s t false) s

/-! ## The end of waves and blocks (R29, R105, R258, R435) -/

/-- A fault array with a wave's mask ORed in (R258). -/
def orFault (l : List Nat) (i : Nat) (m : Word) : List Nat :=
  (List.range 16).map fun k => if k == i then l.getD k 0 ||| m.toNat else l.getD k 0

/-- The wave or pilot program is over: its FAULTMASK goes to the fault array, its exit code to the block, its relaxed
stores to their homes, its nodes, monitor and reservations away; the block ends with its last wave (R29, R258, R372). Its matrix jobs
keep their order among themselves (R166) under a number that no other program has. -/
def finalEnd (s : State) (n : Nat) : State :=
  match s.agent? n with
  | none => s
  | some x =>
    let s := (drainAgent s n).updGang x.gang fun y => { y with clock := max y.clock (max x.clock x.relTs) }
    let s := dropWaiter s fun w => match w with | .path a _ | .op a _ => a == n | .job _ => false
    let s := s.updAgent n fun x => { x with ended := true, paths := [] }
    let others := s.agents.filter fun y => y.gang == x.gang && y.role == x.role && !y.pilot && !y.ended
    let last := !x.pilot && others.isEmpty
    let s := s.updBlock x.gang x.role fun b =>
      let b := { b with exitStatus := if b.exitStatus == 0 then x.exitCode else b.exitStatus }
      let b := if x.pilot then b else { b with faults := orFault b.faults x.idx x.regs.fmask }
      if last then { b with ended := true, endedAt := s.tick } else b
    let s := { s with blocks := updWhere (fun b => b.gang == x.gang) (fun b => { b with rsv := b.rsv.filter fun r => r.1 != n }) s.blocks }
    let s := endHeld { s with stops := s.stops.filter fun t => t.agent != n, agents := s.agents.filter fun y => !(y.ended && y.num == n) } x.gang
    let gone := 0x200000 + s.nextId
    let rename (m : Nat) : Nat := if m == n then gone else m
    let s := { s with nextId := s.nextId + 1, blocks := s.blocks.map fun (b : Block) => { b with engq := b.engq.map fun (o : EngOp) => { o with agent := rename o.agent } } }
    let s := { s with pend := s.pend.filter (fun p => p.agent != n),
                      jobs := s.jobs.map (fun (j : Job) => { j with agents := if j.kind == 3 then j.agents.map rename else j.agents.filter (· != n) }),
                      colls := s.colls.map (fun c => { c with waves := c.waves.filter (· != n), last := c.last.filter (· != n) }),
                      releases := s.releases.map (renameRel fun m => if m == n then 0x20000 else m) }
    let s := submitReady s
    if last && x.fill then
      match s.fillOfGang x.gang with
      | some f => fillEnd s f.id
      | none => s
    else s

/-- When no lane remains and nothing is outstanding the wave ends (R105 step 4). -/
def endIfIdle (s : State) (n : Nat) : State :=
  match s.agent? n with
  | some x => if x.ending && !s.pend.any (fun p => p.agent == n) then finalEnd s n else s
  | none => s

/-- R105: a wave whose path table is empty is ending. -/
def checkEmpty (s : State) (n : Nat) : State :=
  match s.agent? n with
  | some x => if x.paths.all (fun p => p.st == .free) then endIfIdle (s.updAgent n fun y => { y with ending := true }) n else s
  | none => s

/-- All lanes leave at once, with an exit code (R432, R434, R439): results still outstanding are discarded. -/
def endAgent (s : State) (n code : Nat) : State :=
  match s.agent? n with
  | none => s
  | some x =>
    let s := (x.paths.mapIdx fun i p => (i, p)).foldl (fun s (i, p) => if p.st == .free then s else trace s n 5 i p.xmask []) s
    let unheld (h : Hold) : Hold := match h with | .link .. | .permit .. | .stage .. | .coll .. => .none | h => h
    let discard (q : Pend) : Pend := if q.agent == n then { q with writes := [], arith := 0, mem := 0, traps := [], hold := unheld q.hold } else q
    let s := { s with pend := s.pend.map discard }
    let s := s.updAgent n fun y => { y with paths := y.paths.map fun _ => {}, exitCode := if y.exitCode == 0 then code else y.exitCode }
    checkEmpty s n

/-! ## Taking an exception (R431-R434, R439) -/

/-- One plain access of the trap entry or return: 8 bytes read with the rights of supervisor mode. Of a reckoned line that is absent
though the path has waited for it (R354), the read fails. (DEDUCED, log 139) -/
def supLoad (s : State) (x : Agent) (va : Nat) : Option (Nat × State) :=
  let c := s.ctxOf x.gang
  if va % 8 != 0 then none
  else match tr s c true .read va with
    | .ok sp a l => if l.rk && !s.resident c.asn (va / 128) then none else
      let (r, s) := loadPlain (touch s c va) x.num sp a 8
      some (leNat r.bytes, s)
    | _ => none

/-- 16 bytes written with the rights of supervisor mode. -/
def supStore (s : State) (x : Agent) (va : Nat) (bs : List Byte) : Option State :=
  let c := s.ctxOf x.gang
  if va % 16 != 0 then none
  else match tr s c true .write va with
    | .ok sp a _ => some (storeOrd (touch s c va) x.num sp a bs 0 0 0)
    | _ => none

/-- Bytes stored in units of 16, or none where one faults. -/
def supStores (s : State) (x : Agent) (va : Nat) (bs : List Byte) : Option State :=
  (List.range ((bs.length + 15) / 16)).foldl (fun acc i => match acc with
    | some s => supStore s x (va + 16 * i) ((bs.drop (16 * i)).take 16)
    | none => none) (some s)

/-- The address of a wave's frame (R431): its WAVEID selects it. -/
def frameAddr (frames wave : Nat) : Nat := (frames + 1024 * wave) % 2 ^ 64

/-- R433: the 704 bytes of a frame. -/
def frameBytes (x : Agent) (path : Nat) (p : Path) (f : FaultRec) (rpc : Dword) : List Byte :=
  [BitVec.ofNat 8 f.code, BitVec.ofNat 8 f.kind, BitVec.ofNat 8 path, 0] ++ leBytes 4 f.mask.toNat ++ leBytes 8 f.pc.toNat
    ++ leBytes 8 rpc.toNat ++ leBytes 8 f.info.toNat ++ leBytes 4 p.xmask.toNat ++ leBytes 4 x.regs.trapen.toNat
    ++ leBytes 8 (match p.jpc with | some j => j.toNat | none => 2 ^ 64 - 1) ++ List.replicate 80 0
    ++ (List.range 4).flatMap (fun r => (List.range 32).flatMap fun l => leBytes 4 (x.regs.get r l).toNat)
    ++ (List.range 32).flatMap (fun l => leBytes 2 (mget 0 x.regs.p l).toNat)

/-- R49, R228: TRAPVEC read at its home as a plain load of the wave. -/
def readTrapvec (s : State) (x : Agent) : Dword × State :=
  let c := s.ctxOf x.gang
  let h := c.trapvecTs
  let rts := max h.rts (max (x.clock + s.lease) (h.wts + s.lease))
  let s := { s.updCtx c.id fun y => { y with trapvecTs := { h with rts := rts } } with leases := s.leases + 1 }
  (c.trapvec, s.updAgent x.num fun y => { y with clock := max y.clock (h.wts + 1) })

/-- R432 steps 3 to 5 on the agent's data. -/
def handlerRegs (x : Agent) (path : Nat) (p : Path) (f : FaultRec) (frame : Nat) : Regs :=
  let ls := lanesOf p.xmask
  let r := x.regs
  let r := r.setLanes 0 (fun _ => BitVec.ofNat 32 frame) ls
  let r := r.setLanes 1 (fun _ => BitVec.ofNat 32 (frame / 2 ^ 32)) ls
  let r := r.setLanes 2 (fun _ => BitVec.ofNat 32 (f.code + 256 * f.kind + 65536 * path)) ls
  let r := r.setLanes 3 (fun _ => f.mask) ls
  { r with trapen := 0 }

/-- Whether a result is of a TLD or TST that the engine has not performed. (DEDUCED, log 25) -/
def tilePending (s : State) (q : Pend) : Bool :=
  match q.hold with
  | .engine id => s.blocks.any fun b => b.engq.any fun o => o.id == id && (match o.instr with | .tld _ | .tst _ => true | _ => false)
  | _ => false

/-- R226, R241, R432: a trap entry's accesses come after the rows of a TLD or TST of the wave that the engine has still to move, and a frame
that lies over what a job of the context has still to read or write waits for it. (DEDUCED, log 25) -/
def trapWaits (s : State) (n : Nat) : Bool :=
  match s.agent? n with
  | some x =>
    let c := s.ctxOf x.gang
    !x.pilot && !x.sup && c.trapvec != 0
      && ((s.pend.any fun q => q.agent == n && tilePending s q) || ((supLoad s x (c.trapvec.toNat + 8)).map fun r => jobEdge s c.id (frameAddr r.1 x.num) 704).getD false)
  | none => false

/-- R432: the path enters the handler: its siblings are held, the frame is written, supervisor mode is entered. Where no
handler can be entered the wave ends with the fault's code; so it does for a fault raised in supervisor mode (R434), and
a pilot program ends (R439). (DEDUCED, log 139) -/
def takeTrap (s : State) (n p : Nat) (f : FaultRec) (rpc : Dword) : State :=
  match s.agent? n, s.path? n p with
  | some x, some q =>
    if x.pilot || x.sup then endAgent s n f.code
    else
      let (vec, s) := readTrapvec s x
      let go : Option State :=
        if vec == 0 then none
        else do
          let (hpc, s) ← supLoad s x vec.toNat
          let (frames, s) ← supLoad s x (vec.toNat + 8)
          let frame := frameAddr frames x.num
          let s ← supStores s x frame (frameBytes x p q f rpc)
          let enter (i : Nat) (y : Path) : Path :=
            if i == p then { y with pc := BitVec.ofNat 64 hpc, jpc := none, st := .eligible, park := none, wait := none, bun := none, saved := y.bun, entry := .handler f.code,
                                    released := false, relAfter := y.released && y.bun.isNone }
            else if y.st == .free then y else { y with trapHeld := true }
          some ((overwrite s n s.nextId ((List.range 4).flatMap fun r => laneKeys r q.xmask)).updAgent n fun y => { y with regs := handlerRegs y p q f frame, sup := true, frame := BitVec.ofNat 64 frame, inTrap := some (p, f), trOwed := true, paths := y.paths.mapIdx enter })
      match go with
      | some s => s
      | none => endAgent s n f.code
  | _, _ => s

/-- Whether a completion trap is taken as its wave stands (R430, R434): in a handler only one of the handler's own instructions, which
ends the wave; else any. (DEDUCED, log 142) -/
def FaultRec.takes (f : FaultRec) (x : Agent) : Bool := f.sup || !x.sup

/-- The completion trap that comes before a path's next issue: between two bundles the first that is due, and within one that of an
instruction on which the next slot was waiting (R173, R430). (DEDUCED, log 142) -/
def Path.dueNow (q : Path) (x : Agent) : Option FaultRec :=
  match q.bun with
  | none => q.due.find? fun f => f.takes x
  | some b => if b.rest.isEmpty then none else q.due.find? fun f => f.mid && f.takes x

/-- The PC that a path issues from next, between two bundles or before the next slot of one. -/
def Path.nextIssue (q : Path) : Dword :=
  match q.bun with
  | none => q.pc
  | some b => b.rest.headD b.next

/-- The completion trap that comes before a path's next issue is taken (R173, R430). One raised before a handler was entered
waits for ERET. (DEDUCED, log 142) -/
def takeDue (s : State) (n p : Nat) : State :=
  match s.agent? n, s.path? n p with
  | some x, some q =>
    match q.dueNow x with
    | some f =>
      if q.st == .eligible && !q.trapHeld && q.wait.isNone && !trapWaits s n then
        takeTrap (s.updPath n p fun y => { y with due := y.due.erase f }) n p f q.nextIssue
      else s
    | none => s
  | _, _ => s

/-! ## Bundles (R54-R56, R101, R102) -/

/-- The lanes of a mask grouped by their next PC, ascending. -/
def groupPcs (nexts : List (Nat × Dword)) (seq : Dword) (m : Word) : List (Dword × Word) :=
  let lanes := lanesOf m
  let pcOf (l : Nat) : Dword := mget seq nexts l
  let pcs := lanes.foldl (fun acc l => if acc.contains (pcOf l) then acc else acc ++ [pcOf l]) []
  let ins (x : Dword) (l : List Dword) : List Dword := (l.takeWhile fun y => y.toNat < x.toNat) ++ x :: l.dropWhile fun y => y.toNat < x.toNat
  (pcs.foldl (fun acc x => ins x acc) []).map fun pc => (pc, maskOf (lanes.filter fun l => pcOf l == pc))

/-- R102: which group the issuing entry keeps, which groups take free entries, and the lanes left over. -/
structure Split where
  keep : Option (Dword × Word)
  moved : List (Dword × Word)
  left : Word
  deriving DecidableEq, Repr

/-- (DEDUCED, log 122) -/
def splitOf (groups : List (Dword × Word)) (seq : Dword) (free : Nat) : Split :=
  let keep := match groups.find? fun g => g.1 == seq with
    | some g => some g
    | none => groups.head?
  let others := groups.filter fun g => some g != keep
  if others.length ≤ free then { keep := keep, moved := others, left := 0 }
  else
    let moved := others.take free
    { keep := none, moved := moved, left := (groups.filter fun g => !moved.contains g).foldl (fun m g => m ||| g.2) 0 }

/-- The lowest free entries of a path table, in order. -/
def freeEntries (ps : List Path) : List Nat := (List.range ps.length).filter fun i => (ps[i]?.map fun p => p.st == .free).getD false

/-- A path that stands at a PC: waiting at its join when that is its join PC (R99). -/
def arriveAt (p : Path) (pc : Dword) : Path :=
  { p with pc := pc, st := if p.jpc == some pc then .join else .eligible, bun := none }

/-- Registers and predicates of some lanes as they were when the bundle issued (R102 overflow). -/
def restoreLanes (r old : Regs) (m : Word) (nregs : Nat) : Regs :=
  let ls := lanesOf m
  let r := (List.range nregs).foldl (fun r reg => r.setLanes reg (fun l => old.get reg l) ls) r
  { r with p := ls.foldl (fun p l => mset 0 p l (mget 0 old.p l)) r.p }

/-- ERET acts on the path once its bundle is over (R438): the frame's registers come back, user mode and the held
siblings too, and the path goes on as its mode says. A trap taken before a later slot of a bundle (R173) goes back to that slot, the rest of its
bundle with it. (DEDUCED, log 142) -/
def trapReturn (s : State) (n p mode : Nat) : State :=
  match s.agent? n, s.path? n p with
  | some x, some q =>
    let frame := x.frame.toNat
    let words : Option (List Nat × State) := (List.range 88).foldl (fun acc i => match acc with
      | some (l, s) => (supLoad s x (frame + 8 * i)).map fun (w, s) => (l ++ [w], s)
      | none => none) (some ([], s))
    match words with
    | none =>
      match tr s (s.ctxOf x.gang) true .read frame with
      | .miss _ => endAgent s n 0x10
      | _ => endAgent s n 0x11
    | some (ws, s) =>
      let b := ws.flatMap (leBytes 8)
      if leField b 32 4 != q.xmask.toNat then endAgent s n 0x04
      else
        let kind := leField b 1 1
        let rpc := BitVec.ofNat 64 (leField b 16 8)
        let jpc := leField b 40 8
        let ls := lanesOf q.xmask
        let r := x.regs
        let r := (List.range 4).foldl (fun r reg => r.setLanes reg (fun l => BitVec.ofNat 32 (leField b (128 + 128 * reg + 4 * l) 4)) ls) r
        let r := { r with p := ls.foldl (fun m l => mset 0 m l (BitVec.ofNat 16 (leField b (640 + 2 * l) 2))) r.p, trapen := BitVec.ofNat 32 (leField b 36 4 % 32) }
        if mode == 2 && !([0, 12, 24, 36, 48].contains (rpc.toNat % 64)) then endAgent s n 0x03
        else
          let q' : Path := { q with jpc := if jpc == 2 ^ 64 - 1 then none else some (BitVec.ofNat 64 jpc), saved := none, bun := none, abort := if mode == 0 then q.abort else [], released := q.relAfter, relAfter := false }
          let q' := if mode == 2 then arriveAt q' rpc
            else if kind == 0 then
              match q.saved with
              | some bn =>
                if mode == 0 && !bn.started then arriveAt q' bn.first
                else
                  let redo := if mode == 1 then bn.redo.drop 1 else match bn.redo with
                    | r :: t => { r with flt := none, park := none } :: t
                    | [] => []
                  { q' with pc := bn.first, st := .eligible, bun := some { bn with redo := redo, now := none } }
              | none => arriveAt q' rpc
            else match q.saved with
              | some bn => if bn.rest.head? == some rpc then { q' with pc := bn.first, st := .eligible, bun := some bn } else arriveAt q' rpc
              | none => arriveAt q' rpc
          let s := (overwrite s n s.nextId ((List.range 4).flatMap fun r => laneKeys r q.xmask)).updAgent n fun y => { y with regs := r, sup := false, inTrap := none, trOwed := true, paths := y.paths.mapIdx fun i z => if i == p then q' else { z with trapHeld := false } }
          s
  | _, _ => s

/-- A BRK of the bundle holds its path, or traps where every STOPTAB entry is valid (R437, R471). -/
def endBrk (s : State) (n p : Nat) (b : Bun) : State :=
  match b.brk with
  | none => s
  | some f => if s.stops.length < 64 then holdPath s n p 8 else s.updPath n p fun q => { q with due := q.due ++ [f] }

/-- The registers that a result will write: those of its values, and those of the message or grant it waits for. -/
def destKeys (ws : List (Nat × Word)) (h : Hold) : List Nat :=
  ws.map (·.1) ++ match h with
    | .link _ _ d lanes | .permit _ _ d lanes => (lanesOf lanes).map (32 * d + ·)
    | .coll d lanes => (lanesOf lanes).map (32 * d + ·) ++ (lanesOf lanes).map (32 * (d + 1) + ·)
    | _ => []

/-- R55: a higher slot of the bundle has written the register. (DEDUCED, log 118) -/
def claimedAbove (cl : List (Nat × Dword)) (pc : Dword) (key : Nat) : Bool := cl.any fun c => c.1 == key && decide (pc < c.2)

/-- A result that no longer writes some registers. -/
def Pend.without (q : Pend) (gone : Nat → Bool) : Pend :=
  let keep (d : Nat) (lanes : Word) : Word := maskOf ((lanesOf lanes).filter fun l => !gone (32 * d + l))
  { q with
    writes := q.writes.filter fun w => !gone w.1
    dest := q.dest.filter fun k => !gone k
    hold := match q.hold with
      | .link dir ch d lanes => .link dir ch d (keep d lanes)
      | .permit role n d lanes => .permit role n d (keep d lanes)
      | .coll d lanes => .coll d (keep d lanes)
      | h => h }

/-- Values for the registers that a result still writes. -/
def Pend.gives (q : Pend) (ws : List (Nat × Word)) : List (Nat × Word) := ws.filter fun w => q.dest.contains w.1

/-- The results outstanding of the instructions of a path's bundle. -/
def Bun.owns (b : Bun) (n p : Nat) (q : Pend) : Bool := q.agent == n && q.path == p && decide (b.since ≤ q.id)

/-- A completion trap without some lanes; none when no lane is left. -/
def FaultRec.without (f : FaultRec) (m : Word) : Option FaultRec := if f.mask &&& ~~~m == 0 then none else some { f with mask := f.mask &&& ~~~m }

/-- R102: what a bundle has done is not for the lanes that issue it again: their registers and predicates are as they were when it
issued, and no result or trap of it is for them. (DEDUCED, log 118) -/
def undoLanes (s : State) (n p : Nat) (b : Bun) (left : Word) (nregs : Nat) : State :=
  if left == 0 then s
  else
    let s := s.mapRegs n fun r => restoreLanes r b.src left nregs
    let s := { s with pend := s.pend.map fun (q : Pend) => if b.owns n p q then { q.without (fun k => left.getLsbD (k % 32)) with traps := q.traps.map fun (t : Nat × Word × Dword) => (t.1, t.2.1 &&& ~~~left, t.2.2) } else q }
    s.updPath n p fun q => { q with due := q.due.filterMap fun (f : FaultRec) => if b.slots.contains f.pc && f.code == 0x50 then f.without left else some f }

/-- R105 step 2: results outstanding for lanes that have left are discarded; with the last of them go its flags. -/
def Pend.leave (q : Pend) (gone : Word) : Pend :=
  let r := q.without fun k => gone.getLsbD (k % 32)
  if !r.dest.isEmpty || q.dest.isEmpty then r
  else match q.hold with
    | .none | .stage _ => { r with arith := 0, mem := 0, hold := .none }
    | _ => r

/-- A bundle of which some lanes have left (R105): nothing of it issues for them any more. -/
def Bun.leave (b : Bun) (gone : Word) : Bun :=
  let keep (r : Redo) : Option Redo := if r.lanes != 0 && r.lanes &&& ~~~gone == 0 then none else some { r with lanes := r.lanes &&& ~~~gone, flt := r.flt.map fun f => { f with mask := f.mask &&& ~~~gone } }
  { b with xmask := b.xmask &&& ~~~gone, lanes := b.lanes &&& ~~~gone, redo := b.redo.filterMap keep }

/-- A path without lanes that have left, in the bundle under way and in one set aside. -/
def Path.leave (q : Path) (gone : Word) : Path :=
  { q with xmask := q.xmask &&& ~~~gone, bun := q.bun.map (·.leave gone), saved := q.saved.map (·.leave gone) }

/-- R105 steps 1 to 3: lanes leave the wave; what was outstanding for them is discarded, and entries they leave empty are freed, but
for that of the path itself. -/
def leaveLanes (s : State) (n p : Nat) (gone : Word) : State :=
  let s := trace s n 5 p gone []
  let s := { s with pend := s.pend.map fun (q : Pend) => if q.agent == n then q.leave gone else q }
  s.updAgent n fun x => { x with paths := x.paths.mapIdx fun i (y : Path) => if i != p && y.st != .free && y.xmask &&& ~~~gone == 0 then {} else y.leave gone }

/-- The end of a bundle (R101, R102, R105): exits leave, the rest groups by its next PCs. Lanes that did not issue it, having no
entry to go to, stay before it. A path that then stands at its join PC waits there, but takes a completion trap that is due first. (DESIGN CHOICE, log 121) -/
def endBundle (s : State) (n p : Nat) (b : Bun) : State :=
  match s.agent? n, s.path? n p with
  | some x, some q =>
    match b.eret with
    | some mode =>
      let s := trapReturn (s.updPath n p fun y => { y with bun := none, pc := b.next, released := false }) n p mode
      if b.exits == 0 || (s.agent? n).all (·.ending) then mergeTest s n
      else
        let s := leaveLanes s n p b.exits
        if q.xmask &&& ~~~b.exits == 0 then checkEmpty (mergeTest (freeEntry s n p) n) n else mergeTest s n
    | none =>
      let s := if b.exits != 0 then leaveLanes s n p b.exits else s
      let xm := q.xmask &&& ~~~b.exits
      if xm == 0 then checkEmpty (mergeTest (freeEntry s n p) n) n
      else if x.pilot then
        let pc := mget b.next b.nexts 0
        endBrk (s.updPath n p fun y => { y with pc := pc, bun := none, released := false }) n p b
      else
        let held := xm &&& ~~~b.lanes
        let groups := groupPcs b.nexts b.next (xm &&& b.lanes)
        let free := freeEntries (((s.agent? n).map (·.paths)).getD [])
        let sp := if held == 0 then splitOf groups b.next free.length else { keep := none, moved := groups.take free.length, left := (groups.drop free.length).foldl (fun m g => m ||| g.2) held }
        let pairs := sp.moved.zip free
        let s := pairs.foldl (fun s (g, i) => splitPends (trace s n 3 p g.2 (extPc g.1 i)) n p i) s
        let (pc, mask) := match sp.keep with
          | some g => g
          | none => (b.first, sp.left)
        let s := if b.branch && pc != b.next then trace s n 2 p mask (extPc pc (if sp.left != 0 then 3 else b.aux)) else s
        let s := undoLanes s n p b (sp.left &&& b.lanes) x.nregs
        let place (i : Nat) (y : Path) : Path :=
          if i == p then { y with xmask := mask, pc := pc, bun := none, st := .eligible }
          else match pairs.find? fun (_, k) => k == i with
            | some (g, _) => arriveAt { jpc := q.jpc, xmask := g.2 } g.1
            | none => y
        let s := s.updAgent n fun y => { y with paths := y.paths.mapIdx place }
        let s := endBrk s n p b
        let s := s.updPath n p fun y => if y.st == .eligible && y.bun.isNone && y.jpc == some y.pc && (y.dueNow x).isNone then { y with st := .join } else y
        let s := s.updPath n p fun y => { y with released := false }
        mergeTest s n
  | _, _ => s

/-- What comes after the slots of a bundle (R56): the lowest unfinished instruction's fault is taken (TRAP_ENTRY), or it
parks the path, or it is issued again alone; with nothing unfinished the bundle ends. -/
def settle (s : State) (n p : Nat) : State :=
  match (s.path? n p).bind (·.bun) with
  | none => s
  | some b =>
    match b.redo with
    | [] => endBundle s n p b
    | r :: t =>
      let rest := t.map fun x => { x with flt := none, park := none }
      let s := s.updPath n p fun q => { q with bun := some { b with redo := r :: rest, now := none } }
      match r.flt, r.park with
      | none, some k => s.updPath n p fun q => { q with st := .parked, park := some k }
      | _, _ => s

/-- The registers and predicates that the slot under way has written at once, in the lanes for which it has completed. (DEDUCED, log 118) -/
def slotKeys (b : Bun) (pc : Dword) (undone : Word) : List Nat :=
  let w := b.word pc
  let ls := guarded b.src (fieldsOf w).guard b.lanes &&& ~~~undone
  ((nowDest (instrOf w)).flatMap fun (r, c) => (List.range c).flatMap fun i => laneKeys (r + i) ls) ++ (nowPreds (instrOf w)).flatMap fun p => laneKeys (predReg p) ls

/-- R55, R69: of two writes of one register by slots of one bundle, that of the higher slot remains, whenever they come; an older
result that has still to write the register has been overwritten. (DEDUCED, log 118) -/
def slotWrites (s : State) (n p : Nat) (b : Bun) (undone : Word) : State × Bun :=
  match b.now with
  | none => (s, b)
  | some (pc, _) =>
    if b.slots.length ≤ 1 && s.pend.all (fun r => r.agent != n || decide (b.since ≤ r.id)) then (s, b)
    else
      let keys := slotKeys b pc undone
      let s := overwrite s n b.since keys
      if b.slots.length ≤ 1 then (s, b)
      else
        let cl := b.claims ++ (keys ++ (s.pend.filter fun r => b.owns n p r && r.pc == pc).flatMap (·.dest)).map fun k => (k, pc)
        ({ s with pend := s.pend.map fun r => if b.owns n p r then r.without (claimedAbove cl r.pc) else r }, { b with claims := cl })

/-- What a slot that ends leaves unfinished. -/
inductive Undone where
  | nothing
  /-- it comes next, once the other slots have issued (R56) -/
  | first (r : Redo)
  /-- it waits until it is the last of its bundle (R111) -/
  | last (r : Redo)
  deriving DecidableEq, Repr

/-- Its lanes. -/
def Undone.lanes : Undone → Word
  | .nothing => 0
  | .first r => r.lanes
  | .last r => r.lanes

/-- The slot under way is over: the next slot of the bundle comes, or the bundle settles. A replayed instruction that
completed leaves the unfinished list; `add` is what this slot left unfinished. -/
def endSlot (s : State) (n p : Nat) (add : Undone) : State :=
  match (s.path? n p).bind (·.bun) with
  | none => s
  | some b =>
    let replay := (b.now.map (·.2)).getD false
    let (s, b) := slotWrites s n p b add.lanes
    let redo := if replay then b.redo.drop 1 else b.redo
    let redo := match add with
      | .nothing => redo
      | .first r => if replay then r :: redo else redo ++ [r]
      | .last r => redo ++ [r]
    let b := { b with redo := redo, now := none }
    let s := s.updPath n p fun q => { q with bun := some b, wait := none }
    if b.rest.isEmpty then settle s n p else s

/-! ## The issue of an instruction -/

/-- What an instruction's meaning works with: who issues, which slot, L (R134), XMASK, the captured sources (R6). -/
structure Iss where
  agent : Nat
  path : Nat
  pc : Dword
  lanes : Word
  xmask : Word
  src : Regs
  pilot : Bool
  sup : Bool
  gang : GangKey
  role : Nat
  replay : Bool
  /-- a later slot of a part that is under way (R54) -/
  cont : Bool := false
  /-- of an instruction issued again alone: the registers that higher slots of its bundle have written (R55), and how many of its
  bundle's later slots have issued (R66) -/
  kept : List Nat := []
  past : Nat := 0
  deriving DecidableEq, Repr

/-- How a meaning ends. -/
inductive Fate where
  /-- completed -/
  | done
  /-- a kind 0 fault (R429): nothing changed for its lanes -/
  | fault (code : Nat) (mask : Word) (info : Dword)
  /-- a kind 0 fault of some lanes: the instruction is unfinished for `lanes`, and has completed for the others -/
  | faultOn (code : Nat) (mask : Word) (info : Dword) (lanes : Word)
  /-- parked with unfinished lanes (R251) -/
  | park (lanes : Word) (why : Park)
  /-- issued again alone, when the rest of its bundle is over (R111) -/
  | last
  /-- a Blk instruction that waits (R82) -/
  | wait (w : Wait)
  /-- does not issue yet: nothing changed -/
  | hold
  /-- the agent is gone or set aside -/
  | gone
  deriving DecidableEq, Repr

/-- What an instruction needs before it may issue (R70): registers it names with their counts, whether a pilot program may
issue it, its feature bit, supervisor mode, a fill; and the energy it charges (R409). -/
structure Need where
  regs : List (Nat × Nat) := []
  pilot : Bool := true
  feature : Option Nat := none
  sup : Bool := false
  fill : Bool := false
  base : Nat := 2
  lane : Nat := 0
  deriving DecidableEq, Repr

/-- The checks of R70 that depend on the machine, in the order of its table. -/
def refusal (s : State) (x : Agent) (nd : Need) : Option Nat :=
  if nd.regs.any fun (r, c) => r + c > x.nregs then some 0x01
  else if x.pilot && !nd.pilot then some 0x01
  else if (nd.feature.map fun k => !s.feature k).getD false then some 0x01
  else if nd.fill && !x.fill then some 0x01
  else if nd.sup && !x.sup then some 0x02
  else none

/-- R409: energy charged to the wave's block; a pilot program's to member 0's. -/
def charge (s : State) (g : GangKey) (role amount : Nat) : State :=
  s.updBlock g role fun b => { b with energy := b.energy + amount }

def popcount (m : Word) : Nat := (lanesOf m).length

/-- The counters of an agent (R40). -/
def bumpCounter (d : List Nat) (cnt : Nat) (up : Bool) : List Nat :=
  d.mapIdx fun i x => if i + 1 == cnt then (if up then x + 1 else x - 1) else x

/-- R66: every open window of the path counts one instruction. One issued again alone was counted when it first issued. -/
def countWindows (s : State) (n p : Nat) : State :=
  { s with pend := s.pend.map fun (q : Pend) => if q.agent == n then { q with wins := q.wins.map fun w => if w.1 == p then (w.1, w.2 - 1) else w } else q }

/-- A YIELD of a sibling sees the issue (R106). -/
def Path.seesIssue (q : Path) (i by_ : Nat) : Path :=
  match q.wait with
  | some (.yield others) => if others.contains by_ && i != by_ then { q with wait := some (.yield (others.erase by_)) } else q
  | _ => q

/-- The path that issues is ready afresh, and overdue no longer (R323, R326). -/
def Path.noteIssue (q : Path) (i by_ : Nat) : Path := if i == by_ then { q with ready := 0, overdue := false } else q.seesIssue i by_

/-- The last issue, and the issues in a row of one path (R325, R327, R440): the slots of one part are one issue (R54). -/
def Agent.noteIssue (x : Agent) (path tick clk : Nat) (cont : Bool) : Agent :=
  { x with lastIssue := tick, issuedAt := clk + 1, inRow := if x.lastPath == path then (if cont then x.inRow else x.inRow + 1) else 1, lastPath := path,
           paths := x.paths.mapIdx fun i q => q.noteIssue i path }

/-- The partition of a wave, or the pilot of a program (R323, R327). -/
def issueUnit (x : Agent) : Nat := if x.pilot then 512 + (x.num - 8192) / 8 else x.num / 16

/-- The trace's first SYNC of a wave (R467). -/
def traceFirst (s : State) (k : Iss) : State :=
  match s.agent? k.agent with
  | some x => if x.trOwed && traced s x && !x.pilot then traceSync s k.agent k.path (syncTable s x) else s
  | none => s

/-- The issue's bookkeeping: windows, the last issue, the trace's first SYNC (R66, R325, R440, R467). -/
def noteIssue (s : State) (k : Iss) : State :=
  traceFirst ((if k.replay then s else countWindows s k.agent k.path).updAgent k.agent fun x => x.noteIssue k.path s.tick s.clk k.cont) k

/-- The issuing instruction's view of the state; none where the state names no issuing path. -/
def issOf (s : State) (g : Guard) : Option (Iss × Agent) :=
  match s.cur with
  | none => none
  | some c => match s.agent? c.agent, s.path? c.agent c.path with
    | some x, some q =>
      let kept := if c.replay then ((q.bun.map (·.claims)).getD []).filterMap fun y => if c.pc < y.2 then some y.1 else none else []
      some ({ agent := c.agent, path := c.path, pc := c.pc, lanes := guarded c.src g c.lanes, xmask := c.xmask, src := c.src, pilot := x.pilot, sup := x.sup, gang := x.gang, role := x.role,
              replay := c.replay, cont := c.cont, kept := kept, past := if c.replay then (q.bun.map fun b => b.after c.pc).getD 0 else 0 }, x)
    | _, _ => none

/-- The slot goes back: it did not issue, and its partition or pilot may issue another in this clock. -/
def unissue (s : State) (k : Iss) : State :=
  let unit := (s.agent? k.agent).map issueUnit
  { s.updPath k.agent k.path fun q => { q with stall := true, bun := q.bun.map fun b => if k.replay then { b with now := none } else { b with now := none, rest := k.pc :: b.rest, more := 0 } } with
    issued := s.issued.filter fun u => some u != unit }

/-- The end of an issue, by how its meaning ended. (DESIGN CHOICE, log 13) -/
def finish (s : State) (k : Iss) (f : Fate) : State :=
  match f with
  | .done => endSlot s k.agent k.path .nothing
  | .fault code mask info => endSlot s k.agent k.path (.first { pc := k.pc, lanes := k.lanes, flt := some { code := code, kind := 0, mask := mask, info := info, pc := k.pc, sup := k.sup } })
  | .faultOn code mask info lanes => endSlot s k.agent k.path (.first { pc := k.pc, lanes := lanes, flt := some { code := code, kind := 0, mask := mask, info := info, pc := k.pc, sup := k.sup } })
  | .park lanes why => endSlot s k.agent k.path (.first { pc := k.pc, lanes := lanes, park := some why })
  | .last => endSlot s k.agent k.path (.last { pc := k.pc, lanes := k.lanes })
  | .wait w => s.updPath k.agent k.path fun q => { q with wait := some w }
  | .hold => s
  | .gone => s

/-- The meaning of an encoded instruction: the checks of R70 that depend on the machine, the bookkeeping of its issue,
its own effect, and the end of its slot. -/
def instr (s : State) (g : Ctl) (nd : Need) (body : Iss → State → State × Fate) : Host.Outcome State Fault Refusal :=
  match issOf s g.guard with
  | none => .fault .noIssuer
  | some (k, x) =>
    match refusal s x nd with
    | some code => .next { finish (noteIssue s k) k (.fault code k.lanes 0) with cur := none }
    | none =>
      if g.cnt != 0 && x.d.getD (g.cnt.toNat - 1) 0 ≥ 63 then .next { unissue s k with cur := none }
      else
        let (t, f) := body k (charge (noteIssue s k) k.gang (if k.pilot then 0 else k.role) (nd.base + nd.lane * popcount k.lanes))
        if f = .hold then .next { unissue s k with cur := none } else .next { finish t k f with cur := none }

/-- R418: a write to a register of BAR0 other than MEASEXT discards a partial digest. -/
def barWrite (s : State) : State := { s with attest := { s.attest with measPart := [] } }

/-- An event of the machine or its host. (DEDUCED, log 14) -/
def event (s : State) : Host.Outcome State Fault Refusal := .next s

/-! ## Results -/

/-- Live registers of the issuer written in the lanes of L, but for those that a higher slot of its bundle has written (R55). (DEDUCED, log 118) -/
def Iss.write (k : Iss) (s : State) (reg : Nat) (f : Nat → Word) : State :=
  s.mapRegs k.agent fun r => r.setLanes reg f ((lanesOf k.lanes).filter fun l => !k.kept.contains (32 * reg + l))

def Iss.write64 (k : Iss) (s : State) (reg : Nat) (f : Nat → Dword) : State :=
  (k.write s reg fun l => (f l).extractLsb' 0 32) |> fun s => k.write s (reg + 1) fun l => (f l).extractLsb' 32 32

/-- Live predicates of the issuer written in the lanes of L, but for those that a higher slot of its bundle has written (R55). -/
def Iss.writePred (k : Iss) (s : State) (p : Nat) (f : Nat → Bool) : State :=
  s.mapRegs k.agent fun r => r.setPreds p f ((lanesOf k.lanes).filter fun l => !k.kept.contains (32 * predReg p + l))

/-- The value keys of a register over lanes. -/
def laneWrites (reg : Nat) (f : Nat → Word) (ls : List Nat) : List (Nat × Word) := ls.map fun l => (32 * reg + l, f l)

def laneWrites64 (reg : Nat) (f : Nat → Dword) (ls : List Nat) : List (Nat × Word) :=
  laneWrites reg (fun l => (f l).extractLsb' 0 32) ls ++ laneWrites (reg + 1) (fun l => (f l).extractLsb' 32 32) ls

/-- What a variable-latency result will do when it becomes visible (R65-R67). -/
structure Result where
  writes : List (Nat × Word) := []
  arith : Word := 0
  mem : Word := 0
  traps : List (Nat × Word × Dword) := []
  hold : Hold := .none
  /-- registers that it will write besides those of its values -/
  dest : List Nat := []
  /-- the stall reason of a wait for it (R222, R475) -/
  why : Nat := 17
  /-- writes a register: its window matters (R65) -/
  opens : Bool := true
  deriving DecidableEq, Repr

/-- A variable-latency instruction's result left outstanding, behind the refreshes that its accesses have met (R456); its counter is raised (R40, R66, R67). One that writes
nothing and has no counter is visible at issue (R65). The window of an instruction issued again alone has been counted down by the
slots of its bundle that have issued since (R66). -/
def Iss.later (k : Iss) (s : State) (g : Ctl) (r : Result) : State :=
  if g.cnt == 0 && r = { opens := false } then s
  else
    let p : Pend := { id := s.nextId, agent := k.agent, path := k.path, pc := k.pc, wins := if g.cnt == 0 && r.opens then [(k.path, g.la.toNat - k.past)] else [], cnt := g.cnt.toNat,
                      writes := r.writes, arith := r.arith, mem := r.mem, traps := r.traps, hold := r.hold, why := r.why, dest := destKeys r.writes r.hold ++ r.dest, trapen := k.src.trapen, sup := k.sup, behind := (s.cur.map (·.behind)).getD 0 }
    let s := { s with pend := s.pend ++ [p], nextId := s.nextId + 1 }
    if g.cnt == 0 then s else s.updAgent k.agent fun x => { x with d := bumpCounter x.d g.cnt.toNat true }

/-- Completion traps of an instruction whose result is there (R430): they join the path's due list when they are enabled, with the clock
of their completion. -/
def addDue (s : State) (n p : Nat) (ts : List FaultRec) : State :=
  if ts.isEmpty then s else s.updPath n p fun q => { q with due := q.due ++ ts.map fun f => { f with clk := s.clk } }

/-- The TRAPEN bit that enables a completion trap (R43, R429). -/
def trapBit (code : Nat) : Nat :=
  if code == 0x12 then 0 else if code == 0x15 then 1 else if code == 0x50 then 2 else if code == 0x14 then 3 else 4

def trapEnabled (trapen : Word) (code : Nat) : Bool := trapen.getLsbD (trapBit code)

/-- Flags of a fixed-latency arithmetic instruction: ARITHSTAT takes them, and ARITH is due for the lanes whose enabled
exceptions were set, under TRAPEN as the bundle captured it (R49, R120, R121). -/
def Iss.flags (k : Iss) (s : State) (fl : Word) (lanes : Word) : State :=
  if fl == 0 then s
  else
    let s := s.mapRegs k.agent fun r => { r with arith := r.arith ||| fl }
    if trapEnabled k.src.trapen 0x50 && lanes != 0 then addDue s k.agent k.path [{ code := 0x50, kind := 1, mask := lanes, info := 0, pc := k.pc, sup := k.sup }] else s

/-- Several results of an instruction in one bundle. -/
def doneAll (s : State) : State × Fate := (s, .done)

end Sys2Proof.Machine
end

