-- ==== Sys2Proof/Machine/Num.lean ====
section
/-! DEFINITION. Numbers: exact values, the element formats (R113-R117), rounding to a format and to an integer (R118, R119)
and the flags they set (R120). -/

namespace Sys2Proof

/-- Width and signedness of an integer type (R112). -/
def Ty.width (t : Ty) : Nat := 8 * t.bytes
def Ty.isSigned : Ty → Bool | .s8 | .s16 | .s32 | .s64 => true | _ => false
def Ty.isInt : Ty → Bool | .s8 | .s16 | .s32 | .s64 | .n8 | .n16 | .n32 | .n64 => true | _ => false
def Ty.lo (t : Ty) : Int := if t.isSigned then -(2 ^ (t.width - 1) : Nat) else 0
def Ty.hi (t : Ty) : Int := if t.isSigned then (2 ^ (t.width - 1) : Nat) - 1 else (2 ^ t.width : Nat) - 1

end Sys2Proof

namespace Sys2Proof.Machine

/-! ## Exact values -/

/-- A rational number: `num / den`, the denominator not zero. -/
structure Q where
  num : Int
  den : Nat
  deriving DecidableEq, Repr

def Q.ofInt (n : Int) : Q := { num := n, den := 1 }
def Q.add (x y : Q) : Q := { num := x.num * y.den + y.num * x.den, den := x.den * y.den }
def Q.neg (x : Q) : Q := { x with num := -x.num }
def Q.sub (x y : Q) : Q := x.add y.neg
def Q.mul (x y : Q) : Q := { num := x.num * y.num, den := x.den * y.den }
def Q.inv (x : Q) : Q := if x.num < 0 then { num := -(x.den : Int), den := x.num.natAbs } else { num := x.den, den := x.num.natAbs }
def Q.div (x y : Q) : Q := x.mul y.inv
def Q.lt (x y : Q) : Bool := x.num * y.den < y.num * x.den
def Q.le (x y : Q) : Bool := x.num * y.den ≤ y.num * x.den
def Q.eq (x y : Q) : Bool := x.num * y.den == y.num * x.den
def Q.isZero (x : Q) : Bool := x.num == 0
def Q.isNeg (x : Q) : Bool := x.num < 0
def Q.floor (x : Q) : Int := x.num.fdiv x.den
def Q.abs (x : Q) : Q := { x with num := x.num.natAbs }
def Q.min (x y : Q) : Q := if x.lt y then x else y
def Q.max (x y : Q) : Q := if x.lt y then y else x
/-- Times a power of two. -/
def Q.shift (x : Q) (k : Int) : Q :=
  if k ≥ 0 then { x with num := x.num * 2 ^ k.toNat } else { x with den := x.den * 2 ^ (-k).toNat }
/-- The same number with common powers of two removed, which keeps long sums small. -/
def Q.norm (x : Q) : Q := let g := Nat.gcd x.num.natAbs x.den; if g ≤ 1 then x else { num := x.num / g, den := x.den / g }

/-- An exact value of a format (R113, R115): a NaN (signalling or not), an infinity, a signed zero, a nonzero number. -/
inductive X where
  | nan (sig : Bool)
  | inf (neg : Bool)
  | zero (neg : Bool)
  | fin (q : Q)
  deriving DecidableEq, Repr

def X.ofQ (q : Q) : X := if q.num == 0 then .zero false else .fin q
def X.isNan : X → Bool | .nan _ => true | _ => false
def X.sig : X → Bool | .nan s => s | _ => false
def X.neg : X → Bool | .inf n => n | .zero n => n | .fin q => q.isNeg | .nan _ => false
/-- The number, where it is one; zero elsewhere. -/
def X.q : X → Q | .fin q => q | _ => Q.ofInt 0
def X.negate : X → X | .inf n => .inf (!n) | .zero n => .zero (!n) | .fin q => .fin q.neg | x => x

/-! ## Flags (R120) -/

def flInvalid : Word := 1
def flDivZero : Word := 2
def flOverflow : Word := 4
def flUnderflow : Word := 8
def flInexact : Word := 16
def flSat : Word := 32

/-! ## Formats (R114, R115) -/

/-- A float format: exponent and mantissa bits, bias, whether it has infinities, and its NaNs (0 none, 1 one pair, 2 as
IEEE 754). -/
structure Fmt where
  e : Nat
  m : Nat
  bias : Nat
  inf : Bool
  nan : Nat
  deriving DecidableEq, Repr

def fmtF64 : Fmt := { e := 11, m := 52, bias := 1023, inf := true, nan := 2 }
def fmtF32 : Fmt := { e := 8, m := 23, bias := 127, inf := true, nan := 2 }
def fmtF16 : Fmt := { e := 5, m := 10, bias := 15, inf := true, nan := 2 }
def fmtBf16 : Fmt := { e := 8, m := 7, bias := 127, inf := true, nan := 2 }
def fmtE5m2 : Fmt := { e := 5, m := 2, bias := 15, inf := true, nan := 2 }
def fmtE4m3 : Fmt := { e := 4, m := 3, bias := 7, inf := false, nan := 1 }
def fmtE3m2 : Fmt := { e := 3, m := 2, bias := 3, inf := false, nan := 0 }
def fmtE2m3 : Fmt := { e := 2, m := 3, bias := 1, inf := false, nan := 0 }
def fmtE2m1 : Fmt := { e := 2, m := 1, bias := 1, inf := false, nan := 0 }

/-- The float format of a type. -/
def fmtOf : Ty → Option Fmt
  | .f64 => some fmtF64 | .f32 => some fmtF32 | .f16 => some fmtF16 | .bf16 => some fmtBf16 | .e5m2 => some fmtE5m2
  | .e4m3 => some fmtE4m3 | .e3m2 => some fmtE3m2 | .e2m3 => some fmtE2m3 | .e2m1 => some fmtE2m1 | _ => none

/-- Bits of an encoding. -/
def Fmt.bits (f : Fmt) : Nat := 1 + f.e + f.m

/-- The largest finite encoding, without its sign. -/
def Fmt.maxCode (f : Fmt) : Nat :=
  match f.nan with
  | 2 => (2 ^ f.e - 1) * 2 ^ f.m - 1
  | 1 => 2 ^ (f.e + f.m) - 2
  | _ => 2 ^ (f.e + f.m) - 1

/-- R115: the canonical quiet NaN; +0 where the format has none (R118 step 1). -/
def Fmt.qnan (f : Fmt) : Nat :=
  match f.nan with
  | 2 => (2 ^ f.e - 1) * 2 ^ f.m + 2 ^ (f.m - 1)
  | 1 => 2 ^ (f.e + f.m) - 1
  | _ => 0

def Fmt.signed (f : Fmt) (neg : Bool) (code : Nat) : Nat := if neg then code + 2 ^ (f.e + f.m) else code

/-- The exact value of a magnitude encoding (R113). -/
def Fmt.magnitude (f : Fmt) (code : Nat) : Q :=
  let ex := code / 2 ^ f.m
  let man := code % 2 ^ f.m
  let sig := if ex == 0 then man else man + 2 ^ f.m
  (Q.ofInt sig).shift ((max ex 1 : Nat) - (f.bias : Int) - f.m)

/-- The exact value of an encoding (R113, R115). -/
def Fmt.value (f : Fmt) (bits : Nat) : X :=
  let neg := bits / 2 ^ (f.e + f.m) % 2 == 1
  let code := bits % 2 ^ (f.e + f.m)
  let ex := code / 2 ^ f.m
  let man := code % 2 ^ f.m
  if f.nan == 2 && ex == 2 ^ f.e - 1 then
    if man == 0 then .inf neg else .nan (man / 2 ^ (f.m - 1) == 0)
  else if f.nan == 1 && code == 2 ^ (f.e + f.m) - 1 then .nan false
  else if code == 0 then .zero neg
  else
    let q := f.magnitude code
    .fin (if neg then q.neg else q)

/-! ## Rounding (R118, R119) -/

/-- Rounding modes: 0 nearest-even, 1 toward zero, 2 up, 3 down. -/
abbrev Mode := Nat

/-- The mode of an instruction (R62): its own, or RNDMODE's. -/
def modeOf (r : Rnd) (rndmode : Word) : Mode :=
  match r with
  | .dyn => rndmode.toNat % 4 | .rn => 0 | .rz => 1 | .ru => 2 | .rd => 3

/-- The mode of a VI form's rounding code. -/
def modeOfCode (c : Nat) (rndmode : Word) : Mode := if c == 0 then rndmode.toNat % 4 else c - 1

/-- The quotient of a magnitude n/d rounded to an integer, for a number of the given sign. -/
def roundNat (n d : Nat) (neg : Bool) (mode : Mode) : Nat :=
  let q := n / d
  let r := n % d
  let up := match mode with
    | 0 => 2 * r > d || (2 * r == d && q % 2 == 1)
    | 1 => false
    | 2 => r != 0 && !neg
    | _ => r != 0 && neg
  if up then q + 1 else q

/-- The floor of the base-2 logarithm of n/d, both nonzero. -/
def log2Floor (n d : Nat) : Int :=
  let e : Int := (Nat.log2 n : Int) - Nat.log2 d
  let ge : Bool := if e ≥ 0 then n ≥ d * 2 ^ e.toNat else n * 2 ^ (-e).toNat ≥ d
  if ge then e else e - 1

/-- A nonzero number's rounded encoding with an unbounded exponent range, whether it is exact, and whether its magnitude
is below the smallest normal (R118 step 3). -/
def roundCode (f : Fmt) (x : Q) (mode : Mode) : Nat × Bool × Bool :=
  let n := x.num.natAbs
  let d := x.den
  let e := log2Floor n d
  let minSp : Int := 1 - (f.bias : Int) - f.m
  let sp := if e - f.m < minSp then minSp else e - f.m
  let (n', d') := if sp ≥ 0 then (n, d * 2 ^ sp.toNat) else (n * 2 ^ (-sp).toNat, d)
  let q := roundNat n' d' x.isNeg mode
  let ex := (sp - minSp).toNat
  (ex * 2 ^ f.m + q, n' % d' == 0, ex == 0 && q < 2 ^ f.m)

/-- R118: the encoding of an exact value in a format and the flags it sets. (DEDUCED, log 30) -/
def roundFmt (x : X) (f : Fmt) (mode : Mode) (sat : Bool) : Nat × Word :=
  let clampCol := sat || !f.inf
  match x with
  | .nan _ => (f.qnan, if f.nan == 0 then flInvalid else 0)
  | .zero neg => (f.signed neg 0, 0)
  | .inf neg => if clampCol then (f.signed neg f.maxCode, flSat ||| flInexact) else (f.signed neg (f.maxCode + 1), 0)
  | .fin q =>
    let neg := q.isNeg
    let (code, exact, tiny) := roundCode f q mode
    if code > f.maxCode then
      if clampCol then (f.signed neg f.maxCode, flOverflow ||| flSat ||| flInexact)
      else
        let toInf := match mode with | 0 => true | 1 => false | 2 => !neg | _ => neg
        (f.signed neg (if toInf then f.maxCode + 1 else f.maxCode), flOverflow ||| flInexact)
    else (f.signed neg code, (if exact then 0 else flInexact) ||| (if !exact && tiny then flUnderflow else 0))

/-- A number rounded to an integer (R118 step 3 with spacing 1). -/
def roundInt (q : Q) (mode : Mode) : Int :=
  let n := roundNat q.num.natAbs q.den q.isNeg mode
  if q.isNeg then -(n : Int) else n

/-- The nearest end of a type's range (R137 `.sat`): the value and whether it was clamped. -/
def clampTo (t : Ty) (x : Int) : Int × Bool :=
  if x < t.lo then (t.lo, true) else if x > t.hi then (t.hi, true) else (x, false)

/-- R119: an exact value converted to an integer type. -/
def toInt (x : X) (t : Ty) (mode : Mode) : Int × Word :=
  match x with
  | .nan _ => (0, flInvalid)
  | .inf neg => (if neg then t.lo else t.hi, flInvalid ||| flSat ||| flInexact)
  | .zero _ => (0, 0)
  | .fin q =>
    let n := roundInt q mode
    let (c, out) := clampTo t n
    let differs := !(Q.ofInt c).eq q
    (c, (if out then flInvalid ||| flSat else 0) ||| (if differs then flInexact else 0))

/-! ## Exact arithmetic with the specials of R148 -/

/-- A sum of exact values (R148): NaN operands, opposite infinities, the sign of an exact zero. Opposite infinities beside a NaN set nothing. (DEDUCED, log 149) -/
def sumX (mode : Mode) (xs : List X) : X × Word :=
  let fl : Word := if xs.any X.sig then flInvalid else 0
  if xs.any X.isNan then (.nan false, fl)
  else
    let posInf := xs.any fun x => x == .inf false
    let negInf := xs.any fun x => x == .inf true
    if posInf && negInf then (.nan false, fl ||| flInvalid)
    else if posInf then (.inf false, fl)
    else if negInf then (.inf true, fl)
    else
      let total := (xs.foldl (fun s x => (s.add x.q).norm) (Q.ofInt 0))
      if !total.isZero then (.fin total, fl)
      else if xs.all (fun x => x == .zero true) then (.zero true, fl)
      else if xs.all (fun x => x == .zero false) then (.zero false, fl)
      else (.zero (mode == 3), fl)

/-- A product of exact values (R148). -/
def mulX (a b : X) : X × Word :=
  let fl : Word := if a.sig || b.sig then flInvalid else 0
  let neg := a.neg != b.neg
  match a, b with
  | .nan _, _ => (.nan false, fl)
  | _, .nan _ => (.nan false, fl)
  | .inf _, .zero _ => (.nan false, flInvalid)
  | .zero _, .inf _ => (.nan false, flInvalid)
  | .inf _, _ => (.inf neg, 0)
  | _, .inf _ => (.inf neg, 0)
  | .zero _, _ => (.zero neg, 0)
  | _, .zero _ => (.zero neg, 0)
  | .fin x, .fin y => (.fin (x.mul y), 0)

/-- A product plus an addend, the product exact (R149). -/
def fmaX (mode : Mode) (a b c : X) : X × Word :=
  let (p, f1) := mulX a b
  let (s, f2) := sumX mode [p, c]
  (s, f1 ||| f2)

/-- Rounded with the flags of the exact operation. -/
def roundWith (r : X × Word) (f : Fmt) (mode : Mode) (sat : Bool) : Nat × Word :=
  let (bits, fl) := roundFmt r.1 f mode sat
  (bits, fl ||| r.2)

/-- FMIN and FMAX (R150) in a format, on encodings: an operand unrounded; −0 is below +0. -/
def minmaxBits (f : Fmt) (isMax : Bool) (a b : Nat) : Nat × Word :=
  let x := f.value a
  let y := f.value b
  let fl : Word := if x.sig || y.sig then flInvalid else 0
  match x.isNan, y.isNan with
  | true, true => (f.qnan, fl)
  | true, false => (b, fl)
  | false, true => (a, fl)
  | false, false =>
    let key (v : X) : Int × Int := match v with | .inf n => (if n then -1 else 1, 0) | _ => (0, 0)
    let less : Bool := match x, y with
      | .zero n, .zero m => n && !m
      | .inf _, _ => (key x).1 < (key y).1
      | _, .inf _ => (key x).1 < (key y).1
      | _, _ => x.q.lt y.q
    (if isMax then (if less then b else a) else (if less then a else b), fl)

/-- Comparison of two exact values that are no NaN: −1, 0, 1; −0 equals +0. -/
def cmpX (x y : X) : Int :=
  let rank (v : X) : Int := match v with | .inf n => if n then -1 else 1 | _ => 0
  if rank x != rank y then (if rank x < rank y then -1 else 1)
  else if rank x != 0 then 0
  else if x.q.lt y.q then -1 else if x.q.eq y.q then 0 else 1

/-- RoundFP32 of an exact number under nearest-even. (DEDUCED, log 31) -/
def rnd32 (q : Q) : Q :=
  match fmtF32.value (roundFmt (X.ofQ q) fmtF32 0 false).1 with
  | .fin r => r
  | _ => Q.ofInt 0

/-- An exact value rounded to FP32 under nearest-even. -/
def rnd32X (x : X) : X := fmtF32.value (roundFmt x fmtF32 0 false).1

/-- FP32 bits as an exact value. -/
def f32 (w : Word) : X := fmtF32.value w.toNat

/-- An exact value as FP32 bits under nearest-even. -/
def toF32 (x : X) : Word := BitVec.ofNat 32 (roundFmt x fmtF32 0 false).1

def qnan32 : Word := 0x7FC00000

end Sys2Proof.Machine
end

