-- ==== Sys2Proof/Machine/Fetch.lean ====
section
/-! DEFINITION. The instruction cache, what a bundle's end will be, and the start of an issue (R50-R57, R66, R71, R99, R101, R102, R471). -/

namespace Sys2Proof.Machine

/-- The number of little-endian bytes as a line. -/
def lineOfBytes (bs : List Byte) : Line := BitVec.ofNat 512 (leNat bs)

/-! ## The instruction cache (R57) -/

def State.fetchLine? (s : State) (core asn va : Nat) : Option FetchLine :=
  s.fetch.find? fun f => f.core == core && f.asn == asn && f.va == va

/-- How the fill of a line ends. -/
inductive LineEnd where
  | filled (s : State)
  | miss (m : Miss)
  | perm
  | broken

/-- A line leaves a full instruction cache of 128 KiB for a new one (R13); which, nothing fixes. (DESIGN CHOICE, log 128) -/
def fetchRoom (s : State) (core : Nat) : State :=
  let ls := s.fetch.filter fun f => f.core == core
  if ls.length < 2048 then s
  else match ls[Config.freeNat s.fresh % ls.length]? with
    | some f => { s with fetch := s.fetch.erase f, fresh := s.fresh + 1 }
    | none => s

/-- A line read through a path's translation with the rights of an instruction fetch (R53, R57, R389); `err1` and `err2`
are what the first copy and the refetched copy had flipped. -/
def readLine (s : State) (core : Nat) (c : Ctx) (va : Nat) (err1 err2 : Line) : LineEnd :=
  match tr s c true .fetch va with
  | .miss m => .miss { m with kind := 2 }
  | .perm => .perm
  | .ok sp a l =>
    let data := lineOfBytes (s.readHome sp a 64)
    let one := data ^^^ err1
    let two := data ^^^ err2
    let keep (d : Line) : LineEnd :=
      let t := fetchRoom { touch s c va with fetch := s.fetch.filter fun f => !(f.core == core && f.asn == c.asn && f.va == va) } core
      .filled { t with fetch := { core := core, asn := c.asn, va := va, data := d, ok := formOk d, sup := l.sup } :: t.fetch }
    if parityOk one then keep one else if parityOk two then keep two else .broken

/-- What a path finds at a target (R53): legal, a fault code, a translation miss, a line to be filled, or a broken one. -/
inductive TargetEnd where
  | legal
  | fault (code : Nat)
  | miss (m : Miss)
  | broken
  deriving DecidableEq, Repr

/-- R53: the legal-target check of one target by an agent. -/
def checkTarget (s : State) (n : Nat) (pc : Nat) : TargetEnd × State :=
  match slotIndex pc, s.agent? n with
  | none, _ => (.fault 0x03, s)
  | _, none => (.legal, s)
  | some k, some x =>
    let c := s.ctxOf x.gang
    let core := s.coreOf x
    let judge (f : FetchLine) (s : State) : TargetEnd × State :=
      if f.sup && !x.sup then (.fault 0x11, s) else if lineTgt f.data k then (.legal, s) else (.fault 0x04, s)
    match s.fetchLine? core c.asn (lineBase pc) with
    | some f => judge f s
    | none =>
      match readLine s core c (lineBase pc) 0 0 with
      | .miss m => (.miss m, s)
      | .perm => (.fault 0x11, s)
      | .broken => (.broken, s)
      | .filled s =>
        match s.fetchLine? core c.asn (lineBase pc) with
        | some f => judge f s
        | none => (.legal, s)

/-! ## Parking on a translation miss (R393) -/

/-- The page-table lines that a path is parked on, or is to park on once its bundle's other slots have issued. -/
def Path.missLines (p : Path) : List (Nat × Bool) :=
  (p.park.toList ++ ((p.bun.map (·.redo)).getD []).filterMap (·.park)).flatMap fun k => match k with
    | .xlate _ ls _ _ => ls
    | _ => []

/-- Those of every path. -/
def missLines (s : State) : List (Nat × Bool) := s.agents.flatMap fun x => x.paths.flatMap (·.missLines)

/-- Whether some path already stands parked on a page-table line. -/
def parkedOn (s : State) (line : Nat) : Bool := (missLines s).any fun e => e.1 == line

/-- R393: walker monitors in use at a home slice. -/
def walkerMonitors (s : State) (slice : Nat) : Nat :=
  (((missLines s).filter fun e => e.2 && sliceOf (e.1 * 128) == slice).map (·.1)).eraseDups.length

/-- Whether a walker monitor stands on a page-table line. -/
def monitored (s : State) (line : Nat) : Bool := (missLines s).any fun e => e.2 && e.1 == line

/-- R393 steps 1 and 2: what parking on a miss does beside parking: the record and the interrupt when no other path
stands parked on the line. The answer is whether a walker monitor was free. -/
def noteMiss (s : State) (c : Ctx) (agent : Nat) (m : Miss) : Bool × State :=
  let line := m.pte / 128
  if parkedOn s line then (monitored s line || walkerMonitors s (sliceOf m.pte) < 256, s)
  else (walkerMonitors s (sliceOf m.pte) < 256, signal (faultRecord s c agent m) c.msix)

/-- The park of a path on the misses of its lanes, lowest lane first: each line that an invalid entry lies on is taken once (R393). (DEDUCED, log 140) -/
def xlatePark (s : State) (g : GangKey) (agent : Nat) (m : Miss) (more : List Miss) : Park × State :=
  let (ls, s) := (m :: more).foldl (fun (ls, s) m =>
    if ls.any fun e => e.1 == m.pte / 128 then (ls, s) else let (mon, s) := noteMiss s (s.ctxOf g) agent m; (ls ++ [(m.pte / 128, mon)], s)) (([] : List (Nat × Bool)), s)
  (.xlate m ls false s.tick, s)

/-- An instruction that parks behind an unfinished one of its bundle parks for itself only when it is issued again (R56). -/
def parksLater (s : State) (n p : Nat) (replay : Bool) : Bool := !replay && (((s.path? n p).bind (·.bun)).map fun b => !b.redo.isEmpty).getD false

/-- The park of an instruction under way. -/
def missPark (s : State) (g : GangKey) (n p : Nat) (replay : Bool) (m : Miss) (more : List Miss) : Park × State :=
  if parksLater s n p replay then (.xlate m [] false s.tick, s) else xlatePark s g n m more

/-- A parked path goes on: its head instruction is issued again (R99). -/
def wakePath (s : State) (n p : Nat) : State :=
  s.updPath n p fun q =>
    if q.st == .parked then
      { q with st := .eligible, park := none, bun := q.bun.map fun b => { b with redo := (match b.redo with | r :: t => { r with park := none } :: t | [] => []) } }
    else { q with park := none }

/-! ## The start of an issue -/

/-- R66: the control instructions. -/
def isControl (i : Instr) : Bool :=
  match encode i with
  | some w => let op := (w.extractLsb' 88 8).toNat; op < 16 || op == 0xA0 || op == 0xA3
  | none => false

/-- R82: the registers that a Blk instruction writes; an ERET restores v0 to v3 (R438). -/
def blkDests (i : Instr) : List Nat :=
  match i with
  | .mwait x => [x.d.toNat]
  | .ctxsv x | .ctxld x => [x.d.toNat]
  | .eret _ | .eretSkip _ | .eretPc _ => [0, 1, 2, 3]
  | _ => []

/-- Instructions that make accesses of their wave or submit them, and those whose ordering takes in its earlier accesses. (DEDUCED, log 25) -/
def inOrderAfterTiles (i : Instr) : Bool :=
  match i with
  | .ld _ | .st _ | .marm _ | .lds _ | .sts _ | .ldrm _ | .strm _ | .atom _ | .red _ | .atoms _ | .fence _ | .texs _ | .texf _
  | .rayq _ | .rayw _ | .rayh _ | .ptch _ | .sndm _ | .sndo _ | .snde _ | .snda _ | .hgf _ | .cpy _ | .cpyq _ | .gthr _ | .cbld _ | .job _
  | .qapp _ | .fork _ | .bar _ | .gbar _ | .rdzv _ | .varpt _ | .fillc _ | .rkinv _ | .tstamp _ | .tstampWake _ | .ctxsv _ | .ctxld _
  | .tlbiVa _ | .tlbiAsn _ | .tlbiAll _ | .lnks _ | .lnkr _ | .stageHold _ | .stageRel _ | .eret _ | .eretSkip _ | .eretPc _ => true
  | .srd x | .swr x => [0x800, 0x801, 0x803].contains (bitsOf x.imm.toNat 11 0)
  | _ => false

/-- Whether an instruction of a path waits for a result (R66, R82): its window on the path is at its end, or the instruction is a control
instruction, or a Blk instruction that writes one of its destinations. -/
def Pend.holds (q : Pend) (p : Nat) (i : Instr) : Bool :=
  q.wins.any fun w => w.1 == p && (w.2 == 0 || isControl i || (blkDests i).any fun d => q.dest.any fun k => k / 32 == d)

/-- The outstanding result that holds an instruction of a path back. An access keeps its place after the
rows of a TLD or TST that the engine has still to move (R179, R225, R239). -/
def blockedBy (s : State) (n p : Nat) (i : Instr) : Option Nat :=
  (s.pend.find? fun q => q.agent == n && ((inOrderAfterTiles i && tilePending s q) || q.holds p i)).map (·.id)

/-- R166: of the engine instructions that issue on a core in one clock, those of partition 0 come first: one of a partition does not issue
once a later partition has issued in the clock. -/
def engineLate (s : State) (n : Nat) (i : Instr) : Bool :=
  let engine : Bool := match i with
    | .tshape _ | .tzero _ | .tld _ | .tst _ | .tfeed _ | .tdrain _ | .mma _ | .acvt _ | .menc _ | .bobjArm _ | .bobjWait _ => true
    | _ => false
  engine && (((s.agent? n).map fun x => !x.pilot && s.issued.any fun u => u < 512 && u / 4 == issueUnit x / 4 && issueUnit x < u)).getD false

/-! ## What the end of a bundle will be (R101, R102) -/

/-- A branch of a bundle: its guard and its target in each lane, from the sources captured at the bundle's issue; none for another
instruction, or for one that names a register the agent has not. -/
def Bun.branchAt (b : Bun) (nregs : Nat) (pc : Dword) : Option (Guard × (Nat → Dword)) :=
  if (fieldsOf (b.word pc)).op != 1 then none
  else match instrOf (b.word pc) with
    | .bra x => some (x.ctl.guard, fun _ => brTarget pc x.disp x.slot)
    | .call x => if x.d.toNat + 2 > nregs then none else some (x.ctl.guard, fun _ => brTarget pc x.disp x.slot)
    | .brx x | .ret x => if x.a.toNat + 2 > nregs then none else some (x.ctl.guard, fun l => b.src.get64 x.a.toNat l)
    | _ => none

/-- The lanes for which an EXIT of the bundle holds: no branch carries them (R101). -/
def Bun.exitLanes (b : Bun) : Word :=
  b.slots.foldl (fun m pc => match instrOf (b.word pc) with
    | .exit x => m ||| guarded b.src x.ctl.guard b.lanes
    | _ => m) 0

/-- The lanes that a branch in a higher slot takes (R55, R101). -/
def Bun.takenAbove (b : Bun) (nregs : Nat) (pc : Dword) : Word :=
  b.slots.foldl (fun m q => match b.branchAt nregs q with
    | some (g, _) => if pc < q then m ||| guarded b.src g b.lanes else m
    | none => m) 0

/-- The next PCs that the branches of a bundle will compute. (DEDUCED, log 122) -/
def Bun.forecast (b : Bun) (nregs : Nat) : List (Nat × Dword) :=
  b.slots.foldl (fun m pc => match b.branchAt nregs pc with
    | some (g, t) => (lanesOf (guarded b.src g b.lanes)).foldl (fun m l => mset b.next m l (t l)) m
    | none => m) []

/-- R102: the lanes of a bundle that is about to issue: those that have an entry to go to; none where it must wait until an entry
is free. The lanes left over issue it later. (DEDUCED, log 122) -/
def Bun.goers (b : Bun) (nregs free : Nat) : Option Word :=
  if !b.slots.any fun pc => (b.branchAt nregs pc).isSome then some b.lanes
  else
    let left := (splitOf (groupPcs (b.forecast nregs) b.next (b.lanes &&& ~~~b.exitLanes)) b.next free).left
    if left == 0 then some b.lanes else if free == 0 then none else some (b.lanes &&& ~~~left)

/-- What stands at the next issue of a path. -/
inductive Begin where
  /-- a slot issues: its PC, its word, whether alone again, the lanes, and the state with the slot under way -/
  | slot (pc : Dword) (word : Slot) (s : State)
  /-- something else happened in its place -/
  | did (s : State)
  /-- an event of the path comes in its place -/
  | event (i : Instr) (s : State)
  /-- the line must be filled first -/
  | fill (core ctx va : Nat)
  | notReady

/-- A fault on the slot that a path was about to issue (R53, R57, R71). A handler that cannot be entered ends the wave with the code
of the fault that took it (R432). -/
def faultAt (s : State) (n p : Nat) (pc : Dword) (code : Nat) : State :=
  match s.agent? n, s.path? n p with
  | some x, some q =>
    match q.entry with
    | .handler c => endAgent s n c
    | _ =>
      let base := lineBase pc.toNat
      let k := (slotIndex pc.toNat).getD 0
      let last := match s.fetchLine? (s.coreOf x) (s.ctxOf x.gang).asn base with
        | some f => k + (bundleFrom f.data 5 k).length - 1
        | none => k
      let b : Bun := (q.bun).getD { first := pc, next := nextPc base last, rest := [], src := x.regs, started := false, xmask := q.xmask, lanes := q.xmask }
      let lanes := match b.redo with | r :: _ => r.lanes | [] => b.lanes
      let s := s.updPath n p fun q => { q with bun := some { b with rest := [], now := some (pc, !b.redo.isEmpty) } }
      endSlot s n p (.first { pc := pc, lanes := lanes, flt := some { code := code, kind := 0, mask := lanes, info := 0, pc := pc, sup := x.sup } })
  | _, _ => s

/-- The stop that takes a path before its next bundle: a step or a breakpoint on its wave, or a breakpoint it matches, which a pilot
program does not; none where every STOPTAB entry is valid (R471, R472). -/
def stopOf (s : State) (ctx : Nat) (pilot : Bool) (q : Path) : Option Nat :=
  if q.released || s.stops.length ≥ 64 || !stopsArmed s ctx then none else q.stepping.or (if pilot then none else breakAt s ctx q.pc)

/-- Whether a gang is on its cluster: a stop of its issue leaves what its engines have accepted to be done (R11, R170). -/
def onCluster (s : State) (g : GangKey) : Bool := ((s.gang? g).map fun y => y.st == .resident).getD false

/-- Whether a gang's agents may issue at all: resident, not stopped by heat or an error, not on its way (R11, R320). -/
def gangRuns (s : State) (g : GangKey) : Bool :=
  match s.gang? g with
  | some y => y.st == .resident && !y.stopped && !y.migrating
  | none => false

/-- Whether a path is eligible and its gang runs (R99). -/
def mayRun (s : State) (x : Agent) (q : Path) : Bool :=
  q.st == .eligible && !q.trapHeld && q.wait.isNone && !x.ending && !x.paused && gangRuns s x.gang

/-- Whether a path is in the middle of a part, whose other slots issue in the same clock (R14, R54). -/
def midPart (s : State) (x : Agent) (i : Nat) (q : Path) : Bool :=
  match q.bun with
  | some b => b.more != 0 && mayRun s x q && !q.stall && match b.rest with
    | pc :: _ => (blockedBy s x.num i (instrOf (b.word pc))).isNone
    | [] => false
  | none => false

/-- Whether a path may issue and nothing but windows and counters could hold it (R99, R323): no sibling is in the middle of a part. -/
def mayIssue (s : State) (x : Agent) (i : Nat) (q : Path) : Bool :=
  mayRun s x q && !((List.range x.paths.length).zip x.paths).any fun (j, y) => j != i && midPart s x j y

/-- Whether a YIELD of a path is over (R106): each other path that was eligible has issued or is not eligible any more. -/
def yieldOver (x : Agent) (q : Path) : Bool :=
  match q.wait with
  | some (.yield others) => !others.any fun i => ((x.paths[i]?).map fun z => z.st == .eligible && !z.trapHeld).getD false
  | _ => false

/-- The results older than a path's bundle that are not visible yet, and whose values are known. (DESIGN CHOICE, log 12) -/
def inFlight (s : State) (n since : Nat) : List Pend :=
  s.pend.filter fun q => q.agent == n && decide (q.id < since) && q.hold == .none

/-- R69: which of two values stands in a lane of a result: one choice for all its registers. (DESIGN CHOICE, log 12) -/
def laneChoice (base lane : Nat) : Bool := Config.freeNat (base + lane) % 2 = 1

/-- R69: a reader of a destination inside its window, or before the WAITC of its counter, receives in each lane the value
from before or the result; which of them is free. (DESIGN CHOICE, log 12) -/
def readable (s : State) (n since : Nat) (src : Regs) : Regs :=
  { src with v := ((inFlight s n since).mapIdx fun i q => (i, q)).foldl (fun v (i, q) => q.writes.foldl (fun v w => if laneChoice (s.fresh + 32 * i) (w.1 % 32) then mset 0 v w.1 w.2 else v) v) src.v }

/-- The issue that is under way: the sources as its reader receives them (R69). -/
def setCur (s : State) (x : Agent) (p : Nat) (pc : Dword) (b : Bun) (lanes : Word) (replay cont : Bool) : State :=
  { s with
    cur := some { agent := x.num, path := p, pc := pc, src := readable s x.num b.since b.src, lanes := lanes, xmask := b.xmask, replay := replay, cont := cont, tbl := x.paths }
    fresh := s.fresh + 32 * (inFlight s x.num b.since).length }

/-- A slot of a bundle under way issues: the next in order, or an unfinished one alone. -/
def nextOf (s : State) (x : Agent) (p : Nat) (b : Bun) : Begin :=
  match b.rest, b.redo with
  | pc :: rest, _ =>
    let b' := { b with rest := rest, now := some (pc, false), more := b.partAfter x.pilot pc }
    .slot pc (b.word pc) (setCur (s.updPath x.num p fun q => { q with bun := some b' }) x p pc b b.lanes false (b.more != 0 && x.issuedAt == s.clk + 1))
  | [], r :: _ =>
    if r.flt.isSome then .event (.trapEntry x.num p) s
    else match slotIndex r.pc.toNat, s.fetchLine? (s.coreOf x) (s.ctxOf x.gang).asn (lineBase r.pc.toNat) with
      | some k, some f =>
        let t := setCur (s.updPath x.num p fun q => { q with bun := some { b with now := some (r.pc, true), more := 0 } }) x p r.pc b (r.lanes &&& b.lanes) true false
        if f.ok then .slot r.pc (slotWord f.data k) t else .event (.illegalEncoding (slotWord f.data k)) t
      | _, _ => .fill (s.coreOf x) (s.ctxOf x.gang).id (lineBase r.pc.toNat)
  | [], [] => .did (settle s x.num p)

/-- A new bundle begins at slot `k` of a cached line: its form, its entry (R53), its lanes (R102) and its first slot. -/
def newBundle (s : State) (x : Agent) (p : Nat) (q : Path) (f : FetchLine) (k : Nat) : Begin :=
  let base := lineBase q.pc.toNat
  let slots := (bundleFrom f.data 5 k).map (slotPc base)
  let b : Bun := { first := q.pc, next := nextPc base (k + slots.length - 1), rest := slots.drop 1, src := x.regs, now := some (q.pc, false), since := s.nextId,
                   xmask := q.xmask, lanes := q.xmask, line := f.data, slots := slots }
  if !f.ok then
    .event (.illegalEncoding (slotWord f.data k)) (setCur (s.updPath x.num p fun q => { q with bun := some { b with rest := [], slots := [], started := false } }) x p q.pc b q.xmask false false)
  else if q.entry != .none && !lineTgt f.data k then .did (faultAt s x.num p q.pc 0x04)
  else match (if x.pilot then some b.lanes else b.goers x.nregs (freeEntries x.paths).length) with
    | none => .notReady
    | some m =>
      let b := { b with lanes := m }
      .slot q.pc (slotWord f.data k) (setCur (s.updPath x.num p fun q => { q with entry := .none, bun := some { b with more := b.partAfter x.pilot q.pc } }) x p q.pc b m false false)

/-- The start of the next issue of a path. A PC that is no slot raises ILLEGAL_TARGET where R53 checks it, and else MISALIGNED. (DEDUCED, log 123) -/
def beginIssue (s : State) (n p : Nat) : Begin :=
  match s.agent? n, s.path? n p with
  | some x, some q =>
    if yieldOver x q && gangRuns s x.gang then .did (endSlot s n p .nothing)
    else if !mayIssue s x p q then .notReady
    else
      let c := s.ctxOf x.gang
      if (q.dueNow x).isSome then .event (.trapEntry n p) s
      else match q.bun with
      | some b => nextOf s x p b
      | none =>
        if q.jpc == some q.pc then .did (mergeTest (s.updPath n p fun q => { q with st := .join }) n)
        else match slotIndex q.pc.toNat with
          | none => .did (faultAt s n p q.pc (if q.entry == .entry then 0x04 else 0x03))
          | some k =>
            match s.fetchLine? (s.coreOf x) c.asn (lineBase q.pc.toNat) with
            | none => .fill (s.coreOf x) c.id (lineBase q.pc.toNat)
            | some f =>
              if f.sup && !x.sup then .did (faultAt s n p q.pc 0x11)
              else match stopOf s c.id x.pilot q with
                | some bk => .event (.breakpointHold n p bk) s
                | none => newBundle s x p q f k
  | _, _ => .notReady

end Sys2Proof.Machine
end

