-- ==== Sys2Proof/Machine/Paths.lean ====
section
/-! DEFINITION. Paths and control flow (R99-R111): NOP, JOIN, EXIT, YIELD, VOTE, the mask instructions, REGROUP and the
branches. -/

namespace Sys2Proof.Machine

def pathNeed (rs : List (Nat × Nat)) (pilot : Bool) : Need := { regs := rs, pilot := pilot }

/-- R70: the all-zero word has no effect. -/
def execNop (s : State) : Host.Outcome State Fault Refusal :=
  instr s {} {} fun _ s => (s, .done)

/-- What a failed target does to the lanes that would take it. -/
inductive LaneEnd where
  | good
  | fault (code : Nat)
  | miss (m : Miss)
  | broken
  deriving DecidableEq, Repr

def TargetEnd.lane : TargetEnd → LaneEnd
  | .legal => .good
  | .fault c => .fault c
  | .miss m => .miss m
  | .broken => .broken

/-- The targets of some lanes checked one after another (R53): each distinct target once. -/
def checkTargets (s : State) (n : Nat) (ts : List (Nat × Dword)) : List (Nat × LaneEnd) × State :=
  let distinct := (ts.map (·.2)).eraseDups
  let (res, s) := distinct.foldl (fun (acc, s) pc => let (e, s) := checkTarget s n pc.toNat; (acc ++ [(pc, e.lane)], s)) (([] : List (Dword × LaneEnd)), s)
  (ts.map fun (l, pc) => (l, ((res.find? fun x => x.1 == pc).map (·.2)).getD .good), s)

/-- A line broken twice is a lasting hardware error of the core (R57): the branch has not completed, and the error is
the next happening. -/
def brokenLine (s : State) (k : Iss) : State :=
  match s.agent? k.agent with
  | some x => { s with agenda := .event (.hwError (s.coreOf x) true [k.gang]) :: s.agenda }
  | none => s

/-- How an instruction that checked targets ends: a lasting error of the line first, then faults, then parking. Of lanes that fail with
different codes (R103) the lowest one's code is taken first, and the fault names that code's lanes. (DEDUCED, log 132) -/
def targetFate (s : State) (k : Iss) (res : List (Nat × LaneEnd)) : State × Fate :=
  if res.any fun x => x.2 == .broken then (unissue (brokenLine s k) k, .gone)
  else
    let bad := res.filter fun x => x.2 != .good
    match bad.findSome? fun x => match x.2 with | .fault c => some c | _ => none with
    | some code => (s, .faultOn code (maskOf ((bad.filter fun x => x.2 == .fault code).map (·.1))) 0 (maskOf (bad.map (·.1))))
    | none =>
      match bad.filterMap fun x => match x.2 with | .miss m => some m | _ => none with
      | m :: more => let (why, s) := missPark s k.gang k.agent k.path k.replay m more; (s, .park (maskOf (bad.map (·.1))) why)
      | [] => (s, .done)

/-- The lanes of a branch that it decides for (R55, R101): those of L that no EXIT of the bundle removes and no branch in a higher slot
takes. -/
def branchLanes (k : Iss) (b : Bun) (nregs : Nat) : Word := k.lanes &&& ~~~(b.exitLanes ||| b.takenAbove nregs k.pc)

/-- R101-R103: the lanes of L take their targets, which are checked for the lanes that go there (R102). -/
def takeBranch (k : Iss) (s : State) (target : Nat → Dword) (aux : Nat) : State × Fate :=
  match s.agent? k.agent, (s.path? k.agent k.path).bind (·.bun) with
  | some x, some b =>
    let go := lanesOf (branchLanes k b x.nregs)
    let (res, s) := checkTargets s k.agent (go.map fun l => (l, target l))
    let good := go.filter fun l => !(res.any fun x => x.1 == l && x.2 != .good)
    let nexts := good.foldl (fun m l => mset b.next m l (target l)) b.nexts
    let s := s.updPath k.agent k.path fun q => { q with bun := some { b with nexts := nexts, branch := true, aux := aux } }
    targetFate s k res
  | _, _ => (s, .gone)

/-- BRA (R103). -/
def execBra (x : Br) (s : State) : Host.Outcome State Fault Refusal :=
  instr s x.ctl {} fun k s => takeBranch k s (fun _ => brTarget k.pc x.disp x.slot) 0

/-- BRX (R103): a 64-bit PC per lane. -/
def execBrx (x : Br) (s : State) : Host.Outcome State Fault Refusal :=
  instr s x.ctl { regs := [(x.a.toNat, 2)] } fun k s => takeBranch k s (fun l => k.src.get64 x.a.toNat l) 0

/-- CALL (R103): the link is the first slot after the bundle, for the lanes that complete. -/
def execCall (x : Br) (s : State) : Host.Outcome State Fault Refusal :=
  instr s x.ctl { regs := [(x.d.toNat, 2)] } fun k s =>
    let link := (((s.path? k.agent k.path).bind (·.bun)).map (·.next)).getD 0
    let (t, f) := takeBranch k s (fun _ => brTarget k.pc x.disp x.slot) 1
    let rest (m : Word) : Iss := { k with lanes := k.lanes &&& ~~~m }
    match f with
    | .done => (k.write64 t x.d.toNat fun _ => link, f)
    | .faultOn _ _ _ m | .park m _ => ((rest m).write64 t x.d.toNat fun _ => link, f)
    | _ => (t, f)

/-- RET (R103): as BRX, marked as a return in the trace. -/
def execRet (x : Br) (s : State) : Host.Outcome State Fault Refusal :=
  instr s x.ctl { regs := [(x.a.toNat, 2)] } fun k s => takeBranch k s (fun l => k.src.get64 x.a.toNat l) 2

/-- JOIN (R104): the join PC is set to a checked target. The path leaves its former group, which may merge at once (R100). -/
def execJoin (x : Br) (s : State) : Host.Outcome State Fault Refusal :=
  instr s x.ctl { pilot := false } fun k s =>
    let t := brTarget k.pc x.disp x.slot
    let (e, s) := checkTarget s k.agent t.toNat
    match e with
    | .legal => (mergeTest (s.updPath k.agent k.path fun q => { q with jpc := some t }) k.agent, .done)
    | _ => targetFate s k ((lanesOf k.lanes).map fun l => (l, e.lane))

/-- JOIN.CLR (R104): the join PC is set to none; where that leaves the former group waiting, it merges at once. -/
def execJoinClr (x : Br) (s : State) : Host.Outcome State Fault Refusal :=
  instr s x.ctl { pilot := false } fun k s => (mergeTest (s.updPath k.agent k.path fun q => { q with jpc := none }) k.agent, .done)

/-- EXIT (R105): the lanes of L leave once their bundle is over. -/
def execExit (x : Sys) (s : State) : Host.Outcome State Fault Refusal :=
  instr s x.ctl {} fun k s =>
    (s.updPath k.agent k.path fun q => { q with bun := q.bun.map fun b => { b with exits := b.exits ||| k.lanes } }, .done)

/-- YIELD (R106): waits for the wave's other eligible paths; the wave becomes youngest. (DEDUCED, log 98) -/
def execYield (x : Sys) (s : State) : Host.Outcome State Fault Refusal :=
  instr s x.ctl {} fun k s =>
    match s.agent? k.agent with
    | none => (s, .gone)
    | some a =>
      let s := s.updAgent k.agent fun y => { y with youngest := s.clk + 1 }
      let others := (List.range a.paths.length).filter fun i => i != k.path && ((a.paths[i]?).map fun q => q.st == .eligible && !q.trapHeld).getD false
      if k.pilot || others.isEmpty then (s, .done) else (s, .wait (.yield others))

/-- VOTE (R107). -/
def execVote (x : V3) (s : State) : Host.Outcome State Fault Refusal :=
  instr s x.ctl { pilot := false, regs := if x.opx.toNat ≥ 3 then [(x.d.toNat, 1)] else [] } fun k s =>
    let ls := lanesOf k.lanes
    let yes := ls.filter fun l => k.src.pred x.a.toNat l
    match x.opx.toNat with
    | 0 => (k.writePred s x.d.toNat fun _ => yes.length == ls.length, .done)
    | 1 => (k.writePred s x.d.toNat fun _ => !yes.isEmpty, .done)
    | 2 => (k.writePred s x.d.toNat fun _ => yes.isEmpty || yes.length == ls.length, .done)
    | 3 => (k.write s x.d.toNat fun _ => maskOf yes, .done)
    | _ => (k.write s x.d.toNat fun _ => BitVec.ofNat 32 yes.length, .done)

/-- XMRD (R108). -/
def execXmrd (x : Sys) (s : State) : Host.Outcome State Fault Refusal :=
  instr s x.ctl { pilot := false, regs := [(x.d.toNat, 1)] } fun k s => (k.write s x.d.toNat fun _ => k.xmask, .done)

/-- R108: the path-table summary word. An entry that waits at a join counts as waiting there also while a sibling's handler holds it. (DEDUCED, log 133) -/
def pathWord (ps : List Path) (self : Nat) (xmask : Word) : Word :=
  let map (f : Path → Bool) : Nat := (ps.mapIdx fun i p => if f p then 2 ^ i else 0).foldl (· + ·) 0
  BitVec.ofNat 32 (popcount xmask * 2 ^ 24 + map (fun p => p.st == .join) * 2 ^ 16 + map (fun p => p.st != .free) * 2 ^ 8 + self)

/-- PATHQ (R108). After an XMWR of its bundle NLANES is that of the bundle's issue, the maps are those of the moment. (DESIGN CHOICE, log 144) -/
def execPathq (x : Sys) (s : State) : Host.Outcome State Fault Refusal :=
  instr s x.ctl { pilot := false, regs := [(x.d.toNat, 1)] } fun k s =>
    let ps := ((s.agent? k.agent).map (·.paths)).getD []
    (k.write s x.d.toNat fun _ => pathWord ps k.path k.xmask, .done)

/-- XMWR (R109): lanes are removed from the path and sent ahead to its join point; the windows open on the path hold there too (R66), and
with the last of its lanes go its results, the traps that are due, and what a handler has set aside. The XMASK and JPC are those of the moment,
also after a JOIN or an XMWR in a lower slot of the bundle. (DESIGN CHOICE, log 120) (DESIGN CHOICE, log 144) -/
def execXmwr (x : Sys) (s : State) : Host.Outcome State Fault Refusal :=
  instr s x.ctl { pilot := false, regs := [(x.a.toNat, 1)] } fun k s =>
    match lanesOf k.lanes, s.agent? k.agent, s.path? k.agent k.path with
    | low :: _, some a, some q =>
      let m := k.src.get x.a.toNat low &&& q.xmask
      let removed := q.xmask &&& ~~~m
      if removed == 0 then (s, .done)
      else match q.jpc with
        | none => (s, .fault 0x04 k.lanes 0)
        | some j =>
          let waiting := (List.range a.paths.length).find? fun i => ((a.paths[i]?).map fun p => p.st == .join && p.jpc == some j && !p.trapHeld).getD false
          match waiting.or (freeEntries a.paths).head? with
          | none => (s, .hold)
          | some e =>
            let all := m == 0
            let to_ (p : Path) : Path := if all then { p with due := orderDue (p.due ++ q.due), saved := p.saved.or q.saved, abort := p.abort ++ q.abort } else p
            let move (i : Nat) (p : Path) : Path :=
              if i == e then to_ (if p.st == .join then { p with xmask := p.xmask ||| removed } else { pc := j, jpc := some j, xmask := removed, st := .join })
              else if i == k.path then { p with xmask := m } else p
            let follow (h : Nat × FaultRec) : Nat × FaultRec := (if all && h.1 == k.path then e else h.1, h.2)
            let s := (splitPends s k.agent k.path e).updAgent k.agent fun y => { y with paths := y.paths.mapIdx move, inTrap := y.inTrap.map follow }
            let s := if all then joinPends s k.agent [k.path] e else s
            (trace s k.agent 6 k.path removed (extPc j e), .done)
    | _, _, _ => (s, .done)

def isRegroup (w : Slot) : Bool := match instrOf w with | .regroup _ => true | _ => false

/-- REGROUP (R110): the path is checked and arrives at the block's collective, once the rest of its bundle is over; lanes for which an
EXIT of the bundle holds have left by then (R101, R111). (DEDUCED, log 124) -/
def execRegroup (x : Sys) (s : State) : Host.Outcome State Fault Refusal :=
  instr s x.ctl { pilot := false, feature := some 7, regs := [(0, x.imm.toNat)] } fun k s =>
    match s.agent? k.agent, s.path? k.agent k.path with
    | some a, some q =>
      if (a.paths.filter fun p => p.st != .free).length > 1 || q.jpc.isSome then (s, .fault 0x04 k.lanes 0)
      else match q.bun with
        | some b =>
          if !b.rest.isEmpty || b.redo.any fun r => r.pc != k.pc && !(isRegroup (b.word r.pc) && k.pc < r.pc) then (s, .last)
          else if b.exits == 0 then (s, .wait (.regroup x.imm.toNat))
          else
            let s := (leaveLanes s k.agent k.path b.exits).updPath k.agent k.path fun q => { q with bun := some { b with exits := 0 } }
            if q.xmask &&& ~~~b.exits == 0 then (checkEmpty (mergeTest (freeEntry s k.agent k.path) k.agent) k.agent, .gone) else (s, .wait (.regroup x.imm.toNat))
        | none => (s, .gone)
    | _, _ => (s, .gone)

/-! ## REGROUP_COMPLETE (R111) -/

/-- A wave's single waiting path at a REGROUP, its counters at zero and its windows closed. (DEDUCED, log 124) -/
def atRegroup (s : State) (x : Agent) : Option (Nat × Path × Nat) :=
  if s.pend.any (fun q => q.agent == x.num && !q.wins.isEmpty) || x.d.any (· != 0) then none
  else (x.paths.mapIdx fun i p => (i, p)).findSome? fun (i, p) => match p.wait with
    | some (.regroup n) => some (i, p, n)
    | _ => none

/-- R111 step 2: receivers with their donors, in ascending WAVEINBLK order. -/
def pairWaves : List (Nat × Nat) → List Nat → List (Nat × Option Nat)
  | [], _ => []
  | (w, c) :: t, used =>
    if used.contains w then pairWaves t used
    else if c ≥ 32 then (w, none) :: pairWaves t used
    else match t.find? fun (u, cu) => !used.contains u && c + cu ≤ 32 with
      | some (u, _) => (w, some u) :: pairWaves t (u :: used)
      | none => (w, none) :: pairWaves t used

/-- The slot of the REGROUP that a path waits at. -/
def regroupPc (p : Path) : Dword := ((p.bun.bind (·.now)).map (·.1)).getD p.pc

/-- R111 steps 3 and 4: the registers of the lanes that a wave holds afterwards; what lies at or above n reads zero, and so does everything of
the lanes outside its XMASK. (DESIGN CHOICE, log 145) -/
def packRegs (n : Nat) (own : Regs × List Nat) (donor : Option (Regs × List Nat)) : Regs :=
  let srcs : List (Regs × Nat) := own.2.map (fun l => (own.1, l)) ++ (match donor with | some d => d.2.map (fun l => (d.1, l)) | none => [])
  let idx := srcs.mapIdx fun i x => (i, x)
  let v := idx.foldl (fun m (i, (r, l)) => (List.range n).foldl (fun m reg => mset 0 m (32 * reg + i) (r.get reg l)) m) []
  let p := idx.foldl (fun m (i, (r, l)) => mset 0 m i (mget 0 r.p l)) []
  { own.1 with v := v, p := p, arith := own.1.arith ||| ((donor.map fun d => d.1.arith).getD 0), mem := own.1.mem ||| ((donor.map fun d => d.1.mem).getD 0) }

/-- R111 for one set of waves, each with its waiting path index and n. (DEDUCED, log 124) -/
def regroupSet (s : State) (waves : List (Agent × Nat × Path × Nat)) : State :=
  let info (w : Nat) := waves.find? fun x => x.1.idx == w
  let pairs := pairWaves (waves.map fun x => (x.1.idx, popcount x.2.2.1.xmask)) []
  pairs.foldl (fun s (w, d) => match info w with
    | none => s
    | some (a, i, q, n) =>
      let dn := d.bind info
      let regs := packRegs n (a.regs, lanesOf q.xmask) (dn.map fun y => (y.1.regs, lanesOf y.2.2.1.xmask))
      let c := popcount q.xmask + (dn.map fun y => popcount y.2.2.1.xmask).getD 0
      let s := s.updBlock a.gang a.role fun b => { b with faults := orFault b.faults a.idx a.regs.fmask }
      let s := s.updAgent a.num fun y => { y with regs := { regs with fmask := 0 }, trOwed := true }
      let s := s.updPath a.num i fun p => { p with xmask := BitVec.ofNat 32 (2 ^ c - 1), bun := p.bun.map fun b => { b with nexts := [], branch := false, lanes := BitVec.ofNat 32 (2 ^ c - 1) } }
      let s := endSlot s a.num i .nothing
      match dn with
      | none => s
      | some y =>
        let s := trace s y.1.num 5 y.2.1 y.2.2.1.xmask []
        let s := s.updAgent y.1.num fun z => { z with paths := z.paths.map fun _ => {} }
        checkEmpty s y.1.num) s

/-- REGROUP_COMPLETE (R111): once every wave of the block that has not ended waits at a REGROUP, each set of waves at one
PC is packed and resumes. -/
def execRegroupComplete (g : GangKey) (role : Nat) (s : State) : Host.Outcome State Fault Refusal :=
  let waves := s.agents.filter fun x => x.gang == g && x.role == role && !x.pilot && !x.ended
  let at_ := waves.filterMap fun x => (atRegroup s x).map fun (i, p, n) => (x, i, p, n)
  if waves.isEmpty || at_.length != waves.length then event s
  else
    let ins (l : List (Agent × Nat × Path × Nat)) (x : Agent × Nat × Path × Nat) := (l.takeWhile fun y => y.1.idx < x.1.idx) ++ x :: l.dropWhile fun y => y.1.idx < x.1.idx
    let sorted := at_.foldl ins []
    let pcs := (sorted.map fun x => regroupPc x.2.2.1).eraseDups
    event (pcs.foldl (fun s pc => regroupSet s (sorted.filter fun x => regroupPc x.2.2.1 == pc)) s)

end Sys2Proof.Machine
end

