-- ==== Sys2Proof/Machine/Flags.lean ====
section
/-! DEFINITION. Flags and lane-wise results: how an arithmetic instruction writes its destination, ORs its flags into
ARITHSTAT and raises ARITH (R120, R121, R134). -/

namespace Sys2Proof.Machine

/-- The flags whose setting raises ARITH (R121). -/
def trapping (fl : Word) : Bool := fl &&& (flInvalid ||| flDivZero ||| flOverflow) != 0

/-- What one lane of an arithmetic instruction gives: 64 bits of result and its flags. -/
structure LaneOut where
  val : Dword
  fl : Word := 0
  deriving DecidableEq, Repr

/-- A lane result of 32 bits. -/
def LaneOut.of32 (w : Word) (fl : Word := 0) : LaneOut := { val := w.zeroExtend 64, fl := fl }
def LaneOut.ofNat (n : Nat) (fl : Word := 0) : LaneOut := { val := BitVec.ofNat 64 n, fl := fl }

/-- The results of the lanes of L, computed once each from the captured sources. -/
def laneOuts (k : Iss) (f : Nat → LaneOut) : List (Nat × LaneOut) := (lanesOf k.lanes).map fun l => (l, f l)

def outVal (os : List (Nat × LaneOut)) (l : Nat) : Dword := ((os.find? fun x => x.1 == l).map (·.2.val)).getD 0
def outFlags (os : List (Nat × LaneOut)) : Word := os.foldl (fun m x => m ||| x.2.fl) 0
/-- The lanes whose flags raise ARITH (R121, R430). -/
def outTraps (os : List (Nat × LaneOut)) : Word := maskOf ((os.filter fun x => trapping x.2.fl).map (·.1))

/-- The value writes of lane results: one register, or a pair. -/
def outWrites (d : Nat) (wide : Bool) (os : List (Nat × LaneOut)) : List (Nat × Word) :=
  os.flatMap fun (l, o) => (32 * d + l, o.val.extractLsb' 0 32) :: (if wide then [(32 * (d + 1) + l, o.val.extractLsb' 32 32)] else [])

/-- A fixed-latency arithmetic result (R134): registers, flags and the ARITH trap at once; not for registers that a higher slot of its
bundle has written (R55). -/
def putFixed (k : Iss) (s : State) (d : Nat) (wide : Bool) (f : Nat → LaneOut) : State × Fate :=
  let os := laneOuts k f
  let s := s.mapRegs k.agent fun r => r.setKeys ((outWrites d wide os).filter fun w => !k.kept.contains w.1)
  (k.flags s (outFlags os) (outTraps os), .done)

/-- A variable-latency arithmetic result: outstanding until it becomes visible (R65). -/
def putVar (k : Iss) (s : State) (g : Ctl) (d : Nat) (wide : Bool) (f : Nat → LaneOut) : State × Fate :=
  let os := laneOuts k f
  let tr := outTraps os
  (k.later s g { writes := outWrites d wide os, arith := outFlags os, traps := if tr == 0 then [] else [(0x50, tr, 0)] }, .done)

/-- The two latency classes by type (R83). -/
def put (var : Bool) (k : Iss) (s : State) (g : Ctl) (d : Nat) (wide : Bool) (f : Nat → LaneOut) : State × Fate :=
  if var then putVar k s g d wide f else putFixed k s d wide f

/-- A predicate result with flags (R151). -/
def putPred (k : Iss) (s : State) (p : Nat) (f : Nat → Bool × Word) : State × Fate :=
  let os := (lanesOf k.lanes).map fun l => (l, f l)
  let s := k.writePred s p fun l => (f l).1
  let fl := os.foldl (fun m (_, _, w) => m ||| w) 0
  (k.flags s fl (maskOf ((os.filter fun (_, _, w) => trapping w).map (·.1))), .done)

end Sys2Proof.Machine
end

