-- ==== Sys2Proof/Machine/Operands.lean ====
section
/-! DEFINITION. Operand forms: registers and immediates read under a type (R36, R75, R112, R135), and the needs that the
arithmetic classes share (R70, R409). -/

namespace Sys2Proof.Machine

/-- The B operand: a register, or the immediate that stands in its place (R60). -/
inductive Src where
  | reg (r : Nat)
  | imm (w : Word)
  deriving DecidableEq, Repr

/-- The low bits of a register, pair or narrow field that a type reads (R112). -/
def rawOf (r : Regs) (t : Ty) (reg lane : Nat) : Nat :=
  if t.bytes == 8 then (r.get64 reg lane).toNat else if t.bytes ≥ 4 then (r.get reg lane).toNat else (r.get reg lane).toNat % 2 ^ t.width

/-- A raw number read as signed of a width. -/
def signedOf (n w : Nat) : Int := if n ≥ 2 ^ (w - 1) then (n : Int) - (2 ^ w : Nat) else n

/-- A raw number under an integer type. -/
def intOf (t : Ty) (n : Nat) : Int := if t.isSigned then signedOf n t.width else n

def intAt (r : Regs) (t : Ty) (reg lane : Nat) : Int := intOf t (rawOf r t reg lane)

/-- An immediate widened for a type (R75, R135): sign-extended for .s64, zero-extended otherwise. -/
def immRaw (t : Ty) (w : Word) : Nat := if t == .s64 then (w.signExtend 64).toNat else w.toNat

/-- The B operand's raw bits under a type. -/
def Src.raw (b : Src) (r : Regs) (t : Ty) (lane : Nat) : Nat :=
  match b with
  | .reg x => rawOf r t x lane
  | .imm w => immRaw t w

def Src.int (b : Src) (r : Regs) (t : Ty) (lane : Nat) : Int := intOf t (b.raw r t lane)

/-- The B operand as one 32-bit register whatever the type (R139, R142, R143). -/
def Src.word (b : Src) (r : Regs) (lane : Nat) : Word :=
  match b with
  | .reg x => r.get x lane
  | .imm w => w

/-- Registers that a source names under a type. -/
def Src.names (b : Src) (n : Nat) : List (Nat × Nat) :=
  match b with
  | .reg x => [(x, n)]
  | .imm _ => []

/-- The low `w` bits of an integer. -/
def wrap (w : Nat) (x : Int) : Nat := (x % (2 ^ w : Nat)).toNat

/-- R409: A/B integer, logic, move, predicate; A/B float; S pipe. -/
def needInt (rs : List (Nat × Nat)) : Need := { regs := rs, base := 2, lane := 1 }
def needFloat (rs : List (Nat × Nat)) : Need := { regs := rs, base := 2, lane := 2 }
def needS (rs : List (Nat × Nat)) : Need := { regs := rs, base := 4, lane := 8 }

/-- The B operand of a V3 and of a VI instruction. -/
def srcV3 (x : V3) : Src := .reg x.b.toNat
def srcVI (x : VI) : Src := .imm x.imm

end Sys2Proof.Machine
end

