-- ==== Sys2Proof/Machine/Transc.lean ====
section
/-! DEFINITION. The functions of R154 as exact values, or as rational numbers near enough to round as the exact ones do:
an irrational value of these functions lies further from every FP32 number and midpoint than the error made here. -/

namespace Sys2Proof.Machine

/-- One Newton step after another towards the integer square root, from above. -/
def isqrtFrom (n : Nat) : Nat → Nat → Nat
  | 0, x => x
  | fuel + 1, x => let y := (x + n / x) / 2; if y < x then isqrtFrom n fuel y else x

/-- The floor of the square root. -/
def isqrt (n : Nat) : Nat := if n == 0 then 0 else isqrtFrom n 64 (2 ^ (Nat.log2 n / 2 + 1))

/-- The square root of a positive number with 400 fraction bits; an inexact one stands halfway to the next step, so that
it rounds as the exact root does. -/
def sqrtQ (x : Q) : Q :=
  let n := x.num.natAbs * 2 ^ 800
  let r := isqrt (n / x.den)
  if r * r * x.den == n then { num := r, den := 2 ^ 400 } else { num := 2 * r + 1, den := 2 ^ 401 }

/-- Fraction bits of the fixed-point series. -/
def fixBits : Nat := 320
def fixOne : Int := (2 ^ fixBits : Nat)

/-- A number in fixed point, rounded down. -/
def fixOf (x : Q) : Int := (x.num * fixOne).fdiv x.den

/-- The sum of a power series: each term is the last times `z` over the next divisor of a list. -/
def series (z : Int) : List Int → Int → Int
  | [], _ => 0
  | d :: ds, t => t + series z ds ((t * z).fdiv (fixOne * d))

/-- atanh z = z + z^3/3 + z^5/5 + ... for a small fixed-point z. -/
def atanhSum (z2 : Int) : Nat → Nat → Int → Int
  | 0, _, _ => 0
  | fuel + 1, k, t => t.fdiv k + atanhSum z2 fuel (k + 2) ((t * z2).fdiv fixOne)

def fixAtanh (z : Int) : Int := atanhSum ((z * z).fdiv fixOne) 120 1 z

/-- ln 2 = 2 atanh (1/3). -/
def fixLn2 : Int := 2 * fixAtanh (fixOne / 3)

/-- e^f for 0 ≤ f < 1. -/
def fixExp (f : Int) : Int := series f ((List.range 80).map fun k => ((k + 1 : Nat) : Int)) fixOne

/-- A fixed-point number as a rational. -/
def ofFix (x : Int) : Q := { num := x, den := 2 ^ fixBits }

/-- 2^x for a number in −400 … 400. -/
def exp2Q (x : Q) : Q :=
  let n := x.floor
  let f := x.sub (Q.ofInt n)
  if f.isZero then (Q.ofInt 1).shift n
  else (ofFix (fixExp ((fixOf f * fixLn2).fdiv fixOne))).shift n

/-- log2 x for a positive number. -/
def log2Q (x : Q) : Q :=
  let e := log2Floor x.num.natAbs x.den
  let m := x.shift (-e)
  if m.eq (Q.ofInt 1) then Q.ofInt e
  else
    let (e, m) := if (Q.mul m m).lt (Q.ofInt 2) then (e, m) else (e + 1, m.shift (-1))
    let z := (m.sub (Q.ofInt 1)).div (m.add (Q.ofInt 1))
    (Q.ofInt e).add { num := 2 * fixAtanh (fixOf z), den := fixLn2.natAbs }

/-- The arctangent of 1/k with 640 fraction bits. -/
def atanInv (k : Nat) : Nat → Nat → Int → Int
  | 0, _, _ => 0
  | fuel + 1, d, t => t.fdiv d + atanInv k fuel (d + 2) (-(t.fdiv (k * k : Nat)))

/-- π with 640 fraction bits (Machin). -/
def fixPi : Int :=
  let one : Int := (2 ^ 656 : Nat)
  let at_ (k : Nat) : Int := atanInv k 160 1 (one.fdiv k)
  (16 * at_ 5 - 4 * at_ 239).fdiv (2 ^ 16 : Nat)

def sinFix (r : Int) : Int :=
  series (-((r * r).fdiv fixOne)) ((List.range 40).map fun k => (((2 * k + 2) * (2 * k + 3) : Nat) : Int)) r

def cosFix (r : Int) : Int :=
  series (-((r * r).fdiv fixOne)) ((List.range 40).map fun k => (((2 * k + 1) * (2 * k + 2) : Nat) : Int)) fixOne

/-- The quarter turns of an angle and what remains, within π/4. -/
def reduceAngle (x : Q) : Nat × Int :=
  let big : Int := (x.num * (2 ^ 640 : Nat)).fdiv x.den
  let k := (2 * big + fixPi.fdiv 2).fdiv fixPi
  let r := big - (k * fixPi).fdiv 2
  ((k % 4).toNat, r.fdiv (2 ^ (640 - fixBits) : Nat))

/-- Whether a number is so small that two terms of its series decide the rounding. -/
def tinyArg (x : Q) : Bool := x.abs.lt ((Q.ofInt 1).shift (-40))

def cube (x : Q) : Q := x.mul (x.mul x)

/-- sin x for a nonzero number. -/
def sinQ (x : Q) : Q :=
  if tinyArg x then x.sub ((cube x).div (Q.ofInt 6))
  else
    let (k, r) := reduceAngle x
    ofFix (match k with | 0 => sinFix r | 1 => cosFix r | 2 => -sinFix r | _ => -cosFix r)

/-- cos x for a nonzero number. -/
def cosQ (x : Q) : Q :=
  if tinyArg x then (Q.ofInt 1).sub ((x.mul x).shift (-1))
  else
    let (k, r) := reduceAngle x
    ofFix (match k with | 0 => cosFix r | 1 => -sinFix r | 2 => -cosFix r | _ => sinFix r)

/-- tanh x for a nonzero number. -/
def tanhQ (x : Q) : Q :=
  let a := x.abs
  let t : Q :=
    if tinyArg x then a.sub ((cube a).div (Q.ofInt 3))
    else if (Q.ofInt 64).le a then (Q.ofInt 1).sub ((Q.ofInt 1).shift (-180))
    else
      let y := fixOf (a.shift 1)
      let n := y.fdiv fixLn2
      let ex := fixExp (y - n * fixLn2) * (2 ^ n.toNat : Nat)
      { num := ex - fixOne, den := (ex + fixOne).natAbs }
  if x.isNeg then t.neg else t

/-- The functions of R154. -/
inductive Fn where
  | rcp | rsq | sqrt | ex2 | lg2 | sin | cos | tanh
  deriving DecidableEq, Repr

/-- The largest and smallest powers that matter for FEX2: beyond them the result over- or underflows alike. -/
def clampExp (x : Q) : Q := if (Q.ofInt 300).lt x then Q.ofInt 300 else if x.lt (Q.ofInt (-300)) then Q.ofInt (-300) else x

/-- R154: f(a) as an exact value, with the flags that its special operands set. (UNVERIFIED, log 29) -/
def fnX (f : Fn) (a : X) : X × Word :=
  match a with
  | .nan s => (.nan false, if s then flInvalid else 0)
  | .zero n => match f with
    | .rcp | .rsq => (.inf n, flDivZero)
    | .lg2 => (.inf true, flDivZero)
    | .ex2 | .cos => (.fin (Q.ofInt 1), 0)
    | .sqrt | .sin | .tanh => (.zero n, 0)
  | .inf n => match f with
    | .rcp => (.zero n, 0)
    | .rsq => if n then (.nan false, flInvalid) else (.zero false, 0)
    | .sqrt | .lg2 => if n then (.nan false, flInvalid) else (.inf false, 0)
    | .ex2 => if n then (.zero false, 0) else (.inf false, 0)
    | .sin | .cos => (.nan false, flInvalid)
    | .tanh => (.fin (Q.ofInt (if n then -1 else 1)), 0)
  | .fin q => match f with
    | .rcp => (.fin q.inv, 0)
    | .rsq => if q.isNeg then (.nan false, flInvalid) else (.fin (sqrtQ q.inv), 0)
    | .sqrt => if q.isNeg then (.nan false, flInvalid) else (.fin (sqrtQ q), 0)
    | .ex2 => (.fin (exp2Q (clampExp q)), 0)
    | .lg2 => if q.isNeg then (.nan false, flInvalid) else (X.ofQ (log2Q q), 0)
    | .sin => (.fin (sinQ q), 0)
    | .cos => (.fin (cosQ q), 0)
    | .tanh => (.fin (tanhQ q), 0)

end Sys2Proof.Machine
end

