-- ==== Sys2Proof/Machine/FloatArith.lean ====
section
/-! DEFINITION. Floating-point instructions: FP32, transcendentals, packed 16-bit, dot product, FP64, conversion and packing
(R148-R160). -/

namespace Sys2Proof.Machine

/-- A float instruction: one result per lane from the captured sources under the instruction's rounding mode. -/
def floatOp (s : State) (g : Ctl) (nd : Need) (var wide : Bool) (d : Nat) (mode : Word → Mode) (f : Regs → Mode → Nat → LaneOut) :
    Host.Outcome State Fault Refusal :=
  instr s g { nd with regs := (d, if wide then 2 else 1) :: nd.regs } fun k s => put var k s g d wide fun l => f k.src (mode k.src.rnd) l

/-- An exact result rounded into a format, as a lane result. -/
def laneRound (r : X × Word) (f : Fmt) (mode : Mode) (sat : Bool) : LaneOut :=
  let (bits, fl) := roundWith r f mode sat
  .ofNat bits fl

/-- Two sources of a float format in whole registers. -/
def fltAB (s : State) (g : Ctl) (mode : Word → Mode) (sat : Bool) (d a : Nat) (b : Src) (op : Mode → X → X → X × Word) :
    Host.Outcome State Fault Refusal :=
  floatOp s g (needFloat ((a, 1) :: b.names 1)) false false d mode fun r m l =>
    laneRound (op m (f32 (r.get a l)) (f32 (b.word r l))) fmtF32 m sat

def fltABC (s : State) (g : Ctl) (mode : Word → Mode) (sat : Bool) (d a : Nat) (b : Src) (c : Nat) :
    Host.Outcome State Fault Refusal :=
  floatOp s g (needFloat ((a, 1) :: (c, 1) :: b.names 1)) false false d mode fun r m l =>
    laneRound (fmaX m (f32 (r.get a l)) (f32 (b.word r l)) (f32 (r.get c l))) fmtF32 m sat

def addX (m : Mode) (a b : X) : X × Word := sumX m [a, b]
def prodX (_ : Mode) (a b : X) : X × Word := mulX a b

def execFadd (x : V3) (s : State) : Host.Outcome State Fault Refusal :=
  fltAB s x.ctl (modeOf x.rnd) x.sat x.d.toNat x.a.toNat (srcV3 x) addX

def execFaddImm (x : VI) (s : State) : Host.Outcome State Fault Refusal :=
  fltAB s x.ctl (modeOfCode x.rndCode) x.sat x.d.toNat x.a.toNat (srcVI x) addX

def execFmul (x : V3) (s : State) : Host.Outcome State Fault Refusal :=
  fltAB s x.ctl (modeOf x.rnd) x.sat x.d.toNat x.a.toNat (srcV3 x) prodX

def execFmulImm (x : VI) (s : State) : Host.Outcome State Fault Refusal :=
  fltAB s x.ctl (modeOfCode x.rndCode) x.sat x.d.toNat x.a.toNat (srcVI x) prodX

def execFfma (x : V3) (s : State) : Host.Outcome State Fault Refusal :=
  fltABC s x.ctl (modeOf x.rnd) x.sat x.d.toNat x.a.toNat (srcV3 x) x.c.toNat

def execFfmaImm (x : VI) (s : State) : Host.Outcome State Fault Refusal :=
  fltABC s x.ctl (modeOfCode x.rndCode) x.sat x.d.toNat x.a.toNat (srcVI x) x.c.toNat

/-- R150: an operand unrounded. -/
def fltMinmax (s : State) (g : Ctl) (isMax : Bool) (d a : Nat) (b : Src) : Host.Outcome State Fault Refusal :=
  floatOp s g (needFloat ((a, 1) :: b.names 1)) false false d (fun _ => 0) fun r _ l =>
    let (bits, fl) := minmaxBits fmtF32 isMax (r.get a l).toNat (b.word r l).toNat
    .ofNat bits fl

def execFmin (x : V3) (s : State) : Host.Outcome State Fault Refusal := fltMinmax s x.ctl false x.d.toNat x.a.toNat (srcV3 x)
def execFminImm (x : VI) (s : State) : Host.Outcome State Fault Refusal := fltMinmax s x.ctl false x.d.toNat x.a.toNat (srcVI x)
def execFmax (x : V3) (s : State) : Host.Outcome State Fault Refusal := fltMinmax s x.ctl true x.d.toNat x.a.toNat (srcV3 x)
def execFmaxImm (x : VI) (s : State) : Host.Outcome State Fault Refusal := fltMinmax s x.ctl true x.d.toNat x.a.toNat (srcVI x)

/-- The comparison codes of FSET (R151). -/
def fsetOf (cc : Nat) (a b : X) : Bool :=
  let nan := a.isNan || b.isNan
  let c := cmpX a b
  match cc with
  | 6 => !nan
  | 7 => nan
  | _ =>
    if nan then cc ≥ 8
    else match cc % 8 with
      | 0 => c == 0
      | 1 => c != 0
      | 2 => c < 0
      | 3 => c ≤ 0
      | 4 => c > 0
      | _ => c ≥ 0

def fltSet (s : State) (g : Ctl) (p a : Nat) (b : Src) (cc : Nat) : Host.Outcome State Fault Refusal :=
  instr s g (needFloat ((a, 1) :: b.names 1)) fun k s =>
    putPred k s p fun l =>
      let x := f32 (k.src.get a l)
      let y := f32 (b.word k.src l)
      (fsetOf cc x y, if x.sig || y.sig then flInvalid else 0)

def execFset (x : V3) (s : State) : Host.Outcome State Fault Refusal := fltSet s x.ctl x.d.toNat x.a.toNat (srcV3 x) x.fl.toNat
def execFsetImm (x : VI) (s : State) : Host.Outcome State Fault Refusal := fltSet s x.ctl x.d.toNat x.a.toNat (srcVI x) x.fl.toNat

/-- The class of an encoding (R152), as a bit number. -/
def classBit (f : Fmt) (bits : Nat) : Nat :=
  match f.value bits with
  | .inf true => 0
  | .inf false => 7
  | .zero true => 3
  | .zero false => 4
  | .nan true => 8
  | .nan false => 9
  | .fin q =>
    let sub := bits % 2 ^ (f.e + f.m) < 2 ^ f.m
    if q.isNeg then (if sub then 2 else 1) else (if sub then 5 else 6)

def execFclass (x : V3) (s : State) : Host.Outcome State Fault Refusal :=
  floatOp s x.ctl (needFloat [(x.a.toNat, 1)]) false false x.d.toNat (fun _ => 0) fun r _ l =>
    .ofNat (2 ^ classBit ((fmtOf x.ty).getD fmtF32) (rawOf r x.ty x.a.toNat l))

/-- R153. -/
def frndOf (a : Word) (m : Mode) : LaneOut :=
  match f32 a with
  | .nan s => .of32 qnan32 (if s then flInvalid else 0)
  | .fin q =>
    if (Q.ofInt (2 ^ 23 : Nat)).le q.abs then .of32 a
    else
      let n := roundInt q m
      if n == 0 then .of32 (if q.isNeg then 0x80000000 else 0) flInexact
      else .of32 (toF32 (X.ofQ (Q.ofInt n))) (if (Q.ofInt n).eq q then 0 else flInexact)
  | _ => .of32 a

def execFrnd (x : V3) (s : State) : Host.Outcome State Fault Refusal :=
  floatOp s x.ctl (needFloat [(x.a.toNat, 1)]) false false x.d.toNat (modeOf x.rnd) fun r m l => frndOf (r.get x.a.toNat l) m

/-- R154: the exact function value rounded once. -/
def fltFn (s : State) (x : V3) (f : Fn) : Host.Outcome State Fault Refusal :=
  floatOp s x.ctl (needS [(x.a.toNat, 1)]) true false x.d.toNat (modeOf x.rnd) fun r m l =>
    laneRound (fnX f (f32 (r.get x.a.toNat l))) fmtF32 m x.sat

def execFrcp (x : V3) (s : State) : Host.Outcome State Fault Refusal := fltFn s x .rcp
def execFrsq (x : V3) (s : State) : Host.Outcome State Fault Refusal := fltFn s x .rsq
def execFsqrt (x : V3) (s : State) : Host.Outcome State Fault Refusal := fltFn s x .sqrt
def execFex2 (x : V3) (s : State) : Host.Outcome State Fault Refusal := fltFn s x .ex2
def execFlg2 (x : V3) (s : State) : Host.Outcome State Fault Refusal := fltFn s x .lg2
def execFsin (x : V3) (s : State) : Host.Outcome State Fault Refusal := fltFn s x .sin
def execFcos (x : V3) (s : State) : Host.Outcome State Fault Refusal := fltFn s x .cos
def execFtanh (x : V3) (s : State) : Host.Outcome State Fault Refusal := fltFn s x .tanh

/-! ## Packed 16-bit arithmetic (R155) -/

/-- The half that a selection presents in a place: 0 low, 1 high. -/
def present (sel place : Nat) (w : Word) : Nat :=
  let hi := match sel with | 0 => place == 1 | 1 => false | 2 => true | _ => place == 0
  if hi then w.toNat / 65536 else w.toNat % 65536

/-- The three operations. -/
inductive HOp where
  | add | mul | fma
  deriving DecidableEq, Repr

def HOp.run (o : HOp) (m : Mode) (a b c : X) : X × Word :=
  match o with
  | .add => addX m a b
  | .mul => mulX a b
  | .fma => fmaX m a b c

/-- Both halves computed, each in its own format. -/
def packed (o : HOp) (f : Fmt) (fl : Nat) (m : Mode) (sat : Bool) (a b c : Word) : LaneOut :=
  let half (h : Nat) : Nat × Word :=
    roundWith (o.run m (f.value (present (fl / 4) h a)) (f.value (present (fl % 4) h b)) (f.value (present 0 h c))) f m sat
  let (lo, f0) := half 0
  let (hi, f1) := half 1
  .ofNat (hi * 65536 + lo) (f0 ||| f1)

def packedOp (s : State) (g : Ctl) (mode : Word → Mode) (o : HOp) (f : Fmt) (fl : Nat) (sat : Bool) (d a : Nat) (b : Src) (c : Nat) :
    Host.Outcome State Fault Refusal :=
  floatOp s g (needFloat ((a, 1) :: (if o == .fma then [(c, 1)] else []) ++ b.names 1)) false false d mode fun r m l =>
    packed o f fl m sat (r.get a l) (b.word r l) (r.get c l)

def packedV3 (s : State) (x : V3) (o : HOp) (f : Fmt) : Host.Outcome State Fault Refusal :=
  packedOp s x.ctl (modeOf x.rnd) o f x.fl.toNat x.sat x.d.toNat x.a.toNat (srcV3 x) x.c.toNat

def packedVI (s : State) (x : VI) (o : HOp) (f : Fmt) : Host.Outcome State Fault Refusal :=
  packedOp s x.ctl (modeOfCode x.rndCode) o f x.fl.toNat x.sat x.d.toNat x.a.toNat (srcVI x) x.c.toNat

def execHadd2 (x : V3) (s : State) : Host.Outcome State Fault Refusal := packedV3 s x .add fmtF16
def execHadd2Imm (x : VI) (s : State) : Host.Outcome State Fault Refusal := packedVI s x .add fmtF16
def execHmul2 (x : V3) (s : State) : Host.Outcome State Fault Refusal := packedV3 s x .mul fmtF16
def execHmul2Imm (x : VI) (s : State) : Host.Outcome State Fault Refusal := packedVI s x .mul fmtF16
def execHfma2 (x : V3) (s : State) : Host.Outcome State Fault Refusal := packedV3 s x .fma fmtF16
def execHfma2Imm (x : VI) (s : State) : Host.Outcome State Fault Refusal := packedVI s x .fma fmtF16
def execBadd2 (x : V3) (s : State) : Host.Outcome State Fault Refusal := packedV3 s x .add fmtBf16
def execBadd2Imm (x : VI) (s : State) : Host.Outcome State Fault Refusal := packedVI s x .add fmtBf16
def execBfma2 (x : V3) (s : State) : Host.Outcome State Fault Refusal := packedV3 s x .fma fmtBf16
def execBfma2Imm (x : VI) (s : State) : Host.Outcome State Fault Refusal := packedVI s x .fma fmtBf16

/-! ## FDOT4 and FP64 (R156, R157) -/

/-- An encoding's exact value under a numeric type (R112-R115). An integer zero counts as +0. (DEDUCED, log 136) -/
def valueOf (t : Ty) (raw : Nat) : X :=
  match fmtOf t with
  | some f => f.value raw
  | none => X.ofQ (Q.ofInt (intOf t raw))

/-- Element i of four packed bytes. -/
def byteEl (t : Ty) (w : Word) (i : Nat) : X := valueOf t (w.toNat / 256 ^ i % 256)

/-- Exact products added to an addend (R148, R156). -/
def dotX (m : Mode) (c : X) (xs : List (X × X)) : X × Word :=
  let ps := xs.map fun (a, b) => mulX a b
  let (t, fl) := sumX m (c :: ps.map (·.1))
  (t, ps.foldl (fun f p => f ||| p.2) fl)

def execFdot4 (x : V3) (s : State) : Host.Outcome State Fault Refusal :=
  let tb := if x.opx == 0 then x.ty else (tyOfCode x.opx.toNat).getD x.ty
  floatOp s x.ctl (needFloat [(x.a.toNat, 1), (x.b.toNat, 1), (x.c.toNat, 1)]) false false x.d.toNat (modeOf x.rnd) fun r m l =>
    laneRound (dotX m (f32 (r.get x.c.toNat l)) ((List.range 4).map fun i => (byteEl x.ty (r.get x.a.toNat l) i, byteEl tb (r.get x.b.toNat l) i))) fmtF32 m x.sat

def f64At (r : Regs) (reg l : Nat) : X := fmtF64.value (r.get64 reg l).toNat

def dblOp (s : State) (x : V3) (o : HOp) : Host.Outcome State Fault Refusal :=
  floatOp s x.ctl { needS ([(x.a.toNat, 2), (x.b.toNat, 2)] ++ if o == .fma then [(x.c.toNat, 2)] else []) with feature := some 6 } true true x.d.toNat (modeOf x.rnd) fun r m l =>
    laneRound (o.run m (f64At r x.a.toNat l) (f64At r x.b.toNat l) (f64At r x.c.toNat l)) fmtF64 m x.sat

def execDadd (x : V3) (s : State) : Host.Outcome State Fault Refusal := dblOp s x .add
def execDmul (x : V3) (s : State) : Host.Outcome State Fault Refusal := dblOp s x .mul
def execDfma (x : V3) (s : State) : Host.Outcome State Fault Refusal := dblOp s x .fma

/-! ## Conversion and packing (R158-R160) -/

/-- An integer as a register, or pair, holds it under a type (R112): narrow signed types sign-extended. -/
def putInt (t : Ty) (x : Int) : Nat := wrap (max t.width 32) x

/-- R158. -/
def cvtOf (td ts : Ty) (raw : Nat) (m : Mode) (sat : Bool) : LaneOut :=
  let x := valueOf ts raw
  let fl : Word := if x.sig then flInvalid else 0
  match fmtOf td, fmtOf ts with
  | some f, _ => laneRound (x, fl) f m sat
  | none, some _ => let (n, g) := toInt x td m; .ofNat (putInt td n) (fl ||| g)
  | none, none =>
    if sat then let (c, out) := clampTo td x.q.num; .ofNat (putInt td c) (if out then flSat else 0)
    else .ofNat (putInt td (intOf td (wrap td.width x.q.num)))

def execCvt (x : V3) (s : State) : Host.Outcome State Fault Refusal :=
  let ts := (x.srcTy).getD .none
  let dbl := x.ty == .f64 || ts == .f64
  let nd := if dbl then { needS [(x.a.toNat, ts.nregs)] with feature := some 6 } else needFloat [(x.a.toNat, ts.nregs)]
  floatOp s x.ctl nd dbl (x.ty.bytes == 8) x.d.toNat (modeOf x.rnd) fun r m l => cvtOf x.ty ts (rawOf r ts x.a.toNat l) m x.sat

/-- Bits of a register replaced. -/
def setField (x : Nat) (lo w v : Nat) : Nat := x - x / 2 ^ lo % 2 ^ w * 2 ^ lo + v * 2 ^ lo

def execCpack (x : V3) (s : State) : Host.Outcome State Fault Refusal :=
  let w := packWidth x.ty
  let f := (fmtOf x.ty).getD fmtF16
  let j := x.opx.toNat
  floatOp s x.ctl (needFloat [(x.a.toNat, 1), (x.b.toNat, 1)]) false false x.d.toNat (modeOf x.rnd) fun r m l =>
    let el (reg : Nat) : Nat × Word := let v := f32 (r.get reg l); roundWith (v, if v.sig then flInvalid else 0) f m x.sat
    let (e0, f0) := el x.a.toNat
    let (e1, f1) := el x.b.toNat
    .ofNat (setField (setField (r.get x.d.toNat l).toNat (2 * j * w) w e0) ((2 * j + 1) * w) w e1) (f0 ||| f1)

/-- CUNPK (R160): a signalling NaN of any of its types sets invalid. (DEDUCED, log 148) -/
def execCunpk (x : V3) (s : State) : Host.Outcome State Fault Refusal :=
  let w := packWidth x.ty
  let f := (fmtOf x.ty).getD fmtF16
  floatOp s x.ctl (needFloat [(x.a.toNat, 1)]) false false x.d.toNat (fun _ => 0) fun r m l =>
    let v := f.value ((r.get x.a.toNat l).toNat / 2 ^ (x.opx.toNat * w) % 2 ^ w % 2 ^ f.bits)
    laneRound (v, if v.sig then flInvalid else 0) fmtF32 m false

end Sys2Proof.Machine
end

