-- ==== Sys2Proof/Machine/Blocks.lean ====
section
/-! DEFINITION. Tagged blocks of formatted pages and tiles: geometry (R122, R123), element formats (R124), check, decoding
and encoding (R125, R126, R128). -/

namespace Sys2Proof.Machine

/-- Slot bits of a page format (R122). -/
def slotBits (fmt : Nat) : Nat := match fmt with | 1 => 4 | 2 => 6 | _ => 8

/-- Bytes of a block with slots of s bits (R123). -/
def strideOf (slot : Nat) : Nat := 2 + 4 * slot

/-- What a block's tag selects (R124). -/
inductive Elt where
  | flt (f : Fmt)
  | int (bits : Nat)
  | reserved
  | zero
  deriving DecidableEq, Repr

def eltOf (slot tag : Nat) : Elt :=
  match tag, slot with
  | 3, _ => .zero
  | 0, 4 => .flt fmtE2m1
  | 1, 4 => .int 4
  | 2, 4 => .reserved
  | 0, 6 => .flt fmtE2m3
  | 1, 6 => .flt fmtE3m2
  | 2, 6 => .int 6
  | 0, _ => .flt fmtE4m3
  | 1, _ => .flt fmtE5m2
  | _, _ => .int 8

/-- The exact value of an element code under its format. -/
def Elt.value (e : Elt) (code : Nat) : X :=
  match e with
  | .flt f => f.value code
  | .int w => X.ofQ (Q.ofInt (signedOf code w))
  | _ => .zero false

/-- Times a power of two: exact, −0 stays −0. -/
def X.scale (x : X) (k : Int) : X :=
  match x with
  | .fin q => .fin (q.shift k)
  | y => y

/-- A block as one little-endian bit string. -/
def blkBits (bs : List Byte) : Nat := leNat bs

def blkScale (b : Nat) : Nat := b / 256 % 256
def blkTag (b : Nat) : Nat := b / 64 % 4
def blkCode (b slot i : Nat) : Nat := b / 2 ^ (16 + slot * i) % 2 ^ slot

/-- One bit of the CRC-6 (R126). -/
def crcStep (c : Nat) (bit : Nat) : Nat :=
  let f := (c / 32 + bit) % 2
  let c := c * 2 % 64
  if f == 1 then c ^^^ 3 else c

/-- CheckOf (R126). -/
def checkOf (b slot : Nat) : Nat :=
  (List.range (8 * strideOf slot - 6)).foldl (fun c i => crcStep c (b / 2 ^ (6 + i) % 2)) 0

/-- What a decoding read of a block finds (R125). -/
inductive BlockRead where
  | fail (poison : Bool)
  | nan
  | vals (f : Nat → X)

def readBlock (b slot : Nat) : BlockRead :=
  if checkOf b slot != b % 64 then .fail true
  else match eltOf slot (blkTag b) with
    | .reserved => .fail false
    | .zero => .vals fun _ => .zero false
    | e => if blkScale b == 255 then .nan else .vals fun i => (e.value (blkCode b slot i)).scale ((blkScale b : Int) - 127)

/-- A decoded element delivered to a target type (R125): its bits, arithmetic flags and MEMSTAT bits. -/
def deliver (r : BlockRead) (i : Nat) (t : Ty) : Nat × Word × Word :=
  match r, fmtOf t with
  | .fail true, some f => (f.qnan, 0, 3)
  | .fail true, none => (0, 0, 3)
  | .fail false, _ => (0, 0, 2)
  | .nan, some f => (f.qnan, flInvalid, 0)
  | .nan, none => (0, flInvalid, 0)
  | .vals v, some f => let x := v i; let (b, fl) := roundFmt x f 0 false; (b, fl ||| (if x.sig then flInvalid else 0), 0)
  | .vals v, none => let x := v i; let (n, fl) := toInt x t 0; (wrap t.width n, fl ||| (if x.sig then flInvalid else 0), 0)

/-! ## Encoding (R128) -/

/-- An encoded block: scale, tag, the 32 codes, and the flags of the chosen tag's rounding. -/
structure Encoded where
  scale : Nat
  tag : Nat
  codes : List Nat
  fl : Word := 0
  deriving DecidableEq, Repr

/-- Emax of a tag's format (R128). -/
def emax (slot tag : Nat) : Int :=
  match slot, tag with
  | 4, _ => 2
  | 6, 0 => 2
  | 6, _ => 4
  | _, 0 => 8
  | _, 1 => 15
  | _, _ => 6

/-- One tag tried: its scale, its codes, its flags and its exact error. -/
def encodeTag (slot tag : Nat) (xs : List X) : Encoded × Q :=
  let big := xs.foldl (fun m x => m.max x.q.abs) (Q.ofInt 0)
  let k0 : Int := log2Floor big.num.natAbs big.den - emax slot tag + 127
  let k : Int := if k0 < 0 then 0 else if k0 > 254 then 254 else k0
  let one (x : X) : Nat × Word × Q :=
    let y := x.scale (127 - k)
    match eltOf slot tag with
    | .int w =>
      let n := roundInt y.q 0
      let lo : Int := -(2 ^ (w - 1) : Nat)
      let hi : Int := (2 ^ (w - 1) : Nat) - 1
      let c := if n < lo then lo else if n > hi then hi else n
      (wrap w c, (if c != n then flInvalid ||| flSat else 0) ||| (if (Q.ofInt c).eq y.q then 0 else flInexact), (x.q.sub ((Q.ofInt c).shift (k - 127))).abs)
    | .flt f =>
      let (b, fl) := roundFmt y f 0 true
      (b, fl, (x.q.sub ((f.value b).q.shift (k - 127))).abs)
    | _ => (0, 0, Q.ofInt 0)
  let rs := xs.map one
  ({ scale := k.toNat, tag := tag, codes := rs.map (·.1), fl := rs.foldl (fun m r => m ||| r.2.1) 0 }, rs.foldl (fun e r => (e.add r.2.2).norm) (Q.ofInt 0))

/-- R128: 32 values encoded with slots of `slot` bits under one tag, or under AUTO. A block with a NaN, a signalling one too, sets no
flag. (DEDUCED, log 134) -/
def encodeBlock (slot : Nat) (tag : Option Nat) (xs : List X) : Encoded :=
  if xs.all fun x => match x with | .zero _ => true | _ => false then { scale := 127, tag := 3, codes := List.replicate 32 0 }
  else if xs.any X.isNan then { scale := 255, tag := 0, codes := List.replicate 32 0 }
  else
    let sat := xs.any fun x => match x with | .inf _ => true | _ => false
    let big := fmtF32.magnitude fmtF32.maxCode
    let ys := xs.map fun x => match x with | .inf n => X.fin (if n then big.neg else big) | y => y
    let tags := match tag with
      | some t => [t]
      | none => if slot == 4 then [0, 1] else [0, 1, 2]
    let tries := tags.map fun t => encodeTag slot t ys
    let best := tries.foldl (fun (b : Option (Encoded × Q)) t => match b with
      | some c => if t.2.lt c.2 then some t else some c
      | none => some t) none
    match best with
    | some (e, _) => { e with fl := e.fl ||| (if sat then flSat else 0) }
    | none => { scale := 127, tag := 3, codes := List.replicate 32 0 }

/-- The bytes of a block with its check (R123, R126). -/
def blockBytes (slot scale tag : Nat) (codes : List Nat) : List Byte :=
  let payload := (codes.mapIdx fun i c => c % 2 ^ slot * 2 ^ (16 + slot * i)).foldl (· + ·) 0
  let b := payload + scale * 256 + tag * 64
  leBytes (strideOf slot) (b + checkOf b slot)

/-- Where a block lies in its page (R123): its number when the offset is a block start, and the blocks of the page. -/
def blockIndex (logSize slot off : Nat) : Option Nat :=
  let st := strideOf slot
  if off % st == 0 && off / st < 2 ^ logSize / st then some (off / st) else none

def blocksIn (logSize slot : Nat) : Nat := 2 ^ logSize / strideOf slot

end Sys2Proof.Machine
end

