-- ==== Sys2Proof/Machine/Access.lean ====
section
/-! DEFINITION. What every access instruction shares: addresses (R249), the two stages of checks (R251), reckoned misses
(R354), what completed and what parks, poison (R252, R360, R488). -/

namespace Sys2Proof.Machine

/-- An address plus a signed offset, modulo 2^64 (R249). -/
def eaOf (base : Dword) (off : Int) : Nat := (((base.toNat : Int) + off) % (2 ^ 64 : Nat)).toNat

/-- The offset of a global or scratchpad form: EXT[23:0], or EXT[19:0] of the atomics (R249). -/
def memOff (x : Mem) : Int := x.off.toInt
def memOff20 (x : Mem) : Int := (x.off.extractLsb' 0 20).toInt

/-- Effective addresses of the lanes of L. -/
def Iss.eas (k : Iss) (a : Nat) (off : Int) : List (Nat × Nat) := (lanesOf k.lanes).map fun l => (l, eaOf (k.src.get64 a l) off)

/-- A lane's translated address. -/
structure Spot where
  lane : Nat
  va : Nat
  sp : Sp
  addr : Nat
  leaf : Leaf
  deriving DecidableEq, Repr

/-- What the checks of R251 leave: a fault of the whole instruction with INFO, or the lanes that go on and those that
miss. -/
inductive Lanes where
  | fault (code info : Nat)
  | go (ok : List Spot) (miss : List (Nat × Miss))

/-- R251 over lanes with their addresses: alignment, permission and `rule`'s own admission (a fault code), then misses. -/
def checkLanes (s : State) (g : GangKey) (sup : Bool) (want : Want) (size : Nat) (eas : List (Nat × Nat)) (rule : Spot → Option Nat) : Lanes :=
  let c := s.ctxOf g
  match eas.find? fun (_, va) => va % size != 0 with
  | some (_, va) => .fault 0x03 va
  | none =>
    let rs := eas.map fun (l, va) => (l, va, tr s c sup want va)
    let spot (r : Nat × Nat × Tr) : Option (Spot × Option Nat) := match r.2.2 with
      | .ok sp a leaf => let p : Spot := { lane := r.1, va := r.2.1, sp := sp, addr := a, leaf := leaf }; some (p, rule p)
      | _ => none
    let spots := rs.filterMap spot
    match spots.find? fun p => p.2 == some 0x03 with
    | some (p, _) => .fault 0x03 p.va
    | none =>
      match rs.find? fun r => r.2.2 == .perm || ((spot r).map fun p => p.2.isSome).getD false with
      | some (_, va, _) => .fault 0x11 va
      | none => .go (spots.map (·.1)) (rs.filterMap fun r => match r.2.2 with | .miss m => some (r.1, m) | _ => none)

/-- The translations that lanes used are kept (R392). -/
def touchAll (s : State) (g : GangKey) (vas : List Nat) : State :=
  (vas.map (· / 4096)).eraseDups.foldl (fun s p => touch s (s.ctxOf g) (p * 4096)) s

/-! ## Reckoned lines (R354) -/

def missOf (s : State) (n p : Nat) : Misser :=
  let f := s.agentFill n
  { who := .path n p, fill := f.map (·.id), depth := (f.map (·.depth)).getD 0, prio := s.agentPrio n, deadline := s.agentDeadline n,
    clock := ((s.agent? n).map (·.clock)).getD 0 }

/-- What became of the reckoned lines of one lane, or of one unit read. -/
inductive Rk where
  | present
  | wait (resource : Bool)
  | poison (code : Nat)
  deriving DecidableEq, Repr

/-- The lines of a reckoned span that an access of a path needs, one after another. Lines whose fill ended without them
complete with poison once (R362). -/
def rkLines (s : State) (n p : Nat) (c : Ctx) (idx : Nat) (lines : List Nat) : Rk × State :=
  let aborted (l : Nat) : Bool := ((s.path? n p).map fun q => q.abort.contains (c.asn, l)).getD false
  lines.foldl (fun (acc, s) l => match acc with
    | .poison code => (.poison code, s)
    | acc =>
      if aborted l then (.poison 0x14, s)
      else
        let (go, s) := rkAccess s c idx l (missOf s n p) false
        match go with
        | .present => (acc, s)
        | .parked => (.wait false, s)
        | .resource => (if acc == .wait false then acc else .wait true, s)
        | .poison code => (.poison code, s)) (.present, s)

/-- The reckoned lines of a span of bytes at a spot. -/
def spanLines (va len : Nat) : List Nat := (List.range ((va + (len - 1)) / 128 - va / 128 + 1)).map (va / 128 + ·)

def rkSpot (s : State) (n p : Nat) (g : GangKey) (t : Spot) (va len : Nat) : Rk × State :=
  if t.leaf.rk then rkLines s n p (s.ctxOf g) (t.leaf.pfn % 4096) (spanLines va len) else (.present, s)

/-- The aborted lines that an instruction has met are forgotten. -/
def forgetAborts (s : State) (n p asn : Nat) (lines : List Nat) : State :=
  s.updPath n p fun q => { q with abort := q.abort.filter fun (a, l) => !(a == asn && lines.contains l) }

/-- A wave that has waited for a fill replays with its clock at least at the fill's stores (R243). -/
def raiseClock (s : State) (n : Nat) (asn line : Nat) : State :=
  let ts := s.stampOf (.rk asn) line
  s.updAgent n fun x => { x with clock := max x.clock ts.wts }

/-- A read that completes with a fill's poison is a load that returns no value (R244): what the agent loaded before is not its last load. -/
def poisonedLoad (s : State) (n : Nat) : State := s.updAgent n fun x => { x with lastRel := [] }

/-! ## Parking (R251, R353, R354, R393) -/

/-- What stands in the way of an access's unfinished lanes. -/
structure Blocked where
  miss : List (Nat × Miss) := []
  wait : List (Nat × Bool) := []
  deriving DecidableEq, Repr

def Blocked.lanes (b : Blocked) : Word := maskOf (b.miss.map (·.1) ++ b.wait.map (·.1))

/-- The end of an access instruction whose lanes have completed but for those blocked. -/
def parkOrDone (s : State) (k : Iss) (b : Blocked) : State × Fate :=
  match b.miss with
  | (_, m) :: more =>
    let (why, s) := missPark s k.gang k.agent k.path k.replay m (more.map (·.2))
    (s, .park b.lanes why)
  | [] =>
    match b.wait with
    | [] => (s.updPath k.agent k.path fun q => if ((q.bun.map fun b => decide (b.redo.length ≤ 1)).getD true) then { q with abort := [] } else q, .done)
    | ws => (s, .park b.lanes (if ws.all (·.2) then .resource s.tick else .reckon s.tick))

/-! ## Values (R112, R248, R252) -/

/-- The registers a loaded value of a type fills. -/
def regWords (t : Ty) (n : Nat) : List Word :=
  let m := if t.isSigned then wrap (max t.width 32) (signedOf n t.width) else n
  (List.range t.nregs).map fun j => BitVec.ofNat 32 (m / 2 ^ (32 * j))

/-- The writes of one lane. -/
def laneRegs (d l : Nat) (t : Ty) (n : Nat) : List (Nat × Word) := (regWords t n).mapIdx fun j w => (32 * (d + j) + l, w)

/-- The data bytes of one lane: the low bytes of a register, pair or quad. -/
def dataBytes (r : Regs) (t : Ty) (reg l : Nat) : List Byte :=
  ((List.range t.nregs).flatMap fun j => leBytes 4 (r.get (reg + j) l).toNat).take t.bytes

/-- What a poisoned lane receives (R252). -/
def poisonValue (t : Ty) : Nat := ((fmtOf t).map Fmt.qnan).getD 0

/-- A completion trap by lanes: code, lanes, INFO of the lowest (R430, R433). -/
def lanesTrap (code : Nat) (ls : List (Nat × Nat)) : List (Nat × Word × Dword) :=
  match ls with
  | [] => []
  | (_, va) :: _ => [(code, maskOf (ls.map (·.1)), BitVec.ofNat 64 va)]

/-- What one lane of a load gave: its raw value, flags, MEMSTAT bits and the trap it raises. -/
structure Got where
  lane : Nat
  va : Nat
  val : Nat
  arith : Word := 0
  mem : Word := 0
  trap : Option Nat := none
  /-- the newest write that its load could see -/
  wts : Nat := 0
  deriving DecidableEq, Repr

/-- The result of the lanes of a load. -/
def gotResult (d : Nat) (t : Ty) (gs : List Got) : Result :=
  let codes := [0x12, 0x13, 0x14, 0x15]
  { writes := gs.flatMap fun g => laneRegs d g.lane t g.val
    arith := gs.foldl (fun m g => m ||| g.arith) 0
    mem := gs.foldl (fun m g => m ||| g.mem) 0
    traps := codes.flatMap fun c => lanesTrap c ((gs.filter fun g => g.trap == some c).map fun g => (g.lane, g.va)) }

/-- ARITH of the lanes of a load or atomic whose flags trap (R121). -/
def arithTraps (gs : List Got) : List (Nat × Word × Dword) :=
  let ls := (gs.filter fun g => trapping g.arith).map (·.lane)
  if ls.isEmpty then [] else [(0x50, maskOf ls, 0)]

/-- The parts of an ordering byte (R63). -/
structure OrdB where
  kind : Nat
  scope : Nat
  storage : Nat
  deriving DecidableEq, Repr

def ordOf (o : BitVec 8) : OrdB := { kind := ordKind o, scope := ordAgent o, storage := ordStorage o }

end Sys2Proof.Machine
end

