-- ==== Sys2Proof/Machine/MemInstr.lean ====
section
/-! DEFINITION. Loads, stores, scratchpad accesses, atomics, fences, monitors and prefetch (R247-R269). -/

namespace Sys2Proof.Machine

def memNeed (rs : List (Nat × Nat)) : Need := { regs := rs, base := 8, lane := 6 }

/-! ## Loads (R253, R254) -/

/-- Types whose loads decode on a formatted page (R254). -/
def decodes (t : Ty) : Bool := t == .f32 || t == .f16 || t == .bf16 || t == .s32

/-- Whether a lane's load reads raw bytes: a plain page, or a raw type (R127, R254). -/
def isRaw (t : Ty) : Bool := match t with | .b8 | .b16 | .b32 | .b64 | .b128 => true | _ => false

/-- The block a decoding load reads: its offset from the lane's address, in bytes; none where it is no block. -/
def blockOff (t : Spot) (e : Nat) : Option Nat :=
  let slot := slotBits t.leaf.fmt
  match blockIndex t.leaf.logSize slot (t.va % 2 ^ t.leaf.logSize) with
  | some j => if j + e / 32 < blocksIn t.leaf.logSize slot then some (strideOf slot * (e / 32)) else none
  | none => none

/-- R254's admission of a load. (DEDUCED, log 22) -/
def loadRule (ty : Ty) (e : Nat → Nat) (t : Spot) : Option Nat :=
  if t.leaf.fmt == 0 || isRaw ty then none
  else if !decodes ty then some 0x11
  else if (blockOff t (e t.lane)).isNone then some 0x03 else none

/-- One lane of a load: where its bytes start and how many are read at once. -/
def loadSpan (ty : Ty) (e : Nat → Nat) (t : Spot) : Nat × Nat :=
  if t.leaf.fmt == 0 || isRaw ty then (0, ty.bytes) else ((blockOff t (e t.lane)).getD 0, strideOf (slotBits t.leaf.fmt))

/-- The value of one lane. -/
def loadLane (s : State) (n : Nat) (ty : Ty) (e : Nat → Nat) (o : OrdB) (t : Spot) : Got × State :=
  let (off, len) := loadSpan ty e t
  let s := if t.leaf.rk then match t.sp with | .rk asn => raiseClock s n asn ((t.va + off) / 128) | _ => s else s
  let (r, s) := loadOrd s n t.sp (t.addr + off) len o.kind o.scope o.storage
  if r.poison then ({ lane := t.lane, va := t.va, val := poisonValue ty, mem := 1, trap := some 0x12, wts := r.wts }, s)
  else if t.leaf.fmt == 0 || isRaw ty then ({ lane := t.lane, va := t.va, val := leNat r.bytes, wts := r.wts }, s)
  else
    let (v, fl, mem) := deliver (readBlock (blkBits r.bytes) (slotBits t.leaf.fmt)) (e t.lane % 32) ty
    ({ lane := t.lane, va := t.va, val := v, arith := fl, mem := mem, trap := if mem != 0 then some 0x15 else none, wts := r.wts }, s)

/-- The lanes of a load, ascending: completed, or waiting for a reckoned line. One that completes with a fill's poison is a load that
returns no value, after the writes that its home has taken (R244, R266). -/
def loadLanes (s : State) (k : Iss) (ty : Ty) (e : Nat → Nat) (o : OrdB) (ts : List Spot) : List Got × List (Nat × Bool) × State :=
  ts.foldl (fun (gs, ws, s) t =>
    let (off, len) := loadSpan ty e t
    let (rk, s) := rkSpot s k.agent k.path k.gang t (t.va + off) len
    match rk with
    | .wait res => (gs, ws ++ [(t.lane, res)], s)
    | .poison code =>
      let s := poisonedLoad (match t.sp with | .rk asn => raiseClock s k.agent asn (t.va / 128) | _ => s) k.agent
      (gs ++ [{ lane := t.lane, va := t.va, val := poisonValue ty, mem := 1, trap := some code, wts := (s.stampOf t.sp (lineOf t.sp t.addr)).wts }], ws, s)
    | .present => let (g, s) := loadLane s k.agent ty e o t; (gs ++ [g], ws, s)) (([] : List Got), ([] : List (Nat × Bool)), s)

/-- R266: the monitor armed on the line of a lane's load, at that load's point in the order; written already when the home holds a
newer write than the load could see. -/
def armMonitor (s : State) (k : Iss) (t : Spot) (wts : Nat) : State :=
  let line := lineOf t.sp t.addr
  let slice := match t.sp with | .rk asn => rkSlice asn t.va | _ => sliceOf t.addr
  let taken := (s.agents.filter fun x => x.num != k.agent && match x.mon.armed with
    | some (.rk asn, l) => rkSlice asn (l * 128) == slice
    | some (_, l) => sliceOf (l * 128) == slice
    | none => false).length
  let ok := (match t.sp with | .loc | .rk _ => true | _ => false) && taken < 512
  s.updAgent k.agent fun x =>
    if ok then { x with mon := { armed := some (t.sp, line), ts := wts, written := (s.stampOf t.sp line).wts > wts } }
    else { x with mon := { lost := true } }

/-- LD and MARM (R253, R254, R266). -/
def loadBody (x : Mem) (arm : Bool) (k : Iss) (s : State) : State × Fate :=
  if k.lanes == 0 then (s, .done)
  else
    let e (l : Nat) : Nat := (k.src.get x.c.toNat l).toNat
    match checkLanes s k.gang k.sup .read x.ty.bytes (k.eas x.a.toNat (memOff x)) (loadRule x.ty e) with
    | .fault code info => (s, .fault code k.lanes (BitVec.ofNat 64 info))
    | .go ts miss =>
      let s := touchAll s k.gang (ts.map (·.va))
      let (gs, ws, s) := loadLanes s k x.ty e (ordOf x.ord) ts
      let c := s.ctxOf k.gang
      let s := forgetAborts s k.agent k.path c.asn (ts.flatMap fun t => if (gs.any fun g => g.lane == t.lane) then spanLines t.va (x.ty.bytes + 34) else [])
      let s := if gs.isEmpty then s else let r := gotResult x.d.toNat x.ty gs; k.later s x.ctl { r with traps := r.traps ++ arithTraps gs }
      let low := (lanesOf (guarded k.src x.ctl.guard k.xmask)).head?
      let s := match if arm then ts.find? fun t => some t.lane == low else none, gs.find? fun g => some g.lane == low with
        | some t, some g => armMonitor s k t g.wts
        | _, _ => s
      parkOrDone s k { miss := miss, wait := ws }

def execLd (x : Mem) (s : State) : Host.Outcome State Fault Refusal :=
  instr s x.ctl (memNeed [(x.d.toNat, x.ty.nregs), (x.a.toNat, 2), (x.c.toNat, 1)]) (loadBody x false)

def execMarm (x : Mem) (s : State) : Host.Outcome State Fault Refusal :=
  instr s x.ctl (memNeed [(x.d.toNat, x.ty.nregs), (x.a.toNat, 2)]) (loadBody x true)

/-! ## Stores (R253) -/

def storeLanes (s : State) (k : Iss) (o : OrdB) (data : Nat → List Byte) (ts : List Spot) : State :=
  ts.foldl (fun s t => storeOrd s k.agent t.sp t.addr (data t.lane) o.kind o.scope o.storage) s

/-- R254: a store to a formatted page is raw or refused. -/
def storeRule (ty : Ty) (t : Spot) : Option Nat := if t.leaf.fmt == 0 || isRaw ty then none else some 0x11

/-- ST (R253, R241). -/
def execSt (x : Mem) (s : State) : Host.Outcome State Fault Refusal :=
  instr s x.ctl (memNeed [(x.a.toNat, 2), (x.b.toNat, x.ty.nregs)]) fun k s =>
    if k.lanes == 0 then (s, .done)
    else
      match checkLanes s k.gang k.sup .write x.ty.bytes (k.eas x.a.toNat (memOff x)) (storeRule x.ty) with
      | .fault code info => (s, .fault code k.lanes (BitVec.ofNat 64 info))
      | .go ts miss =>
        if ts.any fun t => jobEdge s (s.ctxOf k.gang).id t.va x.ty.bytes then (s, .hold)
        else
          let s := touchAll s k.gang (ts.map (·.va))
          let s := storeLanes s k (ordOf x.ord) (fun l => dataBytes k.src x.ty x.b.toNat l) ts
          let s := if miss.isEmpty then k.later s x.ctl { opens := false } else s
          parkOrDone s k { miss := miss }

/-! ## Scratchpad (R256, R258) -/

/-- Where a scratchpad instruction goes: the issuing block's own allocation, or a member's by role. -/
def scrTarget (s : State) (k : Iss) (role : Nat) : Option Block := s.blockOf? k.gang role

/-- A lane's scratchpad address, exact (R249). -/
def scrAddr (r : Regs) (a l : Nat) (off : Int) : Int := ((r.get a l).toNat : Int) + off

/-- R258: lanes out of range are switched off: they leave once their bundle is over, and FAULTMASK names them. -/
def switchOff (s : State) (k : Iss) (ls : List Nat) : State :=
  if ls.isEmpty then s
  else
    let m := maskOf ls
    let s := s.mapRegs k.agent fun r => { r with fmask := r.fmask ||| m }
    s.updPath k.agent k.path fun q => { q with bun := q.bun.map fun b => { b with exits := b.exits ||| m } }

/-- The checks of a scratchpad access: the lanes that go on with their addresses, or a fault. Lanes out of range come first: they are
switched off, whatever their alignment, or fault a pilot program (R258); alignment is checked of the others (R251). -/
def scrCheck (s : State) (k : Iss) (role a size : Nat) (off : Int) : Sum (Nat × Nat × Word) (List (Nat × Nat) × State) :=
  match s.gang? k.gang, scrTarget s k role with
  | some g, some b =>
    if role ≥ g.size then .inl (0x04, 0, k.lanes)
    else
      let as := (lanesOf k.lanes).map fun l => (l, scrAddr k.src a l off)
      let inside (v : Int) : Bool := 0 ≤ v && v + size ≤ b.scrSize
      let bad := as.filter fun (_, v) => !inside v
      let good := as.filter fun (_, v) => inside v
      if k.pilot && !bad.isEmpty then .inl (0x16, ((bad.headD (0, 0)).2 % (2 ^ 64 : Nat)).toNat, k.lanes)
      else match good.find? fun (_, v) => v % size != 0 with
        | some (_, v) => .inl (0x03, (v % (2 ^ 64 : Nat)).toNat, k.lanes)
        | none => .inr (good.map fun (l, v) => (l, v.toNat), switchOff s k (bad.map (·.1)))
  | _, _ => .inl (0x04, 0, k.lanes)

def scrLoad (x : Mem) (role : Iss → Nat) (pilot : Bool) (s : State) : Host.Outcome State Fault Refusal :=
  instr s x.ctl { memNeed [(x.d.toNat, x.ty.nregs), (x.a.toNat, 1)] with pilot := pilot } fun k s =>
    if k.lanes == 0 then (s, .done)
    else match scrCheck s k (role k) x.a.toNat x.ty.bytes (memOff x) with
      | .inl (code, info, m) => (s, .fault code m (BitVec.ofNat 64 info))
      | .inr (as, s) =>
        let o := ordOf x.ord
        let (gs, s) := as.foldl (fun (gs, s) (l, a) =>
          let (r, s) := loadOrd s k.agent (.scr k.gang (role k)) a x.ty.bytes o.kind o.scope o.storage
          let g : Got := if r.poison then { lane := l, va := a, val := poisonValue x.ty, mem := 1, trap := some 0x12 } else { lane := l, va := a, val := leNat r.bytes }
          (gs ++ [g], s)) (([] : List Got), s)
        (k.later s x.ctl (gotResult x.d.toNat x.ty gs), .done)

def scrStore (x : Mem) (role : Iss → Nat) (pilot : Bool) (s : State) : Host.Outcome State Fault Refusal :=
  instr s x.ctl { memNeed [(x.a.toNat, 1), (x.b.toNat, x.ty.nregs)] with pilot := pilot } fun k s =>
    if k.lanes == 0 then (s, .done)
    else match scrCheck s k (role k) x.a.toNat x.ty.bytes (memOff x) with
      | .inl (code, info, m) => (s, .fault code m (BitVec.ofNat 64 info))
      | .inr (as, s) =>
        let o := ordOf x.ord
        let s := as.foldl (fun s (l, a) => storeOrd s k.agent (.scr k.gang (role k)) a (dataBytes k.src x.ty x.b.toNat l) o.kind o.scope o.storage) s
        (k.later s x.ctl { opens := false }, .done)

def execLds (x : Mem) (s : State) : Host.Outcome State Fault Refusal := scrLoad x (·.role) false s
def execSts (x : Mem) (s : State) : Host.Outcome State Fault Refusal := scrStore x (·.role) false s
def execLdrm (x : Mem) (s : State) : Host.Outcome State Fault Refusal := scrLoad x (fun _ => x.c.toNat) true s
def execStrm (x : Mem) (s : State) : Host.Outcome State Fault Refusal := scrStore x (fun _ => x.c.toNat) true s

/-! ## Atomics (R261-R264) -/

/-- The new value of an atomic (R262) and the flags it sets. -/
def atomNew (op : Nat) (t : Ty) (old b c : Nat) : Nat × Word :=
  let w := t.width
  let io := intOf t old
  let ib := intOf t b
  match op with
  | 0 => (wrap w (io + ib), 0)
  | 1 => (if io ≤ ib then old else b, 0)
  | 2 => (if io ≤ ib then b else old, 0)
  | 3 => ((BitVec.ofNat 64 old &&& BitVec.ofNat 64 b).toNat, 0)
  | 4 => ((BitVec.ofNat 64 old ||| BitVec.ofNat 64 b).toNat, 0)
  | 5 => ((BitVec.ofNat 64 old ^^^ BitVec.ofNat 64 b).toNat, 0)
  | 6 => (b, 0)
  | 7 => (if old == b then c else old, 0)
  | 8 => (if old ≥ b then 0 else old + 1, 0)
  | 9 => (if old == 0 || old > b then b else old - 1, 0)
  | 10 => roundWith (sumX 0 [fmtF32.value old, fmtF32.value b]) fmtF32 0 false
  | 11 => minmaxBits fmtF32 false old b
  | _ => minmaxBits fmtF32 true old b

/-- R264: what storage admits an atomic. -/
def atomRule (op : Nat) (t : Spot) : Option Nat :=
  match t.sp with
  | .loc => if t.leaf.fmt == 0 then none else some 0x11
  | .host | .peer _ | .pool _ => if op == 0 || op == 6 || op == 7 then none else some 0x11
  | _ => some 0x11

/-- One lane's read-modify-write. -/
def atomLane (s : State) (k : Iss) (x : Mem) (o : OrdB) (l va : Nat) (sp : Sp) (a : Nat) : Got × State :=
  let b := rawOf k.src x.ty x.b.toNat l
  let c := rawOf k.src x.ty x.c.toNat l
  let (r, s) := atomicRmw s k.agent sp a x.ty.bytes o.kind o.scope o.storage fun old => leBytes x.ty.bytes (atomNew x.op x.ty (leNat old) b c).1
  let fl := (atomNew x.op x.ty (leNat r.bytes) b c).2
  if r.poison then ({ lane := l, va := va, val := poisonValue x.ty, arith := fl, mem := 1, trap := some 0x12 }, s)
  else ({ lane := l, va := va, val := leNat r.bytes, arith := fl }, s)

/-- The result of an atomic: RED writes no register (R263). -/
def atomResult (x : Mem) (red : Bool) (gs : List Got) : Result :=
  let r := gotResult x.d.toNat x.ty gs
  { r with writes := if red then [] else r.writes, traps := r.traps ++ arithTraps gs, opens := !red }

def atomNeed (x : Mem) (red : Bool) (an : Nat) : Need :=
  memNeed ((if red then [] else [(x.d.toNat, x.ty.nregs)]) ++ [(x.a.toNat, an), (x.b.toNat, x.ty.nregs)] ++ if x.op == 7 then [(x.c.toNat, x.ty.nregs)] else [])

/-- ATOM and RED (R261-R264). RED's counter drops when every lane has been performed, so it waits for the lanes that miss. -/
def atomGlobal (x : Mem) (red : Bool) (s : State) : Host.Outcome State Fault Refusal :=
  instr s x.ctl (atomNeed x red 2) fun k s =>
    if k.lanes == 0 then (s, .done)
    else match checkLanes s k.gang k.sup .atomic x.ty.bytes (k.eas x.a.toNat (memOff20 x)) (atomRule x.op) with
      | .fault code info => (s, .fault code k.lanes (BitVec.ofNat 64 info))
      | .go ts miss =>
        if ts.any fun t => jobEdge s (s.ctxOf k.gang).id t.va x.ty.bytes then (s, .hold)
        else
          let s := touchAll s k.gang (ts.map (·.va))
          let (gs, s) := ts.foldl (fun (gs, s) t => let (g, s) := atomLane s k x (ordOf x.ord) t.lane t.va t.sp t.addr; (gs ++ [g], s)) (([] : List Got), s)
          let ctl := if red && !miss.isEmpty then { x.ctl with cnt := 0 } else x.ctl
          let s := if gs.isEmpty then s else k.later s ctl (atomResult x red gs)
          parkOrDone s k { miss := miss }

def execAtom (x : Mem) (s : State) : Host.Outcome State Fault Refusal := atomGlobal x false s
def execRed (x : Mem) (s : State) : Host.Outcome State Fault Refusal := atomGlobal x true s

/-- ATOMS (R256, R261-R264). -/
def execAtoms (x : Mem) (s : State) : Host.Outcome State Fault Refusal :=
  instr s x.ctl { atomNeed x false 1 with pilot := false } fun k s =>
    if k.lanes == 0 then (s, .done)
    else match scrCheck s k k.role x.a.toNat x.ty.bytes (memOff20 x) with
      | .inl (code, info, m) => (s, .fault code m (BitVec.ofNat 64 info))
      | .inr (as, s) =>
        let (gs, s) := as.foldl (fun (gs, s) (l, a) => let (g, s) := atomLane s k x (ordOf x.ord) l a (.scr k.gang k.role) a; (gs ++ [g], s)) (([] : List Got), s)
        (k.later s x.ctl (atomResult x false gs), .done)

/-! ## Fences, monitors, prefetch (R265-R269) -/

/-- FENCE (R234, R265): plain is both fences, of every storage at device scope. -/
def execFence (x : Mem) (s : State) : Host.Outcome State Fault Refusal :=
  instr s x.ctl (memNeed []) fun k s =>
    if k.lanes == 0 then (s, .done)
    else
      let o := ordOf x.ord
      match o.kind with
      | 0 => (fenceAcquire (fenceRelease s k.agent 3 4) k.agent 3 4, .done)
      | 2 => (fenceAcquire s k.agent o.scope o.storage, .done)
      | _ => (fenceRelease s k.agent o.scope o.storage, .done)

/-- The code that MWAIT completes with at once (R267), if there is one. -/
def mwaitNow (m : Monitor) : Option Nat :=
  if m.written then some 0 else if m.lost then some 2 else if m.armed.isNone then some 3 else none

/-- MWAIT's end: the code in every lane of L, the monitor disarmed. -/
def mwaitEnd (s : State) (n d : Nat) (lanes : Word) (code : Nat) : State :=
  s.updAgent n fun x => { x with mon := {}, regs := x.regs.setLanes d (fun _ => BitVec.ofNat 32 code) (lanesOf lanes) }

/-- MWAIT (R267). -/
def execMwait (x : Mem) (s : State) : Host.Outcome State Fault Refusal :=
  instr s x.ctl (memNeed [(x.d.toNat, 1)]) fun k s =>
    if k.lanes == 0 then (s, .done)
    else match s.agent? k.agent with
      | none => (s, .gone)
      | some a => match mwaitNow a.mon with
        | some code => (mwaitEnd s k.agent x.d.toNat k.lanes code, .done)
        | none => (s, .wait (.mwait (if x.off == 0 then none else some (s.tick + x.off.toNat * 64 * 16)) x.d.toNat k.lanes))

/-- An MWAIT that waits completes with a code (R267). -/
def mwaitDone (s : State) (n p code : Nat) : State :=
  match (s.path? n p).bind (·.wait) with
  | some (.mwait _ d lanes) => endSlot ((mwaitEnd s n d lanes code).updAgent n fun x => { x with lastIssue := s.tick }) n p .nothing
  | _ => s

/-- MWAIT_WRITTEN (R267). -/
def execMwaitWritten (agent path : Nat) (s : State) : Host.Outcome State Fault Refusal :=
  event (match s.agent? agent with
    | some a => if a.mon.written then mwaitDone s agent path 0 else s
    | none => s)

/-- MWAIT_EXPIRE (R267): the limit has passed, or the monitor was lost meanwhile. -/
def execMwaitExpire (agent path : Nat) (s : State) : Host.Outcome State Fault Refusal :=
  event (match s.agent? agent, (s.path? agent path).bind (·.wait) with
    | some a, some (.mwait lim _ _) =>
      if a.mon.written then mwaitDone s agent path 0
      else if (lim.map fun t => decide (t ≤ s.tick)).getD false then mwaitDone s agent path 1
      else if a.mon.lost then mwaitDone s agent path 2
      else s
    | _, _ => s)

/-- A line requested into the caches of a core or of its cluster (R269). -/
def prefLine (s : State) (n level : Nat) (sp : Sp) (line : Nat) : State :=
  if !cacheable sp || level ≥ 2 then s
  else
    let t := renew s n sp line 0 0
    if level == 0 then t
    else
      let core := s.coreOfNum n
      { t with copies := t.copies.filter fun k => !(k.place == core && k.sp == sp && k.line == line) }

/-- One lane of PREF: dropped on a miss or without the right to read. -/
def prefLane (s : State) (k : Iss) (level va : Nat) : State :=
  let c := s.ctxOf k.gang
  match tr s c k.sup .read va with
  | .ok sp a leaf =>
    let s := touch s c va
    if leaf.rk && !s.resident c.asn (va / 128) then
      if level == 2 then (rkAccess s c (leaf.pfn % 4096) (va / 128) (missOf s k.agent k.path) true).2 else s
    else prefLine s k.agent level sp (lineOf sp a)
  | _ => s

/-- PREF (R269). -/
def execPref (x : Mem) (s : State) : Host.Outcome State Fault Refusal :=
  instr s x.ctl (memNeed [(x.a.toNat, 2)]) fun k s =>
    (k.later ((k.eas x.a.toNat (memOff x)).foldl (fun s (_, va) => prefLane s k x.d.toNat va) s) x.ctl { opens := false }, .done)

end Sys2Proof.Machine
end

