-- ==== Sys2Proof/Machine/Tiles.lean ====
section
/-! DEFINITION. Tiles and the matrix engine (R161-R189): tile state, block sums (R130, R131, R183), what each engine
instruction does when the engine performs it, barrier objects, and the instructions themselves. -/

namespace Sys2Proof.Machine

/-! ## Tile state (R161-R163) -/

def tileByte (t : Tile) (row c : Nat) : Byte := mget 0 t.bytes (64 * row + c)
def tileScale (t : Tile) (row kb : Nat) : Nat := (mget 0x7F t.scale (4 * row + kb)).toNat
def tileTag (t : Tile) (row kb : Nat) : Nat := (mget 0 t.tag (4 * row + kb)).toNat

def setTileBytes (t : Tile) (row off : Nat) (bs : List Byte) : Tile := { t with bytes := cellsWrite t.bytes (64 * row + off) bs }

def setHeader (t : Tile) (row kb scale tag : Nat) : Tile :=
  { t with scale := mset 0x7F t.scale (4 * row + kb) (BitVec.ofNat 8 scale), tag := mset 0 t.tag (4 * row + kb) (BitVec.ofNat 8 (tag % 4)) }

def applyTileWrite (t : Tile) (w : TileWrite) : Tile :=
  w.hdr.foldl (fun t (kb, sc, tg) => setHeader t w.row kb sc tg) (setTileBytes t w.row w.off w.bytes)

/-- Slot bits of a kind, 16 for the 16-bit kinds (R163). -/
def kindSlot (kind : Nat) : Nat := match kind with | 1 => 4 | 2 => 6 | 3 => 8 | _ => 16

/-- Bytes of a 32-element block in a tile row (R163). -/
def kindBlock (kind : Nat) : Nat := match kind with | 1 => 16 | 2 => 32 | 3 => 32 | _ => 64

/-- The code of element k of a row. -/
def tileCode (t : Tile) (kind row k : Nat) : Nat :=
  match kind with
  | 1 => let b := (tileByte t row (k / 2)).toNat; if k % 2 == 0 then b % 16 else b / 16
  | 2 => (tileByte t row k).toNat % 64
  | 3 => (tileByte t row k).toNat
  | _ => (tileByte t row (2 * k)).toNat + 256 * (tileByte t row (2 * k + 1)).toNat

/-- The bytes of a list of codes in a tile row. -/
def codeBytes (kind : Nat) (codes : List Nat) : List Byte :=
  match kind with
  | 1 => (List.range (codes.length / 2)).map fun i => BitVec.ofNat 8 (codes.getD (2 * i) 0 % 16 + 16 * (codes.getD (2 * i + 1) 0 % 16))
  | 2 | 3 => codes.map (BitVec.ofNat 8)
  | _ => codes.flatMap (leBytes 2)

/-- The element format of a block under its kind and tag (R163). -/
def kindElt (kind tag : Nat) : Elt :=
  match kind with
  | 1 => eltOf 4 tag
  | 2 => eltOf 6 tag
  | 3 => eltOf 8 tag
  | 4 => .flt fmtF16
  | _ => .flt fmtBf16

def accAt (a : List (Nat × Word)) (i j : Nat) : Word := mget 0 a (64 * i + j)

def Block.tile (b : Block) (i : Nat) : Tile := b.tiles.getD i {}
def Block.setTile (b : Block) (i : Nat) (t : Tile) : Block :=
  { b with tiles := (List.range (max b.tiles.length (i + 1))).map fun k => if k == i then t else b.tiles.getD k {} }
def Block.acc (b : Block) (i : Nat) : List (Nat × Word) := b.accs.getD i []
def Block.setAcc (b : Block) (i : Nat) (a : List (Nat × Word)) : Block :=
  { b with accs := (List.range (max b.accs.length (i + 1))).map fun k => if k == i then a else b.accs.getD k [] }
def Block.obj (b : Block) (i : Nat) : BObj := b.bobj.getD i {}
def Block.setObj (b : Block) (i : Nat) (o : BObj) : Block :=
  { b with bobj := (List.range 8).map fun k => if k == i then o else b.bobj.getD k {} }

/-- A shape as a triple: rows, blocks per row, kind. -/
def shapeOf (t : Tile) : Nat × Nat × Nat := (t.rows, t.kblk, t.kind)

/-! ## Block sums (R130, R131, R183) -/

/-- An element as an integer times 2^−f, with the f of its format (R130). -/
def fixedEl (e : Elt) (code : Nat) : Int :=
  match e with
  | .flt f =>
    let ex := code / 2 ^ f.m % 2 ^ f.e
    let man := code % 2 ^ f.m
    let n : Nat := (if ex == 0 then man else man + 2 ^ f.m) * 2 ^ (max ex 1 - 1)
    if code / 2 ^ (f.e + f.m) % 2 == 1 then -(n : Int) else n
  | .int w => signedOf code w
  | _ => 0

def fixedF (e : Elt) : Nat :=
  match e with
  | .flt f => f.bias + f.m - 1
  | _ => 0

/-- Whether a block's elements go to the residue datapath (R130). -/
def residueElt (e : Elt) : Bool :=
  match e with
  | .int _ => true
  | .flt f => f == fmtE2m1 || f == fmtE2m3 || f == fmtE3m2
  | _ => false

/-- One channel of the residue datapath (R131): the sum of products modulo m. -/
def channelSum (m : Nat) (ps : List (Int × Int)) : Nat :=
  ps.foldl (fun s (a, b) => (s + (a % m).toNat * (b % m).toNat) % m) 0

/-- The conversion out of the three channels (R131). -/
def residueOut (p255 p254 p253 : Nat) : Int :=
  let x := (p255 * 8225536 + p254 * 16322295 + p253 * 8225790) % 16386810
  if x ≥ 8193405 then (x : Int) - 16386810 else x

/-- The integer sum of a residue pair by its three channels. -/
def residueSum (ps : List (Int × Int)) : Int := residueOut (channelSum 255 ps) (channelSum 254 ps) (channelSum 253 ps)

/-- The exact integer sum of products. -/
def exactSum (ps : List (Int × Int)) : Int := ps.foldl (fun s (a, b) => s + a * b) 0

/-- A block of an operand: its format, scale and codes. -/
structure Blk where
  elt : Elt
  scale : Nat
  codes : List Nat
  deriving DecidableEq, Repr

/-- R183: the first of the cases that applies. (DEDUCED, log 149) -/
def blockSum (a b : Blk) : X × Word :=
  if a.elt == .zero || b.elt == .zero || a.elt == .reserved || b.elt == .reserved then (.zero false, 0)
  else if a.scale == 255 || b.scale == 255 then (.nan false, 0)
  else
    let pairs := (a.codes.zip b.codes).map fun (x, y) => (fixedEl a.elt x, fixedEl b.elt y)
    let scaled (n : Int) : X := X.ofQ ((Q.ofInt n).shift ((a.scale : Int) + b.scale - 254 - fixedF a.elt - fixedF b.elt))
    if residueElt a.elt && residueElt b.elt then (scaled (residueSum pairs), 0)
    else
      let xs := a.codes.map a.elt.value
      let ys := b.codes.map b.elt.value
      let special (x : X) : Bool := match x with | .nan _ | .inf _ => true | _ => false
      if xs.any special || ys.any special then
        let ps := (xs.zip ys).map fun (x, y) => mulX x y
        let (t, fl) := sumX 0 (ps.map (·.1))
        let inf (neg : Bool) : Bool := ps.any fun p => p.1 == .inf neg
        (t, ps.foldl (fun f p => f ||| p.2) (if inf false && inf true then fl ||| flInvalid else fl))
      else (scaled (exactSum pairs), 0)

/-- Block kb of row i of a tile under a shape. -/
def tileBlk (t : Tile) (kind row kb : Nat) : Blk :=
  { elt := kindElt kind (tileTag t row kb)
    scale := if kind ≥ 4 then 127 else tileScale t row kb
    codes := (List.range 32).map fun e => tileCode t kind row (32 * kb + e) }

/-- One accumulator element of an MMA (R182): the blocks in ascending order, each sum rounded, each addition rounded. -/
def mmaElement (sat : Bool) (acc : Word) (ps : List (Blk × Blk)) : Word × Word :=
  ps.foldl (fun (acc, fl) (x, y) =>
    let (s, f1) := roundWith (blockSum x y) fmtF32 0 sat
    let (r, f2) := roundWith (sumX 0 [f32 acc, fmtF32.value s]) fmtF32 0 sat
    (BitVec.ofNat 32 r, fl ||| f1 ||| f2)) (acc, 0)

/-- MMA on tiles and an accumulator (R182). -/
def mmaRun (ta tb : Tile) (sa sb : Nat × Nat × Nat) (row0 col0 : Nat) (sat : Bool) (acc : List (Nat × Word)) : List (Nat × Word) × Word :=
  let rowsB := (List.range sb.1).map fun j => (j, (List.range sb.2.1).map fun kb => tileBlk tb sb.2.2 j kb)
  (List.range sa.1).foldl (fun m i =>
    let as := (List.range sa.2.1).map fun kb => tileBlk ta sa.2.2 i kb
    rowsB.foldl (fun (acc, fl) (j, bs) =>
      let (v, f) := mmaElement sat (accAt acc (row0 + i) (col0 + j)) (as.zip bs)
      (mset 0 acc (64 * (row0 + i) + col0 + j) v, fl ||| f)) m) (acc, 0)

/-! ## Converting accumulators (R184, R185) -/

/-- Element e of window row i of an accumulator. -/
def window (acc : List (Nat × Word)) (tr : Bool) (row0 col0 i e : Nat) : X :=
  f32 (if tr then accAt acc (row0 + e) (col0 + i) else accAt acc (row0 + i) (col0 + e))

/-- ACVT (R184). -/
def acvtRun (t : Tile) (sh : Nat × Nat × Nat) (acc : List (Nat × Word)) (tr : Bool) (row0 col0 k : Nat) (ty : Ty) (mode : Mode) (sat : Bool) : Tile × Word :=
  let f := (fmtOf ty).getD fmtF16
  let scale := if sh.2.2 == 3 then k else 127
  (List.range sh.1).foldl (fun (t, fl) i =>
    let rs := (List.range (32 * sh.2.1)).map fun e => roundFmt ((window acc tr row0 col0 i e).scale (127 - (scale : Int))) f mode sat
    let t := setTileBytes t i 0 (codeBytes sh.2.2 (rs.map (·.1)))
    let t := if sh.2.2 == 3 then (List.range sh.2.1).foldl (fun t kb => setHeader t i kb k (if ty == .e5m2 then 1 else 0)) t else t
    (t, rs.foldl (fun m r => m ||| r.2) fl)) (t, 0)

/-- MENC (R185). -/
def mencRun (t : Tile) (sh : Nat × Nat × Nat) (acc : List (Nat × Word)) (tr : Bool) (row0 col0 : Nat) (tag : Option Nat) : Tile × Word :=
  (List.range sh.1).foldl (fun m i =>
    (List.range sh.2.1).foldl (fun (t, fl) kb =>
      let e := encodeBlock (kindSlot sh.2.2) tag ((List.range 32).map fun x => window acc tr row0 col0 i (32 * kb + x))
      let t := setTileBytes t i (kindBlock sh.2.2 * kb) (codeBytes sh.2.2 e.codes)
      (setHeader t i kb e.scale e.tag, fl ||| e.fl)) m) (t, 0)

/-! ## Checks at issue (R164, R172) -/

def immBits (x : Eng) (hi lo : Nat) : Nat := bitsOf x.imm.toNat hi lo

/-- A window of an accumulator that an ACVT or MENC reads stays inside it. -/
def windowOk (sh : Nat × Nat × Nat) (tr : Bool) (row0 col0 : Nat) : Bool :=
  let k := 32 * sh.2.1
  if tr then col0 + sh.1 ≤ 64 && row0 + k ≤ 64 else row0 + sh.1 ≤ 64 && col0 + k ≤ 64

/-- Tiles and accumulators that an engine instruction names are declared (R164), and its own checks hold (R172). -/
def engCheck (b : Block) (i : Instr) : Bool :=
  let tileOk (n : BitVec 8) : Bool := n.toNat < b.nt
  let accOk (n : BitVec 8) : Bool := n.toNat < b.na
  let sh (n : BitVec 8) := shapeOf (b.tile n.toNat)
  match i with
  | .tshape x => tileOk x.d
  | .tzero x => if x.imm.getLsbD 0 then accOk x.d else tileOk x.d
  | .tld x => tileOk x.d && (sh x.d).2.2 != 0
  | .tst x => tileOk x.c && (sh x.c).2.2 != 0
  | .tfeed x => tileOk x.d
  | .tdrain x => if x.imm.getLsbD 12 then tileOk x.a else accOk x.a
  | .mma x => accOk x.d && tileOk x.a && tileOk x.b && (sh x.a).2.2 != 0 && (sh x.b).2.2 != 0 && (sh x.a).2.1 == (sh x.b).2.1
      && immBits x 5 0 + (sh x.a).1 ≤ 64 && immBits x 11 6 + (sh x.b).1 ≤ 64
  | .acvt x => tileOk x.d && accOk x.a && (sh x.d).2.2 == (match x.ty with | .f16 => 4 | .bf16 => 5 | _ => 3)
      && (if x.ty == .f16 || x.ty == .bf16 then x.b == 0 else x.b != 255) && windowOk (sh x.d) (x.imm.getLsbD 12) (immBits x 5 0) (immBits x 11 6)
  | .menc x => tileOk x.d && accOk x.a && 1 ≤ (sh x.d).2.2 && (sh x.d).2.2 ≤ 3
      && !(immBits x 14 13 == 2 && (sh x.d).2.2 == 1) && windowOk (sh x.d) (x.imm.getLsbD 12) (immBits x 5 0) (immBits x 11 6)
  | _ => true

/-- The shapes that an instruction is checked against, kept for when the engine performs it (R172). -/
def engShapes (b : Block) (i : Instr) : List (Nat × Nat × Nat) :=
  let sh (n : BitVec 8) := shapeOf (b.tile n.toNat)
  match i with
  | .tld x => [sh x.d]
  | .tst x => [sh x.c]
  | .mma x => [sh x.a, sh x.b]
  | .acvt x => [sh x.d]
  | .menc x => [sh x.d]
  | _ => []

/-- The link byte of an instruction (R171). -/
def linkByte (i : Instr) : Nat :=
  match i with
  | .tshape x | .tzero x | .tld x | .tst x | .tfeed x | .tdrain x | .mma x | .acvt x | .menc x => immBits x 31 24
  | _ => 0

/-! ## The rows of TLD and TST (R176-R179) -/

/-- What the checks of a TLD or TST leave. -/
inductive Rows where
  | fault (code info : Nat)
  | miss (ms : List Miss)
  | go (rows : List TileRow)

/-- The leaf of an address, where it has one. -/
def leafAt (s : State) (c : Ctx) (va : Nat) : Option Leaf :=
  if va ≥ 2 ^ 57 then none else match translate s c va with | .leaf l => some l | _ => none

/-- The checks of R176 to R178 over the rows of a shape, then translation: the page of row 0 comes first. -/
def tileRows (s : State) (c : Ctx) (sup : Bool) (want : Want) (sh : Nat × Nat × Nat) (base : Nat) (stride : Int) : Rows :=
  let (rows, kblk, kind) := sh
  let n := kblk * kindBlock kind
  let addr (i : Nat) : Nat := (((base : Int) + i * stride) % (2 ^ 64 : Nat)).toNat
  let one (i : Nat) : Nat × Option Leaf := (addr i, leafAt s c (addr i))
  let all := (List.range rows).map fun i => (i, one i)
  let misaligned (x : Nat × Nat × Option Leaf) : Bool := match x.2.2 with
    | some l => if l.fmt == 0 then base % 16 != 0 || stride % 16 != 0
        else match blockIndex l.logSize (slotBits l.fmt) (x.2.1 % 2 ^ l.logSize) with
          | some j => j + kblk > blocksIn l.logSize (slotBits l.fmt)
          | none => true
    | none => false
  let parts := all.flatMap fun (i, va, l) =>
    let fmt := (l.map (·.fmt)).getD 0
    if fmt == 0 then [{ row := i, va := va, len := n, block := none, fmt := 0 : TileRow }]
    else (List.range kblk).map fun kb => { row := i, va := va + strideOf (slotBits fmt) * kb, len := strideOf (slotBits fmt), block := some kb, fmt := fmt : TileRow }
  let trs := parts.flatMap fun p => (pieces p.va (List.replicate p.len 0)).map fun (a, _) => (p, a, tr s c sup want a)
  let badFmt (p : TileRow) (t : Tr) : Bool := match t with
    | .ok _ _ l => if p.block.isSome then kind ≥ 4 || slotBits l.fmt != kindSlot kind else l.fmt != 0
    | .perm => true
    | .miss _ => false
  match (if addr 0 < 2 ^ 57 && (translate s c (addr 0) matches .bad) then some (0x11, addr 0) else none).or ((all.find? misaligned).map fun x => (0x03, x.2.1)) with
  | some (code, va) => .fault code va
  | none =>
    match trs.find? fun (p, _, t) => badFmt p t with
    | some (_, a, _) => .fault 0x11 a
    | none =>
      match trs.filterMap fun (_, _, t) => match t with | .miss m => some m | _ => none with
      | [] => .go parts
      | ms => .miss ms

/-- The pieces of storage of a span, which translates. (DEDUCED, log 23) -/
def spanPieces (s : State) (c : Ctx) (sup : Bool) (want : Want) (va len : Nat) : List (Sp × Nat × Nat) :=
  (pieces va (List.replicate len 0)).filterMap fun (a, z) => match tr s c sup want a with
    | .ok sp pa _ => some (sp, pa, z.length)
    | _ => none

/-- The tile writes of a row or block that delivers poison (R179). -/
def poisonRow (sh : Nat × Nat × Nat) (p : TileRow) : TileWrite :=
  let kind := sh.2.2
  let kbs := match p.block with | some kb => [kb] | none => List.range sh.2.1
  if kind ≥ 4 then { row := p.row, bytes := (List.replicate 32 ((if kind == 4 then fmtF16 else fmtBf16).qnan)).flatMap (leBytes 2) }
  else { row := p.row, off := (kbs.headD 0) * kindBlock kind, bytes := List.replicate (kbs.length * kindBlock kind) 0, hdr := kbs.map fun kb => (kb, 0xFF, 0) }

/-- The tile writes of a row or block as read, its MEMSTAT bits and the trap it raises (R177, R178). -/
def readRow (sh : Nat × Nat × Nat) (p : TileRow) (bs : List Byte) : TileWrite × Word × Option Nat :=
  let kind := sh.2.2
  match p.block with
  | none => ({ row := p.row, bytes := bs }, 0, none)
  | some kb =>
    let slot := slotBits p.fmt
    let b := blkBits bs
    let off := kb * kindBlock kind
    let blank (scale tag : Nat) : TileWrite := { row := p.row, off := off, bytes := List.replicate (kindBlock kind) 0, hdr := [(kb, scale, tag)] }
    if checkOf b slot != b % 64 then (blank 0xFF 0, 3, some 0x15)
    else if slot == 4 && blkTag b == 2 then (blank 0x7F 3, 2, some 0x15)
    else ({ row := p.row, off := off, bytes := codeBytes kind ((List.range 32).map fun i => blkCode b slot i), hdr := [(kb, blkScale b, blkTag b)] }, 0, none)

/-! ## The engine performs an instruction -/

/-- What performing changes in the block, and what the instruction's result carries. -/
def engRun (b : Block) (op : EngOp) : Block × Result :=
  let sh := op.shapes.headD (0, 0, 0)
  match op.instr with
  | .tshape x =>
    if x.imm.getLsbD 13 then
      let t := b.tile x.d.toNat
      let t := (List.range 64).foldl (fun t r => (List.range 4).foldl (fun t kb => setHeader t r kb (immBits x 23 16) (immBits x 15 14)) t) t
      (b.setTile x.d.toNat t, {})
    else (b, {})
  | .tzero x =>
    if x.imm.getLsbD 0 then (b.setAcc x.d.toNat [], {})
    else (b.setTile x.d.toNat { b.tile x.d.toNat with bytes := [], scale := [], tag := [] }, {})
  | .tld x => (b.setTile x.d.toNat (op.tw.foldl applyTileWrite (b.tile x.d.toNat)), { mem := op.mem, traps := op.traps })
  | .tfeed x => (b.setTile x.d.toNat (op.tw.foldl applyTileWrite (b.tile x.d.toNat)), {})
  | .tdrain x =>
    let row := immBits x 5 0
    let ls := lanesOf op.lanes
    if x.imm.getLsbD 12 then
      let t := b.tile x.a.toNat
      if x.imm.getLsbD 14 then
        let scales (l : Nat) : Word := BitVec.ofNat 32 (leNat ((List.range 4).map fun kb => BitVec.ofNat 8 (tileScale t (row + l) kb)))
        let tags (l : Nat) : Word := BitVec.ofNat 32 ((List.range 4).foldl (fun n kb => n + tileTag t (row + l) kb * 4 ^ kb) 0)
        (b, { writes := laneWrites x.d.toNat scales ls ++ laneWrites (x.d.toNat + 1) tags ls })
      else
        let word (l : Nat) : Word := BitVec.ofNat 32 (leNat ((List.range 4).map fun i => tileByte t (row + l / 16) (4 * (l % 16) + i)))
        (b, { writes := laneWrites x.d.toNat word ls })
    else
      let a := b.acc x.a.toNat
      let col := immBits x 11 6
      let res : Result := { writes := laneWrites x.d.toNat (fun l => accAt a row (col + l)) ls }
      if x.imm.getLsbD 13 then (b.setAcc x.a.toNat (ls.foldl (fun a l => mset 0 a (64 * row + col + l) 0) a), res) else (b, res)
  | .mma x =>
    let (a, fl) := mmaRun (b.tile x.a.toNat) (b.tile x.b.toNat) sh (op.shapes.getD 1 (0, 0, 0)) (immBits x 5 0) (immBits x 11 6) (x.imm.getLsbD 20) (b.acc x.d.toNat)
    (b.setAcc x.d.toNat a, { arith := fl })
  | .acvt x =>
    let (t, fl) := acvtRun (b.tile x.d.toNat) sh (b.acc x.a.toNat) (x.imm.getLsbD 12) (immBits x 5 0) (immBits x 11 6) x.b.toNat x.ty op.rnd (x.imm.getLsbD 20)
    (b.setTile x.d.toNat t, { arith := fl })
  | .menc x =>
    let tag := if x.imm.getLsbD 15 then none else some (immBits x 14 13)
    let (t, fl) := mencRun (b.tile x.d.toNat) sh (b.acc x.a.toNat) (x.imm.getLsbD 12) (immBits x 5 0) (immBits x 11 6) tag
    (b.setTile x.d.toNat t, { arith := fl })
  | _ => (b, {})

/-- The bytes a TST stores for a row or a block (R177, R178). -/
def tileStoreBytes (t : Tile) (sh : Nat × Nat × Nat) (w : TileStore) : List Byte :=
  match w.block with
  | none => (List.range (sh.2.1 * kindBlock sh.2.2)).map fun c => tileByte t w.row c
  | some kb => blockBytes (kindSlot sh.2.2) (tileScale t w.row kb) (tileTag t w.row kb) ((List.range 32).map fun e => tileCode t sh.2.2 w.row (32 * kb + e))

/-- Bytes stored to pieces of storage as one plain access of an agent (R179, R237). -/
def storePieces (s : State) (n : Nat) (dest : List (Sp × Nat × Nat)) (bs : List Byte) : State :=
  storeParts s n (dest.foldl (fun (acc, bs) (sp, a, len) => (acc ++ [(sp, a, bs.take len)], bs.drop len)) (([] : List (Sp × Nat × List Byte)), bs)).1 none false true

/-- TST's stores when the engine performs it. (DEDUCED, log 25) -/
def tstRun (s : State) (b : Block) (op : EngOp) : State :=
  match op.instr with
  | .tst x => op.ts.foldl (fun s w => storePieces s op.agent w.dest (tileStoreBytes (b.tile x.c.toNat) (op.shapes.headD (0, 0, 0)) w)) s
  | _ => s

/-- The clock of a wave raised to the fills of the reckoned lines that it reads (R243). -/
def raiseFills (s : State) (n : Nat) (ps : List (Sp × Nat × Nat)) : State :=
  ps.foldl (fun s p => match p.1 with | .rk asn => raiseClock s n asn (p.2.1 / 128) | _ => s) s

/-- The rows of a TLD in order (R179), each one plain access of its agent: tile writes, MEMSTAT, traps by address. -/
def tldRead (s : State) (n : Nat) (sh : Nat × Nat × Nat) (ps : List (TileRow × RowSrc)) : List TileWrite × Word × List (Nat × Nat) × State :=
  ps.foldl (fun (tw, mem, traps, s) (p, src) =>
    let got : Sum Nat (List Byte) × State := match src with
      | .poison code => (.inl code, poisonedLoad s n)
      | .at ps => let (r, s) := loadParts (raiseFills s n ps) n ps 0 0 0; (if r.poison then .inl 0x12 else .inr r.bytes, s)
    match got with
    | (.inl code, s) => (tw ++ [poisonRow sh p], mem ||| 1, traps ++ [(code, p.va)], s)
    | (.inr bs, s) =>
      let (w, m, t) := readRow sh p bs
      (tw ++ [w], mem ||| m, (match t with | some c => traps ++ [(c, p.va)] | none => traps), s)) (([] : List TileWrite), (0 : Word), ([] : List (Nat × Nat)), s)

/-- The reckoned lines that a TLD reads where the engine comes to perform it: those that have left since it issued miss as a load's would
(R179, R354). Whether they all are there, or poisoned, and the instruction, to be performed or tried again. -/
def tldLines (s : State) (b : Block) (op : EngOp) : Bool × EngOp × State :=
  let c := s.ctxOf b.gang
  let m : Misser := { missOf s op.agent 0 with who := .op op.agent op.id }
  let row (s : State) (ps : List (Sp × Nat × Nat)) : Rk × State := ps.foldl (fun (acc, s) p => match acc, p.1 with
    | .poison code, _ => (.poison code, s)
    | acc, .rk _ => match leafAt s c p.2.1 with
      | some l =>
        let (go, s) := rkAccess s c (l.pfn % 4096) (p.2.1 / 128) m false
        (match go with | .present => acc | .parked => .wait false | .resource => (if acc == .wait false then acc else .wait true) | .poison code => .poison code, s)
      | none => (acc, s)
    | acc, _ => (acc, s)) (Rk.present, s)
  let (ok, ld, s) := op.ld.foldl (fun (acc : Bool × List (TileRow × RowSrc) × State) (p, src) =>
    let (ok, ld, s) := acc
    match src with
    | .poison _ => (ok, ld ++ [(p, src)], s)
    | .at ps => match row s ps with
      | (.present, s) => (ok, ld ++ [(p, src)], s)
      | (.poison code, s) => (ok, ld ++ [(p, .poison code)], s)
      | (.wait _, s) => (false, ld ++ [(p, src)], s)) (true, ([] : List (TileRow × RowSrc)), s)
  (ok, { op with ld := ld, retry := if ok then none else some s.tick }, s)

/-- A TLD's rows as the engine reads them, for the instruction it performs. (DEDUCED, log 25) -/
def tldRun (s : State) (op : EngOp) : EngOp × State :=
  let (tw, mem, traps, s) := tldRead s op.agent (op.shapes.headD (0, 0, 0)) op.ld
  let trs := ([0x12, 0x13, 0x14, 0x15] : List Nat).flatMap fun code => match traps.find? fun t => t.1 == code with
    | some (_, va) => [(code, op.lanes, BitVec.ofNat 64 va)]
    | none => []
  (if op.ld.isEmpty then op else { op with tw := tw, mem := mem, traps := trs }, s)

/-! ## Matrix jobs (R189, R294) -/

/-- The rows of a matrix job's TLD or TST under its locked translations, or the FCODE that refuses it (R294, in the order
of R286). -/
def matrixRows (j : Job) (c : Ctx) (off : Int) (write : Bool) (sh : Nat × Nat × Nat) : Except Nat (List TileRow) :=
  let (rows, kblk, kind) := sh
  let sl := j.slices.headD []
  let base := eaOf (BitVec.ofNat 64 (sl.getD 0 0)) off
  let stride := sl.getD 1 0
  let all := (List.range rows).map fun i => (i, strideAddr base i stride)
  let leaf (va : Nat) : Option Leaf := (j.storage c va).map (·.2.2)
  let len (va : Nat) : Nat := match leaf va with
    | some l => if l.fmt == 0 then kblk * kindBlock kind else kblk * strideOf (slotBits l.fmt)
    | none => 1
  let inside (va : Nat) : Bool := j.regions.any fun r => (!write || r.write) && r.va ≤ va && va + len va ≤ r.va + r.len
  let aligned (va : Nat) : Bool := match leaf va with
    | some l => if l.fmt == 0 then base % 16 == 0 && stride % 16 == 0 else match blockIndex l.logSize (slotBits l.fmt) (va % 2 ^ l.logSize) with
      | some k => k + kblk ≤ blocksIn l.logSize (slotBits l.fmt)
      | none => false
    | none => true
  let admitted (va : Nat) : Bool := match leaf va with
    | some l => (l.fmt == 0 || (kind ≤ 3 && slotBits l.fmt == kindSlot kind)) && (if write then l.w else l.r)
    | none => false
  if all.any fun x => !inside x.2 then .error 0x20
  else if all.any fun x => !aligned x.2 then .error 0x03
  else if all.any fun x => !admitted x.2 then .error 0x11
  else .ok (all.flatMap fun (i, va) =>
    let fmt := ((leaf va).map (·.fmt)).getD 0
    if fmt == 0 then [{ row := i, va := va, len := kblk * kindBlock kind, block := none, fmt := 0 : TileRow }]
    else (List.range kblk).map fun kb => { row := i, va := va + strideOf (slotBits fmt) * kb, len := strideOf (slotBits fmt), block := some kb, fmt := fmt : TileRow })

/-- The rows of a matrix job's TLD read: tile writes, with POIS and BCHK. -/
def matrixRead (s : State) (j : Job) (c : Ctx) (sh : Nat × Nat × Nat) (rows : List TileRow) : List TileWrite × Word :=
  rows.foldl (fun (tw, fl) p =>
    let (bs, po) := j.read s c p.va p.len
    if po then (tw ++ [poisonRow sh p], fl ||| 1)
    else
      let (w, m, _) := readRow sh p bs
      (tw ++ [w], fl ||| m)) (([] : List TileWrite), (0 : Word))

/-- R282's flags of a matrix job's result. -/
def matrixFlags (r : Result) : Nat := (r.mem.toNat % 4) + (if r.arith &&& flSat != 0 then 16 else 0) + (if trapping r.arith then 32 else 0)

/-- A job's operation is over: the block's state, the operation marked, the job's flags or its FCODE. -/
def matrixEnd (s : State) (g : GangKey) (role id jid : Nat) (b : Option Block) (flags fcode : Nat) : State :=
  let s := s.updBlock g role fun c =>
    let c := match b with | some b => { c with tiles := b.tiles, accs := b.accs } | none => c
    { c with engq := updWhere (fun o => o.id == id) (fun o => { o with done := true, arv := if fcode == 0 then o.arv else none }) c.engq }
  jobFlag (s.updJob jid fun j => { j with ran := true, status := fcode }) jid flags

/-- The engine performs a matrix job's word; a TLD whose reckoned lines are absent waits for them (R286). (DEDUCED, log 49) -/
def matrixPerform (s : State) (g : GangKey) (role : Nat) (b : Block) (op : EngOp) (jid : Nat) : State :=
  match s.job? jid with
  | none => matrixEnd s g role op.id jid none 0 0
  | some j =>
    let c := (s.ctx? j.ctx).getD { id := j.ctx }
    let sh := op.shapes.headD (0, 0, 0)
    match op.instr with
    | .tld x =>
      match matrixRows j c (x.imm.extractLsb' 0 24).toInt false sh with
      | .error code => matrixEnd s g role op.id jid none 0 code
      | .ok rows =>
        let (ok, s) := jobLines s jid (readSpans j (rows.map fun p => (p.va, p.len)) c)
        if !ok then s
        else
          let (tw, m) := matrixRead s ((s.job? jid).getD j) c sh rows
          let (b', r) := engRun b { op with tw := tw, mem := m }
          matrixEnd s g role op.id jid (some b') (matrixFlags r) 0
    | .tst x =>
      match matrixRows j c (x.imm.extractLsb' 0 24).toInt true sh with
      | .error code => matrixEnd s g role op.id jid none 0 code
      | .ok rows =>
        let s := rows.foldl (fun s p => jobWrite s jid p.va (tileStoreBytes (b.tile x.c.toNat) sh { row := p.row, block := p.block, dest := [] }) false) s
        matrixEnd s g role op.id jid none 0 0
    | _ =>
      let (b', r) := engRun b op
      matrixEnd s g role op.id jid (some b') (matrixFlags r) 0

/-- Whether the engine may start an accepted instruction: its object is satisfied, no earlier instruction of its
agent has still to be performed (R166, R169), no line of it is being filled (R354), and no job has still to read or write what a TST stores to (R241). -/
def engReady (s : State) (b : Block) (op : EngOp) : Bool :=
  !op.done && op.aft.isNone && (op.retry.map fun t => decide (t < s.tick)).getD true && !(s.fills.any fun f => f.nodes.any fun n => n.who == .op op.agent op.id)
    && !(b.engq.any fun o => o.agent == op.agent && o.id < op.id && !o.done)
    && !op.ts.any fun w => jobEdge s (s.ctxOf b.gang).id w.va w.len

/-- The traps that a result's flags and MEMSTAT raise, by the lanes of L (R173). -/
def engTraps (lanes : Word) (r : Result) : List (Nat × Word × Dword) :=
  r.traps ++ if trapping r.arith then [(0x50, lanes, 0)] else []

/-- The engine performs an accepted instruction, whole; what its result carries waits until it is visible. (DEDUCED, log 25; DESIGN CHOICE,
log 150) (DEDUCED, log 25) (DESIGN CHOICE, log 150) -/
def engPerform (s : State) (g : GangKey) (role id : Nat) : State :=
  match s.blockOf? g role with
  | none => s
  | some b =>
    match b.engq.find? fun o => o.id == id with
    | none => s
    | some op =>
      if !engReady s b op then s
      else
        match op.job with
        | some j => matrixPerform s g role b op j
        | none =>
          let (ok, op, s) := tldLines s b op
          if !ok then s.updBlock g role fun c => { c with engq := updWhere (fun o => o.id == id) (fun _ => op) c.engq } else
          let (op, s) := tldRun s op
          let (b', r) := engRun b op
          let s := tstRun s b op
          let s := s.updBlock g role fun c => { c with tiles := b'.tiles, accs := b'.accs, engq := updWhere (fun o => o.id == id) (fun o => { o with done := true, start := s.clk }) c.engq }
          settleTlbis { s with pend := updWhere (fun p => p.hold == .engine id) (fun p => { p with writes := p.gives r.writes, arith := r.arith, mem := r.mem, traps := engTraps op.lanes r, hold := .engineDone id }) s.pend }

/-- R169: the arrival of a completed instruction at its object, and the instructions that it satisfies. -/
def engArrive (b : Block) (k phase : Nat) : Block :=
  let o := b.obj k
  if o.phase != phase then b
  else
    let o := { o with arr := min 255 (o.arr + 1) }
    let b := b.setObj k o
    if o.arr ≥ o.count then { b with engq := updWhere (fun x => x.aft == some (k, phase)) (fun x => { x with aft := none }) b.engq } else b

/-- An engine instruction completes (R168): it leaves the engine and arrives at its object. -/
def engComplete (s : State) (g : GangKey) (role id : Nat) : State :=
  match (s.blockOf? g role).bind fun b => b.engq.find? fun o => o.id == id with
  | none => s
  | some op => s.updBlock g role fun b =>
    let b := { b with engq := b.engq.filter fun o => o.id != id }
    match op.arv with
    | some (k, ph) => engArrive b k ph
    | none => b

/-- What a gang's engines can still perform is performed and completes, in order; `n` bounds its number. -/
def engFlushN : Nat → State → GangKey → State
  | 0, s, _ => s
  | n + 1, s, g =>
    match s.blocks.findSome? fun b => if b.gang != g then none else (b.engq.find? fun o => o.job.isNone && engReady s b o).map fun o => (b.role, o.id) with
    | some (role, id) => engFlushN n (engComplete (engPerform s g role id) g role id) g
    | none => s

/-- R398: the stores of a gang's accepted TSTs take effect. (DEDUCED, log 25) -/
def engFlush (s : State) (g : GangKey) : State := engFlushN (s.blocks.map fun b => b.engq.length).sum s g

/-! ## Acceptance (R166) -/

/-- An instruction accepted by an engine: shapes take effect in acceptance order (R172), so does an arming (R186). (DEDUCED, log 27) -/
def engAccept (s : State) (g : GangKey) (role : Nat) (op : EngOp) : State :=
  match s.blockOf? g role with
  | none => s
  | some b =>
    let lb := linkByte op.instr
    let waitOn : Option Nat := match op.instr with
      | .bobjWait x => some x.d.toNat
      | _ => if bitOf lb 7 then some (bitsOf lb 6 4) else none
    let aft := waitOn.bind fun k => if (b.obj k).arr ≥ (b.obj k).count then none else some (k, (b.obj k).phase)
    let arv := if bitOf lb 3 then some (bitsOf lb 2 0, (b.obj (bitsOf lb 2 0)).phase) else none
    let b' := match op.instr with
      | .tshape x => b.setTile x.d.toNat { b.tile x.d.toNat with rows := immBits x 12 6, kblk := immBits x 5 3, kind := immBits x 2 0 }
      | .bobjArm x => b.setObj x.d.toNat { count := immBits x 15 8, arr := 0, phase := (b.obj x.d.toNat).phase + 1 }
      | _ => b
    let op := { op with shapes := engShapes b op.instr, aft := aft, arv := arv }
    let s := s.updBlock g role fun c => { c with tiles := b'.tiles, bobj := b'.bobj, engq := c.engq ++ [op] }
    if b.engBusy then s else engPerform s g role op.id

/-- The vector registers that an engine instruction will write: those of a TDRAIN (R181). -/
def engDest (i : Instr) (lanes : Word) : List Nat :=
  match i with
  | .tdrain x => laneKeys x.d.toNat lanes ++ if x.imm.getLsbD 14 then laneKeys (x.d.toNat + 1) lanes else []
  | _ => []

/-- The common frame of an engine instruction of a wave: its checks, then, with a lane in L, what `body` prepares, and
acceptance. The result waits until the engine has performed it. -/
def engInstr (s : State) (i : Instr) (g : Ctl) (nd : Need) (opens : Bool) (energy : Block → Nat)
    (body : Iss → State → Block → Sum Fate (EngOp → EngOp) × State) : Host.Outcome State Fault Refusal :=
  instr s g { nd with pilot := false, base := 0 } fun k s =>
    match s.blockOf? k.gang k.role with
    | none => (s, .gone)
    | some b =>
      if !engCheck b i then (s, .fault 0x01 k.lanes 0)
      else
        let s := charge s k.gang k.role (energy b)
        if k.lanes == 0 then (s, .done)
        else match body k s b with
          | (.inl f, s) => (s, f)
          | (.inr f, s) =>
            let id := s.nextId
            let s := { s with nextId := id + 1 }
            let s := k.later s g { hold := .engine id, opens := opens, dest := engDest i k.lanes }
            (engAccept s k.gang k.role (f { id := id, agent := k.agent, instr := i, lanes := k.lanes }), .done)

def engPlain (_ : Iss) (s : State) (_ : Block) : Sum Fate (EngOp → EngOp) × State := (.inr id, s)

/-! ## TLD and TST of a wave (R176-R179) -/

/-- The reckoned lines of every row, each by the page of its own bytes: a wave parks at issue for those that are absent (R179, R354). -/
def rowsRk (s : State) (k : Iss) (rows : List TileRow) : List (TileRow × Rk) × State :=
  let c := s.ctxOf k.gang
  let line (acc : Rk × State) (a : Nat) : Rk × State := match acc.1, leafAt acc.2 c a with
    | .poison _, _ | _, none => acc
    | old, some l =>
      if !l.rk then acc
      else match rkLines acc.2 k.agent k.path c (l.pfn % 4096) [a / 128] with
        | (.present, s) => (old, s)
        | (.wait true, s) => (if old == .wait false then old else .wait true, s)
        | r => r
  rows.foldl (fun (acc, s) p => let (r, s) := ((pieces p.va (List.replicate p.len 0)).map (·.1)).foldl line (Rk.present, s); (acc ++ [(p, r)], s)) (([] : List (TileRow × Rk)), s)

/-- Where every row of a TLD comes from: its pieces of storage, or the poison that its lines completed with. -/
def rowSrcs (s : State) (k : Iss) (ps : List (TileRow × Rk)) : List (TileRow × RowSrc) :=
  ps.map fun (p, rk) => match rk with
    | .poison code => (p, .poison code)
    | _ => (p, .at (spanPieces s (s.ctxOf k.gang) k.sup .read p.va p.len))

/-- The base address and stride of a TLD or TST: registers of the lowest lane of L (R165, R176). -/
def tileBase (k : Iss) (x : Eng) : Nat × Int :=
  let l := (lanesOf k.lanes).headD 0
  (eaOf (k.src.get64 x.a.toNat l) (x.imm.extractLsb' 0 24).toInt, (k.src.get x.b.toNat l).toInt)

/-- Every lane of L waits: the whole instruction is issued again (R172). -/
def parkAll (s : State) (k : Iss) (ms : List Miss) (ws : List Bool) : State × Fate :=
  parkOrDone s k { miss := ms.flatMap (fun m => (lanesOf k.lanes).map fun l => (l, m)), wait := if ms.isEmpty then (ws.flatMap fun b => (lanesOf k.lanes).map fun l => (l, b)) else [] }

/-- TLD's part at issue (R176-R179): its checks, and where its rows come from. (DEDUCED, log 26) -/
def tldPrepare (x : Eng) (k : Iss) (s : State) (b : Block) : Sum Fate (EngOp → EngOp) × State :=
  let sh := shapeOf (b.tile x.d.toNat)
  let (base, stride) := tileBase k x
  let c := s.ctxOf k.gang
  match tileRows s c k.sup .read sh base stride with
  | .fault code info => (.inl (.fault code k.lanes (BitVec.ofNat 64 info)), s)
  | .miss ms => let (s, f) := parkAll s k ms []; (.inl f, s)
  | .go rows =>
    let s := touchAll s k.gang (rows.map (·.va))
    let (rk, s) := rowsRk s k rows
    let waits := rk.filterMap fun (_, r) => match r with | .wait b => some b | _ => none
    if !waits.isEmpty then let (s, f) := parkAll s k [] waits; (.inl f, s)
    else
      let s := forgetAborts s k.agent k.path c.asn (rows.flatMap fun p => spanLines p.va p.len)
      (.inr fun op => { op with ld := rowSrcs s k rk }, s)

/-- TST's part at issue: where its rows go (R176-R179, R241). -/
def tstPrepare (x : Eng) (k : Iss) (s : State) (b : Block) : Sum Fate (EngOp → EngOp) × State :=
  let sh := shapeOf (b.tile x.c.toNat)
  let (base, stride) := tileBase k x
  let c := s.ctxOf k.gang
  match tileRows s c k.sup .write sh base stride with
  | .fault code info => (.inl (.fault code k.lanes (BitVec.ofNat 64 info)), s)
  | .miss ms => let (s, f) := parkAll s k ms []; (.inl f, s)
  | .go rows =>
    if rows.any fun p => jobEdge s c.id p.va p.len then (.inl .hold, s)
    else
      let s := touchAll s k.gang (rows.map (·.va))
      (.inr fun op => { op with ts := rows.map fun p => { row := p.row, block := p.block, dest := spanPieces s c k.sup .write p.va p.len, va := p.va, len := p.len } }, s)

/-! ## The instructions -/

def engNeed (rs : List (Nat × Nat)) : Need := { regs := rs }
def energy64 (_ : Block) : Nat := 64

def execTshape (x : Eng) (s : State) : Host.Outcome State Fault Refusal := engInstr s (.tshape x) x.ctl (engNeed []) true energy64 engPlain
def execTzero (x : Eng) (s : State) : Host.Outcome State Fault Refusal := engInstr s (.tzero x) x.ctl (engNeed []) true energy64 engPlain

def execTld (x : Eng) (s : State) : Host.Outcome State Fault Refusal :=
  engInstr s (.tld x) x.ctl (engNeed [(x.a.toNat, 2), (x.b.toNat, 1)]) true energy64 (tldPrepare x)

def execTst (x : Eng) (s : State) : Host.Outcome State Fault Refusal :=
  engInstr s (.tst x) x.ctl (engNeed [(x.a.toNat, 2), (x.b.toNat, 1)]) false energy64 (tstPrepare x)

/-- TFEED's sources, read at issue (R180). -/
def feedWrites (x : Eng) (k : Iss) : List TileWrite :=
  let row := immBits x 5 0
  (lanesOf k.lanes).map fun l =>
    if x.imm.getLsbD 8 then
      { row := row + l, hdr := (List.range 4).map fun kb => (kb, (k.src.get x.a.toNat l).toNat / 256 ^ kb % 256, (k.src.get (x.a.toNat + 1) l).toNat / 4 ^ kb % 4) }
    else { row := row + l / 16, off := 4 * (l % 16), bytes := leBytes 4 (k.src.get x.a.toNat l).toNat }

def execTfeed (x : Eng) (s : State) : Host.Outcome State Fault Refusal :=
  engInstr s (.tfeed x) x.ctl (engNeed [(x.a.toNat, if x.imm.getLsbD 8 then 2 else 1)]) true energy64 fun k s _ => (.inr fun op => { op with tw := feedWrites x k }, s)

def execTdrain (x : Eng) (s : State) : Host.Outcome State Fault Refusal :=
  engInstr s (.tdrain x) x.ctl (engNeed [(x.d.toNat, if x.imm.getLsbD 14 then 2 else 1)]) true energy64 engPlain

/-- R409: 4 M N KBLK. -/
def mmaEnergy (x : Eng) (b : Block) : Nat :=
  let t := b.tile x.a.toNat
  4 * t.rows * (b.tile x.b.toNat).rows * t.kblk

def execMma (x : Eng) (s : State) : Host.Outcome State Fault Refusal := engInstr s (.mma x) x.ctl (engNeed []) true (mmaEnergy x) engPlain

def execAcvt (x : Eng) (s : State) : Host.Outcome State Fault Refusal :=
  engInstr s (.acvt x) x.ctl (engNeed []) true energy64 fun k s _ => (.inr fun op => { op with rnd := modeOfCode (immBits x 23 21) k.src.rnd }, s)

def execMenc (x : Eng) (s : State) : Host.Outcome State Fault Refusal := engInstr s (.menc x) x.ctl (engNeed []) true energy64 engPlain
def execBobjArm (x : Eng) (s : State) : Host.Outcome State Fault Refusal := engInstr s (.bobjArm x) x.ctl (engNeed []) false energy64 engPlain
def execBobjWait (x : Eng) (s : State) : Host.Outcome State Fault Refusal := engInstr s (.bobjWait x) x.ctl (engNeed []) false energy64 engPlain

end Sys2Proof.Machine
end

