-- ==== Sys2Proof/Machine/Copy.lean ====
section
/-! DEFINITION. The copy engines' instructions (R286-R295): CPY, CPYQ, CBLD, GTHR, JOB and STAGE, and the events of a job:
its start and its completion. -/

namespace Sys2Proof.Machine

/-! ## Commands (R287, R288, R292) -/

/-- What a copy does to its data (R287). -/
structure Xform where
  xf : Nat
  ty : Ty
  tag : Nat
  auto : Bool
  deriving DecidableEq, Repr

/-- The bytes that a row of n takes under a leaf of its page. -/
def blockLen (n : Nat) (l : Option Leaf) : Nat := match l with
  | some l => if l.fmt == 0 then n else n * strideOf (slotBits l.fmt)
  | none => n

def srcLen (x : Xform) (n : Nat) (l : Option Leaf) : Nat := match x.xf with
  | 1 => blockLen n l
  | 2 => 32 * n * x.ty.bytes
  | _ => n

def dstLen (x : Xform) (n : Nat) (l : Option Leaf) : Nat := match x.xf with
  | 0 => n
  | 1 => 32 * n * x.ty.bytes
  | 2 => blockLen n l
  | _ => 16 * n

/-- The rows of a slice: their source and destination addresses. -/
def sliceRows (sl : List Nat) : List (Nat × Nat) :=
  if sl.getD 2 0 == 0 then [] else (List.range (sl.getD 3 0)).map fun r => (strideAddr (sl.getD 0 0) r (sl.getD 4 0), strideAddr (sl.getD 1 0) r (sl.getD 5 0))

/-- R287: a slice's counts within their limits. -/
def sliceLimits (x : Xform) (sl : List Nat) : Bool := sl.getD 2 0 ≤ (if x.xf == 0 then 1048576 else 65536) && sl.getD 3 0 ≤ 4096

/-- The extents of a slice (R288), with the page formats its transform admits. -/
def sliceExts (s : State) (c : Ctx) (x : Xform) (sl : List Nat) : List Ext :=
  let n := sl.getD 2 0
  (sliceRows sl).flatMap fun (a, b) =>
    [{ va := a, len := srcLen x n (leafAt s c a), write := false, fmt := if x.xf == 1 then 2 else if x.xf == 2 then 1 else 0 : Ext },
     { va := b, len := dstLen x n (leafAt s c b), write := true, fmt := if x.xf == 1 then 1 else if x.xf == 2 then (if !x.auto && x.tag == 2 then 3 else 2) else 0 : Ext }]

/-- Whether a row's blocks start at a block start and lie in one page. -/
def blockRow (s : State) (c : Ctx) (n va : Nat) : Bool := match leafAt s c va with
  | some l => l.fmt == 0 || (match blockIndex l.logSize (slotBits l.fmt) (va % 2 ^ l.logSize) with
    | some j => j + n ≤ blocksIn l.logSize (slotBits l.fmt)
    | none => false)
  | none => true

/-- R288's alignments: the address of the first that fails. -/
def sliceMisaligned (s : State) (c : Ctx) (x : Xform) (sl : List Nat) : Option Nat :=
  let g (i : Nat) : Nat := sl.getD i 0
  let off (i : Nat) : Bool := g i % 16 != 0
  let rows := sliceRows sl
  match x.xf with
  | 0 => if off 0 || off 2 || off 4 then some (g 0) else if off 1 || off 5 then some (g 1) else none
  | 1 => if off 1 || off 5 then some (g 1) else (rows.find? fun r => !blockRow s c (g 2) r.1).map (·.1)
  | 2 => if off 0 || off 4 then some (g 0) else (rows.find? fun r => !blockRow s c (g 2) r.2).map (·.2)
  | _ => if off 1 || off 5 then some (g 1) else none

/-- The extents of a gather: I, T, Q, N, E, esz (R292). -/
def gatherExts (sl : List Nat) : List Ext :=
  let g (i : Nat) : Nat := sl.getD i 0
  let qm := g 2 + roundUp (g 3 * g 5) 8
  [{ va := g 0, len := 4 * g 3, write := false }, { va := g 1, len := g 4 * g 5, write := false },
   { va := g 2, len := qm + (g 3 + 7) / 8 - g 2, write := true }]

def gatherMisaligned (sl : List Nat) : Option Nat :=
  let g (i : Nat) : Nat := sl.getD i 0
  let m := min (g 5) 16
  if g 0 % 4 != 0 then some (g 0) else if g 1 % m != 0 then some (g 1) else if g 2 % m != 0 then some (g 2) else none

def extsSum (es : List Ext) : Nat := es.foldl (fun n e => n + e.len) 0

/-- R286's steps 4 to 8 over a submission. -/
def submitPages (s : State) (c : Ctx) (sup : Bool) (es : List Ext) (mis : Option Nat) (stamp : Nat) (held : List Xlate) : PageCheck :=
  match mis with
  | some va => .fault 0x03 va
  | none => if stamp % 8 != 0 then .fault 0x03 stamp else checkPages s c sup es held

/-- R286's steps 3 to 8 over a submission. -/
def submitCheck (s : State) (c : Ctx) (sup limits : Bool) (es : List Ext) (mis : Option Nat) (stamp : Nat) (held : List Xlate) : PageCheck :=
  if !limits || selfOverlap (es.map Ext.region) then .fault 0x20 0 else submitPages s c sup es mis stamp held

/-! ## The frame of a submission -/

/-- Bytes moved, for R409. -/
def copyEnergy (bytes : Nat) : Nat := 32 + (bytes + 127) / 128

/-- A result that is there at once, whatever the counter: registers but for those that a higher slot of the bundle has written
(R55), MEMSTAT, and completion traps that are due. -/
def Iss.now (k : Iss) (s : State) (r : Result) : State :=
  let s := s.mapRegs k.agent fun q => { q.setKeys (r.writes.filter fun w => !k.kept.contains w.1) with arith := q.arith ||| r.arith, mem := q.mem ||| r.mem }
  addDue s k.agent k.path ((r.traps.filter fun t => trapEnabled k.src.trapen t.1).map fun (code, m, info) => { code := code, kind := 1, mask := m, info := info, pc := k.pc, sup := k.sup })

/-- The result of a submitted job (R290): D at submission; a counter drops when the write pointer advances. -/
def jobResult (k : Iss) (s : State) (g : Ctl) (d : Nat) (j : Job) : State :=
  let ws := pairWrites d j.seq (lanesOf k.lanes)
  if g.cnt == 0 then k.later s g { writes := ws }
  else k.later (k.now s { writes := ws }) g { hold := .job j.id }

/-- A checked job submitted: it needs its entry and its locks (R278). -/
def submitOne (k : Iss) (s : State) (g : Ctl) (d : Nat) (j : Job) (energy : Nat) (room : Bool) (after : Job → State → State) : State × Fate :=
  if !room || !s.locksFree j.cluster j.locks then (s, .hold)
  else
    let s := charge s k.gang (if k.pilot then 0 else k.role) energy
    let (j, s) := submitJob s k.agent (((s.agent? k.agent).map (·.clock)).getD 0) (jobOrigin s k.agent j)
    (jobResult k (after j s) g d j, .done)

/-- The job of an issuing agent, before its own fields. -/
def Iss.job (k : Iss) (s : State) (kind chan : Nat) : Job :=
  { id := 0, ctx := (s.ctxOf k.gang).id, cluster := s.clusterOf k.gang, chan := chan, kind := kind, agents := [k.agent], gang := k.gang, role := k.role, sup := k.sup }

/-- The name of a codebook's owner (R291): a block by its launch and number, a pilot program by its own name. -/
def ownerKey (s : State) (k : Iss) : List Nat :=
  let c := (s.ctxOf k.gang).id
  if k.pilot then [1, c, ((s.agent? k.agent).map (·.born)).getD 0]
  else [0, c, k.gang.launch, ((s.blockOf? k.gang k.role).map (·.blockIdx)).getD 0]

def State.book (s : State) (cluster chan : Nat) : Codebook := findD (fun b => b.cluster == cluster && b.chan == chan) s.books { cluster := cluster, chan := chan }

def State.setBook (s : State) (b : Codebook) : State :=
  { s with books := b :: s.books.filter fun x => !(x.cluster == b.cluster && x.chan == b.chan) }

/-- Eight command registers of a lane. -/
def cmdRegs (r : Regs) (a l : Nat) : List Nat := (List.range 8).map fun i => (r.get (a + i) l).toNat

/-- A slice of its eight command words (R287): strides as 64-bit numbers. -/
def sliceOfCmd (w : List Nat) : List Nat :=
  let g (i : Nat) : Nat := w.getD i 0
  let sx (x : Nat) : Nat := ((BitVec.ofNat 32 x).signExtend 64).toNat
  [g 0 + 2 ^ 32 * g 1, g 2 + 2 ^ 32 * g 3, g 4, g 5, sx (g 6), sx (g 7)]

/-- A gather's command words (R292). -/
def gatherOfCmd (w : List Nat) (esz : Nat) : List Nat :=
  let g (i : Nat) : Nat := w.getD i 0
  [g 0 + 2 ^ 32 * g 1, g 2 + 2 ^ 32 * g 3, g 4 + 2 ^ 32 * g 5, g 6, g 7, esz]

def xformOf (x : Eng) : Xform := { xf := fieldOf x.imm 4 3, ty := x.ty, tag := fieldOf x.imm 6 5, auto := x.imm.getLsbD 7 }

/-- What the checks of a submission leave to the instruction. -/
def afterCheck (s : State) (k : Iss) (p : PageCheck) (f : List Xlate → State × Fate) : State × Fate :=
  match p with
  | .fault code info => (s, .fault code k.lanes (BitVec.ofNat 64 info))
  | .miss ms => parkAll s k ms []
  | .ok locks => f locks

def cpyNeed (x : Eng) : Need := { regs := [(x.d.toNat, 2), (x.a.toNat, 8), (x.b.toNat, 2)], base := 0, feature := if fieldOf x.imm 4 3 == 3 then some 5 else none }

/-! ## CPY and CPYQ -/

/-- A copy of one agent (R287, R288), with a shared entry or the pilot program's reserved one. -/
def copyOne (x : Eng) (k : Iss) (s : State) (reserved : Option (List Nat)) : State × Fate :=
  let l := (lanesOf k.lanes).headD 0
  let c := s.ctxOf k.gang
  let ch := fieldOf x.imm 2 0
  let xf := xformOf x
  let sl := sliceOfCmd (cmdRegs k.src x.a.toNat l)
  let stamp := (k.src.get64 x.b.toNat l).toNat
  if xf.xf == 3 && (s.book (s.clusterOf k.gang) ch).owner != ownerKey s k then (s, .fault 0x04 k.lanes 0)
  else
    let ok := sliceLimits xf sl
    let es := (if ok then sliceExts s c xf sl else []) ++ stampExt stamp
    afterCheck s k (submitCheck s c k.sup ok es (sliceMisaligned s c xf sl) stamp []) fun locks =>
      let j := { k.job s 0 ch with xform := xf.xf, ty := xf.ty, tag := xf.tag, auto := xf.auto, slices := [sl], regions := es.map Ext.region, locks := locks, stamp := stamp, reserved := reserved }
      submitOne k s x.ctl x.d.toNat j (copyEnergy (extsSum es)) (match reserved with | some key => s.reserveFree j.cluster key | none => s.sharedFree j.cluster) fun _ s => s

/-- CPY (R287). -/
def execCpy (x : Eng) (s : State) : Host.Outcome State Fault Refusal :=
  instr s x.ctl (cpyNeed x) fun k s => if k.lanes == 0 then (s, .done) else copyOne x k s none

/-- A wave's contribution to its block's collective (R289); a fill's wave has no such block (R352). A contribution that completes its
collective takes the checks of the whole job (R286), and does not issue while the job cannot be submitted (R278). (DEDUCED, log 51) -/
def contribute (x : Eng) (k : Iss) (s : State) : State × Fate :=
  let l := (lanesOf k.lanes).headD 0
  let some_ := k.lanes != 0
  let c := s.ctxOf k.gang
  let xf := xformOf x
  let word := [fieldOf x.imm 2 0, xf.xf, xf.tag, if xf.auto then 1 else 0]
  let stamp := (k.src.get64 x.b.toNat l).toNat
  let sl := sliceOfCmd (cmdRegs k.src x.a.toNat l)
  let old := s.colls.find? fun q => q.gang == k.gang && q.role == k.role && !q.waves.contains k.agent
  let q : Collective := old.getD { gang := k.gang, role := k.role, word := word, ty := x.ty }
  if (s.agentFill k.agent).isSome || q.word != word || q.ty != x.ty || (some_ && (q.stamp.map fun t => t != stamp).getD false)
      || (some_ && xf.xf == 3 && (s.book (s.clusterOf k.gang) (fieldOf x.imm 2 0)).owner != ownerKey s k) then (s, .fault 0x04 k.lanes 0)
  else
    let ok := !some_ || sliceLimits xf sl
    let own := if some_ && ok then sliceExts s c xf sl else []
    let st := if some_ && q.stamp.isNone then stampExt stamp else []
    let clash := own.any fun a => q.exts.any fun b => a.region.meets b.region && (a.write || b.write)
    let mis := if some_ then sliceMisaligned s c xf sl else none
    let all := ({ q with exts := q.exts ++ own, stamp := if some_ then some stamp else q.stamp : Collective }.job).map Ext.region
    afterCheck s k (submitCheck s c k.sup (ok && !clash && !selfOverlap all) (own ++ st) mis (if st.isEmpty then 0 else stamp) q.pages) fun pages =>
      let id := s.nextId
      let q' := { q with stamp := if some_ then some stamp else q.stamp, waves := q.waves ++ [k.agent], slices := if some_ then q.slices ++ [sl] else q.slices,
                         exts := q.exts ++ own, pages := pages, pends := q.pends ++ [id], last := some k.agent,
                         clock := ((s.agent? k.agent).map (·.clock)).getD 0, sup := k.sup }
      let t := k.later s x.ctl { hold := .coll x.d.toNat k.lanes }
      let t := { t with colls := match old with | some o => updWhere (fun z => z == o) (fun _ => q') t.colls | none => t.colls ++ [q'] }
      let last := if collDone t q' && q'.stamp.getD 0 != 0 then 8 else 0
      let t := submitReady (charge t k.gang k.role (copyEnergy (extsSum own + last)))
      if !collDone s q' then (t, .done)
      else match checkPages s c k.sup q'.job [] with
        | .fault code info => if some_ then (s, .fault code k.lanes (BitVec.ofNat 64 info)) else (t, .done)
        | .miss ms => if some_ then parkAll s k ms [] else (t, .done)
        | .ok _ => if t.colls.any fun z => z.pends.contains id then (s, .hold) else (t, .done)

/-- CPYQ (R289). (DEDUCED, log 50) -/
def execCpyq (x : Eng) (s : State) : Host.Outcome State Fault Refusal :=
  instr s x.ctl (cpyNeed x) fun k s =>
    if k.pilot then
      if k.lanes == 0 then (s, .done)
      else copyOne x k s (some (entryKey true k.gang 0 (((s.agent? k.agent).map (·.idx)).getD 0)))
    else contribute x k s

/-! ## CBLD and GTHR -/

/-- CBLD (R291). -/
def execCbld (x : Eng) (s : State) : Host.Outcome State Fault Refusal :=
  instr s x.ctl { regs := [(x.d.toNat, 2), (x.a.toNat, 2), (x.b.toNat, 2)], base := 0, feature := some 5 } fun k s =>
    if k.lanes == 0 then (s, .done)
    else
      let l := (lanesOf k.lanes).headD 0
      let ch := fieldOf x.imm 2 0
      let n := fieldOf x.imm 10 3 + 1
      let a := (k.src.get64 x.a.toNat l).toNat
      let stamp := (k.src.get64 x.b.toNat l).toNat
      let es : List Ext := { va := a, len := 16 * n, write := false } :: stampExt stamp
      afterCheck s k (submitCheck s (s.ctxOf k.gang) k.sup true es (if a % 16 == 0 then none else some a) stamp []) fun locks =>
        let j := { k.job s 2 ch with slices := [[a, n]], regions := es.map Ext.region, locks := locks, stamp := stamp }
        submitOne k s x.ctl x.d.toNat j (copyEnergy (extsSum es)) (s.sharedFree j.cluster) fun j s => s.setBook { s.book j.cluster ch with owner := ownerKey s k }

/-- GTHR (R292). -/
def execGthr (x : Eng) (s : State) : Host.Outcome State Fault Refusal :=
  instr s x.ctl { regs := [(x.d.toNat, 2), (x.a.toNat, 8), (x.b.toNat, 2)], base := 0 } fun k s =>
    if k.lanes == 0 then (s, .done)
    else
      let l := (lanesOf k.lanes).headD 0
      let ch := fieldOf x.imm 2 0
      let sl := gatherOfCmd (cmdRegs k.src x.a.toNat l) (2 ^ fieldOf x.imm 5 3)
      let stamp := (k.src.get64 x.b.toNat l).toNat
      let es := gatherExts sl ++ stampExt stamp
      afterCheck s k (submitCheck s (s.ctxOf k.gang) k.sup (sl.getD 3 0 ≤ 65536) es (gatherMisaligned sl) stamp []) fun locks =>
        let j := { k.job s 1 ch with slices := [sl], regions := es.map Ext.region, locks := locks, stamp := stamp }
        submitOne k s x.ctl x.d.toNat j (copyEnergy (extsSum es)) (s.sharedFree j.cluster) fun _ s => s

/-! ## JOB (R293, R294) -/

/-- The words that a matrix job may carry (R189): unguarded, with neither lookahead nor counter. -/
def matrixWord (w : Slot) : Option Instr :=
  match decode w with
  | .ok i =>
    let plain (g : Ctl) : Option Instr := if g = {} then some i else none
    match i with
    | .tshape x | .tzero x | .tld x | .tst x | .mma x | .acvt x | .menc x | .bobjArm x => plain x.ctl
    | _ => none
  | .error _ => none

/-- The card's valid regions (R293). -/
def cardRegions (b : List Byte) : List Region :=
  (List.range 4).filterMap fun i =>
    let f := leField b (60 + 16 * i) 4
    if bitOf f 0 then some { va := leField b (48 + 16 * i) 8, len := leField b (56 + 16 * i) 4, write := bitOf f 1 } else none

/-- Fields of a card that must be zero. -/
def cardZeros (b : List Byte) (kind : Nat) : Bool :=
  leField b 4 4 == 0 && leField b 112 16 == 0 && (kind != 3 || leField b 32 16 == 0) && (List.range 4).all fun i => leField b (60 + 16 * i) 4 < 4

/-- The transform of a card (R293): one that CPY would accept. -/
def cardXform (s : State) (b : List Byte) : Option Xform :=
  let ctl := leField b 2 1
  let x : Xform := { xf := ctl % 4, ty := (tyOfCode (leField b 3 1)).getD .none, tag := bitsOf ctl 3 2, auto := bitOf ctl 4 }
  let tyOk := (tyOfCode (leField b 3 1)).isSome && match x.xf with
    | 0 | 3 => x.ty == .none
    | 1 => x.ty == .f32 || x.ty == .f16 || x.ty == .bf16 || x.ty == .s32
    | _ => x.ty == .f32 || x.ty == .f16 || x.ty == .bf16
  if ctl < 32 && tyOk && (x.xf == 2 || (x.tag == 0 && !x.auto)) && (!x.auto || x.tag == 0) && x.tag != 3 && (x.xf != 3 || s.feature 5) then some x else none

/-- A derived extent inside one valid region of the card. -/
def inCard (rs : List Region) (e : Ext) : Bool := e.len == 0 || rs.any fun r => (!e.write || r.write) && r.va ≤ e.va && e.va + e.len ≤ r.va + r.len

/-- A card's job: its kind and fields, its derived extents, its misaligned address, and whether step 3 holds so far. -/
structure Card where
  kind : Nat
  chan : Nat
  xf : Xform := { xf := 0, ty := .none, tag := 0, auto := false }
  slice : List Nat := []
  exts : List Ext := []
  mis : Option Nat := none
  ok : Bool := true
  deriving DecidableEq, Repr

/-- (DEDUCED, log 48) -/
def cardOf (s : State) (c : Ctx) (b : List Byte) (base : Nat) : Card :=
  let kind := leField b 0 1
  let unit := leField b 1 1
  let cmd := (List.range 8).map fun i => leField b (16 + 4 * i) 4
  let zeros := cardZeros b kind
  match kind with
  | 1 =>
    let sl := sliceOfCmd cmd
    match cardXform s b with
    | none => { kind := 0, chan := unit, ok := false }
    | some x =>
      let ok := zeros && unit < 8 && sliceLimits x sl
      { kind := 0, chan := unit, xf := x, slice := sl, exts := if ok then sliceExts s c x sl else [], mis := sliceMisaligned s c x sl, ok := ok }
  | 2 =>
    let ctl := leField b 2 1
    let sl := gatherOfCmd cmd (2 ^ (ctl % 8))
    let ok := zeros && unit < 8 && ctl < 8 && ctl ≥ 2 && leField b 3 1 == 0 && sl.getD 3 0 ≤ 65536
    { kind := 1, chan := unit, slice := sl, exts := if ok then gatherExts sl else [], mis := gatherMisaligned sl, ok := ok }
  | 3 =>
    { kind := 3, chan := 8 + unit, slice := [base, ((BitVec.ofNat 32 (leField b 28 4)).signExtend 64).toNat], ok := zeros && leField b 2 1 == 0 && leField b 3 1 == 0 }
  | _ => { kind := 0, chan := 0, ok := false }

/-- The submission of a card that has been read. A matrix job is a pilot program's: from a wave its role is refused (R164, R286).
(DEDUCED, logs 49 and 126) (DEDUCED, log 49) (DEDUCED, log 126) -/
def submitCard (x : Eng) (k : Iss) (s : State) (b : List Byte) : State × Fate :=
  let l := (lanesOf k.lanes).headD 0
  let c := s.ctxOf k.gang
  let kind := leField b 0 1
  let unit := leField b 1 1
  let word := if kind == 3 then matrixWord (BitVec.ofNat 96 (leField b 16 12)) else none
  let card := cardOf s c b (k.src.get64 x.b.toNat l).toNat
  let size := ((s.gang? k.gang).map (·.size)).getD 1
  if kind == 3 && word.isNone then (s, .fault 0x01 k.lanes 0)
  else if (kind == 3 && (unit ≥ size || !k.pilot)) || (kind == 1 && leField b 2 1 % 4 == 3 && (s.book (s.clusterOf k.gang) unit).owner != ownerKey s k) then (s, .fault 0x04 k.lanes 0)
  else
    let stamp := leField b 8 8
    let rs := cardRegions b
    let derived := card.exts ++ stampExt stamp
    let ok := card.ok && derived.all (inCard rs) && !selfOverlap rs
    let es := rs.map fun r => { va := r.va, len := r.len, write := r.write : Ext }
    let check := if !ok then .fault 0x20 0 else submitPages s c k.sup (es ++ card.exts) card.mis stamp []
    afterCheck s k check fun locks =>
      let j := { k.job s card.kind card.chan with
        xform := card.xf.xf, ty := card.xf.ty, tag := card.xf.tag, auto := card.xf.auto, slices := [card.slice], word := word, rnd := k.src.rnd.toNat % 4,
        regions := rs, locks := locks, stamp := stamp, role := if kind == 3 then unit else k.role }
      let e := copyEnergy (rs.foldl (fun n r => n + r.len) 0)
      if kind == 3 then
        let rsv := (s.blockOf? k.gang unit).bind fun bl => bl.rsv.find? fun r => r.1 == k.agent
        let held := (rsv.map (·.2)).getD 0
        let take (s : State) : State := if held == 0 then s else s.updBlock k.gang unit fun bl => { bl with rsv := (bl.rsv.map fun r => if r.1 == k.agent then (r.1, r.2 - 1) else r).filter fun r => r.2 != 0 }
        submitOne k s x.ctl x.d.toNat j e (held != 0 || s.permitsFree k.gang unit != 0) fun _ s => take s
      else submitOne k s x.ctl x.d.toNat j e (s.sharedFree j.cluster) fun _ s => s

/-- JOB (R293): the card is one plain load. -/
def execJob (x : Eng) (s : State) : Host.Outcome State Fault Refusal :=
  instr s x.ctl { regs := [(x.d.toNat, 2), (x.a.toNat, 2), (x.b.toNat, 2)], base := 0 } fun k s =>
    if k.lanes == 0 then (s, .done)
    else
      let a := (k.src.get64 x.a.toNat ((lanesOf k.lanes).headD 0)).toNat
      let c := s.ctxOf k.gang
      let refuse (s : State) (code : Nat) : State × Fate :=
        (k.now s { writes := pairWrites x.d.toNat (2 ^ 64 - 1) (lanesOf k.lanes), mem := 1, traps := [(code, k.lanes, BitVec.ofNat 64 a)] }, .done)
      if a % 128 != 0 then (s, .fault 0x03 k.lanes (BitVec.ofNat 64 a))
      else match tr s c k.sup .read a with
        | .perm => (s, .fault 0x11 k.lanes (BitVec.ofNat 64 a))
        | .miss m => parkAll s k [m] []
        | .ok sp pa leaf =>
          let (rk, s) := if leaf.rk then rkLines s k.agent k.path c (leaf.pfn % 4096) [a / 128] else (Rk.present, s)
          match rk with
          | .wait res => parkAll s k [] [res]
          | .poison code => refuse (poisonedLoad (forgetAborts s k.agent k.path c.asn [a / 128]) k.agent) code
          | .present =>
            let s := if leaf.rk then raiseClock s k.agent c.asn (a / 128) else s
            let (r, t) := loadPlain (touch s c a) k.agent sp pa 128
            if r.poison then refuse t 0x12
            else match submitCard x k t r.bytes with
              | (_, .hold) => (s, .hold)
              | r => r

/-! ## A job's payload (R288, R291, R292) -/

/-- Elements in an order that nothing fixes: each is put at an open place among those before it. (DEDUCED, log 45) -/
def anyOrder (s : State) (l : List α) : List α × State :=
  l.foldl (fun (acc, s) x =>
    let i := Config.freeNat s.fresh % (acc.length + 1)
    (acc.take i ++ x :: acc.drop i, { s with fresh := s.fresh + 1 })) (([] : List α), s)

/-- ARITHF and SATF of flags (R282). -/
def jobArith (fl : Word) : Nat := (if trapping fl then 32 else 0) + (if fl &&& flSat != 0 then 16 else 0)

/-- What one unit of a job writes: where, what, whether poisoned, and its flags. -/
structure Unit16 where
  va : Nat
  bytes : List Byte
  poison : Bool := false
  fl : Nat := 0
  deriving DecidableEq, Repr

/-- The row of a raw copy, by units where one is poisoned. -/
def rawRow (j : Job) (s : State) (c : Ctx) (a b n : Nat) : List Unit16 :=
  (List.range (n / 16)).map fun i =>
    let (bs, po) := j.read s c (a + 16 * i) 16
    { va := b + 16 * i, bytes := bs, poison := po, fl := if po then 1 else 0 }

/-- The row of a decoding copy, block by block. -/
def decRow (j : Job) (s : State) (c : Ctx) (a b n : Nat) : List Unit16 :=
  let slot := slotBits (((j.storage c a).map fun x => x.2.2.fmt).getD 1)
  let w := j.ty.bytes
  (List.range n).map fun i =>
    let (bs, po) := j.read s c (a + strideOf slot * i) (strideOf slot)
    let rd := if po then BlockRead.fail true else readBlock (blkBits bs) slot
    let es := (List.range 32).map fun e => deliver rd e j.ty
    let fl := es.foldl (fun (m : Word) (r : Nat × Word × Word) => m ||| r.2.1) 0
    let mem := (es.foldl (fun (m : Word) (r : Nat × Word × Word) => m ||| r.2.2) 0).toNat % 4
    { va := b + 32 * w * i, bytes := es.flatMap fun (r : Nat × Word × Word) => leBytes w r.1, fl := jobArith fl + (if po then 1 else mem) }

/-- The row of an encoding copy, block by block. -/
def encRow (j : Job) (s : State) (c : Ctx) (a b n : Nat) : List Unit16 :=
  let slot := slotBits (((j.storage c b).map fun x => x.2.2.fmt).getD 1)
  let w := j.ty.bytes
  let f := (fmtOf j.ty).getD fmtF32
  (List.range n).map fun i =>
    let es := (List.range 32).map fun e =>
      let (bs, po) := j.read s c (a + w * (32 * i + e)) w
      (if po then X.nan false else f.value (leNat bs), po)
    let e := encodeBlock slot (if j.auto then none else some j.tag) (es.map (·.1))
    { va := b + strideOf slot * i, bytes := blockBytes slot e.scale e.tag e.codes, fl := jobArith e.fl + (if es.any (·.2) then 1 else 0) }

/-- The row of a codebook expansion; a poisoned code is open. -/
def cbRow (j : Job) (s : State) (c : Ctx) (a b n : Nat) : List Unit16 :=
  let book := (s.book j.cluster j.chan).entries
  (List.range n).map fun i =>
    let (bs, po) := j.read s c (a + i) 1
    let e := if po then Config.freeNat (s.fresh + i) % 256 else leNat bs
    if e < book.length then { va := b + 16 * i, bytes := book.getD e [], fl := if po then 1 else 0 }
    else { va := b + 16 * i, bytes := List.replicate 16 0, fl := 8 + (if po then 1 else 0) }

def writeUnit (s : State) (id : Nat) (u : Unit16) : State := jobFlag (jobWrite s id u.va u.bytes u.poison) id u.fl

/-- A copy's payload: rows in order, or in any order where their destinations share bytes. (DEDUCED, log 46) -/
def runCopy (s : State) (j : Job) : State :=
  let c := (s.ctx? j.ctx).getD { id := j.ctx }
  let rows := j.slices.flatMap fun sl => (sliceRows sl).map fun (a, b) => (a, b, sl.getD 2 0)
  let f := match j.xform with | 0 => rawRow | 1 => decRow | 2 => encRow | _ => cbRow
  let units := rows.flatMap fun (a, b, n) => f j s c a b n
  let starts := rows.map fun (_, b, n) => { va := b, len := (match j.xform with | 0 => n | 1 => 32 * n * j.ty.bytes | 2 => 34 * n | _ => 16 * n), write := true : Region }
  let mixed := (List.range starts.length).any fun i => (starts.drop (i + 1)).any fun r => ((starts[i]?).map fun q => q.meets r).getD false
  let s := { s with fresh := if j.xform == 3 then s.fresh + units.length else s.fresh }
  let (units, s) := if mixed then anyOrder s units else (units, s)
  units.foldl (fun s u => writeUnit s j.id u) s

/-- A gather's payload (R292). -/
def runGather (s : State) (j : Job) : State :=
  let c := (s.ctx? j.ctx).getD { id := j.ctx }
  let sl := j.slices.headD []
  let g (i : Nat) : Nat := sl.getD i 0
  let free (s : State) (n : Nat) : List Byte × State := (leBytes n (Config.freeNat s.fresh), { s with fresh := s.fresh + 1 })
  let (mask, s) := (List.range (g 3)).foldl (fun (mask, s) i =>
    let (ib, po) := j.read s c (g 0 + 4 * i) 4
    let (ib, s) := if po then free s 4 else (ib, s)
    let s := if po then jobFlag s j.id 1 else s
    let x := leNat ib
    if x ≥ 2 ^ 31 then (mask, s)
    else if x ≥ g 4 then (mask + 2 ^ i, jobFlag (jobWrite s j.id (g 2 + g 5 * i) (List.replicate (g 5) 0) false) j.id 4)
    else
      let (eb, po) := j.read s c (g 1 + g 5 * x) (g 5)
      let (eb, s) := if po then free s (g 5) else (eb, s)
      let s := if po then jobFlag s j.id 1 else s
      (mask, jobWrite s j.id (g 2 + g 5 * i) eb false)) (0, s)
  jobWrite s j.id (g 2 + roundUp (g 3 * g 5) 8) (leBytes ((g 3 + 7) / 8) mask) false

/-- A codebook load's payload (R291). Entries read as poison are open. -/
def runCbld (s : State) (j : Job) : State :=
  let c := (s.ctx? j.ctx).getD { id := j.ctx }
  let sl := j.slices.headD []
  let (es, s) := (List.range (sl.getD 1 0)).foldl (fun (es, s) i =>
    let (bs, po) := j.read s c (sl.getD 0 0 + 16 * i) 16
    if po then (es ++ [leBytes 16 (Config.freeNat s.fresh)], jobFlag { s with fresh := s.fresh + 1 } j.id 1) else (es ++ [bs], s)) (([] : List (List Byte)), s)
  s.setBook { s.book j.cluster j.chan with entries := es }

/-- The spans that a copy, gather or codebook load reads. -/
def jobReads (j : Job) (c : Ctx) : List (Nat × Nat) :=
  match j.kind with
  | 0 => j.slices.flatMap fun sl => (sliceRows sl).map fun (a, _) => (a, match j.xform with | 1 => blockLen (sl.getD 2 0) ((j.storage c a).map (·.2.2)) | 2 => 32 * sl.getD 2 0 * j.ty.bytes | _ => sl.getD 2 0)
  | 1 => let sl := j.slices.headD []; [(sl.getD 0 0, 4 * sl.getD 3 0)]
  | _ => let sl := j.slices.headD []; [(sl.getD 0 0, 16 * sl.getD 1 0)]

/-- The table lines that a gather's indices name. -/
def gatherReads (s : State) (j : Job) : List (Nat × Nat) :=
  if j.kind != 1 then []
  else
    let c := (s.ctx? j.ctx).getD { id := j.ctx }
    let sl := j.slices.headD []
    let g (i : Nat) : Nat := sl.getD i 0
    (List.range (g 3)).filterMap fun i =>
      let x := leNat (j.read s c (g 0 + 4 * i) 4).1
      if x < 2 ^ 31 && x < g 4 then some (g 1 + g 5 * x, g 5) else none

/-- R288-R292: the payload, once every reckoned line that it reads is there. (DESIGN CHOICE, log 44) -/
def runJob (s : State) (j : Job) : State :=
  let c := (s.ctx? j.ctx).getD { id := j.ctx }
  let (ok, s) := jobLines s j.id (readSpans j (jobReads j c) c)
  let (ok, s) := if ok then jobLines s j.id (readSpans j (gatherReads s j) c) else (ok, s)
  if !ok then s
  else
    let j := (s.job? j.id).getD j
    let s := match j.kind with | 0 => runCopy s j | 1 => runGather s j | _ => runCbld s j
    s.updJob j.id fun j => { j with ran := true }

/-! ## The events of a job -/

/-- R189, R294: a matrix job dispatched to its engine; the checks of R172 may refuse it. (DEDUCED, log 49) -/
def dispatchMatrix (s : State) (j : Job) : State :=
  match j.word, s.blockOf? j.gang j.role with
  | some i, some b =>
    if !engCheck b i then s.updJob j.id fun j => { j with ran := true, status := 0x01 }
    else
      let id := s.nextId
      let energy := match i with | .mma x => mmaEnergy x b | _ => 64
      let rnd := match i with | .acvt x => modeOfCode (immBits x 23 21) (BitVec.ofNat 32 j.rnd) | _ => j.rnd
      let s := charge s j.gang 0 energy
      let s := { s.updJob j.id (fun j => { j with op := some id }) with nextId := id + 1 }
      engAccept s j.gang j.role { id := id, agent := j.agents.headD 0x20000, job := some j.id, instr := i, rnd := rnd }
  | _, _ => s.updJob j.id fun j => { j with ran := true, status := 0x04 }

/-- Whether a job waits on a fill (R286). -/
def jobWaits (s : State) (id : Nat) : Bool := s.fills.any fun f => f.nodes.any fun n => n.who == .job id

/-- JOB_START (R283): a job whose edges and turn allow it starts its accesses; one that waited for reckoned lines goes on. -/
def startJob (s : State) (id : Nat) : State :=
  match s.job? id with
  | none => s
  | some j =>
    if j.ran || jobWaits s id || (j.kind == 3 && !onCluster s j.gang) || (!j.started && (edgeOn s j || !turnOf s j)) then s
    else
      let s := s.updJob id fun j => { j with started := true }
      if j.kind == 3 then
        match j.op with
        | none => dispatchMatrix s j
        | some op => engPerform s j.gang j.role op
      else runJob s j

def execJobStart (id : Nat) (s : State) : Host.Outcome State Fault Refusal := event (startJob s id)

/-- Paths that wait for jobs that locked pages (R402). -/
def releaseLocks (s : State) (id : Nat) : State :=
  s.agents.foldl (fun s x => (List.range x.paths.length).foldl (fun s p =>
    match (s.path? x.num p).bind (·.wait) with
    | some (.locks js) =>
      if !js.contains id then s
      else if js.length ≤ 1 then endSlot s x.num p .nothing
      else s.updPath x.num p fun q => { q with wait := some (.locks (js.erase id)) }
    | _ => s) s) s

/-- The counters that wait for a job drop; the next WAITC acquires its stamp (R290). (DEDUCED, log 52) -/
def dropJobCounters (s : State) (id ts : Nat) : State :=
  let ps := s.pend.filter fun p => p.hold == .job id
  let s := { s with pend := s.pend.filter fun p => p.hold != .job id }
  ps.foldl (fun s p => endIfIdle (s.updAgent p.agent fun x => { x with d := bumpCounter x.d p.cnt false, jobSync := (max x.jobSync.1 (ts + 1), s.seq) }) p.agent) s

/-- JOB_COMPLETE (R240, R280-R282): stamp, write pointer, MEMSTAT, counters, in a channel's submission order. -/
def completeJob (s : State) (id : Nat) : State :=
  match s.job? id with
  | none => s
  | some j =>
    let before := (s.jobs.takeWhile fun k => k.id != id).any fun k => k.cluster == j.cluster && k.chan == j.chan && (j.chan < 8 || k.ctx == j.ctx)
    if !j.ran || before then s
    else
      let c := (s.ctx? j.ctx).getD { id := j.ctx }
      let key := 16 * j.cluster + j.chan
      let low := max (max j.ts j.clock) (mget 0 s.chanTs key)
      let word := j.seq % 2 ^ 48 + j.status * 2 ^ 48 + j.flags % 64 * 2 ^ 56
      let (ts, s) := match (if j.stamp == 0 then none else j.storage c j.stamp) with
        | some (sp, a, _) => engineWrite s [(sp, a, leBytes 8 word)] (low + 1) true
        | none => (low, s)
      let (ts, s) := match devPlace s c (c.chanstat + 8 * key) with
        | some (sp, a) => engineWrite s [(sp, a, leBytes 8 j.seq)] (ts + 1) true
        | none => (ts, s)
      let s := s.updCtx j.ctx fun c => { c with wptr := mset 0 c.wptr key j.seq }
      let s := { s with jobs := s.jobs.filter fun k => k.id != id, chanTs := mset 0 s.chanTs key ts }
      let m : Word := BitVec.ofNat 32 (j.flags % 8)
      let s := j.agents.foldl (fun s n => s.updAgent n fun x => { x with regs := { x.regs with mem := x.regs.mem ||| m } }) s
      let s := match j.op with | some op => engComplete s j.gang j.role op | none => s
      submitReady (settleTlbis (releaseLocks (dropJobCounters s id ts) id))

def execJobComplete (id : Nat) (s : State) : Host.Outcome State Fault Refusal := event (completeJob s id)

/-! ## STAGE (R295) -/

/-- The lines that meet a range, translated for reading; a page that is untranslated or unreadable is skipped. -/
def stageLines (s : State) (k : Iss) (a len : Nat) : List (Sp × Nat × Leaf) :=
  if len == 0 then []
  else (List.range ((a + (len - 1)) / 128 - a / 128 + 1)).filterMap fun i =>
    let va := (a / 128 + i) * 128
    match tr s (s.ctxOf k.gang) k.sup .read va with
    | .ok sp pa l => some (sp, pa / 128, l)
    | _ => none

/-- Whether a line of STAGE_HOLD is there or comes: a prefetch that the depth rule or the unit's kernel refuses brings nothing (R354),
and so leaves nothing to hold. (DEDUCED, log 125) -/
def stageComes (s : State) (c : Ctx) (leaf : Leaf) (l : Nat) : Bool :=
  !leaf.rk || s.resident c.asn l || (s.fills.any fun f => f.asn == c.asn && f.base ≤ l && l < f.base + f.nlines) || s.asks.any fun a => a.ctx == c.id && a.line == l

/-- One line of STAGE_HOLD: brought in, and held within the quota. (DEDUCED, log 125) -/
def stageOne (s : State) (k : Iss) (line : Sp × Nat × Leaf) : Bool × State :=
  let c := s.ctxOf k.gang
  let (sp, l, leaf) := line
  let s := if leaf.rk then (rkAccess s c (leaf.pfn % 4096) l (missOf s k.agent k.path) true).2 else s
  let pinned := (s.pins.filter fun p => p.ctx == c.id).foldl (fun n p => n + 2 ^ (rkDesc s c p.rkidx).logUnit) 0
  if !stageComes s c leaf l || s.stageHolds.contains (c.id, sp, l) || (s.stageHolds.filter fun h => h.1 == c.id).length + pinned ≥ c.stgquota then (false, s)
  else (true, { s with stageHolds := s.stageHolds ++ [(c.id, sp, l)] })

/-- (DEDUCED, log 49) -/
def stageInstr (x : Eng) (hold : Bool) (s : State) : Host.Outcome State Fault Refusal :=
  instr s x.ctl { regs := [(x.d.toNat, 1), (x.a.toNat, 2), (x.b.toNat, 1)], base := 0 } fun k s =>
    let energy (s : State) (bytes : Nat) : State := charge s k.gang (if k.pilot then 0 else k.role) (copyEnergy bytes)
    if k.lanes == 0 then (energy s 0, .done)
    else
      let l := (lanesOf k.lanes).headD 0
      let len := (k.src.get x.b.toNat l).toNat
      let lines := stageLines s k (k.src.get64 x.a.toNat l).toNat len
      let s := energy s len
      let c := s.ctxOf k.gang
      if hold then
        let (n, held, s) := lines.foldl (fun (n, held, s) line =>
          let (new, s) := stageOne s k line
          (if new then n + 1 else n, (if line.2.2.rk && s.stageHolds.contains (c.id, line.1, line.2.1) then held ++ [(c.asn, line.2.1)] else held), s)) (0, ([] : List (Nat × Nat)), s)
        (k.later s x.ctl { writes := laneWrites x.d.toNat (fun _ => BitVec.ofNat 32 n) (lanesOf k.lanes), hold := if held.isEmpty then .none else .stage held }, .done)
      else
        let mine (h : Nat × Sp × Nat) : Bool := h.1 == c.id && lines.any fun y => y.1 == h.2.1 && y.2.1 == h.2.2
        let n := (s.stageHolds.filter mine).length
        let s := { s with stageHolds := s.stageHolds.filter fun h => !mine h }
        (k.later s x.ctl { writes := laneWrites x.d.toNat (fun _ => BitVec.ofNat 32 n) (lanesOf k.lanes) }, .done)

def execStageHold (x : Eng) (s : State) : Host.Outcome State Fault Refusal := stageInstr x true s
def execStageRel (x : Eng) (s : State) : Host.Outcome State Fault Refusal := stageInstr x false s

end Sys2Proof.Machine
end

