-- ==== Sys2Proof/Machine/Place.lean ====
section
/-! DEFINITION. Where gangs stand: the binding table, what a core has free, the choice of a cluster, blocks, waves and pilot
programs as they start, and gangs that are saved, renamed, rebuilt and placed again (R26-R35, R306, R312-R321, R441). -/

namespace Sys2Proof.Machine

/-! ## The binding table (R34, R35) -/

def bitIf (b : Bool) (k : Nat) : Nat := if b then 2 ^ k else 0

/-- The factory binding of a logical cluster: itself, with the links that point inside the array. -/
def factoryEntry (c : Nat) : Nat :=
  2 ^ 31 + bitIf (decide (c ≥ 8)) 15 + bitIf (decide (c % 8 < 7)) 14 + bitIf (decide (c < 24)) 13 + bitIf (decide (c % 8 > 0)) 12 + c

def bindTable (s : State) : List Nat :=
  (List.range 32).map fun c => if s.regs.bindtab == 0 then factoryEntry c else leNat (s.readHome .loc (s.regs.bindtab + 4 * c) 4)

def bound (b : List Nat) (c : Nat) : Bool := bitOf (b.getD c 0) 31
def physOf (b : List Nat) (c : Nat) : Nat := b.getD c 0 % 64

/-- R34: no PHYS above 33, and no two bound entries with the same. (DESIGN CHOICE, log 130) -/
def bindOk (b : List Nat) : Bool :=
  b.all (fun e => e % 64 ≤ 33) && (List.range 32).all fun c => (List.range c).all fun d => !(bound b c && bound b d && physOf b c == physOf b d)

/-! ## What a core has free (R15, R26, R313) -/

/-- The allowance of a core (R462). -/
def State.allowance (s : State) (k : Nat) : Int := let c := s.core k; if c.fenced then -32768 else c.allowance

/-- What is taken on a core: by its ordinary blocks, and of its registers by its fill block too (R15, R313). -/
structure Use where
  slots : List Nat
  regs : List Nat
  scr : Nat
  nt : Nat
  na : Nat
  deriving DecidableEq, Repr

/-- Whether a block takes room on its core: it stands there, or it has ended and its gang has not retired (R30). -/
def holdsCore (s : State) (b : Block) : Bool := match s.gang? b.gang with
  | some y => !y.fill && (y.st == .resident || b.ended)
  | none => false

/-- What a core's blocks take, one of them left out. -/
def useOf (s : State) (core : Nat) (skip : Option (GangKey × Nat)) : Use :=
  let bs := s.blocks.filter fun b => b.core == core && some (b.gang, b.role) != skip && holdsCore s b
  let ws := s.agents.filter fun x => !x.pilot && !x.ended && x.num < 8192 && x.num / 64 == core && some (x.gang, x.role) != skip
  { slots := (ws.filter fun x => !x.fill).map fun x => x.num % 64
    regs := (List.range 4).map fun p => (ws.filter fun x => x.num / 16 % 4 == p).foldl (fun n x => n + 128 * x.nregs) 0
    scr := bs.foldl (fun n b => n + b.scrSize) 0
    nt := bs.foldl (fun n b => n + b.nt) 0
    na := bs.foldl (fun n b => n + b.na) 0 }

/-- R313: whether a variant fits beside what a core's blocks take. -/
def Use.fits (u : Use) (v : Variant) : Bool :=
  ((List.range 4).all fun p =>
    let k := wavesIn v.waves p
    decide ((u.slots.filter fun n => n / 16 == p).length + k ≤ 15) && decide (u.regs.getD p 0 + k * v.regs * 128 ≤ 262144))
    && u.scr + v.scratch ≤ 360448 && u.nt + v.nt ≤ 14 && u.na + v.na ≤ 7

/-- The cores of a cluster that take work, by descending ALLOWANCE, then by number (R314). -/
def orderCores (s : State) (c : Nat) : List Nat :=
  let ok := ((List.range 4).map (4 * c + ·)).filter fun k => let x := s.core k; !x.fenced && !x.stopped
  ok.foldl (fun l k => l.takeWhile (fun j => decide (s.allowance j ≥ s.allowance k)) ++ k :: l.dropWhile fun j => decide (s.allowance j ≥ s.allowance k)) []

/-- What a gang asks of a cluster: for each member the variants it may take, in order, or none where it has ended; and its
pilot programs. -/
structure Ask where
  kernel : Kernel
  members : List (Option (List Nat))
  pilots : Nat
  bind : List Nat
  /-- a core it must not take (R446) -/
  avoid : Option Nat := none
  deriving DecidableEq, Repr

/-- A member's core and variant, by role. -/
abbrev Pick := List (Nat × Nat)

/-- Free entries of a cluster's job pool. -/
def poolFree (s : State) (c : Nat) : Nat :=
  512 - (s.jobs.filter fun j => j.cluster == c && j.kind != 3 && j.reserved.isNone).length - s.reservedEntries c

/-- Pilot programs in use on a cluster. -/
def pilotsUsed (s : State) (c : Nat) : List Nat :=
  (s.agents.filter fun x => x.pilot && !x.ended && x.num / 8 == 1024 + c).map fun x => x.num % 8

/-- R314: the members of a gang on the cores of a cluster, each with the first of its variants that fits. -/
def pickOn (s : State) (a : Ask) (c : Nat) : Option Pick :=
  let order := (orderCores s c).filter fun k => some k != a.avoid
  let living := (a.members.filter (·.isSome)).length
  if !bound a.bind c || order.length < a.members.length || 8 - (pilotsUsed s c).length < a.pilots || poolFree s c < living + a.pilots then none
  else (List.range a.members.length).foldl (fun (acc : Option Pick) k => match acc, a.members.getD k none with
    | some l, none => some (l ++ [(order.getD k 0, 0)])
    | some l, some vs =>
      let u := useOf s (order.getD k 0) none
      (vs.find? fun v => ((a.kernel.variants[v]?).map u.fits).getD false).map fun v => l ++ [(order.getD k 0, v)]
    | none, _ => none) (some [])

def Pick.variants (p : Pick) (a : Ask) : Nat := ((p.zip a.members).filter fun x => x.2.isSome).foldl (fun n x => n + x.1.2) 0

/-- The least ALLOWANCE of the bound cores. -/
def Pick.least (p : Pick) (s : State) : Int := p.foldl (fun m x => min m (s.allowance x.1)) 32767

/-- R314: the cluster chosen among candidates. -/
def chooseCluster (s : State) (a : Ask) (cands : List Nat) : Option (Nat × Pick) :=
  cands.foldl (fun best c => match pickOn s a c with
    | none => best
    | some p => match best with
      | none => some (c, p)
      | some (d, q) =>
        if p.variants a < q.variants a || (p.variants a == q.variants a && decide (p.least s > q.least s)) then some (c, p) else some (d, q)) none

/-- R35, R315: the clusters of a W by H rectangle, row by row, or none where one is unbound or a link is missing. -/
def rectangle (b : List Nat) (w h nw : Nat) : Option (List Nat) :=
  let x0 := nw % 8
  let y0 := nw / 8
  if x0 + w > 8 || y0 + h > 4 then none
  else
    let cs := (List.range h).flatMap fun y => (List.range w).map fun x => 8 * (y0 + y) + x0 + x
    let link (c k : Nat) : Bool := bitOf (b.getD c 0) k
    let ok (c : Nat) : Bool := bound b c && (c % 8 + 1 ≥ x0 + w || (link c 14 && link (c + 1) 12)) && (c / 8 + 1 ≥ y0 + h || (link c 13 && link (c + 8) 15))
    if cs.all ok then some cs else none

/-- R315: the rectangle of a formation: the least sum of variants, then the lowest north-west cluster. -/
def chooseRect (s : State) (a : Ask) (w h : Nat) : Option (List (Nat × Pick)) :=
  ((List.range 32).foldl (fun (best : Option (Nat × List (Nat × Pick))) nw => match rectangle a.bind w h nw with
    | none => best
    | some cs =>
      let picks := cs.filterMap fun c => (pickOn s a c).map fun p => (c, p)
      if picks.length != cs.length then best
      else
        let sum := picks.foldl (fun n x => n + x.2.variants a) 0
        match best with
        | none => some (sum, picks)
        | some (m, old) => if sum < m then some (sum, picks) else some (m, old)) none).map (·.2)

/-! ## Blocks, waves and pilot programs as they start (R28, R37, R42, R43, R306) -/

/-- The lowest free wave slot of a partition (R26). (DESIGN CHOICE, log 129) -/
def freeSlot (s : State) (core part : Nat) : Nat :=
  ((List.range 15).find? fun k => !s.agents.any fun x => !x.ended && x.num == 64 * core + 16 * part + k).getD 15

/-- A wave at its start. -/
def newWave (s : State) (num : Nat) (g : GangKey) (role idx nregs : Nat) (pc : Nat) (mask : Word) (clock : Nat) (fill : Bool) : Agent :=
  { num := num, gang := g, role := role, idx := idx, nregs := nregs, fill := fill, clock := clock, started := s.clk, floors := [s.seq, s.seq, s.seq, s.seq], lastIssue := s.tick,
    paths := { pc := BitVec.ofNat 64 pc, xmask := mask, st := .eligible, entry := .entry } :: List.replicate 7 {} }

/-- A pilot program at its start: with v0 to v63 whatever PREGS says (R42, R70). (DEDUCED, log 54) -/
def newPilot (s : State) (g : GangKey) (cluster idx pc clock : Nat) : Agent :=
  { num := 8192 + 8 * cluster + idx, gang := g, role := 0, idx := idx, pilot := true, born := s.nextId, nregs := 64, clock := clock, started := s.clk, floors := [s.seq, s.seq, s.seq, s.seq], lastIssue := s.tick,
    paths := [{ pc := BitVec.ofNat 64 pc, xmask := 1, st := .eligible, entry := .entry }] }

/-- The lowest pilot program of a cluster that is free (R42). (DESIGN CHOICE, log 129) -/
def freePilot (s : State) (c : Nat) : Option Nat := (List.range 8).find? fun k => !(pilotsUsed s c).contains k

/-- The waves of a block, each in its partition's lowest free slot. -/
def startWaves (s : State) (g : GangKey) (role core pc : Nat) (v : Variant) (mask : Word) (clock : Nat) : State :=
  (List.range v.waves).foldl (fun s w =>
    let num := 64 * core + 16 * (w % 4) + freeSlot s core (w % 4)
    { s with agents := s.agents ++ [newWave s num g role w v.regs pc mask clock false] }) s

/-- R306: the payload of a record in a block's scratchpad. -/
def payloadCells (record : List Byte) (size : Nat) : List Host.Cell := cellsWrite [] 0 ((record.drop 32).take size)

def newBlock (g : GangKey) (role core phys blockIdx variant : Nat) (v : Variant) (scr : List Host.Cell) : Block :=
  { gang := g, role := role, core := core, phys := phys, blockIdx := blockIdx, variant := variant, scrSize := v.scratch, scr := scr,
    faults := List.replicate 16 0, nt := v.nt, na := v.na, tiles := List.replicate v.nt {}, accs := List.replicate v.na [], bobj := List.replicate 8 {} }

/-- A gang placed from its launch record (R29): its blocks, waves and pilot program start together. -/
def startGang (s : State) (l : Launch) (g : Gang) (p : Pick) : State :=
  let k := l.kernel
  let s := { s with gangs := s.gangs ++ [g] }
  let s := (List.range p.length).foldl (fun s r =>
    let (core, v) := p.getD r (0, 0)
    let var := k.variants.getD v {}
    let b := newBlock g.key r core (4 * physOf l.bind (core / 4) + core % 4) (g.key.idx * k.gang + r) v var (payloadCells l.record var.scratch)
    startWaves { s with blocks := s.blocks ++ [b] } g.key r core (k.addr + var.entry) var l.laneMask l.clock) s
  if k.pilot then
    match freePilot s g.cluster with
    | some i => { s with agents := s.agents ++ [newPilot s g.key g.cluster i (k.addr + k.pentry) l.clock], nextId := s.nextId + 1 }
    | none => s
  else s

/-! ## Names -/

/-- An agent under a new number, wherever it is named. -/
def renameAgent (s : State) (old new : Nat) : State :=
  let f (n : Nat) : Nat := if n == old then new else n
  let pairs (l : List (Nat × Nat)) : List (Nat × Nat) := l.map fun x => (f x.1, x.2)
  { s with
    agents := s.agents.map fun x => if x.ended then x else { x with num := f x.num }
    pend := s.pend.map fun p => { p with agent := f p.agent }
    relaxed := s.relaxed.map fun r => { r with agent := f r.agent }
    releases := s.releases.map (renameRel f)
    jobs := s.jobs.map fun j => { j with agents := j.agents.map f }
    colls := s.colls.map fun c => { c with waves := c.waves.map f, last := c.last.map f }
    gangs := s.gangs.map fun g => { g with rdzv := g.rdzv.map fun (k, n, l) => (k, n, l.map f), permitQ := g.permitQ.map fun (a, r, n) => (f a, r, n) }
    blocks := s.blocks.map fun b => { b with rsv := pairs b.rsv, engq := b.engq.map fun o => { o with agent := f o.agent } }
    fills := s.fills.map fun x => { x with nodes := x.nodes.map fun n => match n.who with | .path a p => { n with who := .path (f a) p } | .op a i => { n with who := .op (f a) i } | .job _ => n }
    stops := s.stops.map fun t => { t with agent := f t.agent } }

/-- The agents of a gang that have not ended. -/
def State.gangAgents (s : State) (g : GangKey) : List Agent := s.agents.filter fun x => x.gang == g && !x.ended

/-! ## Saving (R321, R441, R487) -/

/-- The slots of the context store that hold something. -/
def slotsTaken (s : State) : List Nat := s.slotRuns.flatMap fun r => (List.range r.len).map (r.first + ·)

/-- The lowest run of free slots that is long enough. -/
def freeRun (s : State) (n : Nat) : Option Nat :=
  let taken := slotsTaken s
  (List.range (s.regs.cssize + 1 - n)).find? fun i => (List.range n).all fun k => !taken.contains (i + k)

/-- The slots a save of a gang takes: one for each living member whose state stays below 1 MiB and two otherwise, and one
for pilot programs and link buffers where there are any. (DEDUCED, log 65) -/
def saveSlots (s : State) (g : GangKey) (record : Bool) : Nat :=
  let member (b : Block) : Nat :=
    if b.ended then 0
    else if record || b.scrSize + 8192 * b.nt + 16384 * b.na + (s.wavesOf g b.role).foldl (fun n x => n + 128 * x.nregs + 512) 4096 ≤ 1048576 then 1 else 2
  (s.blocks.filter fun b => b.gang == g).foldl (fun n b => n + member b) 0
    + (if (s.gangAgents g).any (·.pilot) || s.links.any fun m => m.gang == g then 1 else 0)

/-- Whether every instruction that a gang's engines have accepted has completed (R168, R170). (DEDUCED, log 67) -/
def enginesIdle (s : State) (g : GangKey) : Bool := s.blocks.all fun b => b.gang != g || b.engq.isEmpty

/-- The names of a saved gang's agents: their numbers are free for others. -/
def parkNames (s : State) (g : GangKey) : State :=
  (s.gangAgents g).foldl (fun s x => { renameAgent (drainAgent s x.num) x.num (0x100000 + s.nextId) with nextId := s.nextId + 1 }) s

/-- R267: a monitor of a wave that is saved is lost, unless a write has come already. -/
def loseMonitor (x : Agent) : Agent := { x with mon := if x.mon.armed.isSome && !x.mon.written then { lost := true } else x.mon }

/-- The wait nodes that name a gang (R364). -/
def nodesNaming (s : State) (g : GangKey) : Nat :=
  let ns := (s.gangAgents g).map (·.num)
  s.fills.foldl (fun n f => n + (f.nodes.filter fun x => match x.who with | .path a _ | .op a _ => ns.contains a | .job _ => false).length) 0

/-- The run of slots of a save of a gang, with what its header says (R441). -/
def runOfGang (s : State) (y : Gang) (first n kind swid : Nat) : Slots :=
  { first := first, len := n, state := kind, ctx := y.ctx, gang := y.key, saved := s.tick / 16, swid := swid, size := y.size,
    pilots := ((s.gangAgents y.key).filter (·.pilot)).length, queue := y.queue, wnodes := nodesNaming s y.key }

/-- The header of a run (R441): the first 128 bytes of its first slot. -/
def Slots.header (r : Slots) : List Byte :=
  [BitVec.ofNat 8 r.state, BitVec.ofNat 8 r.size, BitVec.ofNat 8 r.pilots, BitVec.ofNat 8 r.ctx] ++ leBytes 2 r.len ++ leBytes 2 r.queue ++ leBytes 4 r.gang.launch
    ++ leBytes 4 r.gang.idx ++ leBytes 8 r.saved ++ leBytes 8 r.wnodes ++ leBytes 4 r.swid ++ List.replicate 92 0

/-- What software reads of the context store (R441): slot n lies at offset n × 1 MiB, and only headers can be read. -/
def State.contextStore (s : State) (offset : Nat) : Option Byte :=
  (s.slotRuns.find? fun r => r.state != 0xFF && r.first == offset / 1048576).bind fun r => r.header[offset % 1048576]?

/-- A gang written to the context store: with a switch id its switch record, else all of it. None where no run of slots is
free. -/
def saveGang (s : State) (g : GangKey) (kind : Nat) (swid : Option Nat) : Option State :=
  match s.gang? g with
  | none => none
  | some y =>
    let n := saveSlots s g swid.isSome
    (if y.st == .resident then freeRun s n else none).map fun first =>
      let run := runOfGang s y first n kind (swid.getD 0xFFFFFFFF)
      let s := parkNames { s with slotRuns := s.slotRuns ++ [run] } g
      let s := { s with blocks := updWhere (fun b => b.gang == g) (fun b => { b with rsv := [] }) s.blocks }
      s.updGang g fun y => { y with st := if kind == 3 then .suspended else .saved, slots := some run, swid := swid, want := {}, request := false, permitQ := [], saveSince := none, stopped := false }

/-- The waiting saves that fit, in the order in which their waits began (R487), one gang's left out. A gang that has ended is not saved
(R451). -/
def serveSaves (s : State) (but : Option GangKey) : State :=
  let ws := (s.gangs.filter fun y => y.saveSince.isSome && some y.key != but && s.blocks.any fun b => b.gang == y.key && !b.ended).foldl (fun (acc : List Gang) y => acc.takeWhile (fun z => z.saveSince.getD 0 ≤ y.saveSince.getD 0) ++ y :: acc.dropWhile fun z => z.saveSince.getD 0 ≤ y.saveSince.getD 0) []
  ws.foldl (fun s y => if enginesIdle s y.key then (saveGang s y.key 2 none).getD s else s) s

/-- A new save: the saves that wait for slots go first (R487). -/
def newSave (s : State) (g : GangKey) (kind : Nat) (swid : Option Nat) : Option State := saveGang (serveSaves s (some g)) g kind swid

def freeSlots (s : State) (r : Option Slots) : State :=
  match r with
  | some r => { s with slotRuns := s.slotRuns.filter fun x => x.first != r.first || x.state == 0xFF }
  | none => s

/-! ## Placing a gang again (R319-R321) -/

/-- What a saved gang asks of a cluster: its own variants, or any of them where a switch record rebuilds it. -/
def askOf (s : State) (y : Gang) (l : Launch) : Ask :=
  let members := (List.range y.size).map fun r => match s.blockOf? y.key r with
    | some b => if b.ended then none else some (if y.swid.isSome then List.range l.kernel.variants.length else [b.variant])
    | none => none
  { kernel := l.kernel, members := members, pilots := ((s.gangAgents y.key).filter (·.pilot)).length, bind := l.bind }

/-- The new numbers of a gang's agents on its cores and cluster. -/
def placeNames (s : State) (g : GangKey) (cluster : Nat) (cores : List Nat) : State :=
  (s.gangAgents g).foldl (fun s x =>
    if x.pilot then
      match freePilot s cluster with
      | some i => (renameAgent s x.num (8192 + 8 * cluster + i)).updAgent (8192 + 8 * cluster + i) fun y => { y with idx := i }
      | none => s
    else
      let core := cores.getD x.role 0
      renameAgent s x.num (64 * core + 16 * (x.idx % 4) + freeSlot s core (x.idx % 4))) s

/-- A wave rebuilt from its switch record (R319): live registers, predicates, status and clock. (DEDUCED, log 69) -/
def rebuildWave (x : Agent) (live nregs pc : Nat) (d : Nat) (bits : Nat) : Agent :=
  let mask := x.paths.foldl (fun m p => m ||| p.xmask) 0
  let regs := { x.regs with v := x.regs.v.filter fun e => decide (e.1 < 32 * live) }
  { x with nregs := nregs, regs := regs.setLanes d (fun _ => BitVec.ofNat 32 bits) (lanesOf mask), d := [0, 0, 0, 0, 0, 0], mon := if bits ≥ 4 then (loseMonitor x).mon else {}, trOwed := true,
           paths := { pc := BitVec.ofNat 64 pc, xmask := mask, st := .eligible, entry := .entry } :: List.replicate 7 {} }

/-- The register a wave's VARPT names. -/
def varptDest (x : Agent) : Nat := (x.paths.findSome? fun p => match p.wait with | some (.varpt _ d _ _) => some d | _ => none).getD 0

/-- A block rebuilt from its switch record in a variant (R319, R170): scratchpad to BYTES, tiles reset. (PRESUMED, log 68) -/
def rebuildBlock (s : State) (k : Kernel) (w : SwitchPt) (b : Block) (core variant : Nat) (saved : Bool) : State :=
  let v := k.variants.getD variant {}
  let bits := (if variant != b.variant then 1 else 0) + (if core != b.core then 2 else 0) + (if saved then 4 else 0)
  let s := s.updBlock b.gang b.role fun b => { b with variant := variant, scrSize := v.scratch, scr := b.scr.filter fun c => decide (c.1 < w.bytes), nt := v.nt, na := v.na,
                                                      tiles := List.replicate v.nt {}, accs := List.replicate v.na [], bobj := List.replicate 8 {}, engq := [] }
  { s with agents := updWhere (fun x => x.gang == b.gang && x.role == b.role && !x.pilot && !x.ended) (fun x => rebuildWave x w.live v.regs (k.addr + w.resume.getD variant 0) (varptDest x) bits) s.agents }

/-- Agents meet (R335): the arrival of each is a release fence of an agent scope over `.all`, the departure of each an acquire fence
of that scope, and each arrival synchronises with every departure. (DEDUCED, log 17) -/
def meetAll (s : State) (ns : List Nat) (scope : Nat) : State :=
  let s := ns.foldl (fun s n => fenceRelease s n scope 4) s
  let c := ns.foldl (fun m n => max m (((s.agent? n).map (·.clock)).getD 0)) 0
  ns.foldl (fun s n => fenceAcquire (acquireAll (s.updAgent n fun x => { x with clock := max x.clock c }) n) n scope 4) s

def State.gangWaves (s : State) (g : GangKey) : List Agent := s.agents.filter fun x => x.gang == g && !x.pilot && !x.ended

/-- The blocks of a gang on new cores in new variants, from a switch record; the switch orders as a GBAR (R345). (DEDUCED, log 63) -/
def rebuildGang (s : State) (k : Kernel) (g : GangKey) (swid : Nat) (p : Pick) (saved : Bool) : State :=
  let w := (k.switches.find? fun w => w.id == swid).getD {}
  let s := (s.blocks.filter fun b => b.gang == g && !b.ended).foldl (fun s b => let (core, v) := p.getD b.role (b.core, b.variant); rebuildBlock s k w b core v saved) s
  let s := meetAll s ((s.gangWaves g).map (·.num)) 2
  { s with agents := updWhere (fun x => x.gang == g && !x.ended) (fun x => { x with paused := false }) s.agents }

/-- Blocks that have changed core. -/
def moveBlocks (s : State) (g : GangKey) (bind : List Nat) (p : Pick) : State :=
  { s with blocks := updWhere (fun b => b.gang == g && !b.ended) (fun b => let core := (p.getD b.role (b.core, 0)).1; { b with core := core, phys := 4 * physOf bind (core / 4) + core % 4 }) s.blocks }

/-- A wave that was fully saved goes on (R321, R442): CTXSV and a waiting VARPT complete. -/
def resumeWaits (s : State) (g : GangKey) (moved : List (Nat × Bool)) : State :=
  (s.gangAgents g).foldl (fun s x => (List.range x.paths.length).foldl (fun s p =>
    match (s.path? x.num p).bind (·.wait) with
    | some (.varpt _ d _ _) =>
      let mask := ((s.path? x.num p).map (·.xmask)).getD 0
      let bits := 4 + (if moved.contains (x.role, true) then 2 else 0)
      endSlot (s.mapRegs x.num fun r => r.setLanes d (fun _ => BitVec.ofNat 32 bits) (lanesOf mask)) x.num p .nothing
    | some (.suspended d lanes) => endSlot (acquireAll (s.mapRegs x.num fun r => r.setLanes d (fun _ => 0) (lanesOf lanes)) x.num) x.num p .nothing
    | _ => s) s) s

/-- PERMIT.RSV issued again on resume (R347): a request that waited when the gang was saved was dropped then, and joins its engine's
queue anew, in the order of its first issue. (DEDUCED, log 61) -/
def reissuePermits (s : State) (g : GangKey) : State :=
  (s.pend.filter fun p => ((s.agent? p.agent).map fun x => x.gang == g).getD false).foldl (fun s p => match p.hold with
    | .permit role n _ _ => charge (s.updGang g fun y => { y with permitQ := y.permitQ ++ [(p.agent, role, n)] }) g (((s.agent? p.agent).map fun x => if x.pilot then 0 else x.role).getD 0) 2
    | _ => s) s

/-- A saved gang on a cluster again (R321): rebuilt from its switch record, or as it was. -/
def resumeGang (s : State) (y : Gang) (l : Launch) (c : Nat) (p : Pick) : State :=
  let moved := (s.blocks.filter fun b => b.gang == y.key).map fun b => (b.role, !b.ended && (p.getD b.role (b.core, 0)).1 != b.core)
  let s := placeNames s y.key c (p.map (·.1))
  let s := match y.swid with
    | some w => rebuildGang s l.kernel y.key w p true
    | none => s
  let s := moveBlocks s y.key l.bind p
  let s := freeSlots s y.slots
  let s := s.updGang y.key fun y => { y with st := .resident, cluster := c, slots := none, swid := none, placedAt := s.tick }
  let s := { s with agents := updWhere (fun x => x.gang == y.key && !x.ended) (fun x => { loseMonitor x with trOwed := true, paused := false, lastIssue := s.tick }) s.agents }
  let s := reissuePermits s y.key
  if y.swid.isSome then s else resumeWaits s y.key moved

end Sys2Proof.Machine
end

