-- ==== Sys2Proof/Machine/Queues.lean ====
section
/-! DEFINITION. Queues in memory (R303-R310): descriptors, records, the helm's own fields, appends; launch entries and block
records (R411). -/

namespace Sys2Proof.Machine

/-- A queue descriptor's fields that system software writes (R304). -/
structure QDesc where
  khdr : Nat
  base : Nat
  recsz : Nat
  logcap : Nat
  prio : Nat
  budget : Nat
  batch : Nat
  agelim : Nat
  ctx : Nat
  flags : Nat
  /-- the bits and bytes that have to be zero -/
  zeros : Nat
  deriving DecidableEq, Repr

def qdescOf (b : List Byte) : QDesc where
  khdr := leField b 0 8
  base := leField b 8 8
  recsz := leField b 32 2
  logcap := leField b 34 1
  prio := leField b 35 1 % 8
  budget := leField b 36 4
  batch := leField b 40 2
  agelim := leField b 42 2
  ctx := leField b 44 1
  flags := leField b 45 1
  zeros := leField b 35 1 / 8 + leField b 47 1 + leField b 56 8

/-- (DEDUCED, log 55) -/
def qdesc (s : State) (q : Nat) : QDesc := qdescOf (s.readHome .loc (s.regs.qtable + 64 * q) 64)

/-- R304: every field within its limits. -/
def QDesc.ok (d : QDesc) : Bool :=
  d.khdr % 64 == 0 && d.base % 128 == 0 && 32 ≤ d.recsz && d.recsz ≤ 4096 && d.recsz % 32 == 0 && d.logcap ≤ 20
    && 1 ≤ d.batch && d.batch ≤ 1024 && 1 ≤ d.agelim && d.flags < 2 && d.zeros == 0

/-- What the helm holds of a queue; one that was never enabled is in state 0. (DEDUCED, log 56) -/
def State.queue (s : State) (q : Nat) : Queue := findD (fun x => x.q == q) s.queues { q := q }

/-- The helm's fields as they stand in the descriptor (R304). -/
def mirrorQueue (s : State) (x : Queue) : State :=
  let a := s.regs.qtable + 64 * x.q
  let s := storeDevice s .loc (a + 16) (leBytes 8 x.head ++ leBytes 8 x.tail)
  let s := storeDevice s .loc (a + 46) [BitVec.ofNat 8 (x.status + bitIf x.ovr 7)]
  storeDevice s .loc (a + 48) (leBytes 8 x.late)

def State.updQueue (s : State) (q : Nat) (f : Queue → Queue) : State :=
  let x := f (s.queue q)
  mirrorQueue { s with queues := x :: s.queues.filter fun y => y.q != q } x

/-- The virtual address of a record (R305). -/
def recordAt (d : QDesc) (k : Nat) : Nat := (d.base + k % 2 ^ d.logcap * d.recsz) % 2 ^ 64

/-- A clock above every lease that a home has given out: an agent that starts with it reads no older copy. (DEDUCED, log 20) -/
def freshClock (s : State) : Nat := s.homes.foldl (fun m h => max m h.ts.rts) 0 + 1

/-- R309: records accepted: when, and with which clock (R230). -/
def Queue.grow (x : Queue) (tail tick clock : Nat) : Queue :=
  { x with tail := tail, pendingAt := x.pendingAt ++ [(tail, tick)], clocks := x.clocks ++ [(tail, clock)] }

/-- R309: the age in sixteenths of a nanosecond of a queue's oldest pending record. -/
def Queue.age (x : Queue) (tick : Nat) : Nat := match x.pendingAt.find? fun p => p.1 > x.head with
  | some (_, t) => tick - t
  | none => 0

def Queue.pending (x : Queue) : Nat := x.tail - x.head

def State.overdue (s : State) (x : Queue) : Bool := x.status == 1 && x.pending != 0 && x.age s.tick ≥ (qdesc s x.q).agelim * 16000

/-- R309. -/
def State.eligibleQ (s : State) (x : Queue) : Bool := x.status == 1 && x.pending != 0 && (s.overdue x || x.pending ≥ (qdesc s x.q).batch)

/-- Records written to a ring by an agent in one step of the total order, as a release at `.dev` over `.all` (R343): none where a slot cannot be written. -/
def appendRecords (s : State) (n : Nat) (c : Ctx) (d : QDesc) (tail : Nat) (recs : List (List Byte)) : Option State :=
  let at_ := recs.mapIdx fun i r => (recordAt d (tail + i), r)
  if at_.all fun x => devUsable s c x.1 x.2 then
    some (storeParts s n (at_.flatMap fun x => (pieces x.1 x.2).filterMap fun p => (devPlace s c p.1).map fun (sp, a) => (sp, a, p.2)) (some (3, 4)) false true)
  else none

/-! ## The accounting area (R411, R412) -/

/-- R411: a launch entry. -/
def launchEntry (s : State) (l : Launch) (status retired : Nat) : State :=
  match s.ctx? l.ctx with
  | none => s
  | some c =>
    devWrite s c ((c.acct + 64 + 64 * (l.id % 1024)) % 2 ^ 64) (leBytes 4 l.id ++ leBytes 2 l.queue ++ [BitVec.ofNat 8 status, 0] ++ leBytes 8 (l.taken / 16) ++ leBytes 8 (retired / 16) ++ leBytes 8 l.energy ++ leBytes 4 l.blocks ++ List.replicate 28 0)

/-- R435: a block's exit status. -/
def Block.status (b : Block) : Nat := if b.exitStatus != 0 then b.exitStatus else if b.faults.any (· != 0) then 0x16 else 0

/-- R411: a block record, or its loss. -/
def blockRecord (s : State) (ctx launch : Nat) (b : Block) : State :=
  match s.ctx? ctx with
  | none => s
  | some c =>
    let head := devRead s c c.acct 25
    let log := leField head 24 1
    let lose (s : State) : State := devWrite (s.updCtx ctx fun c => { c with blost := c.blost + 1 }) c (c.acct + 16) (leBytes 8 (c.blost + 1))
    if log < 4 || log > 16 || c.bwidx - leField head 8 8 ≥ 2 ^ log then lose s
    else
      let at_ := (c.acct + 65600 + 128 * (c.bwidx % 2 ^ log)) % 2 ^ 64
      let r := leBytes 4 launch ++ leBytes 4 b.blockIdx ++ [BitVec.ofNat 8 b.status] ++ List.replicate 7 0 ++ leBytes 8 b.energy ++ leBytes 8 (s.tick / 16) ++ (List.range 16).flatMap (fun i => leBytes 4 (b.faults.getD i 0)) ++ List.replicate 32 0
      if devUsable s c at_ r && devUsable s c c.acct (leBytes 8 0) then
        devWrite (devWrite s c at_ r |>.updCtx ctx fun c => { c with bwidx := c.bwidx + 1 }) c c.acct (leBytes 8 (c.bwidx + 1))
      else s

end Sys2Proof.Machine
end

