-- ==== Sys2Proof/Machine/Sync.lean ====
section
/-! DEFINITION. Barriers, waits, rendezvous and sleep (R332-R338), FORK, LREC, PERMIT and QAPP (R339-R343), and the events
that end what they wait for. -/

namespace Sys2Proof.Machine

/-! ## Arrival (R333) -/

/-- R333: a wave has arrived at a point when every path of its table waits there or at a join, and one waits there. -/
def Agent.arrived (x : Agent) (at_ : Wait → Bool) : Bool :=
  let here (p : Path) : Bool := (p.wait.map at_).getD false && p.st != .stopped && !p.trapHeld
  x.paths.all (fun p => p.st == .free || p.st == .join && !p.trapHeld || here p) && x.paths.any here

def isBar (k : Nat) (w : Wait) : Bool := match w with | .bar j => j == k | _ => false
def isGbar (k : Nat) (w : Wait) : Bool := match w with | .gbar j => j == k | _ => false
def isRdzv (k : Nat) (w : Wait) : Bool := match w with | .rdzv j _ _ => j == k | _ => false

/-- The paths of an agent whose wait satisfies `p`. -/
def waitingPaths (s : State) (n : Nat) (p : Wait → Bool) : List Nat :=
  match s.agent? n with
  | some x => (List.range x.paths.length).filter fun i => ((x.paths[i]?).bind (·.wait)).any p
  | none => []

/-- Every path of the agents that waits at a point goes on. -/
def passPoint (s : State) (ns : List Nat) (p : Wait → Bool) : State :=
  ns.foldl (fun s n => (waitingPaths s n p).foldl (fun s i => endSlot s n i .nothing) s) s

/-! ## BAR and GBAR (R334, R335) -/

def syncNeed (pilot : Bool) : Need := { pilot := pilot }

/-- BAR (R334): the path waits at the barrier. The wave's arrival, once all of it waits, is a release fence (R335). -/
def execBar (x : Sys) (s : State) : Host.Outcome State Fault Refusal :=
  instr s x.ctl (syncNeed false) fun k s => (drainAgent s k.agent, .wait (.bar x.imm.toNat))

/-- GBAR (R334). -/
def execGbar (x : Sys) (s : State) : Host.Outcome State Fault Refusal :=
  instr s x.ctl (syncNeed false) fun k s => (drainAgent s k.agent, .wait (.gbar x.imm.toNat))

/-- Whether a barrier completes (R334): every wave that has not ended has arrived. -/
def barrierDone (ws : List Agent) (p : Wait → Bool) : Bool := !ws.isEmpty && ws.all fun x => x.arrived p

/-- BARRIER_COMPLETE (R334, R335). -/
def execBarrierComplete (g : GangKey) (role : Nat) (gang : Bool) (k : Nat) (s : State) : Host.Outcome State Fault Refusal :=
  let ws := if gang then s.gangWaves g else s.wavesOf g role
  let p := if gang then isGbar k else isBar k
  if gangRuns s g && barrierDone ws p then
    let ns := ws.map (·.num)
    event (passPoint (meetAll s ns (if gang then 2 else 1)) ns p)
  else event s

/-! ## WAITC (R336) -/

/-- Whether WAITC's condition holds. -/
def waitcMet (s : State) (x : Agent) (all : Bool) (k n : Nat) : Bool :=
  if all then x.d.all (· == 0) && !s.pend.any fun p => p.agent == x.num && !p.wins.isEmpty
  else x.d.getD k 0 ≤ n

/-- What a WAITC observes (R290): the stamps of the jobs whose counters have dropped. -/
def acquireJobs (s : State) (n : Nat) : State :=
  s.updAgent n fun x => { x with clock := max x.clock x.jobSync.1, floors := x.floors.map fun f => max f x.jobSync.2 }

/-- WAITC (R336). -/
def execWaitc (x : Sys) (s : State) : Host.Outcome State Fault Refusal :=
  instr s x.ctl {} fun k s =>
    let all := x.imm.getLsbD 9
    let c := bitsOf x.imm.toNat 8 6
    let n := bitsOf x.imm.toNat 5 0
    match s.agent? k.agent with
    | some a => if waitcMet s a all c n then (acquireJobs s k.agent, .done) else (s, .wait (.waitc all c n))
    | none => (s, .gone)

/-- WAITC_COMPLETE (R336). -/
def execWaitcComplete (agent path : Nat) (s : State) : Host.Outcome State Fault Refusal :=
  event (match s.agent? agent, (s.path? agent path).bind (·.wait) with
    | some a, some (.waitc all k n) => if waitcMet s a all k n && gangRuns s a.gang then endSlot (acquireJobs s agent) agent path .nothing else s
    | _, _ => s)

/-! ## RDZV (R337) -/

/-- The faults of an arrival that fails: every path that waits at the point has its own, and the lowest takes it. -/
def rdzvFail (s : State) (n k : Nat) : State :=
  let ps := waitingPaths s n (isRdzv k)
  let mark (s : State) (i : Nat) : State := match s.agent? n, s.path? n i with
    | some x, some q => match q.bun with
      | some b =>
        let pc := (b.now.map (·.1)).getD q.pc
        let r : Redo := { pc := pc, lanes := q.xmask, flt := some { code := 0x04, kind := 0, mask := q.xmask, info := 0, pc := pc, sup := x.sup } }
        let redo := if (b.now.map (·.2)).getD false then r :: b.redo.drop 1 else b.redo ++ [r]
        s.updPath n i fun q => { q with wait := none, bun := some { b with redo := redo, now := none } }
      | none => s
    | _, _ => s
  let s := ps.foldl mark s
  match ps.head? with
  | some i => if (((s.path? n i).bind (·.bun)).map fun b => b.rest.isEmpty).getD false then settle s n i else s
  | none => s

/-- Whether an agent stands at a rendezvous point with an arrival not yet accepted. -/
def atRdzv (x : Agent) (k : Nat) : Bool :=
  (if x.pilot then x.paths.any fun p => (p.wait.map (isRdzv k)).getD false else x.arrived (isRdzv k))
    && x.paths.any fun p => match p.wait with | some (.rdzv j _ false) => j == k | _ => false

/-- An arrival accepted into the open phase of its point, or a new one; or its mismatch (R337). (DEDUCED, log 59) -/
def rdzvAccept (s : State) (n k : Nat) : State :=
  match s.agent? n with
  | none => s
  | some x =>
    if !atRdzv x k then s
    else
      let counts := (x.paths.filterMap fun p => match p.wait with | some (.rdzv j m _) => if j == k then some m else none | _ => none).eraseDups
      match counts, s.gang? x.gang with
      | [m], some y =>
        let phase := y.rdzv.find? fun (j, c, l) => j == k && l.length < c
        match phase with
        | some (_, c, _) =>
          if c != m then rdzvFail s n k
          else
            let s := fenceRelease s n 2 4
            let s := s.updGang x.gang fun y => { y with rdzv := y.rdzv.map fun (j, c, l) => if some (j, c, l) == phase then (j, c, l ++ [n]) else (j, c, l) }
            s.updAgent n fun x => { x with paths := x.paths.map fun p => match p.wait with | some (.rdzv j m _) => if j == k then { p with wait := some (.rdzv j m true) } else p | _ => p }
        | none =>
          let s := fenceRelease s n 2 4
          let s := s.updGang x.gang fun y => { y with rdzv := y.rdzv ++ [(k, m, [n])] }
          s.updAgent n fun x => { x with paths := x.paths.map fun p => match p.wait with | some (.rdzv j m _) => if j == k then { p with wait := some (.rdzv j m true) } else p | _ => p }
      | _, _ => rdzvFail s n k

/-- RDZV (R337): the path waits; the arrival is accepted by RDZV_PHASE_COMPLETE, a pilot program's at once, a wave's when all
of it has arrived. -/
def execRdzv (x : Sys) (s : State) : Host.Outcome State Fault Refusal :=
  instr s x.ctl {} fun _ s => (s, .wait (.rdzv (bitsOf x.imm.toNat 2 0) (bitsOf x.imm.toNat 13 8 + 1) false))

/-- RDZV_PHASE_COMPLETE (R337): arrivals are accepted, and a phase that has its count lets its agents go on. -/
def execRdzvPhaseComplete (g : GangKey) (k : Nat) (s : State) : Host.Outcome State Fault Refusal :=
  if !gangRuns s g then event s
  else
    let s := (s.gangAgents g).foldl (fun s x => rdzvAccept s x.num k) s
    match (s.gang? g).bind fun y => y.rdzv.find? fun (j, c, l) => j == k && l.length ≥ c with
    | some (j, c, l) =>
      let s := s.updGang g fun y => { y with rdzv := y.rdzv.erase (j, c, l) }
      event (passPoint (meetAll s l 2) l (isRdzv k))
    | none => event s

/-! ## SLEEP (R338) -/

/-- SLEEP (R338): until device time reaches the issue time plus ticks of 64 ns. -/
def execSleep (x : Sys) (s : State) : Host.Outcome State Fault Refusal :=
  instr s x.ctl {} fun _ s => (s, .wait (.sleep (s.tick + x.imm.toNat * 1024)))

/-- SLEEP_EXPIRE (R338): once device time has passed the deadline. (DEDUCED, log 146) -/
def execSleepExpire (agent path : Nat) (s : State) : Host.Outcome State Fault Refusal :=
  event (match s.agent? agent, (s.path? agent path).bind (·.wait) with
    | some a, some (.sleep t) => if t < s.tick && gangRuns s a.gang then endSlot (s.updAgent agent fun x => { x with lastIssue := s.tick }) agent path .nothing else s
    | _, _ => s)

/-! ## FORK (R340) -/

/-- The registers a forked program starts with: its issuer's, at width 1. -/
def forkRegs (r : Regs) (nregs pregs lane : Nat) : Regs :=
  { v := (List.range (min nregs pregs)).foldl (fun m i => mset 0 m (32 * i) (r.get i lane)) [], p := mset 0 [] 0 (mget 0 r.p lane), rnd := r.rnd, trapen := r.trapen }

/-- FORK (R340). -/
def execFork (x : Eng) (s : State) : Host.Outcome State Fault Refusal :=
  instr s x.ctl { regs := [(x.d.toNat, 1)] } fun k s =>
    if k.lanes == 0 then (s, .done)
    else match s.gang? k.gang, s.launches.find? (fun l => l.id == k.gang.launch), s.agent? k.agent with
      | some y, some l, some a =>
        if !l.kernel.pilot then (s, .fault 0x04 k.lanes 0)
        else match freePilot s y.cluster with
          | none => (k.later s x.ctl { writes := laneWrites x.d.toNat (fun _ => 0xFFFFFFFF) (lanesOf k.lanes) }, .done)
          | some i =>
            let s := releaseAgent s k.agent
            let clock := ((s.agent? k.agent).map (·.clock)).getD 0
            let pc := brTarget k.pc (x.imm.extractLsb' 3 29) (x.imm.extractLsb' 0 3)
            let p := newPilot s k.gang y.cluster i pc.toNat clock
            let p := { p with regs := forkRegs k.src a.nregs l.kernel.pregs ((lanesOf k.lanes).headD 0) }
            let s := { s with agents := s.agents ++ [p], nextId := s.nextId + 1 }
            (k.later s x.ctl { writes := laneWrites x.d.toNat (fun _ => BitVec.ofNat 32 i) (lanesOf k.lanes) }, .done)
      | _, _, _ => (s, .fault 0x04 k.lanes 0)

/-! ## LREC (R342) -/

/-- R356: a fill's task record. -/
def taskRecord (f : Fill) : List Byte :=
  leBytes 8 (f.base * 128) ++ leBytes 4 f.nlines ++ leBytes 2 f.rkidx ++ [BitVec.ofNat 8 f.launchDepth, 0] ++ leBytes 8 f.param.toNat ++ leBytes 8 f.missva.toNat ++ List.replicate 32 0

/-- The record an agent's launch or fill has. -/
def recordOf (s : State) (n : Nat) (g : GangKey) : List Byte :=
  match s.agentFill n with
  | some f => taskRecord f
  | none => ((s.launches.find? fun l => l.id == g.launch).map (·.record)).getD []

/-- LREC (R342). -/
def execLrec (x : Eng) (s : State) : Host.Outcome State Fault Refusal :=
  instr s x.ctl { regs := [(x.d.toNat, 1)] } fun k s =>
    if k.lanes == 0 then (s, .done)
    else (k.later s x.ctl { writes := laneWrites x.d.toNat (fun _ => BitVec.ofNat 32 (leField (recordOf s k.agent k.gang) x.imm.toNat 4)) (lanesOf k.lanes) }, .done)

/-! ## PERMIT (R341) -/

/-- The frame of a PERMIT: the role it names, checked. -/
def permitInstr (x : Eng) (s : State) (body : Iss → Nat → State → State × Fate) : Host.Outcome State Fault Refusal :=
  instr s x.ctl { regs := [(x.d.toNat, 1)] } fun k s =>
    let role := bitsOf x.imm.toNat 3 2
    if k.lanes == 0 then (s, .done)
    else if role ≥ ((s.gang? k.gang).map (·.size)).getD 1 then (s, .fault 0x04 k.lanes 0)
    else body k role s

/-- An agent's reservation on an engine. -/
def rsvOf (s : State) (g : GangKey) (role n : Nat) : Nat := (((s.blockOf? g role).bind fun b => b.rsv.find? fun r => r.1 == n).map (·.2)).getD 0

def setRsv (s : State) (g : GangKey) (role n m : Nat) : State :=
  s.updBlock g role fun b => { b with rsv := let l := b.rsv.filter fun r => r.1 != n; if m == 0 then l else l ++ [(n, m)] }

/-- PERMIT.Q (R341). -/
def execPermitQ (x : Eng) (s : State) : Host.Outcome State Fault Refusal :=
  permitInstr x s fun k role s =>
    (k.later s x.ctl { writes := laneWrites x.d.toNat (fun _ => BitVec.ofNat 32 (s.permitsFree k.gang role)) (lanesOf k.lanes) }, .done)

/-- PERMIT.RSV (R341): the request joins the engine's queue. (DEDUCED, log 61) -/
def execPermitRsv (x : Eng) (s : State) : Host.Outcome State Fault Refusal :=
  permitInstr x s fun k role s =>
    let n := bitsOf x.imm.toNat 13 8
    let q := ((s.gang? k.gang).map (·.permitQ)).getD []
    let asked := (q.filter fun (a, r, _) => a == k.agent && r == role).foldl (fun m r => m + r.2.2) 0
    if rsvOf s k.gang role k.agent + asked + n > 32 then (s, .fault 0x20 k.lanes 0)
    else if q.all (fun (_, r, _) => r != role) && s.permitsFree k.gang role ≥ n then
      (k.later (setRsv s k.gang role k.agent (rsvOf s k.gang role k.agent + n)) x.ctl { writes := laneWrites x.d.toNat (fun _ => BitVec.ofNat 32 n) (lanesOf k.lanes) }, .done)
    else
      let s := s.updGang k.gang fun y => { y with permitQ := y.permitQ ++ [(k.agent, role, n)] }
      (k.later s x.ctl { hold := .permit role n x.d.toNat k.lanes }, .done)

/-- PERMIT.REL (R341). -/
def execPermitRel (x : Eng) (s : State) : Host.Outcome State Fault Refusal :=
  permitInstr x s fun k role s =>
    let n := rsvOf s k.gang role k.agent
    (k.later (setRsv s k.gang role k.agent 0) x.ctl { writes := laneWrites x.d.toNat (fun _ => BitVec.ofNat 32 n) (lanesOf k.lanes) }, .done)

/-- PERMIT_GRANT (R341): the oldest request of an engine is granted once all its permits are free; one whose agent is gone
is dropped. (DEDUCED, log 61) -/
def execPermitGrant (g : GangKey) (role : Nat) (s : State) : Host.Outcome State Fault Refusal :=
  match (s.gang? g).bind fun y => y.permitQ.find? fun (_, r, _) => r == role with
  | none => event s
  | some (n, r, m) =>
    let waits (p : Pend) : Option (Nat × Word) := match p.hold with
      | .permit r' m' d lanes => if p.agent == n && r' == r && m' == m then some (d, lanes) else none
      | _ => none
    let drop (s : State) : State := s.updGang g fun y => { y with permitQ := y.permitQ.erase (n, r, m) }
    match s.pend.findSome? fun p => (waits p).map fun w => (p.id, w) with
    | none => event (drop s)
    | some (id, d, lanes) =>
      if !gangRuns s g || s.permitsFree g role < m then event s
      else
        let s := setRsv (drop s) g role n (rsvOf s g role n + m)
        event { s with pend := updWhere (fun p => p.id == id) (fun p => { p with hold := .none, writes := laneWrites d (fun _ => BitVec.ofNat 32 m) (lanesOf lanes) }) s.pend }

/-! ## QAPP (R343) -/

/-- A span an agent reads as plain loads: checked (R251), its reckoned lines asked for, then read. -/
inductive SpanRead where
  | stop (s : State) (f : Fate)
  | poison (s : State) (code va : Nat)
  | bytes (s : State) (bs : List Byte)

/-- Whether a plain read through a page is refused. -/
def spanPerm (s : State) (c : Ctx) (sup : Bool) (va : Nat) : Bool := match tr s c sup .read va with | .perm => true | _ => false

def readSpan (s : State) (k : Iss) (va len : Nat) : SpanRead :=
  let c := s.ctxOf k.gang
  let ps := pieces va (List.replicate len 0)
  match ps.find? fun p => spanPerm s c k.sup p.1 with
  | some p => .stop s (.fault 0x11 k.lanes (BitVec.ofNat 64 p.1))
  | none =>
    match ps.filterMap fun p => match tr s c k.sup .read p.1 with | .miss m => some m | _ => none with
    | m :: ms => let (s, f) := parkAll s k (m :: ms) []; .stop s f
    | [] =>
      let lines := ps.filterMap fun p => match tr s c k.sup .read p.1 with | .ok _ _ l => if l.rk then some (l.pfn % 4096, p.1 / 128) else none | _ => none
      let (rk, s) := lines.foldl (fun (acc : Rk × State) x => match acc.1 with
        | .poison code => (.poison code, acc.2)
        | old => let (r, s) := rkLines acc.2 k.agent k.path c x.1 [x.2]; (match r with | .present => old | r => r, s)) (Rk.present, s)
      match rk with
      | .wait res => let (s, f) := parkAll s k [] [res]; .stop s f
      | .poison code => .poison (poisonedLoad s k.agent) code va
      | .present =>
        let (bs, po, s) := ps.foldl (fun (bs, po, s) p => match tr s c k.sup .read p.1 with
          | .ok sp a l =>
            let s := if l.rk then raiseClock s k.agent c.asn (p.1 / 128) else s
            let (r, s) := loadPlain (touch s c p.1) k.agent sp a p.2.length
            (bs ++ r.bytes, po || r.poison, s)
          | _ => (bs, po, s)) (([] : List Byte), false, s)
        if po then .poison s 0x12 va else .bytes s bs

/-- The append itself (R343): one step in the total order. -/
def appendNow (s : State) (k : Iss) (q : Nat) (d : QDesc) (n : Nat) (bs : List Byte) : Nat × State :=
  let x := s.queue q
  let c := (s.ctx? d.ctx).getD { id := d.ctx }
  if x.status != 1 then (2 ^ 64 - 2, s)
  else if x.pending + n > 2 ^ d.logcap then (2 ^ 64 - 1, s)
  else match appendRecords s k.agent c d x.tail ((List.range n).map fun i => (bs.drop (i * d.recsz)).take d.recsz) with
    | none => (2 ^ 64 - 4, s)
    | some s =>
      let clock := ((s.agent? k.agent).map (·.clock)).getD 0
      (x.tail, s.updQueue q fun x => x.grow (x.tail + n) s.tick clock)

/-- QAPP (R343). Its stores to the ring wait for the jobs that they overlap (R241). (DEDUCED, log 49) -/
def execQapp (x : Eng) (s : State) : Host.Outcome State Fault Refusal :=
  instr s x.ctl { regs := [(x.d.toNat, 2), (x.a.toNat, 2), (x.b.toNat, 1)], base := 0 } fun k s =>
    let energy (s : State) (bytes : Nat) : State := charge s k.gang (if k.pilot then 0 else k.role) (copyEnergy bytes)
    if k.lanes == 0 then (energy s 0, .done)
    else
      let l := (lanesOf k.lanes).headD 0
      let q := (k.src.get x.b.toNat l).toNat
      let a := (k.src.get64 x.a.toNat l).toNat
      let n := x.imm.toNat + 1
      let d := qdesc s q
      let t := energy s (if q < 4096 then n * d.recsz else 0)
      let give (s : State) (v : Nat) (mem : Word) (ts : List (Nat × Word × Dword)) : State × Fate :=
        (k.later s x.ctl { writes := pairWrites x.d.toNat v (lanesOf k.lanes), mem := mem, traps := ts }, .done)
      if q ≥ 4096 || d.ctx != (s.ctxOf k.gang).id then (t, .fault 0x04 k.lanes 0)
      else if a % 32 != 0 then (t, .fault 0x03 k.lanes (BitVec.ofNat 64 a))
      else
        match readSpan t k a (n * d.recsz) with
        | .stop s f => (s, f)
        | .poison s code va => give s (2 ^ 64 - 3) 1 [(code, k.lanes, BitVec.ofNat 64 va)]
        | .bytes s bs =>
          let y := s.queue q
          if y.status == 1 && y.pending + n ≤ 2 ^ d.logcap && (List.range n).any fun i => jobEdge s d.ctx (recordAt d (y.tail + i)) d.recsz then (s, .hold)
          else let (v, s) := appendNow s k q d n bs; give s v 0 []

end Sys2Proof.Machine
end

