-- ==== Sys2Proof/Machine/Helm.lean ====
section
/-! DEFINITION. The helm: records taken, gangs placed, staged, pre-empted, migrated, changed of variant, checkpointed and
retired, and VARPT (R303-R322, R330, R344-R346, R410-R412, R445, R487). -/

namespace Sys2Proof.Machine

/-! ## Retirement (R29, R30, R330, R410-R412) -/

/-- The gangs that retire together (R33): those of a formation, placed as one. -/
def partners (s : State) (y : Gang) : List Gang :=
  if y.fw * y.fh ≤ 1 then [y]
  else s.gangs.filter fun z => z.key.launch == y.key.launch && z.key.idx / (y.fw * y.fh) == y.key.idx / (y.fw * y.fh)

def blocksOver (s : State) (g : GangKey) : Bool := s.blocks.all fun b => b.gang != g || b.ended

/-- R330, R412: a launch whose last gang has retired leaves the launch table. -/
def retireLaunch (s : State) (l : Launch) : State :=
  let late := s.tick / 16 > l.deadline
  let s := if late then s.updQueue l.queue fun x => { x with late := x.late + 1 } else s
  let status := if l.status == 0 && late && bitOf (qdesc s l.queue).flags 0 then 0x40 else l.status
  let s := launchEntry s l status s.tick
  let s := { s with launches := s.launches.filter fun m => m.id != l.id }
  if (s.queue l.queue).status == 2 && !s.launches.any (fun m => m.queue == l.queue) then s.updQueue l.queue fun x => { x with status := 0 } else s

/-- A launch with a change; it retires when every gang has. -/
def State.updLaunch (s : State) (id : Nat) (f : Launch → Launch) : State := { s with launches := updWhere (fun l => l.id == id) f s.launches }

def checkLaunch (s : State) (id : Nat) : State :=
  match s.launches.find? fun l => l.id == id with
  | some l => if l.retired ≥ l.ngang && l.placed ≥ l.ngang then retireLaunch s l else s
  | none => s

/-- One gang retires: block records in role order, its pilot programs end, and everything of it is freed. -/
def retireGang (s : State) (y : Gang) : State :=
  let s := settleTlbis (endMatrix s y.key)
  let bs := (List.range 4).flatMap fun r => (s.blockOf? y.key r).toList
  let s := ((s.gangAgents y.key).filter (·.pilot)).foldl (fun s x => finalEnd s x.num) s
  let bs' := bs.map fun b => (s.blockOf? b.gang b.role).getD b
  let s := bs'.foldl (fun s b => blockRecord s y.ctx y.key.launch b) s
  let s := s.updLaunch y.key.launch fun l => { l with retired := l.retired + 1, blocks := l.blocks + bs'.length, energy := (l.energy + bs'.foldl (fun n b => n + b.energy) 0) % 2 ^ 64,
                                                      status := if l.status != 0 then l.status else ((bs'.map Block.status).find? (· != 0)).getD 0 }
  let s := freeSlots (freeSlots s y.slots) y.ckSlots
  { s with gangs := s.gangs.filter (fun z => z.key != y.key), blocks := s.blocks.filter (fun b => b.gang != y.key), colls := s.colls.filter (fun c => c.gang != y.key),
           links := s.links.filter (fun m => m.gang != y.key), homes := s.homes.filter fun h => match h.sp with | .scr g _ => g != y.key | _ => true }

/-- R446: a re-executed gang that retires shows that the error was transient. -/
def settleReexec (s : State) (y : Gang) : State :=
  match y.reexec with
  | none => s
  | some c =>
    if (s.core c).fenced then s else
    let s := { s with cores := { s.core c with transient := true } :: s.cores.filter fun k => k.core != c }
    addEvent s { time := 0, kind := 0x30, unit := 0, num := c, ctx := y.ctx, launch := y.key.launch }

/-- GANG_RETIRE (R29, R35). -/
def execGangRetire (g : GangKey) (s : State) : Host.Outcome State Fault Refusal :=
  match s.gang? g with
  | none => event s
  | some y =>
    let ps := partners s y
    if y.st == .waiting || !ps.all fun z => blocksOver s z.key && z.st != .waiting && !matrixBusy s z.key then event s
    else event (checkLaunch (ps.foldl (fun s z => settleReexec (retireGang s z) z) s) g.launch)

/-- A gang ended without saving (R398 step 2, R440, R446, R451): what it issued has taken effect. -/
def killGang (s : State) (g : GangKey) (code : Nat) : State :=
  let s := { s with blocks := updWhere (fun b => b.gang == g && !b.ended) (fun b => { b with exitStatus := if b.exitStatus == 0 then code else b.exitStatus }) s.blocks }
  let s := (s.gangAgents g).foldl (fun s x => finalEnd s x.num) s
  let s := s.updGang g fun y => { y with saveSince := none }
  { s with blocks := updWhere (fun b => b.gang == g && !b.ended) (fun b => { b with ended := true, endedAt := s.tick }) s.blocks }

/-! ## Taking records (R305-R311, R316) -/

/-- R305's limits of a record. (DEDUCED, log 58) -/
def recordOk (k : Kernel) (b : List Byte) : Bool :=
  let n := leField b 0 4
  1 ≤ n && (k.fw == 0 || n % (k.fw * k.fh) == 0) && leField b 4 4 != 0 && leField b 16 4 ≤ 16777216 && leField b 20 12 == 0 && n * k.gang ≤ 2 ^ 32

/-- R316: a launch's staged lines: each readable line asked for, and held. (DEDUCED, log 66) -/
def stageLaunch (s : State) (l : Launch) (base len : Nat) : State :=
  match s.ctx? l.ctx with
  | none => s
  | some c =>
    if len == 0 then s.updLaunch l.id fun l => { l with staged := true }
    else
      let lines := (List.range ((base % 128 + len + 127) / 128)).map fun i => (base / 128 + i) * 128
      let (held, s) := lines.foldl (fun (held, s) va => match tr s c false .read va with
        | .ok sp a leaf =>
          let m : Misser := { who := .job 0, fill := none, depth := 0, prio := (qdesc s l.queue).prio, deadline := l.deadline, clock := l.clock }
          let s := if leaf.rk then (rkAccess s c (leaf.pfn % 4096) (va / 128) m true).2 else s
          (held ++ [(sp, a / 128)], s)
        | _ => (held, s)) (([] : List (Sp × Nat)), s)
      s.updLaunch l.id fun l => { l with stgStart := some s.tick, stgLines := held }

/-- One record taken (R307, R311): a launch, or a status alone. -/
def takeOne (s : State) (q : Nat) : State :=
  let x := s.queue q
  let d := qdesc s q
  let c := (s.ctx? d.ctx).getD { id := d.ctx }
  let va := recordAt d x.head
  let rec_ := if devUsable s c va (List.replicate d.recsz 0) then devRead s c va d.recsz else List.replicate d.recsz 0
  let clock := match x.clocks.find? fun p => p.1 > x.head with | some (_, t) => t | none => 0
  let head := x.head + 1
  let s := s.updQueue q fun x => { x with head := head, pendingAt := x.pendingAt.filter (fun p => p.1 > head), clocks := x.clocks.filter fun p => p.1 > head }
  let bind := bindTable s
  let l : Launch := { id := s.nextLaunch, queue := q, ctx := d.ctx, kernel := x.kernel, record := rec_, ngang := leField rec_ 0 4, laneMask := BitVec.ofNat 32 (leField rec_ 4 4), taken := s.tick,
                      deadline := if d.budget == 0 then 2 ^ 64 - 1 else s.tick / 16 + d.budget, clock := clock, bind := bind }
  let s := { s with nextLaunch := s.nextLaunch + 1 }
  if !recordOk x.kernel rec_ then launchEntry s l 0x01 s.tick
  else if !bindOk bind then launchEntry s l 0x04 s.tick
  else stageLaunch (launchEntry { s with launches := s.launches ++ [l] } l 0xFF 0) l (leField rec_ 8 8) (leField rec_ 16 4)

/-- R310: whether queue x goes before queue y. -/
def goesBefore (s : State) (x y : Queue) : Bool :=
  let dx := qdesc s x.q
  let dy := qdesc s y.q
  let ox := s.overdue x
  let oy := s.overdue y
  if ox != oy then ox
  else if ox && x.age s.tick != y.age s.tick then x.age s.tick > y.age s.tick
  else if dx.prio != dy.prio then dx.prio > dy.prio
  else if x.pending * dy.batch != y.pending * dx.batch then x.pending * dy.batch > y.pending * dx.batch
  else x.q < y.q

/-- TAKE_RECORD (R310, R311). -/
def execTakeRecord (s : State) : Host.Outcome State Fault Refusal :=
  let best := (s.queues.filter s.eligibleQ).foldl (fun (b : Option Queue) x => match b with
    | none => some x
    | some y => if goesBefore s x y then some x else some y) none
  match best with
  | none => event s
  | some x =>
    let n := min (min x.pending (qdesc s x.q).batch) (1024 - s.launches.length)
    event ((List.range n).foldl (fun s _ => takeOne s x.q) s)

/-- STAGING_DONE (R316): every staged line is resident. -/
def execStagingDone (launch : Nat) (s : State) : Host.Outcome State Fault Refusal :=
  event (match s.launches.find? fun l => l.id == launch with
    | some l => if l.stgStart.isSome && l.stgLines.all (fun (sp, n) => match sp with | .rk asn => s.resident asn n | _ => true) then s.updLaunch launch fun l => { l with staged := true } else s
    | none => s)

/-- STAGING_TIMEOUT (R316): 20 µs after staging began. -/
def execStagingTimeout (launch : Nat) (s : State) : Host.Outcome State Fault Refusal :=
  event (match s.launches.find? fun l => l.id == launch with
    | some l => if (l.stgStart.map fun t => decide (t + 320000 ≤ s.tick)).getD false then s.updLaunch launch fun l => { l with staged := true } else s
    | none => s)

/-! ## Candidates for placement (R311, R314, R315, R321) -/

/-- A gang, or the next formation, that waits to be placed: the queue it belongs to, its launch, the gang where it exists
already, and what it asks for. -/
structure Cand where
  queue : Nat
  prio : Nat
  overdue : Bool
  launch : Launch
  gang : Option Gang
  ask : Ask
  deriving DecidableEq, Repr

/-- What a launch's gangs ask for. -/
def Launch.ask (l : Launch) : Ask :=
  { kernel := l.kernel, members := List.replicate l.kernel.gang (some (List.range l.kernel.variants.length)), pilots := if l.kernel.pilot then 1 else 0, bind := l.bind }

/-- Whether a saved gang is eligible: one held by reckoning waits until its nodes are released (R364). -/
def savedReady (s : State) (y : Gang) : Bool :=
  y.st == .waiting || (y.st == .saved && !(((y.slots.map (·.state)).getD 0) == 4 && (s.gangAgents y.key).any fun x => s.fills.any fun f => f.nodes.any fun n => match n.who with
    | .path a _ | .op a _ => a == x.num
    | .job _ => false))

/-- The gang of a candidate restored from its record, checkpoint or slots. -/
def gangCand (s : State) (y : Gang) : Option Cand :=
  (s.launches.find? fun l => l.id == y.key.launch).map fun l =>
    let q := s.queue l.queue
    let ask := if y.st == .waiting && y.ckBlocks.isEmpty then l.ask else askOf s (if y.st == .waiting then { y with swid := y.ckId } else y) l
    { queue := l.queue, prio := (qdesc s l.queue).prio, overdue := s.overdue q, launch := l, gang := some y, ask := { ask with avoid := y.reexec } }

/-- Whether a launch may place its next gang (R311, R316, R321). -/
def launchReady (s : State) (l : Launch) : Bool :=
  l.placed < l.ngang && l.staged
    && (l.placed != 0 || (!(s.launches.any fun m => m.queue == l.queue && m.id < l.id && m.placed < m.ngang)
      && !(s.gangs.any fun y => savedReady s y && s.launches.any fun m => m.id == y.key.launch && m.queue == l.queue)))

/-- Everything that waits for a place: overdue queues first, then by priority; saved gangs before records. (DESIGN CHOICE, log 62) -/
def candidates (s : State) : List Cand :=
  let gs := (s.gangs.filter (savedReady s)).filterMap (gangCand s)
  let ls := (s.launches.filter (launchReady s)).map fun l => { queue := l.queue, prio := (qdesc s l.queue).prio, overdue := s.overdue (s.queue l.queue), launch := l, gang := none, ask := l.ask : Cand }
  let before (a b : Cand) : Bool := if a.overdue != b.overdue then a.overdue else a.prio ≥ b.prio
  (gs ++ ls).foldl (fun acc c => acc.takeWhile (fun d => before d c) ++ c :: acc.dropWhile fun d => before d c) []

/-- The clusters a candidate would take: one each for the gangs of its formation. (DEDUCED, log 64) -/
def feasible (s : State) (c : Cand) : Option (List (Nat × Pick)) :=
  let k := c.launch.kernel
  match c.gang with
  | some y => (chooseCluster s c.ask (if k.fw == 0 then List.range 32 else [y.cluster])).map fun p => [p]
  | none => if k.fw == 0 then (chooseCluster s c.ask (List.range 32)).map fun p => [p] else chooseRect s c.ask k.fw k.fh

/-- Whether something that waits fits nowhere (R318, R364). -/
def someFitsNowhere (s : State) (p : Cand → Bool) : Bool := (candidates s).any fun c => p c && (feasible s c).isNone

/-! ## Placement (R29, R306, R314, R315, R445) -/

/-- The next gangs of a launch placed: one, or a formation row by row. -/
def placeLaunch (s : State) (l : Launch) (picks : List (Nat × Pick)) : State :=
  let k := l.kernel
  let prio := (qdesc s l.queue).prio
  let s := (List.range picks.length).foldl (fun s i =>
    let (c, p) := picks.getD i (0, [])
    let g : Gang := { key := { launch := l.id, idx := l.placed + i }, ctx := l.ctx, queue := l.queue, prio := prio, st := .resident, size := k.gang, cluster := c,
                      fw := max k.fw 1, fh := max k.fh 1, fx := if k.fw == 0 then 0 else i % k.fw, fy := if k.fw == 0 then 0 else i / k.fw, placedAt := s.tick }
    startGang s l g p) s
  s.updLaunch l.id fun l =>
    let n := l.placed + picks.length
    { l with placed := n, stgLines := if n ≥ l.ngang then [] else l.stgLines }

/-- A gang placed again: from its slots, from its checkpoint, or from its launch record. -/
def placeGang (s : State) (y : Gang) (l : Launch) (c : Nat) (p : Pick) : State :=
  if y.st == .saved then resumeGang s y l c p
  else if y.ckBlocks.isEmpty then
    let s := { s with gangs := s.gangs.filter fun z => z.key != y.key }
    startGang s l { y with st := .resident, cluster := c, placedAt := s.tick, want := {}, stopped := false } p
  else resumeGang s { y with swid := y.ckId } l c p

def placeCand (s : State) (c : Cand) (picks : List (Nat × Pick)) : State :=
  match c.gang, picks with
  | some y, (cl, p) :: _ => placeGang s y c.launch cl p
  | none, _ => placeLaunch s c.launch picks
  | _, _ => s

/-! ## Variants, pre-emption and switch requests (R318, R321, R345) -/

/-- A block's resources as those of another variant, for a trial. -/
def withVariant (s : State) (b : Block) (v : Variant) : State :=
  { s.updBlock b.gang b.role fun b => { b with scrSize := v.scratch, nt := v.nt, na := v.na } with
    agents := updWhere (fun x => x.gang == b.gang && x.role == b.role && !x.pilot && !x.ended) (fun x => { x with nregs := v.regs }) s.agents }

/-- The nearest variants of a member that fit on its core, higher or lower. -/
def nextVariant (s : State) (k : Kernel) (b : Block) (up : Bool) : Option Nat :=
  let u := useOf s b.core (some (b.gang, b.role))
  let vs := List.range k.variants.length
  let ok (v : Nat) : Bool := ((k.variants[v]?).map u.fits).getD false
  if up then (vs.filter fun v => v > b.variant && ok v).head? else (vs.filter fun v => v < b.variant && ok v).getLast?

/-- The members of a gang whose lowering makes room for a candidate, with their new variants. -/
def lowerFor (s : State) (k : Kernel) (g : GangKey) (c : Cand) : List (Nat × Nat) :=
  (s.blocks.filter fun b => b.gang == g && !b.ended).filterMap fun b => (nextVariant s k b true).bind fun v =>
    if (feasible (withVariant s b (k.variants.getD v {})) c).isSome then some (b.role, v) else none

/-- What the helm does at a switch point (R318). -/
inductive SwitchAct where
  | none
  | preempt
  | migrate
  | variants (vs : List (Nat × Nat))
  deriving DecidableEq, Repr

def kernelOfGang (s : State) (y : Gang) : Kernel :=
  match s.launches.find? fun l => l.id == y.key.launch with
  | some l => l.kernel
  | none => match s.fillOfGang y.key with
    | some f => f.kernel
    | none => {}

/-- R463: whether a gang is to be rotated: the least ALLOWANCE of its cores is below 0, it has not been rotated in the last
10 ms, and some other cluster would take it with every core at 64 or above. -/
def rotates (s : State) (y : Gang) : Bool :=
  let bs := s.blocks.filter fun b => b.gang == y.key && !b.ended
  match s.launches.find? fun l => l.id == y.key.launch with
  | none => false
  | some l =>
    y.st == .resident && !y.fill && l.kernel.fw == 0 && !l.kernel.switches.isEmpty && bs.any (fun b => decide (s.allowance b.core < 0))
      && (y.rotatedAt.map fun t => decide (t + 160000000 ≤ s.tick)).getD true
      && (List.range 32).any fun c => c != y.cluster && ((pickOn s (askOf s { y with swid := some 0 } l) c).map fun p => decide (p.least s ≥ 64)).getD false

/-- R318: the first action that applies to a gang. -/
def switchAct (s : State) (y : Gang) : SwitchAct :=
  let k := kernelOfGang s y
  if y.want.preempt.isSome then .preempt
  else if (y.want.rotate && rotates s y) || y.want.leave then .migrate
  else
    let waits := (candidates s).filter fun c => (feasible s c).isNone
    match (waits.filter fun c => c.prio > y.prio || c.overdue).findSome? fun c => match lowerFor s k y.key c with | [] => none | vs => some vs with
    | some vs => .variants vs
    | none =>
      let ups := (s.blocks.filter fun b => b.gang == y.key && !b.ended).filterMap fun b => (nextVariant s k b false).map fun v => (b.role, v)
      if waits.isEmpty && !ups.isEmpty then .variants ups else .none

/-- R321: the gang that a candidate which fits nowhere pre-empts: other queues', of lower priority unless the candidate's
queue is overdue; the lowest priority, then the youngest placement. -/
def victim (s : State) (c : Cand) : Option Gang :=
  let ok (y : Gang) : Bool := y.st == .resident && !y.fill && y.queue != c.queue && y.want.preempt.isNone && !blocksOver s y.key && (c.overdue || y.prio < c.prio)
  (s.gangs.filter ok).foldl (fun (b : Option Gang) y => match b with
    | none => some y
    | some z => if y.prio < z.prio || (y.prio == z.prio && y.placedAt ≥ z.placedAt) then some y else some z) none

/-- R321: a pre-emption decided for the first candidate that fits nowhere even after lowering; one at a time. -/
def decidePreempt (s : State) : State :=
  if s.gangs.any fun y => y.want.preempt.isSome then s
  else
    let stuck (c : Cand) : Bool := (feasible s c).isNone && !s.gangs.any fun y => y.st == .resident && !y.fill && !(kernelOfGang s y).switches.isEmpty && (c.prio > y.prio || c.overdue) && lowerFor s (kernelOfGang s y) y.key c != []
    match ((candidates s).filter stuck).findSome? (victim s) with
    | some y => s.updGang y.key fun y => { y with want := { y.want with preempt := some s.tick } }
    | none => s

/-- The helm raises a switch request on every gang for which an action of R318 applies; it stands until the helm acts at a switch point
or lets the gang go on there (R345, R346). -/
def raiseRequests (s : State) : State :=
  s.gangs.foldl (fun s y => if y.st == .resident && !y.request && !(kernelOfGang s y).switches.isEmpty && switchAct s y != .none then s.updGang y.key fun z => { z with request := true } else s) s

/-- PLACE_GANG (R314, R315, R321): the first candidate that fits is placed; where none does, a pre-emption is decided. -/
def execPlaceGang (s : State) : Host.Outcome State Fault Refusal :=
  match (candidates s).findSome? fun c => (feasible s c).map fun p => (c, p) with
  | some (c, p) => event (placeCand s c p)
  | none => event (raiseRequests (decidePreempt s))

/-! ## VARPT (R344-R346) -/

def isVarpt (id : Nat) (w : Wait) : Bool := match w with | .varpt j _ _ _ => j == id | _ => false
def isAnyVarpt (w : Wait) : Bool := match w with | .varpt .. => true | _ => false

/-- A bundle whose waiting slot is taken back: its instruction has not issued. -/
def Bun.back (b : Bun) : Bun :=
  match b.now with
  | some (pc, false) => { b with now := none, rest := pc :: b.rest }
  | _ => { b with now := none }

/-- An arrival at rendezvous points withdrawn (R345). -/
def Gang.leaveRdzv (n : Nat) (y : Gang) : Gang :=
  let out (p : Nat × Nat × List Nat) : Nat × Nat × List Nat := (p.1, p.2.1, p.2.2.filter (· != n))
  { y with rdzv := (y.rdzv.map out).filter fun p => !p.2.2.isEmpty }

/-- A pilot program stopped at an instruction boundary (R345): one that waits is stopped before its instruction, and an
arrival of it is withdrawn. -/
def stopPilot (s : State) (n : Nat) : State :=
  let s := s.updPath n 0 fun q => if q.wait.isSome then { q with wait := none, bun := q.bun.map Bun.back } else q
  let s := { s with gangs := s.gangs.map (Gang.leaveRdzv n) }
  s.updAgent n fun x => { x with paused := true }

def stopPilots (s : State) (g : GangKey) : State := ((s.gangAgents g).filter (·.pilot)).foldl (fun s x => stopPilot s x.num) s

/-- VARPT (R344, R345). (DEDUCED, log 60) -/
def execVarpt (x : Sys) (s : State) : Host.Outcome State Fault Refusal :=
  instr s x.ctl { pilot := false, regs := [(x.d.toNat, 1)] } fun k s =>
    match s.gang? k.gang, s.agent? k.agent with
    | some y, some a =>
      match (kernelOfGang s y).switches.find? fun w => w.id == x.imm.toNat with
      | none => (s, .fault 0x01 k.lanes 0)
      | some w =>
        if x.d.toNat ≥ w.live then (s, .fault 0x01 k.lanes 0)
        else if (a.paths.filter fun p => p.st != .free).length > 1 || ((s.path? k.agent k.path).bind (·.jpc)).isSome then (s, .fault 0x04 k.lanes 0)
        else if a.d.any (· != 0) || s.pend.any fun p => p.agent == k.agent && !p.wins.isEmpty then (s, .hold)
        else if k.sup || (!y.request && switchAct s y == .none) then (s.mapRegs k.agent fun r => r.setLanes x.d.toNat (fun _ => 0) (lanesOf k.xmask), .done)
        else (stopPilots (s.updGang k.gang fun z => { z with request := true }) k.gang, .wait (.varpt x.imm.toNat x.d.toNat s.tick true))
    | _, _ => (s, .gone)

/-- R346: every wave that waits at a VARPT goes on with 0, and the pilot programs resume. -/
def releaseVarpt (s : State) (g : GangKey) : State :=
  let s := (s.gangWaves g).foldl (fun s x => (waitingPaths s x.num isAnyVarpt).foldl (fun s p => match s.path? x.num p with
    | some q => match q.wait with
      | some (.varpt _ d _ _) => endSlot (s.mapRegs x.num fun r => r.setLanes d (fun _ => 0) (lanesOf q.xmask)) x.num p .nothing
      | _ => s
    | none => s) s) s
  { s with agents := updWhere (fun x => x.gang == g && x.pilot && !x.ended) (fun x => { x with paused := false }) s.agents }

/-- The waits at VARPTs in a gang: id and since when. -/
def varptWaits (s : State) (g : GangKey) : List (Nat × Nat) :=
  (s.gangWaves g).flatMap fun x => x.paths.filterMap fun p => match p.wait with | some (.varpt id _ t _) => some (id, t) | _ => none

/-- R317: the switch id at which a gang has reached a switch point. -/
def switchPoint (s : State) (y : Gang) : Option Nat :=
  let ws := s.gangWaves y.key
  let agents := s.gangAgents y.key
  match varptWaits s y.key with
  | [] => none
  | (id, _) :: _ =>
    if y.st == .resident && !y.migrating && ws.all (fun x => x.arrived (isVarpt id)) && !(s.pend.any fun p => agents.any fun x => x.num == p.agent)
        && !(s.jobs.any fun j => j.kind == 3 && j.gang == y.key) && enginesIdle s y.key then some id else none

/-- R445: the checkpoint of a restartable gang. -/
def checkpoint (s : State) (y : Gang) (id : Nat) : State :=
  if !(kernelOfGang s y).restart then s
  else
    let n := saveSlots s y.key true
    match freeRun s n with
    | none => s
    | some first =>
      let run := runOfGang s y first n 5 id
      let s := freeSlots { s with slotRuns := s.slotRuns ++ [run] } y.ckSlots
      s.updGang y.key fun z => { z with ckSlots := some run, ckId := some id, ckBlocks := s.blocks.filter (fun b => b.gang == y.key), ckAgents := s.gangAgents y.key, reexec := none }

/-- R446: a re-executed gang that reaches its next checkpoint has shown the error transient. -/
def checkpointed (s : State) (y : Gang) (id : Nat) : State :=
  let t := checkpoint s y id
  if t.slotRuns == s.slotRuns then s else settleReexec t y

/-- R320: the gang rebuilt on another cluster, or left where it is until its next switch point. -/
def migrate (s : State) (y : Gang) (l : Launch) (id : Nat) : State :=
  let y' := { y with swid := some id }
  let cands := if l.kernel.fw == 0 then (List.range 32).filter (· != y.cluster) else []
  match chooseCluster s (askOf s y' l) cands with
  | none => releaseVarpt s y.key
  | some (c, p) =>
    let fwd := (s.blocks.filter fun b => b.gang == y.key && !b.ended).map fun b => (b.role, b.core)
    let old := if s.jobs.any fun j => j.gang == y.key && j.kind != 3 && j.cluster == y.cluster then [(y.cluster, (s.gangEntries y.key).length, s.nextId)] else []
    let s := placeNames s y.key c (p.map (·.1))
    let s := rebuildGang s l.kernel y.key id p false
    let s := moveBlocks s y.key l.bind p
    let s := { s with blocks := updWhere (fun b => b.gang == y.key) (fun b => { b with rsv := [] }) s.blocks }
    s.updGang y.key fun y => { y with cluster := c, migrating := true, want := {}, request := false, saveSince := none, stopped := false, rotatedAt := some s.tick, placedAt := s.tick, fwd := fwd, oldEntries := old ++ y.oldEntries }

/-- SWITCH_POINT_REACHED (R317-R320). -/
def execSwitchPointReached (g : GangKey) (s : State) : Host.Outcome State Fault Refusal :=
  match s.gang? g, s.launches.find? fun l => l.id == g.launch with
  | some y, some l =>
    match switchPoint s y with
    | none => event s
    | some id =>
      let act := switchAct s y
      let s := checkpointed (serveSaves s (some g)) y id
      let go (s : State) : State := s.updGang g fun y => { y with request := false }
      match act with
      | .none => event (releaseVarpt (go s) g)
      | .preempt => match newSave s g 1 (some id) with
        | some s => event s
        | none => event (releaseVarpt ((go s).updGang g fun y => { y with want := { y.want with preempt := none } }) g)
      | .migrate => event (migrate s y l id)
      | .variants vs =>
        let p : Pick := (List.range y.size).map fun r => match s.blockOf? g r with
          | some b => (b.core, ((vs.find? fun v => v.1 == r).map (·.2)).getD b.variant)
          | none => (0, 0)
        event (rebuildGang (go s) l.kernel g id p false)
  | _, _ => event s

/-- SWITCH_WAIT_TIMEOUT (R346): waves at different ids, or 20 µs since the first began to wait and the switch point not reached. -/
def execSwitchWaitTimeout (g : GangKey) (s : State) : Host.Outcome State Fault Refusal :=
  match s.gang? g, varptWaits s g with
  | some y, (id, t) :: ws =>
    let first := ws.foldl (fun m w => min m w.2) t
    if y.st == .resident && y.want.preempt.isNone && (ws.any (fun w => w.1 != id) || (first + 320000 ≤ s.tick && (switchPoint s y).isNone)) then event (releaseVarpt s g) else event s
  | _, _ => event s

/-- FULL_SAVE_TIMEOUT (R321): the 20 µs of a pending pre-emption have ended. -/
def execFullSaveTimeout (g : GangKey) (s : State) : Host.Outcome State Fault Refusal :=
  match s.gang? g with
  | some y => match y.want.preempt with
    | some t =>
      if t + 320000 ≤ s.tick && y.st == .resident && enginesIdle s g && !blocksOver s g then
        match newSave s g 2 none with
        | some s => event s
        | none => event (s.updGang g fun y => { y with want := { y.want with preempt := none } })
      else event s
    | none => event s
  | none => event s

/-- SAVE_SLOTS_FREE (R487). -/
def execSaveSlotsFree (s : State) : Host.Outcome State Fault Refusal := event (serveSaves s none)

/-- The forwarding entries of a moved gang drain (R31, R260): every remote scratchpad access that a member issued before the migration
is performed at the new core. -/
def drainForwards (s : State) (y : Gang) : State :=
  let mine (sp : Sp) : Bool := match sp with | .scr g role => g == y.key && y.fwd.any fun f => f.1 == role | _ => false
  (drainWhere s fun r => mine r.sp).updGang y.key fun z => { z with fwd := [] }

/-- MIGRATION_RESUME (R320): the gang goes on once its forwarding entries have drained (R260). -/
def execMigrationResume (g : GangKey) (s : State) : Host.Outcome State Fault Refusal :=
  event (match s.gang? g with
    | some y =>
      if !y.migrating then s
      else
        let s := (drainForwards s y).updGang g fun y => { y with migrating := false }
        { s with agents := updWhere (fun x => x.gang == g && !x.ended) (fun x => { x with lastIssue := s.tick }) s.agents }
    | none => s)

/-! ## Queues enabled, disabled and appended to (R307, R308) -/

/-- R35: whether a formation fits some rectangle of bound clusters; under a table that R34 calls invalid it fits none. (DESIGN CHOICE, log 130) -/
def formationFits (s : State) (k : Kernel) : Bool :=
  k.fw == 0 || (bindOk (bindTable s) && (List.range 32).any fun c => (rectangle (bindTable s) k.fw k.fh c).isSome)

/-- R308: the state an enable gives. (DEDUCED, log 57) -/
def enableCode (s : State) (q : Nat) : Nat × Kernel :=
  let d := qdesc s q
  let kern := (s.ctx? d.ctx).bind fun c => if c.cstate == 1 then kernelAt s c d.khdr else none
  if !d.ok then (3, {})
  else if (kern.map fun k => !formationFits s k).getD false then (4, {})
  else if (s.queues.filter fun x => x.status == 1 && x.ctx == d.ctx).length ≥ 64 then (5, {})
  else match kern with
    | none => (6, {})
    | some k => if k.reckoner then (7, {}) else (1, k)

/-- QUEUE_ENABLE (R308). -/
def execQueueEnable (q : Nat) (s : State) : Host.Outcome State Fault Refusal :=
  let s := barWrite s
  let x := s.queue q
  if q ≥ 4096 || x.status == 1 || x.status == 2 then event s
  else
    let (code, k) := enableCode s q
    let late := leField (s.readHome .loc (s.regs.qtable + 64 * q + 48) 8) 0 8
    event (s.updQueue q fun _ => { q := q, ctx := (qdesc s q).ctx, kernel := k, status := code, late := late })

/-- A queue disabled (R308): draining while its launches run. -/
def disableQueue (s : State) (q : Nat) : State :=
  if (s.queue q).status != 1 then s
  else s.updQueue q fun x => { x with status := if s.launches.any (fun l => l.queue == q) then 2 else 0 }

/-- QUEUE_DISABLE (R308). -/
def execQueueDisable (q : Nat) (s : State) : Host.Outcome State Fault Refusal := event (if q < 4096 then disableQueue (barWrite s) q else barWrite s)

/-- TAIL_DOORBELL (R307). -/
def execTailDoorbell (q : Nat) (val : BitVec 64) (s : State) : Host.Outcome State Fault Refusal :=
  let s := barWrite s
  let x := s.queue q
  if q ≥ 4096 || x.status != 1 then event s
  else if val.toNat < x.tail || val.toNat - x.head > 2 ^ (qdesc s q).logcap then event (s.updQueue q fun x => { x with ovr := true })
  else if val.toNat == x.tail then event s
  else event (s.updQueue q fun x => x.grow val.toNat s.tick (freshClock s))

/-! ## Issue (R326, R329) -/

/-- PATH_OVERDUE (R326): 32 arithmetic clocks ready without issuing. -/
def execPathOverdue (agent path : Nat) (s : State) : Host.Outcome State Fault Refusal :=
  event (match s.agent? agent, s.path? agent path with
    | some x, some q => if mayRun s x q && !q.overdue && decide (32 ≤ q.ready) then s.updPath agent path fun q => { q with overdue := true } else s
    | _, _ => s)

/-- REQUEST_INJECT (R329): a reply buffer is reserved and the request goes out; only timing depends on it. (DESIGN CHOICE, log 97) -/
def execRequestInject (_ : Nat) (s : State) : Host.Outcome State Fault Refusal := event s

end Sys2Proof.Machine
end

