-- ==== Sys2Proof/Machine/Reckon.lean ====
section
/-! DEFINITION. Reckoned memory: FILLC, FILLX, RKINV, RKPIN, and the events of fills, wait nodes and eviction (R348-R372). -/

namespace Sys2Proof.Machine

/-! ## FILLC and FILLX (R357, R363) -/

/-- R357: the 128 bytes of a committed line: lane l gives bytes 4l to 4l+3, lanes outside L give zero. -/
def fillLine (r : Regs) (b : Nat) (lanes : Word) : List Byte :=
  (List.range 32).flatMap fun l => leBytes 4 (if lanes.getLsbD l then (r.get b l).toNat else 0)

/-- A line takes its place at its home by a store of an agent (R226, R243). (DEDUCED, log 70) -/
def commitLine (s : State) (n asn line : Nat) (bs : List Byte) : State :=
  let s := storeHome (sliceRoom s asn line) n (.rk asn) (line * 128) bs none false true
  { s with rkLines := if s.resident asn line then s.rkLines else { asn := asn, line := line } :: s.rkLines }

/-- FILLC (R357). The wait nodes whose lines are now committed are released by WAIT_NODE_RELEASE. -/
def execFillc (x : Mem) (s : State) : Host.Outcome State Fault Refusal :=
  instr s x.ctl { pilot := false, regs := [(x.a.toNat, 2), (x.b.toNat, 1)], feature := some 0, fill := true, base := 8, lane := 6 } fun k s =>
    if k.lanes == 0 then (s, .done)
    else
      let ea := eaOf (k.src.get64 x.a.toNat ((lanesOf k.lanes).headD 0)) (memOff x)
      if ea % 128 != 0 then (s, .fault 0x03 k.lanes (BitVec.ofNat 64 ea))
      else match s.agentFill k.agent with
        | none => (s, .fault 0x04 k.lanes (BitVec.ofNat 64 ea))
        | some f =>
          let line := ea / 128
          if line < f.base || line ≥ f.base + f.nlines || f.committed.contains line then (s, .fault 0x04 k.lanes (BitVec.ofNat 64 ea))
          else if f.stale then (k.later s x.ctl { opens := false }, .done)
          else
            let s := commitLine s k.agent f.asn line (fillLine k.src x.b.toNat k.lanes)
            (k.later (s.updFill f.id fun f => { f with committed := f.committed ++ [line] }) x.ctl { opens := false }, .done)

/-- The paths of a wave other than one leave it at once. -/
def leaveOthers (s : State) (n p : Nat) : State :=
  match s.agent? n with
  | none => s
  | some x =>
    let s := (List.range x.paths.length).foldl (fun s i => match x.paths[i]? with
      | some q => if i == p || q.st == .free then s else trace s n 5 i q.xmask []
      | none => s) s
    s.updAgent n fun y => { y with paths := y.paths.mapIdx fun i q => if i == p then q else {} }

/-- FILLX (R363): the fill ends with its reason, and every lane of its waves leaves. (DEDUCED, log 71) -/
def execFillx (x : Sys) (s : State) : Host.Outcome State Fault Refusal :=
  instr s x.ctl { pilot := false, feature := some 0, fill := true } fun k s =>
    if k.lanes == 0 then (s, .done)
    else
      let s := match s.agentFill k.agent with
        | some f => fillEnd (s.updFill f.id fun f => { f with reason := x.imm.toNat % 256 }) f.id
        | none => s
      let s := ((s.wavesOf k.gang k.role).filter fun y => y.num != k.agent).foldl (fun s y => endAgent s y.num 0) s
      let s := leaveOthers s k.agent k.path
      (s.updPath k.agent k.path fun q => { q with bun := q.bun.map fun (b : Bun) => { b with exits := b.exits ||| k.xmask } }, .done)

/-! ## Units in an interval (R369) -/

/-- The units of reckoned pages that an interval meets: descriptor index and unit number, each once. A page that is
untranslated, not reckoned or without W is skipped. (DEDUCED, log 72) -/
def unitsIn (s : State) (c : Ctx) (sup : Bool) (va len : Nat) : List (Nat × Nat) :=
  if len == 0 then []
  else
    let last := va + (len - 1)
    let page (p : Nat × Tr) : List (Nat × Nat) := match p.2 with
      | .ok _ _ l =>
        let idx := l.pfn % 4096
        let d := rkDesc s c idx
        let lo := max (p.1 / 128) (d.rbase / 128)
        let hi := min (min last ((p.1 / 2 ^ l.logSize + 1) * 2 ^ l.logSize - 1) / 128) ((d.rbase + d.rlen) / 128 - 1)
        if !d.ok || hi < lo then [] else (List.range (d.unitOf hi - d.unitOf lo + 1)).map fun i => (idx, d.unitOf lo + i)
      | _ => []
    ((pagesFrom s c sup .reckon last (len / 4096 + 2) va).flatMap page).eraseDups

/-- A unit that is absent, wholly or in part, is asked for as PREF `.llc` does (R269, R371). -/
def askUnit (s : State) (c : Ctx) (u : Nat × Nat) (m : Misser) : State :=
  match absentLines s c u with
  | l :: _ => (rkAccess s c u.1 l m true).2
  | [] => s

def State.pinOf (s : State) (c : Nat) (u : Nat × Nat) : Nat := ((s.pins.find? fun p => p.ctx == c && p.rkidx == u.1 && p.unit == u.2).map (·.count)).getD 0

def State.setPin (s : State) (c : Nat) (u : Nat × Nat) (n : Nat) : State :=
  let rest := s.pins.filter fun p => !(p.ctx == c && p.rkidx == u.1 && p.unit == u.2)
  { s with pins := if n == 0 then rest else rest ++ [{ ctx := c, rkidx := u.1, unit := u.2, count := n }] }

/-- The lines that count against a context's staging quota (R295, R371). (DEDUCED, log 53) -/
def quotaUsed (s : State) (c : Ctx) : Nat :=
  (s.stageHolds.filter fun h => h.1 == c.id).length + (s.pins.filter fun p => p.ctx == c.id).foldl (fun n p => n + 2 ^ (rkDesc s c p.rkidx).logUnit) 0

/-- The frame of RKINV and RKPIN (R369): each unit of the interval in turn, and the count of those acted on. -/
def unitInstr (x : Mem) (act : Iss → Ctx → Nat × Nat → State → Bool × State) (s : State) : Host.Outcome State Fault Refusal :=
  instr s x.ctl { regs := [(x.d.toNat, 1), (x.a.toNat, 2), (x.b.toNat, 1)], feature := some 0, base := 8, lane := 6 } fun k s =>
    if k.lanes == 0 then (s, .done)
    else
      let l := (lanesOf k.lanes).headD 0
      let c := s.ctxOf k.gang
      let us := unitsIn s c k.sup (eaOf (k.src.get64 x.a.toNat l) (memOff x)) (k.src.get x.b.toNat l).toNat
      let (n, s) := us.foldl (fun (acc : Nat × State) u => let (b, s) := act k c u acc.2; (if b then acc.1 + 1 else acc.1, s)) (0, s)
      (k.later s x.ctl { writes := laneWrites x.d.toNat (fun _ => BitVec.ofNat 32 n) (lanesOf k.lanes) }, .done)

/-! ## RKINV (R370) -/

/-- A line's place in the total order as a store of an agent (R244), which monitors see (R267). -/
def orderLine (s : State) (n asn line : Nat) : State :=
  let sp := Sp.rk asn
  let ts := max (((s.agent? n).map (·.clock)).getD 0) ((s.stampOf sp line).rts + 1)
  noteWrite ((s.setStamp sp line { wts := ts, rts := ts }).updAgent n fun x => { x with clock := max x.clock ts }) sp (line * 128) 128

/-- RKINV of one unit. -/
def invUnit (k : Iss) (c : Ctx) (u : Nat × Nat) (s : State) : Bool × State :=
  let (b, n) := unitSpan s c u
  let d := rkDesc s c u.1
  let pin := s.pinned c.asn b
  let s := (List.range n).foldl (fun s i => orderLine s k.agent c.asn (b + i)) s
  let s := match s.pendingFill c.asn b with
    | some f => (releaseReady s f.id).updFill f.id fun f => { f with stale := true }
    | none => s
  let s := dropLines s c.asn fun l => b ≤ l && l < b + n
  let s := if d.policy == 1 then setVictimBit s c d u.2 false else s
  let s := if pin then askUnit s c u (missOf s k.agent k.path) else s
  (true, s)

def execRkinv (x : Mem) (s : State) : Host.Outcome State Fault Refusal := unitInstr x invUnit s

/-! ## RKPIN (R371) -/

/-- RKPIN.PIN of one unit. -/
def pinUnit (k : Iss) (c : Ctx) (u : Nat × Nat) (s : State) : Bool × State :=
  let n := s.pinOf c.id u
  if n ≥ 255 || (n == 0 && quotaUsed s c + (unitSpan s c u).2 > c.stgquota) then (false, s)
  else (true, askUnit (s.setPin c.id u (n + 1)) c u (missOf s k.agent k.path))

/-- RKPIN.UNPIN of one unit. -/
def unpinUnit (_ : Iss) (c : Ctx) (u : Nat × Nat) (s : State) : Bool × State :=
  let n := s.pinOf c.id u
  if n == 0 then (false, s) else (true, s.setPin c.id u (n - 1))

def execRkpinPin (x : Mem) (s : State) : Host.Outcome State Fault Refusal := unitInstr x pinUnit s
def execRkpinUnpin (x : Mem) (s : State) : Host.Outcome State Fault Refusal := unitInstr x unpinUnit s

/-! ## Wait nodes and resources (R353, R354) -/

/-- WAIT_NODE_RELEASE (R354, R357): a node whose lines are all committed is released. -/
def execWaitNodeRelease (fill node : Nat) (s : State) : Host.Outcome State Fault Refusal :=
  event (match s.fill? fill with
    | some f => match f.nodes.find? fun n => n.id == node with
      | some n =>
        if !f.stale && n.lines.all fun l => f.committed.contains l then
          releaseNode (s.updFill fill fun f => { f with nodes := f.nodes.filter fun m => m.id != node }) f.asn n []
        else s
      | none => s
    | none => s)

/-- RECKON_RESOURCE_RETRY (R353): a path that waits for a reckoning resource tries again. -/
def execReckonResourceRetry (agent path : Nat) (s : State) : Host.Outcome State Fault Refusal :=
  event (match (s.path? agent path).bind (·.park) with
    | some (.resource _) => wakePath s agent path
    | _ => s)

/-! ## Fills launched (R352, R353, R355, R356) -/

/-- Whether a core's fill reserve is free. -/
def reserveAt (s : State) (core : Nat) : Bool :=
  let x := s.core core
  !x.fenced && !x.stopped && !(s.agents.any fun y => y.fill && !y.ended && y.num / 64 == core)

/-- Fill reserves held at a depth or less (R353). -/
def reservesHeld (s : State) (d : Nat) : Nat := (s.fills.filter fun f => f.launched.isSome && f.depth ≤ d).length

/-- R355: whether fill f goes before fill g; equal ones stay in the order of their creation. -/
def fillBefore (s : State) (f g : Fill) : Bool :=
  let pf := s.fillPrio f.id
  let pg := s.fillPrio g.id
  if pf != pg then pf > pg
  else if fillDeadline s f != fillDeadline s g then fillDeadline s f < fillDeadline s g
  else f.created < g.created || (f.created == g.created && f.id < g.id)

/-- The free reserve on the core of greatest ALLOWANCE, then the lowest number. (DEDUCED, log 74) -/
def bestReserve (s : State) : Option Nat :=
  let b := bindTable s
  (List.range 128).foldl (fun best k =>
    if !bound b (k / 4) || !reserveAt s k then best
    else match best with
      | some j => if s.allowance k > s.allowance j then some k else some j
      | none => some k) none

/-- The fill that goes next and the core it goes to. (DEDUCED, log 73) -/
def nextFill (s : State) : Option (Fill × Nat) :=
  let ok (f : Fill) : Bool := f.launched.isNone && reservesHeld s f.depth + 1 ≤ reserveLimit s.usableCores (min 4 f.depth)
  let best := (s.fills.filter ok).foldl (fun (b : Option Fill) f => match b with
    | none => some f
    | some g => if fillBefore s f g then some f else some g) none
  match best, bestReserve s with
  | some f, some k => some (f, k)
  | _, _ => none

/-- A fill block started on a core (R356). -/
def launchFill (s : State) (f : Fill) (core : Nat) : State :=
  let key : GangKey := { launch := s.nextLaunch, idx := 0 }
  let v := f.kernel.variants.headD {}
  let g : Gang := { key := key, ctx := f.ctx, st := .resident, cluster := core / 4, placedAt := s.tick, fill := true }
  let b := newBlock key 0 core (4 * physOf (bindTable s) (core / 4) + core % 4) 0 0 v []
  let s := { s with nextLaunch := s.nextLaunch + 1, gangs := s.gangs ++ [g], blocks := s.blocks ++ [b] }
  let s := s.updFill f.id fun f => { f with launched := some key, launchDepth := f.depth }
  { s with agents := s.agents ++ (List.range v.waves).map fun w => newWave s (64 * core + 16 * w + 15) key 0 w v.regs (f.kernel.addr + v.entry) 0xFFFFFFFF f.clock true }

/-- FILL_LAUNCH (R355). -/
def execFillLaunch (s : State) : Host.Outcome State Fault Refusal :=
  let s := retryAsks s
  event (match nextFill s with
    | some (f, k) => launchFill s f k
    | none => s)

/-! ## Gangs held by reckoning (R364) -/

/-- Whether a wave is held: no path of it is eligible, though one in a Blk instruction still is (R27, R99), and one is parked on a reckoned
miss. -/
def heldWave (x : Agent) : Bool :=
  x.paths.all (fun p => p.st != .eligible || p.trapHeld) && x.paths.any fun p => match p.park with
    | some (.reckon _) => p.st == .parked
    | _ => false

/-- Since when a gang is held by reckoning. (DEDUCED, log 76) -/
def heldSince (s : State) (y : Gang) : Option Nat :=
  let ws := s.gangWaves y.key
  if y.st == .resident && !y.fill && !y.migrating && !ws.isEmpty && ws.all heldWave then some (ws.foldl (fun m x => max m x.lastIssue) y.placedAt) else none

/-- RECKON_HELD_SAVE (R364): the gang held longest, for 50 µs or more, is saved whole where another fits nowhere. -/
def execReckonHeldSave (s : State) : Host.Outcome State Fault Refusal :=
  let held := s.gangs.filter fun y => ((heldSince s y).map fun t => decide (t + 800000 ≤ s.tick)).getD false && enginesIdle s y.key
  let longest := held.foldl (fun (b : Option Gang) y => match b with
    | none => some y
    | some z => if (heldSince s y).getD 0 < (heldSince s z).getD 0 then some y else some z) none
  match longest with
  | some y => if someFitsNowhere s (fun _ => true) then event ((newSave s y.key 4 none).getD s) else event s
  | none => event s

/-! ## Eviction (R365, R366) -/

/-- UNIT_EVICT (R365). -/
def execUnitEvict (ctx rkidx unit : Nat) (s : State) : Host.Outcome State Fault Refusal :=
  event (match s.ctx? ctx with
    | none => s
    | some c =>
      let d := rkDesc s c rkidx
      let u := (rkidx, unit)
      if !d.ok || unit ≥ d.rlen / 128 / (unitSpan s c u).2 || !evictable s c u then s else evictUnit s c u)

end Sys2Proof.Machine
end

