-- ==== Sys2Proof/Machine/Sys.lean ====
section
/-! DEFINITION. Special registers, traps and returns, CTXSV and CTXLD, TLBI, TSTAMP and TRCM, and the events of an issue:
illegal words, fetch-line fills, trap entries, results that become visible (R43-R49, R57, R65-R70, R401, R402, R428-R442,
R470). -/

namespace Sys2Proof.Machine

/-! ## Special registers (R43-R49) -/

/-- R43's Access column. -/
inductive Access where
  | ro | rw | sro | srw
  deriving DecidableEq, Repr

def sregAccess (n : Nat) : Access :=
  match n with
  | 0x100 | 0x101 | 0x102 | 0x200 => .rw
  | 0x800 | 0x801 | 0x803 => .srw
  | 0x802 | 0x804 | 0x805 => .sro
  | _ => .ro

/-- R46 step 4. -/
def Access.allows (a : Access) (write sup : Bool) : Bool :=
  match a with
  | .ro => !write
  | .rw => true
  | .sro => !write && sup
  | .srw => sup

/-- R43: the WAVEID of a wave. -/
def waveId (x : Agent) : Nat := if x.pilot then 0x1FFF else x.num % 8192

/-- The registers whose value lies in the block, the gang, the core or the device. A pilot program reads its gang's member
0 (R44). -/
def sharedReg (s : State) (x : Agent) (n : Nat) : Nat :=
  let b := (s.blockOf? x.gang (if x.pilot then 0 else x.role)).getD { gang := x.gang, role := 0 }
  let g := (s.gang? x.gang).getD { key := x.gang, ctx := 0 }
  match n with
  | 0x003 => b.blockIdx
  | 0x004 => b.role + 4 * (g.size - 1)
  | 0x005 => x.gang.idx
  | 0x006 => g.fx + 2 ^ 8 * g.fy + 2 ^ 16 * g.fw + 2 ^ 24 * g.fh
  | 0x007 => x.gang.launch
  | 0x008 => b.core
  | 0x00A => b.variant
  | 0x00B => b.scrSize
  | 0x00D => g.ctx
  | 0x010 => s.clk
  | 0x012 => s.tick / 16
  | 0x202 => b.energy
  | 0x802 => (s.ctxOf x.gang).asn
  | 0x804 => b.phys
  | 0x805 => (s.allowance b.core % 65536).toNat
  | _ => 0

/-- SRValue of R47, 64 bits, for one lane; the captured sources give the wave-scope registers (R6). (DEDUCED, log 77) (DEDUCED, log 78) -/
def sregValue (s : State) (x : Agent) (k : Iss) (n lane : Nat) : Nat :=
  match n with
  | 0x000 => if x.pilot then 0 else lane
  | 0x001 => x.idx
  | 0x002 => waveId x
  | 0x009 => x.nregs
  | 0x00C => if x.pilot then 0 else k.path
  | 0x00E => if x.sup then 1 else 0
  | 0x100 => k.src.rnd.toNat
  | 0x101 => k.src.trapen.toNat
  | 0x102 => k.src.arith.toNat
  | 0x200 => k.src.mem.toNat
  | 0x201 => if x.pilot then 0 else k.src.fmask.toNat
  | 0x011 => s.clk / 2 ^ 32
  | 0x013 => s.tick / 16 / 2 ^ 32
  | 0x203 => sharedReg s x 0x202 / 2 ^ 32
  | n => sharedReg s x n

/-- A context-scope register read at its home as a plain load (R49); other registers change nothing. -/
def contextReg (s : State) (x : Agent) (n : Nat) : Option (Nat × State) :=
  match n with
  | 0x800 => let (v, s) := readTrapvec s x; some (v.toNat, s)
  | 0x801 => let (v, s) := readTrapvec s x; some (v.toNat / 2 ^ 32, s)
  | 0x803 => let (v, c, s) := readNestmax s (s.ctxOf x.gang) x.clock; some (v, s.updAgent x.num fun y => { y with clock := max y.clock c })
  | _ => none

/-- SRD (R47). -/
def execSrd (x : Sys) (s : State) : Host.Outcome State Fault Refusal :=
  let wide := x.imm.getLsbD 12
  instr s x.ctl { regs := [(x.d.toNat, if wide then 2 else 1)] } fun k s =>
    let n := bitsOf x.imm.toNat 11 0
    match s.agent? k.agent with
    | none => (s, .gone)
    | some a =>
      if !(sregAccess n).allows false k.sup then (s, .fault 0x02 k.lanes 0)
      else if k.lanes == 0 then (s, .done)
      else
        let put (s : State) (f : Nat → Nat) : State :=
          let s := k.write s x.d.toNat fun l => BitVec.ofNat 32 (f l)
          if wide then k.write s (x.d.toNat + 1) fun l => BitVec.ofNat 32 (f l / 2 ^ 32) else s
        match contextReg s a n with
        | some (v, t) => (put t fun _ => v, .done)
        | none => (put s (sregValue s a k n), .done)

/-- A store to a context-scope register at its home (R49): the timestamp it takes, and the register's new stamp. -/
def ctxStamp (clock : Nat) (h : Stamp) : Stamp := let ts := max clock (h.rts + 1); { wts := ts, rts := ts }

/-- SRWrite of R48: reserved bits are dropped. (DEDUCED, log 21) (DEDUCED, log 79) -/
def sregWrite (s : State) (k : Iss) (n : Nat) (wide : Bool) (v : Nat) : State :=
  let w : Word := BitVec.ofNat 32 v
  let clock := ((s.agent? k.agent).map (·.clock)).getD 0
  let c := s.ctxOf k.gang
  match n with
  | 0x100 => s.mapRegs k.agent fun r => { r with rnd := w &&& 3 }
  | 0x101 => s.mapRegs k.agent fun r => { r with trapen := w &&& 31 }
  | 0x102 => s.mapRegs k.agent fun r => { r with arith := w &&& 63 }
  | 0x200 => s.mapRegs k.agent fun r => { r with mem := w &&& 15 }
  | 0x803 =>
    let h := ctxStamp clock c.nestmaxTs
    (s.updCtx c.id fun c => { c with nestmax := min 4 (max 1 w.toNat), nestmaxTs := h }).updAgent k.agent fun y => { y with clock := h.wts }
  | 0x800 | 0x801 =>
    let h := ctxStamp clock c.trapvecTs
    let old := c.trapvec
    let new : Dword := if wide then BitVec.ofNat 64 v else if n == 0x800 then old.extractLsb' 32 32 ++ w else w ++ old.extractLsb' 0 32
    (s.updCtx c.id fun c => { c with trapvec := new, trapvecTs := h }).updAgent k.agent fun y => { y with clock := h.wts }
  | _ => s

/-- SWR (R48). -/
def execSwr (x : Sys) (s : State) : Host.Outcome State Fault Refusal :=
  let wide := x.imm.getLsbD 12
  instr s x.ctl { regs := [(x.a.toNat, if wide then 2 else 1)] } fun k s =>
    let n := bitsOf x.imm.toNat 11 0
    if !(sregAccess n).allows true k.sup then (s, .fault 0x02 k.lanes 0)
    else match lanesOf k.lanes with
      | [] => (s, .done)
      | l :: _ => (sregWrite s k n wide (if wide then (k.src.get64 x.a.toNat l).toNat else (k.src.get x.a.toNat l).toNat), .done)

/-! ## TRAP, BRK and ERET (R436-R438) -/

/-- The trap of a TRAP or BRK (R437). -/
def trapRec (k : Iss) (code imm : Nat) : FaultRec := { code := code, kind := 2, mask := k.lanes, info := BitVec.ofNat 64 imm, pc := k.pc, sup := k.sup }

/-- TRAP (R437): it has completed, and its path takes the handler before it issues again. -/
def execTrap (x : Sys) (s : State) : Host.Outcome State Fault Refusal :=
  instr s x.ctl {} fun k s =>
    if k.lanes == 0 then (s, .done) else (addDue s k.agent k.path [trapRec k 0x60 (x.imm.toNat % 65536)], .done)

/-- BRK (R437): a stop where stops are armed and an entry is free, else as TRAP. (DEDUCED, log 80) -/
def execBrk (x : Sys) (s : State) : Host.Outcome State Fault Refusal :=
  instr s x.ctl {} fun k s =>
    if k.lanes == 0 then (s, .done)
    else
      let f := trapRec k 0x61 (x.imm.toNat % 65536)
      if stopsArmed s (s.ctxOf k.gang).id && s.stops.length < 64 then
        (s.updPath k.agent k.path fun q => { q with bun := q.bun.map fun (b : Bun) => { b with brk := some f } }, .done)
      else (addDue s k.agent k.path [f], .done)

/-- ERET in one of its modes (R438): it acts at the end of its bundle. -/
def eretInstr (x : Sys) (mode : Nat) (s : State) : Host.Outcome State Fault Refusal :=
  instr s x.ctl { pilot := false, sup := true } fun k s =>
    (s.updPath k.agent k.path fun q => { q with bun := q.bun.map fun (b : Bun) => { b with eret := some mode } }, .done)

def execEret (x : Sys) (s : State) : Host.Outcome State Fault Refusal := eretInstr x 0 s
def execEretSkip (x : Sys) (s : State) : Host.Outcome State Fault Refusal := eretInstr x 1 s
def execEretPc (x : Sys) (s : State) : Host.Outcome State Fault Refusal := eretInstr x 2 s

/-- The exception that stands at a path: a completion trap that is due, or the fault of an unfinished slot, with that slot. -/
def standing (x : Agent) (q : Path) : Option (FaultRec × Option Dword) :=
  match q.dueNow x with
  | some f => some (f, none)
  | none => match q.bun with
    | some b => match b.rest, b.redo with
      | [], r :: _ => r.flt.map fun f => (f, some r.pc)
      | _, _ => none
    | none => none

/-- R354, R432: a trap block on a reckoned line that is absent is filled first, as for any plain load: the path waits for it, and takes the
handler then. (DEDUCED, log 139) -/
def trapReckon (s : State) (x : Agent) (path : Nat) : Option State :=
  let c := s.ctxOf x.gang
  if x.pilot || x.sup || c.trapvec == 0 || c.trapvec.toNat % 8 != 0 then none
  else match tr s c true .read c.trapvec.toNat with
    | .ok _ _ l =>
      if !l.rk then none
      else match rkLines s x.num path c (l.pfn % 4096) [c.trapvec.toNat / 128] with
        | (.wait res, t) => some (t.updPath x.num path fun q => { q with st := .parked, park := some (if res then .resource t.tick else .reckon t.tick) })
        | _ => none
    | _ => none

/-- TRAP_ENTRY (R430, R432, R434): the fault that stands at a path, or its oldest completion trap, is taken. -/
def execTrapEntry (agent path : Nat) (s : State) : Host.Outcome State Fault Refusal :=
  event (match s.agent? agent, s.path? agent path with
    | some x, some q =>
      if !mayIssue s x path q then s
      else match standing x q with
        | none => s
        | some (f, pc) => match trapReckon s x path with
          | some t => t
          | none => if pc.isNone then takeDue s agent path else if trapWaits s agent then s else takeTrap s agent path f (pc.getD 0)
    | _, _ => s)

/-- ILLEGAL_ENCODING (R57, R70): the issuing path takes the fault at its word. -/
def execIllegalEncoding (_ : BitVec 96) (s : State) : Host.Outcome State Fault Refusal :=
  match issOf s .always with
  | none => .fault .noIssuer
  | some (k, _) => .next { finish (noteIssue s k) k (.fault 0x01 k.lanes 0) with cur := none }

/-! ## CTXSV and CTXLD (R442) -/

/-- CTXSV (R442). It waits until the gang's engines have done what they accepted (R170). (DEDUCED, log 81) -/
def execCtxsv (x : Sys) (s : State) : Host.Outcome State Fault Refusal :=
  instr s x.ctl { pilot := false, sup := true, regs := [(x.d.toNat, 1), (x.a.toNat, 2)] } fun k s =>
    match lanesOf k.lanes, s.agent? k.agent with
    | l :: _, some a =>
      match checkLanes s k.gang k.sup .write 8 [(l, (k.src.get64 x.a.toNat l).toNat)] (storeRule .b64) with
      | .fault code info => (s, .fault code k.lanes (BitVec.ofNat 64 info))
      | .go [t] [] =>
        if !enginesIdle s k.gang || jobEdge s (s.ctxOf k.gang).id t.va 8 then (s, .hold)
        else
          let s := fenceRelease s k.agent 3 4
          let w := s.updPath k.agent k.path fun q => { q with wait := some (.suspended x.d.toNat (maskOf ((lanesOf k.lanes).filter fun l => !k.kept.contains (32 * x.d.toNat + l)))) }
          match newSave w k.gang 3 none with
          | none => (k.write s x.d.toNat fun _ => 1, .done)
          | some s =>
            let slot := (((s.gang? k.gang).bind (·.slots)).map (·.first)).getD 0
            let n := ((s.agents.find? fun y => y.gang == k.gang && y.role == k.role && y.idx == a.idx && !y.pilot && !y.ended).map (·.num)).getD 0
            (storeOrd s n t.sp t.addr (leBytes 8 slot) 0 0 0, .gone)
      | .go _ miss => parkOrDone s k { miss := miss.map fun m => (m.1, m.2) }
    | _, _ => (s, .done)

/-- CTXLD (R442): a suspended gang of the context becomes eligible; its CTXSV acquires what the issuer has done. -/
def execCtxld (x : Sys) (s : State) : Host.Outcome State Fault Refusal :=
  instr s x.ctl { pilot := false, sup := true, regs := [(x.d.toNat, 1), (x.b.toNat, 1)] } fun k s =>
    match lanesOf k.lanes with
    | [] => (s, .done)
    | l :: _ =>
      let s := fenceRelease s k.agent 3 4
      let slot := (k.src.get x.b.toNat l).toNat
      match s.slotRuns.find? fun r => r.first == slot && r.state == 3 && r.ctx == (s.ctxOf k.gang).id with
      | none => (k.write s x.d.toNat fun _ => 1, .done)
      | some r =>
        let clock := ((s.agent? k.agent).map (·.clock)).getD 0
        let r' := { r with state := 2 }
        let s := { s with slotRuns := s.slotRuns.map fun (y : Slots) => if y.first == r.first then r' else y }
        let s := s.updGang r.gang fun y => { y with st := .saved, slots := some r' }
        let s := { s with agents := updWhere (fun y => y.gang == r.gang && !y.ended) (fun y => { y with clock := max y.clock clock }) s.agents }
        (k.write s x.d.toNat fun _ => 0, .done)

/-! ## TLBI (R401, R402) -/

/-- What a TLBI names: an address space with a range, an address space, or everything. -/
inductive Inv where
  | range (asn va len : Nat)
  | asn (asn : Nat)
  | all
  deriving DecidableEq, Repr

/-- Whether bytes va to va + len - 1 of an address space are named. -/
def Inv.covers (i : Inv) (asn va len : Nat) : Bool :=
  match i with
  | .range a v n => a == asn && overlaps v n va len && n != 0
  | .asn a => a == asn
  | .all => true

/-- R402 step 2: the translations dropped, with the instruction lines that were fetched through them. (DEDUCED, log 82) -/
def dropXlates (s : State) (i : Inv) : State :=
  { s with tlb := s.tlb.filter fun t => !i.covers t.asn (t.page * 2 ^ t.leaf.logSize) (2 ^ t.leaf.logSize)
           fetch := s.fetch.filter fun f => !((s.tlb.any fun t => t.asn == f.asn && t.page == f.va / 2 ^ t.leaf.logSize && i.covers t.asn (t.page * 2 ^ t.leaf.logSize) (2 ^ t.leaf.logSize)) || i.covers f.asn f.va 64) }

/-- R402 step 4: the jobs that hold a lock on a covered page. -/
def lockHolders (s : State) (i : Inv) : List Nat :=
  (s.jobs.filter fun j => j.locks.any fun t => i.covers t.asn (t.page * 2 ^ t.leaf.logSize) (2 ^ t.leaf.logSize)).map (·.id)

/-- Whether a page that a TLBI drops holds some bytes of an address space. -/
def Inv.drops (i : Inv) (s : State) (asn va len : Nat) : Bool :=
  i.covers asn va len || s.tlb.any fun t => t.asn == asn && overlaps (t.page * 2 ^ t.leaf.logSize) (2 ^ t.leaf.logSize) va len && i.covers asn (t.page * 2 ^ t.leaf.logSize) (2 ^ t.leaf.logSize)

/-- R402 step 3: the instructions of engines that have still to make an access translated at their issue with a translation to be
dropped. (DEDUCED, log 138) -/
def oldUsers (s : State) (i : Inv) : List Nat :=
  s.blocks.flatMap fun b => (b.engq.filter fun o => !o.done && ((o.ts.any fun w => i.drops s (s.ctxOf b.gang).asn w.va w.len) || o.ld.any fun p => i.drops s (s.ctxOf b.gang).asn p.1.va p.1.len)).map (·.id)

/-- The frame of a TLBI: the release, the drop, every relaxed store at its home, and the wait for the holders of locks. It does not
issue while an engine has still an access to make under a translation that it drops (R402). (DEDUCED, log 138) -/
def tlbi (k : Iss) (s : State) (i : Inv) : State × Fate :=
  if !(oldUsers s i).isEmpty then (s, .hold) else
  let s := drainWhere (dropXlates (fenceRelease s k.agent 3 4) i) fun _ => true
  match lockHolders s i with
  | [] => (s, .done)
  | js => (s, .wait (.locks js))

/-- TLBI.VA (R401, R402). -/
def execTlbiVa (x : Sys) (s : State) : Host.Outcome State Fault Refusal :=
  instr s x.ctl { pilot := false, sup := true, regs := [(x.a.toNat, 2), (x.b.toNat, 1), (x.c.toNat, 1)] } fun k s =>
    match lanesOf k.lanes with
    | [] => (s, .done)
    | l :: _ =>
      let va := (k.src.get64 x.a.toNat l).toNat
      let len := (k.src.get x.b.toNat l).toNat
      if va ≥ 2 ^ 57 || va + len > 2 ^ 57 then (s, .fault 0x11 k.lanes (BitVec.ofNat 64 va))
      else tlbi k s (.range ((k.src.get x.c.toNat l).toNat % 4096) va len)

/-- TLBI.ASN (R401, R402). -/
def execTlbiAsn (x : Sys) (s : State) : Host.Outcome State Fault Refusal :=
  instr s x.ctl { pilot := false, sup := true, regs := [(x.c.toNat, 1)] } fun k s =>
    match lanesOf k.lanes with
    | [] => (s, .done)
    | l :: _ => tlbi k s (.asn ((k.src.get x.c.toNat l).toNat % 4096))

/-- TLBI.ALL (R401, R402). -/
def execTlbiAll (x : Sys) (s : State) : Host.Outcome State Fault Refusal :=
  instr s x.ctl { pilot := false, sup := true } fun k s => if k.lanes == 0 then (s, .done) else tlbi k s .all

/-! ## TSTAMP (R428) -/

/-- TSTAMP, memory form (R428). -/
def execTstamp (x : Mem) (s : State) : Host.Outcome State Fault Refusal :=
  instr s x.ctl (memNeed [(x.d.toNat, 2), (x.a.toNat, 2)]) fun k s =>
    match lanesOf k.lanes with
    | [] => (s, .done)
    | l :: _ =>
      match checkLanes s k.gang k.sup .write 8 [(l, eaOf (k.src.get64 x.a.toNat l) (memOff x))] (storeRule .b64) with
      | .fault code info => (s, .fault code k.lanes (BitVec.ofNat 64 info))
      | .go [t] [] =>
        if jobEdge s (s.ctxOf k.gang).id t.va 8 then (s, .hold)
        else
          let now := s.tick / 16
          let s := storeLanes (touch s (s.ctxOf k.gang) t.va) k (ordOf x.ord) (fun _ => leBytes 8 now) [t]
          (k.later s x.ctl { writes := laneWrites64 x.d.toNat (fun _ => BitVec.ofNat 64 now) (lanesOf k.lanes) }, .done)
      | .go _ miss => parkOrDone s k { miss := miss.map fun m => (m.1, m.2) }

/-- R427: a mark of the open trail with a tag; the first stamp of a mark remains. -/
def markTrail (s : State) (tag : BitVec 32) (m : Nat) : State :=
  { s with trails := updWhere (fun (t : Trail) => t.tag == tag && !(t.marks.any fun y => y.1 == m)) (fun t => { t with marks := t.marks ++ [(m, s.tick / 16)] }) s.trails }

/-- TSTAMP, wake form (R428). -/
def execTstampWake (x : Mem) (s : State) : Host.Outcome State Fault Refusal :=
  instr s x.ctl (memNeed [(x.d.toNat, 2), (x.a.toNat, 1)]) fun k s =>
    match lanesOf k.lanes with
    | [] => (s, .done)
    | l :: _ =>
      let now := s.tick / 16
      let s := markTrail s (k.src.get x.a.toNat l) x.c.toNat
      (k.later s x.ctl { writes := laneWrites64 x.d.toNat (fun _ => BitVec.ofNat 64 now) (lanesOf k.lanes) }, .done)

/-! ## TRCM (R470) -/

/-- A PMARK of a pilot program (R465, R466). (DEDUCED, log 85) -/
def pilotMark (s : State) (x : Agent) (v : Word) (ext : List Byte) : State :=
  if traced s x then packet s x (packetHead 0xA 0 (x.num - 8192) (min 4095 (s.clk - x.trLast)) v.toNat ++ ext) false else s

/-- TRCM (R470). -/
def execTrcm (x : Sys) (s : State) : Host.Outcome State Fault Refusal :=
  instr s x.ctl { feature := some 8, regs := [(x.a.toNat, 1)] } fun k s =>
    match lanesOf k.lanes, s.agent? k.agent with
    | l :: _, some a =>
      let v := k.src.get x.a.toNat l
      let ext := leBytes 8 (x.imm.toNat % 65536)
      (if k.pilot then pilotMark s a v ext else trace s k.agent 7 k.path v ext, .done)
    | _, _ => (s, .done)

/-! ## FETCH_LINE_FILL (R57) -/

/-- The slot that a path issues next. -/
def nextSlot (q : Path) : Dword :=
  match q.bun with
  | some b => match b.rest, b.redo with
    | pc :: _, _ => pc
    | [], r :: _ => r.pc
    | [], [] => b.next
  | none => q.pc

/-- The paths of a core and context that wait for a line. -/
def wantsLine (s : State) (core ctx va : Nat) : List (Agent × Nat × Path) :=
  (s.agents.filter fun x => !x.ended && s.coreOf x == core && (s.ctxOf x.gang).id == ctx).flatMap fun x =>
    (x.paths.mapIdx fun i q => (x, i, q)).filter fun y => mayRun s x y.2.2 && (y.2.2.bun.all fun b => b.rest.isEmpty) && lineBase (nextSlot y.2.2).toNat == va

/-- FETCH_LINE_FILL (R53, R57): the line is cached, or the paths that need it park or fault; a line broken twice is a lasting
hardware error of the core. A miss's record names the line's first byte. (DEDUCED, log 155) -/
def execFetchLineFill (core ctx : Nat) (va : BitVec 64) (err1 err2 : BitVec 512) (s : State) : Host.Outcome State Fault Refusal :=
  event (match s.ctx? ctx with
    | none => s
    | some c =>
      if va.toNat % 64 != 0 then s
      else
        let ps := wantsLine s core ctx va.toNat
        match readLine s core c va.toNat err1 err2 with
        | .filled t => t
        | .perm => ps.foldl (fun s (x, i, q) => faultAt s x.num i (nextSlot q) 0x11) s
        | .miss m => ps.foldl (fun s (x, i, _) =>
            let (why, s) := xlatePark s x.gang x.num m []
            s.updPath x.num i fun q => { q with st := .parked, park := some why }) s
        | .broken => match ps with
          | (x, _, _) :: _ => { s with agenda := .event (.hwError core true [x.gang]) :: s.agenda }
          | [] => s)

/-! ## RESULT_VISIBLE (R40, R65-R69, R173) -/

/-- Whether what a result waits for has come. -/
def heldBack (s : State) (p : Pend) : Bool :=
  match p.hold with
  | .none | .engine _ | .engineDone _ => false
  | .stage ls => ls.any fun (asn, l) => !s.resident asn l && s.stageHolds.any fun h => h.2.1 == .rk asn && h.2.2 == l
  | _ => true

/-- What a result writes (R69): in each lane of its destinations that have been overwritten since, the values written there or the
result, which of them is free, one choice for all of the lane's registers. (DESIGN CHOICE, log 12) -/
def shownWrites (s : State) (p : Pend) : List (Nat × Word) :=
  p.writes.filter fun w => !p.covered.contains w.1 || laneChoice s.fresh (w.1 % 32)

/-- A bundle under way when a result becomes visible: an older one stands in the registers that lanes left behind go back to
(R102). (DEDUCED, log 118) -/
def Bun.shows (b : Bun) (p : Pend) (ws : List (Nat × Word)) : Bun :=
  { b with src := if p.id < b.since then b.src.setKeys ws else b.src }

/-- The lanes of a wave that are still in it. -/
def Agent.lanesLeft (x : Agent) : Word := x.paths.foldl (fun m q => if q.st == .free then m else m ||| q.xmask) 0

/-- Whether the next slot of a bundle under way waits for a result (R66, R173). -/
def Path.waitsOn (q : Path) (path : Nat) (p : Pend) : Bool :=
  match q.bun with
  | some b => match b.now, b.rest with
    | none, pc :: _ => p.holds path (instrOf (b.word pc))
    | _, _ => false
  | none => false

/-- The completion traps of a result (R121, R430): those that TRAPEN enabled when the instruction issued, for the lanes that are still
in the wave (R105). The trap of an engine instruction is dropped only where its path is gone (R173). -/
def shownTraps (x : Agent) (p : Pend) : List FaultRec :=
  let left (m : Word) : Word := match p.hold with
    | .engineDone _ => m
    | _ => m &&& x.lanesLeft
  let mid := ((x.paths[p.path]?).map fun q => q.waitsOn p.path p).getD false
  (p.traps.filter fun t => trapEnabled p.trapen t.1 && left t.2.1 != 0).map fun (code, m, info) =>
    { code := code, kind := 1, mask := left m, info := info, pc := p.pc, sup := p.sup, mid := mid : FaultRec }

/-- The result of a pend written (R67, R69, R120, R430): registers, flags, completion traps, and its counter drops. Older results that
have still to write a register of it have been overwritten there. -/
def showResult (s : State) (p : Pend) : State :=
  let ws := shownWrites s p
  let s := overwrite { s with pend := s.pend.filter (fun q => q.id != p.id), fresh := s.fresh + if p.covered.isEmpty then 0 else 32 } p.agent p.id (ws.map (·.1))
  match s.agent? p.agent with
  | none => s
  | some x =>
    let s := s.updAgent p.agent fun x => { x with regs := { x.regs.setKeys ws with arith := x.regs.arith ||| p.arith, mem := x.regs.mem ||| p.mem }, d := bumpCounter x.d p.cnt false }
    let s := s.updPath p.agent p.path fun q => { q with bun := q.bun.map fun b => b.shows p ws, saved := q.saved.map fun b => b.shows p ws }
    endIfIdle (addDue s p.agent p.path (shownTraps x p)) p.agent

/-- RESULT_VISIBLE (R40): an engine instruction's result needs the engine to have performed it, and one behind a refresh waits for its end
(R456). (DESIGN CHOICE, log 12) -/
def execResultVisible (agent id : Nat) (s : State) : Host.Outcome State Fault Refusal :=
  event (match s.pend.find? fun p => p.id == id && p.agent == agent with
    | none => s
    | some p =>
      if heldBack s p || decide (s.tick < p.behind) then s
      else match s.agent? agent with
        | none => { s with pend := s.pend.filter fun q => q.id != id }
        | some x => match p.hold with
          | .engine op => if onCluster s x.gang then engPerform s x.gang x.role op else s
          | .engineDone op => showResult (engComplete s x.gang x.role op) p
          | _ => showResult s p)

end Sys2Proof.Machine
end

