-- ==== Sys2Proof/Machine/Contexts.lean ====
section
/-! DEFINITION. Contexts created and destroyed, the host's TLBI, walks that go on, and back-invalidates (R391, R393,
R395-R398, R402). -/

namespace Sys2Proof.Machine

/-! ## Context descriptors (R395, R396) -/

/-- The 128 bytes of a context's descriptor, at a local physical address. -/
def ctxDescAt (s : State) (c : Nat) : Nat := s.regs.ctxtable + 128 * c

/-- R395: every field within its limits. -/
def ctxDescOk (b : List Byte) : Bool :=
  leField b 0 8 % 4096 == 0 && leField b 8 2 < 4096 && leField b 10 1 ≤ 4 && leField b 12 4 == 0
    && leField b 24 8 % 4096 == 0 && leField b 32 8 % 128 == 0 && leField b 40 2 ≤ 4096 && leField b 42 2 == 0
    && leField b 56 8 % 128 == 0 && 4 ≤ leField b 64 1 && leField b 64 1 ≤ 12 && leField b 65 1 == 0
    && leField b 66 2 ≤ 2047 && (b.drop 68).all (· == 0)

/-- The context that a descriptor describes, live. -/
def ctxOfDesc (id : Nat) (b : List Byte) : Ctx where
  id := id
  cstate := 1
  root := leField b 0 8
  asn := leField b 8 2
  nestmax := if leField b 10 1 == 0 then 2 else leField b 10 1
  trapvec := BitVec.ofNat 64 (leField b 16 8)
  chanstat := leField b 24 8
  rktab := leField b 32 8
  rkcount := leField b 40 2
  stgquota := leField b 44 4
  acct := leField b 48 8
  fring := leField b 56 8
  frlog := leField b 64 1
  msix := leField b 66 2

/-- CSTATE in the descriptor. -/
def writeCstate (s : State) (c code : Nat) : State := storeDevice s .loc (ctxDescAt s c + 11) [BitVec.ofNat 8 code]

def State.setCtx (s : State) (c : Ctx) : State := { s with ctxs := c :: s.ctxs.filter fun x => x.id != c.id }

def liveCtxs (s : State) : List Ctx := s.ctxs.filter fun x => x.cstate == 1

/-- Whether another live context shares a context's address space. -/
def asnShared (s : State) (c : Ctx) : Bool := (liveCtxs s).any fun x => x.id != c.id && x.asn == c.asn

/-- R396: the code of a create. -/
def createCode (s : State) (id : Nat) (b : List Byte) : Nat :=
  let c := ctxOfDesc id b
  if !ctxDescOk b then 3
  else if (liveCtxs s).any fun x => x.id != id && x.asn == c.asn && x.root != c.root then 4
  else if (liveCtxs s).length ≥ 256 then 5
  else 1

/-- CTX_CREATE (R396, R397). (DEDUCED, log 83) -/
def execCtxCreate (ctx : Nat) (s : State) : Host.Outcome State Fault Refusal :=
  let s := barWrite s
  if ctx ≥ 256 || ((s.ctx? ctx).map fun c => c.cstate == 1 || c.cstate == 2).getD false then event s
  else
    let b := s.readHome .loc (ctxDescAt s ctx) 128
    let code := createCode s ctx b
    if code != 1 then event (writeCstate (s.setCtx { id := ctx, cstate := code }) ctx code)
    else
      let c := ctxOfDesc ctx b
      let s := if asnShared s c then s else dropXlates s (.asn c.asn)
      let s := if c.chanstat == 0 then s else devWrite s c c.chanstat (List.replicate 4096 0)
      let s := devWrite s c c.fring (leBytes 8 0)
      let s := devWrite s c (c.fring + 16) (leBytes 8 0)
      let head := devRead s c c.acct 24
      let s := s.setCtx { c with bwidx := leField head 0 8, blost := leField head 16 8 }
      event (writeCstate { s with regs := { s.regs with ctxEver := true } } ctx 1)

/-! ## Destroying (R398, R372) -/

/-- R372: the context's fills end without commits and without poison; waiters of other contexts miss again. (DEDUCED, log 84) -/
def dropFills (s : State) (ctx : Nat) : State :=
  let gone := s.fills.filter fun f => f.ctx == ctx
  let s := { s with fills := s.fills.filter (fun f => f.ctx != ctx), asks := s.asks.filter fun a => a.ctx != ctx }
  retryAsks (gone.foldl (fun s f => f.nodes.foldl (fun s n => releaseNode s f.asn n []) s) s)

/-- A saved or waiting gang freed with its slots (R398 step 3). -/
def freeGang (s : State) (y : Gang) : State :=
  let s := endMatrix s y.key
  let s := freeSlots (freeSlots s y.slots) y.ckSlots
  let ns := (s.gangAgents y.key).map (·.num)
  let s := dropWaiter s fun w => match w with | .path a _ | .op a _ => ns.contains a | .job _ => false
  { s with agents := s.agents.filter (fun x => x.gang != y.key), pend := s.pend.filter (fun p => !ns.contains p.agent), stops := s.stops.filter (fun t => !ns.contains t.agent),
           gangs := s.gangs.filter (fun z => z.key != y.key), blocks := s.blocks.filter (fun b => b.gang != y.key), colls := s.colls.filter (fun c => c.gang != y.key), links := s.links.filter fun m => m.gang != y.key }

/-- A context's launches keep only the gangs that are still to retire. -/
def cutLaunch (s : State) (l : Launch) : State :=
  let left := (s.gangs.filter fun y => y.key.launch == l.id).length
  checkLaunch (s.updLaunch l.id fun l => { l with ngang := l.retired + left, placed := l.retired + left }) l.id

/-- CTX_DESTROY (R398, steps 1 to 4). -/
def execCtxDestroy (ctx : Nat) (s : State) : Host.Outcome State Fault Refusal :=
  let s := barWrite s
  match s.ctx? ctx with
  | none => event s
  | some c =>
    if c.cstate != 1 then event s
    else
      let s := releaseCtx (writeCstate (s.updCtx ctx fun c => { c with cstate := 2 }) ctx 2) ctx
      let s := (s.queues.filter fun q => q.ctx == ctx).foldl (fun s q => disableQueue s q.q) s
      let s := dropFills s ctx
      let s := (s.gangs.filter fun y => y.ctx == ctx && y.st == .resident).foldl (fun s y => killGang (engFlush s y.key) y.key 0) s
      let s := (s.gangs.filter fun y => y.ctx == ctx && y.st != .resident).foldl freeGang s
      let s := (s.launches.filter fun l => l.ctx == ctx).foldl cutLaunch s
      let s := { s with pins := s.pins.filter (fun p => p.ctx != ctx), stageHolds := s.stageHolds.filter (fun h => h.1 != ctx),
                        books := s.books.map fun b => if b.owner.getD 1 256 == ctx then { b with owner := [] } else b }
      if asnShared s c then event s
      else
        let s := dropLines s c.asn fun _ => true
        event (dropXlates s (.asn c.asn))

/-- DESTROY_COMPLETE (R398, step 5). -/
def execDestroyComplete (ctx : Nat) (s : State) : Host.Outcome State Fault Refusal :=
  event (match s.ctx? ctx with
    | some c =>
      if c.cstate == 2 && !(s.jobs.any fun j => j.ctx == ctx) && !(s.gangs.any fun y => y.ctx == ctx) && !(s.colls.any fun y => (s.ctxOf y.gang).id == ctx) then
        writeCstate { s with ctxs := s.ctxs.filter fun x => x.id != ctx } ctx 0
      else s
    | none => s)

/-! ## The host's TLBI (R402) -/

/-- The host's TLBI (R402): the drop, and every relaxed store at its home; it completes when the engines have made the accesses that stood under
what it drops, and the jobs that locked covered pages have completed. (DEDUCED, log 138) -/
def hostTlbi (s : State) (i : Inv) : Host.Outcome State Fault Refusal :=
  let h : HostTlbi := { users := oldUsers s i, locks := lockHolders s i }
  let s := drainWhere (dropXlates (barWrite s) i) fun _ => true
  event (settleTlbis { s with hostTlbis := s.hostTlbis ++ [h] })

def execHostTlbiVa (asn : Nat) (va len : BitVec 64) (s : State) : Host.Outcome State Fault Refusal := hostTlbi s (.range asn va.toNat len.toNat)
def execHostTlbiAsn (asn : Nat) (s : State) : Host.Outcome State Fault Refusal := hostTlbi s (.asn asn)
def execHostTlbiAll (s : State) : Host.Outcome State Fault Refusal := hostTlbi s .all

/-! ## Walks that go on (R393) -/

/-- The paths parked on a translation miss of a page-table line that a write has released. -/
def xlateWoken (s : State) (line : Nat) : List (Nat × Nat) :=
  let hit (q : Path) : Bool := match q.park with
    | some (.xlate _ ls true _) => ls.any fun e => e.1 == line
    | _ => false
  s.agents.flatMap fun x => if x.ended then [] else ((List.range x.paths.length).filter fun i => (x.paths[i]?).any hit).map fun i => (x.num, i)

/-- The collectives that a written line concerns walk afresh. (DEDUCED, log 51) -/
def collsWoken (s : State) (line : Nat) : State :=
  if s.colls.any fun c => c.missed.contains (line, true) then
    submitReady { s with colls := s.colls.map fun (c : Collective) => { c with missed := c.missed.filter (· != (line, true)) } }
  else s

/-- WALKER_MONITOR_WAKE (R393): a line was written: every path parked on it walks again, and so does a completed collective whose submission
missed there. -/
def execWalkerMonitorWake (line : Nat) (s : State) : Host.Outcome State Fault Refusal :=
  event (collsWoken ((xlateWoken s line).foldl (fun s (n, p) => wakePath s n p) s) line)

/-- The page-table lines of a walk that goes on, its invalid entry found elsewhere. -/
def rearm (ls : List (Nat × Bool)) (old new : Nat) : List (Nat × Bool) := ls.map fun e => if e.1 == old / 128 && new / 128 != old / 128 then (new / 128, false) else e

/-- XLATE_REWALK (R393): where a line it waits on found no walker monitor free, a path walks again every 10 µs; a walk that still misses goes
on waiting. -/
def execXlateRewalk (agent path : Nat) (s : State) : Host.Outcome State Fault Refusal :=
  event (match s.agent? agent, (s.path? agent path).bind (·.park) with
    | some x, some (.xlate m ls w since) =>
      if ls.all (·.2) || since + 160000 > s.tick then s
      else match translate s (s.ctxOf x.gang) m.va.toNat with
        | .invalid pte level => s.updPath agent path fun q => { q with park := some (.xlate { m with pte := pte, level := level } (rearm ls m.pte pte) w s.tick) }
        | _ => wakePath s agent path
    | _, _ => s)

/-- BACK_INVALIDATE (R391): the device's copies of a pool line go. -/
def execBackInvalidate (window line : Nat) (s : State) : Host.Outcome State Fault Refusal :=
  event { s with copies := s.copies.filter fun k => !(k.sp == .pool window && k.line == line) }

end Sys2Proof.Machine
end

