-- ==== Sys2Proof/Machine/Stops.lean ====
section
/-! DEFINITION. The trace's control, stops and stall counters: the events of TRCTL, STOPREL, STOPARM, STALLCLR, breakpoints
and losses (R464, R467, R469, R471-R475). -/

namespace Sys2Proof.Machine

/-! ## Trace control (R464, R467, R469) -/

/-- Every wave that the trace takes in now and did not before owes a SYNC. -/
def oweSync (s : State) (was : State) : State :=
  { s with agents := s.agents.map fun x => if traced s x && !traced was x then { x with trOwed := true, trDrop := false } else x }

/-- TRCTL_WRITE (R464). -/
def execTrctlWrite (val : BitVec 64) (s : State) : Host.Outcome State Fault Refusal :=
  let s := barWrite s
  let new : Dword := val &&& 0xFFFFFFFF0000FF01
  let on := s.regs.trctl.getLsbD 0
  if new.getLsbD 0 && !on then
    if s.regs.trlog < 12 || s.regs.trlog > 30 then event s
    else
      let t := { s with regs := { s.regs with trctl := new, trwidx := 0, trridx := 0, trlost := 0, trpending := 0 } }
      event { t with agents := t.agents.map fun x => { x with trOwed := true, trDrop := false } }
  else event (oweSync { s with regs := { s.regs with trctl := new } } s)

/-- TRACE_LOSS_WRITE (R469): the pending count written once the ring has room for it and for the longest packet behind it. (DEDUCED, log 86) -/
def execTraceLossWrite (s : State) : Host.Outcome State Fault Refusal :=
  if s.regs.trctl.getLsbD 0 && s.regs.trpending != 0 && room s 216 then
    let bs := leBytes 8 (0xE * 2 ^ 60 + min s.regs.trpending (2 ^ 32 - 1))
    event (ringWrite { s with regs := { s.regs with trpending := 0 } } bs)
  else event s

/-! ## Stops (R471-R473) -/

/-- BREAKPOINT_HOLD (R471): the path's next bundle matches, or a step or its wave's breakpoint has it held. (DEDUCED, log 87) -/
def execBreakpointHold (agent path k : Nat) (s : State) : Host.Outcome State Fault Refusal :=
  event (match s.agent? agent, s.path? agent path with
    | some x, some q =>
      if mayIssue s x path q && q.bun.isNone && stopOf s (s.ctxOf x.gang).id x.pilot q == some k then
        if q.stepping == some k then holdPath s agent path k else breakHold s agent path k
      else s
    | _, _ => s)

/-- STOPREL_RELEASE (R472, mode 0). -/
def execStoprelRelease (ctx agent path : Nat) (s : State) : Host.Outcome State Fault Refusal :=
  let s := barWrite s
  event (match stopNamed s ctx agent path with | some t => releaseStop s t false | none => s)

/-- STOPREL_STEP (R472, mode 1). -/
def execStoprelStep (ctx agent path : Nat) (s : State) : Host.Outcome State Fault Refusal :=
  let s := barWrite s
  event (match stopNamed s ctx agent path with | some t => releaseStop s t true | none => s)

/-- STOPREL_ALL (R472, mode 2). -/
def execStoprelAll (ctx : Nat) (s : State) : Host.Outcome State Fault Refusal := event (releaseCtx (barWrite s) ctx)

/-- STOPARM_WRITE (R472): the contexts whose bit is cleared release their paths. -/
def execStoparmWrite (idx : Nat) (val : BitVec 64) (s : State) : Host.Outcome State Fault Refusal :=
  let s := barWrite s
  if idx ≥ 4 then event s
  else
    let off := ((List.range 64).filter fun k => !val.getLsbD k).map (64 * idx + ·)
    let s := off.foldl releaseCtx { s with regs := { s.regs with stoparm := mset 0 s.regs.stoparm idx val } }
    let s := { s with agents := s.agents.map fun (x : Agent) => if off.contains (s.ctxOf x.gang).id then { x with paths := x.paths.map fun (q : Path) => { q with stepping := none } } else x }
    event s

/-- STALLCLR (R474). -/
def execStallclr (s : State) : Host.Outcome State Fault Refusal := let s := barWrite s; event { s with stalls := [], regs := { s.regs with stallSince := s.clk } }

end Sys2Proof.Machine
end

