-- ==== Sys2Proof/Machine/Recover.lean ====
section
/-! DEFINITION. The watchdog, thermal stops, hardware errors, fences, re-execution and resynchronisation (R11, R440,
R443-R450). -/

namespace Sys2Proof.Machine

def State.setCore (s : State) (c : CoreSt) : State := { s with cores := c :: s.cores.filter fun k => k.core != c.core }

/-! ## The watchdog (R440) -/

/-- Whether a path waits in SLEEP, or in an MWAIT with a limit. -/
def timedWait (q : Path) : Bool := match q.wait with
  | some (.sleep _) => true
  | some (.mwait (some _) _ _) => true
  | _ => false

/-- Whether a gang is stalled (R440, R473); a saved one only while it is held by reckoning, its wait nodes not all released (R364). -/
def stalled (s : State) (y : Gang) : Bool :=
  let xs := s.gangAgents y.key
  (y.st == .resident || (y.st == .saved && (y.slots.map (·.state)) == some 4 && !savedReady s y)) && y.stopSince.isNone && !xs.isEmpty
    && xs.all fun x => x.lastIssue + 32000000000 ≤ s.tick && y.placedAt + 32000000000 ≤ s.tick && !x.paths.any timedWait

/-- WATCHDOG (R440). (DEDUCED, log 95) -/
def execWatchdog (g : GangKey) (s : State) : Host.Outcome State Fault Refusal :=
  match s.gang? g with
  | none => event s
  | some y =>
    if !stalled s y then event s
    else event (addEvent (killGang s g 0x32) { time := 0, kind := 0x32, unit := 1, num := y.cluster, ctx := y.ctx, launch := g.launch })

/-! ## Cores that stop and gangs that leave them (R11, R447) -/

/-- The gangs, fills apart, that have a living block on a core. -/
def gangsOn (s : State) (core : Nat) : List Gang :=
  s.gangs.filter fun y => y.st == .resident && !y.fill && s.blocks.any fun b => b.gang == y.key && b.core == core && !b.ended

/-- The fills on a core stop: their committed lines stand, and their wait nodes pass to new fills (R11, R370). -/
def moveFills (s : State) (core : Nat) (touched : List GangKey) : State :=
  (s.gangs.filter fun y => y.fill && !touched.contains y.key && s.blocks.any fun b => b.gang == y.key && b.core == core && !b.ended).foldl (fun s y =>
    let s := match s.fillOfGang y.key with
      | some f => (releaseReady s f.id).updFill f.id fun f => { f with stale := true }
      | none => s
    killGang s y.key 0) s

/-- THERMAL_STOP (R11, R408). -/
def execThermalStop (core : Nat) (s : State) : Host.Outcome State Fault Refusal :=
  let c := s.core core
  if core ≥ 128 || c.stopped || !((c.temp.map fun t => decide (t ≥ 1760)).getD false) then event s
  else
    let s := addEvent (s.setCore { c with stopped := true, coolSince := none }) { time := 0, kind := 0x88, unit := 0, num := core }
    let s := { s with regs := { s.regs with shutdowns := min 255 (s.regs.shutdowns + 1), held := false } }
    let s := (gangsOn s core).foldl (fun s y => s.updGang y.key fun y => { y with stopped := true, saveSince := y.saveSince.or (some s.tick) }) s
    event (serveSaves (moveFills s core []) none)

/-- THERMAL_RESUME (R11): below 100 °C for 1 ms. Gangs that still wait on the core for slots go on there. (DEDUCED, log 88) -/
def execThermalResume (core : Nat) (s : State) : Host.Outcome State Fault Refusal :=
  let c := s.core core
  if !c.stopped || !((c.coolSince.map fun t => decide (t + 16000000 ≤ s.tick)).getD false) then event s
  else
    let s := addEvent (s.setCore { c with stopped := false, coolSince := none }) { time := 0, kind := 0x89, unit := 0, num := core }
    let free (y : Gang) : Bool := s.blocks.all fun b => b.gang != y.key || b.ended || (!(s.core b.core).stopped && !(s.core b.core).fenced)
    event ((gangsOn s core).foldl (fun s y => if free y then s.updGang y.key fun y => { y with stopped := false, saveSince := none } else s) s)

/-- R447: a core fenced; the gangs on it that the error has not touched leave it, and one that has to stay issues nothing meanwhile. -/
def fenceCore (s : State) (core : Nat) (touched : List GangKey) : State :=
  if (s.core core).fenced then s
  else
    let s := moveFills (s.setCore { s.core core with fenced := true }) core touched
    let ys := (gangsOn s core).filter fun y => !touched.contains y.key
    let s := ys.foldl (fun s y => s.updGang y.key fun y => { y with saveSince := y.saveSince.or (some s.tick), want := { y.want with leave := true } }) s
    let s := serveSaves s none
    ys.foldl (fun s y => s.updGang y.key fun z => { z with stopped := z.stopped || z.st == .resident }) s

/-! ## Hardware errors (R443-R446) -/

/-- Everything a gang has under way is dropped; what it has stored stands. -/
def dropGangAgents (s : State) (g : GangKey) : State :=
  let xs := s.gangAgents g
  let ns := xs.map (·.num)
  let s := xs.foldl (fun s x => drainAgent s x.num) s
  let s := dropWaiter s fun w => match w with | .path a _ | .op a _ => ns.contains a | .job _ => false
  { s with agents := s.agents.filter (fun x => x.gang != g), pend := s.pend.filter (fun p => !ns.contains p.agent), stops := s.stops.filter (fun t => !ns.contains t.agent),
           jobs := s.jobs.map (fun j => { j with agents := j.agents.filter fun n => !ns.contains n }), colls := s.colls.filter (fun c => c.gang != g), links := s.links.filter (fun m => m.gang != g),
           releases := s.releases.map (renameRel fun n => if ns.contains n then 0x20000 else n), blocks := s.blocks.filter fun b => b.gang != g }

/-- The agents of a checkpoint under names of their own. Their clocks stand at least at the gang's clocks of now: none is lowered (R230). -/
def restoreAgents (s : State) (xs : List Agent) (clock : Nat) : State :=
  xs.foldl (fun s x => { s with agents := s.agents ++ [{ x with num := 0x100000 + s.nextId, clock := max x.clock clock, floors := [s.seq, s.seq, s.seq, s.seq] }], nextId := s.nextId + 1 }) s

/-- R446: a gang goes back to its checkpoint, or to its launch record, and waits to be placed without a core. -/
def reexecute (s : State) (y : Gang) (core : Nat) : State :=
  let clock := (s.gangAgents y.key).foldl (fun m x => max m (max x.clock x.relTs)) y.clock
  let s := dropGangAgents s y.key
  let s := { s with blocks := s.blocks ++ y.ckBlocks }
  let s := restoreAgents s y.ckAgents clock
  let s := freeSlots s y.slots
  s.updGang y.key fun y => { y with st := .waiting, want := {}, slots := none, saveSince := none, stopped := false, migrating := false, stopSince := none, rdzv := [], permitQ := [], request := false, fwd := [], reexec := some core }

/-- An event of the classification of an error (R446, R450). -/
def hwEvent (s : State) (kind core : Nat) (y : Option Gang) : State :=
  addEvent s { time := 0, kind := kind, unit := 0, num := core, ctx := (y.map (·.ctx)).getD 255, launch := (y.map (·.key.launch)).getD 0 }

/-- R446 for one gang that the error touched; `lasting` is what the first two rows say of the core. (DEDUCED, log 89) -/
def answerGang (s : State) (core : Nat) (lasting : Bool) (y : Gang) : State :=
  let mark (s : State) : State := s.setCore { s.core core with transient := true }
  match y.reexec with
  | some c0 =>
    let s := if (s.core c0).fenced then s else hwEvent (fenceCore s c0 [y.key]) 0x31 c0 (some y)
    let s := if core == c0 then s else if lasting then hwEvent (fenceCore s core [y.key]) 0x31 core (some y) else hwEvent (mark s) 0x30 core (some y)
    killGang s y.key 0x31
  | none =>
    let restart := (kernelOfGang s y).restart && !y.fill
    if lasting then
      let s := hwEvent (fenceCore s core [y.key]) 0x31 core (some y)
      if restart then reexecute s y core else killGang s y.key 0x31
    else if restart then reexecute s y core
    else killGang (hwEvent (mark s) 0x30 core (some y)) y.key 0x30

/-- HW_ERROR (R446). It hits no suspended or saved gang (R451). -/
def execHwError (core : Nat) (parity : Bool) (touched : List GangKey) (s : State) : Host.Outcome State Fault Refusal :=
  if core ≥ 128 then event s
  else
    let lasting := parity || (s.core core).transient
    let ys := (touched.filterMap s.gang?).filter fun y => y.st == .resident
    if ys.isEmpty then
      event (if lasting then hwEvent (fenceCore s core []) 0x31 core none else hwEvent (s.setCore { s.core core with transient := true }) 0x30 core none)
    else
      let s := if lasting then fenceCore s core touched else s
      event (ys.foldl (fun s y => answerGang s core lasting y) s)

/-- CORRECTED_ERROR (R443, R449): counted, and nothing else. -/
def execCorrectedError (core : Nat) (s : State) : Host.Outcome State Fault Refusal :=
  if core ≥ 128 then event s else let c := s.core core; event (s.setCore { c with corrected := min 65535 (c.corrected + 1) })

end Sys2Proof.Machine
end

