-- ==== Sys2Proof/Machine/Health.lean ====
section
/-! DEFINITION. The health of the stacked cache: sensors, refresh, allowance, rotation, the lane-group tester, and errors of
the cache die (R452-R463). Temperatures are in sixteenths of a degree. -/

namespace Sys2Proof.Machine

/-! ## Sensors (R452-R454) -/

def State.sensor (s : State) (b : Nat) : Sensor := findD (fun x => x.bank == b) s.sensors { bank := b }
def State.setSensor (s : State) (x : Sensor) : State := { s with sensors := x :: s.sensors.filter fun y => y.bank != x.bank }

/-- R453: a sample between −20 °C and 150 °C. -/
def sampleValid (v : Int) : Bool := decide (-320 ≤ v) && decide (v ≤ 2400)

/-- R452: the banks that share an edge with a bank of its slice. -/
def neighbours (bank : Nat) : List Nat :=
  let b := bank % 16
  let base := bank - b
  let x := b % 4
  let y := b / 4
  ((if x > 0 then [b - 1] else []) ++ (if x < 3 then [b + 1] else []) ++ (if y > 0 then [b - 4] else []) ++ if y < 3 then [b + 4] else []).map (base + ·)

/-- The largest of the valid samples minus the smallest. -/
def span (l : List Int) : Int :=
  match l.filter sampleValid with
  | [] => 0
  | a :: t => t.foldl max a - t.foldl min a

/-- R454: the effective temperature of a bank. -/
def effective (s : State) (bank : Nat) : Int :=
  let x := s.sensor bank
  if x.st == 0 then x.latest
  else match (neighbours bank).filterMap fun n => let y := s.sensor n; if y.st == 0 then some y.latest else none with
    | [] => 2400
    | a :: t => t.foldl max a + 160

def hottest (s : State) (slice : Nat) : Int := (List.range 15).foldl (fun m i => max m (effective s (16 * slice + i + 1))) (effective s (16 * slice))

/-- R454: the state of a sensor after a sample; `t` holds the samples, `s` the states before it. (DEDUCED, log 90) -/
def judge (s t : State) (bank : Nat) : Nat :=
  let x := t.sensor bank
  let full (n : Nat) : Bool := (t.sensor n).samples.length ≥ 4096
  let good := (neighbours bank).filter fun n => (s.sensor n).st == 0
  let stuck := full bank && decide (span x.samples < 4) && !good.isEmpty && good.all fun n => full n && decide (span (t.sensor n).samples > 64)
  if !sampleValid x.latest then 1
  else if x.st == 0 then (if stuck then 2 else 0)
  else if full bank && x.samples.all sampleValid && decide (span x.samples ≥ 4) then 0
  else if stuck then 2 else x.st

/-- Two bytes of a signed temperature. -/
def temp2 (v : Int) : List Byte := leBytes 2 (v % 65536).toNat

/-- R459: the event of a sensor that changed its state. -/
def sensorEvent (s : State) (bank old : Nat) : State :=
  let x := s.sensor bank
  if x.st == old then s
  else
    let detail := match x.st with
      | 1 => temp2 x.latest ++ temp2 (effective s bank)
      | 2 => temp2 (span x.samples) ++ temp2 (effective s bank)
      | _ => temp2 x.latest
    addEvent s { time := 0, kind := match x.st with | 1 => 0x80 | 2 => 0x81 | _ => 0x82, unit := 3, num := bank, detail := detail }

/-! ## Refresh (R455) -/

/-- R455: the multiplier that a bank's sensor calls for. -/
def refreshMult (s : State) (bank : Nat) : Nat :=
  let e := effective s bank
  if (s.sensor bank).st != 0 || decide (e > 1520) then 4 else if decide (e ≥ 1360) then 2 else 1

/-- The refresh interval in sixteenths of a nanosecond. -/
def refreshInterval (mult : Nat) : Nat := 7800 / mult * 16

/-! ## Allowance (R462) -/

def clampInt (lo hi v : Int) : Int := max lo (min hi v)

/-- R462: a core's allowance from its junction temperature and its slice; without a reading of the junction, from the slice
alone. (DEDUCED, log 91) -/
def allowanceNow (s : State) (core : Nat) : Int :=
  let t := 1360 - hottest s (core / 2)
  clampInt (-32768) 32767 (match (s.core core).temp with | some j => min (1760 - j) t | none => t)

/-- R463: a mark is cleared when one of its conditions stops holding: at the latest before time passes on. (DEDUCED, log 94) -/
def clearMarks (s : State) : State := { s with gangs := s.gangs.map fun y => if y.want.rotate && !rotates s y then { y with want := { y.want with rotate := false } } else y }

/-- R462: ALLOWANCE is updated once in 64 µs. -/
def updateAllowance (s : State) : State :=
  if s.tick / 1024000 ≤ s.allowedIn then s
  else { (List.range 128).foldl (fun t k => t.setCore { t.core k with allowance := allowanceNow s k }) s with allowedIn := s.tick / 1024000 }

/-- ALLOWANCE_UPDATE (R462). -/
def execAllowanceUpdate (s : State) : Host.Outcome State Fault Refusal := event (updateAllowance s)

/-! ## Samples (R453-R455) -/

/-- Every sensor takes its sample, its state is judged, and its bank's rate follows. -/
def sampleAll (samples : List Int) (s : State) : State :=
  let banks := List.range 1024
  let t := { s with sensors := banks.map fun b => let x := s.sensor b; let v := samples.getD b x.latest; { x with latest := v, samples := (v :: x.samples).take 4096 } }
  let sts := banks.map fun b => (b, judge s t b)
  let u := { t with sensors := sts.map fun (b, st) => { t.sensor b with st := st } }
  let u := banks.foldl (fun u b => sensorEvent u b (s.sensor b).st) u
  banks.foldl (fun u b => let k := u.bankOf b; let m := refreshMult u b; if k.mult == m then u else u.setBank { k with mult := m }) u

/-- SENSOR_SAMPLE (R453): once in 8 µs, at its beginning, which time does not pass without it; an allowance update of the same instant
comes before it (R462). -/
def execSensorSample (samples : List Int) (s : State) : Host.Outcome State Fault Refusal :=
  if s.tick / 128000 ≤ s.sampledIn then event s else event { sampleAll samples (updateAllowance s) with sampledIn := s.tick / 128000 }

/-- BANK_REFRESH (R455): a bank whose interval has passed. Time does not pass that moment without it. -/
def execBankRefresh (bank : Nat) (s : State) : Host.Outcome State Fault Refusal :=
  let k := s.bankOf bank
  if bank < 1024 && k.last + refreshInterval k.mult ≤ s.tick then event (s.setBank { k with last := s.tick }) else event s

/-! ## Rotation (R463) -/

/-- ROTATION_PASS (R463): once in 1 ms. -/
def execRotationPass (s : State) : Host.Outcome State Fault Refusal :=
  if s.tick / 16000000 ≤ s.rotatedIn then event s else event { s with rotatedIn := s.tick / 16000000, gangs := s.gangs.map fun y => { y with want := { y.want with rotate := rotates s y } } }

/-! ## The lane-group tester (R457, R458) -/

def State.tester (s : State) (k : Nat) : Tester := findD (fun x => x.slice == k) s.testers { slice := k }
def State.setTester (s : State) (x : Tester) : State := { s with testers := x :: s.testers.filter fun y => y.slice != x.slice }

/-- The data group after one, in ascending order, that is not retired. (DEDUCED, log 92) -/
def nextGroup (x : Tester) : Nat :=
  (((List.range 32).map fun i => (x.group + 1 + i) % 32).find? fun g => !x.retired.contains g).getD x.group

/-- A pattern's failure noted (R458): a second one in a row retires the group. (DEDUCED, log 92) -/
def groupFailed (s : State) (x : Tester) : State :=
  let g := x.group
  if x.fails.contains g then
    let y := { x with fails := x.fails.filter (· != g), retired := x.retired ++ [g] }
    if x.spares > 0 then
      addEvent (s.setTester { y with spares := x.spares - 1 }) { time := 0, kind := 0x83, unit := 4, num := 34 * x.slice + g, detail := [BitVec.ofNat 8 (34 - x.spares)] }
    else addEvent (s.setTester { y with degraded := true }) { time := 0, kind := 0x84, unit := 2, num := x.slice }
  else s.setTester { x with fails := x.fails ++ [g], pfail := x.pfail + 1 }

/-- R457: whether the next group may have its turn: each has one in 64 ms, and an abandoned one waits for 1 ms; a pattern under way ends
after 4,096 cache-die clocks. (DEDUCED, log 92) -/
def turnDue (s : State) (x : Tester) : Bool :=
  if x.testing then x.began + 32768 ≤ s.tick else x.round ≤ s.tick / 1024000000 && x.retry ≤ s.tick

/-- The moment by which a slice's next turn comes: 2 ms for each group, in ascending order, of a round of 64 ms; an abandoned group's
retry; the end of a pattern under way. -/
def turnTime (x : Tester) : Nat :=
  if x.testing then x.began + 32768 else if x.retry != 0 then x.retry else 1024000000 * x.round + 32000000 * (x.group + 1)

/-- TESTER_TURN (R457, R458): the turn of the next group. With a free spare the pattern runs to its end; without one the first
turn begins the pattern, which the next turn ends or a demand beat abandons. (DEDUCED, log 92) -/
def execTesterTurn (slice : Nat) (pass : Bool) (s : State) : Host.Outcome State Fault Refusal :=
  let x := s.tester slice
  if slice ≥ 64 || x.retired.length ≥ 32 || !turnDue s x then event s
  else if x.spares == 0 && !x.testing then event (s.setTester { x with testing := true, began := s.tick })
  else
    let x := { x with testing := false, retry := 0 }
    let s := if pass then s.setTester { x with fails := x.fails.filter (· != x.group) } else groupFailed s x
    let y := s.tester slice
    event (s.setTester { y with group := nextGroup y, round := if nextGroup y ≤ y.group then max (y.round + 1) (s.tick / 1024000000) else y.round })

/-- TESTER_ABORT (R457): a demand beat needs the group under test, and no spare carries it. -/
def execTesterAbort (slice : Nat) (s : State) : Host.Outcome State Fault Refusal :=
  let x := s.tester slice
  if x.testing then event (s.setTester { x with testing := false, aborts := x.aborts + 1, retry := s.tick + 16000000 }) else event s

/-! ## What recurs (R407, R453, R455, R457, R462, R463) -/

/-- The next refresh of a bank (R455). -/
def Bank.next (k : Bank) : Nat := k.last + refreshInterval k.mult

/-- The banks whose refresh is due, and the moments of the others' next ones; a bank never refreshed is due after the first interval. -/
def refreshNext (s : State) : Nat × Nat :=
  s.banks.foldl (fun m k => if k.next < m.2 then (k.bank, k.next) else m)
    (match (List.range 1024).find? fun b => !s.banks.any fun k => k.bank == b with | some b => (b, refreshInterval 1) | none => (0, 2 ^ 64))

/-- The slice whose turn comes next, and its moment (R457). -/
def turnNext (s : State) : Nat × Nat :=
  (List.range 64).foldl (fun m k => let x := s.tester k; if x.retired.length < 32 && turnTime x < m.2 then (k, turnTime x) else m) (0, 2 ^ 64)

/-- What recurs at fixed times of device time, each with its next moment: the allowance update before the samples of the same instant
(R462). -/
def recurring (s : State) : List (Nat × Recur) :=
  let (bank, refresh) := refreshNext s
  let (slice, turn) := turnNext s
  [(1024000 * (s.allowedIn + 1), .allowance), (128000 * (s.sampledIn + 1), .sample), (16000000 * (s.rotatedIn + 1), .rotation),
    (refresh, .refresh bank), (turn, .turn slice)] ++ match s.overSince with
      | some t => [(t + 160000000, .overpower)]
      | none => []

/-- The ticks that may pass before something that recurs is due, or a refresh ends that a result waits behind. -/
def ticksTo (s : State) (ticks : Nat) : Nat :=
  let ends := (s.pend.map (·.behind)).filter fun t => decide (s.tick < t)
  ((recurring s).map (·.1) ++ ends).foldl (fun m t => min m (t - s.tick)) ticks

/-! ## Uncorrectable errors of the cache die (R461) -/

/-- A context-store slot lost: the gang saved there ends, and the slot is withheld until reset. -/
def loseSlot (s : State) (slot : Nat) : State :=
  let s := match s.slotRuns.find? fun r => r.state != 0xFF && r.first ≤ slot && slot < r.first + r.len with
    | some r => killGang s r.gang 0x30
    | none => s
  if s.slotRuns.any fun r => r.state == 0xFF && r.first == slot then s
  else { s with slotRuns := s.slotRuns ++ [{ first := slot, len := 1, state := 0xFF, ctx := 255, gang := { launch := 0, idx := 0 }, saved := s.tick / 16, swid := 0xFFFFFFFF }] }

/-- DIE_UNCORRECTABLE (R461); role 4 + w is the table's role 1 for a line of pool w. (DEDUCED, log 93) -/
def execDieUncorrectable (slice : Nat) (addr : BitVec 64) (role : Nat) (s : State) : Host.Outcome State Fault Refusal :=
  let row := if role < 4 then role else 1
  if slice ≥ 64 || role ≥ 4 + 16 then event s
  else
    let a := addr.toNat / 128 * 128
    let x := s.tester slice
    let s := addEvent (s.setTester { x with uncorr := x.uncorr + 1 }) { time := 0, kind := 0x85, unit := 2, num := slice, detail := leBytes 8 a ++ [BitVec.ofNat 8 row] }
    match row with
    | 0 => event s
    | 1 => event (addPoison s (if role < 4 then .loc else .pool (role - 4)) a 128)
    | 2 => event (((s.rkLines.filter fun r => r.line == a / 128 && rkSlice r.asn a == slice).map (·.asn)).foldl (fun s asn => dropLines s asn fun l => l == a / 128) s)
    | _ => event (loseSlot s (addr.toNat / 2 ^ 20))

end Sys2Proof.Machine
end

