-- ==== Sys2Proof/Machine/Trails.lean ====
section
/-! DEFINITION. The wake trail: opening, stamping and closing trails, and their ring in host memory (R424-R427). -/

namespace Sys2Proof.Machine

/-- R425, R427: the trail is on: a ring base, a ring size within its limits, and feature bit 10. -/
def trailOn (s : State) : Bool := s.feature 10 && s.regs.wtring != 0 && 4 ≤ s.regs.wtlog && s.regs.wtlog ≤ 12

def State.trail? (s : State) (tag : BitVec 32) : Option Trail := s.trails.find? fun t => t.tag == tag

/-- R424: the 128 bytes of a trail's record. A stamp that never happened reads zero, and counts as zero in the latency. (DEDUCED, log 99) -/
def trailRecord (t : Trail) (flags : Nat) (tpix : Option Nat) : List Byte :=
  let mark (m : Nat) : List Byte := leBytes 8 (((t.marks.find? fun y => y.1 == m).map (·.2)).getD 0)
  leBytes 4 t.tag.toNat ++ [BitVec.ofNat 8 flags, BitVec.ofNat 8 t.out, 0, 0] ++ leBytes 8 t.t1
    ++ mark 1 ++ mark 2 ++ mark 3 ++ mark 4 ++ leBytes 8 t.tflip ++ leBytes 8 (tpix.getD 0) ++ leBytes 8 t.t0
    ++ leBytes 8 (BitVec.ofNat 64 (tpix.getD 0) - BitVec.ofNat 64 t.t0 : Dword).toNat ++ List.replicate 48 0

/-- R425: a trail closes: its record is written at WTWIDX, or counted in WTLOST where the ring is full. -/
def closeTrail (s : State) (t : Trail) (flags : Nat) (tpix : Option Nat) : State :=
  let s := { s with trails := s.trails.filter fun u => u.tag != t.tag }
  let size := 2 ^ s.regs.wtlog
  if s.regs.wtwidx - s.regs.wtridx < size then
    let s := storeDevice s .host (s.regs.wtring + 128 * (s.regs.wtwidx % size)) (trailRecord t flags tpix)
    { s with regs := { s.regs with wtwidx := s.regs.wtwidx + 1 } }
  else { s with regs := { s.regs with wtlost := s.regs.wtlost + 1 } }

/-- A trail with a tag opened at T0; one open under the tag closes with REOPEN, and the oldest of 64 with DROPPED (R424,
R427). -/
def openTrail (s : State) (tag : BitVec 32) (t0 : Nat) : State :=
  let s := match s.trail? tag with
    | some t => closeTrail s t 4 none
    | none => s
  let s := match s.trails with
    | t :: _ => if s.trails.length ≥ 64 then closeTrail s t 2 none else s
    | [] => s
  { s with trails := s.trails ++ [{ tag := tag, t0 := t0, t1 := s.tick / 16, opened := s.tick }] }

/-- WAKEOPEN (R424): the tag, then T0, which opens the trail. -/
def execWakeopen (high : Bool) (val : BitVec 64) (s : State) : Host.Outcome State Fault Refusal :=
  let s := barWrite s
  if !trailOn s then event s
  else if high then event (openTrail s (((s.regs.wakeTag).getD 0).setWidth 32) val.toNat)
  else event { s with regs := { s.regs with wakeTag := some (val &&& 0xFFFFFFFF) } }

/-- TRAIL_TIMEOUT (R427): a second of device time without TPIX. -/
def execTrailTimeout (tag : BitVec 32) (s : State) : Host.Outcome State Fault Refusal :=
  match s.trail? tag with
  | some t => if t.opened + 16000000000 ≤ s.tick then event (closeTrail s t 1 none) else event s
  | none => event s

/-- WTRING_WRITE (R425): WTRING or WTLOG; open trails close without a record and the indices become zero. -/
def execWtringWrite (log : Bool) (val : BitVec 64) (s : State) : Host.Outcome State Fault Refusal :=
  let s := barWrite s
  if !s.feature 10 then event s
  else
    let regs := { s.regs with wtwidx := 0, wtridx := 0, wtlost := 0 }
    let regs := if log then { regs with wtlog := val.toNat % 16 } else { regs with wtring := val.toNat / 128 * 128 }
    event { s with trails := [], regs := regs }

/-- WTRIDX_WRITE (R425): records consumed, between WTRIDX and WTWIDX. -/
def execWtridxWrite (val : BitVec 64) (s : State) : Host.Outcome State Fault Refusal :=
  let s := barWrite s
  if !s.feature 10 || val.toNat < s.regs.wtridx || val.toNat > s.regs.wtwidx then event s
  else event { s with regs := { s.regs with wtridx := val.toNat } }

end Sys2Proof.Machine
end

