-- ==== Sys2Proof/Machine/Display.lean ====
section
/-! DEFINITION. Display outputs: link training, AUX transactions, flips and scan-out (R421-R426). -/

namespace Sys2Proof.Machine

def State.disp (s : State) (o : Nat) : Disp := findD (fun d => d.out == o) s.disps { out := o }
def State.setDisp (s : State) (d : Disp) : State := { s with disps := updWhere (fun e => e.out == d.out) (fun _ => d) s.disps }

/-! ## The fields of the registers (R421) -/

def Disp.en (d : Disp) : Bool := d.dpctl.getLsbD 0
def Disp.hactive (d : Disp) : Nat := bitsOf d.htiming.toNat 15 0
def Disp.vactive (d : Disp) : Nat := bitsOf d.vtiming.toNat 15 0
/-- Bytes per pixel and bits per component of the pixel format. -/
def Disp.pixel (d : Disp) : Option (Nat × Nat) :=
  match d.format.toNat % 16 with | 0 => some (4, 8) | 1 => some (4, 10) | 2 => some (8, 16) | _ => none

/-- HTIMING or VTIMING (R422): active and total agree, and the sync lies in the blanking interval. -/
def timingOk (t : Dword) : Bool :=
  let v := t.toNat
  let act := bitsOf v 15 0
  let tot := bitsOf v 31 16
  act != 0 && act < tot && bitsOf v 47 32 + bitsOf v 63 48 ≤ tot - act

/-- The checks of R422 that need no trained link. -/
def Disp.acceptable (d : Disp) (dpctl : Dword) : Bool :=
  timingOk d.htiming && timingOk d.vtiming && 25000 ≤ d.pclk.toNat && d.pclk.toNat ≤ 3000000
    && (match d.pixel with | some (b, _) => d.hactive * b ≤ d.stride.toNat | none => false)
    && bitsOf d.format.toNat 7 4 ≤ 1 && bitsOf dpctl.toNat 6 4 != 7 && bitsOf dpctl.toNat 9 8 != 3

/-- A lane's symbol rate in Mb/s, by RATE. (PRESUMED, log 102) -/
def laneRate (r : Nat) : Nat := [1620, 2700, 5400, 8100, 10000, 13500, 20000].getD r 0

/-- R422: the payload of a trained link in kb/s: 8b/10b coding up to HBR3, 128b/132b from UHBR10. -/
def linkPayload (rate lanes : Nat) : Nat :=
  let raw := laneRate rate * 1000 * 2 ^ lanes
  if rate < 4 then raw * 8 / 10 else raw * 128 / 132

/-- What the format needs at the pixel clock, in kb/s: three components. -/
def Disp.needs (d : Disp) : Nat := d.pclk.toNat * (3 * ((d.pixel.map (·.2)).getD 0))

/-- The bits of DPCTL that are not reserved. -/
def dpctlMask : Dword := 0x3371

/-! ## Enabling and training (R422) -/

/-- DPCTL_ENABLE (R421, R422): a write of DPCTL. Setting EN starts training, or is refused; clearing it stops the output. (DESIGN CHOICE, log 101) -/
def execDpctlEnable (out : Nat) (val : BitVec 64) (s : State) : Host.Outcome State Fault Refusal :=
  let s := barWrite s
  let d := s.disp out
  let v := val &&& dpctlMask
  if out ≥ 4 then event s
  else if !v.getLsbD 0 then event (s.setDisp { d with dpctl := v, training := false, trained := false, trRate := 0, trLanes := 0 })
  else if !d.acceptable v then event (s.setDisp { d with dpctl := v &&& ~~~1, error := true, training := false, trained := false, trRate := 0, trLanes := 0 })
  else event (s.setDisp { d with dpctl := v, error := false, training := true, trained := false, trRate := 0, trLanes := 0, frames := 0 })

/-- LINK_TRAINING_DONE (R422): training ends at a rate and a number of lanes within those asked for; a link that cannot carry
the format refuses the enable. -/
def execLinkTrainingDone (out rate lanes : Nat) (ok : Bool) (s : State) : Host.Outcome State Fault Refusal :=
  let d := s.disp out
  if out ≥ 4 || !d.training || !d.hpd then event s
  else if !ok then event (s.setDisp { d with training := false })
  else if rate > bitsOf d.dpctl.toNat 6 4 || lanes > bitsOf d.dpctl.toNat 9 8 then event s
  else if d.needs > linkPayload rate lanes then event (s.setDisp { d with dpctl := d.dpctl &&& ~~~1, error := true, training := false })
  else event (s.setDisp { d with training := false, trained := true, trRate := rate, trLanes := lanes })

/-- HPD_ASSERT (R421). -/
def execHpdAssert (out : Nat) (s : State) : Host.Outcome State Fault Refusal :=
  event (s.setDisp { s.disp out with hpd := true })

/-- HPD_LOSS (R422): scan-out stops until EN is written again. -/
def execHpdLoss (out : Nat) (s : State) : Host.Outcome State Fault Refusal :=
  event (s.setDisp { s.disp out with hpd := false, trained := false, training := false, trRate := 0, trLanes := 0 })

/-! ## AUX transactions (R421, R422) -/

/-- A write of AUXCMD with a request code; ignored while BUSY is set. (DEDUCED, log 104) -/
def auxStart (s : State) (out code : Nat) (val : Dword) : State :=
  let s := barWrite s
  let d := s.disp out
  if out ≥ 4 || d.auxBusy.isSome || bitsOf val.toNat 23 20 != code then s
  else s.setDisp { d with auxBusy := some (code, bitsOf val.toNat 19 0, bitsOf val.toNat 27 24 + 1), auxstat := d.auxstat ||| 1 }

/-- AUX_NATIVE_WRITE (R421). -/
def execAuxNativeWrite (out : Nat) (val : BitVec 64) (s : State) : Host.Outcome State Fault Refusal := event (auxStart s out 8 val)
/-- AUX_NATIVE_READ (R421). -/
def execAuxNativeRead (out : Nat) (val : BitVec 64) (s : State) : Host.Outcome State Fault Refusal := event (auxStart s out 9 val)
/-- AUX_I2C_WRITE (R421). -/
def execAuxI2cWrite (out : Nat) (val : BitVec 64) (s : State) : Host.Outcome State Fault Refusal := event (auxStart s out 0 val)
/-- AUX_I2C_READ (R421). -/
def execAuxI2cRead (out : Nat) (val : BitVec 64) (s : State) : Host.Outcome State Fault Refusal := event (auxStart s out 1 val)
/-- AUX_I2C_WRITE_MOT (R421). -/
def execAuxI2cWriteMot (out : Nat) (val : BitVec 64) (s : State) : Host.Outcome State Fault Refusal := event (auxStart s out 4 val)
/-- AUX_I2C_READ_MOT (R421). -/
def execAuxI2cReadMot (out : Nat) (val : BitVec 64) (s : State) : Host.Outcome State Fault Refusal := event (auxStart s out 5 val)

/-- A request that reads. -/
def auxReads (code : Nat) : Bool := code % 2 == 1

/-- The two AUXDATA registers with the first bytes replaced. -/
def auxFill (old : List Dword) (bs : List Byte) : List Dword :=
  let all := bs ++ ((leBytes 8 (old.getD 0 0).toNat ++ leBytes 8 (old.getD 1 0).toNat).drop bs.length)
  [BitVec.ofNat 64 (leField all 0 8), BitVec.ofNat 64 (leField all 8 8)]

/-- AUX_REPLY (R421): the transaction under way completes; a read that is acknowledged returns its bytes. -/
def execAuxReply (out reply : Nat) (data : List (BitVec 8)) (s : State) : Host.Outcome State Fault Refusal :=
  let d := s.disp out
  match d.auxBusy with
  | none => event s
  | some (code, _, len) =>
    if out ≥ 4 || reply ≥ 4 then event s
    else
      let bs := if auxReads code && reply == 0 then data.take len else []
      event (s.setDisp { d with auxBusy := none, auxdata := auxFill d.auxdata bs, auxstat := BitVec.ofNat 64 (2 * reply + 256 * bs.length) })

/-! ## Flips and scan-out (R423-R426) -/

/-- A tag's stamp follows its latest flip (R427): earlier flips of the tag no longer stamp TPIX. -/
def Disp.forget (tag : BitVec 32) (d : Disp) : Disp :=
  { d with scanTag := if d.scanTag == some tag then none else d.scanTag,
           pending := d.pending.map fun (a, t) => (a, if t == some tag then none else t) }

/-- FLIP (R426): refused where the buffer does not lie within the installed GDDR7 (R423). (DEDUCED, log 100) -/
def execFlip (val : BitVec 64) (s : State) : Host.Outcome State Fault Refusal :=
  let s := barWrite s
  let o := bitsOf val.toNat 33 32
  let tag : BitVec 32 := val.setWidth 32
  let base := bitsOf val.toNat 63 34 * 16384
  let d := s.disp o
  if base + d.vactive * d.stride.toNat > s.regs.gddr then event (s.setDisp { d with error := true })
  else
    let s := { s with disps := s.disps.map (Disp.forget tag) }
    let s := s.setDisp { s.disp o with error := false, pending := some (BitVec.ofNat 64 base, some tag) }
    event { s with trails := updWhere (fun (t : Trail) => t.tag == tag) (fun t => { t with out := o, flipped := true, tflip := if t.flipped then t.tflip else s.tick / 16 }) s.trails }

/-- Whether an output scans (R422, R423). -/
def Disp.scans (d : Disp) : Bool := d.en && d.trained

/-- FRAME_BOUNDARY (R423): vertical blanking begins; the latest accepted flip governs the next frame. -/
def execFrameBoundary (out : Nat) (s : State) : Host.Outcome State Fault Refusal :=
  let d := s.disp out
  if out ≥ 4 || !d.scans then event s
  else
    let d := { d with frames := (d.frames + 1) % 2 ^ 32 }
    event (s.setDisp (match d.pending with
      | some (a, t) => { d with scanbase := a, scanTag := t, pending := none, shown := true }
      | none => d))

/-- FIRST_PIXEL (R424): the first pixel of the first frame that reads a flipped buffer; the trail with its tag closes. -/
def execFirstPixel (out : Nat) (s : State) : Host.Outcome State Fault Refusal :=
  let d := s.disp out
  match d.scanTag with
  | none => event s
  | some tag =>
    if out ≥ 4 || !d.scans then event s
    else
      let s := s.setDisp { d with scanTag := none }
      match s.trail? tag with
      | some t => event (closeTrail s t 0 (some (s.tick / 16)))
      | none => event s

/-- R423: the component values (R, G, B) that an output sends for a pixel of the buffer it scans, at its component depth; none
before the first flip, where it shows black. Float components are clamped and rounded to nearest-even. (DEDUCED, log 103) -/
def scanPixel (s : State) (out x y : Nat) : Option (List Nat) :=
  let d := s.disp out
  match d.pixel with
  | none => none
  | some (b, depth) =>
    if !d.shown then some [0, 0, 0]
    else
      let v := leNat (s.readHome .loc (d.scanbase.toNat + y * d.stride.toNat + x * b) b)
      some ((List.range 3).map fun i =>
        if depth == 8 then v / 2 ^ (8 * i) % 256
        else if depth == 10 then v / 2 ^ (10 * i) % 1024
        else match fmtF16.value (v / 2 ^ (16 * i) % 65536) with
          | .inf n => if n then 0 else 65535
          | .fin q => if q.isNeg then 0 else if (Q.ofInt 1).le q then 65535 else roundNat (q.num.natAbs * 65535) q.den false 0
          | .nan _ => Config.freeNat (s.fresh + 3 * (x + y * 65536) + i) % 65536
          | .zero _ => 0)

end Sys2Proof.Machine
end

