-- ==== Sys2Proof/Machine/Ports.lean ====
section
/-! DEFINITION. The Ethernet ports: rings, gates, received frames and the time base (R413-R416). Frame formats are those of
the standards that the rules name. -/

namespace Sys2Proof.Machine

def State.port (s : State) (p : Nat) : Port := findD (fun x => x.port == p) s.ports { port := p }
def State.setPort (s : State) (x : Port) : State := { s with ports := updWhere (fun y => y.port == x.port) (fun _ => x) s.ports }

def Port.en (x : Port) : Bool := x.pctl.getLsbD 0

/-! ## Bytes of frames -/

/-- A big-endian field of a frame; absent bytes are 0. -/
def beField (b : List Byte) (off len : Nat) : Nat := leNat (((b.drop off).take len).reverse)

/-- A number as big-endian bytes. -/
def beBytes (n v : Nat) : List Byte := (leBytes n v).reverse

/-- The frame check sequence: CRC-32 of IEEE 802.3. -/
def crcBit (c : Word) : Word := if c.getLsbD 0 then (c >>> 1) ^^^ 0xEDB88320 else c >>> 1
def crc32 (b : List Byte) : Word :=
  ~~~ b.foldl (fun c x => (List.range 8).foldl (fun c _ => crcBit c) (c ^^^ x.setWidth 32)) 0xFFFFFFFF

/-- R416: a frame as it leaves: padded to 60 bytes, with its FCS. -/
def wireFrame (b : List Byte) : List Byte :=
  let p := b ++ List.replicate (60 - b.length) 0
  p ++ leBytes 4 (crc32 p).toNat

/-- The 16-bit one's complement sum of the internet protocols. -/
def inetSum (b : List Byte) : Nat :=
  let t := (List.range ((b.length + 1) / 2)).foldl (fun t i => t + beField (b ++ [0]) (2 * i) 2) 0
  let t := t % 65536 + t / 65536
  65535 - (t % 65536 + t / 65536)

/-- The time a frame takes on a 200 Gb/s link with its preamble, in sixteenths of a nanosecond. (PRESUMED, log 106) -/
def wireTime (len : Nat) : Nat := ((max 60 len + 12) * 16 + 24) / 25

/-! ## The time base (R413, R414) -/

/-- A signed number saturated to a range. -/
def satInt (lo hi v : Int) : Int := max lo (min hi v)

/-- R413: an offset measured on a port. Before any context has been created, the first lock may step device time forward; all
other correction is by slewing within 200 ppm. (DEDUCED, log 107) -/
def measured (s : State) (p : Nat) (offset : Int) : State :=
  let near := decide (offset.natAbs ≤ Config.lockWindow)
  let may := !s.regs.stepped && !s.regs.ctxEver && decide (offset < 0) && Config.freeNat s.fresh % 2 == 1
  let rate : Int := (Config.freeNat (s.fresh + 1) % 40001 : Nat) - 20000
  let regs := { s.regs with syncOffset := satInt (-(2 ^ 31)) (2 ^ 31 - 1) offset, syncRate := rate, syncPort := p, syncState := if near || may then 2 else 1,
                            stepped := s.regs.stepped || near || may }
  { s with regs := regs, fresh := s.fresh + 2, tick := if may then s.tick + offset.natAbs * 16 else s.tick }

/-- A port's own frame joins those that wait to leave (R416). -/
def sendOwn (s : State) (p : Nat) (f : List Byte) : State :=
  { s with ports := updWhere (fun (y : Port) => y.port == p) (fun y => { y with own := y.own ++ [(y.txtail, f)] }) s.ports }

/-- R413: no grandmaster is found: holdover after a lock, else free-running. -/
def loseMaster (s : State) : State :=
  { s with regs := { s.regs with syncPort := 3, syncState := if s.regs.syncState == 2 || s.regs.syncState == 3 then 3 else 0,
                                 syncRate := if s.regs.syncState == 2 || s.regs.syncState == 3 then s.regs.syncRate else 0 } }

/-- The port whose announced grandmaster is the best, the lower port of two equal ones. (PRESUMED, log 158) -/
def bestMaster (s : State) : Option Nat :=
  match (s.port 0).master, (s.port 1).master with
  | some a, some b => some (if a ≤ b then 0 else 1)
  | some _, none => some 0
  | none, some _ => some 1
  | none, none => none

/-- R413: the grandmaster is that of one port of the one domain: a change of port begins a new lock. (PRESUMED, log 158) -/
def selectMaster (s : State) : State :=
  match bestMaster s with
  | none => if s.regs.syncPort == 3 then s else loseMaster s
  | some p => if s.regs.syncPort == p then s else { s with regs := { s.regs with syncPort := p, syncState := 1 } }

/-- A port has no grandmaster any more. -/
def dropMaster (s : State) (p : Nat) : State := selectMaster (s.setPort { s.port p with master := none, syncAt := none })

/-- A gPTP PDU (R413, R416) of the one domain, number 0: Announce names a grandmaster, Sync and Follow_Up of the grandmaster's port measure the
offset, and a peer-delay response makes the port asCapable; what the endpoint sends in answer is the implementation's. (PRESUMED, log 158) -/
def gptpPdu (s : State) (p : Nat) (b : List Byte) : State :=
  let kind := beField b 14 1 % 16
  let seqn := beField b 44 2
  let x := s.port p
  let s := (Config.endpointFrames p b s.tick).foldl (fun s f => sendOwn s p f) s
  let mine := s.regs.syncPort == p
  if beField b 18 1 != 0 then s
  else if kind == 11 then selectMaster (s.setPort { s.port p with master := some (beField b 61 16 * 2 ^ 80 + beField b 34 10) })
  else if kind == 0 && mine then s.setPort { s.port p with syncAt := some (seqn, s.tick / 16) }
  else if kind == 8 && mine then
    match x.syncAt with
    | some (q, t) =>
      if q == seqn then
        let corr := (BitVec.ofNat 64 (beField b 22 8)).toInt / 65536
        measured s p ((t : Int) - ((beField b 48 6 * 1000000000 + beField b 54 4 + Config.linkDelay p : Nat) + corr))
      else s
    | none => s
  else if kind == 3 || kind == 10 then s.setPort { s.port p with ascap := true }
  else s

/-- GRANDMASTER_TIMEOUT (R413, R414): the grandmaster's port hears it no more. -/
def execGrandmasterTimeout (s : State) : Host.Outcome State Fault Refusal :=
  if s.regs.syncPort == 3 then event s else event (dropMaster s s.regs.syncPort)

/-- SYNCSTAT (R413). (DEDUCED, log 109) -/
def syncstat (s : State) : Dword :=
  let r := s.regs
  (BitVec.ofInt 32 r.syncOffset) ++ (BitVec.ofInt 16 r.syncRate) ++ BitVec.ofNat 16 (r.syncPort * 4 + r.syncState)

/-! ## Gates (R415) -/

/-- The gate states of an entry; an operation other than SetGateStates leaves them. -/
def gatesOf (old : Nat) (e : Dword) : Nat := if bitsOf e.toNat 15 8 == 0 then bitsOf e.toNat 7 0 else old

def intervalOf (e : Dword) : Nat := bitsOf e.toNat 63 32 * 16

def Port.operEntry (x : Port) (i : Nat) : Dword := mget 0 x.operList i

/-- The end of entry i of a list that starts at a time: its interval, or the cycle's end for the last one. -/
def listStop (e : Nat → Dword) (len i start cycleEnd : Nat) : Nat :=
  if i + 1 ≥ len then cycleEnd else min cycleEnd (start + intervalOf (e i))

/-- The end of an operational entry that starts at a time. -/
def Port.entryStop (x : Port) (i start cycleEnd : Nat) : Nat := listStop x.operEntry x.operLen i start cycleEnd

/-- Entry i of the operational list comes into force. -/
def Port.enter (x : Port) (i start : Nat) : Port :=
  { x with operIdx := i, operStates := gatesOf x.operStates (x.operEntry i), entryEnd := x.entryStop i start (x.cycleStart + x.operCycle) }

/-- Whether a gate list runs. -/
def Port.gating (x : Port) : Bool := x.gateEnabled && x.operLen != 0 && x.operCycle != 0

/-- Whether class k's gate is open (R415). -/
def Port.isOpen (x : Port) (k : Nat) : Bool := !x.gateEnabled || bitOf x.operStates k

/-- Whether class k's gate, open, stays open until a time under a list, from the end of entry i on. -/
def staysOpen (e : Nat → Dword) (len cycle k until_ : Nat) : Nat → Nat → Nat → Nat → Bool
  | 0, _, _, _ => false
  | fuel + 1, i, stop, cycleEnd =>
    if stop ≥ until_ then true
    else
      let (j, ce) := if stop ≥ cycleEnd then (0, cycleEnd + cycle) else (i + 1, cycleEnd)
      bitOf (gatesOf 255 (e j)) k && staysOpen e len cycle k until_ fuel j (listStop e len j stop ce) ce

/-- Whether class k's gate stays open until a time under the operational list in force. -/
def Port.operOpen (x : Port) (k until_ : Nat) : Bool :=
  x.isOpen k && (!x.gating || staysOpen x.operEntry x.operLen x.operCycle k until_ (2 ^ 20) x.operIdx x.entryEnd (x.cycleStart + x.operCycle))

/-- Whether class k's gate, open before, is open from the time at which the admin list comes into force until a time. -/
def Port.adminOpen (x : Port) (k from_ until_ : Nat) : Bool :=
  let e (i : Nat) : Dword := mget 0 x.adminList i
  let len := x.adminLen.toNat
  let cycle := x.adminCycle.toNat * 16
  bitOf (gatesOf 255 (e 0)) k && staysOpen e len cycle k until_ (2 ^ 20) 0 (listStop e len 0 from_ (from_ + cycle)) (from_ + cycle)

/-- R415: a frame starts only if it ends before its class's gate closes, also under a list that comes into force before its end. -/
def Port.maySend (x : Port) (k now len : Nat) : Bool :=
  let until_ := now + wireTime len
  match (if x.gateEnabled then x.cfgPending else none) with
  | some t => x.operOpen k (min t until_) && (t ≥ until_ || x.adminOpen k t until_)
  | none => x.operOpen k until_

/-- R415: CONFIGCHANGE: the admin list is pending until the first cycle start at or after AdminBaseTime. (PRESUMED, log 108) -/
def gateConfig (s : State) (p : Nat) : State :=
  let x := s.port p
  let base := x.adminBase.toNat * 16
  let cycle := x.adminCycle.toNat * 16
  if cycle == 0 || x.adminLen.toNat > 256 || x.adminLen.toNat == 0 then s.setPort { x with cfgErr := (x.cfgErr + 1) % 2 ^ 32 }
  else if base ≥ s.tick then s.setPort { x with cfgPending := some base }
  else s.setPort { x with cfgPending := some (base + (s.tick - base + cycle - 1) / cycle * cycle), cfgErr := if x.gating then (x.cfgErr + 1) % 2 ^ 32 else x.cfgErr }

/-- GATE_CONFIG_CHANGE (R415). -/
def execGateConfigChange (port : Nat) (s : State) : Host.Outcome State Fault Refusal :=
  let s := barWrite s
  event (if s.feature 11 then gateConfig s port else s)

/-- A pending admin list becomes the operational one. -/
def Port.install (x : Port) (t : Nat) : Port :=
  let x := { x with cfgPending := none, operLen := x.adminLen.toNat, operBase := BitVec.ofNat 64 (t / 16), operCycle := x.adminCycle.toNat * 16, operExt := x.adminExt.toNat * 16,
                    operList := x.adminList.filter fun e => e.1 < x.adminLen.toNat, cycleStart := t }
  x.enter 0 t

/-- GATE_CYCLE_START (R415): a pending list at its time, else the next cycle; a cycle shorter than the extension before a
pending list is not begun. -/
def execGateCycleStart (port : Nat) (s : State) : Host.Outcome State Fault Refusal :=
  let x := s.port port
  let next := x.cycleStart + x.operCycle
  if !x.gateEnabled then event s
  else match x.cfgPending with
    | some t =>
      if t ≤ s.tick then event (s.setPort (x.install t))
      else if x.gating && next ≤ s.tick && t > next + x.operExt then event (s.setPort ({ x with cycleStart := next }.enter 0 next))
      else event s
    | none => if x.gating && next ≤ s.tick then event (s.setPort ({ x with cycleStart := next }.enter 0 next)) else event s

/-- GATE_INTERVAL_EXPIRE (R415). -/
def execGateIntervalExpire (port : Nat) (s : State) : Host.Outcome State Fault Refusal :=
  let x := s.port port
  if x.gating && x.operIdx + 1 < x.operLen && x.entryEnd ≤ s.tick && x.entryEnd < x.cycleStart + x.operCycle then event (s.setPort (x.enter (x.operIdx + 1) x.entryEnd))
  else event s

/-! ## Transmission (R416) -/

def ringOk (log : Nat) : Bool := 4 ≤ log && log ≤ 14

def Port.txDesc (x : Port) (k : Nat) : Nat := x.txbase.toNat + 32 * (k % 2 ^ x.txlog.toNat)
def Port.rxDesc (x : Port) (k : Nat) : Nat := x.rxbase.toNat + 32 * (k % 2 ^ x.rxlog.toNat)

/-- A transmit descriptor outside its limits. -/
def txRefused (d : List Byte) : Bool :=
  leField d 8 2 < 14 || leField d 8 2 > 9216 || leField d 10 1 > 1 || leField d 11 5 != 0 || leField d 25 7 != 0

/-- The posted descriptors that are not complete. -/
def Port.posted (x : Port) : List Nat :=
  if ringOk x.txlog.toNat then ((List.range (min (x.txtail - x.txhead) (2 ^ x.txlog.toNat))).map (x.txhead + ·)).filter fun k => !x.sent.contains k else []

/-- TXHEAD past every descriptor that is complete with all before it. -/
def advanceHead : Nat → Nat → List Nat → Nat
  | 0, h, _ => h
  | n + 1, h, l => if l.contains h then advanceHead n (h + 1) l else h

/-- A descriptor complete with its code. -/
def completeTx (s : State) (p k code : Nat) (time : Option Nat) : State :=
  let x := s.port p
  let s := match time with
    | some t => storeDevice s .host (x.txDesc k + 16) (leBytes 8 t)
    | none => s
  let s := storeDevice s .host (x.txDesc k + 24) [BitVec.ofNat 8 code]
  let h := advanceHead (x.sent.length + 1) x.txhead (k :: x.sent)
  s.setPort { s.port p with sent := (k :: x.sent).filter (· ≥ h), txhead := h }

/-- The priority of a frame: its VLAN tag's, or 0. -/
def vlanPrio (b : List Byte) : Nat := if beField b 12 2 == 0x8100 then beField b 14 1 / 32 else 0

/-- The traffic class of a priority (TCMAP). -/
def Port.classOf (x : Port) (prio : Nat) : Nat := bitsOf x.tcmap.toNat (3 * prio + 2) (3 * prio)

/-- The frame of a descriptor. -/
def txFrame (s : State) (d : List Byte) : List Byte := s.readHome .host (leField d 0 8) (leField d 8 2)

/-- What a port may send next: the frame of a posted descriptor, or one of its own. -/
inductive Tx where
  | posted (k : Nat) (d f : List Byte)
  | own (f : List Byte)
  deriving DecidableEq, Repr

def Tx.frame : Tx → List Byte
  | .posted _ _ f | .own f => f

/-- The oldest frame of a class: of those that system software has posted, in order, and the port's own, which are of the class of
priority 0 and stand before what was posted after them (R415, R416). -/
def oldestTx (s : State) (x : Port) (c : Nat) : Option Tx :=
  let post := (x.posted.map fun k => let d := s.readHome .host (x.txDesc k) 32; (k, d, txFrame s d)).find? fun (_, _, f) => x.classOf (vlanPrio f) == c
  let own := if x.classOf 0 == c then x.own.head? else none
  match post, own with
  | some (k, d, f), some (at_, g) => some (if k < at_ then .posted k d f else .own g)
  | some (k, d, f), none => some (.posted k d f)
  | none, some (_, g) => some (.own g)
  | none, none => none

/-- The frame that a port sends next: of the open gates the highest class that has one, and its oldest frame. -/
def nextTx (s : State) (x : Port) : Option Tx :=
  (List.range 8).reverse.findSome? fun c =>
    match oldestTx s x c with
    | some y => if x.maySend c s.tick y.frame.length then some y else none
    | none => none

/-- FRAME_TRANSMIT (R416): a refused descriptor is completed, or the next frame leaves. -/
def execFrameTransmit (port : Nat) (s : State) : Host.Outcome State Fault Refusal :=
  let x := s.port port
  if !s.feature 11 || !x.en || !x.link then event s
  else match x.posted.find? fun k => txRefused (s.readHome .host (x.txDesc k) 32) with
    | some k => event (completeTx s port k 1 none)
    | none =>
      if x.busyUntil > s.tick then event s
      else match nextTx s x with
        | some y =>
          let x' := { x with busyUntil := s.tick + wireTime y.frame.length, out := x.out ++ [(s.tick / 16, wireFrame y.frame)] }
          match y with
          | .posted k d _ => event (completeTx (s.setPort x') port k 0 (if leField d 10 1 == 1 then some (s.tick / 16) else none))
          | .own _ => event (s.setPort { x' with own := x.own.drop 1 })
        | none => event s

/-- PORT_LINK_DOWN (R416): posted frames are dropped, and so are the port's own. -/
def execPortLinkDown (port : Nat) (s : State) : Host.Outcome State Fault Refusal :=
  let x := s.port port
  let s := s.setPort { x with link := false, ascap := false, busyUntil := 0, own := [], tcpBuf := [] }
  event (x.posted.foldl (fun s k => completeTx s port k 2 none) (dropMaster s port))

/-- PORT_LINK_UP (R415). -/
def execPortLinkUp (port : Nat) (s : State) : Host.Outcome State Fault Refusal := event (s.setPort { s.port port with link := true })

/-! ## Reception (R416) -/

def Port.ipv6 (x : Port) : Nat := x.ipv6hi.toNat * 2 ^ 64 + x.ipv6lo.toNat

/-- An ARP request for the port's IPv4 address. -/
def Port.isArp (x : Port) (b : List Byte) : Bool :=
  x.ipv4 != 0 && beField b 12 2 == 0x0806 && beField b 14 8 == 0x0001080006040001 && beField b 38 4 == x.ipv4.toNat % 2 ^ 32 && b.length ≥ 42

def Port.arpAnswer (x : Port) (b : List Byte) : List Byte :=
  let who := (b.drop 22).take 6
  who ++ beBytes 6 x.mac.toNat ++ beBytes 2 0x0806 ++ beBytes 8 0x0001080006040002 ++ beBytes 6 x.mac.toNat ++ beBytes 4 x.ipv4.toNat ++ who ++ (b.drop 28).take 4

/-- An IPv6 neighbour solicitation for the port's IPv6 address. -/
def Port.isSolicit (x : Port) (b : List Byte) : Bool :=
  x.ipv6 != 0 && beField b 12 2 == 0x86DD && beField b 20 1 == 58 && beField b 21 1 == 255 && beField b 54 1 == 135 && beField b 62 16 == x.ipv6 && b.length ≥ 78

def Port.solicitAnswer (x : Port) (b : List Byte) : List Byte :=
  let to_ := (b.drop 22).take 16
  let me := beBytes 16 x.ipv6
  let body (sum : Nat) : List Byte := [136, 0] ++ beBytes 2 sum ++ beBytes 4 0x60000000 ++ me ++ [2, 1] ++ beBytes 6 x.mac.toNat
  let sum := inetSum (me ++ to_ ++ beBytes 4 32 ++ beBytes 4 58 ++ body 0)
  (b.drop 6).take 6 ++ beBytes 6 x.mac.toNat ++ beBytes 2 0x86DD ++ beBytes 4 0x60000000 ++ beBytes 2 32 ++ [58, 255] ++ me ++ to_ ++ body sum

/-- A TCP segment for the responder: whether it opens a connection, and its payload. -/
def Port.tcpPayload (x : Port) (b : List Byte) : Option (Bool × List Byte) :=
  let port := x.spdmport.toNat % 65536
  let seg (h stop : Nat) : Option (Bool × List Byte) :=
    if beField b (h + 2) 2 == port then some (bitOf (beField b (h + 13) 1) 1, (b.take stop).drop (h + beField b (h + 12) 1 / 16 * 4)) else none
  if port == 0 then none
  else if beField b 12 2 == 0x0800 && beField b 23 1 == 6 && x.ipv4 != 0 && beField b 30 4 == x.ipv4.toNat % 2 ^ 32 then seg (14 + beField b 14 1 % 16 * 4) (14 + beField b 16 2)
  else if beField b 12 2 == 0x86DD && beField b 20 1 == 6 && x.ipv6 != 0 && beField b 38 16 == x.ipv6 then seg 54 (54 + beField b 18 2)
  else none

/-! ## SPDM over TCP (R413, R416, R419) -/

/-- A message in DSP0287's binding: the length of what follows the length field, the binding's version, the kind of a message outside a
session, and the message. (PRESUMED, log 157) -/
def dspMessage (m : List Byte) : List Byte := leBytes 2 (m.length + 2) ++ [1, 5] ++ m

/-- The whole messages at the start of the bytes received, and the bytes left; one of another binding or kind is passed over. (PRESUMED, log 157) -/
def dspSplit : Nat → List Byte → List (List Byte) × List Byte
  | 0, b => ([], b)
  | n + 1, b =>
    let len := leField b 0 2
    if b.length < 4 || b.length < len + 2 then ([], b)
    else
      let (ms, rest) := dspSplit n (b.drop (max 2 (len + 2)))
      ((if len ≥ 4 && b.getD 2 0 == 1 && b.getD 3 0 == 5 then [(b.take (len + 2)).drop 4] else []) ++ ms, rest)

/-- A segment's payload goes to the responder: whole messages join the requests that wait, in arrival order (R419). (PRESUMED, log 157) -/
def tcpReceive (s : State) (p : Nat) (opens : Bool) (payload : List Byte) : State :=
  let x := s.port p
  let (ms, rest) := dspSplit (x.tcpBuf.length + payload.length) ((if opens then [] else x.tcpBuf) ++ payload)
  let s := s.setPort { x with tcpBuf := rest }
  { s with attest := { s.attest with requests := s.attest.requests ++ ms.map fun m => (p + 1, m) } }

/-- R416: whether a frame is for the port. (DESIGN CHOICE, log 105) -/
def Port.wants (x : Port) (b : List Byte) : Bool :=
  x.pctl.getLsbD 1 || beField b 0 6 == x.mac.toNat % 2 ^ 48 || beField b 0 1 % 2 == 1

/-- A frame delivered to the descriptor at RXHEAD, or dropped for want of one. -/
def rxDeliver (s : State) (p : Nat) (b : List Byte) : State :=
  let x := s.port p
  if x.rxhead == x.rxtail || !ringOk x.rxlog.toNat then s.setPort { x with rxdrop := min (2 ^ 32 - 1) (x.rxdrop + 1) }
  else
    let d := s.readHome .host (x.rxDesc x.rxhead) 32
    let n := min b.length (leField d 8 2)
    let s := storeDevice s .host (leField d 0 8) (b.take n)
    let s := storeDevice s .host (x.rxDesc x.rxhead + 16) (leBytes 8 (s.tick / 16) ++ [if n < b.length then 3 else 1] ++ leBytes 2 b.length)
    s.setPort { x with rxhead := x.rxhead + 1 }

/-- FRAME_RECEIVE (R416): checked, then consumed by the port or delivered. The frame is given without its FCS. -/
def execFrameReceive (port : Nat) (frame : List (BitVec 8)) (fcsOk : Bool) (s : State) : Host.Outcome State Fault Refusal :=
  let x := s.port port
  if port ≥ 2 || !s.feature 11 || !x.en || !x.link || !fcsOk || frame.length < 14 then event s
  else if x.pctl.getLsbD 2 && beField frame 12 2 == 0x88F7 then event (gptpPdu s port frame)
  else if x.isArp frame then event (sendOwn s port (x.arpAnswer frame))
  else if x.isSolicit frame then event (sendOwn s port (x.solicitAnswer frame))
  else match x.tcpPayload frame with
    | some (opens, pl) => event (tcpReceive ((Config.endpointFrames port frame s.tick).foldl (fun s f => sendOwn s port f) s) port opens pl)
    | none => if x.wants frame then event (rxDeliver s port frame) else event s

/-! ## Port registers (R415) -/

/-- PCTL_WRITE (R415). -/
def execPctlWrite (port : Nat) (val : BitVec 64) (s : State) : Host.Outcome State Fault Refusal :=
  let s := barWrite s
  let v := val &&& 7
  if port ≥ 2 || !s.feature 11 then event s
  else
    let s := if v.getLsbD 2 then s else dropMaster s port
    let x := s.port port
    let x := if v.getLsbD 0 && !x.en then { x with txtail := 0, txhead := 0, rxtail := 0, rxhead := 0, sent := [], own := x.own.map fun e => (0, e.2) } else x
    event (s.setPort { x with pctl := v })

/-- A write of GATECTL: without gates all are open; gates that come into use begin at AdminGateStates. -/
def gatectlWrite (s : State) (p : Nat) (v : Dword) : State :=
  let x := s.port p
  let on := v.getLsbD 0
  let x := { x with adminStates := bitsOf v.toNat 15 8, gateEnabled := on, operStates := if on && !x.gateEnabled then bitsOf v.toNat 15 8 else if on then x.operStates else 0 }
  let s := s.setPort x
  if v.getLsbD 16 then gateConfig s p else s

/-- A register of a port's block that only stores (R415). -/
def portWrite (s : State) (p off : Nat) (v : Dword) : State :=
  let x := s.port p
  let ring (y : Port) : Port := if x.en then x else y
  if !s.feature 11 || p ≥ 2 then s
  else if off == 0x200 then gatectlWrite s p v
  else s.setPort (match off with
    | 0x010 => { x with mac := v &&& 0xFFFFFFFFFFFF }
    | 0x018 => { x with ipv4 := v &&& 0xFFFFFFFF }
    | 0x020 => { x with ipv6lo := v }
    | 0x028 => { x with ipv6hi := v }
    | 0x030 => { x with spdmport := v &&& 0xFFFF }
    | 0x038 => { x with tcmap := v &&& 0xFFFFFF }
    | 0x100 => ring { x with txbase := v &&& ~~~0xFFF }
    | 0x108 => ring { x with txlog := v &&& 0xF }
    | 0x110 => { x with txtail := v.toNat }
    | 0x120 => ring { x with rxbase := v &&& ~~~0xFFF }
    | 0x128 => ring { x with rxlog := v &&& 0xF }
    | 0x130 => { x with rxtail := v.toNat }
    | 0x208 => { x with adminBase := v }
    | 0x210 => { x with adminCycle := v &&& 0xFFFFFFFF }
    | 0x218 => { x with adminExt := v }
    | 0x220 => { x with adminLen := v &&& 0x1FF }
    | _ => if 0x800 ≤ off && off < 0x1000 then { x with adminList := mset 0 x.adminList ((off - 0x800) / 8) (v &&& 0xFFFFFFFF0000FFFF) } else x)

/-- What a register of a port's block reads. -/
def portRead (s : State) (p off : Nat) : Dword :=
  let x := s.port p
  if !s.feature 11 then 0
  else match off with
    | 0x000 => x.pctl
    | 0x008 => BitVec.ofNat 64 (x.rxdrop * 2 ^ 32 + (if x.ascap then 2 else 0) + if x.link then 1 else 0)
    | 0x010 => x.mac
    | 0x018 => x.ipv4
    | 0x020 => x.ipv6lo
    | 0x028 => x.ipv6hi
    | 0x030 => x.spdmport
    | 0x038 => x.tcmap
    | 0x100 => x.txbase
    | 0x108 => x.txlog
    | 0x110 => BitVec.ofNat 64 x.txtail
    | 0x118 => BitVec.ofNat 64 x.txhead
    | 0x120 => x.rxbase
    | 0x128 => x.rxlog
    | 0x130 => BitVec.ofNat 64 x.rxtail
    | 0x138 => BitVec.ofNat 64 x.rxhead
    | 0x200 => BitVec.ofNat 64 ((if x.gateEnabled then 1 else 0) + 256 * x.adminStates + if x.cfgPending.isSome then 2 ^ 16 else 0)
    | 0x208 => x.adminBase
    | 0x210 => x.adminCycle
    | 0x218 => x.adminExt
    | 0x220 => x.adminLen
    | 0x228 => BitVec.ofNat 64 (x.operLen + 2 ^ 16 * x.operIdx + 2 ^ 24 * x.operStates + 2 ^ 32 * x.cfgErr)
    | 0x230 => x.operBase
    | _ => if 0x800 ≤ off && off < 0x1000 then mget 0 x.adminList ((off - 0x800) / 8)
      else if 0x1000 ≤ off && off < 0x1800 then x.operEntry ((off - 0x1000) / 8) else 0

end Sys2Proof.Machine
end

