-- ==== Sys2Proof/Machine/Attest.lean ====
section
/-! DEFINITION. Identity, measurement and quotes: SHA-512, the measurements, the SPDM responder, firmware and reset (R408, R417-R420).
SHA-512 and HMAC are those of FIPS 180-4 and 198-1, message formats those of SPDM 1.3. -/

namespace Sys2Proof.Machine

/-! ## SHA-512 -/

/-- The round constants. -/
def shaK : List Dword :=
  [0x428A2F98D728AE22, 0x7137449123EF65CD, 0xB5C0FBCFEC4D3B2F, 0xE9B5DBA58189DBBC] ++
   [0x3956C25BF348B538, 0x59F111F1B605D019, 0x923F82A4AF194F9B, 0xAB1C5ED5DA6D8118] ++
   [0xD807AA98A3030242, 0x12835B0145706FBE, 0x243185BE4EE4B28C, 0x550C7DC3D5FFB4E2] ++
   [0x72BE5D74F27B896F, 0x80DEB1FE3B1696B1, 0x9BDC06A725C71235, 0xC19BF174CF692694] ++
   [0xE49B69C19EF14AD2, 0xEFBE4786384F25E3, 0x0FC19DC68B8CD5B5, 0x240CA1CC77AC9C65] ++
   [0x2DE92C6F592B0275, 0x4A7484AA6EA6E483, 0x5CB0A9DCBD41FBD4, 0x76F988DA831153B5] ++
   [0x983E5152EE66DFAB, 0xA831C66D2DB43210, 0xB00327C898FB213F, 0xBF597FC7BEEF0EE4] ++
   [0xC6E00BF33DA88FC2, 0xD5A79147930AA725, 0x06CA6351E003826F, 0x142929670A0E6E70] ++
   [0x27B70A8546D22FFC, 0x2E1B21385C26C926, 0x4D2C6DFC5AC42AED, 0x53380D139D95B3DF] ++
   [0x650A73548BAF63DE, 0x766A0ABB3C77B2A8, 0x81C2C92E47EDAEE6, 0x92722C851482353B] ++
   [0xA2BFE8A14CF10364, 0xA81A664BBC423001, 0xC24B8B70D0F89791, 0xC76C51A30654BE30] ++
   [0xD192E819D6EF5218, 0xD69906245565A910, 0xF40E35855771202A, 0x106AA07032BBD1B8] ++
   [0x19A4C116B8D2D0C8, 0x1E376C085141AB53, 0x2748774CDF8EEB99, 0x34B0BCB5E19B48A8] ++
   [0x391C0CB3C5C95A63, 0x4ED8AA4AE3418ACB, 0x5B9CCA4F7763E373, 0x682E6FF3D6B2B8A3] ++
   [0x748F82EE5DEFB2FC, 0x78A5636F43172F60, 0x84C87814A1F0AB72, 0x8CC702081A6439EC] ++
   [0x90BEFFFA23631E28, 0xA4506CEBDE82BDE9, 0xBEF9A3F7B2C67915, 0xC67178F2E372532B] ++
   [0xCA273ECEEA26619C, 0xD186B8C721C0C207, 0xEADA7DD6CDE0EB1E, 0xF57D4F7FEE6ED178] ++
   [0x06F067AA72176FBA, 0x0A637DC5A2C898A6, 0x113F9804BEF90DAE, 0x1B710B35131C471B] ++
   [0x28DB77F523047D84, 0x32CAAB7B40C72493, 0x3C9EBE0A15C9BEBC, 0x431D67C49C100D4C] ++
   [0x4CC5D4BECB3E42B6, 0x597F299CFC657E2A, 0x5FCB6FAB3AD6FAEC, 0x6C44198C4A475817]

def shaInit : List Dword := [0x6A09E667F3BCC908, 0xBB67AE8584CAA73B, 0x3C6EF372FE94F82B, 0xA54FF53A5F1D36F1, 0x510E527FADE682D1, 0x9B05688C2B3E6C1F, 0x1F83D9ABFB41BD6B, 0x5BE0CD19137E2179]

/-- The message schedule, newest word first. -/
def shaSchedule (block : List Dword) : List Dword :=
  ((List.range 64).foldl (fun (w : List Dword) _ =>
    let at_ (k : Nat) : Dword := w.getD (k - 1) 0
    let s0 := let x := at_ 15; x.rotateRight 1 ^^^ x.rotateRight 8 ^^^ (x >>> 7)
    let s1 := let x := at_ 2; x.rotateRight 19 ^^^ x.rotateRight 61 ^^^ (x >>> 6)
    (at_ 16 + s0 + at_ 7 + s1) :: w) block.reverse).reverse

/-- One block of 16 words taken into the digest. -/
def shaBlock (h : List Dword) (block : List Dword) : List Dword :=
  let rs := ((shaSchedule block).zip shaK).foldl (fun (v : List Dword) (wk : Dword × Dword) =>
    match v with
    | [a, b, c, d, e, f, g, q] =>
      let t1 := q + (e.rotateRight 14 ^^^ e.rotateRight 18 ^^^ e.rotateRight 41) + ((e &&& f) ^^^ (~~~e &&& g)) + wk.2 + wk.1
      let t2 := (a.rotateRight 28 ^^^ a.rotateRight 34 ^^^ a.rotateRight 39) + ((a &&& b) ^^^ (a &&& c) ^^^ (b &&& c))
      [t1 + t2, a, b, c, d + t1, e, f, g]
    | v => v) h
  (h.zip rs).map fun (x, y) => x + y

/-- The padded message as 64-bit words. -/
def shaPad (m : List Byte) : List Dword :=
  let b := m ++ [0x80] ++ List.replicate ((239 - m.length % 128) % 128) 0 ++ beBytes 16 (8 * m.length)
  (List.range (b.length / 8)).map fun i => BitVec.ofNat 64 (beField b (8 * i) 8)

/-- (PRESUMED, log 32) -/
def sha512 (m : List Byte) : List Byte :=
  let w := shaPad m
  ((List.range (w.length / 16)).foldl (fun h i => shaBlock h ((w.drop (16 * i)).take 16)) shaInit).flatMap fun x => beBytes 8 x.toNat

def hmac512 (key m : List Byte) : List Byte :=
  let k := (if key.length > 128 then sha512 key else key)
  let k := k ++ List.replicate (128 - k.length) 0
  sha512 (k.map (· ^^^ 0x5C) ++ sha512 (k.map (· ^^^ 0x36) ++ m))

/-! ## Measurements (R408, R417, R418) -/

/-- MODESTAT (R408). -/
def modestat (s : State) : Dword :=
  let r := s.regs
  let bit (b : Bool) (k : Nat) : Nat := if b then 2 ^ k else 0
  BitVec.ofNat 64 (r.shutdowns * 256 + bit r.refused 3 + bit r.overpower 2 + bit r.held 1 + bit r.fixed 0)

/-- R417 step 1: the CDI that the running image receives. -/
def cdi (s : State) : List Byte := hmac512 Config.deviceSecret (sha512 s.attest.firmware)

/-- The measurements that the device keeps: index, value type of SPDM, whether the value is raw, value. -/
def measurements (s : State) : List (Nat × Nat × Bool × List Byte) :=
  [(1, 0, false, Config.bootRom), (2, 1, false, sha512 s.attest.firmware), (3, 3, false, sha512 (Config.boardStraps ++ leBytes 8 s.regs.gddr)),
   (4, 2, true, leBytes 16 s.regs.feat.toNat), (5, 2, true, leBytes 8 (modestat s).toNat ++ leBytes 8 s.regs.powerlim ++ leBytes 8 s.regs.cssize),
   (6, 1, false, s.attest.meas6), (0xF0, 3, true, leBytes 8 (s.tick / 16) ++ leBytes 8 (syncstat s).toNat)]

/-- MEASEXT (R418): the eighth write extends index 6. -/
def execMeasext (val : BitVec 64) (s : State) : Host.Outcome State Fault Refusal :=
  let part := s.attest.measPart ++ leBytes 8 val.toNat
  event { s with attest := if part.length < 64 then { s.attest with measPart := part } else { s.attest with measPart := [], meas6 := sha512 (s.attest.meas6 ++ part) } }

/-! ## The SPDM responder (R419) -/

/-- Whether a transport brings requests: DOE (0), or a port whose responder is on. (PRESUMED, log 110) -/
def transportOn (s : State) (t : Nat) : Bool :=
  !s.attest.recovery && (t == 0 || (t ≤ 2 && s.feature 11 && (s.port (t - 1)).en && (s.port (t - 1)).link && (s.port (t - 1)).spdmport != 0))

/-- A response sent on a transport: over TCP in frames of the port (R416). -/
def respond (s : State) (t : Nat) (r : List Byte) : State :=
  let s := { s with attest := { s.attest with responses := s.attest.responses ++ [(t, r)] } }
  if t == 0 then s else (Config.tcpFrames (t - 1) (dspMessage r) s.tick).foldl (fun s f => sendOwn s (t - 1) f) s

/-- R419: requests are served one at a time, in arrival order: a request that is the first of those that wait is served; one over DOE that
finds others waiting joins them; a port's request comes in its frames. A request whose transport is off is dropped. The answer is whether the
request is served now. -/
def arrive (s : State) (t : Nat) (req : List Byte) : Bool × State :=
  match s.attest.requests with
  | [] => (t == 0 && transportOn s 0, s)
  | r :: rs =>
    if r == (t, req) then (transportOn s t, { s with attest := { s.attest with requests := rs } })
    else if t == 0 && transportOn s 0 then (false, { s with attest := { s.attest with requests := r :: rs ++ [(0, req)] } })
    else (false, s)

/-- An ERROR response with its code: 1 invalid, 4 unexpected, 7 unsupported, 0x41 version mismatch. -/
def spdmError (version code : Nat) : List Byte := [BitVec.ofNat 8 version, 0x7F, BitVec.ofNat 8 code, 0]

/-- A request of a code at a stage of the negotiation, at least as long as its form; `f` gives the response and the machine. -/
def spdm (s : State) (t : Nat) (req : List Byte) (code stage len : Nat) (f : State → State × List Byte) : Host.Outcome State Fault Refusal :=
  if leField req 1 1 != code then event s
  else match arrive s t req with
  | (false, s) => event s
  | (true, s) =>
  if req.length < len then event (respond s t (spdmError 0x13 1))
  else if leField req 0 1 != 0x13 then event (respond s t (spdmError 0x13 0x41))
  else if s.attest.stage < stage then event (respond s t (spdmError 0x13 4))
  else let (s, r) := f s; event (respond s t r)

/-- The codes of the requests that the responder supports (R419). -/
def spdmCodes : List Nat := [0x84, 0xE1, 0xE3, 0x81, 0x82, 0x83, 0xE0]

/-- GET_VERSION (R419): the negotiation begins anew. A request that is not supported is answered with an ERROR of its own. -/
def execGetVersion (transport : Nat) (req : List (BitVec 8)) (s : State) : Host.Outcome State Fault Refusal :=
  let code := leField req 1 1
  if code != 0x84 && spdmCodes.contains code then event s
  else match arrive s transport req with
  | (false, s) => event s
  | (true, s) =>
  if code != 0x84 then event (respond s transport (spdmError 0x13 7))
  else if req.length < 4 || leField req 0 1 != 0x10 then event (respond s transport (spdmError 0x10 (if req.length < 4 then 1 else 0x41)))
  else
    let r : List Byte := [0x10, 0x04, 0, 0, 0, 1, 0x00, 0x13]
    event (respond { s with attest := { s.attest with stage := 1, vca := req.take 4 ++ r, measLog := [], certLog := [] } } transport r)

/-- GET_CAPABILITIES (R419): certificates, challenge, and signed fresh measurements; no session. -/
def execGetCapabilities (transport : Nat) (req : List (BitVec 8)) (s : State) : Host.Outcome State Fault Refusal :=
  spdm s transport req 0xE1 1 20 fun s =>
    let lim := (Config.spdmLimits ++ List.replicate 9 0).take 9
    let r : List Byte := [0x13, 0x61, 0, 0, 0] ++ lim.take 1 ++ [0, 0, 0x36, 0, 0, 0] ++ lim.drop 1
    if s.attest.stage != 1 then (s, spdmError 0x13 4)
    else ({ s with attest := { s.attest with stage := 2, vca := s.attest.vca ++ req.take 20 ++ r } }, r)

/-- NEGOTIATE_ALGORITHMS (R419): ECDSA P-521 and SHA-512 only. -/
def execNegotiateAlgorithms (transport : Nat) (req : List (BitVec 8)) (s : State) : Host.Outcome State Fault Refusal :=
  spdm s transport req 0xE3 2 32 fun s =>
    if s.attest.stage != 2 then (s, spdmError 0x13 4)
    else if !bitOf (leField req 8 4) 8 || !bitOf (leField req 12 4) 2 then (s, spdmError 0x13 1)
    else
      let r : List Byte := [0x13, 0x63, 0, 0, 36, 0, 1, 0] ++ leBytes 4 8 ++ leBytes 4 0x100 ++ leBytes 4 4 ++ List.replicate 16 0
      ({ s with attest := { s.attest with stage := 3, vca := s.attest.vca ++ req ++ r } }, r)

/-- GET_DIGESTS (R419): the digest of the one slot's certificate chain. -/
def execGetDigests (transport : Nat) (req : List (BitVec 8)) (s : State) : Host.Outcome State Fault Refusal :=
  spdm s transport req 0x81 3 4 fun s =>
    let r : List Byte := [0x13, 0x01, 1, 1] ++ sha512 (Config.certChain (cdi s))
    ({ s with attest := { s.attest with certLog := s.attest.certLog ++ req.take 4 ++ r } }, r)

/-- GET_CERTIFICATE (R419): a portion of the chain. -/
def execGetCertificate (transport : Nat) (req : List (BitVec 8)) (s : State) : Host.Outcome State Fault Refusal :=
  spdm s transport req 0x82 3 8 fun s =>
    let chain := Config.certChain (cdi s)
    let off := leField req 4 2
    if leField req 2 1 % 16 != 0 || off ≥ chain.length then (s, spdmError 0x13 1)
    else
      let part := (chain.drop off).take (leField req 6 2)
      let r : List Byte := [0x13, 0x02, 0, 0] ++ leBytes 2 part.length ++ leBytes 2 (chain.length - off - part.length) ++ part
      ({ s with attest := { s.attest with certLog := s.attest.certLog ++ req.take 8 ++ r } }, r)

/-- The characters of a text as bytes. -/
def ascii (t : String) : List Byte := t.toList.map fun c => BitVec.ofNat 8 c.toNat

/-- A signature with the alias key over a transcript, under the context that SPDM gives the message. -/
def aliasSigned (s : State) (context : String) (transcript : List Byte) : List Byte :=
  let pre := ascii "dmtf-spdm-v1.3.*"
  let ctx := ascii context
  Config.aliasSign (cdi s) s.attest.sigs (pre ++ pre ++ pre ++ pre ++ List.replicate (36 - ctx.length) 0 ++ ctx ++ sha512 transcript)

/-- The responder's nonce of the next response. -/
def nonceOf (s : State) : List Byte := (Config.nonce s.attest.nonces ++ List.replicate 32 0).take 32

/-- The DMTF measurement block of a measurement. -/
def measBlock (m : Nat × Nat × Bool × List Byte) : List Byte :=
  [BitVec.ofNat 8 m.1, 1] ++ leBytes 2 (m.2.2.2.length + 3) ++ [BitVec.ofNat 8 (m.2.1 + if m.2.2.1 then 128 else 0)] ++ leBytes 2 m.2.2.2.length ++ m.2.2.2

/-- CHALLENGE (R419): answered with the alias key over the negotiation, the certificates and the challenge. -/
def execChallenge (transport : Nat) (req : List (BitVec 8)) (s : State) : Host.Outcome State Fault Refusal :=
  spdm s transport req 0x83 3 44 fun s =>
    if leField req 2 1 % 16 != 0 then (s, spdmError 0x13 1)
    else
      let summary := if leField req 3 1 == 0 then [] else sha512 ((measurements s).flatMap measBlock)
      let body : List Byte := [0x13, 0x03, 0, 1] ++ sha512 (Config.certChain (cdi s)) ++ nonceOf s ++ summary ++ [0, 0] ++ (req.drop 36).take 8
      let r := body ++ aliasSigned s "responder-challenge_auth signing" (s.attest.vca ++ s.attest.certLog ++ req.take 44 ++ body)
      ({ s with attest := { s.attest with certLog := [], nonces := s.attest.nonces + 1, sigs := s.attest.sigs + 1 } }, r)

/-- GET_MEASUREMENTS (R417, R419): the number of measurements, one, or all; signed over the transcript with the requester's
nonce where a signature is asked for. -/
def execGetMeasurements (transport : Nat) (req : List (BitVec 8)) (s : State) : Host.Outcome State Fault Refusal :=
  spdm s transport req 0xE0 3 (if leField req 2 1 % 2 == 1 then 45 else 12) fun s =>
    let signed := leField req 2 1 % 2 == 1
    let op := leField req 3 1
    let all := measurements s
    let ms := if op == 0 then [] else if op == 0xFF then all else all.filter fun m => m.1 == op
    if (op != 0 && ms.isEmpty) || (signed && leField req 36 1 % 16 != 0) then ({ s with attest := { s.attest with measLog := [] } }, spdmError 0x13 1)
    else
      let rec_ := ms.flatMap measBlock
      let asked := req.take (if signed then 45 else 12)
      let context := (asked.drop (asked.length - 8)).take 8
      let body : List Byte := [0x13, 0x60, if op == 0 then BitVec.ofNat 8 all.length else 0, 0, BitVec.ofNat 8 ms.length] ++ leBytes 3 rec_.length ++ rec_ ++ nonceOf s ++ [0, 0] ++ context
      let log := s.attest.measLog ++ asked ++ body
      if signed then
        ({ s with attest := { s.attest with measLog := [], nonces := s.attest.nonces + 1, sigs := s.attest.sigs + 1 } }, body ++ aliasSigned s "responder-measurements signing" (s.attest.vca ++ log))
      else ({ s with attest := { s.attest with measLog := log, nonces := s.attest.nonces + 1 } }, body)

/-! ## Firmware and reset (R417, R420) -/

/-- FIRMWARE_RELOAD (R420): in recovery, the one image is replaced; a reset runs it. -/
def execFirmwareReload (image signature : List (BitVec 8)) (s : State) : Host.Outcome State Fault Refusal :=
  if s.attest.recovery then event { s with attest := { s.attest with firmware := image, signature := signature } } else event s

/-- RESET (R417, R420): the device as it is right after reset; the ROM verifies the image it holds. What lies outside the device,
its local memory and the state of its connectors stay. (DESIGN CHOICE, log 3) -/
def execReset (s : State) : Host.Outcome State Fault Refusal :=
  let r := State.reset
  let a : Attest := { firmware := s.attest.firmware, signature := s.attest.signature, recovery := !Config.releaseVerifies (sha512 s.attest.firmware) s.attest.signature,
                      nonces := s.attest.nonces, sigs := s.attest.sigs }
  event { r with loc := s.loc, host := s.host, peer := s.peer, pool := s.pool, poison := s.poison.filter (fun p => match p.1 with | .loc => true | .host => true | .peer _ => true | .pool _ => true | _ => false),
                 fresh := s.fresh, leases := s.leases, regs := { r.regs with gddr := s.regs.gddr }, attest := a,
                 cores := s.cores.map (fun c => { core := c.core, temp := c.temp }), ports := r.ports.map (fun x => { x with link := (s.port x.port).link }),
                 disps := r.disps.map (fun d => { d with hpd := (s.disp d.out).hpd }), power := s.power, agenda := s.agenda }

end Sys2Proof.Machine
end

