-- ==== Sys2Proof/Machine/HostRegs.lean ====
section
/-! DEFINITION. The host's registers: plain writes and what every register reads, feature negotiation, fixed-clock mode, board
power, and the resynchronisation summary (R404-R408, R448-R450, R460, R464, R471, R474). -/

namespace Sys2Proof.Machine

/-! ## Feature negotiation and fixed-clock mode (R406-R408) -/

/-- The offered feature word (R405). -/
def offered : BitVec 128 := 0x1FFF

/-- FEATACCEPT_WRITE (R406): the low half, then the high half, which takes effect once, and only before any context. (DEDUCED, log 111) -/
def execFeatacceptWrite (high : Bool) (val : BitVec 64) (s : State) : Host.Outcome State Fault Refusal :=
  let s := barWrite s
  if s.regs.featDone then event s
  else if !high then event { s with regs := { s.regs with featLow := val } }
  else event { s with regs := { s.regs with featDone := true, feat := if s.regs.ctxEver then s.regs.feat else (val ++ s.regs.featLow) &&& offered } }

/-- R407: since when the board power has been above POWERLIM in fixed-clock mode. (DEDUCED, log 113) -/
def watchPower (s : State) : State :=
  { s with overSince := if s.regs.fixed && s.regs.powerlim < s.power then s.overSince.or (some s.tick) else none }

/-- MODECTL_WRITE (R407, R408). (DEDUCED, log 112) -/
def execModectlWrite (val : BitVec 64) (s : State) : Host.Outcome State Fault Refusal :=
  let s := barWrite s
  let on := val.getLsbD 0
  if !s.feature 9 || s.ctxs.any (fun c => c.cstate == 1 || c.cstate == 2) then event { s with regs := { s.regs with refused := true } }
  else
    let regs := { s.regs with refused := false, fixed := on }
    if on && !s.regs.fixed then event (watchPower { s with regs := { regs with shutdowns := 0, held := true } })
    else event (watchPower { s with regs := { regs with held := on && s.regs.held } })

/-- OVERPOWER (R407): the board power is reported; above POWERLIM for 10 ms of device time in fixed-clock mode it sets OVERPOWER
and raises the host interrupt. (DEDUCED, log 113) -/
def execOverpower (power : Nat) (s : State) : Host.Outcome State Fault Refusal :=
  let s := watchPower { s with power := power }
  match s.overSince with
  | some t => if t + 160000000 ≤ s.tick then event (signal { s with overSince := some s.tick, regs := { s.regs with overpower := true } } 0) else event s
  | none => event s

/-! ## Plain registers (R404, R464) -/

/-- A display register that only stores (R421). -/
def dispWrite (s : State) (o off : Nat) (v : Dword) : State :=
  let d := s.disp o
  let timing (e : Disp) : Disp := if d.en then d else e
  if o ≥ 4 then s
  else s.setDisp (match off with
    | 0x010 => timing { d with pclk := v }
    | 0x018 => timing { d with htiming := v }
    | 0x020 => timing { d with vtiming := v }
    | 0x028 => timing { d with format := v &&& 0xFF }
    | 0x030 => timing { d with stride := v &&& ~~~0xFF }
    | 0x050 => { d with auxdata := [v, d.auxdata.getD 1 0] }
    | 0x058 => { d with auxdata := [d.auxdata.getD 0 0, v] }
    | _ => d)

/-- What a display register reads (R421). -/
def dispRead (s : State) (o off : Nat) : Dword :=
  let d := s.disp o
  let bit (b : Bool) (k : Nat) : Nat := if b then 2 ^ k else 0
  match off with
  | 0x000 => d.dpctl
  | 0x008 => BitVec.ofNat 64 (bit d.hpd 0 + bit d.trained 1 + bit d.error 2 + 16 * d.trRate + 256 * d.trLanes + 2 ^ 32 * d.frames)
  | 0x010 => d.pclk
  | 0x018 => d.htiming
  | 0x020 => d.vtiming
  | 0x028 => d.format
  | 0x030 => d.stride
  | 0x038 => d.scanbase
  | 0x048 => d.auxstat
  | 0x050 => d.auxdata.getD 0 0
  | 0x058 => d.auxdata.getD 1 0
  | _ => 0

/-- The registers of the first 512 bytes that only store; some only while no context is live, CSSIZE before the first context. -/
def baseWrite (s : State) (off : Nat) (v : Dword) : State :=
  let quiet (r : HostRegs) : State := if (liveCtxs s).isEmpty then { s with regs := r } else s
  let n := v.toNat
  let r := s.regs
  match off with
  | 0x30 => if 150000 ≤ n && n ≤ 900000 then watchPower { s with regs := { r with powerlim := n } } else s
  | 0x38 => quiet { r with qtable := n / 4096 * 4096 }
  | 0x40 => quiet { r with ctxtable := n / 4096 * 4096 }
  | 0x58 => { s with regs := { r with tlbiLo := v } }
  | 0x60 => { s with regs := { r with tlbiLen := v } }
  | 0xC0 => quiet { r with bindtab := n / 128 * 128 }
  | 0xC8 => if !r.ctxEver && 1024 ≤ n && n ≤ 4096 then { s with regs := { r with cssize := n } } else s
  | _ => if 0x100 ≤ off && off < 0x200 then quiet { r with windows := mset 0 r.windows ((off - 0x100) / 8) v } else s

/-- The trace and breakpoint registers that only store (R464). -/
def traceWrite (s : State) (off : Nat) (v : Dword) : State :=
  let r := s.regs
  let en := r.trctl.getLsbD 0
  match off with
  | 0x30008 => if en then s else { s with regs := { r with trbase := v.toNat / 4096 * 4096 } }
  | 0x30010 => if en then s else { s with regs := { r with trlog := v.toNat % 32 } }
  | 0x30020 => { s with regs := { r with trridx := v.toNat } }
  | _ => if 0x30080 ≤ off && off < 0x30100 then
      let k := (off - 0x30080) / 8
      { s with regs := { r with bkpt := mset 0 r.bkpt k (if k % 2 == 1 then v &&& 0x3FF else v) } }
    else s

/-- REGISTER_WRITE (R404): a register with no behaviour of its own stores; every other offset ignores the write. (DEDUCED, log 114) -/
def execRegisterWrite (off : Nat) (val : BitVec 64) (s : State) : Host.Outcome State Fault Refusal :=
  let s := barWrite s
  if off % 8 != 0 then event s
  else if off < 0x200 then event (baseWrite s off val)
  else if 0x30000 ≤ off && off < 0x30100 then event (traceWrite s off val)
  else if 0x70000 ≤ off && off < 0x80000 then event (portWrite s ((off - 0x70000) / 0x8000) ((off - 0x70000) % 0x8000) val)
  else if 0x80000 ≤ off && off < 0x84000 then event (dispWrite s ((off - 0x80000) / 0x1000) ((off - 0x80000) % 0x1000) val)
  else event s

/-! ## What the windows hold (R450, R460, R471, R474) -/

/-- R450: the 32 bytes of an event. -/
def eventBytes (e : Event) : List Byte :=
  leBytes 8 e.time ++ [BitVec.ofNat 8 e.kind, BitVec.ofNat 8 e.unit] ++ leBytes 2 e.num ++ [BitVec.ofNat 8 e.ctx, 0, 0, 0] ++ leBytes 4 e.launch
    ++ (e.detail ++ List.replicate 12 (0 : Byte)).take 12

/-- FLAGS and MULT of a slice (R460). -/
def sliceFlags (s : State) (k : Nat) : Nat :=
  let t := s.tester k
  let bit (b : Bool) (i : Nat) : Nat := if b then 2 ^ i else 0
  bit ((List.range 16).any fun i => (s.sensor (16 * k + i)).st != 0) 0 + bit (t.aborts != 0) 1 + bit (!t.retired.isEmpty) 2 + bit t.degraded 3 + bit (t.uncorr != 0) 4

def sliceMult (s : State) (k : Nat) : Nat := (List.range 16).foldl (fun m i => max m (s.bankOf (16 * k + i)).mult) 1

/-- R460: the stack-health block of a slice. -/
def healthBytes (s : State) (k : Nat) : List Byte :=
  let t := s.tester k
  (List.range 16).flatMap (fun i => let x := s.sensor (16 * k + i); if sampleValid x.latest then temp2 x.latest else leBytes 2 0x8000)
    ++ [BitVec.ofNat 8 (sliceMult s k), BitVec.ofNat 8 (sliceFlags s k)] ++ leBytes 2 t.spares ++ leBytes 4 t.aborts ++ leBytes 4 t.pfail ++ leBytes 4 t.uncorr
    ++ temp2 (hottest s k) ++ List.replicate 14 (0 : Byte)

/-- R471: a STOPTAB entry. -/
def stopBytes (t : Stop) : List Byte :=
  leBytes 8 t.pc.toNat ++ leBytes 4 t.agent ++ [BitVec.ofNat 8 t.path, BitVec.ofNat 8 t.ctx, BitVec.ofNat 8 t.cause, 1] ++ leBytes 4 t.xmask.toNat ++ List.replicate 12 (0 : Byte)

/-- R474: counter i of a partition: bins 0-16, reasons 17-27, and EMPTY (28), which is what the bins leave of the clocks. -/
def stallCount (s : State) (part i : Nat) : Nat :=
  if i == 28 then s.clk - s.regs.stallSince - (List.range 17).foldl (fun n b => n + mget 0 s.stalls (32 * part + b)) 0
  else if i < 28 then mget 0 s.stalls (32 * part + i) else 0

/-- Byte `off` of the registers that stand alone. -/
def baseRead (s : State) (off : Nat) : Dword :=
  let r := s.regs
  let wake (n : Nat) : Dword := if s.feature 10 then BitVec.ofNat 64 n else 0
  match off with
  | 0x00 => 0x1FFF
  | 0x10 => r.feat.setWidth 64
  | 0x18 => (r.feat >>> 64).setWidth 64
  | 0x20 => if r.fixed then 1 else 0
  | 0x28 => modestat s
  | 0x30 => BitVec.ofNat 64 r.powerlim
  | 0x38 => BitVec.ofNat 64 r.qtable
  | 0x40 => BitVec.ofNat 64 r.ctxtable
  | 0x58 => r.tlbiLo
  | 0x60 => r.tlbiLen
  | 0x68 => wake r.wtring
  | 0x70 => wake r.wtlog
  | 0x98 => syncstat s
  | 0xA8 => wake r.wtwidx
  | 0xB0 => wake r.wtridx
  | 0xB8 => wake r.wtlost
  | 0xC0 => BitVec.ofNat 64 r.bindtab
  | 0xC8 => BitVec.ofNat 64 r.cssize
  | 0xD0 => BitVec.ofNat 64 r.gddr
  | 0xD8 => BitVec.ofNat 64 r.evtcount
  | _ => if 0x100 ≤ off && off < 0x200 then mget 0 r.windows ((off - 0x100) / 8) else 0

def traceRead (s : State) (off : Nat) : Dword :=
  let r := s.regs
  match off with
  | 0x30000 => r.trctl
  | 0x30008 => BitVec.ofNat 64 r.trbase
  | 0x30010 => BitVec.ofNat 64 r.trlog
  | 0x30018 => BitVec.ofNat 64 r.trwidx
  | 0x30020 => BitVec.ofNat 64 r.trridx
  | 0x30028 => BitVec.ofNat 64 r.trlost
  | _ =>
    if 0x30040 ≤ off && off < 0x30060 then mget 0 r.stoparm ((off - 0x30040) / 8)
    else if 0x30080 ≤ off && off < 0x30100 then mget 0 r.bkpt ((off - 0x30080) / 8)
    else if 0x30200 ≤ off && off < 0x30A00 then
      match s.stops.find? fun t => t.slot == (off - 0x30200) / 32 with
      | some t => BitVec.ofNat 64 (leField (stopBytes t) ((off - 0x30200) % 32) 8)
      | none => 0
    else 0

/-- What a 64-bit register of BAR0 reads (R404); a register that is write-only, reserved or of an unaccepted feature reads zero. -/
def hostRead (s : State) (off : Nat) : Dword :=
  if off % 8 != 0 then 0
  else if off < 0x200 then baseRead s off
  else if 0x20000 ≤ off && off < 0x21000 then BitVec.ofNat 64 (leField (healthBytes s ((off - 0x20000) / 64)) ((off - 0x20000) % 64) 8)
  else if 0x21000 ≤ off && off < 0x23000 then
    let i := (off - 0x21000) / 32
    let k := s.regs.evtcount
    let newest := if i < k % 256 then k / 256 * 256 + i else k / 256 * 256 + i - 256
    if newest < k && k - newest ≤ s.events.length && (k ≥ 256 || i < k) then
      match s.events[s.events.length - (k - newest)]? with
      | some e => BitVec.ofNat 64 (leField (eventBytes e) ((off - 0x21000) % 32) 8)
      | none => 0
    else 0
  else if 0x30000 ≤ off && off < 0x30A00 then traceRead s off
  else if 0x40000 ≤ off && off < 0x60000 then BitVec.ofNat 64 (stallCount s ((off - 0x40000) / 256) ((off - 0x40000) % 256 / 8))
  else if 0x70000 ≤ off && off < 0x80000 then portRead s ((off - 0x70000) / 0x8000) ((off - 0x70000) % 0x8000)
  else if 0x80000 ≤ off && off < 0x84000 then dispRead s ((off - 0x80000) / 0x1000) ((off - 0x80000) % 0x1000)
  else 0

/-! ## Resynchronisation (R448, R449) -/

/-- Bits of a list of flags, 8 to a byte. -/
def bitmap (n : Nat) (f : Nat → Bool) : List Byte :=
  (List.range (n / 8)).map fun i => BitVec.ofNat 8 ((List.range 8).foldl (fun v b => if f (8 * i + b) then v + 2 ^ b else v) 0)

/-- The arithmetic clock in MHz: 3.2 GHz in fixed-clock mode, else a value that nothing fixes, up to 3.6 GHz (R10). -/
def clockMhz (s : State) : Nat := if s.regs.fixed then 3200 else 3200 + Config.freeNat s.fresh % 401

def sumHeader (s : State) (seqn : Nat) : List Byte :=
  let cores := List.range 128
  leBytes 8 seqn ++ leBytes 8 (s.tick / 16) ++ leBytes 16 s.regs.feat.toNat ++ leBytes 8 (modestat s).toNat ++ leBytes 8 (syncstat s).toNat ++ leBytes 2 (clockMhz s) ++ leBytes 2 2000
    ++ leBytes 1 (cores.filter fun c => (s.core c).fenced).length ++ [(0 : Byte)] ++ leBytes 2 (liveCtxs s).length ++ leBytes 8 0
    ++ bitmap 128 (fun c => (s.core c).fenced) ++ bitmap 128 (fun c => (s.core c).transient) ++ leBytes 8 s.regs.evtcount ++ List.replicate 24 (0 : Byte)
    ++ cores.flatMap (fun c => match (s.core c).temp with | some t => temp2 t | none => leBytes 2 0x8000)

/-- The entry of a slice: hottest sample among good sensors, multiplier, flags. -/
def sumSlice (s : State) (k : Nat) : List Byte :=
  let good := (List.range 16).filterMap fun i => let x := s.sensor (16 * k + i); if x.st == 0 then some x.latest else none
  (match good with | a :: t => temp2 (t.foldl max a) | [] => leBytes 2 0x8000) ++ [BitVec.ofNat 8 (sliceMult s k), BitVec.ofNat 8 (sliceFlags s k)]

def sumQueue (s : State) (q : Nat) : List Byte :=
  let x := s.queue q
  [BitVec.ofNat 8 (x.status + if x.ovr then 128 else 0), BitVec.ofNat 8 (qdesc s q).prio] ++ leBytes 2 (s.gangs.filter fun y => y.st == .resident && !y.fill && y.queue == q).length
    ++ leBytes 4 x.pending ++ leBytes 8 x.late

/-- The pending faults (R449): paths parked on translation, and the faults that handlers run for. -/
def pendingFaults (s : State) : List (Nat × Nat × FaultRec) :=
  s.agents.flatMap fun x =>
    let ctx := (s.ctxOf x.gang).id
    (x.paths.filterMap fun p => match p.park with
      | some (.xlate m _ _ _) =>
        let r := p.bun.bind fun b => b.redo.head?
        some (x.num, ctx, { code := 0x10, kind := 1, mask := (r.map (·.lanes)).getD p.xmask, info := m.va, pc := (r.map (·.pc)).getD p.pc, sup := x.sup })
      | _ => none)
    ++ (match x.inTrap with | some (_, f) => [(x.num, ctx, f)] | none => [])

def faultBytes (f : Nat × Nat × FaultRec) : List Byte :=
  leBytes 4 f.1 ++ [BitVec.ofNat 8 f.2.2.code, BitVec.ofNat 8 f.2.1, 0, 0] ++ leBytes 8 f.2.2.pc.toNat ++ leBytes 8 f.2.2.info.toNat ++ leBytes 4 f.2.2.mask.toNat ++ leBytes 4 0

def sumCtx (s : State) (c : Nat) : List Byte :=
  let gs := s.gangs.filter fun y => y.ctx == c
  let xs := s.agents.filter fun x => (s.ctxOf x.gang).id == c && !x.ended
  let parked (p : Path) : Bool := match p.park with | some (.xlate ..) => true | _ => false
  [BitVec.ofNat 8 (((s.ctx? c).map (·.cstate)).getD 0), 0]
    ++ leBytes 2 (gs.filter fun y => y.st == .resident && !y.fill).length ++ leBytes 2 (gs.filter fun y => y.st == .saved).length ++ leBytes 2 (gs.filter fun y => y.st == .suspended).length
    ++ leBytes 2 (gs.filter fun y => y.ckId.isSome).length ++ leBytes 2 (s.fills.filter fun f => f.ctx == c).length
    ++ leBytes 2 (xs.foldl (fun n x => n + (x.paths.filter parked).length) 0) ++ leBytes 2 (xs.foldl (fun n x => n + if x.inTrap.isSome then (x.paths.filter fun p => p.st != .free && !p.trapHeld).length else 0) 0) ++ List.replicate 16 (0 : Byte)

/-- A section padded to its place. -/
def padTo (n : Nat) (b : List Byte) : List Byte := b ++ List.replicate (n - b.length) 0

/-- R449: the summary, with DONE still zero. -/
def summary (s : State) (seqn : Nat) : List Byte :=
  let b := sumHeader s seqn ++ (List.range 64).flatMap (sumSlice s) ++ (List.range 128).flatMap fun c => leBytes 2 (min 65535 (s.core c).corrected)
  let b := padTo 0x1000 b ++ (List.range 4096).flatMap (sumQueue s) ++ (List.range 256).flatMap (sumCtx s)
  padTo 0x20000 (padTo 0x1B000 (b ++ ((pendingFaults s).take 1024).flatMap faultBytes) ++ s.events.flatMap eventBytes)

/-- RESYNC (R448, R449): the summary is written, DONE last. (DEDUCED, log 115) -/
def execResync (val : BitVec 64) (s : State) : Host.Outcome State Fault Refusal :=
  let s := barWrite s
  let a := val.toNat
  if a % 4096 != 0 || a == 0 then event s
  else
    let n := s.regs.resyncSeq + 1
    let s := { s with regs := { s.regs with resyncSeq := n } }
    let s := storeDevice s .host a (summary s n)
    event { storeDevice s .host (a + 56) (leBytes 8 n) with fresh := s.fresh + 1 }

/-! ## A host write by its offset -/

/-- What a write of a 64-bit register does, by its offset in BAR0 (R404, R415, R421, R464): the meaning of the event that the
offset has, or that of a plain write. -/
def State.hostWrite (s : State) (off : Nat) (v : Dword) : Host.Outcome State Fault Refusal :=
  let n := v.toNat
  match off with
  | 0x10 => execFeatacceptWrite false v s
  | 0x18 => execFeatacceptWrite true v s
  | 0x20 => execModectlWrite v s
  | 0x48 => if bitsOf n 9 8 == 1 then execCtxCreate (n % 256) s else if bitsOf n 9 8 == 2 then execCtxDestroy (n % 256) s else event (barWrite s)
  | 0x50 =>
    let asn := bitsOf n 13 2
    if n % 4 == 0 then execHostTlbiVa asn s.regs.tlbiLo s.regs.tlbiLen s else if n % 4 == 1 then execHostTlbiAsn asn s
    else if n % 4 == 2 then execHostTlbiAll s else event (barWrite s)
  | 0x68 => execWtringWrite false v s
  | 0x70 => execWtringWrite true v s
  | 0x78 => execWakeopen false v s
  | 0x80 => execWakeopen true v s
  | 0x88 => execFlip v s
  | 0x90 => execMeasext v s
  | 0xA0 => execResync v s
  | 0xB0 => execWtridxWrite v s
  | 0x30000 => execTrctlWrite v s
  | 0x30100 =>
    let agent := n % 65536
    let path := bitsOf n 18 16
    let ctx := bitsOf n 31 24
    match bitsOf n 20 19 with
    | 0 => execStoprelRelease ctx agent path s
    | 1 => execStoprelStep ctx agent path s
    | 2 => execStoprelAll ctx s
    | _ => event (barWrite s)
  | 0x60000 => execStallclr s
  | _ =>
    if 0x30040 ≤ off && off < 0x30060 then execStoparmWrite ((off - 0x30040) / 8) v s
    else if 0x10000 ≤ off && off < 0x20000 then
      let q := (off - 0x10000) / 16
      if off % 16 == 0 then execTailDoorbell q v s
      else if n == 1 then execQueueEnable q s else if n == 2 then execQueueDisable q s else event (barWrite s)
    else if off == 0x70000 || off == 0x78000 then execPctlWrite ((off - 0x70000) / 0x8000) v s
    else if 0x80000 ≤ off && off < 0x84000 && off % 0x1000 == 0 then execDpctlEnable ((off - 0x80000) / 0x1000) v s
    else if 0x80000 ≤ off && off < 0x84000 && off % 0x1000 == 0x40 then
      let o := (off - 0x80000) / 0x1000
      match bitsOf n 23 20 with
      | 8 => execAuxNativeWrite o v s
      | 9 => execAuxNativeRead o v s
      | 0 => execAuxI2cWrite o v s
      | 1 => execAuxI2cRead o v s
      | 4 => execAuxI2cWriteMot o v s
      | 5 => execAuxI2cReadMot o v s
      | _ => event (barWrite s)
    else execRegisterWrite off v s

end Sys2Proof.Machine
end

