-- ==== Sys2Proof/Machine/IntArith.lean ====
section
/-! DEFINITION. Integer, address, logic, bit-field, move, predicate and cross-lane instructions (R137-R147). -/

namespace Sys2Proof.Machine

/-! ## Integer arithmetic (R137, R138) -/

/-- An integer result under a type: clamped and flagged with `.sat`, wrapped without it. -/
def intOut (t : Ty) (sat : Bool) (x : Int) : LaneOut :=
  if sat then
    let (c, out) := clampTo t x
    .ofNat (wrap t.width c) (if out then flSat else 0)
  else .ofNat (wrap t.width x)

/-- An instruction with one integer result of type `out` in D, computed in each lane from the captured sources. -/
def intOp (s : State) (g : Ctl) (var : Bool) (out : Ty) (d : Nat) (sat : Bool) (srcs : List (Nat × Nat))
    (f : Regs → Nat → Int) : Host.Outcome State Fault Refusal :=
  let rs := (d, out.nregs) :: srcs
  instr s g (if var then needS rs else needInt rs) fun k s =>
    put var k s g d (out.bytes == 8) fun l => intOut out sat (f k.src l)

/-- A and B under one type, the result under it too. -/
def intAB (s : State) (g : Ctl) (var : Bool) (t : Ty) (d a : Nat) (b : Src) (sat : Bool) (f : Int → Int → Int) :
    Host.Outcome State Fault Refusal :=
  intOp s g var t d sat ((a, t.nregs) :: b.names t.nregs) fun r l => f (intAt r t a l) (b.int r t l)

/-- A, B and C under one type. -/
def intABC (s : State) (g : Ctl) (t : Ty) (d a : Nat) (b : Src) (c : Nat) (sat : Bool) (f : Int → Int → Int → Int) :
    Host.Outcome State Fault Refusal :=
  intOp s g t.int64 t d sat ((a, t.nregs) :: (c, t.nregs) :: b.names t.nregs) fun r l =>
    f (intAt r t a l) (b.int r t l) (intAt r t c l)

/-- IMADW: A and B under a 32-bit type, C and D pairs of the same signedness. -/
def intWide (s : State) (g : Ctl) (t : Ty) (d a : Nat) (b : Src) (c : Nat) (sat : Bool) :
    Host.Outcome State Fault Refusal :=
  let w : Ty := if t == .s32 then .s64 else .n64
  intOp s g true w d sat ((a, 1) :: (c, 2) :: b.names 1) fun r l => intAt r t a l * b.int r t l + intAt r w c l

/-- LEA: a pair plus a shifted index. -/
def intLea (s : State) (g : Ctl) (t : Ty) (d a : Nat) (b : Src) (sh : Nat) : Host.Outcome State Fault Refusal :=
  intOp s g false .n64 d false ((a, 2) :: b.names 1) fun r l => intAt r .n64 a l + b.int r t l * 2 ^ sh

/-- The sum of the absolute differences of four packed bytes. -/
def sadBytes (a b : Nat) : Int :=
  (List.range 4).foldl (fun t k => t + (((a / 256 ^ k % 256 : Nat) : Int) - (b / 256 ^ k % 256 : Nat)).natAbs) 0

/-- R137: the high half of a product. -/
def mulHigh (t : Ty) (a b : Int) : Int := (a * b).fdiv (2 ^ t.width : Nat)

def execIadd (x : V3) (s : State) : Host.Outcome State Fault Refusal :=
  intAB s x.ctl false x.ty x.d.toNat x.a.toNat (srcV3 x) x.sat (· + ·)

def execIaddImm (x : VI) (s : State) : Host.Outcome State Fault Refusal :=
  intAB s x.ctl false x.ty x.d.toNat x.a.toNat (srcVI x) x.sat (· + ·)

def execIsub (x : V3) (s : State) : Host.Outcome State Fault Refusal :=
  intAB s x.ctl false x.ty x.d.toNat x.a.toNat (srcV3 x) x.sat (· - ·)

def execIsubImm (x : VI) (s : State) : Host.Outcome State Fault Refusal :=
  intAB s x.ctl false x.ty x.d.toNat x.a.toNat (srcVI x) x.sat (· - ·)

/-- IADDC's step (R138): the result and the carry or borrow out. -/
def addCarry (sub carry : Bool) (a b : Nat) : Nat × Bool :=
  let c : Nat := if carry then 1 else 0
  if sub then (wrap 32 ((a : Int) - b - c), decide ((a : Int) - b - c < 0)) else ((a + b + c) % 2 ^ 32, decide (a + b + c ≥ 2 ^ 32))

/-- IADDC (R138): the predicate named by C gives the carry in and takes the carry out. -/
def intCarry (s : State) (g : Ctl) (d a : Nat) (b : Src) (p : Nat) (sub : Bool) : Host.Outcome State Fault Refusal :=
  instr s g (needInt ((d, 1) :: (a, 1) :: b.names 1)) fun k s =>
    let out (l : Nat) := addCarry sub (k.src.pred p l) (k.src.get a l).toNat (b.raw k.src .n32 l)
    (k.writePred (k.write s d fun l => BitVec.ofNat 32 (out l).1) p fun l => (out l).2, .done)

def execIaddc (x : V3) (s : State) : Host.Outcome State Fault Refusal :=
  intCarry s x.ctl x.d.toNat x.a.toNat (srcV3 x) x.c.toNat (x.fl.getLsbD 0)

def execIaddcImm (x : VI) (s : State) : Host.Outcome State Fault Refusal :=
  intCarry s x.ctl x.d.toNat x.a.toNat (srcVI x) x.c.toNat (x.fl.getLsbD 0)

def execImin (x : V3) (s : State) : Host.Outcome State Fault Refusal :=
  intAB s x.ctl false x.ty x.d.toNat x.a.toNat (srcV3 x) false min

def execIminImm (x : VI) (s : State) : Host.Outcome State Fault Refusal :=
  intAB s x.ctl false x.ty x.d.toNat x.a.toNat (srcVI x) false min

def execImax (x : V3) (s : State) : Host.Outcome State Fault Refusal :=
  intAB s x.ctl false x.ty x.d.toNat x.a.toNat (srcV3 x) false max

def execImaxImm (x : VI) (s : State) : Host.Outcome State Fault Refusal :=
  intAB s x.ctl false x.ty x.d.toNat x.a.toNat (srcVI x) false max

def execIabs (x : V3) (s : State) : Host.Outcome State Fault Refusal :=
  intOp s x.ctl false x.ty x.d.toNat x.sat [(x.a.toNat, 1)] fun r l => (intAt r x.ty x.a.toNat l).natAbs

def execSad (x : V3) (s : State) : Host.Outcome State Fault Refusal :=
  intOp s x.ctl false .n32 x.d.toNat false [(x.a.toNat, 1), (x.b.toNat, 1), (x.c.toNat, 1)] fun r l =>
    let c : Int := intAt r .n32 x.c.toNat l
    if x.ty == .n8 then c + sadBytes (r.get x.a.toNat l).toNat (r.get x.b.toNat l).toNat
    else c + (intAt r x.ty x.a.toNat l - intAt r x.ty x.b.toNat l).natAbs

def execLea (x : V3) (s : State) : Host.Outcome State Fault Refusal :=
  intLea s x.ctl x.ty x.d.toNat x.a.toNat (srcV3 x) x.fl.toNat

def execLeaImm (x : VI) (s : State) : Host.Outcome State Fault Refusal :=
  intLea s x.ctl x.ty x.d.toNat x.a.toNat (srcVI x) x.fl.toNat

def execIadd64 (x : V3) (s : State) : Host.Outcome State Fault Refusal :=
  intAB s x.ctl false x.ty x.d.toNat x.a.toNat (srcV3 x) x.sat (· + ·)

def execIadd64Imm (x : VI) (s : State) : Host.Outcome State Fault Refusal :=
  intAB s x.ctl false x.ty x.d.toNat x.a.toNat (srcVI x) x.sat (· + ·)

def execImul (x : V3) (s : State) : Host.Outcome State Fault Refusal :=
  intAB s x.ctl x.ty.int64 x.ty x.d.toNat x.a.toNat (srcV3 x) x.sat (· * ·)

def execImulImm (x : VI) (s : State) : Host.Outcome State Fault Refusal :=
  intAB s x.ctl x.ty.int64 x.ty x.d.toNat x.a.toNat (srcVI x) x.sat (· * ·)

def execImulh (x : V3) (s : State) : Host.Outcome State Fault Refusal :=
  intAB s x.ctl x.ty.int64 x.ty x.d.toNat x.a.toNat (srcV3 x) false (mulHigh x.ty)

def execImulhImm (x : VI) (s : State) : Host.Outcome State Fault Refusal :=
  intAB s x.ctl x.ty.int64 x.ty x.d.toNat x.a.toNat (srcVI x) false (mulHigh x.ty)

def execImad (x : V3) (s : State) : Host.Outcome State Fault Refusal :=
  intABC s x.ctl x.ty x.d.toNat x.a.toNat (srcV3 x) x.c.toNat x.sat fun a b c => a * b + c

def execImadImm (x : VI) (s : State) : Host.Outcome State Fault Refusal :=
  intABC s x.ctl x.ty x.d.toNat x.a.toNat (srcVI x) x.c.toNat x.sat fun a b c => a * b + c

def execImadw (x : V3) (s : State) : Host.Outcome State Fault Refusal :=
  intWide s x.ctl x.ty x.d.toNat x.a.toNat (srcV3 x) x.c.toNat x.sat

def execImadwImm (x : VI) (s : State) : Host.Outcome State Fault Refusal :=
  intWide s x.ctl x.ty x.d.toNat x.a.toNat (srcVI x) x.c.toNat x.sat

/-! ## Shifts, logic and bit fields (R139-R143) -/

/-- R139: the count is one register or the immediate, whatever the type. -/
def shiftOp (s : State) (g : Ctl) (t : Ty) (d a : Nat) (b : Src) (f : Nat → Nat → Int) : Host.Outcome State Fault Refusal :=
  intOp s g false t d false ((a, t.nregs) :: b.names 1) fun r l => f (rawOf r t a l) (b.word r l).toNat

def shlOf (t : Ty) (a n : Nat) : Int := if n ≥ t.width then 0 else a * 2 ^ n
def shrOf (t : Ty) (a n : Nat) : Int := if n ≥ t.width then 0 else a / 2 ^ n
def sarOf (t : Ty) (a n : Nat) : Int := (intOf t a).fdiv (2 ^ min n (t.width - 1) : Nat)
def rotOf (a n : Nat) : Int := a * 2 ^ (n % 32) + a / 2 ^ (32 - n % 32)

def execShl (x : V3) (s : State) : Host.Outcome State Fault Refusal :=
  shiftOp s x.ctl x.ty x.d.toNat x.a.toNat (srcV3 x) (shlOf x.ty)

def execShlImm (x : VI) (s : State) : Host.Outcome State Fault Refusal :=
  shiftOp s x.ctl x.ty x.d.toNat x.a.toNat (srcVI x) (shlOf x.ty)

def execShr (x : V3) (s : State) : Host.Outcome State Fault Refusal :=
  shiftOp s x.ctl x.ty x.d.toNat x.a.toNat (srcV3 x) (shrOf x.ty)

def execShrImm (x : VI) (s : State) : Host.Outcome State Fault Refusal :=
  shiftOp s x.ctl x.ty x.d.toNat x.a.toNat (srcVI x) (shrOf x.ty)

def execSar (x : V3) (s : State) : Host.Outcome State Fault Refusal :=
  shiftOp s x.ctl x.ty x.d.toNat x.a.toNat (srcV3 x) (sarOf x.ty)

def execSarImm (x : VI) (s : State) : Host.Outcome State Fault Refusal :=
  shiftOp s x.ctl x.ty x.d.toNat x.a.toNat (srcVI x) (sarOf x.ty)

def execRot (x : V3) (s : State) : Host.Outcome State Fault Refusal :=
  shiftOp s x.ctl x.ty x.d.toNat x.a.toNat (srcV3 x) rotOf

def execRotImm (x : VI) (s : State) : Host.Outcome State Fault Refusal :=
  shiftOp s x.ctl x.ty x.d.toNat x.a.toNat (srcVI x) rotOf

/-- Raw bits of A and B under one type. -/
def logicOp (s : State) (g : Ctl) (t : Ty) (d a : Nat) (b : Src) (f : Dword → Dword → Dword) : Host.Outcome State Fault Refusal :=
  intOp s g false t d false ((a, t.nregs) :: b.names t.nregs) fun r l =>
    (f (BitVec.ofNat 64 (rawOf r t a l)) (BitVec.ofNat 64 (b.raw r t l))).toNat

def execAnd (x : V3) (s : State) : Host.Outcome State Fault Refusal :=
  logicOp s x.ctl x.ty x.d.toNat x.a.toNat (srcV3 x) (· &&& ·)

def execAndImm (x : VI) (s : State) : Host.Outcome State Fault Refusal :=
  logicOp s x.ctl x.ty x.d.toNat x.a.toNat (srcVI x) (· &&& ·)

def execOr (x : V3) (s : State) : Host.Outcome State Fault Refusal :=
  logicOp s x.ctl x.ty x.d.toNat x.a.toNat (srcV3 x) (· ||| ·)

def execOrImm (x : VI) (s : State) : Host.Outcome State Fault Refusal :=
  logicOp s x.ctl x.ty x.d.toNat x.a.toNat (srcVI x) (· ||| ·)

def execXor (x : V3) (s : State) : Host.Outcome State Fault Refusal :=
  logicOp s x.ctl x.ty x.d.toNat x.a.toNat (srcV3 x) (· ^^^ ·)

def execXorImm (x : VI) (s : State) : Host.Outcome State Fault Refusal :=
  logicOp s x.ctl x.ty x.d.toNat x.a.toNat (srcVI x) (· ^^^ ·)

/-- The words of 32 bits that A, B and C make into one: the operation of LOP3, BFI and PRMT. -/
def word3 (s : State) (g : Ctl) (d a : Nat) (b : Src) (c : Nat) (f : Word → Word → Word → Word) : Host.Outcome State Fault Refusal :=
  intOp s g false .b32 d false ((a, 1) :: (c, 1) :: b.names 1) fun r l => (f (r.get a l) (b.word r l) (r.get c l)).toNat

/-- R140: the truth table applied bit by bit, A the low index bit; each table bit stands for one minterm. -/
def lop3Of (tt : BitVec 8) (a b c : Word) : Word :=
  (List.range 8).foldl (fun x i =>
    if tt.getLsbD i then
      x ||| ((if i % 2 == 1 then a else ~~~a) &&& (if i / 2 % 2 == 1 then b else ~~~b) &&& (if i / 4 == 1 then c else ~~~c))
    else x) 0

def execLop3 (x : V3) (s : State) : Host.Outcome State Fault Refusal :=
  word3 s x.ctl x.d.toNat x.a.toNat (srcV3 x) x.c.toNat (lop3Of (x.opx.extractLsb' 0 8))

def execLop3Imm (x : VI) (s : State) : Host.Outcome State Fault Refusal :=
  word3 s x.ctl x.d.toNat x.a.toNat (srcVI x) x.c.toNat (lop3Of x.bctl)

/-- R141: a count over the W bits of a. -/
def countOp (s : State) (x : V3) (f : Nat → Nat → Nat) : Host.Outcome State Fault Refusal :=
  intOp s x.ctl false .b32 x.d.toNat false [(x.a.toNat, x.ty.nregs)] fun r l => f x.ty.width (rawOf r x.ty x.a.toNat l)

def popcOf (w a : Nat) : Nat := (List.range w).foldl (fun n i => n + a / 2 ^ i % 2) 0
def clzOf (w a : Nat) : Nat := if a == 0 then w else w - 1 - Nat.log2 a
def ctzOf (w a : Nat) : Nat := ((List.range w).find? fun i => a / 2 ^ i % 2 == 1).getD w
def brevOf (w a : Nat) : Nat := (List.range w).foldl (fun n i => n + a / 2 ^ (w - 1 - i) % 2 * 2 ^ i) 0

def execPopc (x : V3) (s : State) : Host.Outcome State Fault Refusal := countOp s x popcOf
def execClz (x : V3) (s : State) : Host.Outcome State Fault Refusal := countOp s x clzOf
def execCtz (x : V3) (s : State) : Host.Outcome State Fault Refusal := countOp s x ctzOf

def execBrev (x : V3) (s : State) : Host.Outcome State Fault Refusal :=
  intOp s x.ctl false x.ty x.d.toNat false [(x.a.toNat, x.ty.nregs)] fun r l => brevOf x.ty.width (rawOf r x.ty x.a.toNat l)

/-- R142: position and length of a bit field. -/
def fieldPos (b : Word) : Nat := b.toNat % 256
def fieldLen (b : Word) : Nat := min (b.toNat / 256 % 256) 32

/-- BFX (R142). -/
def bfxOf (t : Ty) (a : Nat) (b : Word) : Int :=
  let len := fieldLen b
  let f := wrap len ((intOf t a).fdiv (2 ^ fieldPos b : Nat))
  if t == .s32 && len > 0 && f / 2 ^ (len - 1) % 2 == 1 then (f : Int) - (2 ^ len : Nat) else f

def bitFieldX (s : State) (g : Ctl) (t : Ty) (d a : Nat) (b : Src) : Host.Outcome State Fault Refusal :=
  intOp s g false t d false ((a, 1) :: b.names 1) fun r l => bfxOf t (rawOf r t a l) (b.word r l)

def execBfx (x : V3) (s : State) : Host.Outcome State Fault Refusal := bitFieldX s x.ctl x.ty x.d.toNat x.a.toNat (srcV3 x)
def execBfxImm (x : VI) (s : State) : Host.Outcome State Fault Refusal := bitFieldX s x.ctl x.ty x.d.toNat x.a.toNat (srcVI x)

/-- BFI (R142). -/
def bfiOf (a b c : Word) : Word :=
  let pos := fieldPos b
  let m : Word := BitVec.ofNat 32 ((2 ^ fieldLen b - 1) * 2 ^ pos)
  (c &&& ~~~m) ||| (BitVec.ofNat 32 (a.toNat * 2 ^ pos) &&& m)

def execBfi (x : V3) (s : State) : Host.Outcome State Fault Refusal :=
  word3 s x.ctl x.d.toNat x.a.toNat (srcV3 x) x.c.toNat bfiOf

def execBfiImm (x : VI) (s : State) : Host.Outcome State Fault Refusal :=
  word3 s x.ctl x.d.toNat x.a.toNat (srcVI x) x.c.toNat bfiOf

/-- One byte of PRMT (R143): chosen by bits 2:0, and what is written by bits 4:3. -/
def prmtByte (sel : Nat) (y : Dword) : Byte :=
  let z : Byte := y.extractLsb' (8 * (sel % 8)) 8
  match sel / 8 % 4 with
  | 0 => z
  | 1 => 0
  | 2 => if z.getLsbD 7 then 0xFF else 0
  | _ => 0xFF

def prmtOf (a b c : Word) : Word :=
  let y : Dword := c ++ a
  (List.range 4).foldl (fun x i => x ||| ((prmtByte (b.toNat / 256 ^ i % 256) y).zeroExtend 32 <<< (8 * i))) 0

def execPrmt (x : V3) (s : State) : Host.Outcome State Fault Refusal :=
  word3 s x.ctl x.d.toNat x.a.toNat (srcV3 x) x.c.toNat prmtOf

def execPrmtImm (x : VI) (s : State) : Host.Outcome State Fault Refusal :=
  word3 s x.ctl x.d.toNat x.a.toNat (srcVI x) x.c.toNat prmtOf

/-! ## Moves, selection and predicates (R144, R145) -/

def selOp (s : State) (g : Ctl) (t : Ty) (d a : Nat) (b : Src) (p : Nat) : Host.Outcome State Fault Refusal :=
  intOp s g false t d false ((a, t.nregs) :: b.names t.nregs) fun r l => if r.pred p l then rawOf r t a l else b.raw r t l

def execSel (x : V3) (s : State) : Host.Outcome State Fault Refusal := selOp s x.ctl x.ty x.d.toNat x.a.toNat (srcV3 x) x.c.toNat
def execSelImm (x : VI) (s : State) : Host.Outcome State Fault Refusal := selOp s x.ctl x.ty x.d.toNat x.a.toNat (srcVI x) x.c.toNat

def execMov (x : V3) (s : State) : Host.Outcome State Fault Refusal :=
  intOp s x.ctl false x.ty x.d.toNat false [(x.a.toNat, x.ty.nregs)] fun r l => rawOf r x.ty x.a.toNat l

def execMovi (x : VI) (s : State) : Host.Outcome State Fault Refusal :=
  intOp s x.ctl false x.ty x.d.toNat false [] fun _ _ => immRaw x.ty x.imm

/-- The comparison codes of ISET (R145). -/
def isetOf (cc : Nat) (a b : Int) : Bool :=
  match cc with
  | 0 => a == b
  | 1 => a != b
  | 2 => a < b
  | 3 => a ≤ b
  | 4 => a > b
  | _ => a ≥ b

def isetOp (s : State) (g : Ctl) (t : Ty) (p a : Nat) (b : Src) (cc : Nat) : Host.Outcome State Fault Refusal :=
  instr s g (needInt ((a, t.nregs) :: b.names t.nregs)) fun k s =>
    (k.writePred s p fun l => isetOf cc (intAt k.src t a l) (b.int k.src t l), .done)

def execIset (x : V3) (s : State) : Host.Outcome State Fault Refusal := isetOp s x.ctl x.ty x.d.toNat x.a.toNat (srcV3 x) x.fl.toNat
def execIsetImm (x : VI) (s : State) : Host.Outcome State Fault Refusal := isetOp s x.ctl x.ty x.d.toNat x.a.toNat (srcVI x) x.fl.toNat

def bit01 (b : Bool) : Nat := if b then 1 else 0

/-- PSET (R145). -/
def execPset (x : V3) (s : State) : Host.Outcome State Fault Refusal :=
  instr s x.ctl (needInt []) fun k s =>
    (k.writePred s x.d.toNat fun l =>
      x.opx.getLsbD (bit01 (k.src.pred x.a.toNat l) + 2 * bit01 (k.src.pred x.b.toNat l) + 4 * bit01 (k.src.pred x.c.toNat l)), .done)

/-- PMOV.TOV (R144). -/
def execPmovTov (x : V3) (s : State) : Host.Outcome State Fault Refusal :=
  instr s x.ctl (needInt [(x.d.toNat, 1)]) fun k s => (k.write s x.d.toNat fun l => (mget 0 k.src.p l).zeroExtend 32, .done)

/-- PMOV.FROMV (R144). -/
def execPmovFromv (x : V3) (s : State) : Host.Outcome State Fault Refusal :=
  instr s x.ctl (needInt [(x.a.toNat, 1)]) fun k s =>
    ((List.range 16).foldl (fun s p => k.writePred s p fun l => (k.src.get x.a.toNat l).getLsbD p) s, .done)

/-! ## Across the lanes (R146, R147) -/

/-- The source lane of SHFL (R146), if there is one. -/
def shflLane (fl : Nat) (l : Nat) (n : Word) : Option Nat :=
  let w := 32 / 2 ^ (fl / 4)
  let k := l % w
  let base := l - k
  match fl % 4 with
  | 0 => some (base + n.toNat % w)
  | 1 => let t := (k : Int) + n.toInt; if 0 ≤ t && t < w then some (base + t.toNat) else none
  | 2 => some (base + (((k : Int) + n.toInt) % w).toNat)
  | _ => some (base + (k ^^^ (n.toNat % w)))

def shflOp (s : State) (g : Ctl) (d a : Nat) (b : Src) (fl : Nat) : Host.Outcome State Fault Refusal :=
  instr s g { regs := (d, 1) :: (a, 1) :: b.names 1, pilot := false, base := 2, lane := 2 } fun k s =>
    (k.write s d fun l =>
      match shflLane fl l (b.word k.src l) with
      | some src => if k.xmask.getLsbD src then k.src.get a src else k.src.get a l
      | none => k.src.get a l, .done)

def execShfl (x : V3) (s : State) : Host.Outcome State Fault Refusal := shflOp s x.ctl x.d.toNat x.a.toNat (srcV3 x) x.fl.toNat
def execShflImm (x : VI) (s : State) : Host.Outcome State Fault Refusal := shflOp s x.ctl x.d.toNat x.a.toNat (srcVI x) x.fl.toNat

/-- The identity of a WRED operation (R147). -/
def wredId (op : Nat) (t : Ty) : Word :=
  match op, t with
  | 0, .f32 => 0x80000000
  | 0, _ => 0
  | 1, .s32 => 0x7FFFFFFF
  | 1, .n32 => 0xFFFFFFFF
  | 1, _ => qnan32
  | 2, .s32 => 0x80000000
  | 2, .n32 => 0
  | 2, _ => qnan32
  | 3, _ => 0xFFFFFFFF
  | _, _ => 0

/-- Combine (R147): the result and the flags of one node of the tree. An exact zero sum of .f32 has the sign that R148 gives. (DEDUCED, log 135) -/
def wredStep (op : Nat) (t : Ty) (mode : Mode) (x y : Word) : Word × Word :=
  if t == .f32 then
    match op with
    | 0 => let (b, fl) := roundWith (sumX mode [f32 x, f32 y]) fmtF32 mode false; (BitVec.ofNat 32 b, fl)
    | 1 => let (b, fl) := minmaxBits fmtF32 false x.toNat y.toNat; (BitVec.ofNat 32 b, fl)
    | _ => let (b, fl) := minmaxBits fmtF32 true x.toNat y.toNat; (BitVec.ofNat 32 b, fl)
  else
    let lt := intOf t x.toNat < intOf t y.toNat
    (match op with
      | 0 => x + y
      | 1 => if lt then x else y
      | 2 => if lt then y else x
      | 3 => x &&& y
      | 4 => x ||| y
      | _ => x ^^^ y, 0)

/-- One level of the fixed tree. -/
def wredPairs (f : Word → Word → Word × Word) : List Word → List Word × Word
  | x :: y :: t => let (r, fl) := wredPairs f t; let (z, g) := f x y; (z :: r, fl ||| g)
  | l => (l, 0)

/-- The fixed tree over 32 lanes (R147). -/
def wredTree (f : Word → Word → Word × Word) (xs : List Word) : Word × Word :=
  let (l, fl) := (List.range 5).foldl (fun (l, fl) _ => let (l', g) := wredPairs f l; (l', fl ||| g)) (xs, (0 : Word))
  (l.headD 0, fl)

/-- WRED (R147). (DEDUCED, log 28) -/
def execWred (x : V3) (s : State) : Host.Outcome State Fault Refusal :=
  instr s x.ctl { regs := [(x.d.toNat, 1), (x.a.toNat, 1)], pilot := false, base := 2, lane := 2 } fun k s =>
    let op := x.opx.toNat
    let xs := (List.range 32).map fun l => if k.lanes.getLsbD l then k.src.get x.a.toNat l else wredId op x.ty
    let (v, fl) := wredTree (wredStep op x.ty (modeOf x.rnd k.src.rnd)) xs
    if k.lanes == 0 then (s, .done)
    else
      let s := k.write s x.d.toNat fun _ => v
      (k.flags s fl (if trapping fl then k.lanes else 0), .done)

end Sys2Proof.Machine
end

