-- ==== Sys2Proof/Machine/Units.lean ====
section
/-! DEFINITION. What the intersection and sounding units share (R190-R193): reads of a query, queries by lane, and what the
instruction makes of their ends; and the FP32 values that the queries compute with (R194). -/

namespace Sys2Proof.Machine

/-! ## Reads of a query (R192, R193) -/

/-- Why a lane's query did not reach its end. -/
inductive UStop where
  | miss (m : Miss)
  | wait (resource : Bool)
  | perm (va : Nat)
  | poison (code va : Nat)
  | endless
  deriving DecidableEq, Repr

/-- A query of one lane: it changes the machine by its reads and may stop. -/
abbrev U := ExceptT UStop (StateM State)

/-- A stop of a query. -/
def U.stop (e : UStop) : U α := throw e

/-- A value that the specification leaves open. -/
def U.free : U Nat := modifyGet fun s => (Config.freeNat s.fresh, { s with fresh := s.fresh + 1 })

/-- Bytes of one line: one relaxed read at device agent scope and global storage scope (R192). -/
def unitLine (k : Iss) (va len : Nat) : U (List Byte) := do
  let s ← get
  let c := s.ctxOf k.gang
  match tr s c k.sup .read va with
  | .perm => U.stop (.perm va)
  | .miss m => U.stop (.miss m)
  | .ok sp a leaf =>
    if leaf.fmt != 0 then U.stop (.perm va)
    else
      let (rk, s) := if leaf.rk then rkLines s k.agent k.path c (leaf.pfn % 4096) [va / 128] else (.present, s)
      set s
      match rk with
      | .wait res => U.stop (.wait res)
      | .poison code => do
        set (poisonedLoad s k.agent)
        U.stop (.poison code va)
      | .present =>
        let s := touch s c va
        let s := if leaf.rk then raiseClock s k.agent c.asn (va / 128) else s
        let (r, s) := loadOrd s k.agent sp a len 1 3 1
        set s
        if r.poison then U.stop (.poison 0x12 va) else pure r.bytes

/-- Bytes from an address on, line by line. -/
def unitRead (k : Iss) (va len : Nat) : U (List Byte) :=
  (pieces (va % 2 ^ 64) (List.replicate len 0)).foldlM (fun acc p => do
    let bs ← unitLine k p.1 p.2.length
    pure (acc ++ bs)) []

/-- What a lane's query left: its register values by offset, the flags in MEMSTAT, and its trap. -/
structure LaneQ where
  regs : List (Nat × Nat)
  mem : Word := 0
  trap : Option (Nat × Nat) := none
  deriving DecidableEq, Repr

/-- Register values where some are open. -/
def U.fill (rs : List (Nat × Option Nat)) : U (List (Nat × Nat)) :=
  rs.mapM fun (i, v) => match v with
    | some x => pure (i, x)
    | none => do let x ← U.free; pure (i, x)

/-- The lanes of a unit instruction, ascending, with what became of each. Every read of the instruction is made in one step, so that no
other agent's store falls between two of them. (DESIGN CHOICE, log 151) -/
def queryLanes (s : State) (k : Iss) (q : Nat → U LaneQ) : List (Nat × Except UStop LaneQ) × State :=
  (lanesOf k.lanes).foldl (fun (rs, s) l => let (r, s) := (q l).run s; (rs ++ [(l, r)], s)) (([] : List (Nat × Except UStop LaneQ)), s)

/-- A lane whose query reached its end. -/
def laneDone (r : Nat × Except UStop LaneQ) : Option (Nat × LaneQ) := match r.2 with | .ok q => some (r.1, q) | .error _ => none
def lanePerm (r : Nat × Except UStop LaneQ) : Option Nat := match r.2 with | .error (.perm va) => some va | _ => none
def laneMiss (r : Nat × Except UStop LaneQ) : Option (Nat × Miss) := match r.2 with | .error (.miss m) => some (r.1, m) | _ => none
def laneWait (r : Nat × Except UStop LaneQ) : Option (Nat × Bool) := match r.2 with | .error (.wait w) => some (r.1, w) | _ => none

/-- Whether a lane's query never ends. -/
def laneEndless (r : Nat × Except UStop LaneQ) : Bool := match r.2 with | .error .endless => true | _ => false

/-- A unit instruction (R190, R193): every lane runs its query; a page that refuses a read faults the instruction and
nothing of it happened; nor does an instruction complete of which a lane's query never ends (log 37); lanes that miss or wait run again from their start; the others complete. With `reject`, which may refuse the instruction for what
any lane found, no lane writes before every lane's end is known (R208). `why` is what a wait for the result is charged to (R222). (DEDUCED, log 42) -/
def unitRun (s : State) (k : Iss) (g : Ctl) (d why : Nat) (reject : Option (List (Nat × LaneQ) → Option (Nat × Word))) (q : Nat → U LaneQ) : State × Fate :=
  let (rs, t) := queryLanes s k q
  match (rs.filterMap lanePerm).head? with
  | some va => (s, .fault 0x11 k.lanes (BitVec.ofNat 64 va))
  | none =>
    if rs.any laneEndless then (s, .hold) else
    let ok := rs.filterMap laneDone
    let blocked : Blocked := { miss := rs.filterMap laneMiss, wait := rs.filterMap laneWait }
    match reject.bind fun f => f ok with
    | some (code, m) => (s, .fault code m 0)
    | none =>
      let trapped (code : Nat) : List (Nat × Nat) := ok.filterMap fun (l, r) => match r.trap with | some (c, va) => if c == code then some (l, va) else none | none => none
      let res : Result := { writes := ok.flatMap fun (l, r) => r.regs.map fun (i, v) => (32 * (d + i) + l, BitVec.ofNat 32 v)
                            mem := ok.foldl (fun m (_, r) => m ||| r.mem) 0
                            why := why
                            traps := [0x12, 0x13, 0x14].flatMap fun c => lanesTrap c (trapped c) }
      if reject.isSome && blocked.lanes != 0 then
        match parkOrDone t k blocked with
        | (t, .park _ why) => (t, .park k.lanes why)
        | r => r
      else parkOrDone (if ok.isEmpty then t else k.later t g res) k blocked

/-- A query whose reads may deliver poison: `f` gives the registers of status FAULT (R193). -/
def poisoned (q : U LaneQ) (f : U (List (Nat × Nat))) : U LaneQ :=
  tryCatch q fun e => match e with
    | .poison code va => do let rs ← f; pure { regs := rs, mem := 1, trap := some (code, va) }
    | e => U.stop e

def needUnit (rs : List (Nat × Nat)) (feature : Nat) : Need := { regs := rs, pilot := false, feature := some feature, base := 8, lane := 40 }

/-! ## Values (R194) -/

/-- An exact value rounded to FP32 in a mode. -/
def rndX (x : X) (mode : Mode) : X := fmtF32.value (roundFmt x fmtF32 mode false).1

/-- FP32 at an offset of a list of bytes. -/
def fAt (bs : List Byte) (off : Nat) : X := fmtF32.value (leField bs off 4)
def f3At (bs : List Byte) (off : Nat) : List X := [fAt bs off, fAt bs (off + 4), fAt bs (off + 8)]

def leX (a b : X) : Bool := !a.isNan && !b.isNan && cmpX a b ≤ 0
def ltX (a b : X) : Bool := !a.isNan && !b.isNan && cmpX a b < 0
def maxX (a b : X) : X := if ltX a b then b else a
def minX (a b : X) : X := if ltX b a then b else a

/-- Exact sums and products; an exact zero has no sign of its own. -/
def X.plain : X → X | .zero _ => .zero false | x => x
def plusX (a b : X) : X := (sumX 0 [a, b]).1.plain
def subX (a b : X) : X := plusX a b.negate
def timesX (a b : X) : X := (mulX a b).1.plain
def divXQ (a : X) (d : Q) : X := timesX a (X.ofQ d.inv)

/-- The number of a value that is one. -/
def finQ : X → Option Q
  | .fin q => some q
  | .zero _ => some (Q.ofInt 0)
  | _ => none

/-- A number rounded to FP32, where that is finite. -/
def roundQ (q : Q) : Option Q := finQ (rnd32X (X.ofQ q))

def bitsX (x : X) : Nat := (toF32 x).toNat

def inf32 : Nat := 0x7F800000
def ones32 : Nat := 0xFFFFFFFF

def at3 (l : List α) (d : α) (i : Nat) : α := l.getD i d
def qAt (l : List Q) (i : Nat) : Q := l.getD i (Q.ofInt 0)
def xAt (l : List X) (i : Nat) : X := l.getD i (.zero false)

end Sys2Proof.Machine
end

