-- ==== Sys2Proof/Machine/Rays.lean ====
section
/-! DEFINITION. The intersection unit (R194-R209): rays, the box and triangle tests, displaced patches, traversal, hit
records, and RAYQ, RAYW, RAYH and PTCH. -/

namespace Sys2Proof.Machine

/-! ## Rays and tests (R194-R196) -/

/-- A ray in the space where it is tested. -/
structure Ray where
  o : List Q
  d : List Q
  tmin : X
  tmax : X
  deriving DecidableEq, Repr

/-- R194: the ray of eight FP32 values (o, tmin, d, tmax); none when it is invalid. -/
def rayOf (v : List X) : Option Ray :=
  let o := [xAt v 0, xAt v 1, xAt v 2]
  let d := [xAt v 4, xAt v 5, xAt v 6]
  match o.mapM finQ, d.mapM finQ with
  | some oq, some dq =>
    if (xAt v 3).isNan || (xAt v 7).isNan || dq.all Q.isZero || ltX (xAt v 7) (xAt v 3) then none
    else some { o := oq, d := dq, tmin := xAt v 3, tmax := xAt v 7 }
  | _, _ => none

/-- One axis of R195. -/
def boxAxis (lo hi o : X) (d : Q) (nf : X × X) : Option (X × X) :=
  if d.isZero then if leX lo o && leX o hi then some nf else none
  else
    let q1 := divXQ (subX lo o) d
    let q2 := divXQ (subX hi o) d
    some (maxX nf.1 (rndX (minX q1 q2) 3), minX nf.2 (rndX (maxX q1 q2) 2))

/-- BoxTest (R195): the entry distance and the exit f, or a miss. -/
def boxTest (lo hi o : List X) (d : List Q) (tmin tb : X) : Option (X × X) :=
  if [0, 1, 2].any fun a => !leX (xAt lo a) (xAt hi a) then none
  else
    let r := [0, 1, 2].foldl (fun (acc : Option (X × X)) a => acc.bind (boxAxis (xAt lo a) (xAt hi a) (xAt o a) (qAt d a))) (some (tmin, tb))
    r.bind fun nf => if leX nf.1 nf.2 then some nf else none

/-- What TriTest returns for a hit (R196). -/
structure Tri where
  t : X
  u : X
  v : X
  front : Bool
  deriving DecidableEq, Repr

/-- The axes of R196: kx, ky, kz. -/
def triAxes (d : List Q) : Nat × Nat × Nat :=
  let a (i : Nat) : Q := (qAt d i).abs
  let kz := if (a 0).lt (a 1) then (if (a 1).lt (a 2) then 2 else 1) else (if (a 0).lt (a 2) then 2 else 0)
  let kx := (kz + 1) % 3
  let ky := (kx + 1) % 3
  if (qAt d kz).isNeg then (ky, kx, kz) else (kx, ky, kz)

/-- A vertex sheared into the ray's space (R196); none when it is not finite. -/
def shear (o : List Q) (sx sy sz : Q) (k : Nat × Nat × Nat) (p : List X) : Option (Q × Q × Q) := do
  let px ← finQ (xAt p k.1)
  let py ← finQ (xAt p k.2.1)
  let pz ← finQ (xAt p k.2.2)
  let a ← roundQ (px.sub (qAt o k.1))
  let b ← roundQ (py.sub (qAt o k.2.1))
  let c ← roundQ (pz.sub (qAt o k.2.2))
  let x ← roundQ (a.sub (sx.mul c))
  let y ← roundQ (b.sub (sy.mul c))
  let z ← roundQ (sz.mul c)
  pure (x, y, z)

/-- TriTest (R196). -/
def triTest (ps : List (List X)) (o d : List Q) : Option Tri := do
  let k := triAxes d
  let dz := qAt d k.2.2
  let sx ← roundQ ((qAt d k.1).div dz)
  let sy ← roundQ ((qAt d k.2.1).div dz)
  let sz ← roundQ dz.inv
  let (x0, y0, z0) ← shear o sx sy sz k (ps.getD 0 [])
  let (x1, y1, z1) ← shear o sx sy sz k (ps.getD 1 [])
  let (x2, y2, z2) ← shear o sx sy sz k (ps.getD 2 [])
  let u := (x2.mul y1).sub (y2.mul x1)
  let v := (x0.mul y2).sub (y0.mul x2)
  let w := (x1.mul y0).sub (y1.mul x0)
  let zero := Q.ofInt 0
  if (u.isNeg || v.isNeg || w.isNeg) && (zero.lt u || zero.lt v || zero.lt w) then none
  else
    let det := (u.add v).add w
    if det.isZero then none
    else
      let sum := ((u.mul z0).add (v.mul z1)).add (w.mul z2)
      some { t := rnd32X (X.ofQ (sum.div det)), u := rnd32X (X.ofQ (v.div det)), v := rnd32X (X.ofQ (w.div det)), front := zero.lt det }

/-! ## Displaced patches (R200-R202) -/

/-- A patch record (R200). -/
structure Patch where
  b : List (List X)
  dd : List (List X)
  hmin : X
  hscale : X
  haddr : Nat
  baddr : Nat
  prim : Nat
  gidx : Nat
  flags : Nat
  lvl : Nat
  deriving DecidableEq, Repr

/-- A patch record's fields; none when it is malformed. -/
def patchOf (bs : List Byte) : Option Patch :=
  let lvl := leField bs 104 1
  if lvl ≥ 8 then none
  else some { b := [f3At bs 0, f3At bs 12, f3At bs 24], dd := [f3At bs 36, f3At bs 48, f3At bs 60], hmin := fAt bs 72, hscale := fAt bs 76,
              haddr := leField bs 80 8, baddr := leField bs 88 8, prim := leField bs 96 4, gidx := leField bs 100 3, flags := leField bs 103 1, lvl := lvl }

/-- R200: the height of a code. -/
def Patch.height (p : Patch) (q : Nat) : X := plusX p.hmin (timesX p.hscale (X.ofQ { num := q, den := 65535 }))

/-- A value interpolated between three corners at weights b1 and b2 (R201). -/
def lerp3 (v : List (List X)) (c : Nat) (b1 b2 : Q) : X :=
  let g (k : Nat) : X := xAt (v.getD k []) c
  plusX (plusX (g 0) (timesX (X.ofQ b1) (subX (g 1) (g 0)))) (timesX (X.ofQ b2) (subX (g 2) (g 0)))

/-- R201: the exact position of a point (i, j) of resolution n at height h. (DEDUCED, log 41) -/
def Patch.pos (p : Patch) (n i j : Nat) (h : X) : List X :=
  let b1 : Q := { num := i, den := n }
  let b2 : Q := { num := j, den := n }
  [0, 1, 2].map fun c => plusX (lerp3 p.b c b1 b2) (timesX h (lerp3 p.dd c b1 b2))

/-- The corners of an up or down triangle, in R201's order. -/
def corners (i j : Nat) (down : Bool) : List (Nat × Nat) :=
  if down then [(i + 1, j), (i + 1, j + 1), (i, j + 1)] else [(i, j), (i + 1, j), (i, j + 1)]

/-- The children of a sub-triangle, in order (R202). -/
def children (i j : Nat) (down : Bool) : List (Nat × Nat × Bool) :=
  if down then [(2 * i + 1, 2 * j, true), (2 * i + 1, 2 * j + 1, true), (2 * i, 2 * j + 1, true), (2 * i + 1, 2 * j + 1, false)]
  else [(2 * i, 2 * j, false), (2 * i + 1, 2 * j, false), (2 * i, 2 * j + 1, false), (2 * i, 2 * j, true)]

/-- Height codes of micro-vertices (R201). -/
def Patch.code (p : Patch) (k : Iss) (v : Nat × Nat) : U Nat := do
  let n := 2 ^ p.lvl
  let bs ← unitRead k (p.haddr + 2 * (v.2 * (n + 1) - v.2 * (v.2 - 1) / 2 + v.1)) 2
  pure (leNat bs)

/-- The vertices of a micro-triangle with their heights, rounded once (R201). -/
def Patch.micro (p : Patch) (k : Iss) (i j : Nat) (down : Bool) : U (List (List X × X)) :=
  (corners i j down).mapM fun v => do
    let h ← p.code k v
    let hx := p.height h
    pure ((p.pos (2 ^ p.lvl) v.1 v.2 hx).map rnd32X, hx)

/-- R202: the bound of a sub-triangle from its pyramid entry. -/
def Patch.bound (p : Patch) (k : Iss) (l i j : Nat) (down : Bool) : U (List X × List X) := do
  let bs ← unitRead k (p.baddr + 8 * ((4 ^ l - 1) / 3) + 4 * (2 * (j * 2 ^ l + i) + (if down then 1 else 0))) 4
  let pts := (corners i j down).flatMap fun v => [leField bs 0 2, leField bs 2 2].map fun q => p.pos (2 ^ l) v.1 v.2 (p.height q)
  let col (c : Nat) : List X := pts.map fun q => xAt q c
  let low (c : Nat) : X := if (col c).any X.isNan then .nan false else (col c).foldl minX (xAt (col c) 0)
  let high (c : Nat) : X := if (col c).any X.isNan then .nan false else (col c).foldl maxX (xAt (col c) 0)
  pure ([0, 1, 2].map fun c => rndX (low c) 3, [0, 1, 2].map fun c => rndX (high c) 2)

/-! ## Grids (R210) -/

/-- A grid descriptor's fields. -/
structure Grid where
  origin : List Q
  cs : Int
  ks : Nat
  has : Nat
  n : List Nat
  maj : Nat
  den : Nat
  occ : Nat
  seed : Word
  dscale : X
  deriving DecidableEq, Repr

/-- R210: a descriptor within its limits. (DEDUCED, log 36) -/
def gridOf (bs : List Byte) : Option Grid :=
  let cs := signedOf (leField bs 12 1) 8
  let n := [leField bs 16 2, leField bs 18 2, leField bs 20 2]
  match (f3At bs 0).mapM finQ with
  | none => none
  | some og =>
    if -64 ≤ cs && cs ≤ 63 && leField bs 13 1 ≤ 3 && n.all (fun x => 1 ≤ x && x ≤ 1024) then
      some { origin := og, cs := cs, ks := leField bs 13 1, has := leField bs 14 1, n := n, maj := leField bs 24 8, den := leField bs 32 8, occ := leField bs 40 8, seed := BitVec.ofNat 32 (leField bs 48 4), dscale := fAt bs 52 }
    else none

/-- The box of a grid in the space of its origin (R199). -/
def Grid.box (g : Grid) : List X × List X :=
  (g.origin.map X.ofQ, [0, 1, 2].map fun a => X.ofQ ((qAt g.origin a).add ((Q.ofInt (g.n.getD a 0)).shift g.cs)))

/-! ## Traversal (R197-R199, R203) -/

/-- An instance under way: its id and shader-table offset. -/
structure Inst where
  id : Nat
  soff : Nat
  deriving DecidableEq, Repr

/-- What stands on the traversal's stack. -/
inductive Obj where
  | ref (r : Nat)
  | patch (va : Nat)
  | sub (p : Patch) (l i j : Nat) (down : Bool)
  deriving DecidableEq, Repr

structure Item where
  obj : Obj
  tn : X
  ray : Ray
  inst : Option Inst
  deriving DecidableEq, Repr

/-- A candidate that was taken. -/
structure Hit where
  tri : Tri
  prim : Nat
  gidx : Nat
  nopq : Bool
  kind : Nat
  micro : Nat
  inst : Option Inst
  deriving DecidableEq, Repr

/-- The flags of RAYQ and RAYW (R205). -/
structure RayFlags where
  any : Bool := false
  vol : Bool := false
  cullb : Bool := false
  cullf : Bool := false
  opq : Bool := false
  mask : Nat := 0
  deriving DecidableEq, Repr

/-- A traversal under way. -/
structure Trav where
  tbest : X
  best : Option Hit := none
  /-- the volume leaf found: its grid, entry and exit -/
  vol : Option (Nat × X × X) := none
  visits : Nat := 0
  stack : List Item := []
  deriving DecidableEq, Repr

/-- A reference's parts (R197). -/
def refType (r : Nat) : Nat := bitsOf r 6 4
def refCnt (r : Nat) : Nat := bitsOf r 3 0
def refAddr (r : Nat) : Nat := bitsOf r 56 7 * 128

/-- R197: a reference that is BADNODE. -/
def refBad (r : Nat) : Bool :=
  bitsOf r 63 57 != 0 || refType r ≥ 6 || ((refType r == 2 || refType r == 3) && !(1 ≤ refCnt r && refCnt r ≤ 8))

/-- R203's Candidate. -/
def candidate (f : RayFlags) (ray : Ray) (tv : Trav) (h : Hit) (nocull : Bool) (tri : Option Tri) : Trav × Bool :=
  if h.nopq && !f.opq then (tv, false)
  else match tri with
    | none => (tv, false)
    | some r =>
      if ltX r.t ray.tmin || !ltX r.t tv.tbest then (tv, false)
      else if !nocull && ((f.cullb && !r.front) || (f.cullf && r.front)) then (tv, false)
      else ({ tv with tbest := r.t, best := some { h with tri := r } }, f.any)

/-- A hit of a record before its test. -/
def hitOf (prim gidx flags kind micro : Nat) (inst : Option Inst) : Hit :=
  { tri := { t := .zero false, u := .zero false, v := .zero false, front := false }, prim := prim, gidx := gidx, nopq := bitOf flags 0, kind := kind, micro := micro, inst := inst }

/-- Hit children pushed so that they pop in ascending tn, equal tn in order; a push past 64 entries ends with LIMIT. -/
def pushSorted (tv : Trav) (hits : List (X × Item)) : Option Nat × Trav :=
  let place (x : X × Item) (l : List (X × Item)) : List (X × Item) :=
    let (a, b) := l.span fun y => !ltX x.1 y.1
    a ++ x :: b
  let sorted := hits.foldl (fun l x => place x l) []
  sorted.reverse.foldl (fun (e, tv) x => if e.isSome then (e, tv) else if tv.stack.length ≥ 64 then (some 3, tv) else (none, { tv with stack := { x.2 with tn := x.1 } :: tv.stack })) ((none : Option Nat), tv)

/-- A box node's children that the ray hits (R198). -/
def nodeHits (bs : List Byte) (ray : Ray) (tbest : X) : List (Nat × X × Nat) :=
  [0, 1, 2, 3].filterMap fun j =>
    let r := leField bs (32 * j + 24) 8
    if refType r == 0 then none
    else (boxTest (f3At bs (32 * j)) (f3At bs (32 * j + 12)) (ray.o.map X.ofQ) ray.d ray.tmin tbest).map fun nf => (j, nf.1, r)

/-- The records of a triangle leaf, in order (R198, R203). -/
def triLeaf (k : Iss) (f : RayFlags) (va : Nat) (it : Item) (skip : Nat → Bool) (tv : Trav) (cnt : Nat) : U (Option Nat × Trav) :=
  (List.range cnt).foldlM (fun acc i => match acc with
    | (some e, tv) => pure (some e, tv)
    | (none, tv) =>
      if skip i then pure (none, tv)
      else do
        let bs ← unitRead k (va + 48 * i) 48
        let fl := leField bs 43 1
        let (tv, stop) := candidate f it.ray tv (hitOf (leField bs 36 4) (leField bs 40 3) fl 0 ones32 it.inst) (bitOf fl 1) (triTest [f3At bs 0, f3At bs 12, f3At bs 24] it.ray.o it.ray.d)
        pure (if stop then some 1 else none, tv)) (none, tv)

/-- One micro-triangle (R201). -/
def microId (i j : Nat) (down : Bool) : Nat := i + 128 * j + (if down then 16384 else 0)

def microTest (k : Iss) (f : RayFlags) (p : Patch) (it : Item) (tv : Trav) (c : Nat × Nat × Bool) : U (Option Nat × Trav) := do
  if bitOf p.flags 0 && !f.opq then pure (none, tv)
  else
    let vs ← p.micro k c.1 c.2.1 c.2.2
    let (tv, stop) := candidate f it.ray tv (hitOf p.prim p.gidx p.flags 1 (microId c.1 c.2.1 c.2.2) it.inst) (bitOf p.flags 1) (triTest (vs.map (·.1)) it.ray.o it.ray.d)
    pure (if stop then some 1 else none, tv)

def micros (k : Iss) (f : RayFlags) (p : Patch) (it : Item) (tv : Trav) (cs : List (Nat × Nat × Bool)) : U (Option Nat × Trav) :=
  cs.foldlM (fun acc c => match acc with
    | (some e, tv) => pure (some e, tv)
    | (none, tv) => microTest k f p it tv c) (none, tv)

/-- A sub-triangle of a level below LVL: its children are micro-triangles, or are tested by their bounds (R202). -/
def visitSub (k : Iss) (f : RayFlags) (p : Patch) (l i j : Nat) (down : Bool) (it : Item) (tv : Trav) : U (Option Nat × Trav) := do
  let cs := children i j down
  if l + 1 ≥ p.lvl then micros k f p it tv cs
  else
    let hits ← cs.filterMapM fun c => do
      let (lo, hi) ← p.bound k (l + 1) c.1 c.2.1 c.2.2
      pure ((boxTest lo hi (it.ray.o.map X.ofQ) it.ray.d it.ray.tmin tv.tbest).map fun nf => (nf.1, { it with obj := .sub p (l + 1) c.1 c.2.1 c.2.2 }))
    pure (pushSorted tv hits)

/-- A patch entered at up (0, 0) of level 0 (R202); a malformed record ends with BADNODE. (DEDUCED, log 33) -/
def visitPatch (k : Iss) (f : RayFlags) (va : Nat) (it : Item) (tv : Trav) : U (Option Nat × Trav) := do
  let bs ← unitRead k va 128
  match patchOf bs with
  | none => pure (some 2, tv)
  | some p =>
    if p.lvl == 0 then micros k f p it tv [(0, 0, false)]
    else
      let (lo, hi) ← p.bound k 0 0 0 false
      match boxTest lo hi (it.ray.o.map X.ofQ) it.ray.d it.ray.tmin tv.tbest with
      | none => pure (none, tv)
      | some _ => visitSub k f p 0 0 0 false it tv

/-- R199: the eight values of the ray in an instance's space. -/
def instanceRay (bs : List Byte) (ray : Ray) : List X :=
  let m (r c : Nat) : X := fAt bs (16 * r + 4 * c)
  let dot (r : Nat) (v : List Q) : X := [0, 1, 2].foldl (fun acc c => plusX acc (timesX (m r c) (X.ofQ (qAt v c)))) (.zero false)
  let o := [0, 1, 2].map fun r => rnd32X (plusX (dot r ray.o) (m r 3))
  let d := [0, 1, 2].map fun r => rnd32X (dot r ray.d)
  [xAt o 0, xAt o 1, xAt o 2, ray.tmin, xAt d 0, xAt d 1, xAt d 2, ray.tmax]

/-- R199: the ray in an instance's space; none where it would be invalid. -/
def enterInstance (bs : List Byte) (ray : Ray) : Option Ray := rayOf (instanceRay bs ray)

/-- One visit of R203. -/
def visit (k : Iss) (f : RayFlags) (it : Item) (tv : Trav) : U (Option Nat × Trav) :=
  match it.obj with
  | .patch va => visitPatch k f va it tv
  | .sub p l i j down => visitSub k f p l i j down it tv
  | .ref r =>
    if refBad r then pure (some 2, tv)
    else
      let va := refAddr r
      match refType r with
      | 0 => pure (none, tv)
      | 1 => do
        let bs ← unitRead k va 128
        pure (pushSorted tv ((nodeHits bs it.ray tv.tbest).map fun h => (h.2.1, { it with obj := .ref h.2.2 })))
      | 2 => triLeaf k f va it (fun _ => false) tv (refCnt r)
      | 3 =>
        let ps := (List.range (refCnt r)).reverse
        pure (ps.foldl (fun (acc : Option Nat × Trav) i => if acc.1.isSome then acc else if acc.2.stack.length ≥ 64 then (some 3, acc.2) else (none, { acc.2 with stack := { it with obj := .patch (va + 128 * i) } :: acc.2.stack })) (none, tv))
      | 4 =>
        if it.inst.isSome then pure (some 2, tv)
        else do
          let bs ← unitRead k va 128
          if (BitVec.ofNat 8 f.mask &&& BitVec.ofNat 8 (leField bs 60 1)) == 0 then pure (none, tv)
          else match enterInstance bs it.ray with
            | none => pure (none, tv)
            | some ray =>
              if tv.stack.length ≥ 64 then pure (some 3, tv)
              else pure (none, { tv with stack := { obj := .ref (leField bs 48 8), tn := it.tn, ray := ray, inst := some { id := leField bs 56 4, soff := leField bs 61 3 } } :: tv.stack })
      | _ =>
        if !f.vol then pure (none, tv)
        else do
          let bs ← unitRead k va 128
          match gridOf bs with
          | none => pure (some 2, tv)
          | some g =>
            let (lo, hi) := g.box
            match boxTest lo hi (it.ray.o.map X.ofQ) it.ray.d it.ray.tmin tv.tbest with
            | none => pure (none, tv)
            | some (tn, fx) => pure (none, if (tv.vol.map fun v => ltX tn v.2.1).getD true then { tv with vol := some (va, tn, fx) } else tv)

/-- R203: pops and visits until the stack is empty or the query ends. Every visit pushes at most eight entries, so the
bound on visits bounds the pops. -/
def traverse (k : Iss) (f : RayFlags) : Nat → Trav → U (Nat × Trav)
  | 0, tv => pure (3, tv)
  | fuel + 1, tv =>
    match tv.stack with
    | [] => pure (if tv.best.isSome then 1 else 0, tv)
    | it :: rest =>
      let tv := { tv with stack := rest }
      if !leX it.tn tv.tbest then traverse k f fuel tv
      else
        let tv := { tv with visits := tv.visits + 1 }
        if tv.visits > 2 ^ 20 then pure (3, tv)
        else do
          let r ← visit k f it tv
          match r with
          | (some e, tv) => pure (e, tv)
          | (none, tv) => traverse k f fuel tv

def travFuel : Nat := 2 ^ 24

/-! ## Hit records (R204) -/

/-- The volume that a query reports at its end (R203). -/
def volOf (tv : Trav) : Nat × X × X :=
  match tv.vol with
  | some (a, tn, fx) => if ltX tn tv.tbest then (a, tn, minX fx tv.tbest) else (0, .inf false, .inf false)
  | none => (0, .inf false, .inf false)

/-- Registers +0 to +7. -/
def recordLow (status : Nat) (best : Option Hit) (tmax rsoff : Nat) : List Nat :=
  match best with
  | none => [status, tmax, 0, 0, ones32, ones32, rsoff, ones32]
  | some h =>
    [status + 16 * h.kind + (if h.tri.front then 512 else 0) + (if h.nopq then 2048 else 0),
     bitsX h.tri.t, bitsX h.tri.u, bitsX h.tri.v, h.prim, (h.inst.map (·.id)).getD ones32,
     (((h.inst.map (·.soff)).getD 0) + h.gidx + rsoff) % 2 ^ 32, h.micro]

/-- Registers by offset. -/
def offs (l : List Nat) : List (Nat × Nat) := l.mapIdx fun i v => (i, v)

def missRecord (status tmax rsoff : Nat) : List Nat := recordLow status none tmax rsoff ++ [inf32, inf32, 0, 0]

/-- The FP32 values of consecutive registers. -/
def regXs (r : Regs) (a l n : Nat) : List X := (List.range n).map fun i => f32 (r.get (a + i) l)

/-- Registers +8 to +11 (R204): the volume of a query that ends with a hit, LIMIT or BADNODE; the table gives a MISS none. (DEDUCED, log 127) -/
def recordHigh (status : Nat) (v : Nat × X × X) : List Nat :=
  if status == 0 then [inf32, inf32, 0, 0] else [bitsX v.2.1, bitsX v.2.2, v.1 % 2 ^ 32, v.1 / 2 ^ 32]

/-- RAYQ in one lane (R203-R205). (DEDUCED, log 127) -/
def rayqLane (x : Eng) (k : Iss) (l : Nat) : U LaneQ :=
  let c := (k.src.get x.c.toNat l).toNat
  let rsoff := c / 256
  let tmax := (k.src.get (x.a.toNat + 7) l).toNat
  match rayOf (regXs k.src x.a.toNat l 8) with
  | none => pure { regs := offs (missRecord 5 tmax rsoff) }
  | some ray =>
    let f : RayFlags := { any := x.imm.getLsbD 0, vol := x.imm.getLsbD 1, cullb := x.imm.getLsbD 2, cullf := x.imm.getLsbD 3, opq := x.imm.getLsbD 4, mask := c % 256 }
    poisoned (do
      let (st, tv) ← traverse k f travFuel { tbest := ray.tmax, stack := [{ obj := .ref (k.src.get64 x.b.toNat l).toNat, tn := .inf true, ray := ray, inst := none }] }
      pure { regs := offs (recordLow st tv.best tmax rsoff ++ recordHigh st (volOf tv)) })
      (pure (offs (missRecord 4 tmax rsoff)))

/-- RAYQ (R205). -/
def execRayq (x : Eng) (s : State) : Host.Outcome State Fault Refusal :=
  instr s x.ctl (needUnit [(x.d.toNat, 12), (x.a.toNat, 8), (x.b.toNat, 2), (x.c.toNat, 1)] 1) fun k s =>
    unitRun s k x.ctl x.d.toNat 23 none (rayqLane x k)

/-! ## RAYW (R206) -/

/-- The child order of RAYW on a box node: hits by ascending tn, then the missed slots. -/
def childOrder (hits : List (Nat × X × Nat)) : List Nat :=
  let place (x : Nat × X × Nat) (l : List (Nat × X × Nat)) : List (Nat × X × Nat) :=
    let (a, b) := l.span fun y => !ltX x.2.1 y.2.1
    a ++ x :: b
  let got := (hits.foldl (fun l x => place x l) []).map (·.1)
  got ++ [0, 1, 2, 3].filter fun j => !got.contains j

/-- RAYW's record of a box node. -/
def nodeRecord (hits : List (Nat × X × Nat)) : List Nat :=
  let tn (j : Nat) : Nat := ((hits.find? fun h => h.1 == j).map fun h => bitsX h.2.1).getD inf32
  let mask := hits.foldl (fun m h => m + 2 ^ h.1) 0
  let o := childOrder hits
  let order := o.getD 0 0 + 4 * o.getD 1 0 + 16 * o.getD 2 0 + 64 * o.getD 3 0
  [6 + 16 * 3 + 4096 * mask + 65536 * order, tn 0, tn 1, tn 2, tn 3, 0, 0, 0]

/-- RAYW in one lane. Registers that R206 says nothing of are left open. (DEDUCED, log 34) (DESIGN CHOICE, log 35) -/
def raywLane (x : Eng) (k : Iss) (l : Nat) : U LaneQ :=
  let c := (k.src.get x.c.toNat l).toNat
  let excl := c % 256
  let rsoff := c / 256
  let tmax := (k.src.get (x.a.toNat + 7) l).toNat
  let miss (st : Nat) : U LaneQ := pure { regs := offs (recordLow st none tmax rsoff) }
  match rayOf (regXs k.src x.a.toNat l 8) with
  | none => miss 5
  | some ray =>
    let r := (k.src.get64 x.b.toNat l).toNat
    let va := refAddr r
    let f : RayFlags := { cullb := x.imm.getLsbD 2, cullf := x.imm.getLsbD 3, opq := true }
    let it : Item := { obj := .ref r, tn := .inf true, ray := ray, inst := none }
    let tv : Trav := { tbest := ray.tmax }
    let skip (i : Nat) : Bool := bitOf excl i
    let found (st : Nat) (tv : Trav) : U LaneQ := pure { regs := offs (recordLow st tv.best tmax rsoff) }
    poisoned (if refBad r then miss 2 else match refType r with
      | 0 => miss 0
      | 1 => do
        let bs ← unitRead k va 128
        pure { regs := offs (nodeRecord (nodeHits bs ray ray.tmax)) }
      | 2 => do
        let (_, tv) ← triLeaf k f va it skip tv (refCnt r)
        found (if tv.best.isSome then 1 else 0) tv
      | 3 => do
        let ps := (List.range (refCnt r)).filter fun i => !skip i
        let (st, tv) ← traverse k f travFuel { tv with stack := ps.map fun i => { it with obj := .patch (va + 128 * i) } }
        found st tv
      | 4 => do
        let bs ← unitRead k va 128
        match enterInstance bs ray with
        | none => miss 0
        | some _ =>
          let q := (instanceRay bs ray).map bitsX
          pure { regs := offs (q.take 3 ++ [(k.src.get (x.a.toNat + 3) l).toNat] ++ (q.drop 4).take 3 ++ [tmax]) }
      | _ => do
        let bs ← unitRead k va 128
        match gridOf bs with
        | none => miss 2
        | some g =>
          let (lo, hi) := g.box
          match boxTest lo hi (ray.o.map X.ofQ) ray.d ray.tmin ray.tmax with
          | none => miss 0
          | some (tn, fx) => do
            let rs ← U.fill [(0, some (1 + 16 * 2)), (1, some (bitsX tn)), (2, none), (3, none), (4, none), (5, none), (6, none), (7, some (bitsX fx))]
            pure { regs := rs })
      (pure (offs (recordLow 4 none tmax rsoff)))

/-- RAYW (R205, R206). -/
def execRayw (x : Eng) (s : State) : Host.Outcome State Fault Refusal :=
  instr s x.ctl (needUnit [(x.d.toNat, 8), (x.a.toNat, 8), (x.b.toNat, 2), (x.c.toNat, 1)] 1) fun k s =>
    unitRun s k x.ctl x.d.toNat 23 none (raywLane x k)

/-! ## RAYH (R207, R208) -/

/-- RAYH in one lane: the record's first four words, then the hit record's word (offset from D to A). A lane whose lookup
has no record at all is marked by no registers. -/
def rayhLane (x : Eng) (k : Iss) (l : Nat) : U LaneQ := do
  let a0 := k.src.get x.a.toNat l
  let ix := (k.src.get (x.a.toNat + 6) l).toNat
  let desc ← unitRead k (k.src.get64 x.b.toNat l).toNat 32
  let base := leField desc 0 8
  let len := leField desc 8 4
  let fallback := leField desc 12 4
  let stride := leField desc 20 1
  let okStride := 1 ≤ stride && stride ≤ 16
  let i := if a0.toNat % 16 != 1 then (leField desc 16 4 + ix) % 2 ^ 32 else ix
  let bad := i ≥ len || !okStride
  if bad && (fallback ≥ len || !okStride) then pure { regs := [] }
  else
    let i := if bad then fallback else i
    let rec_ ← unitRead k (base + 16 * stride * i) (16 * stride)
    let null := rec_.all (· == 0)
    let w := (a0 &&& ~~~(0x400 : Word)) ||| (if bad then 0x100 else 0) ||| (if null then 0x400 else 0)
    pure { regs := offs [leField rec_ 0 4, leField rec_ 4 4, leField rec_ 8 4, leField rec_ 12 4] ++ [(256, w.toNat)], mem := if bad then 8 else 0 }

/-- RAYH's registers: the record's words at D, the word of the hit record at A. Where D is A, bits 8 and 10 of that word go into the
record's first word (R208). -/
def rayhPlace (d a : Nat) (q : LaneQ) : LaneQ :=
  let mark : Word := 0x500
  let word (i : Nat) : Word := BitVec.ofNat 32 (((q.regs.find? fun r => r.1 == i).map (·.2)).getD 0)
  if d == a && q.regs.any fun r => r.1 == 256 then
    { q with regs := (q.regs.filter fun r => r.1 != 256).map fun (i, v) => (d + i, if i == 0 then ((word 0 &&& ~~~mark) ||| (word 256 &&& mark)).toNat else v) }
  else { q with regs := q.regs.map fun (i, v) => if i == 256 then (a, v) else (d + i, v) }

/-- RAYH (R208). A lane whose lookup has no record at all raises SHADER_INDEX before any lane writes. The record that a
poisoned read would have given is open (R193). (DEDUCED, log 39) -/
def execRayh (x : Eng) (s : State) : Host.Outcome State Fault Refusal :=
  instr s x.ctl (needUnit [(x.d.toNat, 4), (x.a.toNat, 8), (x.b.toNat, 2)] 1) fun k s =>
    unitRun s k x.ctl 0 23 (some fun ok =>
      let bad := (ok.filter fun r => r.2.regs.isEmpty).map (·.1)
      if bad.isEmpty then none else some (0x41, maskOf bad))
      fun l => do
        let r ← poisoned (rayhLane x k l) (U.fill ([0, 1, 2, 3].map fun i => (i, none)))
        pure (rayhPlace x.d.toNat x.a.toNat r)

/-! ## PTCH (R209) -/

/-- PTCH in one lane. -/
def ptchLane (x : Eng) (k : Iss) (l : Nat) : U LaneQ :=
  let id := (k.src.get x.b.toNat l).toNat
  let i := bitsOf id 6 0
  let j := bitsOf id 13 7
  let down := bitOf id 14
  let nan : List (Nat × Nat) := offs (List.replicate 12 0x7FC00000)
  poisoned (do
    let bs ← unitRead k (k.src.get64 x.a.toNat l).toNat 128
    match patchOf bs with
    | none => pure { regs := nan }
    | some p =>
      if id / 32768 != 0 || i + j + (if down then 2 else 1) > 2 ^ p.lvl then pure { regs := nan }
      else
        let vs ← p.micro k i j down
        pure { regs := offs (vs.flatMap fun v => v.1.map bitsX ++ [bitsX v.2]) })
    (U.fill ((List.range 12).map fun i => (i, none)))

/-- PTCH (R209). -/
def execPtch (x : Eng) (s : State) : Host.Outcome State Fault Refusal :=
  instr s x.ctl (needUnit [(x.d.toNat, 12), (x.a.toNat, 2), (x.b.toNat, 1)] 1) fun k s =>
    unitRun s k x.ctl x.d.toNat 23 none (ptchLane x k)

end Sys2Proof.Machine
end

