-- ==== Sys2Proof/Machine/Sound.lean ====
section
/-! DEFINITION. The sounding unit (R210-R217), the architected draw (R213, R218) and the hash-grid fetch (R219-R221). -/

namespace Sys2Proof.Machine

/-! ## Draws (R213, R218) -/

def mix (x : Word) : Word :=
  let x := (x ^^^ (x >>> 16)) * 0x6A5D39E3
  let x := (x ^^^ (x >>> 13)) * 0xB3C14F27
  x ^^^ (x >>> 16)

def drawOf (seed id n : Word) (dim : Nat) : Word :=
  mix (mix (mix (mix (seed ^^^ 0x2D4A91C6) ^^^ id) ^^^ n) ^^^ (BitVec.ofNat 32 dim * 0x01000001))

/-- Unit(w) (R213), exactly. -/
def unitOf (w : Word) : Q := { num := 2 * (w.toNat / 256 : Nat) + 1, den := 2 ^ 25 }

/-- DRAW (R218): of .f32 the draw's unit number, rounded, with its flags (R120). -/
def execDraw (x : V3) (s : State) : Host.Outcome State Fault Refusal :=
  instr s x.ctl { needFloat [(x.d.toNat, 1), (x.a.toNat, 1), (x.b.toNat, 1), (x.c.toNat, 1)] with feature := some 2 } fun k s =>
    putFixed k s x.d.toNat false fun l =>
      let w := drawOf (k.src.get x.a.toNat l) (k.src.get x.b.toNat l) (k.src.get x.c.toNat l) x.opx.toNat
      if x.ty == .f32 then let r := roundFmt (X.ofQ (unitOf w)) fmtF32 0 false; LaneOut.ofNat r.1 r.2 else LaneOut.of32 w

/-! ## The march (R211, R212, R214, R215) -/

/-- The sounding instructions. -/
inductive Snd where
  | m | o | e | a
  deriving DecidableEq, Repr

/-- A sounding record as it is read (R211). -/
structure SndRec where
  w0 : Nat
  t : Nat
  n : Nat
  cell : Nat
  r4 : Nat
  r5 : Nat
  id : Word
  deriving DecidableEq, Repr

def sndRec (r : Regs) (d l : Nat) : SndRec :=
  let g (i : Nat) : Nat := (r.get (d + i) l).toNat
  { w0 := g 0, t := g 1, n := g 2, cell := g 3, r4 := g 4, r5 := g 5, id := r.get (d + 6) l }

/-- The ray and grid of a march in grid coordinates (R212). -/
structure Field where
  g : Grid
  pos : List X
  dir : List Q
  tn : X
  tend : X
  id : Word
  deriving DecidableEq, Repr

/-- A march under way. -/
structure March where
  t : X
  n : Nat
  cell : List Nat
  maj : Option Nat := none
  major : Bool := false
  tr : X := .fin (Q.ofInt 1)
  nulls : Nat := 0
  ops : Nat := 0
  deriving DecidableEq, Repr

/-- A cell as R211 packs it. -/
def packCell (c : List Nat) : Nat := c.getD 0 0 + 1024 * c.getD 1 0 + 1048576 * c.getD 2 0

/-- The end of a march: status, t, cell, and registers +4 and +5 where they are defined. -/
def March.out (m : March) (status : Nat) (r4 r5 : Option Nat) : List (Nat × Option Nat) :=
  [(0, some (status + (if m.major then 16 else 0))), (1, some (bitsX m.t)), (2, some (m.n % 2 ^ 32)), (3, some (packCell m.cell)), (4, r4), (5, r5), (7, some m.nulls)]

/-- The MAJOR bit that a record carries on: a continuation's, as it was read (R211). -/
def carried (w0 : Nat) : Nat := if w0 % 16 == 1 then w0 / 16 % 2 * 16 else 0

/-- The end of a query that no march came of: no cell, nothing rejected; t where it is defined; MAJOR as `carried` gives it. -/
def noMarch (status major : Nat) (t : Option Nat) (n : Nat) (r4 r5 : Option Nat) : List (Nat × Option Nat) :=
  [(0, some (status + major)), (1, t), (2, some n), (3, some ones32), (4, r4), (5, r5), (7, some 0)]

/-- The exact exit of a cell along an axis that the ray moves on (R212). -/
def Field.exitAt (f : Field) (cell : List Nat) (a : Nat) : Option X :=
  let d := qAt f.dir a
  if d.isZero then none
  else
    let b : Nat := cell.getD a 0 + (if d.isNeg then 0 else 1)
    some (divXQ (subX (X.ofQ (Q.ofInt b)) (xAt f.pos a)) d)

/-- R212: the least exact exit and its axis, x before y before z. -/
def Field.exit (f : Field) (cell : List Nat) : X × Nat :=
  [0, 1, 2].foldl (fun (acc : X × Nat) a => match f.exitAt cell a with
    | some e => if acc.2 == 3 || ltX e acc.1 then (e, a) else acc
    | none => acc) (.inf false, 3)

/-- R212: the point at t on an axis. -/
def Field.at_ (f : Field) (t : X) (a : Nat) : X := plusX (xAt f.pos a) (timesX t (X.ofQ (qAt f.dir a)))

/-- The floor of a value times 2^k, clamped to lo … hi; open where the value is no number. -/
def floorIn (x : X) (k : Nat) (lo hi : Nat) : U Nat :=
  match x with
  | .nan _ => do let v ← U.free; pure (lo + v % (hi - lo + 1))
  | .inf neg => pure (if neg then lo else hi)
  | x =>
    let v := (x.q.shift k).floor
    pure (if v < lo then lo else if v > hi then hi else v.toNat)

/-- A read of a march: poison ends it where it stands (R193). -/
def marchRead (k : Iss) (va len : Nat) : U (Sum (Nat × Nat) (List Byte)) :=
  tryCatch (do let bs ← unitRead k va len; pure (.inr bs)) fun e => match e with
    | .poison code va => pure (.inl (code, va))
    | e => U.stop e

/-- How a march ends: its registers, or a poisoned read with the registers of status FAULT. -/
structure SndEnd where
  regs : List (Nat × Option Nat)
  poison : Option (Nat × Nat) := none
  deriving DecidableEq, Repr

/-- The end of a march at a poisoned read (R193), with what registers +4 and +5 hold where the march has it (R211). -/
def March.fault (m : March) (p : Nat × Nat) (r4 r5 : Option Nat) : SndEnd := { regs := m.out 7 r4 r5, poison := some p }

def cellIndex (n : List Nat) (c : List Nat) : Nat := c.getD 0 0 + n.getD 0 0 * (c.getD 1 0 + n.getD 1 0 * c.getD 2 0)

/-- What a table read gives: a value that R210 admits, one it does not, or poison. -/
inductive Cellv where
  | ok (x : X) (bits : Nat)
  | bad (bits : Nat)
  | poison (p : Nat × Nat)

/-- R210: negative, counting −0 as zero. -/
def negX : X → Bool | .inf n => n | .fin q => q.isNeg | _ => false

/-- The majorant of a cell (R210). -/
def majorant (k : Iss) (g : Grid) (c : List Nat) : U Cellv := do
  match ← marchRead k (g.maj + 4 * cellIndex g.n c) 4 with
  | .inl p => pure (.poison p)
  | .inr bs =>
    let x := fAt bs 0
    pure (if x.isNan || negX x || x == .inf false then .bad (leNat bs) else .ok x (leNat bs))

/-- Density(t) (R214). -/
def density (k : Iss) (f : Field) (m : March) : U Cellv := do
  let s := 2 ^ f.g.ks
  let v ← [0, 1, 2].mapM fun a => floorIn (rnd32X (f.at_ m.t a)) f.g.ks (m.cell.getD a 0 * s) (m.cell.getD a 0 * s + s - 1)
  match ← marchRead k (f.g.den + 2 * cellIndex (f.g.n.map (· * s)) v) 2 with
  | .inl p => pure (.poison p)
  | .inr bs =>
    let x := rnd32X (mulX f.g.dscale (fmtF16.value (leNat bs))).1
    pure (if x.isNan || negX x then .bad (bitsX x) else .ok x (bitsX x))

/-- R214: the free flight of a draw in a cell of majorant μ. -/
def freeFlight (w : Word) (mu : Q) : X := rnd32X (X.ofQ (((log2Q (unitOf w)).neg.mul (ofFix fixLn2)).div mu))

/-- A step (R212): the cell after it; none out of the grid. -/
def Field.step (f : Field) (cell : List Nat) (a : Nat) : Option (List Nat) :=
  let c := cell.getD a 0
  if (qAt f.dir a).isNeg then (if c == 0 then none else some (cell.set a (c - 1)))
  else if c + 1 ≥ f.g.n.getD a 0 then none else some (cell.set a (c + 1))

/-- What +5 holds at CONT and FAULT, and at EXIT, where SNDO's is 0 (R211, R214). (DEDUCED, log 153) -/
def contR5 (kind : Snd) (m : March) : Option Nat := if kind == .a then some (bitsX m.tr) else none
/-- (DEDUCED, log 153) -/
def exitR5 (kind : Snd) (m : March) : Option Nat := some (if kind == .a then bitsX m.tr else 0)

/-- What follows a tentative collision at m.t (R214): the march's end, or the march as it goes on. -/
def collide (kind : Snd) (k : Iss) (f : Field) (mu : Q) (m : March) : U (Sum SndEnd March) := do
  let u := unitOf (drawOf f.g.seed f.id (BitVec.ofNat 32 (m.n + 2 ^ 32 - 1)) 1)
  if kind == .e then pure (.inl { regs := m.out 3 m.maj (some (bitsX (X.ofQ u))) })
  else match ← density k f m with
    | .poison p => pure (.inl (m.fault p m.maj (contR5 kind m)))
    | .bad b => pure (.inl { regs := m.out 6 m.maj (if kind == .a then some (bitsX m.tr) else some b) })
    | .ok sg b =>
      let mux := X.ofQ mu
      if kind == .a then
        let tr := if leX mux sg then X.zero false else rnd32X (timesX m.tr (divXQ (subX mux sg) mu))
        let m := { m with tr := tr, major := m.major || ltX mux sg }
        pure (if cmpX tr (.zero false) == 0 && !tr.isNan then .inl { regs := m.out 4 m.maj (exitR5 kind m) } else .inr m)
      else if ltX (X.ofQ (u.mul mu)) sg then
        let m := { m with major := m.major || ltX mux sg }
        pure (.inl { regs := m.out 2 m.maj (some b) })
      else pure (.inr { m with nulls := m.nulls + 1 })

/-- The march leaves the cell through its exit (R214's last lines). -/
def leave (kind : Snd) (f : Field) (m : March) (tb : X) (a : Nat) : Sum SndEnd March :=
  let atEnd : Sum SndEnd March := let m := { m with t := f.tend }; .inl { regs := m.out 4 (if kind == .o then some 0 else m.maj) (exitR5 kind m) }
  if leX f.tend tb then atEnd
  else match f.step m.cell a with
    | none => atEnd
    | some c => .inr { m with t := tb, cell := c, ops := m.ops + 1 }

/-- How many turns a march may take: more than any that ends, whose distance never falls and whose index returns after 2^32 draws.
 -/
def marchFuel : Nat := 2 ^ 72

/-- R214's loop, whose limit is met at 256 operations and at no other count; past it a loop that none of its ends stops goes on for ever. (DEDUCED, log 37) -/
def marchLoop (kind : Snd) (k : Iss) (f : Field) : Nat → March → U SndEnd
  | 0, _ => U.stop .endless
  | fuel + 1, m =>
    if m.ops == 256 then pure { regs := m.out 1 none (contR5 kind m) }
    else do
      let (ex, a) := f.exit m.cell
      let tb := minX (rnd32X ex) f.tend
      match ← majorant k f.g m.cell with
      | .poison p => pure (m.fault p none (contR5 kind m))
      | .bad b => pure { regs := m.out 6 (some b) (contR5 kind m) }
      | .ok mux bits =>
        let m := { m with maj := some bits }
        let mu := mux.q
        let s := freeFlight (drawOf f.g.seed f.id (BitVec.ofNat 32 m.n) 0) mu
        let tc := rnd32X (plusX m.t s)
        let draw := !mux.q.isZero && ltX m.t tb
        let m := if draw then { m with n := (m.n + 1) % 2 ^ 32, ops := m.ops + 1 } else m
        if draw && ltX tc tb then
          match ← collide kind k f mu { m with t := tc } with
          | .inl e => pure e
          | .inr m => marchLoop kind k f fuel m
        else match leave kind f m tb a with
          | .inl e => pure e
          | .inr m => marchLoop kind k f fuel m

/-- R215's loop: a cell is tested when it is entered. -/
def occLoop (k : Iss) (f : Field) : Nat → Bool → March → U SndEnd
  | 0, _, m => pure { regs := m.out 1 (some 0) none }
  | fuel + 1, entered, m => do
    let (ex, a) := f.exit m.cell
    let tb := minX (rnd32X ex) f.tend
    let ix := cellIndex f.g.n m.cell
    let occ ← if entered then marchRead k (f.g.occ + ix / 8) 1 else pure (.inr [0])
    match occ with
    | .inl p => pure (m.fault p (some 0) (some (bitsX tb)))
    | .inr bs =>
      if (leNat bs).testBit (ix % 8) then pure { regs := m.out 5 (some 0) (some (bitsX tb)) }
      else if m.ops ≥ 256 then pure { regs := m.out 1 (some 0) (some (bitsX tb)) }
      else match leave .o f m tb a with
        | .inl e => pure e
        | .inr m => occLoop k f fuel true m

/-- R211: whether a continued record belongs to this grid and ray; none does where the ray misses the grid. (DEDUCED, log 152) -/
def sndBelongs (g : Grid) (r : SndRec) (box : Option (X × X)) : Bool :=
  let c := [bitsOf r.cell 9 0, bitsOf r.cell 19 10, bitsOf r.cell 29 20]
  let t := fmtF32.value r.t
  r.cell != ones32 && (List.range 3).all (fun a => c.getD a 0 < g.n.getD a 0) && (finQ t).isSome
    && match box with
      | some (tn, tend) => leX tn t && leX t tend
      | none => false

/-- The march of one lane from the descriptor on (R210-R216). -/
def sndMarch (kind : Snd) (k : Iss) (ray : Ray) (g : Grid) (r : SndRec) : U SndEnd := do
  let pos := [0, 1, 2].map fun a => rnd32X (X.ofQ (((qAt ray.o a).sub (qAt g.origin a)).shift (-g.cs)))
  let dir := ray.d.map fun d => d.shift (-g.cs)
  let zero : List X := List.replicate 3 (.zero false)
  let box := boxTest zero (g.n.map fun (x : Nat) => X.ofQ (Q.ofInt x)) pos dir ray.tmin ray.tmax
  let cont := r.w0 % 16 == 1
  if cont && !sndBelongs g r box then
    pure { regs := [(0, some (6 + carried r.w0)), (1, some r.t), (2, some r.n), (3, some r.cell), (4, some r.r4), (5, some r.r5), (7, some 0)] }
  else match box with
    | none => pure { regs := noMarch 4 0 (some (bitsX ray.tmax)) r.n (if kind == .o then some 0 else none) (some (if kind == .a then 0x3F800000 else 0)) }
    | some (tn, tend) =>
      let f : Field := { g := g, pos := pos, dir := dir, tn := tn, tend := tend, id := r.id }
      if cont then
        let m : March := { t := fmtF32.value r.t, n := r.n, cell := [bitsOf r.cell 9 0, bitsOf r.cell 19 10, bitsOf r.cell 29 20], major := bitOf r.w0 4, tr := fmtF32.value r.r5 }
        if kind == .o then occLoop k f 300 false m else marchLoop kind k f marchFuel m
      else do
        let cell ← [0, 1, 2].mapM fun a => floorIn (f.at_ tn a) 0 0 (g.n.getD a 1 - 1)
        let m : March := { t := tn, n := r.n, cell := cell }
        if kind == .o then occLoop k f 300 true m else marchLoop kind k f marchFuel m

/-- One lane of a sounding instruction (R211, R217). -/
def sndLane (kind : Snd) (x : Eng) (k : Iss) (l : Nat) : U LaneQ := do
  let r := sndRec k.src x.d.toNat l
  let r4 : Option Nat := if kind == .o then some 0 else none
  let r5 : Option Nat := if kind == .a then some (if r.w0 % 16 == 1 then r.r5 else 0x3F800000) else none
  let e : SndEnd ← match rayOf (regXs k.src x.a.toNat l 8) with
    | none => pure { regs := noMarch 8 (carried r.w0) none r.n r4 r5 }
    | some ray => do
      match ← marchRead k (k.src.get64 x.b.toNat l).toNat 128 with
      | .inl p => pure { regs := noMarch 7 (carried r.w0) none r.n r4 r5, poison := some p }
      | .inr bs =>
        match gridOf bs with
        | none => pure { regs := noMarch 6 (carried r.w0) none r.n r4 r5 }
        | some g =>
          let lacks := match kind with | .o => !bitOf g.has 0 | .e => false | _ => !bitOf g.has 1
          if lacks then pure { regs := noMarch 6 (carried r.w0) none r.n r4 r5 }
          else sndMarch kind k ray g r
  let rs ← U.fill e.regs
  pure { regs := rs, mem := if e.poison.isSome then 1 else 0, trap := e.poison }

/-- (DESIGN CHOICE, log 38) -/
def sounding (kind : Snd) (x : Eng) (s : State) : Host.Outcome State Fault Refusal :=
  instr s x.ctl (needUnit [(x.d.toNat, 8), (x.a.toNat, 8), (x.b.toNat, 2)] 2) fun k s =>
    unitRun s k x.ctl x.d.toNat 23 none (sndLane kind x k)

def execSndm (x : Eng) (s : State) : Host.Outcome State Fault Refusal := sounding .m x s
def execSndo (x : Eng) (s : State) : Host.Outcome State Fault Refusal := sounding .o x s
def execSnde (x : Eng) (s : State) : Host.Outcome State Fault Refusal := sounding .e x s
def execSnda (x : Eng) (s : State) : Host.Outcome State Fault Refusal := sounding .a x s

/-! ## Hash-grid fetch (R219-R221) -/

/-- A hash-grid descriptor (R219). -/
structure Hash where
  table : Nat
  logt : Nat
  nlev : Nat
  f : Nat
  nl : List Q
  deriving DecidableEq, Repr

/-- R219: a descriptor within its limits, those of all sixteen levels whatever NLEV is. Bits 7:5 of byte 8 belong to no field. (DEDUCED, log 154) -/
def hashOf (bs : List Byte) : Option Hash :=
  let logt := leField bs 8 1 % 32
  let nlev := leField bs 9 1
  let f := leField bs 10 1
  let one := Q.ofInt 1
  let big := Q.ofInt (2 ^ 24 : Nat)
  match (List.range 16).mapM fun i => finQ (fAt bs (12 + 4 * i)) with
  | none => none
  | some nl =>
    if 10 ≤ logt && logt ≤ 24 && 1 ≤ nlev && nlev ≤ 16 && (f == 2 || f == 4) && nl.all (fun q => one.le q && q.le big) then
      some { table := leField bs 0 8, logt := logt, nlev := nlev, f := f, nl := nl }
    else none

/-- R220: a coordinate clamped to 0 … 1, NaN read as 0. -/
def unitClamp (x : X) : Q :=
  match x with
  | .nan _ => Q.ofInt 0
  | .inf neg => Q.ofInt (if neg then 0 else 1)
  | .zero _ => Q.ofInt 0
  | .fin q => if q.isNeg then Q.ofInt 0 else q.min (Q.ofInt 1)

/-- R220: the entry of a corner. -/
def hashEntry (h : Hash) (mx : Nat) (k : Nat → Nat) : Nat :=
  if (mx + 1) ^ 3 ≤ 2 ^ h.logt then k 0 + (mx + 1) * (k 1 + (mx + 1) * k 2)
  else (BitVec.ofNat 32 (k 0) ^^^ (BitVec.ofNat 32 (k 1) * 0x6C8E9CF5) ^^^ (BitVec.ofNat 32 (k 2) * 0x9A3F12B7)).toNat % 2 ^ h.logt

/-- R220: the features of a level at a position, as FP16. -/
def hashLevel (k : Iss) (h : Hash) (l : Nat) (p : List X) : U (List Nat) := do
  let nl := qAt h.nl l
  let mx := (-(nl.neg.floor)).toNat
  let x := p.map fun v => (rnd32 ((unitClamp v).mul nl))
  let i (a : Nat) : Nat := (qAt x a).floor.toNat
  let w (a : Nat) : Q := (qAt x a).sub (Q.ofInt (i a))
  let acc ← (List.range 8).foldlM (fun (acc : List X) c => do
    let w' (a : Nat) : Q := if bitOf c a then w a else rnd32 ((Q.ofInt 1).sub (w a))
    let wc := rnd32 ((rnd32 ((w' 0).mul (w' 1))).mul (w' 2))
    let e := hashEntry h mx fun a => i a + (if bitOf c a then 1 else 0)
    let bs ← unitRead k (h.table + l * 2 ^ h.logt * h.f * 2 + e * h.f * 2) (h.f * 2)
    pure (acc.mapIdx fun j v => rnd32X (plusX v (mulX (X.ofQ wc) (fmtF16.value (leField bs (2 * j) 2))).1))) (List.replicate h.f (.zero false))
  pure (acc.map fun v => (roundFmt v fmtF16 0 false).1)

/-- The registers of one level's halves. -/
def halves (fs : List Nat) : List Nat := (List.range (fs.length / 2)).map fun i => fs.getD (2 * i) 0 + 65536 * fs.getD (2 * i + 1) 0

/-- HGF in one lane (R221). -/
def hgfLane (x : Eng) (k : Iss) (l : Nat) : U LaneQ :=
  let l0 := x.imm.toNat % 16
  let cnt := fieldOf x.imm 7 4
  let f := if x.imm.getLsbD 8 then 4 else 2
  let p := regXs k.src x.a.toNat l 3
  poisoned (do
    let bs ← unitRead k (k.src.get64 x.b.toNat l).toNat 128
    let none_ := List.replicate f 0x7E00
    match hashOf bs with
    | none => pure { regs := offs (List.replicate (cnt * f / 2) 0x7E007E00) }
    | some h =>
      if h.f != f then pure { regs := offs (List.replicate (cnt * f / 2) 0x7E007E00) }
      else do
        let ls ← (List.range cnt).mapM fun m => if l0 + m ≥ h.nlev then pure none_ else hashLevel k h (l0 + m) p
        pure { regs := offs (ls.flatMap halves) })
    (U.fill ((List.range (cnt * f / 2)).map fun i => (i, none)))

/-- HGF (R221). -/
def execHgf (x : Eng) (s : State) : Host.Outcome State Fault Refusal :=
  instr s x.ctl (needUnit [(x.d.toNat, fieldOf x.imm 7 4 * (if x.imm.getLsbD 8 then 2 else 1)), (x.a.toNat, 3), (x.b.toNat, 2)] 3) fun k s =>
    unitRun s k x.ctl x.d.toNat 23 none (hgfLane x k)

end Sys2Proof.Machine
end

