-- ==== Sys2Proof/Machine/Texture.lean ====
section
/-! DEFINITION. Textures (R270-R274) and the neighbour links (R275-R277). -/

namespace Sys2Proof.Machine

/-! ## Textures -/

/-- A texture descriptor (R270). -/
structure Tex where
  base : Nat
  width : Nat
  height : Nat
  levels : Nat
  tfmt : Nat
  wrapx : Bool
  wrapy : Bool
  filter : Nat
  deriving DecidableEq, Repr

/-- R270: a descriptor within its limits. -/
def texOf (bs : List Byte) : Option Tex :=
  let base := leField bs 0 8
  let w := leField bs 8 2
  let h := leField bs 10 2
  let levels := leField bs 12 1
  let tfmt := leField bs 13 1
  let mode := leField bs 14 1
  if base % 128 == 0 && 1 ≤ w && w ≤ 16384 && 1 ≤ h && h ≤ 16384 && 1 ≤ levels && levels ≤ 15 && tfmt ≤ 2 && bitsOf mode 3 2 ≤ 2 then
    some { base := base, width := w, height := h, levels := levels, tfmt := tfmt, wrapx := bitOf mode 0, wrapy := bitOf mode 1, filter := bitsOf mode 3 2 }
  else none

def Tex.bytes (t : Tex) : Nat := match t.tfmt with | 0 => 4 | 1 => 8 | _ => 16
def Tex.w (t : Tex) (l : Nat) : Nat := max 1 (t.width / 2 ^ l)
def Tex.h (t : Tex) (l : Nat) : Nat := max 1 (t.height / 2 ^ l)

/-- Where a level starts (R271). -/
def Tex.start (t : Tex) (l : Nat) : Nat := (List.range l).foldl (fun a k => a + roundUp (t.w k * t.h k * t.bytes) 128) t.base

/-- The four channels of a texel (R271). -/
def Tex.channels (t : Tex) (bs : List Byte) : List X :=
  (List.range 4).map fun c => match t.tfmt with
    | 0 => rnd32X (X.ofQ { num := leField bs c 1, den := 255 })
    | 1 => fmtF16.value (leField bs (2 * c) 2)
    | _ => fAt bs (4 * c)

/-- One texel read (R272). -/
def Tex.texel (t : Tex) (k : Iss) (l x y : Nat) : U (List X) := do
  let bs ← unitRead k (t.start l + (y * t.w l + x) * t.bytes) t.bytes
  pure (t.channels bs)

/-- R273's Wrap. -/
def wrapAt (i : Int) (n : Nat) (rep : Bool) : Nat :=
  if rep then (i % n).toNat else if i < 0 then 0 else min i.toNat (n - 1)

/-- R273's Sample at a level. -/
def Tex.sample (t : Tex) (k : Iss) (u v : Q) (l : Nat) : U (List X) := do
  let w := t.w l
  let h := t.h l
  if t.filter == 0 then
    let i := (rnd32 (u.mul (Q.ofInt w))).floor
    let j := (rnd32 (v.mul (Q.ofInt h))).floor
    t.texel k l (wrapAt i w t.wrapx) (wrapAt j h t.wrapy)
  else
    let half : Q := { num := 1, den := 2 }
    let x := rnd32 ((u.mul (Q.ofInt w)).sub half)
    let y := rnd32 ((v.mul (Q.ofInt h)).sub half)
    let i := x.floor
    let j := y.floor
    let fx := x.sub (Q.ofInt i)
    let fy := y.sub (Q.ofInt j)
    let wt (f : Q) (a : Nat) : Q := if a == 0 then rnd32 ((Q.ofInt 1).sub f) else f
    let terms ← [(0, 0), (1, 0), (0, 1), (1, 1)].mapM fun (ab : Nat × Nat) => do
      let c ← t.texel k l (wrapAt (i + ab.1) w t.wrapx) (wrapAt (j + ab.2) h t.wrapy)
      pure (c.map fun x => (mulX (X.ofQ (rnd32 ((wt fx ab.1).mul (wt fy ab.2)))) x).1)
    pure ((List.range 4).map fun c => rnd32X (sumX 0 (terms.map fun l => xAt l c)).1)

/-- A finite operand clamped to a range; any other is 0 (R273). -/
def texClamp (x : X) (lo hi : Q) : Q := match finQ x with
  | some q => (q.max lo).min hi
  | none => Q.ofInt 0

/-- TEXS in one lane (R273). -/
def texsLane (t : Tex) (k : Iss) (xu xv xl : X) : U (List X) := do
  let lim := Q.ofInt (2 ^ 20 : Nat)
  let u := texClamp xu lim.neg lim
  let v := texClamp xv lim.neg lim
  let lod := ((texClamp xl lim.neg lim).max (Q.ofInt 0)).min (Q.ofInt (t.levels - 1 : Nat))
  if t.filter < 2 then t.sample k u v (roundInt lod 0).toNat
  else
    let l := lod.floor.toNat
    let f := lod.sub (Q.ofInt l)
    let a ← t.sample k u v l
    let b ← t.sample k u v (min (l + 1) (t.levels - 1))
    let g := rnd32 ((Q.ofInt 1).sub f)
    pure ((List.range 4).map fun c => rnd32X (sumX 0 [(mulX (X.ofQ g) (xAt a c)).1, (mulX (X.ofQ f) (xAt b c)).1]).1)

/-- (DEDUCED, log 40) -/
def texNan : List (Nat × Nat) := [(0, 0x7FC00000), (1, 0x7FC00000), (2, 0x7FC00000), (3, 0x7FC00000)]

/-- A lane of a texture instruction: the descriptor, then what `f` reads of it. A poisoned read gives the canonical NaN, as
a load's does (R252). -/
def texLane (x : Mem) (k : Iss) (f : Tex → Nat → U LaneQ) (l : Nat) : U LaneQ :=
  poisoned (do
    let bs ← unitRead k (eaOf (k.src.get64 x.a.toNat l) (memOff x)) 64
    match texOf bs with
    | none => pure { regs := texNan }
    | some t => f t l) (pure texNan)

def texNeed (x : Mem) : Need := { memNeed [(x.d.toNat, 4), (x.a.toNat, 2), (x.b.toNat, 3)] with pilot := false }

def chanRegs (c : List X) : List (Nat × Nat) := c.mapIdx fun i v => (i, bitsX v)

/-- TEXS (R272, R273). -/
def execTexs (x : Mem) (s : State) : Host.Outcome State Fault Refusal :=
  instr s x.ctl (texNeed x) fun k s =>
    unitRun s k x.ctl x.d.toNat 17 none (texLane x k fun t l => do
      let b (i : Nat) : X := f32 (k.src.get (x.b.toNat + i) l)
      let c ← texsLane t k (b 0) (b 1) (b 2)
      pure { regs := chanRegs c })

/-- TEXF (R274). -/
def execTexf (x : Mem) (s : State) : Host.Outcome State Fault Refusal :=
  instr s x.ctl (texNeed x) fun k s =>
    unitRun s k x.ctl x.d.toNat 17 none (texLane x k fun t l => do
      let px := (k.src.get x.b.toNat l).toInt
      let py := (k.src.get (x.b.toNat + 1) l).toInt
      let lv := (k.src.get (x.b.toNat + 2) l).toNat
      if lv ≥ t.levels || px < 0 || py < 0 || px ≥ t.w lv || py ≥ t.h lv then
        pure { regs := [(0, 0), (1, 0), (2, 0), (3, 0)], mem := 4 }
      else do
        let c ← t.texel k lv px.toNat py.toNat
        pure { regs := chanRegs c })

/-! ## Neighbour links (R33, R275-R277) -/

/-- The gang a direction leads to (R33): N, E, S, W are 0 to 3. -/
def neighbour (g : Gang) (dir : Nat) : Option GangKey :=
  let step (d : Int) : Option GangKey := some { g.key with idx := ((g.key.idx : Int) + d).toNat }
  match dir with
  | 0 => if g.fy == 0 then none else step (-(g.fw : Int))
  | 1 => if g.fx + 1 ≥ g.fw then none else step 1
  | 2 => if g.fy + 1 ≥ g.fh then none else step g.fw
  | _ => if g.fx == 0 then none else step (-1)

def opposite (dir : Nat) : Nat := (dir + 2) % 4

/-- Landed messages of a channel given to the LNKRs that wait for them, each in its order (R277). (DEDUCED, log 43) -/
def serveLink (s : State) (g : GangKey) (dir ch : Nat) : State :=
  let mine (q : Pend) : Bool := match q.hold with
    | .link d c _ _ => d == dir && c == ch && ((s.agent? q.agent).map fun x => x.gang == g).getD false
    | _ => false
  match s.links.find? fun m => m.gang == g && m.dir == dir && m.ch == ch, s.pend.find? mine with
  | some m, some q =>
    if !m.landed then s
    else
      let give (p : Pend) : Pend := if p.id != q.id then p else match p.hold with
        | .link _ _ d lanes => { p with hold := .none, writes := laneWrites d (fun l => m.words.getD l 0) (lanesOf lanes) }
        | _ => p
      { s with links := s.links.filter fun x => x.id != m.id, pend := s.pend.map give }
  | _, _ => s

def linkNeed (rs : List (Nat × Nat)) : Need := { memNeed rs with pilot := false, feature := some 4 }

/-- LNKS (R277): it does not issue without a credit. -/
def execLnks (x : Eng) (s : State) : Host.Outcome State Fault Refusal :=
  instr s x.ctl (linkNeed [(x.a.toNat, 1)]) fun k s =>
    let dir := fieldOf x.imm 1 0
    let ch := fieldOf x.imm 5 2
    match (s.gang? k.gang).bind fun g => neighbour g dir with
    | none => (s, .fault 0x04 k.lanes 0)
    | some dest =>
      if (s.links.filter fun m => m.gang == dest && m.dir == opposite dir && m.ch == ch).length ≥ 4 then (s, .hold)
      else
        let words := (List.range 32).map fun l => if k.lanes.getLsbD l then k.src.get x.a.toNat l else 0
        let m : LinkMsg := { id := s.nextId, gang := dest, dir := opposite dir, ch := ch, words := words }
        let s := { s with links := s.links ++ [m], nextId := s.nextId + 1 }
        (if x.ctl.cnt == 0 then s else k.later s x.ctl { hold := .linkSent m.id, opens := false }, .done)

/-- LNKR (R277): its result waits for a message. -/
def execLnkr (x : Eng) (s : State) : Host.Outcome State Fault Refusal :=
  instr s x.ctl (linkNeed [(x.d.toNat, 1)]) fun k s =>
    let dir := fieldOf x.imm 1 0
    let ch := fieldOf x.imm 5 2
    match (s.gang? k.gang).bind fun g => neighbour g dir with
    | none => (s, .fault 0x04 k.lanes 0)
    | some _ => (serveLink (k.later s x.ctl { hold := .link dir ch x.d.toNat k.lanes }) k.gang dir ch, .done)

/-- A message lands behind those sent before it on its channel (R275). -/
def landLink (s : State) (id : Nat) : State :=
  match s.links.find? fun m => m.id == id with
  | none => s
  | some m =>
    match s.links.find? fun y => y.gang == m.gang && y.dir == m.dir && y.ch == m.ch && !y.landed with
    | some y =>
      if y.id != id then s
      else
        let sent := s.pend.find? fun q => q.hold == .linkSent id
        let s := { s with links := updWhere (fun y => y.id == id) (fun y => { y with landed := true }) s.links, pend := s.pend.filter fun q => q.hold != .linkSent id }
        let s := match sent with
          | some q => endIfIdle (s.updAgent q.agent fun a => { a with d := bumpCounter a.d q.cnt false }) q.agent
          | none => s
        serveLink s m.gang m.dir m.ch
    | none => s

/-- LINK_MESSAGE_LAND (R275, R277). -/
def execLinkMessageLand (id : Nat) (s : State) : Host.Outcome State Fault Refusal := event (landLink s id)

end Sys2Proof.Machine
end

