-- ==== Sys2Proof/Machine/Dispatch.lean ====
section
/-! DEFINITION. One arm per instruction: its meaning, or its rejection by name. -/

namespace Sys2Proof.Machine

def exec (i : Instr) (s : State) : Host.Outcome State Fault Refusal :=
  match i with
  | .nop => Sys2Proof.Machine.execNop s
  | .join x => Sys2Proof.Machine.execJoin x s
  | .joinClr x => Sys2Proof.Machine.execJoinClr x s
  | .exit x => Sys2Proof.Machine.execExit x s
  | .yield x => Sys2Proof.Machine.execYield x s
  | .vote x => Sys2Proof.Machine.execVote x s
  | .xmrd x => Sys2Proof.Machine.execXmrd x s
  | .xmwr x => Sys2Proof.Machine.execXmwr x s
  | .pathq x => Sys2Proof.Machine.execPathq x s
  | .regroup x => Sys2Proof.Machine.execRegroup x s
  | .regroupComplete g role => Sys2Proof.Machine.execRegroupComplete g role s
  | .bra x => Sys2Proof.Machine.execBra x s
  | .brx x => Sys2Proof.Machine.execBrx x s
  | .call x => Sys2Proof.Machine.execCall x s
  | .ret x => Sys2Proof.Machine.execRet x s
  | .iadd x => Sys2Proof.Machine.execIadd x s
  | .iaddImm x => Sys2Proof.Machine.execIaddImm x s
  | .isub x => Sys2Proof.Machine.execIsub x s
  | .isubImm x => Sys2Proof.Machine.execIsubImm x s
  | .iaddc x => Sys2Proof.Machine.execIaddc x s
  | .iaddcImm x => Sys2Proof.Machine.execIaddcImm x s
  | .imin x => Sys2Proof.Machine.execImin x s
  | .iminImm x => Sys2Proof.Machine.execIminImm x s
  | .imax x => Sys2Proof.Machine.execImax x s
  | .imaxImm x => Sys2Proof.Machine.execImaxImm x s
  | .iabs x => Sys2Proof.Machine.execIabs x s
  | .sad x => Sys2Proof.Machine.execSad x s
  | .lea x => Sys2Proof.Machine.execLea x s
  | .leaImm x => Sys2Proof.Machine.execLeaImm x s
  | .iadd64 x => Sys2Proof.Machine.execIadd64 x s
  | .iadd64Imm x => Sys2Proof.Machine.execIadd64Imm x s
  | .imul x => Sys2Proof.Machine.execImul x s
  | .imulImm x => Sys2Proof.Machine.execImulImm x s
  | .imulh x => Sys2Proof.Machine.execImulh x s
  | .imulhImm x => Sys2Proof.Machine.execImulhImm x s
  | .imad x => Sys2Proof.Machine.execImad x s
  | .imadImm x => Sys2Proof.Machine.execImadImm x s
  | .imadw x => Sys2Proof.Machine.execImadw x s
  | .imadwImm x => Sys2Proof.Machine.execImadwImm x s
  | .shl x => Sys2Proof.Machine.execShl x s
  | .shlImm x => Sys2Proof.Machine.execShlImm x s
  | .shr x => Sys2Proof.Machine.execShr x s
  | .shrImm x => Sys2Proof.Machine.execShrImm x s
  | .sar x => Sys2Proof.Machine.execSar x s
  | .sarImm x => Sys2Proof.Machine.execSarImm x s
  | .rot x => Sys2Proof.Machine.execRot x s
  | .rotImm x => Sys2Proof.Machine.execRotImm x s
  | .and x => Sys2Proof.Machine.execAnd x s
  | .andImm x => Sys2Proof.Machine.execAndImm x s
  | .or x => Sys2Proof.Machine.execOr x s
  | .orImm x => Sys2Proof.Machine.execOrImm x s
  | .xor x => Sys2Proof.Machine.execXor x s
  | .xorImm x => Sys2Proof.Machine.execXorImm x s
  | .lop3 x => Sys2Proof.Machine.execLop3 x s
  | .lop3Imm x => Sys2Proof.Machine.execLop3Imm x s
  | .popc x => Sys2Proof.Machine.execPopc x s
  | .clz x => Sys2Proof.Machine.execClz x s
  | .ctz x => Sys2Proof.Machine.execCtz x s
  | .brev x => Sys2Proof.Machine.execBrev x s
  | .bfx x => Sys2Proof.Machine.execBfx x s
  | .bfxImm x => Sys2Proof.Machine.execBfxImm x s
  | .bfi x => Sys2Proof.Machine.execBfi x s
  | .bfiImm x => Sys2Proof.Machine.execBfiImm x s
  | .prmt x => Sys2Proof.Machine.execPrmt x s
  | .prmtImm x => Sys2Proof.Machine.execPrmtImm x s
  | .sel x => Sys2Proof.Machine.execSel x s
  | .selImm x => Sys2Proof.Machine.execSelImm x s
  | .iset x => Sys2Proof.Machine.execIset x s
  | .isetImm x => Sys2Proof.Machine.execIsetImm x s
  | .pset x => Sys2Proof.Machine.execPset x s
  | .pmovTov x => Sys2Proof.Machine.execPmovTov x s
  | .pmovFromv x => Sys2Proof.Machine.execPmovFromv x s
  | .mov x => Sys2Proof.Machine.execMov x s
  | .movi x => Sys2Proof.Machine.execMovi x s
  | .shfl x => Sys2Proof.Machine.execShfl x s
  | .shflImm x => Sys2Proof.Machine.execShflImm x s
  | .wred x => Sys2Proof.Machine.execWred x s
  | .fadd x => Sys2Proof.Machine.execFadd x s
  | .faddImm x => Sys2Proof.Machine.execFaddImm x s
  | .fmul x => Sys2Proof.Machine.execFmul x s
  | .fmulImm x => Sys2Proof.Machine.execFmulImm x s
  | .ffma x => Sys2Proof.Machine.execFfma x s
  | .ffmaImm x => Sys2Proof.Machine.execFfmaImm x s
  | .fmin x => Sys2Proof.Machine.execFmin x s
  | .fminImm x => Sys2Proof.Machine.execFminImm x s
  | .fmax x => Sys2Proof.Machine.execFmax x s
  | .fmaxImm x => Sys2Proof.Machine.execFmaxImm x s
  | .fset x => Sys2Proof.Machine.execFset x s
  | .fsetImm x => Sys2Proof.Machine.execFsetImm x s
  | .fclass x => Sys2Proof.Machine.execFclass x s
  | .frnd x => Sys2Proof.Machine.execFrnd x s
  | .frcp x => Sys2Proof.Machine.execFrcp x s
  | .frsq x => Sys2Proof.Machine.execFrsq x s
  | .fsqrt x => Sys2Proof.Machine.execFsqrt x s
  | .fex2 x => Sys2Proof.Machine.execFex2 x s
  | .flg2 x => Sys2Proof.Machine.execFlg2 x s
  | .fsin x => Sys2Proof.Machine.execFsin x s
  | .fcos x => Sys2Proof.Machine.execFcos x s
  | .ftanh x => Sys2Proof.Machine.execFtanh x s
  | .hadd2 x => Sys2Proof.Machine.execHadd2 x s
  | .hadd2Imm x => Sys2Proof.Machine.execHadd2Imm x s
  | .hmul2 x => Sys2Proof.Machine.execHmul2 x s
  | .hmul2Imm x => Sys2Proof.Machine.execHmul2Imm x s
  | .hfma2 x => Sys2Proof.Machine.execHfma2 x s
  | .hfma2Imm x => Sys2Proof.Machine.execHfma2Imm x s
  | .badd2 x => Sys2Proof.Machine.execBadd2 x s
  | .badd2Imm x => Sys2Proof.Machine.execBadd2Imm x s
  | .bfma2 x => Sys2Proof.Machine.execBfma2 x s
  | .bfma2Imm x => Sys2Proof.Machine.execBfma2Imm x s
  | .fdot4 x => Sys2Proof.Machine.execFdot4 x s
  | .dadd x => Sys2Proof.Machine.execDadd x s
  | .dmul x => Sys2Proof.Machine.execDmul x s
  | .dfma x => Sys2Proof.Machine.execDfma x s
  | .cvt x => Sys2Proof.Machine.execCvt x s
  | .cpack x => Sys2Proof.Machine.execCpack x s
  | .cunpk x => Sys2Proof.Machine.execCunpk x s
  | .tshape x => Sys2Proof.Machine.execTshape x s
  | .tzero x => Sys2Proof.Machine.execTzero x s
  | .tld x => Sys2Proof.Machine.execTld x s
  | .tst x => Sys2Proof.Machine.execTst x s
  | .tfeed x => Sys2Proof.Machine.execTfeed x s
  | .tdrain x => Sys2Proof.Machine.execTdrain x s
  | .mma x => Sys2Proof.Machine.execMma x s
  | .acvt x => Sys2Proof.Machine.execAcvt x s
  | .menc x => Sys2Proof.Machine.execMenc x s
  | .bobjArm x => Sys2Proof.Machine.execBobjArm x s
  | .bobjWait x => Sys2Proof.Machine.execBobjWait x s
  | .rayq x => Sys2Proof.Machine.execRayq x s
  | .rayw x => Sys2Proof.Machine.execRayw x s
  | .rayh x => Sys2Proof.Machine.execRayh x s
  | .ptch x => Sys2Proof.Machine.execPtch x s
  | .sndm x => Sys2Proof.Machine.execSndm x s
  | .sndo x => Sys2Proof.Machine.execSndo x s
  | .snde x => Sys2Proof.Machine.execSnde x s
  | .snda x => Sys2Proof.Machine.execSnda x s
  | .draw x => Sys2Proof.Machine.execDraw x s
  | .hgf x => Sys2Proof.Machine.execHgf x s
  | .ld x => Sys2Proof.Machine.execLd x s
  | .st x => Sys2Proof.Machine.execSt x s
  | .lds x => Sys2Proof.Machine.execLds x s
  | .sts x => Sys2Proof.Machine.execSts x s
  | .ldrm x => Sys2Proof.Machine.execLdrm x s
  | .strm x => Sys2Proof.Machine.execStrm x s
  | .atom x => Sys2Proof.Machine.execAtom x s
  | .atoms x => Sys2Proof.Machine.execAtoms x s
  | .red x => Sys2Proof.Machine.execRed x s
  | .fence x => Sys2Proof.Machine.execFence x s
  | .marm x => Sys2Proof.Machine.execMarm x s
  | .mwait x => Sys2Proof.Machine.execMwait x s
  | .pref x => Sys2Proof.Machine.execPref x s
  | .texs x => Sys2Proof.Machine.execTexs x s
  | .texf x => Sys2Proof.Machine.execTexf x s
  | .lnks x => Sys2Proof.Machine.execLnks x s
  | .lnkr x => Sys2Proof.Machine.execLnkr x s
  | .cpy x => Sys2Proof.Machine.execCpy x s
  | .cpyq x => Sys2Proof.Machine.execCpyq x s
  | .cbld x => Sys2Proof.Machine.execCbld x s
  | .gthr x => Sys2Proof.Machine.execGthr x s
  | .job x => Sys2Proof.Machine.execJob x s
  | .stageHold x => Sys2Proof.Machine.execStageHold x s
  | .stageRel x => Sys2Proof.Machine.execStageRel x s
  | .bar x => Sys2Proof.Machine.execBar x s
  | .gbar x => Sys2Proof.Machine.execGbar x s
  | .waitc x => Sys2Proof.Machine.execWaitc x s
  | .rdzv x => Sys2Proof.Machine.execRdzv x s
  | .sleep x => Sys2Proof.Machine.execSleep x s
  | .fork x => Sys2Proof.Machine.execFork x s
  | .lrec x => Sys2Proof.Machine.execLrec x s
  | .permitQ x => Sys2Proof.Machine.execPermitQ x s
  | .permitRsv x => Sys2Proof.Machine.execPermitRsv x s
  | .permitRel x => Sys2Proof.Machine.execPermitRel x s
  | .qapp x => Sys2Proof.Machine.execQapp x s
  | .varpt x => Sys2Proof.Machine.execVarpt x s
  | .fillc x => Sys2Proof.Machine.execFillc x s
  | .fillx x => Sys2Proof.Machine.execFillx x s
  | .rkinv x => Sys2Proof.Machine.execRkinv x s
  | .rkpinPin x => Sys2Proof.Machine.execRkpinPin x s
  | .rkpinUnpin x => Sys2Proof.Machine.execRkpinUnpin x s
  | .tstamp x => Sys2Proof.Machine.execTstamp x s
  | .tstampWake x => Sys2Proof.Machine.execTstampWake x s
  | .trcm x => Sys2Proof.Machine.execTrcm x s
  | .srd x => Sys2Proof.Machine.execSrd x s
  | .swr x => Sys2Proof.Machine.execSwr x s
  | .trap x => Sys2Proof.Machine.execTrap x s
  | .brk x => Sys2Proof.Machine.execBrk x s
  | .eret x => Sys2Proof.Machine.execEret x s
  | .eretSkip x => Sys2Proof.Machine.execEretSkip x s
  | .eretPc x => Sys2Proof.Machine.execEretPc x s
  | .ctxsv x => Sys2Proof.Machine.execCtxsv x s
  | .ctxld x => Sys2Proof.Machine.execCtxld x s
  | .tlbiVa x => Sys2Proof.Machine.execTlbiVa x s
  | .tlbiAsn x => Sys2Proof.Machine.execTlbiAsn x s
  | .tlbiAll x => Sys2Proof.Machine.execTlbiAll x s
  | .resultVisible agent id => Sys2Proof.Machine.execResultVisible agent id s
  | .trapEntry agent path => Sys2Proof.Machine.execTrapEntry agent path s
  | .fetchLineFill core ctx va err1 err2 => Sys2Proof.Machine.execFetchLineFill core ctx va err1 err2 s
  | .gangRetire g => Sys2Proof.Machine.execGangRetire g s
  | .barrierComplete g role gang k => Sys2Proof.Machine.execBarrierComplete g role gang k s
  | .rdzvPhaseComplete g k => Sys2Proof.Machine.execRdzvPhaseComplete g k s
  | .waitcComplete agent path => Sys2Proof.Machine.execWaitcComplete agent path s
  | .sleepExpire agent path => Sys2Proof.Machine.execSleepExpire agent path s
  | .mwaitWritten agent path => Sys2Proof.Machine.execMwaitWritten agent path s
  | .mwaitExpire agent path => Sys2Proof.Machine.execMwaitExpire agent path s
  | .linkMessageLand id => Sys2Proof.Machine.execLinkMessageLand id s
  | .permitGrant g role => Sys2Proof.Machine.execPermitGrant g role s
  | .jobStart id => Sys2Proof.Machine.execJobStart id s
  | .jobComplete id => Sys2Proof.Machine.execJobComplete id s
  | .takeRecord => Sys2Proof.Machine.execTakeRecord s
  | .placeGang => Sys2Proof.Machine.execPlaceGang s
  | .stagingDone launch => Sys2Proof.Machine.execStagingDone launch s
  | .stagingTimeout launch => Sys2Proof.Machine.execStagingTimeout launch s
  | .switchPointReached g => Sys2Proof.Machine.execSwitchPointReached g s
  | .switchWaitTimeout g => Sys2Proof.Machine.execSwitchWaitTimeout g s
  | .fullSaveTimeout g => Sys2Proof.Machine.execFullSaveTimeout g s
  | .saveSlotsFree => Sys2Proof.Machine.execSaveSlotsFree s
  | .migrationResume g => Sys2Proof.Machine.execMigrationResume g s
  | .pathOverdue agent path => Sys2Proof.Machine.execPathOverdue agent path s
  | .requestInject id => Sys2Proof.Machine.execRequestInject id s
  | .walkerMonitorWake line => Sys2Proof.Machine.execWalkerMonitorWake line s
  | .xlateRewalk agent path => Sys2Proof.Machine.execXlateRewalk agent path s
  | .reckonResourceRetry agent path => Sys2Proof.Machine.execReckonResourceRetry agent path s
  | .fillLaunch => Sys2Proof.Machine.execFillLaunch s
  | .waitNodeRelease fill node => Sys2Proof.Machine.execWaitNodeRelease fill node s
  | .reckonHeldSave => Sys2Proof.Machine.execReckonHeldSave s
  | .unitEvict ctx rkidx unit => Sys2Proof.Machine.execUnitEvict ctx rkidx unit s
  | .watchdog g => Sys2Proof.Machine.execWatchdog g s
  | .thermalStop core => Sys2Proof.Machine.execThermalStop core s
  | .thermalResume core => Sys2Proof.Machine.execThermalResume core s
  | .hwError core parity touched => Sys2Proof.Machine.execHwError core parity touched s
  | .correctedError core => Sys2Proof.Machine.execCorrectedError core s
  | .dieUncorrectable slice addr role => Sys2Proof.Machine.execDieUncorrectable slice addr role s
  | .sensorSample samples => Sys2Proof.Machine.execSensorSample samples s
  | .bankRefresh bank => Sys2Proof.Machine.execBankRefresh bank s
  | .allowanceUpdate => Sys2Proof.Machine.execAllowanceUpdate s
  | .rotationPass => Sys2Proof.Machine.execRotationPass s
  | .testerTurn slice pass => Sys2Proof.Machine.execTesterTurn slice pass s
  | .testerAbort slice => Sys2Proof.Machine.execTesterAbort slice s
  | .overpower power => Sys2Proof.Machine.execOverpower power s
  | .reset => Sys2Proof.Machine.execReset s
  | .firmwareReload image signature => Sys2Proof.Machine.execFirmwareReload image signature s
  | .registerWrite off val => Sys2Proof.Machine.execRegisterWrite off val s
  | .featacceptWrite high val => Sys2Proof.Machine.execFeatacceptWrite high val s
  | .modectlWrite val => Sys2Proof.Machine.execModectlWrite val s
  | .ctxCreate ctx => Sys2Proof.Machine.execCtxCreate ctx s
  | .ctxDestroy ctx => Sys2Proof.Machine.execCtxDestroy ctx s
  | .destroyComplete ctx => Sys2Proof.Machine.execDestroyComplete ctx s
  | .hostTlbiVa asn va len => Sys2Proof.Machine.execHostTlbiVa asn va len s
  | .hostTlbiAsn asn => Sys2Proof.Machine.execHostTlbiAsn asn s
  | .hostTlbiAll => Sys2Proof.Machine.execHostTlbiAll s
  | .tailDoorbell q val => Sys2Proof.Machine.execTailDoorbell q val s
  | .queueEnable q => Sys2Proof.Machine.execQueueEnable q s
  | .queueDisable q => Sys2Proof.Machine.execQueueDisable q s
  | .wakeopen high val => Sys2Proof.Machine.execWakeopen high val s
  | .flip val => Sys2Proof.Machine.execFlip val s
  | .frameBoundary out => Sys2Proof.Machine.execFrameBoundary out s
  | .firstPixel out => Sys2Proof.Machine.execFirstPixel out s
  | .trailTimeout tag => Sys2Proof.Machine.execTrailTimeout tag s
  | .wtringWrite log val => Sys2Proof.Machine.execWtringWrite log val s
  | .wtridxWrite val => Sys2Proof.Machine.execWtridxWrite val s
  | .measext val => Sys2Proof.Machine.execMeasext val s
  | .resync val => Sys2Proof.Machine.execResync val s
  | .stoprelRelease ctx agent path => Sys2Proof.Machine.execStoprelRelease ctx agent path s
  | .stoprelStep ctx agent path => Sys2Proof.Machine.execStoprelStep ctx agent path s
  | .stoprelAll ctx => Sys2Proof.Machine.execStoprelAll ctx s
  | .stoparmWrite idx val => Sys2Proof.Machine.execStoparmWrite idx val s
  | .breakpointHold agent path k => Sys2Proof.Machine.execBreakpointHold agent path k s
  | .stallclr => Sys2Proof.Machine.execStallclr s
  | .trctlWrite val => Sys2Proof.Machine.execTrctlWrite val s
  | .traceLossWrite => Sys2Proof.Machine.execTraceLossWrite s
  | .pctlWrite port val => Sys2Proof.Machine.execPctlWrite port val s
  | .frameTransmit port => Sys2Proof.Machine.execFrameTransmit port s
  | .frameReceive port frame fcsOk => Sys2Proof.Machine.execFrameReceive port frame fcsOk s
  | .gateConfigChange port => Sys2Proof.Machine.execGateConfigChange port s
  | .gateCycleStart port => Sys2Proof.Machine.execGateCycleStart port s
  | .gateIntervalExpire port => Sys2Proof.Machine.execGateIntervalExpire port s
  | .portLinkDown port => Sys2Proof.Machine.execPortLinkDown port s
  | .getVersion transport req => Sys2Proof.Machine.execGetVersion transport req s
  | .getCapabilities transport req => Sys2Proof.Machine.execGetCapabilities transport req s
  | .negotiateAlgorithms transport req => Sys2Proof.Machine.execNegotiateAlgorithms transport req s
  | .getDigests transport req => Sys2Proof.Machine.execGetDigests transport req s
  | .getCertificate transport req => Sys2Proof.Machine.execGetCertificate transport req s
  | .challenge transport req => Sys2Proof.Machine.execChallenge transport req s
  | .getMeasurements transport req => Sys2Proof.Machine.execGetMeasurements transport req s
  | .dpctlEnable out val => Sys2Proof.Machine.execDpctlEnable out val s
  | .hpdLoss out => Sys2Proof.Machine.execHpdLoss out s
  | .auxNativeWrite out val => Sys2Proof.Machine.execAuxNativeWrite out val s
  | .auxNativeRead out val => Sys2Proof.Machine.execAuxNativeRead out val s
  | .auxI2cWrite out val => Sys2Proof.Machine.execAuxI2cWrite out val s
  | .auxI2cRead out val => Sys2Proof.Machine.execAuxI2cRead out val s
  | .auxI2cWriteMot out val => Sys2Proof.Machine.execAuxI2cWriteMot out val s
  | .auxI2cReadMot out val => Sys2Proof.Machine.execAuxI2cReadMot out val s
  | .auxReply out reply data => Sys2Proof.Machine.execAuxReply out reply data s
  | .backInvalidate window line => Sys2Proof.Machine.execBackInvalidate window line s
  | .illegalEncoding word => Sys2Proof.Machine.execIllegalEncoding word s
  | .portLinkUp port => Sys2Proof.Machine.execPortLinkUp port s
  | .hpdAssert out => Sys2Proof.Machine.execHpdAssert out s
  | .linkTrainingDone out rate lanes ok => Sys2Proof.Machine.execLinkTrainingDone out rate lanes ok s
  | .grandmasterTimeout => Sys2Proof.Machine.execGrandmasterTimeout s

end Sys2Proof.Machine
end

