-- ==== Sys2Proof/Machine/Sched.lean ====
section
/-! DEFINITION. What comes next: the items of the agenda that are no instruction, the stall counters (R474, R475), the default
order where the agenda is empty (R323-R327), and the placing of a word for the next step. -/

namespace Sys2Proof.Machine

/-! ## Ready paths (R323) -/

/-- Whether an instruction may find that it cannot issue yet though no window holds it back: its counter stands at its limit (R40), or it
waits for a credit, an entry, a permit or a job. -/
def mayHold (x : Agent) (w : Slot) : Bool :=
  let cnt := (fieldsOf w).cnt.toNat
  (cnt != 0 && x.d.getD (cnt - 1) 0 ≥ 63) || match instrOf w with
    | .lnks _ | .cpy _ | .cpyq _ | .cbld _ | .gthr _ | .job _ | .tst _ | .st _ | .strm _ | .atom _ | .red _ | .xmwr _ | .varpt _ | .qapp _ | .ctxsv _ | .tlbiVa _
    | .tlbiAsn _ | .tlbiAll _ | .tstamp _ => true
    | _ => false

/-- Whether the slot that a path comes to would go back unissued. -/
def goesBack (n p : Nat) (w : Slot) (t : State) : Bool :=
  match exec (instrOf w) t with
  | .next u => ((u.path? n p).map (·.stall)).getD false
  | _ => false

/-- Whether the next issue of a path could happen now (R323): its line is there, and no window, counter, credit or entry holds it back. -/
def canGo (s : State) (n p : Nat) : Bool :=
  match beginIssue s n p with
  | .slot _ w t => (blockedBy s n p (instrOf w)).isNone && !engineLate s n (instrOf w) && !(((s.agent? n).map fun x => mayHold x w).getD false && goesBack n p w t)
  | .notReady | .fill .. => false
  | _ => true

/-- The ready paths of an agent. -/
def readyPaths (s : State) (x : Agent) : List (Nat × Path) :=
  ((List.range x.paths.length).zip x.paths).filter fun (i, q) => !q.stall && canGo s x.num i

/-- Agents that are resident: their gang is on its cluster. -/
def residents (s : State) : List Agent :=
  s.agents.filter fun x => !x.ended && ((s.gang? x.gang).map fun y => y.st == .resident).getD false

/-- R324: a straggler: another wave of its block waits at a BAR or GBAR that this wave has not reached. -/
def straggler (s : State) (x : Agent) : Bool :=
  (s.wavesOf x.gang x.role).any fun y => y.num != x.num && y.paths.any fun q => match q.wait with
    | some (.bar k) => !x.arrived (isBar k)
    | some (.gbar k) => !x.arrived (isGbar k)
    | _ => false

/-- R324: the effective priority of a wave. -/
def wavePrio (s : State) (x : Agent) : Nat :=
  if x.fill then match s.fillOfGang x.gang with | some f => s.fillPrio f.id | none => 0
  else ((s.gang? x.gang).map (·.prio)).getD 0

/-- Whether a wave or program that yielded ranks last in this choice (R106). -/
def yielded (s : State) (x : Agent) : Bool := x.youngest != 0 && x.youngest ≥ s.clk

def lexLt : List Nat → List Nat → Bool
  | a :: s, b :: t => a < b || (a == b && lexLt s t)
  | _, _ => false

/-- The least element of a list by its key. -/
def leastBy (key : α → List Nat) : List α → Option α
  | [] => none
  | a :: t => some (t.foldl (fun m x => if lexLt (key x) (key m) then x else m) a)

/-- R325: after 32 issues in a row the wave's next issue goes to a sibling. -/
def turnPaths (x : Agent) (ps : List (Nat × Path)) : List (Nat × Path) :=
  let rest := ps.filter fun p => p.1 != x.lastPath
  if x.inRow ≥ 32 && !rest.isEmpty then rest else ps

/-- Whether a path is overdue: it has been ready for 32 clocks since it last issued (R326). -/
def Path.isOverdue (q : Path) : Bool := q.overdue || decide (32 ≤ q.ready)

/-- The rank of a ready path (R323, R327): the least goes first. -/
def rank (s : State) (x : Agent) (i : Nat) (q : Path) : List Nat :=
  let flag (b : Bool) : Nat := if b then 0 else 1
  let late (b : Bool) : Nat := if b then 1 else 0
  let late_ (q : Path) : Nat := 2 ^ 64 - q.ready
  if x.pilot then [late (yielded s x), 7 - wavePrio s x, x.issuedAt, x.num, i]
  else [flag q.isOverdue, if q.isOverdue then late_ q else 0, flag (x.fill || straggler s x), 7 - wavePrio s x, late (yielded s x), x.started, x.num, late_ q, i]

/-- R323, R327: the path that a unit issues. -/
def pick (s : State) (unit : Nat) : Option (Nat × Nat) :=
  let cands := ((residents s).filter fun x => issueUnit x == unit).flatMap fun x => (turnPaths x (readyPaths s x)).map fun (i, q) => (x, i, q)
  (leastBy (fun (x, i, q) => rank s x i q) cands).map fun (x, i, _) => (x.num, i)

/-! ## Stall accounting (R474, R475) -/

/-- The outstanding result that a path waits for: the oldest that a WAITC counts (R336), or that a VARPT waits for (R344), or the one that
holds its next slot back. -/
def waitsFor (s : State) (x : Agent) (p : Nat) (q : Path) : Option Pend :=
  match q.wait with
  | some (.waitc all k _) => s.pend.find? fun r => r.agent == x.num && if all then r.cnt != 0 || !r.wins.isEmpty else r.cnt == k + 1
  | _ => match beginIssue s x.num p with
    | .slot _ w _ => match blockedBy s x.num p (instrOf w), instrOf w with
      | some id, _ => s.pend.find? fun r => r.id == id
      | none, .varpt _ => s.pend.find? fun r => r.agent == x.num && (r.cnt != 0 || !r.wins.isEmpty)
      | none, _ => none
    | _ => none

/-- Whether the next slot of a path is a VARPT (R344). -/
def atVarpt (s : State) (x : Agent) (p : Nat) : Bool := match beginIssue s x.num p with
  | .slot _ w _ => match instrOf w with | .varpt _ => true | _ => false
  | _ => false

/-- What a wait for a result is charged to (R188, R222, R475): THERMAL, RECKON, NOC, ENGINE or MEM. (DESIGN CHOICE, log 96) -/
def resultReason (s : State) (r : Pend) : Nat :=
  match r.hold with
  | .stage _ => if heldBack s r then 18 else 17
  | .job id => if jobWaits s id then 18 else 23
  | .link .. | .linkSent _ => 26
  | .engine id => if s.fills.any fun f => f.nodes.any fun n => n.who == .op r.agent id then 18 else 23
  | .engineDone _ | .coll .. => 23
  | _ => if s.tick < r.behind then 24 else r.why

/-- R336: what WAITC is charged to: the reason of the oldest counted instruction, where that is one of the four; else DEP. -/
def waitcReason (s : State) (r : Option Pend) : Nat :=
  match r with
  | some r => if resultReason s r == 26 then 20 else resultReason s r
  | none => 20

/-- What a slot that does not issue, though nothing outstanding holds it back, is charged to: a counter at its limit, a link credit
(R277), a submission or an engine instruction (R278, R341), a store that a job holds back (R241), or anything else. -/
def heldReason (x : Agent) (w : Slot) : Nat :=
  let cnt := (fieldsOf w).cnt.toNat
  if cnt != 0 && x.d.getD (cnt - 1) 0 ≥ 63 then 17
  else match instrOf w with
    | .lnks _ => 26
    | .cpy _ | .cpyq _ | .cbld _ | .gthr _ | .job _ | .tld _ | .tst _ | .tshape _ | .tzero _ | .tfeed _ | .tdrain _ | .mma _ | .acvt _ | .menc _ | .bobjArm _ | .bobjWait _ => 23
    | .ld _ | .st _ | .atom _ | .red _ | .ldrm _ | .strm _ | .qapp _ => 17
    | _ => 20

/-- R475: the reason that a path is charged with, as a counter's index. (DESIGN CHOICE, log 96) -/
def stallReason (s : State) (x : Agent) (p : Nat) (q : Path) : Nat :=
  let parked := match q.park with | some (.xlate ..) => true | _ => false
  if q.st == .stopped || q.trapHeld || parked then 27
  else if q.park.isSome then 18
  else match q.wait with
    | some (.mwait ..) | some (.sleep _) => 27
    | some (.varpt _ _ _ asked) => if asked then 25 else 20
    | some (.bar _) | some (.gbar _) | some (.rdzv ..) | some (.regroup _) => 19
    | some (.waitc ..) => waitcReason s (waitsFor s x p q)
    | some (.bobj _) => 23
    | some _ => 20
    | none =>
      match waitsFor s x p q with
      | some r =>
        let why := resultReason s r
        if atVarpt s x p && ((s.gang? x.gang).map (·.request)).getD false && why != 18 && why != 24 then 25 else why
      | none => match beginIssue s x.num p with
        | .fill .. => 21
        | .slot _ w _ => if q.stall then heldReason x w else 20
        | _ => 20

/-- The clocks, of those from now on, on which the array waits for the expander (R187, R188): every other clock of the occupancy of an
MMA with an operand of 8-bit slots and none of 16. (DESIGN CHOICE, log 96) -/
def expandClocks (s : State) (x : Agent) (r : Pend) (clocks : Nat) : Nat :=
  match r.hold with
  | .engineDone id => match (s.blockOf? x.gang x.role).bind fun b => b.engq.find? fun o => o.id == id with
    | some op =>
      let slots := op.shapes.map fun sh => kindSlot sh.2.2
      let occ := 64 * (op.shapes.headD (0, 0, 0)).2.1
      let upTo (t : Nat) : Nat := (min t (op.start + occ) - op.start) / 2
      match op.instr with
      | .mma _ => if slots.all (· == 4) || slots.contains 16 then 0 else upTo (s.clk + clocks) - upTo s.clk
      | _ => 0
    | none => 0
  | _ => 0

/-- The clocks charged to a path's reasons. -/
def chargePath (s : State) (x : Agent) (p : Nat) (q : Path) (clocks : Nat) : List (Nat × Nat) :=
  let why := stallReason s x p q
  if why != 23 then [(why, clocks)]
  else
    let e := ((waitsFor s x p q).map fun r => expandClocks s x r clocks).getD 0
    [(23, clocks - e), (22, e)]

/-- What a partition counts over some clocks in which as many waves had a ready path: a bin, and the reasons where none had. -/
def stallBin (s : State) (ws : List Agent) (n clocks : Nat) : List (Nat × Nat) :=
  if n != 0 then [(min n 16, clocks)]
  else (0, clocks) :: match leastBy (fun (x : Agent) => [if yielded s x then 1 else 0, x.started, x.num]) ws with
      | none => []
      | some x => match ((List.range x.paths.length).zip x.paths).find? fun (_, q) => q.st != .free && q.st != .join with
        | some (i, q) => chargePath s x i q clocks
        | none => [(20, clocks)]

/-- What a partition counts over some clocks: a wave that has issued in this clock had a ready path in it, and in the clocks after it as it
stands. (DESIGN CHOICE, log 96) -/
def stallOf (s : State) (part clocks : Nat) : List (Nat × Nat) :=
  let ws := (residents s).filter fun x => !x.pilot && issueUnit x == part
  if ws.isEmpty then []
  else
    let ready := ws.filter fun x => !(readyPaths s x).isEmpty
    let now := ws.filter fun x => x.issuedAt == s.clk + 1 || ready.contains x
    if now.length == ready.length then stallBin s ws ready.length clocks
    else stallBin s ws now.length (min 1 clocks) ++ stallBin s ws ready.length (clocks - 1)

/-- Clocks charged to the counters of every partition with a resident wave. (DESIGN CHOICE, log 96) -/
def countStalls (s : State) (clocks : Nat) : State :=
  if clocks == 0 then s
  else
    let parts := (((residents s).filter fun x => !x.pilot).map issueUnit).eraseDups
    { s with stalls := parts.foldl (fun m part => (stallOf s part clocks).foldl (fun m e => mset 0 m (32 * part + e.1) (mget 0 m (32 * part + e.1) + e.2)) m) s.stalls }

/-! ## The agenda -/

/-- The clocks for which a path has been ready since it last issued (R323, R326): those just past count where nothing but another's
issue kept it from issuing. -/
def readyClocks (s : State) (x : Agent) (i : Nat) (q : Path) (clocks : Nat) : Nat :=
  if q.st != .eligible || (x.issuedAt == s.clk + 1 && x.lastPath == i) || q.stall || !canGo s x.num i then q.ready else q.ready + clocks

/-- The arithmetic clocks that pass with device time, and the ninths of a tick that are left of the next one (R10, R11): a period of 3.2 GHz
is 45 of them, one of 3.6 GHz 40. In fixed-clock mode every period is of 3.2 GHz; else as many clocks pass as are asked for between those of
the two rates. (DESIGN CHOICE, log 8) -/
def clocksOf (s : State) (ticks clocks : Nat) : Nat × Nat :=
  let u := s.clkFrac + 9 * ticks
  let n := if s.regs.fixed then u / 45 else max (u / 45) (min clocks (u / 40))
  (n, u - 45 * n)

/-- Time passes: device time and arithmetic clocks (R5, R10, R43), up to the next moment at which something recurs, or none while something
is due. A relaxed store reaches its home within 10 µs (R231); a mark for rotation goes whose conditions no longer hold (R463).
 -/
def advance (s : State) (ticks clocks : Nat) : State :=
  let ticks := ticksTo s ticks
  let (clocks, frac) := clocksOf s ticks clocks
  let s := drainWhere (countStalls (clearMarks s) clocks) fun r => r.since + 160000 ≤ s.tick + ticks
  { s with tick := s.tick + ticks, clk := s.clk + clocks, clkFrac := frac, issued := if clocks == 0 then s.issued else [],
           agents := s.agents.map fun (x : Agent) => { x with paths := x.paths.mapIdx fun i (p : Path) => { p with stall := false, ready := readyClocks s x i p clocks } } }

/-- A junction temperature is read, in sixteenths of a degree; a stopped core cools below 100 °C from some moment on (R11). An allowance
update that is due takes the temperature from before (R462). -/
def readTemp (s : State) (core : Nat) (t : Option Int) : State :=
  let s := updateAllowance s
  let c := s.core core
  let cool := c.stopped && (t.map fun v => decide (v < 1600)).getD false
  s.setCore { c with temp := t, coolSince := if cool then c.coolSince.or (some s.tick) else none }

/-- The machine after an event. -/
def after (s : State) (o : Host.Outcome State Fault Refusal) : State := match o with
  | .next t => t
  | _ => s

/-- The first request that waits is served (R419). -/
def serveRequest (s : State) : Host.Outcome State Fault Refusal := match s.attest.requests with
  | [] => event s
  | (t, q) :: _ => match leField q 1 1 with
    | 0xE1 => execGetCapabilities t q s
    | 0xE3 => execNegotiateAlgorithms t q s
    | 0x81 => execGetDigests t q s
    | 0x82 => execGetCertificate t q s
    | 0x83 => execChallenge t q s
    | 0xE0 => execGetMeasurements t q s
    | _ => execGetVersion t q s

/-- What recurs happens, with nothing from outside: sensors give their last sample again, and a group under test passes. -/
def recur (s : State) (r : Recur) : State := after s (match r with
  | .allowance => execAllowanceUpdate s
  | .sample => execSensorSample [] s
  | .rotation => execRotationPass s
  | .refresh b => execBankRefresh b s
  | .turn k => execTesterTurn k true s
  | .overpower => execOverpower s.power s
  | .request => serveRequest s)

/-- A copy of a line that is taken with no access of a program (R231 rule 3): a cache may do so at any time. -/
def takeCopy (s : State) (n : Nat) (sp : Sp) (line : Nat) : State :=
  let there : Bool := match sp with
    | .loc => decide (128 * line < s.regs.gddr)
    | .rk asn => s.resident asn line
    | _ => false
  match s.agent? n with
  | some x => if there then renew s n sp line x.clock 0 else s
  | none => s

/-- An item of the agenda that is neither an issue nor an event. (DESIGN CHOICE, log 156) -/
def applyStim (s : State) (x : Stim) : State :=
  match x with
  | .issue _ _ => s
  | .event _ => s
  | .advance t c => advance s t c
  | .dropCopy p sp l => { s with copies := s.copies.filter fun k => !(k.place == p && k.sp == sp && k.line == l) }
  | .dropXlate asn page => { s with tlb := s.tlb.filter fun t => !(t.asn == asn && t.page == page) }
  | .dropFetch core va => { s with fetch := s.fetch.filter fun f => !(f.core == core && f.va == va) }
  | .drain n i => match (s.relaxed.filter fun r => r.agent == n)[i]? with
    | some r => performRelaxed { s with relaxed := s.relaxed.erase r } r
    | none => s
  | .engine g role op => if onCluster s g && ((s.blockOf? g role).map fun b => !b.engBusy).getD false then engPerform s g role op else s
  | .engineBusy g role busy => s.updBlock g role fun b => { b with engBusy := busy }
  | .hostStore sp a bs => storeHost s sp a bs
  | .temperature c t => readTemp s c t
  | .recur r => recur s r
  | .takeCopy n sp l => takeCopy s n sp l

/-! ## The default order -/

/-- The machine changed by an event; none where the event leaves it as it is. -/
def changes (s : State) (i : Instr) : Bool :=
  match exec i s with
  | .next t => t != s
  | _ => false

/-- Events of paths that wait or are parked. -/
def pathEvents (s : State) : List Instr :=
  s.agents.flatMap fun x => if x.ended then [] else ((List.range x.paths.length).zip x.paths).flatMap fun (i, q) =>
    (match q.wait with
      | some (.waitc ..) => [.waitcComplete x.num i]
      | some (.sleep _) => [.sleepExpire x.num i]
      | some (.mwait ..) => [.mwaitWritten x.num i, .mwaitExpire x.num i]
      | some (.bar k) => [.barrierComplete x.gang x.role false k]
      | some (.gbar k) => [.barrierComplete x.gang x.role true k]
      | some (.rdzv k _ _) => [.rdzvPhaseComplete x.gang k]
      | some (.regroup _) => [.regroupComplete x.gang x.role]
      | some (.varpt ..) => [.switchPointReached x.gang, .switchWaitTimeout x.gang]
      | _ => [])
    ++ (match q.park with
      | some (.xlate m _ _ _) => [.walkerMonitorWake (m.pte / 128), .xlateRewalk x.num i]
      | some (.resource since) => if since < s.tick then [.reckonResourceRetry x.num i] else []
      | _ => [])
    ++ (if 32 ≤ q.ready && !q.overdue then [.pathOverdue x.num i] else [])
    ++ match beginIssue s x.num i with
      | .fill core ctx va => [.fetchLineFill core ctx (BitVec.ofNat 64 va) 0 0]
      | _ => []

/-- Events of the helm, the fills, the jobs and the units. -/
def machineEvents (s : State) : List Instr :=
  s.pend.map (fun p => .resultVisible p.agent p.id)
    ++ s.links.map (fun m => .linkMessageLand m.id)
    ++ s.gangs.flatMap (fun y => y.permitQ.map fun r => .permitGrant y.key r.2.1)
    ++ s.jobs.flatMap (fun j => [.jobStart j.id, .jobComplete j.id])
    ++ s.colls.flatMap (fun c => (c.missed.filter (·.2)).map fun e => .walkerMonitorWake e.1)
    ++ s.fills.flatMap (fun f => f.nodes.map fun n => .waitNodeRelease f.id n.id)
    ++ s.gangs.flatMap (fun y => [.gangRetire y.key, .fullSaveTimeout y.key, .migrationResume y.key, .watchdog y.key])
    ++ s.launches.flatMap (fun l => [.stagingDone l.id, .stagingTimeout l.id])
    ++ s.cores.flatMap (fun c => [.thermalStop c.core, .thermalResume c.core])
    ++ s.ctxs.map (fun c => .destroyComplete c.id)
    ++ s.trails.map (fun t => .trailTimeout t.tag)
    ++ s.ports.flatMap (fun p => [.gateCycleStart p.port, .gateIntervalExpire p.port, .frameTransmit p.port])
    ++ [.saveSlotsFree, .takeRecord, .fillLaunch, .placeGang, .reckonHeldSave, .traceLossWrite]

/-- What recurs and is due. -/
def timedEvent (s : State) : Option Stim := ((recurring s).find? fun e => decide (e.1 ≤ s.tick)).map fun e => .recur e.2

/-- An accepted engine instruction that the engine may perform. -/
def engineTurn (s : State) : Option Stim :=
  s.blocks.findSome? fun b =>
    if b.engBusy || !onCluster s b.gang then none
    else (b.engq.find? fun o => o.job.isNone && engReady s b o).map fun o => .engine b.gang b.role o.id

/-- A path in the middle of a part: the part's other slots issue in the same clock (R54). -/
def openPart (s : State) : Option (Nat × Nat) :=
  s.agents.findSome? fun x => ((List.range x.paths.length).zip x.paths).findSome? fun (i, q) => if midPart s x i q then some (x.num, i) else none

/-- The default order: a part under way issues whole; each partition and pilot issues once in a clock (R323, R327), partition 0 first (R166); then whatever may happen happens; then time
passes by one clock of 3.2 GHz. -/
def defaultStim (s : State) : Stim :=
  let units := (((residents s).map issueUnit).eraseDups.filter fun u => !s.issued.contains u).foldl (fun l u => l.takeWhile (· < u) ++ u :: l.dropWhile (· < u)) []
  match (openPart s).or (units.findSome? (pick s)) with
  | some (n, p) => .issue n p
  | none =>
    match (pathEvents s ++ machineEvents s).find? (changes s) with
    | some i => .event i
    | none => match (timedEvent s).or ((if s.attest.requests.isEmpty then none else some (.recur .request)).or (engineTurn s)) with
      | some x => x
      | none => match s.relaxed with
        | r :: _ => .drain r.agent 0
        | [] => .advance 5 1

/-- The note that an agent's partition or pilot has issued in this clock. -/
def markIssued (s : State) (n : Nat) : State :=
  match s.agent? n with
  | some x => { s with issued := issueUnit x :: s.issued.filter (· != issueUnit x) }
  | none => s

/-! ## A word for the next step -/

/-- A fetch line whose slot 0 is a bundle of one, with its parity (R50). -/
def oneSlotLine (w : Slot) : Line :=
  let l : Line := w.zeroExtend 512 ||| ((0x21 : Line) <<< 480)
  l ||| ((parityOf l).zeroExtend 512 <<< 496)

/-- A gang of one wave on core 0, in a live context of its own, at a cached fetch line that holds a word; it issues next. -/
def loadWord (s : State) (w : Slot) : State :=
  let key : GangKey := { launch := s.nextLaunch, idx := 0 }
  let ctx : Ctx := { id := 256, cstate := 1 }
  let gang : Gang := { key := key, ctx := 256, st := .resident }
  let block : Block := { gang := key, role := 0 }
  let path : Path := { pc := 0x20000, xmask := 0xFFFFFFFF, st := .eligible }
  let wave : Agent := { num := 0, gang := key, role := 0, idx := 0, nregs := 256, paths := path :: List.replicate 7 {} }
  let line : FetchLine := { core := 0, asn := 0, va := 0x20000, data := oneSlotLine w, ok := true }
  { s with nextLaunch := s.nextLaunch + 1, ctxs := ctx :: s.ctxs, gangs := gang :: s.gangs, blocks := block :: s.blocks, agents := wave :: s.agents.filter fun x => x.num != 0, fetch := line :: s.fetch, agenda := .issue 0 0 :: s.agenda }

end Sys2Proof.Machine
end

