-- ==== Sys2Proof/Machine/Step.lean ====
section
/-! DEFINITION. One step of the machine: the head of the agenda happens, or, with an empty agenda, what the default order
has next. -/

namespace Sys2Proof.Machine

/-- The next issue of a path: its slot's instruction is executed, or what stands in its way happens. -/
def stepIssue (s : State) (agent path : Nat) : Host.Outcome State Fault Refusal :=
  match beginIssue (markIssued s agent) agent path with
  | .slot _ w t =>
    match blockedBy s agent path (instrOf w) with
    | some _ => .refused .notReady
    | none => if engineLate s agent (instrOf w) then .refused .notReady else exec (instrOf w) t
  | .did t => .next t
  | .event i t => exec i t
  | .fill core ctx va => exec (.fetchLineFill core ctx (BitVec.ofNat 64 va) 0 0) s
  | .notReady => .refused .notReady

/-- One item of the agenda. -/
def stepStim (s : State) (x : Stim) : Host.Outcome State Fault Refusal :=
  match x with
  | .issue a p => stepIssue s a p
  | .event i => exec i s
  | x => .next (applyStim s x)

/-- One step. (DESIGN CHOICE, log 9) -/
def step (s : State) : Host.Outcome State Fault Refusal :=
  match s.agenda with
  | x :: rest => stepStim { s with agenda := rest } x
  | [] => stepStim s (defaultStim s)

/-- `s` with an instruction of `nbits` bits where the next step fetches: a wave of its own stands at a cached fetch line
whose slot 0 holds the word as a bundle of one, and the agenda has it issue. It stands for the load of a program and its
launch. (DESIGN CHOICE, log 2) -/
def State.withFetchWord (s : State) (nbits w : Nat) : State := loadWord s (BitVec.ofNat 96 (w % 2 ^ nbits))

end Sys2Proof.Machine
end

