-- ==== Sys2Proof/Safety.lean ====
section
/-! DEFINITION. The terms in which claims speak: what a safe state is, when an instruction issues, what its end is, and what
a result leaves in registers and counters. -/

namespace Sys2Proof.Machine

/-! ## Invariants -/

/-- Every memory of the machine is in canonical form: each storage, the lists of storages themselves, each block's scratchpad,
and those of the blocks that a gang's checkpoint holds. -/
def State.memWf (s : State) : Bool :=
  Memory.wf s.loc && Memory.wf s.host && mwf [] s.peer && mwf [] s.pool && mwf [] s.rkmem && s.peer.all (fun x => Memory.wf x.2) && s.pool.all (fun x => Memory.wf x.2)
    && s.rkmem.all (fun x => Memory.wf x.2) && s.blocks.all (fun b => Memory.wf b.scr) && s.gangs.all (fun y => y.ckBlocks.all fun b => Memory.wf b.scr)

/-! ## What is seen of an agent -/

/-- The registers of an agent that has not ended. -/
def State.regsOf (s : State) (n : Nat) : Option Regs := (s.agent? n).map (·.regs)

/-- One lane of one vector register of an agent. -/
def State.vreg (s : State) (n reg lane : Nat) : Word := ((s.regsOf n).map fun r => r.get reg lane).getD 0

/-- One lane of one predicate of an agent. -/
def State.vpred (s : State) (n p lane : Nat) : Bool := ((s.regsOf n).map fun r => r.pred p lane).getD false

/-- The bundle under way on a path. -/
def State.bundle (s : State) (n p : Nat) : Option Bun := (s.path? n p).bind (·.bun)

/-! ## What a frame leaves alone -/

/-- Every byte of every storage reads as before. -/
def SameMemory (s t : State) : Prop := ∀ sp a, t.byteAt sp a = s.byteAt sp a

/-- Every byte outside `p` reads as before. -/
def SameMemoryBut (p : Sp → Nat → Prop) (s t : State) : Prop := ∀ sp a, ¬p sp a → t.byteAt sp a = s.byteAt sp a

/-- The trace ring, while the trace is on (R464, R468). -/
def InTraceRing (s : State) (sp : Sp) (a : Nat) : Prop :=
  sp = .loc ∧ s.regs.trctl.getLsbD 0 ∧ s.regs.trbase ≤ a ∧ a < s.regs.trbase + 2 ^ s.regs.trlog

/-- The registers of every agent are as before. -/
def SameRegs (s t : State) : Prop := ∀ n, t.regsOf n = s.regsOf n

/-- Every context but `c` is as before. -/
def OtherContexts (s t : State) (c : Nat) : Prop := ∀ i, i ≠ c → t.ctx? i = s.ctx? i

/-- A block in which no tile but `t`, no accumulator but `a` and no other part has changed. -/
def KeepsOthers (b c : Block) (t a : Option Nat) : Prop :=
  (∀ i, t ≠ some i → c.tile i = b.tile i) ∧ (∀ i, a ≠ some i → c.acc i = b.acc i) ∧ ∃ ts as, c = { b with tiles := ts, accs := as }

/-- Registers of agent `n` as before but for the vector register `d`, for `d + 1` with `wide`, and for new bits of ARITHSTAT; those of
other agents as before. -/
def OnlyDest (s t : State) (n d : Nat) (wide : Bool) : Prop :=
  (∀ m, m ≠ n → t.regsOf m = s.regsOf m)
  ∧ ∀ r, s.regsOf n = some r → ∃ r', t.regsOf n = some r' ∧ r'.p = r.p ∧ r'.rnd = r.rnd ∧ r'.trapen = r.trapen ∧ r'.mem = r.mem ∧ r'.fmask = r.fmask
      ∧ r'.arith &&& r.arith = r.arith ∧ ∀ reg lane, lane < 32 → reg ≠ d → ¬(wide ∧ reg = d + 1) → r'.get reg lane = r.get reg lane

/-- The destination of a fixed-latency instruction with one result per lane: its register, and whether it is a pair. -/
def fixedDest : Instr → Option (Nat × Bool)
  | .iadd x | .isub x | .imin x | .imax x | .iabs x | .iadd64 x | .shl x | .shr x | .sar x | .rot x | .and x | .or x | .xor x | .brev x | .bfx x | .sel x | .mov x =>
    some (x.d.toNat, x.ty.bytes == 8)
  | .iaddImm x | .isubImm x | .iminImm x | .imaxImm x | .iadd64Imm x | .shlImm x | .shrImm x | .sarImm x | .rotImm x | .andImm x | .orImm x | .xorImm x
  | .bfxImm x | .selImm x | .movi x => some (x.d.toNat, x.ty.bytes == 8)
  | .sad x | .lop3 x | .popc x | .clz x | .ctz x | .bfi x | .prmt x | .fadd x | .fmul x | .ffma x | .fmin x | .fmax x | .fclass x | .frnd x | .hadd2 x | .hmul2 x
  | .hfma2 x | .badd2 x | .bfma2 x | .fdot4 x | .cpack x | .cunpk x => some (x.d.toNat, false)
  | .lop3Imm x | .bfiImm x | .prmtImm x | .faddImm x | .fmulImm x | .ffmaImm x | .fminImm x | .fmaxImm x | .hadd2Imm x | .hmul2Imm x | .hfma2Imm x | .badd2Imm x
  | .bfma2Imm x => some (x.d.toNat, false)
  | .lea x => some (x.d.toNat, true)
  | .leaImm x => some (x.d.toNat, true)
  | _ => none

/-- The rows of the opcode table that are instructions: every row but the happenings of the machine and of its host, which have no
word. -/
def hasWord (i : Instr) : Bool :=
  match i with
  | .regroupComplete .. | .resultVisible .. | .trapEntry .. | .fetchLineFill .. | .gangRetire .. | .barrierComplete .. | .rdzvPhaseComplete ..
  | .waitcComplete .. | .sleepExpire .. | .mwaitWritten .. | .mwaitExpire .. | .linkMessageLand .. | .permitGrant .. | .jobStart .. | .jobComplete ..
  | .takeRecord .. | .placeGang .. | .stagingDone .. | .stagingTimeout .. | .switchPointReached .. | .switchWaitTimeout .. | .fullSaveTimeout ..
  | .saveSlotsFree .. | .migrationResume .. | .pathOverdue .. | .requestInject .. | .walkerMonitorWake .. | .xlateRewalk .. | .reckonResourceRetry ..
  | .fillLaunch .. | .waitNodeRelease .. | .reckonHeldSave .. | .unitEvict .. | .watchdog .. | .thermalStop .. | .thermalResume .. | .hwError ..
  | .correctedError .. | .dieUncorrectable .. | .sensorSample .. | .bankRefresh .. | .allowanceUpdate .. | .rotationPass .. | .testerTurn ..
  | .testerAbort .. | .overpower .. | .reset .. | .firmwareReload .. | .registerWrite .. | .featacceptWrite .. | .modectlWrite .. | .ctxCreate ..
  | .ctxDestroy .. | .destroyComplete .. | .hostTlbiVa .. | .hostTlbiAsn .. | .hostTlbiAll .. | .tailDoorbell .. | .queueEnable .. | .queueDisable ..
  | .wakeopen .. | .flip .. | .frameBoundary .. | .firstPixel .. | .trailTimeout .. | .wtringWrite .. | .wtridxWrite .. | .measext .. | .resync ..
  | .stoprelRelease .. | .stoprelStep .. | .stoprelAll .. | .stoparmWrite .. | .breakpointHold .. | .stallclr .. | .trctlWrite ..
  | .traceLossWrite .. | .pctlWrite .. | .frameTransmit .. | .frameReceive .. | .gateConfigChange .. | .gateCycleStart .. | .gateIntervalExpire ..
  | .portLinkDown .. | .getVersion .. | .getCapabilities .. | .negotiateAlgorithms .. | .getDigests .. | .getCertificate .. | .challenge ..
  | .getMeasurements .. | .dpctlEnable .. | .hpdLoss .. | .auxNativeWrite .. | .auxNativeRead .. | .auxI2cWrite .. | .auxI2cRead ..
  | .auxI2cWriteMot .. | .auxI2cReadMot .. | .auxReply .. | .backInvalidate .. | .illegalEncoding .. | .portLinkUp .. | .hpdAssert ..
  | .linkTrainingDone .. | .grandmasterTimeout .. => false
  | _ => true

/-! ## The issue of an encoded instruction -/

/-- The machine issues `k`: a path and slot are chosen, none of the checks of R70 that depend on the machine refuses, and
the instruction's counter has room (R40). -/
def Issues (s : State) (g : Ctl) (nd : Need) (k : Iss) : Prop :=
  ∃ x, issOf s g.guard = some (k, x) ∧ refusal s x nd = none ∧ (g.cnt = 0 ∨ x.d.getD (g.cnt.toNat - 1) 0 < 63)

/-- The machine once the issue has been noted and its energy charged (R66, R409), before the instruction's own effect. -/
def issued (s : State) (k : Iss) (nd : Need) : State :=
  charge (noteIssue s k) k.gang (if k.pilot then 0 else k.role) (nd.base + nd.lane * popcount k.lanes)

/-- The instruction's own effect is `t`, and its slot ends as `f` says. -/
def EndsWith (i : Instr) (s : State) (k : Iss) (t : State) (f : Fate) : Prop :=
  exec i s = .next { finish t k f with cur := none }

/-- The instruction completes: its own effect is `t`. -/
def Completes (i : Instr) (s : State) (k : Iss) (t : State) : Prop := EndsWith i s k t .done

/-! ## Results -/

/-- What `k` writes of a register: the lanes of L, but for those that a higher slot of its bundle has written (R55; none, unless it is
issued again alone). -/
def Iss.sets (k : Iss) (reg lane : Nat) : Prop := k.lanes.getLsbD lane ∧ 32 * reg + lane ∉ k.kept

/-- Registers of `k`'s agent after a result: what it writes holds `f` in register `d`, and in `d + 1` where the result is a
pair; every other lane and register is as it was. -/
def HoldsResult (b t : State) (k : Iss) (d : Nat) (wide : Bool) (f : Nat → LaneOut) : Prop :=
  (∀ lane < 32, (k.sets d lane → t.vreg k.agent d lane = (f lane).val.extractLsb' 0 32)
    ∧ (wide → k.sets (d + 1) lane → t.vreg k.agent (d + 1) lane = (f lane).val.extractLsb' 32 32))
  ∧ ∀ reg lane, lane < 32 → ¬(k.sets reg lane ∧ (reg = d ∨ (wide ∧ reg = d + 1))) → t.vreg k.agent reg lane = b.vreg k.agent reg lane

/-- A fixed-latency result is visible at once (R65): registers as `HoldsResult` says; ARITHSTAT takes the flags of every lane
of L, and ARITH falls due for the lanes whose flags trap (R120, R121); nothing else changes. -/
def FixedResult (b t : State) (k : Iss) (d : Nat) (wide : Bool) (f : Nat → LaneOut) : Prop :=
  HoldsResult b t k d wide f
  ∧ ∃ v : List (Nat × Word) → List (Nat × Word), t = k.flags (b.mapRegs k.agent fun r => { r with v := v r.v }) (outFlags (laneOuts k f)) (outTraps (laneOuts k f))

/-- One more result is outstanding: its counter, if it has one, is raised (R40, R67); nothing else changes. -/
def Outstanding (b t : State) (n : Nat) (cnt : BitVec 3) (p : Pend) : Prop :=
  let s := { b with pend := b.pend ++ [p], nextId := b.nextId + 1 }
  t = if cnt = 0 then s else s.updAgent n fun x => { x with d := bumpCounter x.d cnt.toNat true }

/-- An outstanding result of `k`: its path and PC, its counter or the window of LA instructions (R66, R67), TRAPEN and MODE as they
were (R121, R430); nothing has overwritten its destinations (R69). -/
def OfIssue (k : Iss) (g : Ctl) (p : Pend) : Prop :=
  p.agent = k.agent ∧ p.path = k.path ∧ p.pc = k.pc ∧ p.cnt = g.cnt.toNat ∧ p.wins = (if g.cnt = 0 then [(k.path, g.la.toNat - k.past)] else [])
    ∧ p.trapen = k.src.trapen ∧ p.sup = k.sup ∧ p.covered = []

/-- A variable-latency result is outstanding (R65-R67): it will write the lanes of L and nothing else, and no register has
changed yet. -/
def PendingResult (b t : State) (k : Iss) (g : Ctl) (d : Nat) (wide : Bool) (f : Nat → LaneOut) : Prop :=
  ∃ p : Pend, Outstanding b t k.agent g.cnt p ∧ OfIssue k g p
    ∧ p.writes = outWrites d wide (laneOuts k f) ∧ p.arith = outFlags (laneOuts k f) ∧ p.mem = 0 ∧ p.hold = .none
    ∧ t.regsOf k.agent = b.regsOf k.agent

/-- A result of either latency class (R83). -/
def ResultOf (var : Bool) (b t : State) (k : Iss) (g : Ctl) (d : Nat) (wide : Bool) (f : Nat → LaneOut) : Prop :=
  if var then PendingResult b t k g d wide f else FixedResult b t k d wide f

/-- An instruction with one result per lane: whenever it issues it completes, with that result. -/
def Computes (i : Instr) (g : Ctl) (nd : Need) (var : Bool) (d : Nat) (wide : Bool) (f : Iss → Nat → LaneOut) : Prop :=
  ∀ s k, Issues s g nd k → ∃ t, Completes i s k t ∧ ResultOf var (issued s k nd) t k g d wide (f k)

/-- An integer instruction's result under a type, in each lane from the captured sources (R134, R137). -/
def ComputesInt (i : Instr) (g : Ctl) (var : Bool) (out : Ty) (d : Nat) (sat : Bool) (names : List (Nat × Nat)) (f : Regs → Nat → Int) : Prop :=
  Computes i g (if var then needS ((d, out.nregs) :: names) else needInt ((d, out.nregs) :: names)) var d (out.bytes == 8) fun k l =>
    intOut out sat (f k.src l)

/-- The V3 and VI forms of an integer instruction: A and B, or the immediate widened in B's place, under the instruction's
type (R135, R137). -/
def ComputesAB (mk : V3 → Instr) (mkI : VI → Instr) (var : Ty → Bool) (sat : Bool) (f : Ty → Int → Int → Int) : Prop :=
  (∀ x : V3, ComputesInt (mk x) x.ctl (var x.ty) x.ty x.d.toNat (sat && x.sat) [(x.a.toNat, x.ty.nregs), (x.b.toNat, x.ty.nregs)] fun r l =>
    f x.ty (intAt r x.ty x.a.toNat l) (intAt r x.ty x.b.toNat l))
  ∧ ∀ x : VI, ComputesInt (mkI x) x.ctl (var x.ty) x.ty x.d.toNat (sat && x.sat) [(x.a.toNat, x.ty.nregs)] fun r l =>
    f x.ty (intAt r x.ty x.a.toNat l) (intOf x.ty (immRaw x.ty x.imm))

/-- The V3 and VI forms of a shift: A's raw bits, and the count in one register or the immediate (R139). -/
def ComputesShift (mk : V3 → Instr) (mkI : VI → Instr) (f : Ty → Nat → Nat → Int) : Prop :=
  (∀ x : V3, ComputesInt (mk x) x.ctl false x.ty x.d.toNat false [(x.a.toNat, x.ty.nregs), (x.b.toNat, 1)] fun r l =>
    f x.ty (rawOf r x.ty x.a.toNat l) (r.get x.b.toNat l).toNat)
  ∧ ∀ x : VI, ComputesInt (mkI x) x.ctl false x.ty x.d.toNat false [(x.a.toNat, x.ty.nregs)] fun r l =>
    f x.ty (rawOf r x.ty x.a.toNat l) x.imm.toNat

/-- The V3 and VI forms of a bitwise operation on raw bits (R140). -/
def ComputesLogic (mk : V3 → Instr) (mkI : VI → Instr) (f : Dword → Dword → Dword) : Prop :=
  (∀ x : V3, ComputesInt (mk x) x.ctl false x.ty x.d.toNat false [(x.a.toNat, x.ty.nregs), (x.b.toNat, x.ty.nregs)] fun r l =>
    (f (BitVec.ofNat 64 (rawOf r x.ty x.a.toNat l)) (BitVec.ofNat 64 (rawOf r x.ty x.b.toNat l))).toNat)
  ∧ ∀ x : VI, ComputesInt (mkI x) x.ctl false x.ty x.d.toNat false [(x.a.toNat, x.ty.nregs)] fun r l =>
    (f (BitVec.ofNat 64 (rawOf r x.ty x.a.toNat l)) (BitVec.ofNat 64 (immRaw x.ty x.imm))).toNat

/-- The V3 and VI forms of an operation on three 32-bit words; `tv` and `ti` are what the instruction reads beside them. -/
def ComputesWord3 (mk : V3 → Instr) (mkI : VI → Instr) (tv : V3 → α) (ti : VI → α) (f : α → Word → Word → Word → Word) : Prop :=
  (∀ x : V3, ComputesInt (mk x) x.ctl false .b32 x.d.toNat false [(x.a.toNat, 1), (x.c.toNat, 1), (x.b.toNat, 1)] fun r l =>
    (f (tv x) (r.get x.a.toNat l) (r.get x.b.toNat l) (r.get x.c.toNat l)).toNat)
  ∧ ∀ x : VI, ComputesInt (mkI x) x.ctl false .b32 x.d.toNat false [(x.a.toNat, 1), (x.c.toNat, 1)] fun r l =>
    (f (ti x) (r.get x.a.toNat l) x.imm (r.get x.c.toNat l)).toNat

/-- R142: the field of a value at the position and of the length in a control word, its top bit spread under .s32. -/
def bitField (t : Ty) (a b : Nat) : Int :=
  let len := min (b / 256 % 256) 32
  let f := intOf t a / (2 ^ (b % 256) : Nat) % (2 ^ len : Nat)
  if t = .s32 ∧ 0 < len ∧ f / (2 ^ (len - 1) : Nat) % 2 = 1 then f - (2 ^ len : Nat) else f

/-- A float instruction's result in each lane from the captured sources, rounded under its mode (R62, R148). -/
def ComputesFlt (i : Instr) (g : Ctl) (nd : Need) (var wide : Bool) (d : Nat) (mode : Word → Mode) (f : Regs → Mode → Nat → LaneOut) : Prop :=
  Computes i g { nd with regs := (d, if wide then 2 else 1) :: nd.regs } var d wide fun k l => f k.src (mode k.src.rnd) l

/-- The V3 and VI forms of an FP32 operation on A and B: the exact result rounded once (R118, R149). -/
def ComputesF32 (mk : V3 → Instr) (mkI : VI → Instr) (op : Mode → X → X → X × Word) : Prop :=
  (∀ x : V3, ComputesFlt (mk x) x.ctl (needFloat [(x.a.toNat, 1), (x.b.toNat, 1)]) false false x.d.toNat (modeOf x.rnd) fun r m l =>
    laneRound (op m (f32 (r.get x.a.toNat l)) (f32 (r.get x.b.toNat l))) fmtF32 m x.sat)
  ∧ ∀ x : VI, ComputesFlt (mkI x) x.ctl (needFloat [(x.a.toNat, 1)]) false false x.d.toNat (modeOfCode x.rndCode) fun r m l =>
    laneRound (op m (f32 (r.get x.a.toNat l)) (f32 x.imm)) fmtF32 m x.sat

/-- The V3 and VI forms of a packed 16-bit operation (R155). -/
def ComputesPacked (mk : V3 → Instr) (mkI : VI → Instr) (o : HOp) (f : Fmt) : Prop :=
  (∀ x : V3, ComputesFlt (mk x) x.ctl (needFloat ((x.a.toNat, 1) :: (if o = .fma then [(x.c.toNat, 1)] else []) ++ [(x.b.toNat, 1)])) false false x.d.toNat (modeOf x.rnd) fun r m l =>
    packed o f x.fl.toNat m x.sat (r.get x.a.toNat l) (r.get x.b.toNat l) (r.get x.c.toNat l))
  ∧ ∀ x : VI, ComputesFlt (mkI x) x.ctl (needFloat ((x.a.toNat, 1) :: (if o = .fma then [(x.c.toNat, 1)] else []))) false false x.d.toNat (modeOfCode x.rndCode) fun r m l =>
    packed o f x.fl.toNat m x.sat (r.get x.a.toNat l) x.imm (r.get x.c.toNat l)

/-- An S-pipe function of one FP32 source: the exact value rounded once (R154). -/
def ComputesFn (mk : V3 → Instr) (fn : Fn) : Prop :=
  ∀ x : V3, ComputesFlt (mk x) x.ctl (needS [(x.a.toNat, 1)]) true false x.d.toNat (modeOf x.rnd) fun r m l =>
    laneRound (fnX fn (f32 (r.get x.a.toNat l))) fmtF32 m x.sat

/-- Whenever it issues, the instruction completes with the effect that `body` gives. -/
def Does (i : Instr) (g : Ctl) (nd : Need) (body : Iss → State → State) : Prop :=
  ∀ s k, Issues s g nd k → Completes i s k (body k (issued s k nd))

/-- The same under a condition on the machine at its issue. -/
def DoesIf (i : Instr) (g : Ctl) (nd : Need) (cond : Iss → State → Prop) (body : Iss → State → State) : Prop :=
  ∀ s k, Issues s g nd k → cond k (issued s k nd) → Completes i s k (body k (issued s k nd))

/-- The instruction ends in a way other than completion: it faults (R429), waits (R82) or parks (R251). -/
def EndsIf (i : Instr) (g : Ctl) (nd : Need) (cond : Iss → State → Prop) (f : Iss → State → Fate) : Prop :=
  ∀ s k, Issues s g nd k → cond k (issued s k nd) → EndsWith i s k (issued s k nd) (f k (issued s k nd))

/-- R138: the sum or difference with the carry. -/
def carrySum (sub : Bool) (a b : Word) (c : Bool) : Int :=
  if sub then (a.toNat : Int) - b.toNat - c.toNat else (a.toNat : Int) + b.toNat + c.toNat

/-- R146: what a lane receives from SHFL. -/
def shflValue (k : Iss) (a fl : Nat) (n : Nat → Word) (l : Nat) : Word :=
  match shflLane fl l (n l) with
  | some src => if k.xmask.getLsbD src then k.src.get a src else k.src.get a l
  | none => k.src.get a l

/-- R147: the tree over 2^n lanes from lane l on, with the flags of its nodes. -/
def treeOf (f : Word → Word → Word × Word) : Nat → Nat → (Nat → Word) → Word × Word
  | 0, l, v => (v l, 0)
  | n + 1, l, v =>
    let a := treeOf f n l v
    let b := treeOf f n (l + 2 ^ n) v
    let c := f a.1 b.1
    (c.1, a.2 ||| b.2 ||| c.2)

/-- R150 in one lane. -/
def minmaxLane (isMax : Bool) (a b : Word) : LaneOut :=
  let r := minmaxBits fmtF32 isMax a.toNat b.toNat
  .ofNat r.1 r.2

/-- R151 in one lane. -/
def fsetLane (cc : Nat) (a b : Nat → X) (l : Nat) : Bool × Word :=
  (fsetOf cc (a l) (b l), if (a l).sig || (b l).sig then flInvalid else 0)

/-- The targets of the lanes of L are legal (R53): each begins a slot of a cached line that the agent may run and that the line
marks as a target. -/
def LegalTargets (s : State) (x : Agent) (target : Nat → Dword) (lanes : Word) : Prop :=
  ∀ l < 32, lanes.getLsbD l → ∃ j f, slotIndex (target l).toNat = some j
    ∧ s.fetchLine? (s.coreOf x) (s.ctxOf x.gang).asn (lineBase (target l).toNat) = some f ∧ (f.sup → x.sup) ∧ lineTgt f.data j

/-- The bundle of a branch: the next PCs of the lanes of L are set (R101, R103). -/
def Bun.goTo (bn : Bun) (lanes : Word) (target : Nat → Dword) (aux : Nat) : Bun :=
  { bn with nexts := (lanesOf lanes).foldl (fun m l => mset bn.next m l (target l)) bn.nexts, branch := true, aux := aux }

/-- A branch decides for the lanes of L that no EXIT of its bundle removes and no branch in a higher slot takes (R55, R101). With legal
targets they go there; where every target is misaligned they fault and none goes (R53, R103). -/
def BranchTo (i : Instr) (g : Ctl) (nd : Need) (target : Iss → Nat → Dword) (aux : Nat) (more : Iss → Bun → State → State) : Prop :=
  ∀ s k, Issues s g nd k → let b := issued s k nd
    ∀ x bn, b.agent? k.agent = some x → b.bundle k.agent k.path = some bn →
      let go := branchLanes k bn x.nregs
      (LegalTargets b x (target k) go →
        Completes i s k (more k bn (b.updPath k.agent k.path fun q => { q with bun := some (bn.goTo go (target k) aux) })))
      ∧ (go ≠ 0 → (∀ l < 32, go.getLsbD l → slotIndex (target k l).toNat = none) →
        EndsWith i s k (more { k with lanes := k.lanes &&& ~~~go } bn (b.updPath k.agent k.path fun q => { q with bun := some { bn with branch := true, aux := aux } })) (.faultOn 0x03 go 0 go))

/-- The newest result outstanding in `t` is `k`'s, with these register writes. -/
def Leaves (t : State) (k : Iss) (g : Ctl) (writes : List (Nat × Word)) : Prop :=
  ∃ p, t.pend.getLast? = some p ∧ OfIssue k g p ∧ p.writes = writes

/-- The byte that the last of some lane stores leaves at an address, if one stores there. -/
def lastStored (ts : List (Sp × Nat × List Byte)) (sp : Sp) (a : Nat) : Option Byte :=
  ts.foldl (fun o t => if t.1 = sp ∧ t.2.1 ≤ a ∧ a < t.2.1 + t.2.2.length then some (t.2.2.getD (a - t.2.1) 0) else o) none

/-- What one lane of an atomic finds and leaves at a location that holds `old` (R262). -/
def atomStep (x : Mem) (r : Regs) (old l : Nat) : Nat := (atomNew x.op x.ty old (rawOf r x.ty x.b.toNat l) (rawOf r x.ty x.c.toNat l)).1

/-- What each of some lanes finds at one location that holds `old`, in lane order (R263). -/
def atomChain (x : Mem) (r : Regs) (old : Nat) : List Nat → List (Nat × Nat)
  | [] => []
  | l :: ls => (l, old) :: atomChain x r (atomStep x r old l) ls

/-- What they leave there. -/
def atomLast (x : Mem) (r : Regs) (old : Nat) (ls : List Nat) : Nat := ls.foldl (atomStep x r) old

/-- Memory after stores of some lanes: the last byte stored to each address, the rest as before. -/
def StoredOnly (s t : State) (ts : List (Sp × Nat × List Byte)) : Prop :=
  ∀ sp a, t.byteAt sp a = (lastStored ts sp a).getD (s.byteAt sp a)

/-- A predicate result: the lanes of L hold `f`, and every other lane and predicate is as it was. -/
def HoldsPred (b t : State) (k : Iss) (p : Nat) (f : Nat → Bool) : Prop :=
  (∀ lane < 32, k.lanes.getLsbD lane → t.vpred k.agent p lane = f lane)
  ∧ ∀ q lane, lane < 32 → q < 16 → ¬(k.lanes.getLsbD lane ∧ q = p) → t.vpred k.agent q lane = b.vpred k.agent q lane

/-- A unit instruction (R190, R193): with the query of every lane of L at its end, it completes and each lane will receive its
registers; a page that refuses a read faults it whole; what any lane finds may refuse it whole (R208); else the lanes that miss or wait are
unfinished, all of L where the instruction may be refused, and the path parks; while a lane's query never ends, it does not issue. -/
def Queries (i : Instr) (g : Ctl) (nd : Need) (d : Nat) (reject : Option (List (Nat × LaneQ) → Option (Nat × Word))) (q : Iss → Nat → U LaneQ) : Prop :=
  ∀ s k, Issues s g nd k → let b := issued s k nd
    let r := (queryLanes b k (q k)).1
    let refused := reject.bind fun f => f (r.filterMap laneDone)
    ((∀ e ∈ r, (laneDone e).isSome) → refused = none → ∃ t, Completes i s k t
      ∧ (k.lanes ≠ 0 → Leaves t k g ((r.filterMap laneDone).flatMap fun p => p.2.regs.map fun e => (32 * (d + e.1) + p.1, BitVec.ofNat 32 e.2))))
    ∧ (∀ va, (r.filterMap lanePerm).head? = some va → EndsWith i s k b (.fault 0x11 k.lanes (BitVec.ofNat 64 va)))
    ∧ ((∀ e ∈ r, lanePerm e = none) → (∃ e ∈ r, laneEndless e) → exec i s = .next { unissue s k with cur := none })
    ∧ (∀ code m, (∀ e ∈ r, lanePerm e = none ∧ laneEndless e = false) → refused = some (code, m) → EndsWith i s k b (.fault code m 0))
    ∧ ((∀ e ∈ r, lanePerm e = none ∧ laneEndless e = false) → refused = none → (∃ e ∈ r, (laneDone e).isNone) → ∃ t m why, EndsWith i s k t (.park m why)
      ∧ ∀ l < 32, m.getLsbD l ↔ if reject.isSome then k.lanes.getLsbD l else ∃ e ∈ r, e.1 = l ∧ (laneDone e).isNone)

/-- An engine instruction of a wave (R164, R166, R172): its checks fault it, an empty L leaves it without effect, and otherwise it is
accepted in order with a result that waits for the engine. -/
def Accepted (i : Instr) (g : Ctl) (nd : Need) (opens : Bool) (energy : Block → Nat) (prep : Iss → EngOp → EngOp) : Prop :=
  ∀ s k, let nd' := { nd with pilot := false, base := 0 }
    Issues s g nd' k → let b := issued s k nd'
    ∀ bl, b.blockOf? k.gang k.role = some bl → let c := charge b k.gang k.role (energy bl)
      (engCheck bl i = false → EndsWith i s k b (.fault 0x01 k.lanes 0))
      ∧ (engCheck bl i → k.lanes = 0 → Completes i s k c)
      ∧ (engCheck bl i → k.lanes ≠ 0 → Completes i s k (engAccept (k.later { c with nextId := c.nextId + 1 } g { hold := .engine c.nextId, opens := opens, dest := engDest i k.lanes }) k.gang k.role
          (prep k { id := c.nextId, agent := k.agent, instr := i, lanes := k.lanes })))

/-- A submission (R278-R286): refused by a check it faults with nothing submitted, with a page that misses it parks, without room it does not issue; otherwise one job
joins the scheduler with the next sequence number of its counter, which D receives. -/
def Submits (i : Instr) (s : State) (k : Iss) (b : State) (g : Ctl) (d : Nat) (check : PageCheck) (room : Bool) (p : List Xlate → Job → Prop) : Prop :=
  (∀ code info, check = .fault code info → EndsWith i s k b (.fault code k.lanes (BitVec.ofNat 64 info)))
  ∧ (∀ ms, check = .miss ms → ms ≠ [] → ∃ t why, EndsWith i s k t (.park k.lanes why))
  ∧ (∀ locks, check = .ok locks → (room = false ∨ b.locksFree (b.clusterOf k.gang) locks = false) → exec i s = .next { unissue s k with cur := none })
  ∧ ∀ locks, check = .ok locks → room → b.locksFree (b.clusterOf k.gang) locks → ∃ t j, Completes i s k t ∧ t.jobs = b.jobs ++ [j]
      ∧ j.agents = [k.agent] ∧ j.ctx = (b.ctxOf k.gang).id ∧ j.locks = locks ∧ p locks j
      ∧ j.seq = ((b.ctx? j.ctx).getD { id := j.ctx }).subsOf j.cluster j.chan + 1
      ∧ (g.cnt = 0 → Leaves t k g (pairWrites d j.seq (lanesOf k.lanes)))
      ∧ (g.cnt ≠ 0 → ∃ q, t.pend.getLast? = some q ∧ OfIssue k g q ∧ q.hold = .job j.id ∧ q.writes = []
          ∧ ∀ l < 32, (k.sets d l → t.vreg k.agent d l = BitVec.ofNat 32 j.seq) ∧ (k.sets (d + 1) l → t.vreg k.agent (d + 1) l = BitVec.ofNat 32 (j.seq / 2 ^ 32)))

/-- The 704 bytes of a frame as the return reads them (R433, R438), with the machine after these reads. -/
def readFrame (s : State) (x : Agent) : Option (List Byte × State) :=
  ((List.range 88).foldl (fun (acc : Option (List Nat × State)) i => match acc with
    | some (l, s) => (supLoad s x (x.frame.toNat + 8 * i)).map fun (w, s) => (l ++ [w], s)
    | none => none) (some (([] : List Nat), s))).map fun r => (r.1.flatMap (leBytes 8), r.2)

end Sys2Proof.Machine
end

