-- ==== Sys2Proof/Certificates/Slice0/Obligations.lean ====
section
/-! DEFINITION. The statements for the provers, from the spec's numbered rules. A statement over `Issues` speaks of every state
in which the machine issues the instruction; `issued` is that state with the issue noted. -/

open Sys2Proof Sys2Proof.Machine

/-! ## Encoding and the step (R50-R60, R70, R417) -/

/-- R58, R60: every well-formed instruction has a word, and the decoder reads it back from that word with every operand. -/
def Obligations.EveryWellFormedInstructionDecodesBack : Prop :=
  ∀ i : Instr, i.wf → hasWord i → ∃ w, encode i = some w ∧ decode w = .ok i

/-- R70: what the decoder accepts is well formed, and has that word and no other. -/
def Obligations.AcceptedWordIsWellFormedAndUnique : Prop :=
  ∀ (w : Slot) (i : Instr), decode w = .ok i → i.wf ∧ encode i = some w

/-- R58 and the spec's own words of R47, R75, R107, R145, R158, R218, R337 and R437: each decodes to the instruction it stands for,
and a word with a reserved bit set decodes to none. -/
def Obligations.WordsOfTheSpecDecode : Prop :=
  decodeTableWord 96 0 = some .nop
  ∧ decodeTableWord 96 0xC00000040000000000000000 = some (.srd { d := 4, imm := 0 })
  ∧ decodeTableWord 96 0x30040001020000113FC00000 = some (.faddImm { ty := .f32, d := 1, a := 2, imm := 0x3FC00000 })
  ∧ decodeTableWord 96 0x001000060100000000000003 = some (.vote { d := 6, a := 1, opx := 3 })
  ∧ decodeTableWord 96 0x140C000100020003000003E8 = some (.isetImm { ty := .s32, d := 1, a := 0, bctl := 2, imm := 1000 })
  ∧ decodeTableWord 96 0x340000020100001420000011 = some (.cvt { ty := .e4m3, d := 2, a := 1, rnd := .rn, opx := 0x11 })
  ∧ decodeTableWord 96 0x620000090102031100000002 = some (.draw { ty := .f32, d := 9, a := 1, b := 2, c := 3, opx := 2 })
  ∧ decodeTableWord 96 0x700000070800006B00000010 = some (.ld { ctl := { cnt := 3 }, ty := .b32, d := 7, a := 8, off := 16 })
  ∧ decodeTableWord 96 0xA00C00000000000000000401 = some (.rdzv { imm := 0x401 })
  ∧ decodeTableWord 96 0xC10210000000000000000021 = some (.trap { ctl := { guard := .pos 1 }, imm := 0x21 })
  ∧ decodeTableWord 96 0xB80000020400002C67000008 = some (.tstamp { ctl := { cnt := 1 }, ty := .b64, d := 2, a := 4, ord := 0x67, off := 8 })
  ∧ decodeTableWord 96 1 = none ∧ decodeTableWord 96 0xFF0000000000000000000000 = none

/-- R51, R54, R57, R66, R69, R70, R102: the agenda's next item has a path issue that stands between bundles at a cached fetch line: a step
is exec of the instruction that its slot's word decodes to, in the state in which that slot is under way, with the wave's registers and
XMASK captured and the lanes that have an entry to go to; a word that decodes to nothing, and a line of invalid form, issues as
ILLEGAL_ENCODING; where no lane has an entry the path does not issue.
R51, R54, R56, R57, R101: a later slot of a bundle issues from the line its bundle issued from, with the registers and XMASK captured at the
bundle's start; a slot left unfinished is issued again alone, for its unfinished lanes, from the line as it is now cached.
The model's own choices in it: log 9 (the agenda names what happens next); log 122 (the lanes of a bundle are settled at its issue); log 12 (which of the two values a breach of a window leaves is free). -/
def Obligations.StepRunsTheDecodedInstruction : Prop :=
  (∀ (s : State) (rest : List Stim) (n p : Nat) (x : Agent) (q : Path) (k : Nat) (f : FetchLine),
    let b := markIssued { s with agenda := rest } n
    s.agenda = .issue n p :: rest → b.agent? n = some x → b.path? n p = some q → mayIssue b x p q → q.bun = none → q.dueNow x = none
    → q.jpc ≠ some q.pc → slotIndex q.pc.toNat = some k → b.fetchLine? (b.coreOf x) (b.ctxOf x.gang).asn (lineBase q.pc.toNat) = some f
    → (f.sup → x.sup) → stopOf b (b.ctxOf x.gang).id x.pilot q = none
    → let word := slotWord f.data k
      let slots := (bundleFrom f.data 5 k).map (slotPc (lineBase q.pc.toNat))
      let all : Bun := { first := q.pc, next := nextPc (lineBase q.pc.toNat) (k + slots.length - 1), rest := slots.drop 1, src := x.regs, now := some (q.pc, false),
                         since := b.nextId, xmask := q.xmask, lanes := q.xmask, line := f.data, slots := slots }
      let under (t : State) (lanes : Word) : State := { t with
        fresh := b.fresh + 32 * (inFlight b n b.nextId).length
        cur := some { agent := n, path := p, pc := q.pc, src := readable b n b.nextId x.regs, lanes := lanes, xmask := q.xmask, tbl := x.paths } }
      (f.ok = false → step s = exec (.illegalEncoding word) (under (b.updPath n p fun q => { q with bun := some { all with rest := [], slots := [], started := false } }) q.xmask))
      ∧ (f.ok → (q.entry = .none ∨ lineTgt f.data k) →
        let go := if x.pilot then some q.xmask else all.goers x.nregs (freeEntries x.paths).length
        (go = none → step s = .refused .notReady)
        ∧ ∀ m, go = some m →
          let bn := { all with lanes := m }
          let t := under (b.updPath n p fun q => { q with entry := .none, bun := some { bn with more := bn.partAfter x.pilot q.pc } }) m
          (∀ i, decode word = .ok i → blockedBy b n p i = none → engineLate { s with agenda := rest } n i = false → step s = exec i t)
          ∧ (∀ e, decode word = .error e → blockedBy b n p (.illegalEncoding word) = none → step s = exec (.illegalEncoding word) t)))
  ∧ (∀ (s : State) (rest : List Stim) (n p : Nat) (x : Agent) (q : Path) (bn : Bun),
    let b := markIssued { s with agenda := rest } n
    s.agenda = .issue n p :: rest → b.agent? n = some x → b.path? n p = some q → mayIssue b x p q → q.bun = some bn → q.dueNow x = none →
      let under (now : Bun) (pc : Dword) (lanes : Word) (replay cont : Bool) : State := { b.updPath n p (fun q => { q with bun := some now }) with
        fresh := b.fresh + 32 * (inFlight b n bn.since).length
        cur := some { agent := n, path := p, pc := pc, src := readable b n bn.since bn.src, lanes := lanes, xmask := bn.xmask, replay := replay, cont := cont, tbl := x.paths } }
      (∀ pc r i, bn.rest = pc :: r → decode (bn.word pc) = .ok i → blockedBy b n p i = none → engineLate { s with agenda := rest } n i = false →
        step s = exec i (under { bn with rest := r, now := some (pc, false), more := bn.partAfter x.pilot pc } pc bn.lanes false (bn.more != 0 && x.issuedAt == b.clk + 1)))
      ∧ ∀ r t k f, bn.rest = [] → bn.redo = r :: t → r.flt = none → slotIndex r.pc.toNat = some k →
        b.fetchLine? (b.coreOf x) (b.ctxOf x.gang).asn (lineBase r.pc.toNat) = some f →
        let u := under { bn with now := some (r.pc, true), more := 0 } r.pc (r.lanes &&& bn.lanes) true false
        (f.ok = false → step s = exec (.illegalEncoding (slotWord f.data k)) u)
        ∧ (f.ok → ∀ i, decode (slotWord f.data k) = .ok i → blockedBy b n p i = none → engineLate { s with agenda := rest } n i = false → step s = exec i u))

/-- R404, R408, R413, R415, R421: the host registers read the reset values of their tables, the ports' once feature 11 is accepted and zero before, nothing runs, no context lives, and no
byte of memory has been written.
The model's own choices in it: log 1 (memory that nothing has written reads 0). -/
def Obligations.ResetRegistersReadTheirTables : Prop :=
  (∀ off ∈ [0x08, 0x10, 0x18, 0x20, 0x28, 0x38, 0x40, 0x68, 0x70, 0xA8, 0xB0, 0xB8, 0xC0, 0xD8], hostRead State.reset off = 0)
  ∧ hostRead State.reset 0 = 0x1FFF ∧ hostRead State.reset 0x30 = 900000 ∧ hostRead State.reset 0x98 = 0xC ∧ hostRead State.reset 0xC8 = 1024
  ∧ (∀ k < 32, hostRead State.reset (0x100 + 8 * k) = 0)
  ∧ (∀ off, 0x70000 ≤ off → off < 0x80000 → hostRead State.reset off = 0)
  ∧ (let on : State := { State.reset with regs := { State.reset.regs with feat := 0x800 } }
      ∀ p < 2, ∀ off ∈ [0x000, 0x008, 0x018, 0x020, 0x028, 0x030, 0x038, 0x100, 0x108, 0x110, 0x118, 0x120, 0x128, 0x130, 0x138, 0x200, 0x208, 0x210, 0x218, 0x220, 0x228, 0x230, 0x800, 0x1000],
        hostRead on (0x70000 + 0x8000 * p + off) = 0)
  ∧ (∀ o < 4, ∀ k < 8, hostRead State.reset (0x80000 + 0x1000 * o + 8 * k) = 0)
  ∧ State.reset.agents = [] ∧ State.reset.gangs = [] ∧ State.reset.ctxs = [] ∧ State.reset.jobs = [] ∧ State.reset.launches = []
  ∧ ∀ sp a, State.reset.byteAt sp a = 0

/-! ## Integer, logic and moves (R134-R147) -/

/-- R112, R137: an integer result wraps without `.sat`; with it, it is the nearest end of the type's range and `saturated` is set
where it lay outside. -/
def Obligations.IntegerResultWrapsOrClamps : Prop :=
  ∀ (t : Ty) (x : Int), t.isInt →
    (intOut t false x).val.toNat = (x % (2 ^ t.width : Nat)).toNat ∧ (intOut t false x).fl = 0
    ∧ (t.lo ≤ x → x ≤ t.hi → intOut t true x = intOut t false x)
    ∧ (x < t.lo → intOut t true x = { intOut t false t.lo with fl := 0x20 })
    ∧ (t.hi < x → intOut t true x = { intOut t false t.hi with fl := 0x20 })

/-- R137: IADD, ISUB, IADD64, IMIN, IMAX, IMUL and IMULH in both forms, whenever they issue.
R137: IABS, SAD, LEA, IMAD and IMADW in every form, whenever they issue.
R138: IADDC and its VI form: the predicate gives the carry or borrow in and takes the one out. -/
def Obligations.IntegerArithmeticAndCarryChains : Prop :=
  (ComputesAB .iadd .iaddImm (fun _ => false) true (fun _ a b => a + b)
  ∧ ComputesAB .isub .isubImm (fun _ => false) true (fun _ a b => a - b)
  ∧ ComputesAB .iadd64 .iadd64Imm (fun _ => false) true (fun _ a b => a + b)
  ∧ ComputesAB .imin .iminImm (fun _ => false) false (fun _ a b => min a b)
  ∧ ComputesAB .imax .imaxImm (fun _ => false) false (fun _ a b => max a b)
  ∧ ComputesAB .imul .imulImm Ty.int64 true (fun _ a b => a * b)
  ∧ ComputesAB .imulh .imulhImm Ty.int64 false (fun t a b => (a * b).fdiv (2 ^ t.width : Nat)))
  ∧ ((∀ x : V3, ComputesInt (.iabs x) x.ctl false x.ty x.d.toNat x.sat [(x.a.toNat, 1)] fun r l => (intAt r x.ty x.a.toNat l).natAbs)
  ∧ (∀ x : V3, ComputesInt (.sad x) x.ctl false .n32 x.d.toNat false [(x.a.toNat, 1), (x.b.toNat, 1), (x.c.toNat, 1)] fun r l =>
      if x.ty = .n8 then intAt r .n32 x.c.toNat l + sadBytes (r.get x.a.toNat l).toNat (r.get x.b.toNat l).toNat
      else intAt r .n32 x.c.toNat l + (intAt r x.ty x.a.toNat l - intAt r x.ty x.b.toNat l).natAbs)
  ∧ (∀ x : V3, ComputesInt (.lea x) x.ctl false .n64 x.d.toNat false [(x.a.toNat, 2), (x.b.toNat, 1)] fun r l =>
      intAt r .n64 x.a.toNat l + intAt r x.ty x.b.toNat l * 2 ^ x.fl.toNat)
  ∧ (∀ x : VI, ComputesInt (.leaImm x) x.ctl false .n64 x.d.toNat false [(x.a.toNat, 2)] fun r l =>
      intAt r .n64 x.a.toNat l + intOf x.ty (immRaw x.ty x.imm) * 2 ^ x.fl.toNat)
  ∧ (∀ x : V3, ComputesInt (.imad x) x.ctl x.ty.int64 x.ty x.d.toNat x.sat [(x.a.toNat, x.ty.nregs), (x.c.toNat, x.ty.nregs), (x.b.toNat, x.ty.nregs)] fun r l =>
      intAt r x.ty x.a.toNat l * intAt r x.ty x.b.toNat l + intAt r x.ty x.c.toNat l)
  ∧ (∀ x : VI, ComputesInt (.imadImm x) x.ctl x.ty.int64 x.ty x.d.toNat x.sat [(x.a.toNat, x.ty.nregs), (x.c.toNat, x.ty.nregs)] fun r l =>
      intAt r x.ty x.a.toNat l * intOf x.ty (immRaw x.ty x.imm) + intAt r x.ty x.c.toNat l)
  ∧ (∀ x : V3, let w : Ty := if x.ty = .s32 then .s64 else .n64
      ComputesInt (.imadw x) x.ctl true w x.d.toNat x.sat [(x.a.toNat, 1), (x.c.toNat, 2), (x.b.toNat, 1)] fun r l =>
        intAt r x.ty x.a.toNat l * intAt r x.ty x.b.toNat l + intAt r w x.c.toNat l)
  ∧ ∀ x : VI, let w : Ty := if x.ty = .s32 then .s64 else .n64
      ComputesInt (.imadwImm x) x.ctl true w x.d.toNat x.sat [(x.a.toNat, 1), (x.c.toNat, 2)] fun r l =>
        intAt r x.ty x.a.toNat l * intOf x.ty (immRaw x.ty x.imm) + intAt r w x.c.toNat l)
  ∧ ((∀ x : V3, Does (.iaddc x) x.ctl (needInt [(x.d.toNat, 1), (x.a.toNat, 1), (x.b.toNat, 1)]) fun k b =>
    let t (l : Nat) : Int := carrySum (x.fl.getLsbD 0) (k.src.get x.a.toNat l) (k.src.get x.b.toNat l) (k.src.pred x.c.toNat l)
    k.writePred (k.write b x.d.toNat fun l => BitVec.ofInt 32 (t l)) x.c.toNat fun l => t l < 0 ∨ 2 ^ 32 ≤ t l)
  ∧ (∀ x : VI, Does (.iaddcImm x) x.ctl (needInt [(x.d.toNat, 1), (x.a.toNat, 1)]) fun k b =>
    let t (l : Nat) : Int := carrySum (x.fl.getLsbD 0) (k.src.get x.a.toNat l) x.imm (k.src.pred x.c.toNat l)
    k.writePred (k.write b x.d.toNat fun l => BitVec.ofInt 32 (t l)) x.c.toNat fun l => t l < 0 ∨ 2 ^ 32 ≤ t l)
  ∧ (∀ x : V3, (Instr.iaddc x).wf → x.ty = .n32 ∧ x.fl.toNat ≤ 1 ∧ x.c.toNat < 16 ∧ x.rnd = .dyn ∧ x.sat = false)
  ∧ ∀ x : VI, (Instr.iaddcImm x).wf → x.ty = .n32 ∧ x.fl.toNat ≤ 1 ∧ x.c.toNat < 16 ∧ x.rndCode = 0 ∧ x.sat = false)

/-- R139: SHL, SHR, SAR and ROT in both forms; the count is defined for every value.
R140: AND, OR, XOR and LOP3 in both forms; LOP3 looks each bit up in its truth table, A the low index bit. -/
def Obligations.ShiftsAndBitwiseLogic : Prop :=
  (ComputesShift .shl .shlImm (fun t a n => if n ≥ t.width then 0 else a * 2 ^ n)
  ∧ ComputesShift .shr .shrImm (fun t a n => if n ≥ t.width then 0 else a / 2 ^ n)
  ∧ ComputesShift .sar .sarImm (fun t a n => (intOf t a).fdiv (2 ^ min n (t.width - 1) : Nat))
  ∧ ComputesShift .rot .rotImm (fun _ a n => a * 2 ^ (n % 32) + a / 2 ^ (32 - n % 32))
  ∧ (∀ x : V3, (Instr.shl x).wf ∨ (Instr.shr x).wf → (x.ty = .b32 ∨ x.ty = .b64) ∧ x.rnd = .dyn ∧ x.sat = false ∧ x.fl = 0)
  ∧ (∀ x : V3, (Instr.sar x).wf → (x.ty = .s32 ∨ x.ty = .s64) ∧ x.rnd = .dyn ∧ x.sat = false ∧ x.fl = 0)
  ∧ (∀ x : V3, (Instr.rot x).wf → x.ty = .b32 ∧ x.rnd = .dyn ∧ x.sat = false ∧ x.fl = 0)
  ∧ (∀ x : VI, (Instr.shlImm x).wf ∨ (Instr.shrImm x).wf → (x.ty = .b32 ∨ x.ty = .b64) ∧ x.bctl = 0)
  ∧ (∀ x : VI, (Instr.sarImm x).wf → (x.ty = .s32 ∨ x.ty = .s64) ∧ x.bctl = 0)
  ∧ ∀ x : VI, (Instr.rotImm x).wf → x.ty = .b32 ∧ x.bctl = 0)
  ∧ (ComputesLogic .and .andImm (· &&& ·) ∧ ComputesLogic .or .orImm (· ||| ·) ∧ ComputesLogic .xor .xorImm (· ^^^ ·)
  ∧ ComputesWord3 .lop3 .lop3Imm (fun x => x.opx.extractLsb' 0 8) (·.bctl) lop3Of
  ∧ (∀ (tt : BitVec 8) (a b c : Word) (i : Nat), i < 32 → (lop3Of tt a b c).getLsbD i =
      tt.getLsbD ((a.getLsbD i).toNat + 2 * (b.getLsbD i).toNat + 4 * (c.getLsbD i).toNat))
  ∧ (∀ x : V3, (Instr.and x).wf ∨ (Instr.or x).wf ∨ (Instr.xor x).wf → x.ty = .b32 ∨ x.ty = .b64)
  ∧ (∀ x : VI, (Instr.andImm x).wf ∨ (Instr.orImm x).wf ∨ (Instr.xorImm x).wf → x.ty = .b32 ∨ x.ty = .b64)
  ∧ (∀ x : V3, (Instr.lop3 x).wf → x.ty = .b32 ∧ x.opx.toNat < 256) ∧ ∀ x : VI, (Instr.lop3Imm x).wf → x.ty = .b32)

/-- R141: POPC, CLZ, CTZ and BREV over the W bits of A.
R142, R143: BFX, BFI and PRMT in both forms. -/
def Obligations.BitCountsFieldsAndPermutes : Prop :=
  ((∀ x : V3, ComputesInt (.popc x) x.ctl false .b32 x.d.toNat false [(x.a.toNat, x.ty.nregs)] fun r l => popcOf x.ty.width (rawOf r x.ty x.a.toNat l))
  ∧ (∀ x : V3, ComputesInt (.clz x) x.ctl false .b32 x.d.toNat false [(x.a.toNat, x.ty.nregs)] fun r l => clzOf x.ty.width (rawOf r x.ty x.a.toNat l))
  ∧ (∀ x : V3, ComputesInt (.ctz x) x.ctl false .b32 x.d.toNat false [(x.a.toNat, x.ty.nregs)] fun r l => ctzOf x.ty.width (rawOf r x.ty x.a.toNat l))
  ∧ (∀ x : V3, ComputesInt (.brev x) x.ctl false x.ty x.d.toNat false [(x.a.toNat, x.ty.nregs)] fun r l => brevOf x.ty.width (rawOf r x.ty x.a.toNat l))
  ∧ (∀ x : V3, (Instr.popc x).wf ∨ (Instr.clz x).wf ∨ (Instr.ctz x).wf ∨ (Instr.brev x).wf →
      (x.ty = .b32 ∨ x.ty = .b64) ∧ x.rnd = .dyn ∧ x.sat = false ∧ x.fl = 0 ∧ x.opx = 0)
  ∧ ∀ w a : Nat, a < 2 ^ w →
      popcOf w a = ((List.range w).filter fun i => a.testBit i).length
      ∧ (a ≠ 0 → 2 ^ (w - 1 - clzOf w a) ≤ a ∧ a < 2 ^ (w - clzOf w a)) ∧ clzOf w 0 = w
      ∧ (a ≠ 0 → a.testBit (ctzOf w a) ∧ a % 2 ^ ctzOf w a = 0) ∧ ctzOf w 0 = w
      ∧ ∀ i < w, (brevOf w a).testBit i = a.testBit (w - 1 - i))
  ∧ ((∀ x : V3, ComputesInt (.bfx x) x.ctl false x.ty x.d.toNat false [(x.a.toNat, 1), (x.b.toNat, 1)] fun r l =>
    bitField x.ty (rawOf r x.ty x.a.toNat l) (r.get x.b.toNat l).toNat)
  ∧ (∀ x : VI, ComputesInt (.bfxImm x) x.ctl false x.ty x.d.toNat false [(x.a.toNat, 1)] fun r l => bitField x.ty (rawOf r x.ty x.a.toNat l) x.imm.toNat)
  ∧ ComputesWord3 .bfi .bfiImm (fun _ => ()) (fun _ => ()) (fun _ a b c =>
      let m : Word := BitVec.ofNat 32 ((2 ^ min (b.toNat / 256 % 256) 32 - 1) * 2 ^ (b.toNat % 256))
      (c &&& ~~~m) ||| (BitVec.ofNat 32 (a.toNat * 2 ^ (b.toNat % 256)) &&& m))
  ∧ ComputesWord3 .prmt .prmtImm (fun _ => ()) (fun _ => ()) (fun _ => prmtOf)
  ∧ (∀ (a b c : Word) (i : Nat), i < 4 → let s := (b.extractLsb' (8 * i) 8).toNat
      let z : Byte := (c ++ a).extractLsb' (8 * (s % 8)) 8
      (prmtOf a b c).extractLsb' (8 * i) 8 = if s / 8 % 4 = 0 then z else if s / 8 % 4 = 1 then 0 else if s / 8 % 4 = 2 then (if z.getLsbD 7 then 0xFF else 0) else 0xFF)
  ∧ (∀ x : V3, (Instr.bfx x).wf → (x.ty = .s32 ∨ x.ty = .n32) ∧ x.rnd = .dyn ∧ x.sat = false ∧ x.fl = 0)
  ∧ (∀ x : VI, (Instr.bfxImm x).wf → (x.ty = .s32 ∨ x.ty = .n32) ∧ x.bctl = 0)
  ∧ (∀ x : V3, (Instr.bfi x).wf ∨ (Instr.prmt x).wf → x.ty = .b32 ∧ x.rnd = .dyn ∧ x.sat = false ∧ x.fl = 0)
  ∧ ∀ x : VI, (Instr.bfiImm x).wf ∨ (Instr.prmtImm x).wf → x.ty = .b32 ∧ x.bctl = 0)

/-- R144, R145: MOV, MOVI, SEL, both PMOVs, ISET and PSET. -/
def Obligations.MovesSelectsAndPredicates : Prop :=
  (∀ x : V3, ComputesInt (.mov x) x.ctl false x.ty x.d.toNat false [(x.a.toNat, x.ty.nregs)] fun r l => rawOf r x.ty x.a.toNat l)
  ∧ (∀ x : VI, ComputesInt (.movi x) x.ctl false x.ty x.d.toNat false [] fun _ _ => immRaw x.ty x.imm)
  ∧ (∀ x : V3, ComputesInt (.sel x) x.ctl false x.ty x.d.toNat false [(x.a.toNat, x.ty.nregs), (x.b.toNat, x.ty.nregs)] fun r l =>
      if r.pred x.c.toNat l then rawOf r x.ty x.a.toNat l else rawOf r x.ty x.b.toNat l)
  ∧ (∀ x : VI, ComputesInt (.selImm x) x.ctl false x.ty x.d.toNat false [(x.a.toNat, x.ty.nregs)] fun r l =>
      if r.pred x.c.toNat l then rawOf r x.ty x.a.toNat l else immRaw x.ty x.imm)
  ∧ (∀ x : V3, Does (.pmovTov x) x.ctl (needInt [(x.d.toNat, 1)]) fun k b => k.write b x.d.toNat fun l => (mget 0 k.src.p l).zeroExtend 32)
  ∧ (∀ x : V3, Does (.pmovFromv x) x.ctl (needInt [(x.a.toNat, 1)]) fun k b =>
      (List.range 16).foldl (fun t p => k.writePred t p fun l => (k.src.get x.a.toNat l).getLsbD p) b)
  ∧ (∀ x : V3, Does (.iset x) x.ctl (needInt [(x.a.toNat, x.ty.nregs), (x.b.toNat, x.ty.nregs)]) fun k b => k.writePred b x.d.toNat fun l =>
      isetOf x.fl.toNat (intAt k.src x.ty x.a.toNat l) (intAt k.src x.ty x.b.toNat l))
  ∧ (∀ x : VI, Does (.isetImm x) x.ctl (needInt [(x.a.toNat, x.ty.nregs)]) fun k b => k.writePred b x.d.toNat fun l =>
      isetOf x.fl.toNat (intAt k.src x.ty x.a.toNat l) (intOf x.ty (immRaw x.ty x.imm)))
  ∧ ∀ x : V3, Does (.pset x) x.ctl (needInt []) fun k b => k.writePred b x.d.toNat fun l =>
      x.opx.getLsbD ((k.src.pred x.a.toNat l).toNat + 2 * (k.src.pred x.b.toNat l).toNat + 4 * (k.src.pred x.c.toNat l).toNat)

/-- R146: SHFL in both forms: a lane receives the value of its source lane where that lies on the issuing path, else its own.
R147: WRED combines the lanes of L, the others by the identity, in the fixed tree, and every lane of L receives it.
The model's own choices in it: log 135 (the sign of an exact zero sum); log 28 (the lanes of a reduction's trap). -/
def Obligations.ShufflesAndReductions : Prop :=
  ((∀ x : V3, Does (.shfl x) x.ctl { regs := [(x.d.toNat, 1), (x.a.toNat, 1), (x.b.toNat, 1)], pilot := false, base := 2, lane := 2 } fun k b =>
    k.write b x.d.toNat (shflValue k x.a.toNat x.fl.toNat fun l => k.src.get x.b.toNat l))
  ∧ (∀ x : VI, Does (.shflImm x) x.ctl { regs := [(x.d.toNat, 1), (x.a.toNat, 1)], pilot := false, base := 2, lane := 2 } fun k b =>
    k.write b x.d.toNat (shflValue k x.a.toNat x.fl.toNat fun _ => x.imm))
  ∧ ∀ (fl l : Nat) (n : Word), fl < 16 → l < 32 → ∀ src, shflLane fl l n = some src → src < 32 ∧ src / (32 / 2 ^ (fl / 4)) = l / (32 / 2 ^ (fl / 4)))
  ∧ (∀ x : V3, Does (.wred x) x.ctl { regs := [(x.d.toNat, 1), (x.a.toNat, 1)], pilot := false, base := 2, lane := 2 } fun k b =>
    let f := wredStep x.opx.toNat x.ty (modeOf x.rnd k.src.rnd)
    let v (l : Nat) : Word := if k.lanes.getLsbD l then k.src.get x.a.toNat l else wredId x.opx.toNat x.ty
    let r := treeOf f 5 0 v
    if k.lanes = 0 then b else k.flags (k.write b x.d.toNat fun _ => r.1) r.2 (if trapping r.2 then k.lanes else 0))

/-! ## Floating point (R148-R160, R218) -/

/-- R148, R149: FADD, FMUL and FFMA round the exact result once.
R150-R153: FMIN, FMAX, FSET, FCLASS and FRND.
R154: the eight transcendentals: the exact function value rounded once.
The model's own choices in it: log 29 (the precision of the transcendentals is taken as enough); log 30 (.sat also clamps an infinity). -/
def Obligations.FloatArithmeticRoundsOnce : Prop :=
  (ComputesF32 .fadd .faddImm (fun m a b => sumX m [a, b]) ∧ ComputesF32 .fmul .fmulImm (fun _ a b => mulX a b)
  ∧ (∀ x : V3, ComputesFlt (.ffma x) x.ctl (needFloat [(x.a.toNat, 1), (x.c.toNat, 1), (x.b.toNat, 1)]) false false x.d.toNat (modeOf x.rnd) fun r m l =>
      laneRound (fmaX m (f32 (r.get x.a.toNat l)) (f32 (r.get x.b.toNat l)) (f32 (r.get x.c.toNat l))) fmtF32 m x.sat)
  ∧ ∀ x : VI, ComputesFlt (.ffmaImm x) x.ctl (needFloat [(x.a.toNat, 1), (x.c.toNat, 1)]) false false x.d.toNat (modeOfCode x.rndCode) fun r m l =>
      laneRound (fmaX m (f32 (r.get x.a.toNat l)) (f32 x.imm) (f32 (r.get x.c.toNat l))) fmtF32 m x.sat)
  ∧ ((∀ x : V3, ComputesFlt (.fmin x) x.ctl (needFloat [(x.a.toNat, 1), (x.b.toNat, 1)]) false false x.d.toNat (fun _ => 0) fun r _ l => minmaxLane false (r.get x.a.toNat l) (r.get x.b.toNat l))
  ∧ (∀ x : VI, ComputesFlt (.fminImm x) x.ctl (needFloat [(x.a.toNat, 1)]) false false x.d.toNat (fun _ => 0) fun r _ l => minmaxLane false (r.get x.a.toNat l) x.imm)
  ∧ (∀ x : V3, ComputesFlt (.fmax x) x.ctl (needFloat [(x.a.toNat, 1), (x.b.toNat, 1)]) false false x.d.toNat (fun _ => 0) fun r _ l => minmaxLane true (r.get x.a.toNat l) (r.get x.b.toNat l))
  ∧ (∀ x : VI, ComputesFlt (.fmaxImm x) x.ctl (needFloat [(x.a.toNat, 1)]) false false x.d.toNat (fun _ => 0) fun r _ l => minmaxLane true (r.get x.a.toNat l) x.imm)
  ∧ (∀ x : V3, Does (.fset x) x.ctl (needFloat [(x.a.toNat, 1), (x.b.toNat, 1)]) fun k b => (putPred k b x.d.toNat (fsetLane x.fl.toNat (fun l => f32 (k.src.get x.a.toNat l)) fun l => f32 (k.src.get x.b.toNat l))).1)
  ∧ (∀ x : VI, Does (.fsetImm x) x.ctl (needFloat [(x.a.toNat, 1)]) fun k b => (putPred k b x.d.toNat (fsetLane x.fl.toNat (fun l => f32 (k.src.get x.a.toNat l)) fun _ => f32 x.imm)).1)
  ∧ (∀ x : V3, ComputesFlt (.fclass x) x.ctl (needFloat [(x.a.toNat, 1)]) false false x.d.toNat (fun _ => 0) fun r _ l =>
      .ofNat (2 ^ classBit ((fmtOf x.ty).getD fmtF32) (rawOf r x.ty x.a.toNat l)))
  ∧ ∀ x : V3, ComputesFlt (.frnd x) x.ctl (needFloat [(x.a.toNat, 1)]) false false x.d.toNat (modeOf x.rnd) fun r m l => frndOf (r.get x.a.toNat l) m)
  ∧ (ComputesFn .frcp .rcp ∧ ComputesFn .frsq .rsq ∧ ComputesFn .fsqrt .sqrt ∧ ComputesFn .fex2 .ex2 ∧ ComputesFn .flg2 .lg2
  ∧ ComputesFn .fsin .sin ∧ ComputesFn .fcos .cos ∧ ComputesFn .ftanh .tanh)

/-- R155, R156: packed 16-bit arithmetic, each half in its own format, and FDOT4 with one rounding.
R157-R160: FP64 arithmetic, CVT, CPACK and CUNPK.
R218, R120: DRAW in either type; of .f32 the unit number rounded to nearest, with its flags.
The model's own choices in it: log 136 (an integer zero counts as +0). -/
def Obligations.PackedDoubleAndConversionResults : Prop :=
  (ComputesPacked .hadd2 .hadd2Imm .add fmtF16 ∧ ComputesPacked .hmul2 .hmul2Imm .mul fmtF16 ∧ ComputesPacked .hfma2 .hfma2Imm .fma fmtF16
  ∧ ComputesPacked .badd2 .badd2Imm .add fmtBf16 ∧ ComputesPacked .bfma2 .bfma2Imm .fma fmtBf16
  ∧ ∀ x : V3, ComputesFlt (.fdot4 x) x.ctl (needFloat [(x.a.toNat, 1), (x.b.toNat, 1), (x.c.toNat, 1)]) false false x.d.toNat (modeOf x.rnd) fun r m l =>
      laneRound (dotX m (f32 (r.get x.c.toNat l)) ((List.range 4).map fun i =>
        (byteEl x.ty (r.get x.a.toNat l) i, byteEl (if x.opx = 0 then x.ty else (tyOfCode x.opx.toNat).getD x.ty) (r.get x.b.toNat l) i))) fmtF32 m x.sat)
  ∧ ((∀ x : V3, ComputesFlt (.dadd x) x.ctl { needS [(x.a.toNat, 2), (x.b.toNat, 2)] with feature := some 6 } true true x.d.toNat (modeOf x.rnd) fun r m l =>
    laneRound (sumX m [f64At r x.a.toNat l, f64At r x.b.toNat l]) fmtF64 m x.sat)
  ∧ (∀ x : V3, ComputesFlt (.dmul x) x.ctl { needS [(x.a.toNat, 2), (x.b.toNat, 2)] with feature := some 6 } true true x.d.toNat (modeOf x.rnd) fun r m l =>
    laneRound (mulX (f64At r x.a.toNat l) (f64At r x.b.toNat l)) fmtF64 m x.sat)
  ∧ (∀ x : V3, ComputesFlt (.dfma x) x.ctl { needS [(x.a.toNat, 2), (x.b.toNat, 2), (x.c.toNat, 2)] with feature := some 6 } true true x.d.toNat (modeOf x.rnd) fun r m l =>
    laneRound (fmaX m (f64At r x.a.toNat l) (f64At r x.b.toNat l) (f64At r x.c.toNat l)) fmtF64 m x.sat)
  ∧ (∀ x : V3, ∀ ts, x.srcTy = some ts →
    ComputesFlt (.cvt x) x.ctl (if x.ty = .f64 ∨ ts = .f64 then { needS [(x.a.toNat, ts.nregs)] with feature := some 6 } else needFloat [(x.a.toNat, ts.nregs)])
      (x.ty = .f64 ∨ ts = .f64) (x.ty.bytes == 8) x.d.toNat (modeOf x.rnd) fun r m l => cvtOf x.ty ts (rawOf r ts x.a.toNat l) m x.sat)
  ∧ (∀ x : V3, ∀ f, fmtOf x.ty = some f → ComputesFlt (.cpack x) x.ctl (needFloat [(x.a.toNat, 1), (x.b.toNat, 1)]) false false x.d.toNat (modeOf x.rnd) fun r m l =>
      let w := packWidth x.ty
      let e0 := roundWith (f32 (r.get x.a.toNat l), if (f32 (r.get x.a.toNat l)).sig then flInvalid else 0) f m x.sat
      let e1 := roundWith (f32 (r.get x.b.toNat l), if (f32 (r.get x.b.toNat l)).sig then flInvalid else 0) f m x.sat
      .ofNat (setField (setField (r.get x.d.toNat l).toNat (2 * x.opx.toNat * w) w e0.1) ((2 * x.opx.toNat + 1) * w) w e1.1) (e0.2 ||| e1.2))
  ∧ ∀ x : V3, ∀ f, fmtOf x.ty = some f → ComputesFlt (.cunpk x) x.ctl (needFloat [(x.a.toNat, 1)]) false false x.d.toNat (fun _ => 0) fun r m l =>
      let v := f.value ((r.get x.a.toNat l).toNat / 2 ^ (x.opx.toNat * packWidth x.ty) % 2 ^ packWidth x.ty % 2 ^ f.bits)
      laneRound (v, if v.sig then flInvalid else 0) fmtF32 m false)
  ∧ (∀ x : V3, Computes (.draw x) x.ctl { needFloat [(x.d.toNat, 1), (x.a.toNat, 1), (x.b.toNat, 1), (x.c.toNat, 1)] with feature := some 2 } false x.d.toNat false fun k l =>
    let w := drawOf (k.src.get x.a.toNat l) (k.src.get x.b.toNat l) (k.src.get x.c.toNat l) x.opx.toNat
    if x.ty = .f32 then laneRound (X.ofQ (unitOf w), 0) fmtF32 0 false else .of32 w)

/-- R131: the three moduli are pairwise coprime, with their product and the weights of the conversion out; the channels' sums and that
conversion; and the recovered value of a residue pair's products is their exact sum. -/
def Obligations.ResidueSumIsExact : Prop :=
  Nat.Coprime 255 254 ∧ Nat.Coprime 255 253 ∧ Nat.Coprime 254 253 ∧ 255 * 254 * 253 = 16386810
  ∧ 8225536 % 255 = 1 ∧ 8225536 % 254 = 0 ∧ 8225536 % 253 = 0 ∧ 16322295 % 255 = 0 ∧ 16322295 % 254 = 1 ∧ 16322295 % 253 = 0
  ∧ 8225790 % 255 = 0 ∧ 8225790 % 254 = 0 ∧ 8225790 % 253 = 1
  ∧ (∀ (m : Nat) (qs : List (Int × Int)), 0 < m → channelSum m qs = (qs.map fun q => (q.1 % (m : Int)).toNat * (q.2 % (m : Int)).toNat).sum % m)
  ∧ (∀ a b c : Nat, let x := (a * 8225536 + b * 16322295 + c * 8225790) % 16386810
      residueOut a b c = if 8193405 ≤ x then (x : Int) - 16386810 else x)
  ∧ (∀ qs : List (Int × Int), residueSum qs = residueOut (channelSum 255 qs) (channelSum 254 qs) (channelSum 253 qs))
  ∧ ∀ qs : List (Int × Int), qs.length ≤ 32 → (∀ q ∈ qs, q.1.natAbs ≤ 448 ∧ q.2.natAbs ≤ 448) → residueSum qs = (qs.map fun q => q.1 * q.2).sum

/-! ## Frames (R56, R65, R101, R134, R409) -/

/-- R66, R409: noting an issue changes no register and no byte of memory outside the trace ring; the block is charged its energy, and
no other block changes. -/
def Obligations.IssueChargesEnergyAndNothingElse : Prop :=
  ∀ s g nd k, Issues s g nd k → let b := issued s k nd
    SameRegs s b ∧ SameMemoryBut (InTraceRing s) s b ∧ b.clk = s.clk ∧ b.tick = s.tick ∧ b.ctxs = s.ctxs ∧ b.gangs = s.gangs ∧ b.jobs = s.jobs
    ∧ ∀ h role bl, s.blockOf? h role = some bl → b.blockOf? h role = some { bl with
        energy := bl.energy + if h = k.gang ∧ role = (if k.pilot then 0 else k.role) then nd.base + nd.lane * popcount k.lanes else 0 }

/-- R56: while its bundle has more slots, the end of a slot only notes it and what it writes: done, or left unfinished with its
fault. R55: from then on no result of a slot of the bundle will write what a higher slot has written.
R51, R101: a bundle without branch, exit, return or stop, all of it done for every lane of its path, falls through: its path goes on at
the next bundle with its lanes, and no register, no byte of memory and no other path changes.
The model's own choices in it: log 118 (what a higher slot of a bundle claims). -/
def Obligations.SlotAndBundleEnds : Prop :=
  (∀ (s : State) (k : Iss) (b : Bun), s.bundle k.agent k.path = some b → b.rest ≠ [] →
    let left := if (b.now.map (·.2)).getD false then b.redo.drop 1 else b.redo
    let w := slotWrites s k.agent k.path b
    finish s k .done = (w 0).1.updPath k.agent k.path (fun q => { q with bun := some { (w 0).2 with redo := left, now := none }, wait := none })
    ∧ (∀ undone, (w undone).1.agents = s.agents ∧ (∃ claims, (w undone).2 = { b with claims := claims })
      ∧ ∀ r pc i, 2 ≤ b.slots.length → b.now = some (pc, i) → r ∈ (w undone).1.pend → b.owns k.agent k.path r → ∀ key v, (key, v) ∈ r.writes → claimedAbove (w undone).2.claims r.pc key = false)
    ∧ ((b.now.map (·.2)).getD false = false → ∀ code m info, finish s k (.fault code m info) = (w k.lanes).1.updPath k.agent k.path fun q =>
        { q with bun := some { (w k.lanes).2 with now := none, redo := b.redo ++ [{ pc := k.pc, lanes := k.lanes, flt := some { code := code, kind := 0, mask := m, info := info, pc := k.pc, sup := k.sup } }] }, wait := none }))
  ∧ (∀ (s : State) (n p : Nat) (x : Agent) (q : Path) (b : Bun), s.agent? n = some x → s.path? n p = some q → q.bun = some b → b.rest = []
    → (b.redo = [] ∨ ∃ r pc, b.redo = [r] ∧ b.now = some (pc, true)) → b.eret = none → b.exits = 0 → b.nexts = [] → b.branch = false → b.brk = none
    → x.pilot = false → q.xmask ≠ 0 → q.xmask &&& ~~~b.lanes = 0 → (∀ y ∈ x.paths, y.st ≠ .join) → q.jpc ≠ some b.next
    → let t := endSlot s n p .nothing
      t.path? n p = some { q with pc := b.next, bun := none, wait := none, st := .eligible, released := false }
      ∧ (∀ i, i ≠ p → t.path? n i = s.path? n i) ∧ SameRegs s t ∧ SameMemory s t)

/-- R134: a fixed-latency instruction with one result per lane changes no register but its destination, adds bits to ARITHSTAT alone,
and changes no memory outside the trace ring, no context, no gang and no clock, whether it completes, faults or does not issue.
R134: an instruction whose result is not visible at once changes no register when it issues; its result waits with its counter
or window, to be written by RESULT_VISIBLE to the lanes of L.
The model's own choices in it: log 12 (which of the two values a breach of a window leaves is free); log 13 (a result of fixed latency is written at issue). -/
def Obligations.ResultsChangeOnlyTheirDestination : Prop :=
  (∀ (i : Instr) (d : Nat) (wide : Bool), fixedDest i = some (d, wide) → ∀ (s t : State) (c : Cur) (b : Bun),
    s.cur = some c → s.bundle c.agent c.path = some b → b.rest ≠ [] → exec i s = .next t →
    OnlyDest s t c.agent d wide ∧ SameMemoryBut (InTraceRing s) s t ∧ t.ctxs = s.ctxs ∧ t.gangs = s.gangs ∧ t.clk = s.clk ∧ t.tick = s.tick)
  ∧ (∀ (k : Iss) (b t : State) (g : Ctl) (d : Nat) (wide : Bool) (f : Nat → LaneOut), PendingResult b t k g d wide f →
    SameRegs b t ∧ SameMemory b t ∧ ∃ p, t.pend = b.pend ++ [p] ∧ ∀ key w, (key, w) ∈ p.writes →
      ∃ lane, lane < 32 ∧ k.lanes.getLsbD lane ∧ (key = 32 * d + lane ∨ (wide ∧ key = 32 * (d + 1) + lane)))

/-- R70: an instruction that names a register at or above NREGS, an instruction a pilot program may not issue, one whose feature is
not accepted, or a fill's own instruction elsewhere takes ILLEGAL_ENCODING; a supervisor instruction in user mode takes PRIVILEGE. Its
own effect does not happen, and no energy is charged. R40, R67: an instruction whose counter stands at 63 does not issue.
R70, R57: a word that is no instruction faults its path with ILLEGAL_ENCODING, whatever the word.
The model's own choices in it: log 131 (ERET of mode 3 is no instruction); log 77 (what ENERGY counts at a read, and a refused instruction charges nothing). -/
def Obligations.RefusedAndIllegalInstructionsFault : Prop :=
  (∀ (s : State) (x : Agent) (k : Iss) (g : Ctl) (nd : Need) (body : Iss → State → State × Fate), issOf s g.guard = some (k, x) →
    (((∃ r ∈ nd.regs, x.nregs < r.1 + r.2) ∨ (x.pilot ∧ nd.pilot = false) ∨ (∃ f, nd.feature = some f ∧ ¬s.feature f) ∨ (nd.fill ∧ ¬x.fill)) →
      instr s g nd body = .next { finish (noteIssue s k) k (.fault 0x01 k.lanes 0) with cur := none })
    ∧ ((∀ r ∈ nd.regs, r.1 + r.2 ≤ x.nregs) → (x.pilot → nd.pilot) → (∀ f, nd.feature = some f → s.feature f) → (nd.fill → x.fill) → nd.sup → ¬x.sup →
      instr s g nd body = .next { finish (noteIssue s k) k (.fault 0x02 k.lanes 0) with cur := none })
    ∧ (refusal s x nd = none → g.cnt ≠ 0 → 63 ≤ x.d.getD (g.cnt.toNat - 1) 0 → instr s g nd body = .next { unissue s k with cur := none }))
  ∧ (∀ (s : State) (x : Agent) (k : Iss) (w : BitVec 96), issOf s .always = some (k, x) →
    exec (.illegalEncoding w) s = .next { finish (noteIssue s k) k (.fault 0x01 k.lanes 0) with cur := none })

/-! ## Paths and control flow (R53, R99-R111) -/

/-- R53, R64, R103: BRA, BRX, CALL and RET send the lanes of L to their legal targets; CALL's link is the first slot after the bundle.
The model's own choices in it: log 132 (lanes that fail with different codes). -/
def Obligations.BranchesGoToLegalTargets : Prop :=
  (∀ x : Br, BranchTo (.bra x) x.ctl {} (fun k _ => brTarget k.pc x.disp x.slot) 0 fun _ _ t => t)
  ∧ (∀ x : Br, BranchTo (.brx x) x.ctl { regs := [(x.a.toNat, 2)] } (fun k l => k.src.get64 x.a.toNat l) 0 fun _ _ t => t)
  ∧ (∀ x : Br, BranchTo (.call x) x.ctl { regs := [(x.d.toNat, 2)] } (fun k _ => brTarget k.pc x.disp x.slot) 1 fun k bn t => k.write64 t x.d.toNat fun _ => bn.next)
  ∧ ∀ x : Br, BranchTo (.ret x) x.ctl { regs := [(x.a.toNat, 2)] } (fun k l => k.src.get64 x.a.toNat l) 2 fun _ _ t => t

/-- R101: the lanes of a path are grouped by their next PC: ascending PCs, disjoint groups that make up the path, each lane in the group
of its own next PC.
R102: the issuing entry keeps the group of the next PC in sequence, or the lowest; the other groups take free entries in order where
there are enough. -/
def Obligations.PathsGroupAndSplitByNextPc : Prop :=
  (∀ (nexts : List (Nat × Dword)) (seq : Dword) (m : Word), let gs := groupPcs nexts seq m
    (gs.map fun g => g.1.toNat).Pairwise (· < ·)
    ∧ (∀ l < 32, m.getLsbD l ↔ ∃ g ∈ gs, g.2.getLsbD l)
    ∧ ∀ l < 32, ∀ g ∈ gs, g.2.getLsbD l → g.1 = mget seq nexts l)
  ∧ (∀ (groups : List (Dword × Word)) (seq : Dword) (free : Nat), groups ≠ [] → groups.length ≤ free + 1 → (groups.map (·.1)).Nodup →
    let sp := splitOf groups seq free
    sp.left = 0 ∧ (∃ g ∈ groups, sp.keep = some g ∧ (g.1 = seq ∨ (∀ h ∈ groups, h.1 ≠ seq) ∧ groups.head? = some g)
      ∧ sp.moved = groups.filter fun h => h ≠ g))

/-- R70, R104-R106: NOP changes nothing; JOIN sets the join PC to its legal target and JOIN_CLR to none, and the join test follows at once;
EXIT marks the lanes of L to leave
at the end of the bundle; YIELD makes the wave youngest and waits where a sibling path is eligible.
R101, R110, R111: REGROUP faults where its wave has more paths than one or a join PC; else, as the last of its bundle, the lanes for which
an EXIT of the bundle holds leave and the path waits. REGROUP_COMPLETE comes once every wave of the block that has not ended waits with its counters
at zero and its windows closed: waves at one PC are packed together, lanes in their order, and go on; registers at or above n read zero.
The model's own choices in it: log 98 (a sibling in a wait is eligible); log 124 (REGROUP is the last of its bundle); log 145 (lanes outside the new XMASK); log 120 (what passes to the entry that remains). -/
def Obligations.JoinExitYieldAndRegroup : Prop :=
  (Does .nop {} {} (fun _ b => b)
  ∧ (∀ x : Br, ∀ s k, Issues s x.ctl { pilot := false } k → let b := issued s k { pilot := false }
      ∀ a, b.agent? k.agent = some a → LegalTargets b a (fun _ => brTarget k.pc x.disp x.slot) 1 →
        Completes (.join x) s k (mergeTest (b.updPath k.agent k.path fun q => { q with jpc := some (brTarget k.pc x.disp x.slot) }) k.agent))
  ∧ (∀ x : Br, Does (.joinClr x) x.ctl { pilot := false } fun k b => mergeTest (b.updPath k.agent k.path fun q => { q with jpc := none }) k.agent)
  ∧ (∀ x : Sys, Does (.exit x) x.ctl {} fun k b => b.updPath k.agent k.path fun q => { q with bun := q.bun.map fun n => { n with exits := n.exits ||| k.lanes } })
  ∧ ∀ x : Sys, ∀ s k, Issues s x.ctl {} k → let b := issued s k {}
      ∀ a, b.agent? k.agent = some a → let others := (List.range a.paths.length).filter fun i => i ≠ k.path ∧ ((a.paths[i]?).map fun q => q.st == .eligible && !q.trapHeld).getD false
        (k.pilot ∨ others = [] → Completes (.yield x) s k (b.updAgent k.agent fun y => { y with youngest := b.clk + 1 }))
        ∧ (¬k.pilot → others ≠ [] → EndsWith (.yield x) s k (b.updAgent k.agent fun y => { y with youngest := b.clk + 1 }) (.wait (.yield others))))
  ∧ ((∀ x : Sys, ∀ s k, let nd : Need := { pilot := false, feature := some 7, regs := [(0, x.imm.toNat)] }
    Issues s x.ctl nd k → let b := issued s k nd
      ∀ a q bn, b.agent? k.agent = some a → b.path? k.agent k.path = some q → q.bun = some bn →
      let alone := (a.paths.filter fun p => p.st ≠ .free).length ≤ 1 ∧ q.jpc = none
      let lastSlot := bn.rest = [] ∧ ∀ r ∈ bn.redo, r.pc = k.pc ∨ isRegroup (bn.word r.pc) ∧ k.pc < r.pc
      (¬alone → EndsWith (.regroup x) s k b (.fault 0x04 k.lanes 0))
      ∧ (alone → ¬lastSlot → EndsWith (.regroup x) s k b .last)
      ∧ (alone → lastSlot → bn.exits = 0 → EndsWith (.regroup x) s k b (.wait (.regroup x.imm.toNat)))
      ∧ (alone → lastSlot → bn.exits ≠ 0 → q.xmask &&& ~~~bn.exits ≠ 0 →
          EndsWith (.regroup x) s k ((leaveLanes b k.agent k.path bn.exits).updPath k.agent k.path fun q => { q with bun := some { bn with exits := 0 } }) (.wait (.regroup x.imm.toNat))))
  ∧ (∀ (s : State) (g : GangKey) (role : Nat), let waves := s.agents.filter fun y => y.gang == g && y.role == role && !y.pilot && !y.ended
      ((∃ y ∈ waves, atRegroup s y = none) → exec (.regroupComplete g role) s = .next s)
      ∧ ∀ (ws : List (Agent × Nat × Path × Nat)) (pc : Dword), ws ≠ [] → ws.map (·.1) = waves → (∀ w ∈ ws, atRegroup s w.1 = some w.2 ∧ regroupPc w.2.2.1 = pc)
        → ws.Pairwise (fun v w => v.1.idx < w.1.idx) → exec (.regroupComplete g role) s = .next (regroupSet s ws))
  ∧ ∀ (n : Nat) (r r' : Regs) (ls ls' : List Nat) (reg i : Nat), ls.length + ls'.length ≤ 32 → i < 32 →
      (packRegs n (r, ls) (some (r', ls'))).get reg i =
        if n ≤ reg then 0 else if h : i < ls.length then r.get reg ls[i] else if h' : i - ls.length < ls'.length then r'.get reg ls'[i - ls.length] else 0)

/-- R107, R108: VOTE over the lanes of L in its five forms, XMRD and PATHQ.
R66, R109: XMWR takes its mask from the lowest lane of L; lanes it removes go to a path that waits at the join PC, or to a free entry, with
the windows that are open on them, and with what its path is owed where no lane stays; with no join PC it faults, with no entry it does not
issue, and with nothing removed it changes nothing.
The model's own choices in it: log 133 (a held entry counts as waiting); log 120 (what passes to the entry that remains); log 144 (a slot above a JOIN or an XMWR). -/
def Obligations.VotesAndMaskChanges : Prop :=
  ((∀ x : V3, Does (.vote x) x.ctl { pilot := false, regs := if x.opx.toNat ≥ 3 then [(x.d.toNat, 1)] else [] } fun k b =>
    let yes (l : Nat) : Bool := k.src.pred x.a.toNat l
    match x.opx.toNat with
    | 0 => k.writePred b x.d.toNat fun _ => (lanesOf k.lanes).all yes
    | 1 => k.writePred b x.d.toNat fun _ => (lanesOf k.lanes).any yes
    | 2 => k.writePred b x.d.toNat fun _ => (lanesOf k.lanes).all yes || !(lanesOf k.lanes).any yes
    | 3 => k.write b x.d.toNat fun _ => maskOf ((lanesOf k.lanes).filter yes)
    | _ => k.write b x.d.toNat fun _ => BitVec.ofNat 32 ((lanesOf k.lanes).countP yes))
  ∧ (∀ x : V3, (Instr.vote x).wf → x.opx.toNat ≤ 4 ∧ x.a.toNat < 16 ∧ (x.opx.toNat ≤ 2 → x.d.toNat < 16) ∧ x.b = 0 ∧ x.c = 0 ∧ x.ty = .none ∧ x.rnd = .dyn ∧ x.sat = false ∧ x.fl = 0)
  ∧ (∀ (d : Nat) (f : Nat → Word) (h : Nat → Bool) (b : State) (k : Iss), k.lanes = 0 → k.write b d f = b ∧ k.writePred b d h = b)
  ∧ (∀ x : Sys, Does (.xmrd x) x.ctl { pilot := false, regs := [(x.d.toNat, 1)] } fun k b => k.write b x.d.toNat fun _ => k.xmask)
  ∧ ∀ x : Sys, Does (.pathq x) x.ctl { pilot := false, regs := [(x.d.toNat, 1)] } fun k b =>
      k.write b x.d.toNat fun _ => pathWord (((b.agent? k.agent).map (·.paths)).getD []) k.path k.xmask)
  ∧ (∀ x : Sys, ∀ s k, Issues s x.ctl { pilot := false, regs := [(x.a.toNat, 1)] } k → let b := issued s k { pilot := false, regs := [(x.a.toNat, 1)] }
    (k.lanes = 0 → Completes (.xmwr x) s k b)
    ∧ ∀ low rest a q, lanesOf k.lanes = low :: rest → b.agent? k.agent = some a → b.path? k.agent k.path = some q →
      let m := k.src.get x.a.toNat low &&& q.xmask
      let gone := q.xmask &&& ~~~m
      let entry (j : Dword) := ((List.range a.paths.length).find? fun i => ((a.paths[i]?).map fun p => p.st == .join && p.jpc == some j && !p.trapHeld).getD false).or (freeEntries a.paths).head?
      (gone = 0 → Completes (.xmwr x) s k b)
      ∧ (gone ≠ 0 → q.jpc = none → EndsWith (.xmwr x) s k b (.fault 0x04 k.lanes 0))
      ∧ (∀ j, gone ≠ 0 → q.jpc = some j → entry j = none → exec (.xmwr x) s = .next { unissue s k with cur := none })
      ∧ ∀ j e, gone ≠ 0 → q.jpc = some j → entry j = some e →
          let owed (p : Path) : Path := if m = 0 then { p with due := orderDue (p.due ++ q.due), saved := p.saved.or q.saved, abort := p.abort ++ q.abort } else p
          let t := (splitPends b k.agent k.path e).updAgent k.agent fun y => { y with
            paths := y.paths.mapIdx fun i p =>
              if i = e then owed (if p.st = .join then { p with xmask := p.xmask ||| gone } else { pc := j, jpc := some j, xmask := gone, st := .join })
              else if i = k.path then { p with xmask := m } else p
            inTrap := y.inTrap.map fun h => (if m = 0 ∧ h.1 = k.path then e else h.1, h.2) }
          Completes (.xmwr x) s k (trace (if m = 0 then joinPends t k.agent [k.path] e else t) k.agent 6 k.path gone (extPc j e)))

/-! ## Memory (R223-R269) -/

/-- R228, R231, R237: a plain load of bytes of one line takes those of a copy whose lease covers its clock and which is no older than what the agent has
observed, else those at the home; one over several lines reads them all at their homes at one point, and their leases then cover its
timestamp. Its clock passes the newest write that it read; a poisoned unit is reported.
The model's own choices in it: log 11 (lease lengths are free). -/
def Obligations.PlainLoadReadsALeasedCopyOrTheHome : Prop :=
  ∀ (s : State) (n : Nat) (x : Agent) (sp : Sp) (a len : Nat), s.relaxed = [] → s.agent? n = some x →
    let r := loadPlain s n sp a len
    r.1.poison = s.poisoned sp a len ∧ SameRegs s r.2 ∧ SameMemory s r.2
    ∧ (lineOf sp a = lineOf sp (a + (len - 1)) → let serves (c : Copy) : Bool := c.serves x s.tick false sp a len
        (∀ c, s.copyFor n sp (lineOf sp a) serves = some c → r.1.bytes = (c.data.drop (a % 128)).take len ∧ r.1.wts = c.ts.wts)
        ∧ (s.copyFor n sp (lineOf sp a) serves = none → r.1.bytes = s.readHome sp a len ∧ r.1.wts = (s.stampOf sp (lineOf sp a)).wts))
    ∧ (lineOf sp a < lineOf sp (a + (len - 1)) → r.1.bytes = (unitParts sp a len).flatMap (fun u => s.readHome u.1 u.2.1 u.2.2)
        ∧ ∀ l ∈ linesOf sp a len, (s.stampOf sp l).wts ≤ r.1.wts ∧ (r.2.stampOf sp l).wts = (s.stampOf sp l).wts ∧ max x.clock (r.1.wts + 1) ≤ (r.2.stampOf sp l).rts)
    ∧ ∃ y, r.2.agent? n = some y ∧ max x.clock (r.1.wts + 1) ≤ y.clock ∧ ((∀ q ∈ s.releases, q.who ≠ .engine) → y.clock = max x.clock (r.1.wts + 1))

/-- R228: a store at its home writes its bytes and no other; its timestamp is later than every lease given on the lines it writes and
becomes the line's, and its agent's clock.
R231: a relaxed store waits with its agent: memory is as before until it reaches its home. -/
def Obligations.StoresTakeLaterTimestamps : Prop :=
  (∀ (s : State) (n : Nat) (x : Agent) (sp : Sp) (a : Nat) (bs : List Byte), s.relaxed = [] → s.agent? n = some x → bs ≠ []
    → (∀ g r, sp = .scr g r → s.blockOf? g r ≠ none) →
    let t := storeHome s n sp a bs none false true
    StoredOnly s t [(sp, a, bs)] ∧ SameRegs s t
    ∧ ∃ ts, (∀ l ∈ linesOf sp a bs.length, (s.stampOf sp l).rts < ts ∧ t.stampOf sp l = { wts := ts, rts := ts })
        ∧ x.clock ≤ ts ∧ ∃ y, t.agent? n = some y ∧ y.clock = ts)
  ∧ (∀ (s : State) (n : Nat) (sp : Sp) (a : Nat) (bs : List Byte) (scope storage : Nat), s.relaxed = [] →
    let t := storeOrd s n sp a bs 1 scope storage
    SameMemory s t ∧ SameRegs s t ∧ ∃ r, t.relaxed = [r] ∧ r.agent = n ∧ r.sp = sp ∧ r.addr = a ∧ r.bytes = bs
      ∧ ((∀ g h, sp = .scr g h → s.blockOf? g h ≠ none) → StoredOnly s (drainAgent t n) [(sp, a, bs)]))

/-- R249, R251, R253, R254, R266: LD and MARM whose lanes all translate, are admitted and wait for no reckoned line complete: each lane of L
will receive its value. Registers keep theirs; without a reckoned page and with no relaxed store under way, so does memory.
The model's own choices in it: log 12 (which of the two values a breach of a window leaves is free). -/
def Obligations.LoadsLeaveTheirLanesResults : Prop :=
  ∀ (x : Mem) (arm : Bool) (s : State) (k : Iss), let nd := memNeed ([(x.d.toNat, x.ty.nregs), (x.a.toNat, 2)] ++ if arm then [] else [(x.c.toNat, 1)])
    let i := if arm then Instr.marm x else .ld x
    Issues s x.ctl nd k → let b := issued s k nd
    let e (l : Nat) : Nat := (k.src.get x.c.toNat l).toNat
    (k.lanes = 0 → Completes i s k b)
    ∧ ∀ ts, k.lanes ≠ 0 → checkLanes b k.gang k.sup .read x.ty.bytes (k.eas x.a.toNat x.off.toInt) (loadRule x.ty e) = .go ts [] →
        let r := loadLanes (touchAll b k.gang (ts.map (·.va))) k x.ty e (ordOf x.ord) ts
        r.2.1 = [] → ∃ t, Completes i s k t ∧ Leaves t k x.ctl (r.1.flatMap fun g => laneRegs x.d.toNat g.lane x.ty g.val)
          ∧ (b.relaxed = [] → (∀ p ∈ ts, p.leaf.rk = false) → SameRegs b t ∧ SameMemory b t
            ∧ (arm → k.lanes = guarded k.src x.ctl.guard k.xmask → (∀ a ∈ b.agents, a.mon.armed = none) → ∀ p, ts.head? = some p → p.sp = .loc → ∃ y, t.agent? k.agent = some y ∧ y.mon.armed = some (.loc, p.addr / 128)))

/-- R251, R430: an access whose address is misaligned faults with MISALIGNED, whole, its INFO the lowest such lane's address; one without the
right on its page with PERMISSION; nothing of it has happened.
The model's own choices in it: log 22 (a decoding load is aligned to its type). -/
def Obligations.MisalignedOrForbiddenAccessFaults : Prop :=
  (∀ (x : Mem) (s : State) (k : Iss), let nd := memNeed [(x.d.toNat, x.ty.nregs), (x.a.toNat, 2), (x.c.toNat, 1)]
    Issues s x.ctl nd k → ∀ code info, k.lanes ≠ 0 → checkLanes (issued s k nd) k.gang k.sup .read x.ty.bytes (k.eas x.a.toNat x.off.toInt) (loadRule x.ty fun l => (k.src.get x.c.toNat l).toNat) = .fault code info →
      EndsWith (.ld x) s k (issued s k nd) (.fault code k.lanes (BitVec.ofNat 64 info)))
  ∧ (∀ (x : Mem) (s : State) (k : Iss), let nd := memNeed [(x.a.toNat, 2), (x.b.toNat, x.ty.nregs)]
    Issues s x.ctl nd k → ∀ code info, k.lanes ≠ 0 → checkLanes (issued s k nd) k.gang k.sup .write x.ty.bytes (k.eas x.a.toNat x.off.toInt) (storeRule x.ty) = .fault code info →
      EndsWith (.st x) s k (issued s k nd) (.fault code k.lanes (BitVec.ofNat 64 info)))
  ∧ (∀ (s : State) (g : GangKey) (sup : Bool) (w : Want) (size l va : Nat) (eas : List (Nat × Nat)) (rule : Spot → Option Nat),
      eas.find? (fun e => e.2 % size ≠ 0) = some (l, va) → checkLanes s g sup w size eas rule = .fault 0x03 va)
  ∧ ∀ (s : State) (g : GangKey) (sup : Bool) (w : Want) (size l va : Nat) (eas : List (Nat × Nat)), eas.all (fun e => e.2 % size = 0) →
      eas.find? (fun e => tr s (s.ctxOf g) sup w e.2 = .perm) = some (l, va) → checkLanes s g sup w size eas (fun _ => none) = .fault 0x11 va

/-- R241, R249, R253: ST whose lanes all translate and are admitted, with no job edge on its bytes, completes: memory holds the low bytes of B of
the lanes of L at their addresses, the highest lane's last, and no other byte changes; relaxed, the bytes wait with the agent. -/
def Obligations.StoreWritesTheBytesOfItsLanes : Prop :=
  ∀ (x : Mem) (s : State) (k : Iss), let nd := memNeed [(x.a.toNat, 2), (x.b.toNat, x.ty.nregs)]
    Issues s x.ctl nd k → let b := issued s k nd
    (k.lanes = 0 → Completes (.st x) s k b)
    ∧ ∀ ts, k.lanes ≠ 0 → checkLanes b k.gang k.sup .write x.ty.bytes (k.eas x.a.toNat x.off.toInt) (storeRule x.ty) = .go ts [] →
        (∀ p ∈ ts, jobEdge b (b.ctxOf k.gang).id p.va x.ty.bytes = false) → ∃ t, Completes (.st x) s k t
          ∧ (b.relaxed = [] → SameRegs b t ∧ if ordKind x.ord = 1 then ∀ p, ts = [p] → SameMemory b t
              else StoredOnly b t (ts.map fun p => (p.sp, p.addr, dataBytes k.src x.ty x.b.toNat p.lane)))

/-- R249, R256, R258: LDS and LDRM read the scratchpad of the block, or of the gang member C names; a lane outside the allocation is switched off
and named in FAULTMASK.
R249, R256, R258: STS and STRM write the scratchpad of the block, or of the gang member C names.
R251, R256, R258: the check of a scratchpad access: a wave's lanes outside the allocation are switched off whatever their alignment, and of
the others a misaligned address faults; a pilot program's lane outside faults first. -/
def Obligations.ScratchpadAccessesAndBounds : Prop :=
  (∀ (x : Mem) (remote : Bool) (s : State) (k : Iss), let nd : Need := { memNeed [(x.d.toNat, x.ty.nregs), (x.a.toNat, 1)] with pilot := remote }
    let i := if remote then Instr.ldrm x else .lds x
    let role := if remote then x.c.toNat else k.role
    Issues s x.ctl nd k → let b := issued s k nd
    (k.lanes = 0 → Completes i s k b)
    ∧ ∀ as c, k.lanes ≠ 0 → scrCheck b k role x.a.toNat x.ty.bytes x.off.toInt = .inr (as, c) →
        ∃ t, ∃ ls : List (Nat × Nat), Completes i s k t ∧ ls.map (·.1) = as.map (·.1) ∧ Leaves t k x.ctl (ls.flatMap fun g => laneRegs x.d.toNat g.1 x.ty g.2)
          ∧ (b.relaxed = [] → SameMemory b t ∧ (ordKind x.ord ≠ 1 → (∀ c ∈ b.copies, c.sp ≠ .scr k.gang role) → ∀ l a v, (l, a) ∈ as → (l, v) ∈ ls → ¬b.poisoned (.scr k.gang role) a x.ty.bytes →
              v = leNat (b.readHome (.scr k.gang role) a x.ty.bytes))))
  ∧ (∀ (x : Mem) (remote : Bool) (s : State) (k : Iss), let nd : Need := { memNeed [(x.a.toNat, 1), (x.b.toNat, x.ty.nregs)] with pilot := remote }
    let i := if remote then Instr.strm x else .sts x
    let role := if remote then x.c.toNat else k.role
    Issues s x.ctl nd k → let b := issued s k nd
    (k.lanes = 0 → Completes i s k b)
    ∧ ∀ as c, k.lanes ≠ 0 → scrCheck b k role x.a.toNat x.ty.bytes x.off.toInt = .inr (as, c) →
        ∃ t, Completes i s k t ∧ (b.relaxed = [] → ordKind x.ord ≠ 1 →
          StoredOnly b t (as.map fun e => (.scr k.gang role, e.2, dataBytes k.src x.ty x.b.toNat e.1))))
  ∧ (∀ (s : State) (k : Iss) (g : Gang) (bl : Block) (role a size : Nat) (off : Int), s.gang? k.gang = some g → s.blockOf? k.gang role = some bl → role < g.size →
    let at_ (l : Nat) : Int := ((k.src.get a l).toNat : Int) + off
    let inside (l : Nat) : Bool := 0 ≤ at_ l && at_ l + size ≤ bl.scrSize
    let ls := lanesOf k.lanes
    (k.pilot → (∃ l ∈ ls, ¬inside l) → ∃ info, scrCheck s k role a size off = .inl (0x16, info, k.lanes))
    ∧ ((k.pilot → ∀ l ∈ ls, inside l) → (∃ l ∈ ls, inside l ∧ at_ l % size ≠ 0) → ∃ info, scrCheck s k role a size off = .inl (0x03, info, k.lanes))
    ∧ ((k.pilot → ∀ l ∈ ls, inside l) → (∀ l ∈ ls, inside l → at_ l % size = 0) →
        scrCheck s k role a size off = .inr ((ls.filter inside).map fun l => (l, (at_ l).toNat), switchOff s k (ls.filter fun l => !inside l))))

/-- R261-R264: ATOM, RED and ATOMS read, change and write each lane's location in one step; ATOM and ATOMS return the old values. Lanes
that name one location are applied in lane order, each finding what the lane before it left (R262); nothing else in memory changes.
R262: the new value of each integer operation of an atomic; the float operations are FADD to nearest, FMIN and FMAX.
The model's own choices in it: log 24 (an atomic waits for a job as a store does). -/
def Obligations.AtomicsReadModifyAndWrite : Prop :=
  ((∀ (x : Mem) (red : Bool) (s : State) (k : Iss), let nd := atomNeed x red 2
    let i := if red then Instr.red x else .atom x
    Issues s x.ctl nd k → let b := issued s k nd
    (k.lanes = 0 → Completes i s k b)
    ∧ ∀ ts, k.lanes ≠ 0 → checkLanes b k.gang k.sup .atomic x.ty.bytes (k.eas x.a.toNat (x.off.extractLsb' 0 20).toInt) (atomRule x.op) = .go ts [] →
        (∀ p ∈ ts, jobEdge b (b.ctxOf k.gang).id p.va x.ty.bytes = false) → ∃ t, Completes i s k t
          ∧ (red = false → ∃ gs : List Got, gs.map (·.lane) = ts.map (·.lane) ∧ Leaves t k x.ctl (gs.flatMap fun g => laneRegs x.d.toNat g.lane x.ty g.val))
          ∧ ∀ p rest, ts = p :: rest → i.wf → (∀ q ∈ rest, q.sp = p.sp ∧ q.addr = p.addr) → b.relaxed = [] → ¬b.poisoned p.sp p.addr x.ty.bytes →
              let old := leNat (b.readHome p.sp p.addr x.ty.bytes)
              StoredOnly b t [(p.sp, p.addr, leBytes x.ty.bytes (atomLast x k.src old (ts.map (·.lane))))]
              ∧ (red = false → Leaves t k x.ctl ((atomChain x k.src old (ts.map (·.lane))).flatMap fun g => laneRegs x.d.toNat g.1 x.ty g.2)))
  ∧ ∀ (x : Mem) (s : State) (k : Iss), let nd : Need := { atomNeed x false 1 with pilot := false }
    Issues s x.ctl nd k → let b := issued s k nd
    (k.lanes = 0 → Completes (.atoms x) s k b)
    ∧ ∀ as c, k.lanes ≠ 0 → scrCheck b k k.role x.a.toNat x.ty.bytes (x.off.extractLsb' 0 20).toInt = .inr (as, c) →
        ∃ t, Completes (.atoms x) s k t
          ∧ (∃ gs : List Got, gs.map (·.lane) = as.map (·.1) ∧ Leaves t k x.ctl (gs.flatMap fun g => laneRegs x.d.toNat g.lane x.ty g.val))
          ∧ (as = [] → SameMemory b t)
          ∧ ∀ l a rest, as = (l, a) :: rest → (Instr.atoms x).wf → (∀ q ∈ rest, q.2 = a) → b.relaxed = [] → ¬b.poisoned (.scr k.gang k.role) a x.ty.bytes →
              let old := leNat (b.readHome (.scr k.gang k.role) a x.ty.bytes)
              StoredOnly b t [(.scr k.gang k.role, a, leBytes x.ty.bytes (atomLast x k.src old (as.map (·.1))))]
              ∧ Leaves t k x.ctl ((atomChain x k.src old (as.map (·.1))).flatMap fun g => laneRegs x.d.toNat g.1 x.ty g.2))
  ∧ ((∀ (o b : Word) (c : Nat), LaneOut.ofNat (atomNew 10 .f32 o.toNat b.toNat c).1 (atomNew 10 .f32 o.toNat b.toNat c).2 = laneRound (sumX 0 [f32 o, f32 b]) fmtF32 0 false
    ∧ LaneOut.ofNat (atomNew 11 .f32 o.toNat b.toNat c).1 (atomNew 11 .f32 o.toNat b.toNat c).2 = minmaxLane false o b
    ∧ LaneOut.ofNat (atomNew 12 .f32 o.toNat b.toNat c).1 (atomNew 12 .f32 o.toNat b.toNat c).2 = minmaxLane true o b)
  ∧ ∀ (t : Ty) (old b c : Nat), t = .n32 ∨ t = .n64 ∨ t = .s32 ∨ t = .s64 → old < 2 ^ t.width → b < 2 ^ t.width →
    (atomNew 0 t old b c).1 = (old + b) % 2 ^ t.width
    ∧ (atomNew 1 t old b c).1 = (if intOf t old ≤ intOf t b then old else b) ∧ (atomNew 2 t old b c).1 = (if intOf t old ≤ intOf t b then b else old)
    ∧ (atomNew 3 t old b c).1 = old &&& b ∧ (atomNew 4 t old b c).1 = old ||| b ∧ (atomNew 5 t old b c).1 = old ^^^ b
    ∧ (atomNew 6 t old b c).1 = b ∧ (atomNew 7 t old b c).1 = (if old = b then c else old)
    ∧ (atomNew 8 t old b c).1 = (if b ≤ old then 0 else old + 1) ∧ (atomNew 9 t old b c).1 = (if old = 0 ∨ b < old then b else old - 1))

/-- R234, R265, R267, R269: FENCE acts as a release and an acquire in its scopes; MWAIT completes at once where its monitor is written, lost or
absent, and else waits; PREF changes no register and loads nothing; MWAIT_WRITTEN and MWAIT_EXPIRE end an MWAIT that waits. -/
def Obligations.FencesMonitorsAndPrefetch : Prop :=
  (∀ x : Mem, Does (.fence x) x.ctl (memNeed []) fun k b =>
    let o := ordOf x.ord
    if k.lanes = 0 then b else if o.kind = 0 then fenceAcquire (fenceRelease b k.agent 3 4) k.agent 3 4
    else if o.kind = 2 then fenceAcquire b k.agent o.scope o.storage else fenceRelease b k.agent o.scope o.storage)
  ∧ (∀ x : Mem, ∀ s k, Issues s x.ctl (memNeed [(x.d.toNat, 1)]) k → let b := issued s k (memNeed [(x.d.toNat, 1)])
      (k.lanes = 0 → Completes (.mwait x) s k b) ∧ ∀ a, b.agent? k.agent = some a → k.lanes ≠ 0 →
        (a.mon.written → Completes (.mwait x) s k (mwaitEnd b k.agent x.d.toNat k.lanes 0))
        ∧ (¬a.mon.written → a.mon.lost → Completes (.mwait x) s k (mwaitEnd b k.agent x.d.toNat k.lanes 2))
        ∧ (¬a.mon.written → ¬a.mon.lost → a.mon.armed = none → Completes (.mwait x) s k (mwaitEnd b k.agent x.d.toNat k.lanes 3))
        ∧ (¬a.mon.written → ¬a.mon.lost → a.mon.armed ≠ none →
            EndsWith (.mwait x) s k b (.wait (.mwait (if x.off = 0 then none else some (b.tick + x.off.toNat * 1024)) x.d.toNat k.lanes))))
  ∧ (∀ x : Mem, Does (.pref x) x.ctl (memNeed [(x.a.toNat, 2)]) fun k b =>
      k.later ((k.eas x.a.toNat x.off.toInt).foldl (fun s e => prefLane s k x.d.toNat e.2) b) x.ctl { opens := false })
  ∧ ∀ (s : State) (n p : Nat) (a : Agent) (lim : Option Nat) (d : Nat) (lanes : Word), s.agent? n = some a → (s.path? n p).bind (·.wait) = some (.mwait lim d lanes) →
      let done (code : Nat) := endSlot ((mwaitEnd s n d lanes code).updAgent n fun x => { x with lastIssue := s.tick }) n p .nothing
      (a.mon.written → exec (.mwaitWritten n p) s = .next (done 0))
      ∧ (¬a.mon.written → ∀ t, lim = some t → t ≤ s.tick → exec (.mwaitExpire n p) s = .next (done 1))
      ∧ (¬a.mon.written → lim = none → a.mon.lost → exec (.mwaitExpire n p) s = .next (done 2))

/-! ## Units, engines and copies (R131, R161-R221, R270-R295) -/

/-- R190, R193, R202-R221: the intersection, sounding and hash-grid instructions, whenever they issue.
R272-R274: TEXS samples at the operands of B; TEXF fetches one texel, or zeros with MEMSTAT bit 2 outside the level.
The model's own choices in it: log 10 (free values); log 31 (the sign of exact zeros); log 127 (a MISS names no volume); log 34 (RAYW of an instance); log 42 (a refused page faults the whole instruction); log 35 (words 2 to 6 of RAYW on a volume leaf); log 36 (a malformed grid under a leaf); log 37 (a march whose count passes 256); log 38 (open words of SND results); log 39 (registers of a poisoned lane); log 40 (a poisoned texel); log 41 (infinite patch points); log 151 (the reads of one instruction are one step); log 152 (a continuation whose ray misses); log 153 (word 5 of SNDO at EXIT); log 154 (all 16 level entries keep the limits). -/
def Obligations.UnitAndTextureQueries : Prop :=
  ((∀ x : Eng, Queries (.rayq x) x.ctl (needUnit [(x.d.toNat, 12), (x.a.toNat, 8), (x.b.toNat, 2), (x.c.toNat, 1)] 1) x.d.toNat none (rayqLane x))
  ∧ (∀ x : Eng, Queries (.rayw x) x.ctl (needUnit [(x.d.toNat, 8), (x.a.toNat, 8), (x.b.toNat, 2), (x.c.toNat, 1)] 1) x.d.toNat none (raywLane x))
  ∧ (∀ x : Eng, let bad (ok : List (Nat × LaneQ)) : List Nat := (ok.filter fun r => r.2.regs.isEmpty).map (·.1)
      Queries (.rayh x) x.ctl (needUnit [(x.d.toNat, 4), (x.a.toNat, 8), (x.b.toNat, 2)] 1) 0 (some fun ok => if bad ok = [] then none else some (0x41, maskOf (bad ok))) fun k l => do
        let r ← poisoned (rayhLane x k l) (U.fill ([0, 1, 2, 3].map fun i => (i, none)))
        pure (rayhPlace x.d.toNat x.a.toNat r))
  ∧ (∀ x : Eng, Queries (.ptch x) x.ctl (needUnit [(x.d.toNat, 12), (x.a.toNat, 2), (x.b.toNat, 1)] 1) x.d.toNat none (ptchLane x))
  ∧ (∀ (x : Eng) (i : Instr) (kind : Snd), (i, kind) ∈ [(.sndm x, .m), (.sndo x, .o), (.snde x, .e), (.snda x, .a)] →
      Queries i x.ctl (needUnit [(x.d.toNat, 8), (x.a.toNat, 8), (x.b.toNat, 2)] 2) x.d.toNat none (sndLane kind x))
  ∧ ∀ x : Eng, Queries (.hgf x) x.ctl (needUnit [(x.d.toNat, fieldOf x.imm 7 4 * (if x.imm.getLsbD 8 then 2 else 1)), (x.a.toNat, 3), (x.b.toNat, 2)] 3) x.d.toNat
      none (hgfLane x))
  ∧ ((∀ x : Mem, Queries (.texs x) x.ctl (texNeed x) x.d.toNat none fun k => texLane x k fun t l => do
    let c ← texsLane t k (f32 (k.src.get x.b.toNat l)) (f32 (k.src.get (x.b.toNat + 1) l)) (f32 (k.src.get (x.b.toNat + 2) l))
    pure { regs := chanRegs c })
  ∧ ∀ x : Mem, Queries (.texf x) x.ctl (texNeed x) x.d.toNat none fun k => texLane x k fun t l =>
      let px := (k.src.get x.b.toNat l).toInt
      let py := (k.src.get (x.b.toNat + 1) l).toInt
      let lv := (k.src.get (x.b.toNat + 2) l).toNat
      if lv ≥ t.levels || px < 0 || py < 0 || px ≥ t.w lv || py ≥ t.h lv then pure { regs := [(0, 0), (1, 0), (2, 0), (3, 0)], mem := 4 }
      else do
        let c ← t.texel k lv px.toNat py.toNat
        pure { regs := chanRegs c })

/-- R33, R275, R277: LNKS sends one word per lane, zero outside L, to the neighbour of its direction, does not issue while four messages of
the channel are buffered, and faults without a neighbour; LNKR receives the oldest message that has landed on its channel, and waits with no
register changed where there is none; LINK_MESSAGE_LAND lands the oldest message of a channel.
The model's own choices in it: log 43 (credits are counted by receiving gang). -/
def Obligations.LinkMessagesArriveInOrder : Prop :=
  (∀ (x : Eng) (s : State) (k : Iss), let nd := linkNeed [(x.a.toNat, 1)]
    Issues s x.ctl nd k → let b := issued s k nd
    let dir := fieldOf x.imm 1 0
    let ch := fieldOf x.imm 5 2
    let full (dest : GangKey) : Prop := 4 ≤ (b.links.filter fun m => m.gang == dest && m.dir == opposite dir && m.ch == ch).length
    (((b.gang? k.gang).bind fun g => neighbour g dir) = none → EndsWith (.lnks x) s k b (.fault 0x04 k.lanes 0))
    ∧ ∀ dest, ((b.gang? k.gang).bind fun g => neighbour g dir) = some dest →
        (full dest → exec (.lnks x) s = .next { unissue s k with cur := none })
        ∧ (¬full dest → ∃ t m, Completes (.lnks x) s k t ∧ t.links = b.links ++ [m] ∧ m.gang = dest ∧ m.dir = opposite dir ∧ m.ch = ch ∧ m.landed = false
          ∧ m.words = (List.range 32).map (fun l => if k.lanes.getLsbD l then k.src.get x.a.toNat l else 0) ∧ SameRegs b t ∧ SameMemory b t))
  ∧ (∀ (x : Eng) (s : State) (k : Iss), let nd := linkNeed [(x.d.toNat, 1)]
    Issues s x.ctl nd k → let b := issued s k nd
    let dir := fieldOf x.imm 1 0
    let ch := fieldOf x.imm 5 2
    let here := b.links.find? fun m => m.gang == k.gang && m.dir == dir && m.ch == ch
    (((b.gang? k.gang).bind fun g => neighbour g dir) = none → EndsWith (.lnkr x) s k b (.fault 0x04 k.lanes 0))
    ∧ (((b.gang? k.gang).bind fun g => neighbour g dir) ≠ none → (∀ p ∈ b.pend, ∀ d c r m, p.hold ≠ .link d c r m) → ∃ t, Completes (.lnkr x) s k t ∧ SameRegs b t ∧ SameMemory b t
      ∧ (∀ m, here = some m → m.landed → Leaves t k x.ctl (laneWrites x.d.toNat (fun l => m.words.getD l 0) (lanesOf k.lanes)) ∧ t.links = b.links.filter fun y => y.id != m.id)
      ∧ ((here = none ∨ ∃ m, here = some m ∧ m.landed = false) → t.links = b.links ∧ ∃ p, t.pend.getLast? = some p ∧ OfIssue k x.ctl p ∧ p.hold = .link dir ch x.d.toNat k.lanes)))
  ∧ ∀ (s : State) (m : LinkMsg), s.links.find? (fun y => y.id == m.id) = some m
      → s.links.find? (fun y => y.gang == m.gang && y.dir == m.dir && y.ch == m.ch && !y.landed) = some m → (∀ p ∈ s.pend, p.hold ≠ .linkSent m.id) →
      exec (.linkMessageLand m.id) s = .next (serveLink { s with links := updWhere (fun y => y.id == m.id) (fun y => { y with landed := true }) s.links } m.gang m.dir m.ch)

/-- R164-R166, R172, R176-R186, R241: the engine instructions of a wave. TLD and TST whose rows pass their checks and translate are accepted with
those rows; a row that misses, or whose reckoned line is absent, parks them whole, and a TST over what a job has still to read or write does not issue.
R166, R169, R172, R174, R186: what acceptance does: TSHAPE sets the shape and BOBJ_ARM the barrier object in acceptance order; an
instruction that must wait for an object that is not satisfied waits, and every other starts in order.
The model's own choices in it: log 27 (shapes change at acceptance); log 26 (a TLD or TST with a missing row parks whole); log 25 (rows move when the engine performs them). -/
def Obligations.EngineAcceptsAndShapes : Prop :=
  ((∀ x : Eng, Accepted (.tshape x) x.ctl (engNeed []) true energy64 fun _ o => o)
  ∧ (∀ x : Eng, Accepted (.tzero x) x.ctl (engNeed []) true energy64 fun _ o => o)
  ∧ (∀ x : Eng, Accepted (.tfeed x) x.ctl (engNeed [(x.a.toNat, if x.imm.getLsbD 8 then 2 else 1)]) true energy64 fun k o => { o with tw := feedWrites x k })
  ∧ (∀ x : Eng, Accepted (.tdrain x) x.ctl (engNeed [(x.d.toNat, if x.imm.getLsbD 14 then 2 else 1)]) true energy64 fun _ o => o)
  ∧ (∀ x : Eng, Accepted (.mma x) x.ctl (engNeed []) true (mmaEnergy x) fun _ o => o)
  ∧ (∀ x : Eng, Accepted (.acvt x) x.ctl (engNeed []) true energy64 fun k o => { o with rnd := modeOfCode (immBits x 23 21) k.src.rnd })
  ∧ (∀ x : Eng, Accepted (.menc x) x.ctl (engNeed []) true energy64 fun _ o => o)
  ∧ (∀ x : Eng, Accepted (.bobjArm x) x.ctl (engNeed []) false energy64 fun _ o => o)
  ∧ (∀ x : Eng, Accepted (.bobjWait x) x.ctl (engNeed []) false energy64 fun _ o => o)
  ∧ ∀ (x : Eng) (st : Bool) (s : State) (k : Iss), let nd := { engNeed [(x.a.toNat, 2), (x.b.toNat, 1)] with pilot := false, base := 0 }
    let i := if st then Instr.tst x else .tld x
    Issues s x.ctl nd k → let b := issued s k nd
    ∀ bl, b.blockOf? k.gang k.role = some bl → let c := charge b k.gang k.role 64
      let rows := tileRows c (c.ctxOf k.gang) k.sup (if st then .write else .read) (shapeOf (bl.tile (if st then x.c else x.d).toNat)) (tileBase k x).1 (tileBase k x).2
      (engCheck bl i = false → EndsWith i s k b (.fault 0x01 k.lanes 0)) ∧ (engCheck bl i → k.lanes = 0 → Completes i s k c)
      ∧ (engCheck bl i → k.lanes ≠ 0 → (∀ code info, rows = .fault code info → EndsWith i s k c (.fault code k.lanes (BitVec.ofNat 64 info)))
        ∧ (∀ ms, rows = .miss ms → ∃ t why, EndsWith i s k t (.park k.lanes why))
        ∧ ∀ rs, rows = .go rs →
          let edge := rs.any fun p => jobEdge c (c.ctxOf k.gang).id p.va p.len
          let lines := (rowsRk (touchAll c k.gang (rs.map (·.va))) k rs).1
          let accepted (p : EngOp → Prop) : Prop := ∃ t u op, Completes i s k t ∧ t = engAccept u k.gang k.role op ∧ op.instr = i ∧ op.agent = k.agent ∧ op.lanes = k.lanes ∧ p op
            ∧ ∃ q, u.pend.getLast? = some q ∧ OfIssue k x.ctl q ∧ q.hold = .engine op.id
          (st → edge → exec i s = .next { unissue s k with cur := none })
          ∧ (st → edge = false → accepted fun op => op.ts.map (fun w => (w.row, w.va, w.len)) = rs.map fun p => (p.row, p.va, p.len))
          ∧ (st = false → (∃ e ∈ lines, ∃ w, e.2 = .wait w) → ∃ t why, EndsWith i s k t (.park k.lanes why))
          ∧ (st = false → (∀ e ∈ lines, ∀ w, e.2 ≠ .wait w) → accepted fun op => op.ld.map (·.1) = rs)))
  ∧ (∀ (s : State) (g : GangKey) (role : Nat) (b : Block) (op : EngOp), s.blockOf? g role = some b → b.engBusy →
    let t := engAccept s g role op
    ∃ c o, t.blockOf? g role = some c ∧ c.engq = b.engq ++ [o] ∧ o.id = op.id ∧ o.instr = op.instr ∧ c.accs = b.accs
      ∧ (∀ x, op.instr = .tshape x → shapeOf (c.tile x.d.toNat) = (immBits x 12 6, immBits x 5 3, immBits x 2 0) ∧ ∀ i, i ≠ x.d.toNat → c.tile i = b.tile i)
      ∧ (∀ x, op.instr = .bobjArm x → x.d.toNat < 8 → c.obj x.d.toNat = { count := immBits x 15 8, arr := 0, phase := (b.obj x.d.toNat).phase + 1 })
      ∧ ((∀ x, op.instr ≠ .bobjArm x) → c.bobj = b.bobj) ∧ ((∀ x, op.instr ≠ .tshape x) → c.tiles = b.tiles)
      ∧ (∀ x, op.instr = .bobjWait x → o.aft = if (b.obj x.d.toNat).count ≤ (b.obj x.d.toNat).arr then none else some (x.d.toNat, (b.obj x.d.toNat).phase)))

/-- R175, R179, R180, R181, R182: what the engine does when it performs TLD, TZERO, TFEED, TDRAIN of an accumulator, and MMA: each element of D's window is the
one R182 accumulates from the blocks of its rows, and every other element keeps its value; the other tiles and accumulators are as before.
The model's own choices in it: log 150 (one order for all elements). -/
def Obligations.EnginePerformsTileArithmetic : Prop :=
  (∀ (b : Block) (op : EngOp) (x : Eng), op.instr = .tld x → (engRun b op).1.tile x.d.toNat = op.tw.foldl applyTileWrite (b.tile x.d.toNat) ∧ (engRun b op).2.mem = op.mem
    ∧ KeepsOthers b (engRun b op).1 (some x.d.toNat) none)
  ∧ (∀ (b : Block) (op : EngOp) (x : Eng), op.instr = .tzero x →
    (x.imm.getLsbD 0 → ∀ i j, accAt ((engRun b op).1.acc x.d.toNat) i j = 0)
    ∧ (¬x.imm.getLsbD 0 → let t := (engRun b op).1.tile x.d.toNat
        shapeOf t = shapeOf (b.tile x.d.toNat) ∧ ∀ r c, tileByte t r c = 0 ∧ tileScale t r c = 0x7F ∧ tileTag t r c = 0)
    ∧ KeepsOthers b (engRun b op).1 (if x.imm.getLsbD 0 then none else some x.d.toNat) (if x.imm.getLsbD 0 then some x.d.toNat else none))
  ∧ (∀ (b : Block) (op : EngOp) (x : Eng), op.instr = .tfeed x → (engRun b op).1.tile x.d.toNat = op.tw.foldl applyTileWrite (b.tile x.d.toNat)
    ∧ KeepsOthers b (engRun b op).1 (some x.d.toNat) none)
  ∧ (∀ (b : Block) (op : EngOp) (x : Eng), op.instr = .tdrain x → ¬x.imm.getLsbD 12 →
      (engRun b op).2.writes = laneWrites x.d.toNat (fun l => accAt (b.acc x.a.toNat) (immBits x 5 0) (immBits x 11 6 + l)) (lanesOf op.lanes)
      ∧ KeepsOthers b (engRun b op).1 none (some x.a.toNat)
      ∧ (immBits x 11 6 ≤ 32 → ∀ i j, i < 64 → j < 64 → accAt ((engRun b op).1.acc x.a.toNat) i j =
          if x.imm.getLsbD 13 ∧ i = immBits x 5 0 ∧ immBits x 11 6 ≤ j ∧ (j - immBits x 11 6) ∈ lanesOf op.lanes then 0 else accAt (b.acc x.a.toNat) i j))
  ∧ ∀ (b : Block) (op : EngOp) (x : Eng) (sa sb : Nat × Nat × Nat), op.instr = .mma x → op.shapes = [sa, sb] →
      let row := immBits x 5 0
      let col := immBits x 11 6
      let old := b.acc x.d.toNat
      let new := (engRun b op).1.acc x.d.toNat
      KeepsOthers b (engRun b op).1 none (some x.d.toNat) ∧ (row + sa.1 ≤ 64 → col + sb.1 ≤ 64 →
      (∀ i < sa.1, ∀ j < sb.1, accAt new (row + i) (col + j) = (mmaElement (x.imm.getLsbD 20) (accAt old (row + i) (col + j))
        (((List.range sa.2.1).map fun kb => tileBlk (b.tile x.a.toNat) sa.2.2 i kb).zip ((List.range sb.2.1).map fun kb => tileBlk (b.tile x.b.toNat) sb.2.2 j kb))).1)
      ∧ ∀ i j, i < 64 → j < 64 → ¬(row ≤ i ∧ i < row + sa.1 ∧ col ≤ j ∧ j < col + sb.1) → accAt new i j = accAt old i j)

/-- R278-R287, R289, R291, R292: CPY, a pilot program's CPYQ, CBLD and GTHR with a lane in L.
R278, R289, R352: the CPYQ of a wave joins its block's collective; the contribution that completes it submits one job with every wave's
slice, and does not issue where the scheduler has neither an entry nor the locks; a fill's wave has no collective.
The model's own choices in it: log 51 (a full scheduler holds the last contribution); log 50 (an empty CPYQ is not refused); log 1 (memory that nothing has written reads 0). -/
def Obligations.CopiesRunOrGatherTheirWaves : Prop :=
  ((∀ (x : Eng) (q : Bool) (s : State) (k : Iss), let i := if q then Instr.cpyq x else .cpy x
    Issues s x.ctl (cpyNeed x) k → let b := issued s k (cpyNeed x)
    let c := b.ctxOf k.gang
    let l := (lanesOf k.lanes).headD 0
    let sl := sliceOfCmd (cmdRegs k.src x.a.toNat l)
    let stamp := (k.src.get64 x.b.toNat l).toNat
    let ok := sliceLimits (xformOf x) sl
    let es := (if ok then sliceExts b c (xformOf x) sl else []) ++ stampExt stamp
    let key := entryKey true k.gang 0 (((b.agent? k.agent).map (·.idx)).getD 0)
    (q → k.pilot) → (k.lanes = 0 → Completes i s k b)
    ∧ (k.lanes ≠ 0 → (xformOf x).xf = 3 → (b.book (b.clusterOf k.gang) (fieldOf x.imm 2 0)).owner ≠ ownerKey b k → EndsWith i s k b (.fault 0x04 k.lanes 0))
    ∧ (k.lanes ≠ 0 → ((xformOf x).xf = 3 → (b.book (b.clusterOf k.gang) (fieldOf x.imm 2 0)).owner = ownerKey b k) →
        Submits i s k b x.ctl x.d.toNat (submitCheck b c k.sup ok es (sliceMisaligned b c (xformOf x) sl) stamp [])
          (if q then b.reserveFree (b.clusterOf k.gang) key else b.sharedFree (b.clusterOf k.gang)) fun _ j =>
            j.kind = 0 ∧ j.chan = fieldOf x.imm 2 0 ∧ j.xform = (xformOf x).xf ∧ j.ty = x.ty ∧ j.slices = [sl] ∧ j.stamp = stamp ∧ j.regions = es.map Ext.region))
  ∧ (∀ (x : Eng) (s : State) (k : Iss), let nd : Need := { regs := [(x.d.toNat, 2), (x.a.toNat, 2), (x.b.toNat, 2)], base := 0, feature := some 5 }
    Issues s x.ctl nd k → let b := issued s k nd
    let l := (lanesOf k.lanes).headD 0
    let a := (k.src.get64 x.a.toNat l).toNat
    let n := fieldOf x.imm 10 3 + 1
    let stamp := (k.src.get64 x.b.toNat l).toNat
    (k.lanes = 0 → Completes (.cbld x) s k b)
    ∧ (k.lanes ≠ 0 → Submits (.cbld x) s k b x.ctl x.d.toNat
        (submitCheck b (b.ctxOf k.gang) k.sup true ({ va := a, len := 16 * n, write := false } :: stampExt stamp) (if a % 16 = 0 then none else some a) stamp [])
        (b.sharedFree (b.clusterOf k.gang)) fun _ j => j.kind = 2 ∧ j.chan = fieldOf x.imm 2 0 ∧ j.slices = [[a, n]] ∧ j.stamp = stamp))
  ∧ ∀ (x : Eng) (s : State) (k : Iss), let nd : Need := { regs := [(x.d.toNat, 2), (x.a.toNat, 8), (x.b.toNat, 2)], base := 0 }
    Issues s x.ctl nd k → let b := issued s k nd
    let l := (lanesOf k.lanes).headD 0
    let sl := gatherOfCmd (cmdRegs k.src x.a.toNat l) (2 ^ fieldOf x.imm 5 3)
    let stamp := (k.src.get64 x.b.toNat l).toNat
    (k.lanes = 0 → Completes (.gthr x) s k b)
    ∧ (k.lanes ≠ 0 → Submits (.gthr x) s k b x.ctl x.d.toNat
        (submitCheck b (b.ctxOf k.gang) k.sup (sl.getD 3 0 ≤ 65536) (gatherExts sl ++ stampExt stamp) (gatherMisaligned sl) stamp [])
        (b.sharedFree (b.clusterOf k.gang)) fun _ j => j.kind = 1 ∧ j.chan = fieldOf x.imm 2 0 ∧ j.slices = [sl] ∧ j.stamp = stamp))
  ∧ (∀ (x : Eng) (s : State) (k : Iss), Issues s x.ctl (cpyNeed x) k → let b := issued s k (cpyNeed x)
    let c := b.ctxOf k.gang
    let cl := b.clusterOf k.gang
    let l := (lanesOf k.lanes).headD 0
    let sl := sliceOfCmd (cmdRegs k.src x.a.toNat l)
    let stamp := (k.src.get64 x.b.toNat l).toNat
    let es := if sliceLimits (xformOf x) sl then sliceExts b c (xformOf x) sl else []
    let exts := es ++ stampExt stamp
    let alone : Prop := ∀ y ∈ b.wavesOf k.gang k.role, y.num = k.agent
    ¬k.pilot →
      ((b.agentFill k.agent).isSome → EndsWith (.cpyq x) s k b (.fault 0x04 k.lanes 0))
      ∧ (b.agentFill k.agent = none → k.lanes ≠ 0 → ((xformOf x).xf = 3 → (b.book cl (fieldOf x.imm 2 0)).owner = ownerKey b k) → b.colls = [] → b.pend = [] → ∀ locks,
        submitCheck b c k.sup (sliceLimits (xformOf x) sl && !selfOverlap (exts.map Ext.region)) exts (sliceMisaligned b c (xformOf x) sl) stamp [] = .ok locks →
        (¬alone → ∃ t q, Completes (.cpyq x) s k t ∧ t.jobs = b.jobs ∧ t.colls = [q] ∧ q.waves = [k.agent] ∧ q.slices = [sl] ∧ q.stamp = some stamp ∧ q.exts = es)
        ∧ (alone → b.sharedFree cl → b.locksFree cl locks → ∃ t j, Completes (.cpyq x) s k t
          ∧ t.colls = [] ∧ t.jobs = b.jobs ++ [j] ∧ j.agents = [k.agent] ∧ j.slices = [sl] ∧ j.stamp = stamp ∧ j.regions = exts.map Ext.region)
        ∧ (alone → ((b.sharedFree cl = false ∧ b.reserveFree cl (entryKey false k.gang k.role 0) = false) ∨ b.locksFree cl locks = false) →
          exec (.cpyq x) s = .next { unissue s k with cur := none })))

/-- R286, R293, R294: JOB whose card is read and passes its checks submits the card's job, and does not issue without an entry, a permit or its
locks; a misaligned card faults, one without the right to read it too, an absent one parks; a poisoned one gives all ones in D.
R280-R283, R288, R290: JOB_START runs the payload of a job whose edges and turn allow it, row by row; JOB_COMPLETE, in its counter's order, takes
the job from the scheduler, advances the write pointer and ORs the job's faults into its agents' MEMSTAT.
The model's own choices in it: log 44 (a payload runs at one point); log 45 (the order of overlapping rows is free); log 52 (a completion is acquired at the next WAITC); log 48 (the order of a card's checks); log 126 (a matrix card of a wave); log 49 (what a job charges, and when). -/
def Obligations.JobsAreSubmittedRunAndComplete : Prop :=
  (∀ (x : Eng) (s : State) (k : Iss), let nd : Need := { regs := [(x.d.toNat, 2), (x.a.toNat, 2), (x.b.toNat, 2)], base := 0 }
    Issues s x.ctl nd k → let b := issued s k nd
    let l := (lanesOf k.lanes).headD 0
    let a := (k.src.get64 x.a.toNat l).toNat
    let c := b.ctxOf k.gang
    let refused (jobs : List Job) : Prop := ∃ t, Completes (.job x) s k t ∧ t.jobs = jobs
      ∧ ∀ l < 32, (k.sets x.d.toNat l → t.vreg k.agent x.d.toNat l = 0xFFFFFFFF) ∧ (k.sets (x.d.toNat + 1) l → t.vreg k.agent (x.d.toNat + 1) l = 0xFFFFFFFF)
    (k.lanes = 0 → Completes (.job x) s k b)
    ∧ (k.lanes ≠ 0 → a % 128 ≠ 0 → EndsWith (.job x) s k b (.fault 0x03 k.lanes (BitVec.ofNat 64 a)))
    ∧ (k.lanes ≠ 0 → a % 128 = 0 → tr b c k.sup .read a = .perm → EndsWith (.job x) s k b (.fault 0x11 k.lanes (BitVec.ofNat 64 a)))
    ∧ (∀ m, k.lanes ≠ 0 → a % 128 = 0 → tr b c k.sup .read a = .miss m → ∃ t why, EndsWith (.job x) s k t (.park k.lanes why))
    ∧ ∀ sp pa leaf, k.lanes ≠ 0 → a % 128 = 0 → tr b c k.sup .read a = .ok sp pa leaf →
        let rk := if leaf.rk then rkLines b k.agent k.path c (leaf.pfn % 4096) [a / 128] else (Rk.present, b)
        ((∃ w, rk.1 = .wait w) → ∃ t why, EndsWith (.job x) s k t (.park k.lanes why))
        ∧ ((∃ code, rk.1 = .poison code) → refused rk.2.jobs)
        ∧ (rk.1 = .present →
          let v := if leaf.rk then raiseClock rk.2 k.agent c.asn (a / 128) else rk.2
          let r := loadPlain (touch v c a) k.agent sp pa 128
          let u := r.2
          let cu := u.ctxOf k.gang
          let cl := u.clusterOf k.gang
          let card := cardOf u cu r.1.bytes (k.src.get64 x.b.toNat l).toNat
          let rs := cardRegions r.1.bytes
          let es : List Ext := rs.map fun q => { va := q.va, len := q.len, write := q.write }
          let kind := leField r.1.bytes 0 1
          let unit := leField r.1.bytes 1 1
          let stamp := leField r.1.bytes 8 8
          let word := if kind = 3 then matrixWord (BitVec.ofNat 96 (leField r.1.bytes 16 12)) else none
          let book := kind = 1 ∧ leField r.1.bytes 2 1 % 4 = 3
          let room := (if kind = 3 then (((u.blockOf? k.gang unit).bind fun bl => bl.rsv.find? fun e => e.1 == k.agent).map (·.2)).getD 0 ≠ 0 ∨ u.permitsFree k.gang unit ≠ 0 else u.sharedFree cl)
          (r.1.poison → refused u.jobs)
          ∧ (r.1.poison = false → kind = 3 → word = none → EndsWith (.job x) s k u (.fault 0x01 k.lanes 0))
          ∧ (r.1.poison = false → ((kind = 3 ∧ word ≠ none ∧ (((u.gang? k.gang).map (·.size)).getD 1 ≤ unit ∨ ¬k.pilot)) ∨ (book ∧ (u.book cl unit).owner ≠ ownerKey u k)) →
              EndsWith (.job x) s k u (.fault 0x04 k.lanes 0))
          ∧ (r.1.poison = false → (kind = 3 → word ≠ none ∧ unit < ((u.gang? k.gang).map (·.size)).getD 1 ∧ k.pilot) → (book → (u.book cl unit).owner = ownerKey u k) →
              (¬(card.ok ∧ (card.exts ++ stampExt stamp).all (inCard rs) ∧ selfOverlap rs = false) → EndsWith (.job x) s k u (.fault 0x20 k.lanes 0))
              ∧ (card.ok → (card.exts ++ stampExt stamp).all (inCard rs) → selfOverlap rs = false →
                (∀ code info, submitPages u cu k.sup (es ++ card.exts) card.mis stamp [] = .fault code info → EndsWith (.job x) s k u (.fault code k.lanes (BitVec.ofNat 64 info)))
                ∧ ∀ ms, submitPages u cu k.sup (es ++ card.exts) card.mis stamp [] = .miss ms → ms ≠ [] → ∃ t why, EndsWith (.job x) s k t (.park k.lanes why)))
          ∧ ∀ locks, r.1.poison = false → (kind = 3 → word ≠ none ∧ unit < ((u.gang? k.gang).map (·.size)).getD 1 ∧ k.pilot) → (book → (u.book cl unit).owner = ownerKey u k)
            → card.ok → (card.exts ++ stampExt stamp).all (inCard rs) → selfOverlap rs = false
            → submitPages u cu k.sup (es ++ card.exts) card.mis stamp [] = .ok locks →
            (¬(room ∧ u.locksFree cl locks) → exec (.job x) s = .next { unissue s k with cur := none })
            ∧ (room → u.locksFree cl locks → ∃ t j, Completes (.job x) s k t ∧ t.jobs = u.jobs ++ [j] ∧ j.kind = card.kind ∧ j.chan = card.chan ∧ j.slices = [card.slice]
              ∧ j.regions = rs ∧ j.locks = locks ∧ j.stamp = stamp ∧ j.agents = [k.agent] ∧ j.word = word)))
  ∧ ((∀ (s : State) (j : Job), s.job? j.id = some j → j.ran = false → jobWaits s j.id = false → edgeOn s j = false → turnOf s j → j.kind ≠ 3 →
    exec (.jobStart j.id) s = .next (runJob (s.updJob j.id fun j => { j with started := true }) j))
  ∧ (∀ (s : State) (j : Job), s.job? j.id = some j → (edgeOn s j ∨ turnOf s j = false) → j.started = false → exec (.jobStart j.id) s = .next s)
  ∧ (∀ (s : State) (j : Job) (b : Block) (i : Instr), s.job? j.id = some j → j.ran = false → jobWaits s j.id = false → onCluster s j.gang → edgeOn s j = false → turnOf s j → j.kind = 3 → j.op = none
      → j.word = some i → s.blockOf? j.gang j.role = some b → engCheck b i = false →
      exec (.jobStart j.id) s = .next ((s.updJob j.id fun j => { j with started := true }).updJob j.id fun j => { j with ran := true, status := 0x01 }))
  ∧ (∀ (s : State) (j : Job) (b : Block) (i : Instr), s.job? j.id = some j → j.ran = false → jobWaits s j.id = false → onCluster s j.gang → edgeOn s j = false → turnOf s j → j.kind = 3 → j.op = none
      → j.word = some i → s.blockOf? j.gang j.role = some b → engCheck b i →
      ∃ u op, exec (.jobStart j.id) s = .next (engAccept u j.gang j.role op) ∧ op.instr = i ∧ op.job = some j.id ∧ op.agent = j.agents.headD 0x20000 ∧ ∃ h, u.job? j.id = some h ∧ h.op = some op.id ∧ h.started)
  ∧ (∀ (s : State) (j : Job), s.job? j.id = some j → (j.ran = false ∨ ∃ k ∈ s.jobs.takeWhile (fun k => k.id != j.id), k.cluster = j.cluster ∧ k.chan = j.chan ∧ (j.chan < 8 ∨ k.ctx = j.ctx)) →
      exec (.jobComplete j.id) s = .next s)
  ∧ ∀ (s : State) (j : Job), s.job? j.id = some j → j.ran → (∀ k ∈ s.jobs.takeWhile (fun k => k.id != j.id), ¬(k.cluster = j.cluster ∧ k.chan = j.chan ∧ (j.chan < 8 ∨ k.ctx = j.ctx))) →
      ∃ u ts, exec (.jobComplete j.id) s = .next (submitReady (settleTlbis (releaseLocks (dropJobCounters u j.id ts) j.id))) ∧ u.jobs = s.jobs.filter (fun k => k.id != j.id)
        ∧ (∀ c, s.ctx? j.ctx = some c → ∃ d, u.ctx? j.ctx = some d ∧ mget 0 d.wptr (16 * j.cluster + j.chan) = j.seq)
        ∧ ∀ n x, n ∈ j.agents → s.agent? n = some x → ∃ y, u.agent? n = some y ∧ ∀ i < 3, y.regs.mem.getLsbD i = (x.regs.mem.getLsbD i || (BitVec.ofNat 32 j.flags).getLsbD i))

/-- R295, R409: STAGE_HOLD holds lines of its range that translate and are not yet held, each once, and gives their number: a hold that would
pass the context's quota is not made, and short of the quota no line that needs no fill stays without one. STAGE_REL gives up those that
are held, and gives their number. Either charges its bytes, none with an empty L.
The model's own choices in it: log 53 (holds and pinned lines are added); log 125 (a line that nothing brings); log 49 (what a job charges, and when). -/
def Obligations.StagingHoldsAndReleasesLines : Prop :=
  (∀ (x : Eng) (s : State) (k : Iss), let nd : Need := { regs := [(x.d.toNat, 1), (x.a.toNat, 2), (x.b.toNat, 1)], base := 0 }
    Issues s x.ctl nd k → let b := issued s k nd
    let l := (lanesOf k.lanes).headD 0
    let lines := stageLines b k (k.src.get64 x.a.toNat l).toNat (k.src.get x.b.toNat l).toNat
    let c := b.ctxOf k.gang
    let keys := lines.map fun y => (c.id, y.1, y.2.1)
    let pinned := (b.pins.filter fun p => p.ctx == c.id).foldl (fun n p => n + 2 ^ (rkDesc b c p.rkidx).logUnit) 0
    (k.lanes = 0 → Completes (.stageHold x) s k (charge b k.gang (if k.pilot then 0 else k.role) (copyEnergy 0)))
    ∧ (k.lanes ≠ 0 → ∃ t new, Completes (.stageHold x) s k t ∧ t.stageHolds = b.stageHolds ++ new ∧ ((∀ y ∈ lines, y.2.2.rk = false) → SameMemory b t)
        ∧ Leaves t k x.ctl (laneWrites x.d.toNat (fun _ => BitVec.ofNat 32 new.length) (lanesOf k.lanes))
        ∧ new.Nodup ∧ (∀ h ∈ new, h ∈ keys ∧ h ∉ b.stageHolds) ∧ (new ≠ [] → (t.stageHolds.filter fun h => h.1 == c.id).length + pinned ≤ c.stgquota)
        ∧ ∀ y ∈ lines, y.2.2.rk = false → (c.id, y.1, y.2.1) ∈ t.stageHolds ∨ c.stgquota ≤ (t.stageHolds.filter fun h => h.1 == c.id).length + pinned)
    ∧ (k.lanes ≠ 0 → (∀ y ∈ lines, y.2.2.rk = false) → keys.Nodup → (∀ h ∈ b.stageHolds, h ∉ keys) → (∀ p ∈ b.pins, p.ctx ≠ c.id)
        → (b.stageHolds.filter fun h => h.1 == c.id).length + lines.length ≤ c.stgquota →
        ∃ t, Completes (.stageHold x) s k t ∧ t.stageHolds = b.stageHolds ++ keys
          ∧ Leaves t k x.ctl (laneWrites x.d.toNat (fun _ => BitVec.ofNat 32 lines.length) (lanesOf k.lanes))))
  ∧ ∀ (x : Eng) (s : State) (k : Iss), let nd : Need := { regs := [(x.d.toNat, 1), (x.a.toNat, 2), (x.b.toNat, 1)], base := 0 }
    Issues s x.ctl nd k → let b := issued s k nd
    let l := (lanesOf k.lanes).headD 0
    let lines := stageLines b k (k.src.get64 x.a.toNat l).toNat (k.src.get x.b.toNat l).toNat
    let mine (h : Nat × Sp × Nat) : Bool := h.1 == (b.ctxOf k.gang).id && lines.any fun y => y.1 == h.2.1 && y.2.1 == h.2.2
    (k.lanes = 0 → Completes (.stageRel x) s k (charge b k.gang (if k.pilot then 0 else k.role) (copyEnergy 0)))
    ∧ (k.lanes ≠ 0 → ∃ t, Completes (.stageRel x) s k t ∧ t.stageHolds = b.stageHolds.filter (fun h => !mine h)
        ∧ Leaves t k x.ctl (laneWrites x.d.toNat (fun _ => BitVec.ofNat 32 (b.stageHolds.filter mine).length) (lanesOf k.lanes)))

/-! ## Waits, rendezvous, programs and queues (R332-R346) -/

/-- R333-R335: BAR and GBAR wait; BARRIER_COMPLETE lets every wave go on once all that have not ended have arrived, and changes nothing
before. Its meeting orders them: no relaxed store of theirs is left, no clock is below what one of them brought, and no copy from before
it serves a relaxed load of theirs.
R337: RDZV waits at its point; RDZV_PHASE_COMPLETE accepts the arrivals of its gang's waves and programs as releases, each once, into the open
phase or a new one; one with another count than the open phase's fails; a phase that has its count lets its agents go on, and none goes
on before.
The model's own choices in it: log 17 (what a meeting orders); log 59 (the moment an arrival is accepted). -/
def Obligations.BarriersAndRendezvousPass : Prop :=
  ((∀ x : Sys, ∀ s k, Issues s x.ctl (syncNeed false) k → EndsWith (.bar x) s k (drainAgent (issued s k (syncNeed false)) k.agent) (.wait (.bar x.imm.toNat)))
  ∧ (∀ x : Sys, ∀ s k, Issues s x.ctl (syncNeed false) k → EndsWith (.gbar x) s k (drainAgent (issued s k (syncNeed false)) k.agent) (.wait (.gbar x.imm.toNat)))
  ∧ ∀ (s : State) (g : GangKey) (role : Nat) (gang : Bool) (k : Nat), let ws := if gang then s.gangWaves g else s.wavesOf g role
      let point := if gang then isGbar k else isBar k
      let ns := ws.map (·.num)
      let t := meetAll s ns (if gang then 2 else 1)
      (gangRuns s g → ws ≠ [] → (∀ x ∈ ws, x.arrived point) → exec (.barrierComplete g role gang k) s = .next (passPoint t ns point))
      ∧ ((∃ x ∈ ws, ¬x.arrived point) → exec (.barrierComplete g role gang k) s = .next s)
      ∧ (∀ r ∈ t.relaxed, r.agent ∉ ns)
      ∧ ∀ n x m y, n ∈ ns → m ∈ ns → s.agent? n = some x → t.agent? m = some y → x.clock ≤ y.clock ∧ ∀ f ∈ y.floors, s.seq ≤ f)
  ∧ ((∀ x : Sys, ∀ s k, Issues s x.ctl {} k → EndsWith (.rdzv x) s k (issued s k {}) (.wait (.rdzv (bitsOf x.imm.toNat 2 0) (bitsOf x.imm.toNat 13 8 + 1) false)))
  ∧ (∀ (s : State) (g : GangKey) (k : Nat), gangRuns s g →
      let t := (s.gangAgents g).foldl (fun u x => rdzvAccept u x.num k) s
      let full := (t.gang? g).bind fun y => y.rdzv.find? fun p => p.1 == k && p.2.2.length ≥ p.2.1
      (full = none → exec (.rdzvPhaseComplete g k) s = .next t)
      ∧ ∀ c l, full = some (k, c, l) →
          exec (.rdzvPhaseComplete g k) s = .next (passPoint (meetAll (t.updGang g fun y => { y with rdzv := y.rdzv.erase (k, c, l) }) l 2) l (isRdzv k)))
  ∧ (∀ (s : State) (k : Nat) (x : Agent), s.agent? x.num = some x → atRdzv x k = false → rdzvAccept s x.num k = s)
  ∧ ∀ (s : State) (k m : Nat) (x : Agent) (y : Gang), s.agent? x.num = some x → atRdzv x k → s.gang? x.gang = some y → (∀ p ∈ x.paths, ∀ n b, p.wait = some (.rdzv k n b) → n = m) →
      let phase := y.rdzv.find? fun p => p.1 == k && p.2.2.length < p.2.1
      let u := fenceRelease s x.num 2 4
      let t := rdzvAccept s x.num k
      (∀ e, phase = some e → e.2.1 ≠ m → t = rdzvFail s x.num k)
      ∧ ((∀ e, phase = some e → e.2.1 = m) → SameMemory u t ∧ SameRegs u t ∧ t.relaxed = u.relaxed ∧ (∀ r ∈ t.relaxed, r.agent ≠ x.num)
        ∧ (∃ v w, u.agent? x.num = some v ∧ t.agent? x.num = some w ∧ w.clock = v.clock ∧ w.relFence = v.relFence ∧ x.clock ≤ w.clock ∧ ∀ p ∈ w.paths, ∀ n, p.wait ≠ some (.rdzv k n false))
        ∧ ∃ z, t.gang? x.gang = some z ∧ z.rdzv = match phase with
            | some e => y.rdzv.map fun f => if f = e then (e.1, e.2.1, e.2.2 ++ [x.num]) else f
            | none => y.rdzv ++ [(k, m, [x.num])]))

/-- R336, R338: WAITC goes on where its counter, or all of them and the windows, are down, and else waits until WAITC_COMPLETE; SLEEP waits until
SLEEP_EXPIRE, more than 64 ns for each tick.
The model's own choices in it: log 52 (a completion is acquired at the next WAITC); log 146 (SLEEP ends after the moment). -/
def Obligations.CountersAndSleepEndTheirWaits : Prop :=
  (∀ x : Sys, ∀ s k, Issues s x.ctl {} k → let b := issued s k {}
    let all := x.imm.getLsbD 9
    let c := bitsOf x.imm.toNat 8 6
    let n := bitsOf x.imm.toNat 5 0
    ∀ a, b.agent? k.agent = some a →
      let met := if all then (∀ v ∈ a.d, v = 0) ∧ ∀ p ∈ b.pend, ¬(p.agent = a.num ∧ p.wins ≠ []) else a.d.getD c 0 ≤ n
      (met → Completes (.waitc x) s k (acquireJobs b k.agent)) ∧ (¬met → EndsWith (.waitc x) s k b (.wait (.waitc all c n))))
  ∧ (∀ (s : State) (n p c m : Nat) (a : Agent) (all : Bool), s.agent? n = some a → (s.path? n p).bind (·.wait) = some (.waitc all c m) →
      (waitcMet s a all c m → gangRuns s a.gang → exec (.waitcComplete n p) s = .next (endSlot (acquireJobs s n) n p .nothing))
      ∧ (waitcMet s a all c m = false → exec (.waitcComplete n p) s = .next s))
  ∧ (∀ x : Sys, ∀ s k, Issues s x.ctl {} k → EndsWith (.sleep x) s k (issued s k {}) (.wait (.sleep (s.tick + x.imm.toNat * 64 * 16))))
  ∧ ∀ (s : State) (n p t : Nat) (a : Agent), s.agent? n = some a → (s.path? n p).bind (·.wait) = some (.sleep t) →
      (t < s.tick → gangRuns s a.gang → exec (.sleepExpire n p) s = .next (endSlot (s.updAgent n fun x => { x with lastIssue := s.tick }) n p .nothing))
      ∧ (s.tick ≤ t → exec (.sleepExpire n p) s = .next s)

/-- R340: FORK starts a pilot program of its gang at its target with the issuer's registers, rounding mode and traps, and gives its number; with none
free it gives all ones; in a gang without pilot programs it faults.
R341, R342: LREC reads a word of the launch record; PERMIT.Q gives the free permits of an engine, PERMIT.RSV reserves where nothing is asked before
and enough are free and else waits in order, PERMIT.REL gives up the reservation; PERMIT_GRANT grants the oldest request of an engine.
The model's own choices in it: log 61 (pending requests count, and those issued again); log 129 (the lowest free slot or number); log 54 (NREGS of a pilot program). -/
def Obligations.ForksAndPermits : Prop :=
  (∀ (x : Eng) (s : State) (k : Iss), let nd : Need := { regs := [(x.d.toNat, 1)] }
    Issues s x.ctl nd k → let b := issued s k nd
    (k.lanes = 0 → Completes (.fork x) s k b)
    ∧ ∀ y l a, k.lanes ≠ 0 → b.gang? k.gang = some y → b.launches.find? (fun l => l.id == k.gang.launch) = some l → b.agent? k.agent = some a →
        (l.kernel.pilot = false → EndsWith (.fork x) s k b (.fault 0x04 k.lanes 0))
        ∧ (l.kernel.pilot → freePilot b y.cluster = none → Completes (.fork x) s k (k.later b x.ctl { writes := laneWrites x.d.toNat (fun _ => 0xFFFFFFFF) (lanesOf k.lanes) }))
        ∧ ∀ i, l.kernel.pilot → freePilot b y.cluster = some i → ∃ t p, Completes (.fork x) s k t ∧ Leaves t k x.ctl (laneWrites x.d.toNat (fun _ => BitVec.ofNat 32 i) (lanesOf k.lanes))
            ∧ t.agents.getLast? = some p ∧ p.num = 8192 + 8 * y.cluster + i ∧ p.pilot ∧ p.gang = k.gang ∧ p.idx = i ∧ p.nregs = 64
            ∧ p.paths.map (·.pc) = [brTarget k.pc (x.imm.extractLsb' 3 29) (x.imm.extractLsb' 0 3)] ∧ p.paths.map (·.xmask) = [1]
            ∧ (∀ r < min a.nregs l.kernel.pregs, p.regs.get r 0 = k.src.get r ((lanesOf k.lanes).headD 0)) ∧ p.regs.rnd = k.src.rnd ∧ p.regs.trapen = k.src.trapen)
  ∧ ((∀ x : Eng, Does (.lrec x) x.ctl { regs := [(x.d.toNat, 1)] } fun k b => if k.lanes = 0 then b else
    k.later b x.ctl { writes := laneWrites x.d.toNat (fun _ => BitVec.ofNat 32 (leField (recordOf b k.agent k.gang) x.imm.toNat 4)) (lanesOf k.lanes) })
  ∧ (∀ (x : Eng) (i : Instr) (s : State) (k : Iss), i ∈ [.permitQ x, .permitRsv x, .permitRel x] → let nd : Need := { regs := [(x.d.toNat, 1)] }
    Issues s x.ctl nd k → let b := issued s k nd
    let role := bitsOf x.imm.toNat 3 2
    let n := bitsOf x.imm.toNat 13 8
    let size := ((b.gang? k.gang).map (·.size)).getD 1
    let q := ((b.gang? k.gang).map (·.permitQ)).getD []
    let held := rsvOf b k.gang role k.agent
    let asked := (q.filter fun r => r.1 == k.agent && r.2.1 == role).foldl (fun m r => m + r.2.2) 0
    let gives (t : State) (v : Nat) := k.later t x.ctl { writes := laneWrites x.d.toNat (fun _ => BitVec.ofNat 32 v) (lanesOf k.lanes) }
    (k.lanes = 0 → Completes i s k b) ∧ (k.lanes ≠ 0 → size ≤ role → EndsWith i s k b (.fault 0x04 k.lanes 0))
    ∧ (k.lanes ≠ 0 → role < size →
      (i = .permitQ x → Completes i s k (gives b (b.permitsFree k.gang role)))
      ∧ (i = .permitRel x → Completes i s k (gives (setRsv b k.gang role k.agent 0) held))
      ∧ (i = .permitRsv x → 32 < held + asked + n → EndsWith i s k b (.fault 0x20 k.lanes 0))
      ∧ (i = .permitRsv x → held + asked + n ≤ 32 → (∀ r ∈ q, r.2.1 ≠ role) → n ≤ b.permitsFree k.gang role → Completes i s k (gives (setRsv b k.gang role k.agent (held + n)) n))
      ∧ (i = .permitRsv x → held + asked + n ≤ 32 → ((∃ r ∈ q, r.2.1 = role) ∨ b.permitsFree k.gang role < n) →
          Completes i s k (k.later (b.updGang k.gang fun y => { y with permitQ := y.permitQ ++ [(k.agent, role, n)] }) x.ctl { hold := .permit role n x.d.toNat k.lanes }))))
  ∧ ∀ (s : State) (g : GangKey) (role n m d : Nat) (lanes : Word) (y : Gang) (p : Pend), s.gang? g = some y → y.permitQ.find? (fun r => r.2.1 == role) = some (n, role, m) → s.pend = [p] → p.agent = n
      → p.hold = .permit role m d lanes →
      (gangRuns s g → m ≤ s.permitsFree g role → ∃ t, exec (.permitGrant g role) s = .next t ∧ t.pend = [{ p with hold := .none, writes := laneWrites d (fun _ => BitVec.ofNat 32 m) (lanesOf lanes) }]
        ∧ ∃ z, t.gang? g = some z ∧ z.permitQ = y.permitQ.erase (n, role, m))
      ∧ (s.permitsFree g role < m → exec (.permitGrant g role) s = .next s))

/-- R343, R241: QAPP with a readable payload appends its records where its queue is enabled, has room and its pages can be used, and gives
the tail before it; else it gives the code of R343 and appends nothing. It does not issue while a job that has yet to run reads or writes a
record's place; a payload that cannot be read ends it as a plain load's would, or gives the code of a poisoned one.
The model's own choices in it: log 56 (the helm's own queue state governs); log 24 (an atomic waits for a job as a store does). -/
def Obligations.QueueAppendIsOneStep : Prop :=
  ∀ (x : Eng) (s : State) (k : Iss), let nd : Need := { regs := [(x.d.toNat, 2), (x.a.toNat, 2), (x.b.toNat, 1)], base := 0 }
    Issues s x.ctl nd k → let b := issued s k nd
    let l := (lanesOf k.lanes).headD 0
    let q := (k.src.get x.b.toNat l).toNat
    let a := (k.src.get64 x.a.toNat l).toNat
    let n := x.imm.toNat + 1
    let d := qdesc b q
    let own := q < 4096 ∧ d.ctx = (b.ctxOf k.gang).id
    let paid (bytes : Nat) := charge b k.gang (if k.pilot then 0 else k.role) (copyEnergy bytes)
    let r := readSpan (paid (n * d.recsz)) k a (n * d.recsz)
    (k.lanes = 0 → Completes (.qapp x) s k (paid 0))
    ∧ (k.lanes ≠ 0 → ¬own → EndsWith (.qapp x) s k (paid (if q < 4096 then n * d.recsz else 0)) (.fault 0x04 k.lanes 0))
    ∧ (k.lanes ≠ 0 → own → a % 32 ≠ 0 → EndsWith (.qapp x) s k (paid (n * d.recsz)) (.fault 0x03 k.lanes (BitVec.ofNat 64 a)))
    ∧ (k.lanes ≠ 0 → own → a % 32 = 0 →
        (∀ u f, r = .stop u f → f ≠ .hold → EndsWith (.qapp x) s k u f)
        ∧ (∀ u code va, r = .poison u code va → Completes (.qapp x) s k
            (k.later u x.ctl { writes := pairWrites x.d.toNat (2 ^ 64 - 3) (lanesOf k.lanes), mem := 1, traps := [(code, k.lanes, BitVec.ofNat 64 va)] }))
        ∧ ∀ u bs, r = .bytes u bs →
          let y := u.queue q
          let edge := (List.range n).any fun i => jobEdge u d.ctx (recordAt d (y.tail + i)) d.recsz
          let recs := (List.range n).map fun i => (bs.drop (i * d.recsz)).take d.recsz
          let gives (t : State) (v : Nat) := Completes (.qapp x) s k (k.later t x.ctl { writes := pairWrites x.d.toNat v (lanesOf k.lanes) })
          (y.status ≠ 1 → gives u (2 ^ 64 - 2))
          ∧ (y.status = 1 → y.pending + n ≤ 2 ^ d.logcap → edge → exec (.qapp x) s = .next { unissue s k with cur := none })
          ∧ (y.status = 1 → 2 ^ d.logcap < y.pending + n → gives u (2 ^ 64 - 1))
          ∧ (edge = false → y.status = 1 → y.pending + n ≤ 2 ^ d.logcap → appendRecords u k.agent ((u.ctx? d.ctx).getD { id := d.ctx }) d y.tail recs = none → gives u (2 ^ 64 - 4))
          ∧ ∀ v, edge = false → y.status = 1 → y.pending + n ≤ 2 ^ d.logcap → appendRecords u k.agent ((u.ctx? d.ctx).getD { id := d.ctx }) d y.tail recs = some v →
              gives (v.updQueue q fun z => z.grow (y.tail + n) v.tick (((v.agent? k.agent).map (·.clock)).getD 0)) y.tail)

/-- R317, R318, R344-R346: VARPT faults where its id is no switch point or its register is not live there, and on a wave with several paths; it gives 0
where no switch is asked for and none applies; else the request stands, the gang's pilot programs stop and the wave waits. SWITCH_POINT_REACHED acts once the gang has reached the
point, and the request ends with it; SWITCH_WAIT_TIMEOUT lets waves at different ids, or that have waited 20 µs short of a switch point, go on.
The model's own choices in it: log 60 (VARPT waits before it issues). -/
def Obligations.SwitchPointsAreOffered : Prop :=
  (∀ (x : Sys) (s : State) (k : Iss), let nd : Need := { pilot := false, regs := [(x.d.toNat, 1)] }
    Issues s x.ctl nd k → let b := issued s k nd
    ∀ y a, b.gang? k.gang = some y → b.agent? k.agent = some a → let at_ := (kernelOfGang b y).switches.find? fun w => w.id == x.imm.toNat
      let single := (a.paths.filter fun p => p.st != .free).length ≤ 1 ∧ (b.path? k.agent k.path).bind (·.jpc) = none
      let quiet := (∀ v ∈ a.d, v = 0) ∧ ∀ p ∈ b.pend, ¬(p.agent = k.agent ∧ p.wins ≠ [])
      (at_ = none → EndsWith (.varpt x) s k b (.fault 0x01 k.lanes 0))
      ∧ ∀ w, at_ = some w →
        (w.live ≤ x.d.toNat → EndsWith (.varpt x) s k b (.fault 0x01 k.lanes 0))
        ∧ (x.d.toNat < w.live → ¬single → EndsWith (.varpt x) s k b (.fault 0x04 k.lanes 0))
        ∧ (x.d.toNat < w.live → single → ¬quiet → exec (.varpt x) s = .next { unissue s k with cur := none })
        ∧ (x.d.toNat < w.live → single → quiet → (k.sup ∨ y.request = false ∧ switchAct b y = .none) → Completes (.varpt x) s k (b.mapRegs k.agent fun r => r.setLanes x.d.toNat (fun _ => 0) (lanesOf k.xmask)))
        ∧ (x.d.toNat < w.live → single → quiet → ¬k.sup → (y.request ∨ switchAct b y ≠ .none) → EndsWith (.varpt x) s k (stopPilots (b.updGang k.gang fun z => { z with request := true }) k.gang) (.wait (.varpt x.imm.toNat x.d.toNat b.tick true))))
  ∧ (∀ (s : State) (g : GangKey) (y : Gang) (l : Launch), s.gang? g = some y → s.launches.find? (fun l => l.id == g.launch) = some l →
      (switchPoint s y = none → exec (.switchPointReached g) s = .next s)
      ∧ ∀ id, switchPoint s y = some id → let u := checkpointed (serveSaves s (some g)) y id
          let go := u.updGang g fun y => { y with request := false }
          (switchAct s y = .none → exec (.switchPointReached g) s = .next (releaseVarpt go g))
          ∧ (∀ t, switchAct s y = .preempt → newSave u g 1 (some id) = some t → exec (.switchPointReached g) s = .next t)
          ∧ (switchAct s y = .preempt → newSave u g 1 (some id) = none → exec (.switchPointReached g) s = .next (releaseVarpt (go.updGang g fun y => { y with want := { y.want with preempt := none } }) g))
          ∧ (switchAct s y = .migrate → exec (.switchPointReached g) s = .next (migrate u y l id)))
  ∧ ∀ (s : State) (g : GangKey) (y : Gang) (id t : Nat) (ws : List (Nat × Nat)), s.gang? g = some y → varptWaits s g = (id, t) :: ws → y.st = .resident → y.want.preempt = none →
      (((∃ w ∈ ws, w.1 ≠ id) ∨ switchPoint s y = none ∧ ∃ w ∈ (id, t) :: ws, w.2 + 20000 * 16 ≤ s.tick) → exec (.switchWaitTimeout g) s = .next (releaseVarpt s g))
      ∧ ((∀ w ∈ ws, w.1 = id) → (switchPoint s y ≠ none ∨ ∀ w ∈ (id, t) :: ws, s.tick < w.2 + 20000 * 16) → exec (.switchWaitTimeout g) s = .next s)

/-! ## Reckoned memory, special registers, traps, contexts (R43-R49, R348-R372, R401, R402, R428-R442, R470) -/

/-- R357, R363: FILLC commits one absent line of its own fill, lane l giving bytes 4l to 4l + 3, and where its slice has room
nothing else changes in memory; a line outside its fill, or one committed before, faults; FILLX ends the fill and its wave's lanes leave with the bundle.
R369-R371: RKINV and RKPIN act on each unit of their interval and give the number acted on: after RKINV of a unit that no context has pinned none of its lines is resident;
a pin counts up to 255 and within the quota; an unpin counts down.
The model's own choices in it: log 70 (the moment a node is released); log 71 (FILLX ends the fill at once); log 72 (units of invalid descriptors are skipped); log 128 (which line leaves a full cache). -/
def Obligations.FillsCommitAndUnitsAreInvalidated : Prop :=
  ((∀ (x : Mem) (s : State) (k : Iss), let nd : Need := { pilot := false, regs := [(x.a.toNat, 2), (x.b.toNat, 1)], feature := some 0, fill := true, base := 8, lane := 6 }
    Issues s x.ctl nd k → let b := issued s k nd
    let ea := eaOf (k.src.get64 x.a.toNat ((lanesOf k.lanes).headD 0)) (memOff x)
    let line := ea / 128
    (k.lanes = 0 → Completes (.fillc x) s k b)
    ∧ (k.lanes ≠ 0 → ea % 128 ≠ 0 → EndsWith (.fillc x) s k b (.fault 0x03 k.lanes (BitVec.ofNat 64 ea)))
    ∧ ∀ f, k.lanes ≠ 0 → ea % 128 = 0 → b.agentFill k.agent = some f → let mine := f.base ≤ line ∧ line < f.base + f.nlines ∧ line ∉ f.committed
        (¬mine → EndsWith (.fillc x) s k b (.fault 0x04 k.lanes (BitVec.ofNat 64 ea)))
        ∧ (mine → f.stale → Completes (.fillc x) s k (k.later b x.ctl { opens := false }))
        ∧ (mine → f.stale = false → b.fill? f.id = some f → ∃ t, Completes (.fillc x) s k t ∧ SameRegs b t
          ∧ (b.relaxed = [] → sliceRoom b f.asn line = b →
              StoredOnly b t [(.rk f.asn, 128 * line, (List.range 32).flatMap fun l => leBytes 4 (if k.lanes.getLsbD l then (k.src.get x.b.toNat l).toNat else 0))])
          ∧ t.resident f.asn line ∧ ∃ g, t.fill? f.id = some g ∧ g.committed = f.committed ++ [line]))
  ∧ ∀ (x : Sys) (s : State) (k : Iss), let nd : Need := { pilot := false, feature := some 0, fill := true }
    Issues s x.ctl nd k → let b := issued s k nd
    (k.lanes = 0 → Completes (.fillx x) s k b)
    ∧ ∀ f, k.lanes ≠ 0 → b.agentFill k.agent = some f → (∀ y ∈ b.wavesOf k.gang k.role, y.num = k.agent) → ∃ t, Completes (.fillx x) s k t
        ∧ (f.stale = false → b.asks = [] → b.fill? f.id = some f → t.fill? f.id = none)
        ∧ ∀ bn, b.bundle k.agent k.path = some bn → ∃ m, t.bundle k.agent k.path = some m ∧ m.exits = bn.exits ||| k.xmask)
  ∧ (∀ (x : Mem) (i : Instr) (s : State) (k : Iss), i ∈ [.rkinv x, .rkpinPin x, .rkpinUnpin x] →
    let nd : Need := { regs := [(x.d.toNat, 1), (x.a.toNat, 2), (x.b.toNat, 1)], feature := some 0, base := 8, lane := 6 }
    Issues s x.ctl nd k → let b := issued s k nd
    let l := (lanesOf k.lanes).headD 0
    let c := b.ctxOf k.gang
    let us := unitsIn b c k.sup (eaOf (k.src.get64 x.a.toNat l) (memOff x)) (k.src.get x.b.toNat l).toNat
    let gives (t : State) (n : Nat) : Prop := Completes i s k t ∧ Leaves t k x.ctl (laneWrites x.d.toNat (fun _ => BitVec.ofNat 32 n) (lanesOf k.lanes))
    (k.lanes = 0 → Completes i s k b)
    ∧ (k.lanes ≠ 0 → ∃ t n, gives t n ∧ n ≤ us.length ∧ (i = .rkinv x → n = us.length) ∧ (us = [] → t.pins = b.pins ∧ t.rkLines = b.rkLines))
    ∧ ∀ u, k.lanes ≠ 0 → us = [u] → let n := b.pinOf c.id u
        let lines := unitSpan b c u
        (i = .rkinv x → b.pinned c.asn lines.1 = false → ∃ t, gives t 1 ∧ ∀ j < lines.2, t.resident c.asn (lines.1 + j) = false)
        ∧ (i = .rkpinPin x → (255 ≤ n ∨ n = 0 ∧ c.stgquota < quotaUsed b c + lines.2) → ∃ t, gives t 0 ∧ t.pins = b.pins)
        ∧ (i = .rkpinPin x → n < 255 → (n = 0 → quotaUsed b c + lines.2 ≤ c.stgquota) → ∃ t, gives t 1 ∧ t.pinOf c.id u = n + 1)
        ∧ (i = .rkpinUnpin x → n = 0 → ∃ t, gives t 0 ∧ t.pins = b.pins)
        ∧ (i = .rkpinUnpin x → n ≠ 0 → ∃ t, gives t 1 ∧ t.pinOf c.id u = n - 1))

/-- R43, R44, R46, R47, R49: SRD of a register that the mode may read writes its value to the lanes of L and changes no other register, of its agent,
of another or of a context; of another it faults with PRIVILEGE.
R46, R48: SWR of a register that the mode may write takes the lowest lane of L, drops the bits the register does not have, and changes no other
register, of its agent, of another or of a context; of another it faults with PRIVILEGE.
The model's own choices in it: log 8 (one CLOCK for all cores); log 77 (what ENERGY counts at a read, and a refused instruction charges nothing); log 78 (MEMSTAT of a pilot program); log 54 (NREGS of a pilot program). -/
def Obligations.SpecialRegistersReadAndWrite : Prop :=
  ((∀ (x : Sys) (s : State) (k : Iss), let nd : Need := { regs := [(x.d.toNat, if x.imm.getLsbD 12 then 2 else 1)] }
    Issues s x.ctl nd k → let b := issued s k nd
    let n := bitsOf x.imm.toNat 11 0
    ∀ a, b.agent? k.agent = some a → let c := b.ctxOf k.gang
      let value (l : Nat) : Nat := if n = 0x800 then c.trapvec.toNat else if n = 0x801 then c.trapvec.toNat / 2 ^ 32 else if n = 0x803 then c.nestmax else sregValue b a k n l
      ((sregAccess n).allows false k.sup = false → EndsWith (.srd x) s k b (.fault 0x02 k.lanes 0))
      ∧ ((sregAccess n).allows false k.sup → ∃ t, Completes (.srd x) s k t ∧ SameMemory b t ∧ OnlyDest b t k.agent x.d.toNat (x.imm.getLsbD 12) ∧ OtherContexts b t c.id
          ∧ (t.ctxOf k.gang).trapvec = c.trapvec ∧ (t.ctxOf k.gang).nestmax = c.nestmax ∧ ∀ l < 32, (k.sets x.d.toNat l → t.vreg k.agent x.d.toNat l = BitVec.ofNat 32 (value l))
          ∧ (x.imm.getLsbD 12 → k.sets (x.d.toNat + 1) l → t.vreg k.agent (x.d.toNat + 1) l = BitVec.ofNat 32 (value l / 2 ^ 32))))
  ∧ (∀ n, (sregAccess n).allows false false = !((0x800 ≤ n && n ≤ 0x805 : Bool)))
  ∧ ∀ (s : State) (x : Agent) (k : Iss) (l : Nat), sregValue s x k 0 l = (if x.pilot then 0 else l) ∧ sregValue s x k 1 l = x.idx ∧ sregValue s x k 2 l = (if x.pilot then 0x1FFF else x.num % 8192)
      ∧ sregValue s x k 9 l = x.nregs ∧ sregValue s x k 0xE l = (if x.sup then 1 else 0) ∧ sregValue s x k 0x10 l = s.clk ∧ sregValue s x k 0x12 l = s.tick / 16
      ∧ sregValue s x k 0x100 l = k.src.rnd.toNat ∧ sregValue s x k 0x101 l = k.src.trapen.toNat ∧ sregValue s x k 0x102 l = k.src.arith.toNat ∧ sregValue s x k 0x200 l = k.src.mem.toNat
      ∧ sregValue s x k 0x802 l = (s.ctxOf x.gang).asn)
  ∧ ((∀ (x : Sys) (s : State) (k : Iss), let wide := x.imm.getLsbD 12
    let nd : Need := { regs := [(x.a.toNat, if wide then 2 else 1)] }
    Issues s x.ctl nd k → let b := issued s k nd
    let n := bitsOf x.imm.toNat 11 0
    ((sregAccess n).allows true k.sup = false → EndsWith (.swr x) s k b (.fault 0x02 k.lanes 0))
    ∧ ((sregAccess n).allows true k.sup → k.lanes = 0 → Completes (.swr x) s k b)
    ∧ ∀ l rest, (sregAccess n).allows true k.sup → lanesOf k.lanes = l :: rest → let w := k.src.get x.a.toNat l
        ∃ t, Completes (.swr x) s k t ∧ SameMemory b t ∧ (∀ m, m ≠ k.agent → t.regsOf m = b.regsOf m) ∧ OtherContexts b t (b.ctxOf k.gang).id
          ∧ (∀ r, b.regsOf k.agent = some r → t.regsOf k.agent = some (if n = 0x100 then { r with rnd := w &&& 3 } else if n = 0x101 then { r with trapen := w &&& 31 }
              else if n = 0x102 then { r with arith := w &&& 63 } else if n = 0x200 then { r with mem := w &&& 15 } else r))
          ∧ (∀ y c, b.gang? k.gang = some y → b.ctx? y.ctx = some c → let d := t.ctxOf k.gang
              d.nestmax = (if n = 0x803 then min 4 (max 1 w.toNat) else c.nestmax)
              ∧ d.trapvec = (if n = 0x800 ∧ wide then k.src.get64 x.a.toNat l else if n = 0x800 then c.trapvec.extractLsb' 32 32 ++ w
                  else if n = 0x801 ∧ ¬wide then w ++ c.trapvec.extractLsb' 0 32 else if n = 0x801 then k.src.get64 x.a.toNat l else c.trapvec)))
  ∧ ∀ n, ((sregAccess n).allows true false ↔ n = 0x100 ∨ n = 0x101 ∨ n = 0x102 ∨ n = 0x200) ∧ ((sregAccess n).allows true true ↔ n = 0x100 ∨ n = 0x101 ∨ n = 0x102 ∨ n = 0x200 ∨ n = 0x800 ∨ n = 0x801 ∨ n = 0x803))

/-- R427, R428, R470: TSTAMP gives device time in nanoseconds and stores it; its wake form marks the trail of its tag; TRCM writes a packet of its
wave where the trace is on, and changes no register. -/
def Obligations.StampsAndTraceMarks : Prop :=
  (∀ (x : Mem) (s : State) (k : Iss), let nd := memNeed [(x.d.toNat, 2), (x.a.toNat, 2)]
    Issues s x.ctl nd k → let b := issued s k nd
    let now := s.tick / 16
    let at_ := fun l => checkLanes b k.gang k.sup .write 8 [(l, eaOf (k.src.get64 x.a.toNat l) (memOff x))] (storeRule .b64)
    (k.lanes = 0 → Completes (.tstamp x) s k b)
    ∧ ∀ l rest, lanesOf k.lanes = l :: rest →
        (∀ code info, at_ l = .fault code info → EndsWith (.tstamp x) s k b (.fault code k.lanes (BitVec.ofNat 64 info)))
        ∧ ∀ p, at_ l = .go [p] [] → jobEdge b (b.ctxOf k.gang).id p.va 8 = false → ∃ t, Completes (.tstamp x) s k t
            ∧ Leaves t k x.ctl (laneWrites64 x.d.toNat (fun _ => BitVec.ofNat 64 now) (lanesOf k.lanes))
            ∧ (b.relaxed = [] → ordKind x.ord ≠ 1 → StoredOnly b t [(p.sp, p.addr, leBytes 8 now)]))
  ∧ (∀ (x : Mem) (s : State) (k : Iss), let nd := memNeed [(x.d.toNat, 2), (x.a.toNat, 1)]
    Issues s x.ctl nd k → let b := issued s k nd
    let now := s.tick / 16
    (k.lanes = 0 → Completes (.tstampWake x) s k b)
    ∧ ∀ l rest, lanesOf k.lanes = l :: rest → ∃ t, Completes (.tstampWake x) s k t ∧ SameRegs b t ∧ SameMemory b t
        ∧ Leaves t k x.ctl (laneWrites64 x.d.toNat (fun _ => BitVec.ofNat 64 now) (lanesOf k.lanes))
        ∧ t.trails = b.trails.map fun r => if r.tag = k.src.get x.a.toNat l ∧ ∀ m ∈ r.marks, m.1 ≠ x.c.toNat then { r with marks := r.marks ++ [(x.c.toNat, now)] } else r)
  ∧ ∀ (x : Sys) (s : State) (k : Iss), let nd : Need := { feature := some 8, regs := [(x.a.toNat, 1)] }
    Issues s x.ctl nd k → let b := issued s k nd
    (k.lanes = 0 → Completes (.trcm x) s k b)
    ∧ ∀ l rest a, lanesOf k.lanes = l :: rest → b.agent? k.agent = some a → ∃ t, Completes (.trcm x) s k t ∧ SameRegs b t ∧ SameMemoryBut (InTraceRing b) b t
        ∧ (traced b a = false → t = b)
        ∧ (k.pilot = false → t = trace b k.agent 7 k.path (k.src.get x.a.toNat l) (leBytes 8 (x.imm.toNat % 65536)))

/-- R430, R434, R436-R438: TRAP completes and leaves a trap due on its path; BRK stops its path at the end of its bundle where stops are armed and an entry is
free, else is a TRAP; ERET in its three modes is for supervisor mode and acts at the end of its bundle.
TRAP_ENTRY takes the fault that stands at its path, or the completion trap due on it, once no job that has yet to run holds its frame (R241)
and no row of its wave's is outstanding; it waits for a trap block in reckoned memory.
The model's own choices in it: log 80 (a BRK holds at the end of its bundle). -/
def Obligations.TrapInstructionsLeaveTheirTrap : Prop :=
  (∀ x : Sys, Does (.trap x) x.ctl {} fun k b => if k.lanes = 0 then b else
    b.updPath k.agent k.path fun q => { q with due := q.due ++ [{ code := 0x60, kind := 2, mask := k.lanes, info := BitVec.ofNat 64 (x.imm.toNat % 65536), pc := k.pc, sup := k.sup, clk := b.clk }] })
  ∧ (∀ x : Sys, Does (.brk x) x.ctl {} fun k b =>
      let f : FaultRec := { code := 0x61, kind := 2, mask := k.lanes, info := BitVec.ofNat 64 (x.imm.toNat % 65536), pc := k.pc, sup := k.sup }
      if k.lanes = 0 then b
      else if stopsArmed b (b.ctxOf k.gang).id ∧ b.stops.length < 64 then b.updPath k.agent k.path fun q => { q with bun := q.bun.map fun n => { n with brk := some f } }
      else b.updPath k.agent k.path fun q => { q with due := q.due ++ [{ f with clk := b.clk }] })
  ∧ (∀ x : Sys, ∀ m ∈ [((.eret x : Instr), 0), (.eretSkip x, 1), (.eretPc x, 2)], Does m.1 x.ctl { pilot := false, sup := true } fun k b =>
      b.updPath k.agent k.path fun q => { q with bun := q.bun.map fun n => { n with eret := some m.2 } })
  ∧ ∀ (s : State) (n p : Nat) (x : Agent) (q : Path), s.agent? n = some x → s.path? n p = some q →
      ((mayIssue s x p q = false ∨ standing x q = none ∨ trapReckon s x p = none ∧ trapWaits s n) → exec (.trapEntry n p) s = .next s)
      ∧ (∀ t, mayIssue s x p q → standing x q ≠ none → trapReckon s x p = some t → exec (.trapEntry n p) s = .next t ∧ SameRegs s t ∧ ∃ z, t.path? n p = some z ∧ z.st = .parked)
      ∧ (mayIssue s x p q → trapReckon s x p = none → trapWaits s n = false →
        (∀ b r rest f, q.dueNow x = none → q.bun = some b → b.rest = [] → b.redo = r :: rest → r.flt = some f → exec (.trapEntry n p) s = .next (takeTrap s n p f r.pc))
        ∧ ∀ f, q.dueNow x = some f → q.st = .eligible → q.trapHeld = false → q.wait = none →
          exec (.trapEntry n p) s = .next (takeTrap (s.updPath n p fun y => { y with due := y.due.erase f }) n p f ((q.bun.map fun b => b.rest.headD b.next).getD q.pc)))

/-- R431-R434, R439: a trap taken in user mode enters the handler of TRAPVEC: the frame is in memory at the wave's place, v0 to v3 of the path's lanes hold its
address, code and lanes, TRAPEN is 0, supervisor mode is on, the path goes on at the handler's PC without a join PC, its siblings are held, and
every other register is as before. With no handler, in supervisor mode, and in a pilot program, the wave ends with the code.
The model's own choices in it: log 139 (an absent reckoned trap block); log 142 (which due traps are taken, and when). -/
def Obligations.TrapEntrySavesAndEntersTheHandler : Prop :=
  ∀ (s : State) (n p : Nat) (x : Agent) (q : Path) (f : FaultRec) (rpc : Dword), s.agent? n = some x → s.path? n p = some q →
    let r := readTrapvec s x
    ((x.pilot ∨ x.sup) → takeTrap s n p f rpc = endAgent s n f.code)
    ∧ (¬x.pilot → ¬x.sup → r.1 = 0 → takeTrap s n p f rpc = endAgent r.2 n f.code)
    ∧ ∀ hpc u frames v w, ¬x.pilot → ¬x.sup → r.1 ≠ 0 → supLoad r.2 x r.1.toNat = some (hpc, u) → supLoad u x (r.1.toNat + 8) = some (frames, v) →
        let frame := (frames + 1024 * x.num) % 2 ^ 64
        supStores v x frame (frameBytes x p q f rpc) = some w → let t := takeTrap s n p f rpc
        SameMemory w t ∧ ∃ y z, t.agent? n = some y ∧ y.paths[p]? = some z ∧ y.sup ∧ y.inTrap = some (p, f) ∧ y.frame = BitVec.ofNat 64 frame
          ∧ z.pc = BitVec.ofNat 64 hpc ∧ z.jpc = none ∧ z.st = .eligible ∧ z.xmask = q.xmask
          ∧ (∀ i z', i ≠ p → y.paths[i]? = some z' → z'.st ≠ .free → z'.trapHeld)
          ∧ y.regs.trapen = 0 ∧ y.regs.p = x.regs.p ∧ y.regs.rnd = x.regs.rnd ∧ y.regs.arith = x.regs.arith ∧ y.regs.mem = x.regs.mem
          ∧ (∀ l < 32, q.xmask.getLsbD l → y.regs.get 0 l = BitVec.ofNat 32 frame ∧ y.regs.get 1 l = BitVec.ofNat 32 (frame / 2 ^ 32)
              ∧ y.regs.get 2 l = BitVec.ofNat 32 (f.code + 256 * f.kind + 65536 * p) ∧ y.regs.get 3 l = f.mask)
          ∧ ∀ reg l, l < 32 → (4 ≤ reg ∨ q.xmask.getLsbD l = false) → y.regs.get reg l = x.regs.get reg l

/-- R433, R438: a return whose frame can be read and names the path's lanes restores v0 to v3 and the predicates of those lanes and TRAPEN from it, leaves
supervisor mode and releases the siblings; ERET.PC and a return from a completion trap go on at the frame's return PC, a completion trap taken
inside a bundle in that bundle; a return from a fault issues the faulting instruction again, alone, with its bundle's sources, or goes past
it; a frame with other lanes, or an
ERET.PC to no slot, ends the wave.
The model's own choices in it: log 139 (an absent reckoned trap block); log 142 (which due traps are taken, and when). -/
def Obligations.TrapReturnRestoresTheFrame : Prop :=
  ∀ (s : State) (n p mode : Nat) (x : Agent) (q : Path) (b : List Byte) (u : State), s.agent? n = some x → s.path? n p = some q → readFrame s x = some (b, u) →
    let t := trapReturn s n p mode
    (leField b 32 4 ≠ q.xmask.toNat → t = endAgent u n 0x04)
    ∧ (leField b 32 4 = q.xmask.toNat → mode = 2 → leField b 16 8 % 64 ∉ [0, 12, 24, 36, 48] → t = endAgent u n 0x03)
    ∧ (leField b 32 4 = q.xmask.toNat → (mode = 2 → leField b 16 8 % 64 ∈ [0, 12, 24, 36, 48]) → SameMemory u t ∧ ∃ y z, t.agent? n = some y ∧ y.paths[p]? = some z ∧ y.sup = false ∧ y.inTrap = none
        ∧ y.regs.trapen = BitVec.ofNat 32 (leField b 36 4 % 32) ∧ z.xmask = q.xmask ∧ (∀ i z', i ≠ p → y.paths[i]? = some z' → z'.trapHeld = false)
        ∧ z.jpc = (if leField b 40 8 = 2 ^ 64 - 1 then none else some (BitVec.ofNat 64 (leField b 40 8)))
        ∧ ((mode = 2 ∨ q.saved = none ∨ leField b 1 1 ≠ 0 ∧ ∀ bn, q.saved = some bn → bn.rest.head? ≠ some (BitVec.ofNat 64 (leField b 16 8))) →
            z.pc = BitVec.ofNat 64 (leField b 16 8) ∧ z.bun = none)
        ∧ (∀ bn, mode ≠ 2 → q.saved = some bn →
          (leField b 1 1 ≠ 0 → bn.rest.head? = some (BitVec.ofNat 64 (leField b 16 8)) → z.pc = bn.first ∧ z.bun = some bn)
          ∧ (leField b 1 1 = 0 → mode = 0 → bn.started = false → z.pc = bn.first ∧ z.bun = none)
          ∧ (leField b 1 1 = 0 → mode = 0 → bn.started → z.pc = bn.first ∧ ∃ c, z.bun = some c ∧ c.src = bn.src ∧ c.lanes = bn.lanes ∧ c.rest = bn.rest
              ∧ c.redo.map (fun r => (r.pc, r.lanes)) = bn.redo.map (fun r => (r.pc, r.lanes)) ∧ ∀ r ∈ c.redo.head?, r.flt = none)
          ∧ (leField b 1 1 = 0 → mode = 1 → z.pc = bn.first ∧ z.bun = some { bn with redo := bn.redo.drop 1, now := none }))
        ∧ (∀ l < 32, q.xmask.getLsbD l → mget 0 y.regs.p l = BitVec.ofNat 16 (leField b (640 + 2 * l) 2) ∧ ∀ r < 4, y.regs.get r l = BitVec.ofNat 32 (leField b (128 + 128 * r + 4 * l) 4))
        ∧ ∀ reg l, l < 32 → (4 ≤ reg ∨ q.xmask.getLsbD l = false) → y.regs.get reg l = x.regs.get reg l)

/-- R401, R402: TLBI of a range, an address space or everything is for supervisor mode: it acts as a release, no translation that it names remains, every store
that waits is performed, and it waits for the jobs that have locked such a page; it does not issue while an engine has an access to make under such a translation.
The model's own choices in it: log 138 (when a TLBI issues and when the host sees its own complete). -/
def Obligations.TlbInvalidationsDropTranslations : Prop :=
  (∀ (s : State) (k : Iss) (i : Inv), oldUsers s i ≠ [] → tlbi k s i = (s, .hold))
  ∧ (∀ (s : State) (k : Iss) (i : Inv), oldUsers s i = [] → (tlbi k s i).1.relaxed = [] ∧ ∀ t ∈ (tlbi k s i).1.tlb, i.covers t.asn (t.page * 2 ^ t.leaf.logSize) (2 ^ t.leaf.logSize) = false)
  ∧ (∀ (s : State) (k : Iss) (i : Inv), oldUsers s i = [] → let u := fenceRelease s k.agent 3 4
      ∀ t ∈ u.tlb, i.covers t.asn (t.page * 2 ^ t.leaf.logSize) (2 ^ t.leaf.logSize) = false → t ∈ (tlbi k s i).1.tlb)
  ∧ ∀ (x : Sys) (s : State) (k : Iss) (i : Instr) (rs : List (Nat × Nat)), (i, rs) ∈ [(.tlbiVa x, [(x.a.toNat, 2), (x.b.toNat, 1), (x.c.toNat, 1)]), (.tlbiAsn x, [(x.c.toNat, 1)]), (.tlbiAll x, [])] →
      let nd : Need := { pilot := false, sup := true, regs := rs }
      Issues s x.ctl nd k → let b := issued s k nd
      (k.lanes = 0 → Completes i s k b)
      ∧ ∀ l rest, lanesOf k.lanes = l :: rest → let va := (k.src.get64 x.a.toNat l).toNat
          let len := (k.src.get x.b.toNat l).toNat
          let asn := (k.src.get x.c.toNat l).toNat % 4096
          let what : Inv := if i = .tlbiVa x then .range asn va len else if i = .tlbiAsn x then .asn asn else .all
          let t := drainWhere (dropXlates (fenceRelease b k.agent 3 4) what) fun _ => true
          (i = .tlbiVa x → 2 ^ 57 < va + len ∨ 2 ^ 57 ≤ va → EndsWith i s k b (.fault 0x11 k.lanes (BitVec.ofNat 64 va)))
          ∧ ((i = .tlbiVa x → va + len ≤ 2 ^ 57 ∧ va < 2 ^ 57) → oldUsers b what ≠ [] → exec i s = .next { unissue s k with cur := none })
          ∧ ((i = .tlbiVa x → va + len ≤ 2 ^ 57 ∧ va < 2 ^ 57) → oldUsers b what = [] → lockHolders t what = [] → Completes i s k t)
          ∧ ((i = .tlbiVa x → va + len ≤ 2 ^ 57 ∧ va < 2 ^ 57) → oldUsers b what = [] → lockHolders t what ≠ [] → EndsWith i s k t (.wait (.locks (lockHolders t what))))

/-- R442, R487: CTXSV suspends its gang in the context store, after the saves that wait, and stores the slot's number, or gives 1 where no slots are free; CTXLD makes the gang of a slot of its
context eligible again and gives 0, or gives 1.
The model's own choices in it: log 81 (when CTXSV issues and which slots CTXLD takes); log 65 (the sizes of saves). -/
def Obligations.GangsAreSuspendedAndResumed : Prop :=
  (∀ (x : Sys) (s : State) (k : Iss), let nd : Need := { pilot := false, sup := true, regs := [(x.d.toNat, 1), (x.a.toNat, 2)] }
    Issues s x.ctl nd k → let b := issued s k nd
    (k.lanes = 0 → Completes (.ctxsv x) s k b)
    ∧ ∀ l rest a, lanesOf k.lanes = l :: rest → b.agent? k.agent = some a → let at_ := checkLanes b k.gang k.sup .write 8 [(l, (k.src.get64 x.a.toNat l).toNat)] (storeRule .b64)
        (∀ code info, at_ = .fault code info → EndsWith (.ctxsv x) s k b (.fault code k.lanes (BitVec.ofNat 64 info)))
        ∧ ∀ p, at_ = .go [p] [] → let u := fenceRelease b k.agent 3 4
            let w := u.updPath k.agent k.path fun q => { q with wait := some (.suspended x.d.toNat (maskOf ((lanesOf k.lanes).filter fun l => !k.kept.contains (32 * x.d.toNat + l)))) }
            ((¬enginesIdle b k.gang ∨ jobEdge b (b.ctxOf k.gang).id p.va 8) → exec (.ctxsv x) s = .next { unissue s k with cur := none })
            ∧ (enginesIdle b k.gang → jobEdge b (b.ctxOf k.gang).id p.va 8 = false → newSave w k.gang 3 none = none → Completes (.ctxsv x) s k (k.write u x.d.toNat fun _ => 1))
            ∧ ∀ v, enginesIdle b k.gang → jobEdge b (b.ctxOf k.gang).id p.va 8 = false → newSave w k.gang 3 none = some v → ∃ t y r, EndsWith (.ctxsv x) s k t .gone
                ∧ t.gang? k.gang = some y ∧ y.st = .suspended ∧ y.slots = some r ∧ r.state = 3 ∧ r.gang = k.gang)
  ∧ ∀ (x : Sys) (s : State) (k : Iss), let nd : Need := { pilot := false, sup := true, regs := [(x.d.toNat, 1), (x.b.toNat, 1)] }
    Issues s x.ctl nd k → let b := issued s k nd
    (k.lanes = 0 → Completes (.ctxld x) s k b)
    ∧ ∀ l rest, lanesOf k.lanes = l :: rest → let u := fenceRelease b k.agent 3 4
        let run := u.slotRuns.find? fun r => r.first == (k.src.get x.b.toNat l).toNat && r.state == 3 && r.ctx == (u.ctxOf k.gang).id
        (run = none → Completes (.ctxld x) s k (k.write u x.d.toNat fun _ => 1))
        ∧ ∀ r, run = some r → ∃ t, Completes (.ctxld x) s k t ∧ (∀ m < 32, k.sets x.d.toNat m → (b.regsOf k.agent).isSome → t.vreg k.agent x.d.toNat m = 0)
            ∧ ∀ y, u.gang? r.gang = some y → ∃ z, t.gang? r.gang = some z ∧ z.st = .saved ∧ z.slots = some { r with state := 2 }

/-! ## Happenings of the machine and its host -/

/-- R69: a reader of a result that is not visible yet receives in each lane the value from before or the result, the same of the two in all
registers of the result; so does a lane that was overwritten when the result comes.
R40, R57, R67, R120, R121, R326, R329: a result becomes visible in its lanes, its flags join ARITHSTAT and MEMSTAT, its traps fall due as TRAPEN enabled
them at its issue, and its counter drops; a fetch line with
good parity, as read or as refetched, is cached with its form checked; a path that was ready for 32 clocks becomes overdue; a request changes no state.
R354, R365, R391, R393, R402: paths that wait for a translation or a reckoning resource go on at their happenings, and only then; a unit that may be evicted
leaves the stacked cache alone; a back-invalidate drops the copies of its line; the host's TLBI drops what it names,
and is complete once the engine accesses and page locks that it found are over.
The model's own choices in it: log 12 (which of the two values a breach of a window leaves is free); log 97 (replies need no buffer); log 138 (when a TLBI issues and when the host sees its own complete); log 142 (which due traps are taken, and when). -/
def Obligations.ResultsLinesAndMemoryWaits : Prop :=
  ((∀ (s : State) (p : Pend) (x : Agent), s.pend.find? (fun q => q.id == p.id && q.agent == p.agent) = some p → s.agent? p.agent = some x → p.hold = .none → p.behind ≤ s.tick → x.ending = false →
    ∃ t y, exec (.resultVisible p.agent p.id) s = .next t ∧ SameMemory s t ∧ t.agent? p.agent = some y ∧ y.d = bumpCounter x.d p.cnt false
      ∧ t.pend = (overwrite { s with pend := s.pend.filter fun q => q.id != p.id } p.agent p.id ((shownWrites s p).map (·.1))).pend
      ∧ y.regs = { x.regs.setKeys (shownWrites s p) with arith := x.regs.arith ||| p.arith, mem := x.regs.mem ||| p.mem }
      ∧ (∀ q, s.path? p.agent p.path = some q → ∃ z, t.path? p.agent p.path = some z ∧ z.due = q.due ++ (shownTraps x p).map fun f => { f with clk := s.clk }) ∧ ∀ n, n ≠ p.agent → t.agent? n = s.agent? n)
  ∧ (∀ (s : State) (p : Pend), (∀ w ∈ shownWrites s p, w ∈ p.writes) ∧ (∀ w ∈ p.writes, w.1 ∉ p.covered → w ∈ shownWrites s p)
      ∧ ∀ v ∈ p.writes, ∀ w ∈ p.writes, v.1 ∈ p.covered → w.1 ∈ p.covered → v.1 % 32 = w.1 % 32 → (v ∈ shownWrites s p ↔ w ∈ shownWrites s p))
  ∧ (∀ (x : Agent) (p : Pend), ∀ f ∈ shownTraps x p, f.kind = 1 ∧ f.pc = p.pc ∧ f.sup = p.sup ∧ trapEnabled p.trapen f.code)
  ∧ (∀ (s : State) (n since reg lane : Nat) (src : Regs), lane < 32 → let r := readable s n since src
      (r.get reg lane = src.get reg lane ∨ ∃ q ∈ inFlight s n since, (32 * reg + lane, r.get reg lane) ∈ q.writes)
      ∧ ∀ q, inFlight s n since = [q] → (∀ k, r.get k lane = src.get k lane) ∨ ∀ k, r.get k lane = (src.setKeys q.writes).get k lane)
  ∧ (∀ (s : State) (core ctx va : Nat) (e1 e2 : BitVec 512) (c : Ctx) (sp : Sp) (a : Nat) (l : Leaf), s.ctx? ctx = some c → va < 2 ^ 57 → va % 64 = 0 → tr s c true .fetch va = .ok sp a l →
      let good := [lineOfBytes (s.readHome sp a 64) ^^^ e1, lineOfBytes (s.readHome sp a 64) ^^^ e2].find? parityOk
      (∀ d, good = some d → ∃ t f, exec (.fetchLineFill core ctx (BitVec.ofNat 64 va) e1 e2) s = .next t ∧ t.fetchLine? core c.asn va = some f ∧ f.data = d ∧ f.ok = formOk d ∧ f.sup = l.sup
        ∧ SameRegs s t ∧ SameMemory s t)
      ∧ (good = none → ∀ x i q rest, wantsLine s core ctx va = (x, i, q) :: rest →
          exec (.fetchLineFill core ctx (BitVec.ofNat 64 va) e1 e2) s = .next { s with agenda := .event (.hwError core true [x.gang]) :: s.agenda }))
  ∧ (∀ (s : State) (n p : Nat) (x : Agent) (q : Path), s.agent? n = some x → s.path? n p = some q → mayRun s x q → q.overdue = false →
      (32 ≤ q.ready → exec (.pathOverdue n p) s = .next (s.updPath n p fun q => { q with overdue := true }))
      ∧ (q.ready < 32 → exec (.pathOverdue n p) s = .next s))
  ∧ ∀ (s : State) (id : Nat), exec (.requestInject id) s = .next s)
  ∧ ((∀ (s : State) (line : Nat), ∃ t, exec (.walkerMonitorWake line) s = .next t
      ∧ ∀ n p q m lines since, s.path? n p = some q → q.park = some (.xlate m lines true since) → (∃ e ∈ lines, e.1 = line) → q.st = .parked → ∃ z, t.path? n p = some z ∧ z.park = none ∧ z.st = .eligible)
  ∧ (∀ (s : State) (n p since : Nat) (x : Agent) (m : Miss) (lines : List (Nat × Bool)) (w : Bool), s.agent? n = some x → (s.path? n p).bind (·.park) = some (.xlate m lines w since) →
      (((∀ e ∈ lines, e.2) ∨ s.tick < since + 10000 * 16) → exec (.xlateRewalk n p) s = .next s)
      ∧ ((∃ e ∈ lines, e.2 = false) → since + 10000 * 16 ≤ s.tick → (∀ pte level, translate s (s.ctxOf x.gang) m.va.toNat ≠ .invalid pte level) → exec (.xlateRewalk n p) s = .next (wakePath s n p))
      ∧ ∀ pte level, (∃ e ∈ lines, e.2 = false) → since + 10000 * 16 ≤ s.tick → translate s (s.ctxOf x.gang) m.va.toNat = .invalid pte level →
          exec (.xlateRewalk n p) s = .next (s.updPath n p fun q => { q with park := some (.xlate { m with pte := pte, level := level } (rearm lines m.pte pte) w s.tick) }))
  ∧ (∀ (s : State) (n p since : Nat), (s.path? n p).bind (·.park) = some (.resource since) → exec (.reckonResourceRetry n p) s = .next (wakePath s n p))
  ∧ (∀ (s : State) (f : Fill) (n : Node), s.fill? f.id = some f → f.nodes.find? (fun m => m.id == n.id) = some n →
      (f.stale = false → (∀ l ∈ n.lines, l ∈ f.committed) →
        exec (.waitNodeRelease f.id n.id) s = .next (releaseNode (s.updFill f.id fun f => { f with nodes := f.nodes.filter fun m => m.id != n.id }) f.asn n []))
      ∧ ((f.stale ∨ ∃ l ∈ n.lines, l ∉ f.committed) → exec (.waitNodeRelease f.id n.id) s = .next s))
  ∧ (∀ (s : State) (ctx idx unit : Nat) (c : Ctx), s.ctx? ctx = some c → let d := rkDesc s c idx
      let span := unitSpan s c (idx, unit)
      d.ok → unit < d.rlen / 128 / span.2 → evictable s c (idx, unit) → ∃ t, exec (.unitEvict ctx idx unit) s = .next t
        ∧ (∀ j < span.2, t.resident c.asn (span.1 + j) = false) ∧ (∀ asn line, ¬(asn = c.asn ∧ span.1 ≤ line ∧ line < span.1 + span.2) → t.resident asn line = s.resident asn line) ∧ SameRegs s t)
  ∧ (∀ (s : State) (w line : Nat), exec (.backInvalidate w line) s = .next { s with copies := s.copies.filter fun k => !(k.sp == .pool w && k.line == line) })
  ∧ ∀ (s : State) (asn : Nat) (va len : BitVec 64) (i : Instr) (what : Inv), (i, what) ∈ [(.hostTlbiVa asn va len, .range asn va.toNat len.toNat), (.hostTlbiAsn asn, .asn asn), (.hostTlbiAll, .all)] →
      ∃ u, exec i s = .next u ∧ SameRegs s u ∧ u.relaxed = [] ∧ ((oldUsers s what ≠ [] ∨ lockHolders s what ≠ []) → ({ users := oldUsers s what, locks := lockHolders s what } : HostTlbi) ∈ u.hostTlbis) ∧ ∀ t ∈ u.tlb, what.covers t.asn (t.page * 2 ^ t.leaf.logSize) (2 ^ t.leaf.logSize) = false)

/-- R307, R308: a tail doorbell of an enabled queue grows it, one that goes back or past the ring marks it; enabling checks the descriptor and latches the kernel;
disabling drains while launches run.
R29, R309-R311, R314-R316, R320, R321, R330, R355, R364, R487: records are taken from the queue that goes first, in batches; staging ends when its lines are resident or
after 20 µs; the first candidate that fits is placed; gangs retire together once their blocks are over; a pre-emption's save is due after 20 µs; waiting saves,
fills and migrated gangs go on, a migrated one after what was sent to its old cores has arrived (R31).
The model's own choices in it: log 57 (the order of an enable's codes); log 56 (the helm's own queue state governs); log 62 (ties among candidates); log 66 (when staging begins); log 76 (since when a gang is held); log 130 (formations under an invalid table); log 129 (the lowest free slot or number). -/
def Obligations.QueuesAndGangsAdvance : Prop :=
  ((∀ (s : State) (q : Nat) (v : BitVec 64), let b := barWrite s
    let x := b.queue q
    (4096 ≤ q ∨ x.status ≠ 1 → exec (.tailDoorbell q v) s = .next b)
    ∧ (q < 4096 → x.status = 1 → (v.toNat < x.tail ∨ 2 ^ (qdesc b q).logcap < v.toNat - x.head) → exec (.tailDoorbell q v) s = .next (b.updQueue q fun x => { x with ovr := true }))
    ∧ (q < 4096 → x.status = 1 → x.tail < v.toNat → v.toNat - x.head ≤ 2 ^ (qdesc b q).logcap → exec (.tailDoorbell q v) s = .next (b.updQueue q fun x => x.grow v.toNat b.tick (freshClock b))))
  ∧ (∀ (s : State) (q : Nat), let b := barWrite s
      (4096 ≤ q ∨ (b.queue q).status = 1 ∨ (b.queue q).status = 2 → exec (.queueEnable q) s = .next b)
      ∧ (q < 4096 → (b.queue q).status ≠ 1 → (b.queue q).status ≠ 2 → exec (.queueEnable q) s = .next (b.updQueue q fun _ =>
          { q := q, ctx := (qdesc b q).ctx, kernel := (enableCode b q).2, status := (enableCode b q).1, late := leNat (b.readHome .loc (b.regs.qtable + 64 * q + 48) 8) })))
  ∧ (∀ (s : State) (q : Nat), (qdesc s q).ok = false → (enableCode s q).1 = 3)
  ∧ (∀ (s : State) (q : Nat) (k : Kernel), (enableCode s q) = (1, k) → (qdesc s q).ok ∧ k.reckoner = false ∧ ∃ c, s.ctx? (qdesc s q).ctx = some c ∧ c.cstate = 1 ∧ kernelAt s c (qdesc s q).khdr = some k)
  ∧ ∀ (s : State) (q : Nat), let b := barWrite s
      (4096 ≤ q ∨ (b.queue q).status ≠ 1 → exec (.queueDisable q) s = .next b)
      ∧ (q < 4096 → (b.queue q).status = 1 → exec (.queueDisable q) s = .next (b.updQueue q fun x => { x with status := if b.launches.any (fun l => l.queue == q) then 2 else 0 })))
  ∧ ((∀ (s : State), s.queues.filter s.eligibleQ = [] → exec .takeRecord s = .next s)
  ∧ (∀ (s : State) (x : Queue), x ∈ s.queues → s.eligibleQ x →
      let due (z : Queue) : Prop := s.overdue z
      let d (z : Queue) := qdesc s z.q
      let first (y : Queue) : Prop := (due x ∧ ¬due y) ∨ (due x ∧ due y ∧ y.age s.tick < x.age s.tick)
        ∨ ((due x ↔ due y) ∧ (due x → x.age s.tick = y.age s.tick) ∧ ((d y).prio < (d x).prio
          ∨ (d x).prio = (d y).prio ∧ (y.pending * (d x).batch < x.pending * (d y).batch ∨ x.pending * (d y).batch = y.pending * (d x).batch ∧ x.q < y.q)))
      (∀ y ∈ s.queues, s.eligibleQ y → y = x ∨ first y) →
      exec .takeRecord s = .next ((List.range (min (min x.pending (qdesc s x.q).batch) (1024 - s.launches.length))).foldl (fun s _ => takeOne s x.q) s))
  ∧ (∀ (s : State) (l : Launch), s.launches.find? (fun m => m.id == l.id) = some l → l.stgStart ≠ none → (∀ p ∈ l.stgLines, ∀ asn, p.1 = .rk asn → s.resident asn p.2) →
      exec (.stagingDone l.id) s = .next (s.updLaunch l.id fun l => { l with staged := true }))
  ∧ (∀ (s : State) (l : Launch) (t : Nat), s.launches.find? (fun m => m.id == l.id) = some l → l.stgStart = some t →
      (t + 20000 * 16 ≤ s.tick → exec (.stagingTimeout l.id) s = .next (s.updLaunch l.id fun l => { l with staged := true })) ∧ (s.tick < t + 20000 * 16 → exec (.stagingTimeout l.id) s = .next s))
  ∧ (∀ (s : State) (c : Cand) (p : List (Nat × Pick)), (candidates s).findSome? (fun c => (feasible s c).map fun p => (c, p)) = some (c, p) → exec .placeGang s = .next (placeCand s c p))
  ∧ (∀ (s : State), (∀ c ∈ candidates s, feasible s c = none) → exec .placeGang s = .next (raiseRequests (decidePreempt s)))
  ∧ (∀ (s : State) (y : Gang), s.gang? y.key = some y → y.st = .waiting ∨ (∃ z ∈ partners s y, blocksOver s z.key = false ∨ z.st = .waiting ∨ matrixBusy s z.key) → exec (.gangRetire y.key) s = .next s)
  ∧ (∀ (s : State) (y : Gang), s.gang? y.key = some y → y.st ≠ .waiting → (∀ z ∈ partners s y, blocksOver s z.key ∧ z.st ≠ .waiting ∧ matrixBusy s z.key = false) → ∃ t, exec (.gangRetire y.key) s = .next t
      ∧ ((∀ z ∈ partners s y, z.reexec = none) → ∀ z ∈ partners s y, ∀ g ∈ t.gangs, g.key ≠ z.key)
      ∧ (y.fw * y.fh ≤ 1 → y.reexec = none → t = checkLaunch (retireGang s y) y.key.launch ∧ ∀ z ∈ (retireGang s y).gangs, z.key ≠ y.key))
  ∧ (∀ (s : State) (y : Gang) (t : Nat), s.gang? y.key = some y → y.want.preempt = some t →
      (s.tick < t + 20000 * 16 → exec (.fullSaveTimeout y.key) s = .next s)
      ∧ (t + 20000 * 16 ≤ s.tick → y.st = .resident → enginesIdle s y.key → blocksOver s y.key = false → ∀ u, newSave s y.key 2 none = some u → exec (.fullSaveTimeout y.key) s = .next u)
      ∧ (t + 20000 * 16 ≤ s.tick → y.st = .resident → enginesIdle s y.key → blocksOver s y.key = false → newSave s y.key 2 none = none →
          exec (.fullSaveTimeout y.key) s = .next (s.updGang y.key fun y => { y with want := { y.want with preempt := none } })))
  ∧ (∀ (s : State), exec .saveSlotsFree s = .next (serveSaves s none))
  ∧ (∀ (s : State) (y : Gang), s.gang? y.key = some y → (y.migrating = false → exec (.migrationResume y.key) s = .next s)
      ∧ (y.migrating → ∃ t z, exec (.migrationResume y.key) s = .next t ∧ t.gang? y.key = some z ∧ z = { y with migrating := false, fwd := [] }
        ∧ (∀ r ∈ t.relaxed, ∀ f ∈ y.fwd, r.sp ≠ .scr y.key f.1) ∧ (s.relaxed = [] → SameMemory s t)))
  ∧ (∀ (s : State), let u := retryAsks s
      (∀ f k, nextFill u = some (f, k) → exec .fillLaunch s = .next (launchFill u f k)) ∧ (nextFill u = none → exec .fillLaunch s = .next u) ∧ (s.asks = [] → u = s))
  ∧ ∀ (s : State) (y : Gang) (t : Nat), s.gangs = [y] → heldSince s y = some t → enginesIdle s y.key → someFitsNowhere s (fun _ => true) →
      (t + 50000 * 16 ≤ s.tick → exec .reckonHeldSave s = .next ((newSave s y.key 4 none).getD s)) ∧ (s.tick < t + 50000 * 16 → exec .reckonHeldSave s = .next s))

/-- R395-R398, R404, R406-R408, R420, R448: contexts are created live or with the code that refuses them, destroyed step by step, and gone once nothing of them is left; features are
accepted once, and only the offered ones; fixed-clock mode is entered and left; power, firmware, plain registers and RESYNC.
The model's own choices in it: log 83 (reserved descriptor bytes and the first indices); log 84 (what a destroy counts); log 111 (the one chance to accept features); log 112 (entering a mode already entered); log 113 (when the count starts again); log 3 (what a reset keeps). -/
def Obligations.HostControlsContextsAndFeatures : Prop :=
  (∀ (s : State) (n : Nat), let b := barWrite s
    let desc := b.readHome .loc (ctxDescAt b n) 128
    (256 ≤ n ∨ (∃ c, b.ctx? n = some c ∧ (c.cstate = 1 ∨ c.cstate = 2)) → exec (.ctxCreate n) s = .next b)
    ∧ (n < 256 → (∀ c, b.ctx? n = some c → c.cstate ≠ 1 ∧ c.cstate ≠ 2) → createCode b n desc ≠ 1 →
        exec (.ctxCreate n) s = .next (writeCstate (b.setCtx { id := n, cstate := createCode b n desc }) n (createCode b n desc)))
    ∧ (n < 256 → (∀ c, b.ctx? n = some c → c.cstate ≠ 1 ∧ c.cstate ≠ 2) → createCode b n desc = 1 → ∃ t c, exec (.ctxCreate n) s = .next t ∧ t.ctx? n = some c ∧ c.cstate = 1 ∧ c.asn = leField desc 8 2
        ∧ c.root = leField desc 0 8 ∧ c.trapvec = BitVec.ofNat 64 (leField desc 16 8) ∧ c.nestmax = (if leField desc 10 1 = 0 then 2 else leField desc 10 1) ∧ t.regs.ctxEver))
  ∧ (∀ (s : State) (n : Nat), (∀ c, (barWrite s).ctx? n = some c → c.cstate ≠ 1) → exec (.ctxDestroy n) s = .next (barWrite s))
  ∧ (∀ (s : State) (n : Nat) (c : Ctx), s.ctx? n = some c → c.cstate = 1 → s.gangs = [] → s.launches = [] → s.queues = [] → s.fills = [] → s.asks = [] → ∃ t d, exec (.ctxDestroy n) s = .next t ∧ t.ctx? n = some d ∧ d.cstate = 2
      ∧ (∀ p ∈ t.pins, p.ctx ≠ n) ∧ (∀ h ∈ t.stageHolds, h.1 ≠ n) ∧ (asnShared s c = false → (∀ x ∈ t.tlb, x.asn ≠ c.asn) ∧ ∀ l, t.resident c.asn l = false))
  ∧ (∀ (s : State) (n : Nat) (c : Ctx), s.ctx? n = some c →
      (c.cstate ≠ 2 ∨ (∃ j ∈ s.jobs, j.ctx = n) ∨ (∃ y ∈ s.gangs, y.ctx = n) → exec (.destroyComplete n) s = .next s)
      ∧ (c.cstate = 2 → (∀ j ∈ s.jobs, j.ctx ≠ n) → (∀ y ∈ s.gangs, y.ctx ≠ n) → s.colls = [] → exec (.destroyComplete n) s = .next (writeCstate { s with ctxs := s.ctxs.filter fun x => x.id != n } n 0)))
  ∧ (∀ (s : State) (v : BitVec 64), let r := (barWrite s).regs
      (∀ h, r.featDone → exec (.featacceptWrite h v) s = .next (barWrite s))
      ∧ (r.featDone = false → exec (.featacceptWrite false v) s = .next { barWrite s with regs := { r with featLow := v } })
      ∧ (r.featDone = false → exec (.featacceptWrite true v) s = .next { barWrite s with regs := { r with featDone := true, feat := if r.ctxEver then r.feat else (v ++ r.featLow) &&& 0x1FFF } }))
  ∧ (∀ (s : State) (v : BitVec 64), let b := barWrite s
      let free := b.feature 9 ∧ ∀ c ∈ b.ctxs, c.cstate ≠ 1 ∧ c.cstate ≠ 2
      (¬free → exec (.modectlWrite v) s = .next { b with regs := { b.regs with refused := true } })
      ∧ (free → v.getLsbD 0 → b.regs.fixed = false → exec (.modectlWrite v) s = .next { b with overSince := (if b.regs.powerlim < b.power then b.overSince.or (some b.tick) else none), regs := { b.regs with refused := false, fixed := true, shutdowns := 0, held := true } })
      ∧ (free → v.getLsbD 0 = false → exec (.modectlWrite v) s = .next { b with overSince := none, regs := { b.regs with refused := false, fixed := false, held := false } }))
  ∧ (∀ (s : State) (w : Nat), ((s.regs.fixed = false ∨ w ≤ s.regs.powerlim) → exec (.overpower w) s = .next { s with power := w, overSince := none })
      ∧ ∀ t, s.regs.fixed → s.regs.powerlim < w → s.overSince = some t → t + 10000000 * 16 ≤ s.tick →
          exec (.overpower w) s = .next (signal { s with power := w, overSince := some s.tick, regs := { s.regs with overpower := true } } 0))
  ∧ (∀ (s : State) (a b : List Byte), exec (.firmwareReload a b) s = .next (if s.attest.recovery then { s with attest := { s.attest with firmware := a, signature := b } } else s))
  ∧ (∀ (s : State) (off : Nat) (v : BitVec 64), off % 8 ≠ 0 → exec (.registerWrite off v) s = .next (barWrite s))
  ∧ (∀ (s : State) (v : BitVec 64), ∃ t, exec (.registerWrite 0x30 v) s = .next t ∧ (t.regs.fixed → t.regs.powerlim ≠ s.regs.powerlim → t.overSince = if t.regs.powerlim < s.power then s.overSince.or (some s.tick) else none) ∧ t.regs.powerlim = (if 150000 ≤ v.toNat ∧ v.toNat ≤ 900000 then v.toNat else s.regs.powerlim) ∧ SameMemory s t ∧ SameRegs s t)
  ∧ (∀ (s : State) (v : BitVec 64), (v.toNat % 4096 ≠ 0 ∨ v = 0 → exec (.resync v) s = .next (barWrite s))
      ∧ (v.toNat % 4096 = 0 → v ≠ 0 → ∃ t, exec (.resync v) s = .next t ∧ t.regs.resyncSeq = s.regs.resyncSeq + 1 ∧ leNat (t.readHome .host (v.toNat + 56) 8) = (s.regs.resyncSeq + 1) % 2 ^ 64))
  ∧ ∀ (s : State), ∃ t, exec .reset s = .next t ∧ t.agents = [] ∧ t.gangs = [] ∧ t.ctxs = [] ∧ t.launches = [] ∧ t.regs = { State.reset.regs with gddr := s.regs.gddr } ∧ t.loc = s.loc ∧ t.attest.firmware = s.attest.firmware

/-- R417-R419: MEASEXT takes eight words and then extends index 6 by SHA-512; a request of the SPDM responder is answered on its transport when it is the oldest
that waits: with its response, which moves the negotiation to its next stage, or with an error where it is too short, of another version, out
of its order or asks for what there is not; and it changes nothing where its transport is off.
The model's own choices in it: log 32 (the formats of SHA-512 and SPDM 1.3); log 110 (silence in recovery); log 6 (certificates and secrets are opaque); log 116 (addresses of the ports); log 157 (SPDM in TCP). -/
def Obligations.ResponderAnswersInOrder : Prop :=
  (∀ (s : State) (v : BitVec 64), let part := s.attest.measPart ++ leBytes 8 v.toNat
    (part.length < 64 → exec (.measext v) s = .next { s with attest := { s.attest with measPart := part } })
    ∧ (64 ≤ part.length → exec (.measext v) s = .next { s with attest := { s.attest with measPart := [], meas6 := sha512 (s.attest.meas6 ++ part) } }))
  ∧ (∀ (s : State) (t : Nat) (req : List Byte) (i : Instr) (code stage len : Nat),
      (i, code, stage, len) ∈ [(.getCapabilities t req, 0xE1, 1, 20), (.negotiateAlgorithms t req, 0xE3, 2, 32), (.getDigests t req, 0x81, 3, 4), (.getCertificate t req, 0x82, 3, 8), (.challenge t req, 0x83, 3, 44),
        (.getMeasurements t req, 0xE0, 3, if leField req 2 1 % 2 = 1 then 45 else 12)] →
      let u := (arrive s t req).2
      (leField req 1 1 ≠ code → exec i s = .next s)
      ∧ (leField req 1 1 = code → (arrive s t req).1 = false → exec i s = .next u)
      ∧ (leField req 1 1 = code → (arrive s t req).1 →
        (req.length < len → exec i s = .next (respond u t [0x13, 0x7F, 0x01, 0]))
        ∧ (len ≤ req.length → leField req 0 1 ≠ 0x13 → exec i s = .next (respond u t [0x13, 0x7F, 0x41, 0]))
        ∧ (len ≤ req.length → leField req 0 1 = 0x13 → s.attest.stage < stage → exec i s = .next (respond u t [0x13, 0x7F, 0x04, 0]))))
  ∧ (∀ (s : State) (t : Nat) (req : List Byte) (i : Instr) (code len stage answer next : Nat) (fit : Bool), let u := (arrive s t req).2
      let all := (measurements u).map (·.1)
      let op := leField req 3 1
      let slot0 : Bool := leField req 2 1 % 16 == 0
      let signed := leField req 2 1 % 2 == 1
      (i, code, len, stage, answer, next, fit) ∈ [(.getCapabilities t req, 0xE1, 20, 1, 0x61, 2, s.attest.stage == 1),
        (.negotiateAlgorithms t req, 0xE3, 32, 2, 0x63, 3, s.attest.stage == 2 && (leField req 8 4).testBit 8 && (leField req 12 4).testBit 2),
        (.getDigests t req, 0x81, 4, 3, 0x01, s.attest.stage, true), (.getCertificate t req, 0x82, 8, 3, 0x02, s.attest.stage, slot0 && decide (leField req 4 2 < (Config.certChain (cdi u)).length)),
        (.challenge t req, 0x83, 44, 3, 0x03, s.attest.stage, slot0),
        (.getMeasurements t req, 0xE0, if signed then 45 else 12, 3, 0x60, s.attest.stage, (op == 0 || op == 0xFF || all.contains op) && (!signed || leField req 36 1 % 16 == 0))] →
      leField req 1 1 = code → (arrive s t req).1 → len ≤ req.length → leField req 0 1 = 0x13 → stage ≤ s.attest.stage → ∃ v r, exec i s = .next (respond v t r)
        ∧ v.attest.meas6 = s.attest.meas6 ∧ v.regs = s.regs ∧ v.attest.stage = (if fit then next else s.attest.stage)
        ∧ (fit → r.take 2 = [0x13, BitVec.ofNat 8 answer]) ∧ (fit = false → r = [0x13, 0x7F, 0x01, 0] ∨ r = [0x13, 0x7F, 0x04, 0])
        ∧ (code = 0x81 → r = [0x13, 0x01, 1, 1] ++ sha512 (Config.certChain (cdi u))))
  ∧ (∀ (s : State) (t : Nat) (req : List Byte), (arrive s t req).1 → let u := (arrive s t req).2
      (leField req 1 1 = 0x84 → 4 ≤ req.length → leField req 0 1 = 0x10 → ∃ v, exec (.getVersion t req) s = .next (respond v t [0x10, 0x04, 0, 0, 0, 1, 0x00, 0x13]) ∧ v.attest.stage = 1)
      ∧ (leField req 1 1 ∉ spdmCodes → exec (.getVersion t req) s = .next (respond u t [0x13, 0x7F, 0x07, 0])))
  ∧ (∀ (s : State) (t : Nat) (req : List Byte),
      (s.attest.requests = [] → arrive s t req = (t == 0 && transportOn s 0, s))
      ∧ (∀ rest, s.attest.requests = (t, req) :: rest → arrive s t req = (transportOn s t, { s with attest := { s.attest with requests := rest } }))
      ∧ ∀ r rest, s.attest.requests = r :: rest → r ≠ (t, req) → (arrive s t req).1 = false
          ∧ (arrive s t req).2.attest.requests = s.attest.requests ++ (if t = 0 ∧ transportOn s 0 then [(0, req)] else []))
  ∧ (∀ (s : State) (t : Nat) (r : List Byte), (respond s t r).attest.responses = s.attest.responses ++ [(t, r)] ∧ (respond s t r).regs = s.regs
      ∧ (t = 0 → (respond s t r).ports = s.ports)
      ∧ ∀ p, t = p + 1 → (∃ y ∈ s.ports, y.port = p) → ((respond s t r).port p).own = (s.port p).own ++ (Config.tcpFrames p (dspMessage r) s.tick).map fun f => ((s.port p).txtail, f))
  ∧ (∀ (s : State) (m : Nat × Nat × Bool × List Byte), m ∈ measurements s → m.1 = 4 → m.2.2.2 = leBytes 16 s.regs.feat.toNat)

/-- R11, R440, R443-R447: a gang that has not issued for 2 s ends with WATCHDOG; a core at 110 °C stops and its gangs leave it, and it goes on after 1 ms below 100 °C; a hardware error is lasting
where parity or an earlier error says so, and else transient; a corrected error is counted.
R453-R458, R461-R463: sensors take their samples once in 8 µs, banks their refreshes; the lane-group tester retires a group after two failures in a row, to a spare or to degraded service; an uncorrectable
error of the die is counted and answered by its role; ALLOWANCE follows once in 64 µs and the rotation marks once in 1 ms; a lane group has one turn in 64 ms, and after an abandoned one waits for 1 ms.
The model's own choices in it: log 95 (the unit byte of its event); log 92 (which spare is used); log 93 (the line that is poisoned); log 14 (periods and conditions); log 90 (the order of judgements); log 88 (SHUTDOWNS in either mode). -/
def Obligations.ErrorsAndStackHealth : Prop :=
  ((∀ (s : State) (y : Gang), s.gang? y.key = some y → (stalled s y = false → exec (.watchdog y.key) s = .next s)
      ∧ (stalled s y → exec (.watchdog y.key) s = .next (addEvent (killGang s y.key 0x32) { time := 0, kind := 0x32, unit := 1, num := y.cluster, ctx := y.ctx, launch := y.key.launch })))
  ∧ (∀ (s : State) (core : Nat), (128 ≤ core ∨ (s.core core).stopped ∨ (∀ t, (s.core core).temp = some t → t < 110 * 16) → exec (.thermalStop core) s = .next s)
      ∧ (∀ t, core < 128 → (s.core core).stopped = false → (s.core core).temp = some t → 110 * 16 ≤ t → gangsOn s core = [] → s.fills = [] → s.gangs = [] → ∃ u e, exec (.thermalStop core) s = .next u
          ∧ (u.core core).stopped ∧ u.regs.shutdowns = min 255 (s.regs.shutdowns + 1) ∧ u.regs.held = false ∧ u.events.getLast? = some e ∧ e.kind = 0x88 ∧ e.num = core))
  ∧ (∀ (s : State) (core t : Nat), (s.core core).stopped → (s.core core).coolSince = some t →
      (s.tick < t + 1000000 * 16 → exec (.thermalResume core) s = .next s)
      ∧ (t + 1000000 * 16 ≤ s.tick → ∃ u, exec (.thermalResume core) s = .next u ∧ (u.core core).stopped = false))
  ∧ (∀ (s : State) (core : Nat) (parity : Bool) (ks : List GangKey), (128 ≤ core → exec (.hwError core parity ks) s = .next s)
      ∧ (core < 128 → (∀ k ∈ ks, s.gang? k = none) → (parity ∨ (s.core core).transient) → exec (.hwError core parity ks) s = .next (hwEvent (fenceCore s core []) 0x31 core none))
      ∧ (core < 128 → (∀ k ∈ ks, s.gang? k = none) → parity = false → (s.core core).transient = false →
          exec (.hwError core parity ks) s = .next (hwEvent (s.setCore { s.core core with transient := true }) 0x30 core none))
      ∧ ∀ k y, core < 128 → ks = [k] → s.gang? k = some y → y.st = .resident → y.reexec = none → parity = false → (s.core core).transient = false →
          exec (.hwError core parity ks) s = .next (if (kernelOfGang s y).restart ∧ y.fill = false then reexecute s y core
            else killGang (hwEvent (s.setCore { s.core core with transient := true }) 0x30 core (some y)) y.key 0x30))
  ∧ ∀ (s : State) (core : Nat), exec (.correctedError core) s = .next (if core < 128 then s.setCore { s.core core with corrected := min 65535 ((s.core core).corrected + 1) } else s))
  ∧ ((∀ (s : State) (vs : List Int), s.tick / 128000 ≤ s.sampledIn → exec (.sensorSample vs) s = .next s)
  ∧ (∀ (s : State) (vs : List Int), vs.length = 1024 → s.sampledIn < s.tick / 128000 → ∃ t, exec (.sensorSample vs) s = .next t ∧ SameRegs s t ∧ SameMemory s t ∧ t.sampledIn = s.tick / 128000
      ∧ ∀ b < 1024, ∀ v, vs[b]? = some v → (t.sensor b).latest = v ∧ ((v < -20 * 16 ∨ 150 * 16 < v) → (t.sensor b).st = 1 ∧ (t.bankOf b).mult = 4))
  ∧ (∀ (s : State) (b : Nat), exec (.bankRefresh b) s = .next (if b < 1024 ∧ (s.bankOf b).last + 7800 / (s.bankOf b).mult * 16 ≤ s.tick then s.setBank { s.bankOf b with last := s.tick } else s))
  ∧ (∀ (s : State), s.tick / 1024000 ≤ s.allowedIn → exec .allowanceUpdate s = .next s)
  ∧ (∀ (s : State), s.allowedIn < s.tick / 1024000 → ∃ t, exec .allowanceUpdate s = .next t ∧ t.allowedIn = s.tick / 1024000 ∧ ∀ k < 128, ∀ j, (s.core k).temp = some j → (t.core k).allowance = max (-32768) (min 32767 (min (110 * 16 - j) (85 * 16 - hottest s (k / 2)))))
  ∧ (∀ (s : State), exec .rotationPass s = .next (if s.tick / 16000000 ≤ s.rotatedIn then s
      else { s with rotatedIn := s.tick / 16000000, gangs := s.gangs.map fun y => { y with want := { y.want with rotate := rotates s y } } }))
  ∧ (∀ (s : State) (k : Nat) (pass : Bool), let x := s.tester k
      let due := if x.testing then x.began + 2048 * 16 ≤ s.tick else x.round ≤ s.tick / (64000000 * 16) ∧ x.retry ≤ s.tick
      (64 ≤ k ∨ 32 ≤ x.retired.length ∨ ¬due → exec (.testerTurn k pass) s = .next s)
      ∧ (k < 64 → x.retired.length < 32 → due → x.spares = 0 → x.testing = false → exec (.testerTurn k pass) s = .next (s.setTester { x with testing := true, began := s.tick }))
      ∧ (k < 64 → x.retired.length < 32 → due → (x.spares ≠ 0 ∨ x.testing) → ∃ t, exec (.testerTurn k pass) s = .next t ∧ SameRegs s t ∧ SameMemory s t ∧ let y := t.tester k
          y.testing = false ∧ (y.group ≤ x.group → y.round = max (x.round + 1) (s.tick / (64000000 * 16))) ∧ (x.group < y.group → y.round = x.round)
          ∧ (pass → y.retired = x.retired ∧ x.group ∉ y.fails)
          ∧ (pass = false → x.group ∉ x.fails → y.retired = x.retired ∧ y.fails = x.fails ++ [x.group] ∧ y.pfail = x.pfail + 1)
          ∧ (pass = false → x.group ∈ x.fails → y.retired = x.retired ++ [x.group] ∧ (0 < x.spares → y.spares = x.spares - 1) ∧ (x.spares = 0 → y.degraded))))
  ∧ (∀ (s : State) (k : Nat), exec (.testerAbort k) s = .next (if (s.tester k).testing then s.setTester { s.tester k with testing := false, aborts := (s.tester k).aborts + 1, retry := s.tick + 1000000 * 16 } else s))
  ∧ ∀ (s : State) (k role : Nat) (a : BitVec 64), (64 ≤ k ∨ 20 ≤ role → exec (.dieUncorrectable k a role) s = .next s)
      ∧ (k < 64 → role < 20 → ∃ t e, let line := a.toNat / 128
          exec (.dieUncorrectable k a role) s = .next t ∧ (t.tester k).uncorr = (s.tester k).uncorr + 1 ∧ e ∈ t.events ∧ e.kind = 0x85 ∧ e.num = k
          ∧ e.detail = leBytes 8 (128 * line) ++ [BitVec.ofNat 8 (if role < 4 then role else 1)]
          ∧ (role ≠ 2 → role ≠ 3 → SameMemory s t)
          ∧ (role = 2 → ∀ asn l, t.resident asn l = (s.resident asn l && !(l == line && rkSlice asn (128 * line) == k)))
          ∧ (role = 3 → let slot := a.toNat / 2 ^ 20
              (∃ w ∈ t.slotRuns, w.state = 0xFF ∧ w.first = slot)
              ∧ ∀ r bl h, s.slotRuns.find? (fun r => r.state != 0xFF && r.first ≤ slot && slot < r.first + r.len) = some r → s.blockOf? r.gang h = some bl → bl.ended = false → bl.exitStatus = 0 →
                  ∃ c, t.blockOf? r.gang h = some c ∧ c.ended ∧ c.exitStatus = 0x30)
          ∧ (role ≠ 0 → role ≠ 2 → role ≠ 3 → t.poisoned (if role < 4 then .loc else .pool (role - 4)) (a.toNat / 128 * 128) 128)))

/-- R464, R467, R469, R471-R474: TRCTL turns the trace on with empty indices, where its ring is well formed; a breakpoint holds its path with an entry of STOPTAB; STOPREL and STOPARM release held paths;
STALLCLR clears the counters; pending losses are written once there is room.
The model's own choices in it: log 87 (when a step is held); log 86 (the room a LOSS packet needs); log 137 (a path that comes to a join at a breakpoint); log 143 (the DELTA after a GO). -/
def Obligations.TraceAndStopsAreControlled : Prop :=
  (∀ (s : State) (v : BitVec 64), let b := barWrite s
      (v.getLsbD 0 → b.regs.trctl.getLsbD 0 = false → (b.regs.trlog < 12 ∨ 30 < b.regs.trlog) → exec (.trctlWrite v) s = .next b)
      ∧ (v.getLsbD 0 → b.regs.trctl.getLsbD 0 = false → 12 ≤ b.regs.trlog → b.regs.trlog ≤ 30 → ∃ t, exec (.trctlWrite v) s = .next t ∧ SameRegs s t ∧ SameMemory s t
        ∧ t.regs = { b.regs with trctl := v &&& 0xFFFFFFFF0000FF01, trwidx := 0, trridx := 0, trlost := 0, trpending := 0 } ∧ ∀ x ∈ t.agents, x.trOwed)
      ∧ ((v.getLsbD 0 = false ∨ b.regs.trctl.getLsbD 0) → ∃ t, exec (.trctlWrite v) s = .next t ∧ SameRegs s t ∧ SameMemory s t ∧ t.regs = { b.regs with trctl := v &&& 0xFFFFFFFF0000FF01 }))
  ∧ (∀ (s : State) (n p k : Nat) (x : Agent) (q : Path), s.agent? n = some x → s.path? n p = some q → mayIssue s x p q → q.bun = none → stopOf s (s.ctxOf x.gang).id x.pilot q = some k → (∃ j < 64, ∀ e ∈ s.stops, e.slot ≠ j) →
      ∃ t e z, exec (.breakpointHold n p k) s = .next t ∧ t.stops = s.stops ++ [e] ∧ e.pc = q.pc ∧ e.agent = n ∧ e.path = p ∧ e.cause = k ∧ e.xmask = q.xmask ∧ t.path? n p = some z ∧ z.st = .stopped ∧ z.pc = q.pc)
  ∧ (∀ (s : State) (c n p : Nat) (step : Bool), let b := barWrite s
      let i := if step then Instr.stoprelStep c n p else .stoprelRelease c n p
      (stopNamed b c n p = none → exec i s = .next b)
      ∧ ∀ e, stopNamed b c n p = some e → exec i s = .next (releaseStop b e step) ∧ (∀ f ∈ b.stops, f.slot ≠ e.slot → f ∈ (releaseStop b e step).stops)
          ∧ ∀ x q, b.agent? n = some x → b.path? n p = some q → q.st = .stopped → e ∉ (releaseStop b e step).stops
            ∧ ((∀ y ∈ x.paths, y.st ≠ .join) → q.jpc ≠ some q.pc →
                ∃ z, (releaseStop b e step).path? n p = some z ∧ z.st = .eligible ∧ z.released ∧ z.stepping = if step then some e.cause else none))
  ∧ (∀ (s : State) (c : Nat), exec (.stoprelAll c) s = .next (releaseCtx (barWrite s) c)
      ∧ ((∀ x ∈ (barWrite s).agents, ∀ y ∈ x.paths, y.st ≠ .join) → ∀ f ∈ (releaseCtx (barWrite s) c).stops, f.ctx ≠ c))
  ∧ (∀ (s : State) (k : Nat) (v : BitVec 64), (4 ≤ k → exec (.stoparmWrite k v) s = .next (barWrite s)) ∧ (k < 4 → ∃ t, exec (.stoparmWrite k v) s = .next t ∧ mget 0 t.regs.stoparm k = v
        ∧ ∀ c, c / 64 = k → v.getLsbD (c % 64) = false → (∀ e ∈ t.stops, e.ctx ≠ c)
          ∧ (∀ e ∈ (barWrite s).stops, e.ctx = c → ∀ q, (barWrite s).path? e.agent e.path = some q → q.st = .stopped → ∀ z, t.path? e.agent e.path = some z → z.st ≠ .stopped)
          ∧ ∀ x ∈ t.agents, (t.ctxOf x.gang).id = c → ∀ z ∈ x.paths, z.stepping = none))
  ∧ (∀ (s : State), let b := barWrite s
      exec .stallclr s = .next { b with stalls := [], regs := { b.regs with stallSince := b.clk } })
  ∧ ∀ (s : State), let due := s.regs.trctl.getLsbD 0 ∧ s.regs.trpending ≠ 0 ∧ room s 216
      (¬due → exec .traceLossWrite s = .next s) ∧ (due → ∃ t, exec .traceLossWrite s = .next t ∧ t.regs.trpending = 0 ∧ t.regs.trwidx = s.regs.trwidx + 8 ∧ SameRegs s t ∧ SameMemoryBut (InTraceRing s) s t)

/-- R421-R427: an output trains where its registers are acceptable and the link carries the format, scans its latest accepted flip from the next frame on, and reports its AUX transactions; wake trails open at T0,
close at the first pixel or after 1 s, and their ring takes its base, size and read index.
The model's own choices in it: log 101 (what a refused enable leaves); log 102 (DisplayPort lane rates); log 104 (codes and data of AUX); log 100 (FLIP without its feature); log 99 (the output byte of a trail). -/
def Obligations.OutputsTrainFlipAndStampTrails : Prop :=
  (∀ (s : State) (o : Nat) (v : BitVec 64), let b := barWrite s
      let d := b.disp o
      let w := v &&& 0x3371
      let off : Disp := { d with training := false, trained := false, trRate := 0, trLanes := 0 }
      (4 ≤ o → exec (.dpctlEnable o v) s = .next b)
      ∧ (o < 4 → w.getLsbD 0 = false → exec (.dpctlEnable o v) s = .next (b.setDisp { off with dpctl := w }))
      ∧ (o < 4 → w.getLsbD 0 → d.acceptable w = false → exec (.dpctlEnable o v) s = .next (b.setDisp { off with dpctl := w &&& ~~~1, error := true }))
      ∧ (o < 4 → w.getLsbD 0 → d.acceptable w → exec (.dpctlEnable o v) s = .next (b.setDisp { off with dpctl := w, error := false, training := true, frames := 0 })))
  ∧ (∀ (s : State) (o rate lanes : Nat), let d := s.disp o
      o < 4 → d.training → d.hpd → exec (.linkTrainingDone o rate lanes false) s = .next (s.setDisp { d with training := false })
      ∧ (rate ≤ bitsOf d.dpctl.toNat 6 4 → lanes ≤ bitsOf d.dpctl.toNat 9 8 →
          (linkPayload rate lanes < d.needs → exec (.linkTrainingDone o rate lanes true) s = .next (s.setDisp { d with dpctl := d.dpctl &&& ~~~1, error := true, training := false }))
          ∧ (d.needs ≤ linkPayload rate lanes → exec (.linkTrainingDone o rate lanes true) s = .next (s.setDisp { d with training := false, trained := true, trRate := rate, trLanes := lanes }))))
  ∧ (∀ (s : State) (o : Nat), exec (.hpdAssert o) s = .next (s.setDisp { s.disp o with hpd := true })
      ∧ exec (.hpdLoss o) s = .next (s.setDisp { s.disp o with hpd := false, trained := false, training := false, trRate := 0, trLanes := 0 }))
  ∧ (∀ (s : State) (o code : Nat) (v : BitVec 64) (i : Instr),
      (i, code) ∈ [(.auxNativeWrite o v, 8), (.auxNativeRead o v, 9), (.auxI2cWrite o v, 0), (.auxI2cRead o v, 1), (.auxI2cWriteMot o v, 4), (.auxI2cReadMot o v, 5)] → let b := barWrite s
      let d := b.disp o
      (4 ≤ o ∨ d.auxBusy ≠ none ∨ bitsOf v.toNat 23 20 ≠ code → exec i s = .next b)
      ∧ (o < 4 → d.auxBusy = none → bitsOf v.toNat 23 20 = code →
          exec i s = .next (b.setDisp { d with auxBusy := some (code, bitsOf v.toNat 19 0, bitsOf v.toNat 27 24 + 1), auxstat := d.auxstat ||| 1 })))
  ∧ (∀ (s : State) (o reply : Nat) (bs : List Byte), (∀ code a n, (s.disp o).auxBusy = some (code, a, n) → o < 4 → reply < 4 →
        let got := if code % 2 = 1 ∧ reply = 0 then bs.take n else []
        exec (.auxReply o reply bs) s = .next (s.setDisp { s.disp o with auxBusy := none, auxdata := auxFill (s.disp o).auxdata got, auxstat := BitVec.ofNat 64 (2 * reply + 256 * got.length) }))
      ∧ ((s.disp o).auxBusy = none → exec (.auxReply o reply bs) s = .next s))
  ∧ (∀ (s : State) (v : BitVec 64), let b := barWrite s
      let o := bitsOf v.toNat 33 32
      let base := bitsOf v.toNat 63 34 * 16384
      (b.regs.gddr < base + (b.disp o).vactive * (b.disp o).stride.toNat → exec (.flip v) s = .next (b.setDisp { b.disp o with error := true }))
      ∧ (base + (b.disp o).vactive * (b.disp o).stride.toNat ≤ b.regs.gddr → (∃ d ∈ b.disps, d.out = o) → ∃ t, exec (.flip v) s = .next t ∧ (t.disp o).pending = some (BitVec.ofNat 64 base, some (v.setWidth 32)) ∧ (t.disp o).error = false
          ∧ ∀ r ∈ t.trails, r.tag = v.setWidth 32 → r.flipped ∧ r.out = o))
  ∧ (∀ (s : State) (o : Nat), (4 ≤ o ∨ (s.disp o).scans = false → exec (.frameBoundary o) s = .next s)
      ∧ (o < 4 → (s.disp o).scans → ∀ a g, (s.disp o).pending = some (a, g) →
          exec (.frameBoundary o) s = .next (s.setDisp { s.disp o with frames := ((s.disp o).frames + 1) % 2 ^ 32, scanbase := a, scanTag := g, pending := none, shown := true })))
  ∧ (∀ (s : State) (o : Nat) (g : BitVec 32), ((s.disp o).scanTag = none → exec (.firstPixel o) s = .next s)
      ∧ ∀ r, (s.disp o).scanTag = some g → o < 4 → (s.disp o).scans → let u := s.setDisp { s.disp o with scanTag := none }
          u.trail? g = some r → exec (.firstPixel o) s = .next (closeTrail u r 0 (some (u.tick / 16))))
  ∧ (∀ (s : State) (v : BitVec 64), let b := barWrite s
      (trailOn b = false → ∀ h, exec (.wakeopen h v) s = .next b)
      ∧ (trailOn b → exec (.wakeopen false v) s = .next { b with regs := { b.regs with wakeTag := some (v &&& 0xFFFFFFFF) } } ∧ exec (.wakeopen true v) s = .next (openTrail b ((b.regs.wakeTag.getD 0).setWidth 32) v.toNat)))
  ∧ (∀ (s : State) (r : Trail), s.trail? r.tag = some r → (r.opened + 1000000000 * 16 ≤ s.tick → exec (.trailTimeout r.tag) s = .next (closeTrail s r 1 none))
      ∧ (s.tick < r.opened + 1000000000 * 16 → exec (.trailTimeout r.tag) s = .next s))
  ∧ (∀ (s : State) (v : BitVec 64) (log : Bool), let b := barWrite s
      (b.feature 10 = false → exec (.wtringWrite log v) s = .next b)
      ∧ (b.feature 10 → ∃ t, exec (.wtringWrite log v) s = .next t ∧ t.trails = [] ∧ t.regs.wtwidx = 0 ∧ t.regs.wtridx = 0 ∧ t.regs.wtlost = 0 ∧ (if log then t.regs.wtlog = v.toNat % 16 else t.regs.wtring = v.toNat / 128 * 128)))
  ∧ ∀ (s : State) (v : BitVec 64), let b := barWrite s
      (b.feature 10 → b.regs.wtridx ≤ v.toNat → v.toNat ≤ b.regs.wtwidx → exec (.wtridxWrite v) s = .next { b with regs := { b.regs with wtridx := v.toNat } })
      ∧ ((b.feature 10 = false ∨ v.toNat < b.regs.wtridx ∨ b.regs.wtwidx < v.toNat) → exec (.wtridxWrite v) s = .next b)

/-- R413, R415, R416: a port sends the oldest frame of its highest open class, completes what is refused or dropped, delivers frames that are for it where
there is a descriptor, and answers ARP and Neighbor Solicitation as its own frames; its gates follow their lists; losing the grandmaster
leads to the other port's, or to holdover after a lock.
The model's own choices in it: log 108 (802.1Qbv lists); log 107 (the servo); log 106 (frames on the wire); log 105 (octet order and ring sizes); log 158 (802.1AS messages); log 116 (addresses of the ports). -/
def Obligations.PortsSendReceiveAndGate : Prop :=
  (∀ (s : State) (p : Nat) (v : BitVec 64), let b := barWrite s
      ((2 ≤ p ∨ b.feature 11 = false) → exec (.pctlWrite p v) s = .next b)
      ∧ (p < 2 → b.feature 11 → (∃ x ∈ b.ports, x.port = p) → ∃ t, exec (.pctlWrite p v) s = .next t ∧ (t.port p).pctl = v &&& 7
        ∧ (v.getLsbD 0 → (b.port p).en = false → (t.port p).txtail = 0 ∧ (t.port p).txhead = 0 ∧ (t.port p).rxtail = 0 ∧ (t.port p).rxhead = 0)))
  ∧ (∀ (s : State) (p : Nat), let b := barWrite s
      exec (.gateConfigChange p) s = .next (if b.feature 11 then gateConfig b p else b))
  ∧ (∀ (s : State) (p : Nat), let x := s.port p
      (x.gateEnabled = false → exec (.gateCycleStart p) s = .next s)
      ∧ (∀ t, x.gateEnabled → x.cfgPending = some t → t ≤ s.tick → exec (.gateCycleStart p) s = .next (s.setPort (x.install t)))
      ∧ (x.gateEnabled → x.cfgPending = none → x.gating → x.cycleStart + x.operCycle ≤ s.tick →
          exec (.gateCycleStart p) s = .next (s.setPort ({ x with cycleStart := x.cycleStart + x.operCycle }.enter 0 (x.cycleStart + x.operCycle)))))
  ∧ (∀ (s : State) (p : Nat), let x := s.port p
      let due := x.gating ∧ x.operIdx + 1 < x.operLen ∧ x.entryEnd ≤ s.tick ∧ x.entryEnd < x.cycleStart + x.operCycle
      (due → exec (.gateIntervalExpire p) s = .next (s.setPort (x.enter (x.operIdx + 1) x.entryEnd))) ∧ (¬due → exec (.gateIntervalExpire p) s = .next s))
  ∧ (∀ (s : State) (p : Nat), let x := s.port p
      let desc (k : Nat) := s.readHome .host (x.txDesc k) 32
      ((s.feature 11 = false ∨ x.en = false ∨ x.link = false) → exec (.frameTransmit p) s = .next s)
      ∧ (∀ k, s.feature 11 → x.en → x.link → x.posted.find? (fun k => txRefused (desc k)) = some k → exec (.frameTransmit p) s = .next (completeTx s p k 1 none))
      ∧ (s.feature 11 → x.en → x.link → (∀ k ∈ x.posted, txRefused (desc k) = false) →
        ((s.tick < x.busyUntil ∨ nextTx s x = none) → exec (.frameTransmit p) s = .next s)
        ∧ (x.busyUntil ≤ s.tick → ∀ y, nextTx s x = some y →
          let gone : Port := { x with busyUntil := s.tick + wireTime y.frame.length, out := x.out ++ [(s.tick / 16, wireFrame y.frame)] }
          (∀ k d f, y = .posted k d f → exec (.frameTransmit p) s = .next (completeTx (s.setPort gone) p k 0 (if leField d 10 1 = 1 then some (s.tick / 16) else none)))
          ∧ ∀ f, y = .own f → exec (.frameTransmit p) s = .next (s.setPort { gone with own := x.own.drop 1 }))))
  ∧ (∀ (s : State) (x : Port), let may (c : Nat) (y : Tx) : Prop := x.maySend c s.tick y.frame.length
      (nextTx s x = none → ∀ c < 8, ∀ y, oldestTx s x c = some y → ¬may c y)
      ∧ ∀ y, nextTx s x = some y → ∃ c < 8, oldestTx s x c = some y ∧ may c y ∧ ∀ h, c < h → h < 8 → ∀ z, oldestTx s x h = some z → ¬may h z)
  ∧ (∀ (s : State) (x : Port) (c : Nat), let frame (k : Nat) := txFrame s (s.readHome .host (x.txDesc k) 32)
      let class_ (k : Nat) := x.classOf (vlanPrio (frame k))
      (oldestTx s x c = none → (∀ k ∈ x.posted, class_ k ≠ c) ∧ (x.classOf 0 = c → x.own = []))
      ∧ (∀ k d f, oldestTx s x c = some (.posted k d f) → k ∈ x.posted ∧ class_ k = c ∧ f = frame k ∧ d = s.readHome .host (x.txDesc k) 32 ∧ (∀ j ∈ x.posted, j < k → class_ j ≠ c)
          ∧ (x.classOf 0 = c → ∀ g, x.own.head? = some g → k < g.1))
      ∧ ∀ f, oldestTx s x c = some (.own f) → x.classOf 0 = c ∧ ∃ at_, x.own.head? = some (at_, f) ∧ ∀ j ∈ x.posted, class_ j = c → at_ ≤ j)
  ∧ (∀ (s : State) (p : Nat) (f : List Byte), (∃ y ∈ s.ports, y.port = p) → let x := s.port p
      let free := x.rxhead ≠ x.rxtail ∧ 4 ≤ x.rxlog.toNat ∧ x.rxlog.toNat ≤ 14
      let d := s.readHome .host (x.rxDesc x.rxhead) 32
      let n := min f.length (leField d 8 2)
      let t := rxDeliver s p f
      SameRegs s t ∧ (¬free → SameMemory s t ∧ t.port p = { x with rxdrop := min (2 ^ 32 - 1) (x.rxdrop + 1) })
      ∧ (free → t.port p = { x with rxhead := x.rxhead + 1 }
        ∧ StoredOnly s t [(.host, leField d 0 8, f.take n), (.host, x.rxDesc x.rxhead + 16, leBytes 8 (s.tick / 16) ++ [if n < f.length then 3 else 1] ++ leBytes 2 f.length)]))
  ∧ (∀ (s : State) (p : Nat) (f : List Byte) (ok : Bool), let x := s.port p
      ((2 ≤ p ∨ s.feature 11 = false ∨ x.en = false ∨ x.link = false ∨ ok = false ∨ f.length < 14) → exec (.frameReceive p f ok) s = .next s)
      ∧ (p < 2 → s.feature 11 → x.en → x.link → 14 ≤ f.length → (x.pctl.getLsbD 2 = false ∨ beField f 12 2 ≠ 0x88F7) → x.isArp f = false → x.isSolicit f = false → x.tcpPayload f = none →
          exec (.frameReceive p f true) s = .next (if x.wants f then rxDeliver s p f else s))
      ∧ (p < 2 → s.feature 11 → x.en → x.link → 14 ≤ f.length → (x.pctl.getLsbD 2 = false ∨ beField f 12 2 ≠ 0x88F7) →
          (x.isArp f → exec (.frameReceive p f true) s = .next (sendOwn s p (x.arpAnswer f)))
          ∧ (x.isArp f = false → x.isSolicit f → exec (.frameReceive p f true) s = .next (sendOwn s p (x.solicitAnswer f)))))
  ∧ (∀ (s : State) (p : Nat), exec (.portLinkUp p) s = .next (s.setPort { s.port p with link := true }))
  ∧ (∀ (s : State) (p : Nat), exec (.portLinkDown p) s = .next ((s.port p).posted.foldl (fun s k => completeTx s p k 2 none) (dropMaster (s.setPort { s.port p with link := false, ascap := false, busyUntil := 0, own := [], tcpBuf := [] }) p)))
  ∧ ∀ (s : State), (s.regs.syncPort = 3 → exec .grandmasterTimeout s = .next s)
      ∧ (s.regs.syncPort ≠ 3 → ∃ t, exec .grandmasterTimeout s = .next t ∧ (t.port s.regs.syncPort).master = none
        ∧ match bestMaster (s.setPort { s.port s.regs.syncPort with master := none, syncAt := none }) with
          | none => t.regs.syncPort = 3 ∧ t.regs.syncState = (if s.regs.syncState = 2 ∨ s.regs.syncState = 3 then 3 else 0)
          | some p => t.regs.syncPort = p ∧ (p ≠ s.regs.syncPort → t.regs.syncState = 1))
      ∧ (∀ p, bestMaster s = some p → p < 2 ∧ ∃ m, (s.port p).master = some m ∧ ∀ q < 2, ∀ n, (s.port q).master = some n → m ≤ n)
      ∧ (bestMaster s = none ↔ (s.port 0).master = none ∧ (s.port 1).master = none)

/-! ## What every step keeps -/

/-- R1, R2, R488: right after reset every memory is in its canonical form, and lists nothing.
The model's own choices in it: log 1 (memory that nothing has written reads 0). -/
def Obligations.ResetMemoryIsCanonical : Prop :=
  State.reset.memWf ∧ State.reset.loc = [] ∧ State.reset.host = [] ∧ State.reset.peer = [] ∧ State.reset.pool = [] ∧ State.reset.rkmem = []

/-- From every state whose memories are in canonical form, whatever the step, so are they after it: equal memories stay equal data.
The model's own choices in it: log 1 (memory that nothing has written reads 0). -/
def Obligations.EveryStepKeepsMemoryCanonical : Prop :=
  ∀ s t : State, s.memWf → step s = .next t → t.memWf
end

