-- ==== Sys2Proof/Laws/Maps.lean ====
section
/-! SUPPORT. The laws of the sparse maps: read after write, and that a write keeps the canonical form. -/

namespace Sys2Proof.Machine

variable {α : Type}

theorem mget_merase (d : α) (l : List (Nat × α)) (k j : Nat) :
    mget d (merase l k) j = if j = k then d else mget d l j := by
  induction l with
  | nil => simp [merase, mget]
  | cons a t ih =>
    obtain ⟨i, y⟩ := a
    by_cases h : k = i
    · subst h; simp only [merase, if_pos, ih]; by_cases hj : j = k <;> simp [mget, hj]
    · by_cases hj : j = i
      · subst hj; simp [merase, mget, h, Ne.symm h]
      · simp [merase, mget, ih, h, hj]

theorem mget_minsert (d : α) (l : List (Nat × α)) (k : Nat) (x : α) (j : Nat) :
    mget d (minsert l k x) j = if j = k then x else mget d l j := by
  induction l with
  | nil => simp [minsert, mget]
  | cons a t ih =>
    obtain ⟨i, y⟩ := a
    by_cases h : k < i
    · simp [minsert, mget, h]
    · by_cases h' : k = i
      · subst h'; by_cases hj : j = k <;> simp [minsert, mget, hj]
      · by_cases hj : j = i
        · subst hj; simp [minsert, mget, h, h', Ne.symm h']
        · simp [minsert, mget, ih, h, h', hj]

/-- Read after write. -/
@[simp] theorem mget_mset [DecidableEq α] (d : α) (l : List (Nat × α)) (k : Nat) (x : α) (j : Nat) :
    mget d (mset d l k x) j = if j = k then x else mget d l j := by
  by_cases h : x = d
  · subst h; simp [mset, mget_merase]
  · simp [mset, h, mget_minsert]

theorem mwfFrom_mono [DecidableEq α] (d : α) {a b : Nat} (h : a ≤ b) : ∀ l, mwfFrom d b l = true → mwfFrom d a l = true
  | [], _ => rfl
  | (k, x) :: t, w => by
    simp only [mwfFrom, Bool.and_eq_true, decide_eq_true_eq] at w ⊢
    exact ⟨⟨Nat.le_trans h w.1.1, w.1.2⟩, w.2⟩

theorem mwfFrom_merase [DecidableEq α] (d : α) : ∀ (l : List (Nat × α)) (a k : Nat), mwfFrom d a l = true → mwfFrom d a (merase l k) = true
  | [], _, _, _ => rfl
  | (i, y) :: t, a, k, w => by
    simp only [mwfFrom, Bool.and_eq_true, decide_eq_true_eq] at w
    by_cases h : k = i
    · simpa [merase, h] using mwfFrom_mono d (by omega) _ (mwfFrom_merase d t (i + 1) i w.2)
    · simp only [merase, if_neg h, mwfFrom, Bool.and_eq_true, decide_eq_true_eq]
      exact ⟨w.1, mwfFrom_merase d t (i + 1) k w.2⟩

theorem mwfFrom_minsert [DecidableEq α] (d : α) : ∀ (l : List (Nat × α)) (a k : Nat) (x : α), a ≤ k → x ≠ d →
    mwfFrom d a l = true → mwfFrom d a (minsert l k x) = true
  | [], a, k, x, h, hx, _ => by simp [minsert, mwfFrom, h, hx]
  | (i, y) :: t, a, k, x, h, hx, w => by
    simp only [mwfFrom, Bool.and_eq_true, decide_eq_true_eq] at w
    by_cases h1 : k < i
    · simp only [minsert, if_pos h1, mwfFrom, Bool.and_eq_true, decide_eq_true_eq]
      exact ⟨⟨h, hx⟩, ⟨by omega, w.1.2⟩, w.2⟩
    · by_cases h2 : k = i
      · subst h2; simp only [minsert, if_neg h1, if_pos, mwfFrom, Bool.and_eq_true, decide_eq_true_eq]; exact ⟨⟨h, hx⟩, w.2⟩
      · simp only [minsert, if_neg h1, if_neg h2, mwfFrom, Bool.and_eq_true, decide_eq_true_eq]
        exact ⟨w.1, mwfFrom_minsert d t (i + 1) k x (by omega) hx w.2⟩

/-- A write keeps the canonical form. -/
theorem mwf_mset [DecidableEq α] (d : α) (l : List (Nat × α)) (k : Nat) (x : α) (w : mwf d l = true) : mwf d (mset d l k x) = true := by
  by_cases h : x = d
  · subst h; simpa [mset, mwf] using mwfFrom_merase x l 0 k w
  · simpa [mset, h, mwf] using mwfFrom_minsert d l 0 k x (Nat.zero_le _) h w

theorem mwfFrom_filter [DecidableEq α] (d : α) (p : Nat × α → Bool) : ∀ (l : List (Nat × α)) (a : Nat), mwfFrom d a l = true → mwfFrom d a (l.filter p) = true
  | [], _, _ => rfl
  | (i, y) :: t, a, w => by
    simp only [mwfFrom, Bool.and_eq_true, decide_eq_true_eq] at w
    by_cases h : p (i, y)
    · simp only [List.filter_cons, h, if_true, mwfFrom, Bool.and_eq_true, decide_eq_true_eq]
      exact ⟨w.1, mwfFrom_filter d p t (i + 1) w.2⟩
    · simpa [List.filter_cons, h] using mwfFrom_mono d (by omega) _ (mwfFrom_filter d p t (i + 1) w.2)

theorem mwf_filter [DecidableEq α] (d : α) (p : Nat × α → Bool) (l : List (Nat × α)) (w : mwf d l = true) : mwf d (l.filter p) = true :=
  mwfFrom_filter d p l 0 w

/-- Bytes written one after another keep the canonical form. -/
theorem cellsWrite_wf : ∀ (bs : List Byte) (c : List Host.Cell) (a : Nat), Memory.wf c = true → Memory.wf (cellsWrite c a bs) = true
  | [], _, _, w => w
  | b :: t, c, a, w => cellsWrite_wf t (mset 0 c a b) (a + 1) (mwf_mset 0 c a b w)

/-- What a byte reads as after bytes were written from an address on. -/
theorem mget_cellsWrite : ∀ (bs : List Byte) (c : List Host.Cell) (a x : Nat),
    mget 0 (cellsWrite c a bs) x = if a ≤ x ∧ x < a + bs.length then bs.getD (x - a) 0 else mget 0 c x
  | [], c, a, x => by
    have : ¬(a ≤ x ∧ x < a) := by omega
    simp only [cellsWrite, List.length_nil, Nat.add_zero, this, if_false]
  | b :: t, c, a, x => by
    rw [cellsWrite, mget_cellsWrite t, mget_mset]
    by_cases h : x = a
    · subst h
      have : ¬ (x + 1 ≤ x) := by omega
      simp [this]
    · by_cases h2 : a ≤ x ∧ x < a + (t.length + 1)
      · have h3 : a + 1 ≤ x ∧ x < a + 1 + t.length := by omega
        have h4 : x - a = (x - (a + 1)) + 1 := by omega
        simp only [List.length_cons, h2, h3, if_true, and_self, h4, List.getD_cons_succ]
      · have h3 : ¬(a + 1 ≤ x ∧ x < a + 1 + t.length) := by omega
        simp only [List.length_cons, h, h2, h3, if_false]

end Sys2Proof.Machine
end

