-- ==== Sys2Proof/Laws/State.lean ====
section
/-! SUPPORT. One lemma per field and named update of the state: what an update leaves. -/

namespace Sys2Proof.Machine

@[simp] theorem State.updAgent_tick (s : State) (n : Nat) (f : Agent → Agent) : (s.updAgent n f).tick = s.tick := rfl
@[simp] theorem State.updAgent_clk (s : State) (n : Nat) (f : Agent → Agent) : (s.updAgent n f).clk = s.clk := rfl
@[simp] theorem State.updAgent_clkFrac (s : State) (n : Nat) (f : Agent → Agent) : (s.updAgent n f).clkFrac = s.clkFrac := rfl
@[simp] theorem State.updAgent_loc (s : State) (n : Nat) (f : Agent → Agent) : (s.updAgent n f).loc = s.loc := rfl
@[simp] theorem State.updAgent_host (s : State) (n : Nat) (f : Agent → Agent) : (s.updAgent n f).host = s.host := rfl
@[simp] theorem State.updAgent_peer (s : State) (n : Nat) (f : Agent → Agent) : (s.updAgent n f).peer = s.peer := rfl
@[simp] theorem State.updAgent_pool (s : State) (n : Nat) (f : Agent → Agent) : (s.updAgent n f).pool = s.pool := rfl
@[simp] theorem State.updAgent_rkmem (s : State) (n : Nat) (f : Agent → Agent) : (s.updAgent n f).rkmem = s.rkmem := rfl
@[simp] theorem State.updAgent_homes (s : State) (n : Nat) (f : Agent → Agent) : (s.updAgent n f).homes = s.homes := rfl
@[simp] theorem State.updAgent_copies (s : State) (n : Nat) (f : Agent → Agent) : (s.updAgent n f).copies = s.copies := rfl
@[simp] theorem State.updAgent_relaxed (s : State) (n : Nat) (f : Agent → Agent) : (s.updAgent n f).relaxed = s.relaxed := rfl
@[simp] theorem State.updAgent_releases (s : State) (n : Nat) (f : Agent → Agent) : (s.updAgent n f).releases = s.releases := rfl
@[simp] theorem State.updAgent_poison (s : State) (n : Nat) (f : Agent → Agent) : (s.updAgent n f).poison = s.poison := rfl
@[simp] theorem State.updAgent_extClk (s : State) (n : Nat) (f : Agent → Agent) : (s.updAgent n f).extClk = s.extClk := rfl
@[simp] theorem State.updAgent_seq (s : State) (n : Nat) (f : Agent → Agent) : (s.updAgent n f).seq = s.seq := rfl
@[simp] theorem State.updAgent_leases (s : State) (n : Nat) (f : Agent → Agent) : (s.updAgent n f).leases = s.leases := rfl
@[simp] theorem State.updAgent_fresh (s : State) (n : Nat) (f : Agent → Agent) : (s.updAgent n f).fresh = s.fresh := rfl
@[simp] theorem State.updAgent_nextId (s : State) (n : Nat) (f : Agent → Agent) : (s.updAgent n f).nextId = s.nextId := rfl
@[simp] theorem State.updAgent_pend (s : State) (n : Nat) (f : Agent → Agent) : (s.updAgent n f).pend = s.pend := rfl
@[simp] theorem State.updAgent_blocks (s : State) (n : Nat) (f : Agent → Agent) : (s.updAgent n f).blocks = s.blocks := rfl
@[simp] theorem State.updAgent_gangs (s : State) (n : Nat) (f : Agent → Agent) : (s.updAgent n f).gangs = s.gangs := rfl
@[simp] theorem State.updAgent_launches (s : State) (n : Nat) (f : Agent → Agent) : (s.updAgent n f).launches = s.launches := rfl
@[simp] theorem State.updAgent_queues (s : State) (n : Nat) (f : Agent → Agent) : (s.updAgent n f).queues = s.queues := rfl
@[simp] theorem State.updAgent_nextLaunch (s : State) (n : Nat) (f : Agent → Agent) : (s.updAgent n f).nextLaunch = s.nextLaunch := rfl
@[simp] theorem State.updAgent_slotRuns (s : State) (n : Nat) (f : Agent → Agent) : (s.updAgent n f).slotRuns = s.slotRuns := rfl
@[simp] theorem State.updAgent_hostTlbis (s : State) (n : Nat) (f : Agent → Agent) : (s.updAgent n f).hostTlbis = s.hostTlbis := rfl
@[simp] theorem State.updAgent_ctxs (s : State) (n : Nat) (f : Agent → Agent) : (s.updAgent n f).ctxs = s.ctxs := rfl
@[simp] theorem State.updAgent_tlb (s : State) (n : Nat) (f : Agent → Agent) : (s.updAgent n f).tlb = s.tlb := rfl
@[simp] theorem State.updAgent_fetch (s : State) (n : Nat) (f : Agent → Agent) : (s.updAgent n f).fetch = s.fetch := rfl
@[simp] theorem State.updAgent_fills (s : State) (n : Nat) (f : Agent → Agent) : (s.updAgent n f).fills = s.fills := rfl
@[simp] theorem State.updAgent_asks (s : State) (n : Nat) (f : Agent → Agent) : (s.updAgent n f).asks = s.asks := rfl
@[simp] theorem State.updAgent_rkLines (s : State) (n : Nat) (f : Agent → Agent) : (s.updAgent n f).rkLines = s.rkLines := rfl
@[simp] theorem State.updAgent_pins (s : State) (n : Nat) (f : Agent → Agent) : (s.updAgent n f).pins = s.pins := rfl
@[simp] theorem State.updAgent_jobs (s : State) (n : Nat) (f : Agent → Agent) : (s.updAgent n f).jobs = s.jobs := rfl
@[simp] theorem State.updAgent_colls (s : State) (n : Nat) (f : Agent → Agent) : (s.updAgent n f).colls = s.colls := rfl
@[simp] theorem State.updAgent_books (s : State) (n : Nat) (f : Agent → Agent) : (s.updAgent n f).books = s.books := rfl
@[simp] theorem State.updAgent_chanTs (s : State) (n : Nat) (f : Agent → Agent) : (s.updAgent n f).chanTs = s.chanTs := rfl
@[simp] theorem State.updAgent_stageHolds (s : State) (n : Nat) (f : Agent → Agent) : (s.updAgent n f).stageHolds = s.stageHolds := rfl
@[simp] theorem State.updAgent_links (s : State) (n : Nat) (f : Agent → Agent) : (s.updAgent n f).links = s.links := rfl
@[simp] theorem State.updAgent_regs (s : State) (n : Nat) (f : Agent → Agent) : (s.updAgent n f).regs = s.regs := rfl
@[simp] theorem State.updAgent_events (s : State) (n : Nat) (f : Agent → Agent) : (s.updAgent n f).events = s.events := rfl
@[simp] theorem State.updAgent_signals (s : State) (n : Nat) (f : Agent → Agent) : (s.updAgent n f).signals = s.signals := rfl
@[simp] theorem State.updAgent_stops (s : State) (n : Nat) (f : Agent → Agent) : (s.updAgent n f).stops = s.stops := rfl
@[simp] theorem State.updAgent_stalls (s : State) (n : Nat) (f : Agent → Agent) : (s.updAgent n f).stalls = s.stalls := rfl
@[simp] theorem State.updAgent_issued (s : State) (n : Nat) (f : Agent → Agent) : (s.updAgent n f).issued = s.issued := rfl
@[simp] theorem State.updAgent_cores (s : State) (n : Nat) (f : Agent → Agent) : (s.updAgent n f).cores = s.cores := rfl
@[simp] theorem State.updAgent_sensors (s : State) (n : Nat) (f : Agent → Agent) : (s.updAgent n f).sensors = s.sensors := rfl
@[simp] theorem State.updAgent_banks (s : State) (n : Nat) (f : Agent → Agent) : (s.updAgent n f).banks = s.banks := rfl
@[simp] theorem State.updAgent_testers (s : State) (n : Nat) (f : Agent → Agent) : (s.updAgent n f).testers = s.testers := rfl
@[simp] theorem State.updAgent_sampledIn (s : State) (n : Nat) (f : Agent → Agent) : (s.updAgent n f).sampledIn = s.sampledIn := rfl
@[simp] theorem State.updAgent_allowedIn (s : State) (n : Nat) (f : Agent → Agent) : (s.updAgent n f).allowedIn = s.allowedIn := rfl
@[simp] theorem State.updAgent_rotatedIn (s : State) (n : Nat) (f : Agent → Agent) : (s.updAgent n f).rotatedIn = s.rotatedIn := rfl
@[simp] theorem State.updAgent_ports (s : State) (n : Nat) (f : Agent → Agent) : (s.updAgent n f).ports = s.ports := rfl
@[simp] theorem State.updAgent_disps (s : State) (n : Nat) (f : Agent → Agent) : (s.updAgent n f).disps = s.disps := rfl
@[simp] theorem State.updAgent_trails (s : State) (n : Nat) (f : Agent → Agent) : (s.updAgent n f).trails = s.trails := rfl
@[simp] theorem State.updAgent_attest (s : State) (n : Nat) (f : Agent → Agent) : (s.updAgent n f).attest = s.attest := rfl
@[simp] theorem State.updAgent_pilotLast (s : State) (n : Nat) (f : Agent → Agent) : (s.updAgent n f).pilotLast = s.pilotLast := rfl
@[simp] theorem State.updAgent_power (s : State) (n : Nat) (f : Agent → Agent) : (s.updAgent n f).power = s.power := rfl
@[simp] theorem State.updAgent_overSince (s : State) (n : Nat) (f : Agent → Agent) : (s.updAgent n f).overSince = s.overSince := rfl
@[simp] theorem State.updAgent_cur (s : State) (n : Nat) (f : Agent → Agent) : (s.updAgent n f).cur = s.cur := rfl
@[simp] theorem State.updAgent_agenda (s : State) (n : Nat) (f : Agent → Agent) : (s.updAgent n f).agenda = s.agenda := rfl
@[simp] theorem State.updBlock_tick (s : State) (g : GangKey) (role : Nat) (f : Block → Block) : (s.updBlock g role f).tick = s.tick := rfl
@[simp] theorem State.updBlock_clk (s : State) (g : GangKey) (role : Nat) (f : Block → Block) : (s.updBlock g role f).clk = s.clk := rfl
@[simp] theorem State.updBlock_clkFrac (s : State) (g : GangKey) (role : Nat) (f : Block → Block) : (s.updBlock g role f).clkFrac = s.clkFrac := rfl
@[simp] theorem State.updBlock_loc (s : State) (g : GangKey) (role : Nat) (f : Block → Block) : (s.updBlock g role f).loc = s.loc := rfl
@[simp] theorem State.updBlock_host (s : State) (g : GangKey) (role : Nat) (f : Block → Block) : (s.updBlock g role f).host = s.host := rfl
@[simp] theorem State.updBlock_peer (s : State) (g : GangKey) (role : Nat) (f : Block → Block) : (s.updBlock g role f).peer = s.peer := rfl
@[simp] theorem State.updBlock_pool (s : State) (g : GangKey) (role : Nat) (f : Block → Block) : (s.updBlock g role f).pool = s.pool := rfl
@[simp] theorem State.updBlock_rkmem (s : State) (g : GangKey) (role : Nat) (f : Block → Block) : (s.updBlock g role f).rkmem = s.rkmem := rfl
@[simp] theorem State.updBlock_homes (s : State) (g : GangKey) (role : Nat) (f : Block → Block) : (s.updBlock g role f).homes = s.homes := rfl
@[simp] theorem State.updBlock_copies (s : State) (g : GangKey) (role : Nat) (f : Block → Block) : (s.updBlock g role f).copies = s.copies := rfl
@[simp] theorem State.updBlock_relaxed (s : State) (g : GangKey) (role : Nat) (f : Block → Block) : (s.updBlock g role f).relaxed = s.relaxed := rfl
@[simp] theorem State.updBlock_releases (s : State) (g : GangKey) (role : Nat) (f : Block → Block) : (s.updBlock g role f).releases = s.releases := rfl
@[simp] theorem State.updBlock_poison (s : State) (g : GangKey) (role : Nat) (f : Block → Block) : (s.updBlock g role f).poison = s.poison := rfl
@[simp] theorem State.updBlock_extClk (s : State) (g : GangKey) (role : Nat) (f : Block → Block) : (s.updBlock g role f).extClk = s.extClk := rfl
@[simp] theorem State.updBlock_seq (s : State) (g : GangKey) (role : Nat) (f : Block → Block) : (s.updBlock g role f).seq = s.seq := rfl
@[simp] theorem State.updBlock_leases (s : State) (g : GangKey) (role : Nat) (f : Block → Block) : (s.updBlock g role f).leases = s.leases := rfl
@[simp] theorem State.updBlock_fresh (s : State) (g : GangKey) (role : Nat) (f : Block → Block) : (s.updBlock g role f).fresh = s.fresh := rfl
@[simp] theorem State.updBlock_nextId (s : State) (g : GangKey) (role : Nat) (f : Block → Block) : (s.updBlock g role f).nextId = s.nextId := rfl
@[simp] theorem State.updBlock_agents (s : State) (g : GangKey) (role : Nat) (f : Block → Block) : (s.updBlock g role f).agents = s.agents := rfl
@[simp] theorem State.updBlock_pend (s : State) (g : GangKey) (role : Nat) (f : Block → Block) : (s.updBlock g role f).pend = s.pend := rfl
@[simp] theorem State.updBlock_gangs (s : State) (g : GangKey) (role : Nat) (f : Block → Block) : (s.updBlock g role f).gangs = s.gangs := rfl
@[simp] theorem State.updBlock_launches (s : State) (g : GangKey) (role : Nat) (f : Block → Block) : (s.updBlock g role f).launches = s.launches := rfl
@[simp] theorem State.updBlock_queues (s : State) (g : GangKey) (role : Nat) (f : Block → Block) : (s.updBlock g role f).queues = s.queues := rfl
@[simp] theorem State.updBlock_nextLaunch (s : State) (g : GangKey) (role : Nat) (f : Block → Block) : (s.updBlock g role f).nextLaunch = s.nextLaunch := rfl
@[simp] theorem State.updBlock_slotRuns (s : State) (g : GangKey) (role : Nat) (f : Block → Block) : (s.updBlock g role f).slotRuns = s.slotRuns := rfl
@[simp] theorem State.updBlock_hostTlbis (s : State) (g : GangKey) (role : Nat) (f : Block → Block) : (s.updBlock g role f).hostTlbis = s.hostTlbis := rfl
@[simp] theorem State.updBlock_ctxs (s : State) (g : GangKey) (role : Nat) (f : Block → Block) : (s.updBlock g role f).ctxs = s.ctxs := rfl
@[simp] theorem State.updBlock_tlb (s : State) (g : GangKey) (role : Nat) (f : Block → Block) : (s.updBlock g role f).tlb = s.tlb := rfl
@[simp] theorem State.updBlock_fetch (s : State) (g : GangKey) (role : Nat) (f : Block → Block) : (s.updBlock g role f).fetch = s.fetch := rfl
@[simp] theorem State.updBlock_fills (s : State) (g : GangKey) (role : Nat) (f : Block → Block) : (s.updBlock g role f).fills = s.fills := rfl
@[simp] theorem State.updBlock_asks (s : State) (g : GangKey) (role : Nat) (f : Block → Block) : (s.updBlock g role f).asks = s.asks := rfl
@[simp] theorem State.updBlock_rkLines (s : State) (g : GangKey) (role : Nat) (f : Block → Block) : (s.updBlock g role f).rkLines = s.rkLines := rfl
@[simp] theorem State.updBlock_pins (s : State) (g : GangKey) (role : Nat) (f : Block → Block) : (s.updBlock g role f).pins = s.pins := rfl
@[simp] theorem State.updBlock_jobs (s : State) (g : GangKey) (role : Nat) (f : Block → Block) : (s.updBlock g role f).jobs = s.jobs := rfl
@[simp] theorem State.updBlock_colls (s : State) (g : GangKey) (role : Nat) (f : Block → Block) : (s.updBlock g role f).colls = s.colls := rfl
@[simp] theorem State.updBlock_books (s : State) (g : GangKey) (role : Nat) (f : Block → Block) : (s.updBlock g role f).books = s.books := rfl
@[simp] theorem State.updBlock_chanTs (s : State) (g : GangKey) (role : Nat) (f : Block → Block) : (s.updBlock g role f).chanTs = s.chanTs := rfl
@[simp] theorem State.updBlock_stageHolds (s : State) (g : GangKey) (role : Nat) (f : Block → Block) : (s.updBlock g role f).stageHolds = s.stageHolds := rfl
@[simp] theorem State.updBlock_links (s : State) (g : GangKey) (role : Nat) (f : Block → Block) : (s.updBlock g role f).links = s.links := rfl
@[simp] theorem State.updBlock_regs (s : State) (g : GangKey) (role : Nat) (f : Block → Block) : (s.updBlock g role f).regs = s.regs := rfl
@[simp] theorem State.updBlock_events (s : State) (g : GangKey) (role : Nat) (f : Block → Block) : (s.updBlock g role f).events = s.events := rfl
@[simp] theorem State.updBlock_signals (s : State) (g : GangKey) (role : Nat) (f : Block → Block) : (s.updBlock g role f).signals = s.signals := rfl
@[simp] theorem State.updBlock_stops (s : State) (g : GangKey) (role : Nat) (f : Block → Block) : (s.updBlock g role f).stops = s.stops := rfl
@[simp] theorem State.updBlock_stalls (s : State) (g : GangKey) (role : Nat) (f : Block → Block) : (s.updBlock g role f).stalls = s.stalls := rfl
@[simp] theorem State.updBlock_issued (s : State) (g : GangKey) (role : Nat) (f : Block → Block) : (s.updBlock g role f).issued = s.issued := rfl
@[simp] theorem State.updBlock_cores (s : State) (g : GangKey) (role : Nat) (f : Block → Block) : (s.updBlock g role f).cores = s.cores := rfl
@[simp] theorem State.updBlock_sensors (s : State) (g : GangKey) (role : Nat) (f : Block → Block) : (s.updBlock g role f).sensors = s.sensors := rfl
@[simp] theorem State.updBlock_banks (s : State) (g : GangKey) (role : Nat) (f : Block → Block) : (s.updBlock g role f).banks = s.banks := rfl
@[simp] theorem State.updBlock_testers (s : State) (g : GangKey) (role : Nat) (f : Block → Block) : (s.updBlock g role f).testers = s.testers := rfl
@[simp] theorem State.updBlock_sampledIn (s : State) (g : GangKey) (role : Nat) (f : Block → Block) : (s.updBlock g role f).sampledIn = s.sampledIn := rfl
@[simp] theorem State.updBlock_allowedIn (s : State) (g : GangKey) (role : Nat) (f : Block → Block) : (s.updBlock g role f).allowedIn = s.allowedIn := rfl
@[simp] theorem State.updBlock_rotatedIn (s : State) (g : GangKey) (role : Nat) (f : Block → Block) : (s.updBlock g role f).rotatedIn = s.rotatedIn := rfl
@[simp] theorem State.updBlock_ports (s : State) (g : GangKey) (role : Nat) (f : Block → Block) : (s.updBlock g role f).ports = s.ports := rfl
@[simp] theorem State.updBlock_disps (s : State) (g : GangKey) (role : Nat) (f : Block → Block) : (s.updBlock g role f).disps = s.disps := rfl
@[simp] theorem State.updBlock_trails (s : State) (g : GangKey) (role : Nat) (f : Block → Block) : (s.updBlock g role f).trails = s.trails := rfl
@[simp] theorem State.updBlock_attest (s : State) (g : GangKey) (role : Nat) (f : Block → Block) : (s.updBlock g role f).attest = s.attest := rfl
@[simp] theorem State.updBlock_pilotLast (s : State) (g : GangKey) (role : Nat) (f : Block → Block) : (s.updBlock g role f).pilotLast = s.pilotLast := rfl
@[simp] theorem State.updBlock_power (s : State) (g : GangKey) (role : Nat) (f : Block → Block) : (s.updBlock g role f).power = s.power := rfl
@[simp] theorem State.updBlock_overSince (s : State) (g : GangKey) (role : Nat) (f : Block → Block) : (s.updBlock g role f).overSince = s.overSince := rfl
@[simp] theorem State.updBlock_cur (s : State) (g : GangKey) (role : Nat) (f : Block → Block) : (s.updBlock g role f).cur = s.cur := rfl
@[simp] theorem State.updBlock_agenda (s : State) (g : GangKey) (role : Nat) (f : Block → Block) : (s.updBlock g role f).agenda = s.agenda := rfl
@[simp] theorem State.updGang_tick (s : State) (g : GangKey) (f : Gang → Gang) : (s.updGang g f).tick = s.tick := rfl
@[simp] theorem State.updGang_clk (s : State) (g : GangKey) (f : Gang → Gang) : (s.updGang g f).clk = s.clk := rfl
@[simp] theorem State.updGang_clkFrac (s : State) (g : GangKey) (f : Gang → Gang) : (s.updGang g f).clkFrac = s.clkFrac := rfl
@[simp] theorem State.updGang_loc (s : State) (g : GangKey) (f : Gang → Gang) : (s.updGang g f).loc = s.loc := rfl
@[simp] theorem State.updGang_host (s : State) (g : GangKey) (f : Gang → Gang) : (s.updGang g f).host = s.host := rfl
@[simp] theorem State.updGang_peer (s : State) (g : GangKey) (f : Gang → Gang) : (s.updGang g f).peer = s.peer := rfl
@[simp] theorem State.updGang_pool (s : State) (g : GangKey) (f : Gang → Gang) : (s.updGang g f).pool = s.pool := rfl
@[simp] theorem State.updGang_rkmem (s : State) (g : GangKey) (f : Gang → Gang) : (s.updGang g f).rkmem = s.rkmem := rfl
@[simp] theorem State.updGang_homes (s : State) (g : GangKey) (f : Gang → Gang) : (s.updGang g f).homes = s.homes := rfl
@[simp] theorem State.updGang_copies (s : State) (g : GangKey) (f : Gang → Gang) : (s.updGang g f).copies = s.copies := rfl
@[simp] theorem State.updGang_relaxed (s : State) (g : GangKey) (f : Gang → Gang) : (s.updGang g f).relaxed = s.relaxed := rfl
@[simp] theorem State.updGang_releases (s : State) (g : GangKey) (f : Gang → Gang) : (s.updGang g f).releases = s.releases := rfl
@[simp] theorem State.updGang_poison (s : State) (g : GangKey) (f : Gang → Gang) : (s.updGang g f).poison = s.poison := rfl
@[simp] theorem State.updGang_extClk (s : State) (g : GangKey) (f : Gang → Gang) : (s.updGang g f).extClk = s.extClk := rfl
@[simp] theorem State.updGang_seq (s : State) (g : GangKey) (f : Gang → Gang) : (s.updGang g f).seq = s.seq := rfl
@[simp] theorem State.updGang_leases (s : State) (g : GangKey) (f : Gang → Gang) : (s.updGang g f).leases = s.leases := rfl
@[simp] theorem State.updGang_fresh (s : State) (g : GangKey) (f : Gang → Gang) : (s.updGang g f).fresh = s.fresh := rfl
@[simp] theorem State.updGang_nextId (s : State) (g : GangKey) (f : Gang → Gang) : (s.updGang g f).nextId = s.nextId := rfl
@[simp] theorem State.updGang_agents (s : State) (g : GangKey) (f : Gang → Gang) : (s.updGang g f).agents = s.agents := rfl
@[simp] theorem State.updGang_pend (s : State) (g : GangKey) (f : Gang → Gang) : (s.updGang g f).pend = s.pend := rfl
@[simp] theorem State.updGang_blocks (s : State) (g : GangKey) (f : Gang → Gang) : (s.updGang g f).blocks = s.blocks := rfl
@[simp] theorem State.updGang_launches (s : State) (g : GangKey) (f : Gang → Gang) : (s.updGang g f).launches = s.launches := rfl
@[simp] theorem State.updGang_queues (s : State) (g : GangKey) (f : Gang → Gang) : (s.updGang g f).queues = s.queues := rfl
@[simp] theorem State.updGang_nextLaunch (s : State) (g : GangKey) (f : Gang → Gang) : (s.updGang g f).nextLaunch = s.nextLaunch := rfl
@[simp] theorem State.updGang_slotRuns (s : State) (g : GangKey) (f : Gang → Gang) : (s.updGang g f).slotRuns = s.slotRuns := rfl
@[simp] theorem State.updGang_hostTlbis (s : State) (g : GangKey) (f : Gang → Gang) : (s.updGang g f).hostTlbis = s.hostTlbis := rfl
@[simp] theorem State.updGang_ctxs (s : State) (g : GangKey) (f : Gang → Gang) : (s.updGang g f).ctxs = s.ctxs := rfl
@[simp] theorem State.updGang_tlb (s : State) (g : GangKey) (f : Gang → Gang) : (s.updGang g f).tlb = s.tlb := rfl
@[simp] theorem State.updGang_fetch (s : State) (g : GangKey) (f : Gang → Gang) : (s.updGang g f).fetch = s.fetch := rfl
@[simp] theorem State.updGang_fills (s : State) (g : GangKey) (f : Gang → Gang) : (s.updGang g f).fills = s.fills := rfl
@[simp] theorem State.updGang_asks (s : State) (g : GangKey) (f : Gang → Gang) : (s.updGang g f).asks = s.asks := rfl
@[simp] theorem State.updGang_rkLines (s : State) (g : GangKey) (f : Gang → Gang) : (s.updGang g f).rkLines = s.rkLines := rfl
@[simp] theorem State.updGang_pins (s : State) (g : GangKey) (f : Gang → Gang) : (s.updGang g f).pins = s.pins := rfl
@[simp] theorem State.updGang_jobs (s : State) (g : GangKey) (f : Gang → Gang) : (s.updGang g f).jobs = s.jobs := rfl
@[simp] theorem State.updGang_colls (s : State) (g : GangKey) (f : Gang → Gang) : (s.updGang g f).colls = s.colls := rfl
@[simp] theorem State.updGang_books (s : State) (g : GangKey) (f : Gang → Gang) : (s.updGang g f).books = s.books := rfl
@[simp] theorem State.updGang_chanTs (s : State) (g : GangKey) (f : Gang → Gang) : (s.updGang g f).chanTs = s.chanTs := rfl
@[simp] theorem State.updGang_stageHolds (s : State) (g : GangKey) (f : Gang → Gang) : (s.updGang g f).stageHolds = s.stageHolds := rfl
@[simp] theorem State.updGang_links (s : State) (g : GangKey) (f : Gang → Gang) : (s.updGang g f).links = s.links := rfl
@[simp] theorem State.updGang_regs (s : State) (g : GangKey) (f : Gang → Gang) : (s.updGang g f).regs = s.regs := rfl
@[simp] theorem State.updGang_events (s : State) (g : GangKey) (f : Gang → Gang) : (s.updGang g f).events = s.events := rfl
@[simp] theorem State.updGang_signals (s : State) (g : GangKey) (f : Gang → Gang) : (s.updGang g f).signals = s.signals := rfl
@[simp] theorem State.updGang_stops (s : State) (g : GangKey) (f : Gang → Gang) : (s.updGang g f).stops = s.stops := rfl
@[simp] theorem State.updGang_stalls (s : State) (g : GangKey) (f : Gang → Gang) : (s.updGang g f).stalls = s.stalls := rfl
@[simp] theorem State.updGang_issued (s : State) (g : GangKey) (f : Gang → Gang) : (s.updGang g f).issued = s.issued := rfl
@[simp] theorem State.updGang_cores (s : State) (g : GangKey) (f : Gang → Gang) : (s.updGang g f).cores = s.cores := rfl
@[simp] theorem State.updGang_sensors (s : State) (g : GangKey) (f : Gang → Gang) : (s.updGang g f).sensors = s.sensors := rfl
@[simp] theorem State.updGang_banks (s : State) (g : GangKey) (f : Gang → Gang) : (s.updGang g f).banks = s.banks := rfl
@[simp] theorem State.updGang_testers (s : State) (g : GangKey) (f : Gang → Gang) : (s.updGang g f).testers = s.testers := rfl
@[simp] theorem State.updGang_sampledIn (s : State) (g : GangKey) (f : Gang → Gang) : (s.updGang g f).sampledIn = s.sampledIn := rfl
@[simp] theorem State.updGang_allowedIn (s : State) (g : GangKey) (f : Gang → Gang) : (s.updGang g f).allowedIn = s.allowedIn := rfl
@[simp] theorem State.updGang_rotatedIn (s : State) (g : GangKey) (f : Gang → Gang) : (s.updGang g f).rotatedIn = s.rotatedIn := rfl
@[simp] theorem State.updGang_ports (s : State) (g : GangKey) (f : Gang → Gang) : (s.updGang g f).ports = s.ports := rfl
@[simp] theorem State.updGang_disps (s : State) (g : GangKey) (f : Gang → Gang) : (s.updGang g f).disps = s.disps := rfl
@[simp] theorem State.updGang_trails (s : State) (g : GangKey) (f : Gang → Gang) : (s.updGang g f).trails = s.trails := rfl
@[simp] theorem State.updGang_attest (s : State) (g : GangKey) (f : Gang → Gang) : (s.updGang g f).attest = s.attest := rfl
@[simp] theorem State.updGang_pilotLast (s : State) (g : GangKey) (f : Gang → Gang) : (s.updGang g f).pilotLast = s.pilotLast := rfl
@[simp] theorem State.updGang_power (s : State) (g : GangKey) (f : Gang → Gang) : (s.updGang g f).power = s.power := rfl
@[simp] theorem State.updGang_overSince (s : State) (g : GangKey) (f : Gang → Gang) : (s.updGang g f).overSince = s.overSince := rfl
@[simp] theorem State.updGang_cur (s : State) (g : GangKey) (f : Gang → Gang) : (s.updGang g f).cur = s.cur := rfl
@[simp] theorem State.updGang_agenda (s : State) (g : GangKey) (f : Gang → Gang) : (s.updGang g f).agenda = s.agenda := rfl
@[simp] theorem State.updCtx_tick (s : State) (c : Nat) (f : Ctx → Ctx) : (s.updCtx c f).tick = s.tick := rfl
@[simp] theorem State.updCtx_clk (s : State) (c : Nat) (f : Ctx → Ctx) : (s.updCtx c f).clk = s.clk := rfl
@[simp] theorem State.updCtx_clkFrac (s : State) (c : Nat) (f : Ctx → Ctx) : (s.updCtx c f).clkFrac = s.clkFrac := rfl
@[simp] theorem State.updCtx_loc (s : State) (c : Nat) (f : Ctx → Ctx) : (s.updCtx c f).loc = s.loc := rfl
@[simp] theorem State.updCtx_host (s : State) (c : Nat) (f : Ctx → Ctx) : (s.updCtx c f).host = s.host := rfl
@[simp] theorem State.updCtx_peer (s : State) (c : Nat) (f : Ctx → Ctx) : (s.updCtx c f).peer = s.peer := rfl
@[simp] theorem State.updCtx_pool (s : State) (c : Nat) (f : Ctx → Ctx) : (s.updCtx c f).pool = s.pool := rfl
@[simp] theorem State.updCtx_rkmem (s : State) (c : Nat) (f : Ctx → Ctx) : (s.updCtx c f).rkmem = s.rkmem := rfl
@[simp] theorem State.updCtx_homes (s : State) (c : Nat) (f : Ctx → Ctx) : (s.updCtx c f).homes = s.homes := rfl
@[simp] theorem State.updCtx_copies (s : State) (c : Nat) (f : Ctx → Ctx) : (s.updCtx c f).copies = s.copies := rfl
@[simp] theorem State.updCtx_relaxed (s : State) (c : Nat) (f : Ctx → Ctx) : (s.updCtx c f).relaxed = s.relaxed := rfl
@[simp] theorem State.updCtx_releases (s : State) (c : Nat) (f : Ctx → Ctx) : (s.updCtx c f).releases = s.releases := rfl
@[simp] theorem State.updCtx_poison (s : State) (c : Nat) (f : Ctx → Ctx) : (s.updCtx c f).poison = s.poison := rfl
@[simp] theorem State.updCtx_extClk (s : State) (c : Nat) (f : Ctx → Ctx) : (s.updCtx c f).extClk = s.extClk := rfl
@[simp] theorem State.updCtx_seq (s : State) (c : Nat) (f : Ctx → Ctx) : (s.updCtx c f).seq = s.seq := rfl
@[simp] theorem State.updCtx_leases (s : State) (c : Nat) (f : Ctx → Ctx) : (s.updCtx c f).leases = s.leases := rfl
@[simp] theorem State.updCtx_fresh (s : State) (c : Nat) (f : Ctx → Ctx) : (s.updCtx c f).fresh = s.fresh := rfl
@[simp] theorem State.updCtx_nextId (s : State) (c : Nat) (f : Ctx → Ctx) : (s.updCtx c f).nextId = s.nextId := rfl
@[simp] theorem State.updCtx_agents (s : State) (c : Nat) (f : Ctx → Ctx) : (s.updCtx c f).agents = s.agents := rfl
@[simp] theorem State.updCtx_pend (s : State) (c : Nat) (f : Ctx → Ctx) : (s.updCtx c f).pend = s.pend := rfl
@[simp] theorem State.updCtx_blocks (s : State) (c : Nat) (f : Ctx → Ctx) : (s.updCtx c f).blocks = s.blocks := rfl
@[simp] theorem State.updCtx_gangs (s : State) (c : Nat) (f : Ctx → Ctx) : (s.updCtx c f).gangs = s.gangs := rfl
@[simp] theorem State.updCtx_launches (s : State) (c : Nat) (f : Ctx → Ctx) : (s.updCtx c f).launches = s.launches := rfl
@[simp] theorem State.updCtx_queues (s : State) (c : Nat) (f : Ctx → Ctx) : (s.updCtx c f).queues = s.queues := rfl
@[simp] theorem State.updCtx_nextLaunch (s : State) (c : Nat) (f : Ctx → Ctx) : (s.updCtx c f).nextLaunch = s.nextLaunch := rfl
@[simp] theorem State.updCtx_slotRuns (s : State) (c : Nat) (f : Ctx → Ctx) : (s.updCtx c f).slotRuns = s.slotRuns := rfl
@[simp] theorem State.updCtx_hostTlbis (s : State) (c : Nat) (f : Ctx → Ctx) : (s.updCtx c f).hostTlbis = s.hostTlbis := rfl
@[simp] theorem State.updCtx_tlb (s : State) (c : Nat) (f : Ctx → Ctx) : (s.updCtx c f).tlb = s.tlb := rfl
@[simp] theorem State.updCtx_fetch (s : State) (c : Nat) (f : Ctx → Ctx) : (s.updCtx c f).fetch = s.fetch := rfl
@[simp] theorem State.updCtx_fills (s : State) (c : Nat) (f : Ctx → Ctx) : (s.updCtx c f).fills = s.fills := rfl
@[simp] theorem State.updCtx_asks (s : State) (c : Nat) (f : Ctx → Ctx) : (s.updCtx c f).asks = s.asks := rfl
@[simp] theorem State.updCtx_rkLines (s : State) (c : Nat) (f : Ctx → Ctx) : (s.updCtx c f).rkLines = s.rkLines := rfl
@[simp] theorem State.updCtx_pins (s : State) (c : Nat) (f : Ctx → Ctx) : (s.updCtx c f).pins = s.pins := rfl
@[simp] theorem State.updCtx_jobs (s : State) (c : Nat) (f : Ctx → Ctx) : (s.updCtx c f).jobs = s.jobs := rfl
@[simp] theorem State.updCtx_colls (s : State) (c : Nat) (f : Ctx → Ctx) : (s.updCtx c f).colls = s.colls := rfl
@[simp] theorem State.updCtx_books (s : State) (c : Nat) (f : Ctx → Ctx) : (s.updCtx c f).books = s.books := rfl
@[simp] theorem State.updCtx_chanTs (s : State) (c : Nat) (f : Ctx → Ctx) : (s.updCtx c f).chanTs = s.chanTs := rfl
@[simp] theorem State.updCtx_stageHolds (s : State) (c : Nat) (f : Ctx → Ctx) : (s.updCtx c f).stageHolds = s.stageHolds := rfl
@[simp] theorem State.updCtx_links (s : State) (c : Nat) (f : Ctx → Ctx) : (s.updCtx c f).links = s.links := rfl
@[simp] theorem State.updCtx_regs (s : State) (c : Nat) (f : Ctx → Ctx) : (s.updCtx c f).regs = s.regs := rfl
@[simp] theorem State.updCtx_events (s : State) (c : Nat) (f : Ctx → Ctx) : (s.updCtx c f).events = s.events := rfl
@[simp] theorem State.updCtx_signals (s : State) (c : Nat) (f : Ctx → Ctx) : (s.updCtx c f).signals = s.signals := rfl
@[simp] theorem State.updCtx_stops (s : State) (c : Nat) (f : Ctx → Ctx) : (s.updCtx c f).stops = s.stops := rfl
@[simp] theorem State.updCtx_stalls (s : State) (c : Nat) (f : Ctx → Ctx) : (s.updCtx c f).stalls = s.stalls := rfl
@[simp] theorem State.updCtx_issued (s : State) (c : Nat) (f : Ctx → Ctx) : (s.updCtx c f).issued = s.issued := rfl
@[simp] theorem State.updCtx_cores (s : State) (c : Nat) (f : Ctx → Ctx) : (s.updCtx c f).cores = s.cores := rfl
@[simp] theorem State.updCtx_sensors (s : State) (c : Nat) (f : Ctx → Ctx) : (s.updCtx c f).sensors = s.sensors := rfl
@[simp] theorem State.updCtx_banks (s : State) (c : Nat) (f : Ctx → Ctx) : (s.updCtx c f).banks = s.banks := rfl
@[simp] theorem State.updCtx_testers (s : State) (c : Nat) (f : Ctx → Ctx) : (s.updCtx c f).testers = s.testers := rfl
@[simp] theorem State.updCtx_sampledIn (s : State) (c : Nat) (f : Ctx → Ctx) : (s.updCtx c f).sampledIn = s.sampledIn := rfl
@[simp] theorem State.updCtx_allowedIn (s : State) (c : Nat) (f : Ctx → Ctx) : (s.updCtx c f).allowedIn = s.allowedIn := rfl
@[simp] theorem State.updCtx_rotatedIn (s : State) (c : Nat) (f : Ctx → Ctx) : (s.updCtx c f).rotatedIn = s.rotatedIn := rfl
@[simp] theorem State.updCtx_ports (s : State) (c : Nat) (f : Ctx → Ctx) : (s.updCtx c f).ports = s.ports := rfl
@[simp] theorem State.updCtx_disps (s : State) (c : Nat) (f : Ctx → Ctx) : (s.updCtx c f).disps = s.disps := rfl
@[simp] theorem State.updCtx_trails (s : State) (c : Nat) (f : Ctx → Ctx) : (s.updCtx c f).trails = s.trails := rfl
@[simp] theorem State.updCtx_attest (s : State) (c : Nat) (f : Ctx → Ctx) : (s.updCtx c f).attest = s.attest := rfl
@[simp] theorem State.updCtx_pilotLast (s : State) (c : Nat) (f : Ctx → Ctx) : (s.updCtx c f).pilotLast = s.pilotLast := rfl
@[simp] theorem State.updCtx_power (s : State) (c : Nat) (f : Ctx → Ctx) : (s.updCtx c f).power = s.power := rfl
@[simp] theorem State.updCtx_overSince (s : State) (c : Nat) (f : Ctx → Ctx) : (s.updCtx c f).overSince = s.overSince := rfl
@[simp] theorem State.updCtx_cur (s : State) (c : Nat) (f : Ctx → Ctx) : (s.updCtx c f).cur = s.cur := rfl
@[simp] theorem State.updCtx_agenda (s : State) (c : Nat) (f : Ctx → Ctx) : (s.updCtx c f).agenda = s.agenda := rfl
@[simp] theorem State.setStamp_tick (s : State) (sp : Sp) (line : Nat) (ts : Stamp) : (s.setStamp sp line ts).tick = s.tick := rfl
@[simp] theorem State.setStamp_clk (s : State) (sp : Sp) (line : Nat) (ts : Stamp) : (s.setStamp sp line ts).clk = s.clk := rfl
@[simp] theorem State.setStamp_clkFrac (s : State) (sp : Sp) (line : Nat) (ts : Stamp) : (s.setStamp sp line ts).clkFrac = s.clkFrac := rfl
@[simp] theorem State.setStamp_loc (s : State) (sp : Sp) (line : Nat) (ts : Stamp) : (s.setStamp sp line ts).loc = s.loc := rfl
@[simp] theorem State.setStamp_host (s : State) (sp : Sp) (line : Nat) (ts : Stamp) : (s.setStamp sp line ts).host = s.host := rfl
@[simp] theorem State.setStamp_peer (s : State) (sp : Sp) (line : Nat) (ts : Stamp) : (s.setStamp sp line ts).peer = s.peer := rfl
@[simp] theorem State.setStamp_pool (s : State) (sp : Sp) (line : Nat) (ts : Stamp) : (s.setStamp sp line ts).pool = s.pool := rfl
@[simp] theorem State.setStamp_rkmem (s : State) (sp : Sp) (line : Nat) (ts : Stamp) : (s.setStamp sp line ts).rkmem = s.rkmem := rfl
@[simp] theorem State.setStamp_copies (s : State) (sp : Sp) (line : Nat) (ts : Stamp) : (s.setStamp sp line ts).copies = s.copies := rfl
@[simp] theorem State.setStamp_relaxed (s : State) (sp : Sp) (line : Nat) (ts : Stamp) : (s.setStamp sp line ts).relaxed = s.relaxed := rfl
@[simp] theorem State.setStamp_releases (s : State) (sp : Sp) (line : Nat) (ts : Stamp) : (s.setStamp sp line ts).releases = s.releases := rfl
@[simp] theorem State.setStamp_poison (s : State) (sp : Sp) (line : Nat) (ts : Stamp) : (s.setStamp sp line ts).poison = s.poison := rfl
@[simp] theorem State.setStamp_extClk (s : State) (sp : Sp) (line : Nat) (ts : Stamp) : (s.setStamp sp line ts).extClk = s.extClk := rfl
@[simp] theorem State.setStamp_seq (s : State) (sp : Sp) (line : Nat) (ts : Stamp) : (s.setStamp sp line ts).seq = s.seq := rfl
@[simp] theorem State.setStamp_leases (s : State) (sp : Sp) (line : Nat) (ts : Stamp) : (s.setStamp sp line ts).leases = s.leases := rfl
@[simp] theorem State.setStamp_fresh (s : State) (sp : Sp) (line : Nat) (ts : Stamp) : (s.setStamp sp line ts).fresh = s.fresh := rfl
@[simp] theorem State.setStamp_nextId (s : State) (sp : Sp) (line : Nat) (ts : Stamp) : (s.setStamp sp line ts).nextId = s.nextId := rfl
@[simp] theorem State.setStamp_agents (s : State) (sp : Sp) (line : Nat) (ts : Stamp) : (s.setStamp sp line ts).agents = s.agents := rfl
@[simp] theorem State.setStamp_pend (s : State) (sp : Sp) (line : Nat) (ts : Stamp) : (s.setStamp sp line ts).pend = s.pend := rfl
@[simp] theorem State.setStamp_blocks (s : State) (sp : Sp) (line : Nat) (ts : Stamp) : (s.setStamp sp line ts).blocks = s.blocks := rfl
@[simp] theorem State.setStamp_gangs (s : State) (sp : Sp) (line : Nat) (ts : Stamp) : (s.setStamp sp line ts).gangs = s.gangs := rfl
@[simp] theorem State.setStamp_launches (s : State) (sp : Sp) (line : Nat) (ts : Stamp) : (s.setStamp sp line ts).launches = s.launches := rfl
@[simp] theorem State.setStamp_queues (s : State) (sp : Sp) (line : Nat) (ts : Stamp) : (s.setStamp sp line ts).queues = s.queues := rfl
@[simp] theorem State.setStamp_nextLaunch (s : State) (sp : Sp) (line : Nat) (ts : Stamp) : (s.setStamp sp line ts).nextLaunch = s.nextLaunch := rfl
@[simp] theorem State.setStamp_slotRuns (s : State) (sp : Sp) (line : Nat) (ts : Stamp) : (s.setStamp sp line ts).slotRuns = s.slotRuns := rfl
@[simp] theorem State.setStamp_hostTlbis (s : State) (sp : Sp) (line : Nat) (ts : Stamp) : (s.setStamp sp line ts).hostTlbis = s.hostTlbis := rfl
@[simp] theorem State.setStamp_ctxs (s : State) (sp : Sp) (line : Nat) (ts : Stamp) : (s.setStamp sp line ts).ctxs = s.ctxs := rfl
@[simp] theorem State.setStamp_tlb (s : State) (sp : Sp) (line : Nat) (ts : Stamp) : (s.setStamp sp line ts).tlb = s.tlb := rfl
@[simp] theorem State.setStamp_fetch (s : State) (sp : Sp) (line : Nat) (ts : Stamp) : (s.setStamp sp line ts).fetch = s.fetch := rfl
@[simp] theorem State.setStamp_fills (s : State) (sp : Sp) (line : Nat) (ts : Stamp) : (s.setStamp sp line ts).fills = s.fills := rfl
@[simp] theorem State.setStamp_asks (s : State) (sp : Sp) (line : Nat) (ts : Stamp) : (s.setStamp sp line ts).asks = s.asks := rfl
@[simp] theorem State.setStamp_rkLines (s : State) (sp : Sp) (line : Nat) (ts : Stamp) : (s.setStamp sp line ts).rkLines = s.rkLines := rfl
@[simp] theorem State.setStamp_pins (s : State) (sp : Sp) (line : Nat) (ts : Stamp) : (s.setStamp sp line ts).pins = s.pins := rfl
@[simp] theorem State.setStamp_jobs (s : State) (sp : Sp) (line : Nat) (ts : Stamp) : (s.setStamp sp line ts).jobs = s.jobs := rfl
@[simp] theorem State.setStamp_colls (s : State) (sp : Sp) (line : Nat) (ts : Stamp) : (s.setStamp sp line ts).colls = s.colls := rfl
@[simp] theorem State.setStamp_books (s : State) (sp : Sp) (line : Nat) (ts : Stamp) : (s.setStamp sp line ts).books = s.books := rfl
@[simp] theorem State.setStamp_chanTs (s : State) (sp : Sp) (line : Nat) (ts : Stamp) : (s.setStamp sp line ts).chanTs = s.chanTs := rfl
@[simp] theorem State.setStamp_stageHolds (s : State) (sp : Sp) (line : Nat) (ts : Stamp) : (s.setStamp sp line ts).stageHolds = s.stageHolds := rfl
@[simp] theorem State.setStamp_links (s : State) (sp : Sp) (line : Nat) (ts : Stamp) : (s.setStamp sp line ts).links = s.links := rfl
@[simp] theorem State.setStamp_regs (s : State) (sp : Sp) (line : Nat) (ts : Stamp) : (s.setStamp sp line ts).regs = s.regs := rfl
@[simp] theorem State.setStamp_events (s : State) (sp : Sp) (line : Nat) (ts : Stamp) : (s.setStamp sp line ts).events = s.events := rfl
@[simp] theorem State.setStamp_signals (s : State) (sp : Sp) (line : Nat) (ts : Stamp) : (s.setStamp sp line ts).signals = s.signals := rfl
@[simp] theorem State.setStamp_stops (s : State) (sp : Sp) (line : Nat) (ts : Stamp) : (s.setStamp sp line ts).stops = s.stops := rfl
@[simp] theorem State.setStamp_stalls (s : State) (sp : Sp) (line : Nat) (ts : Stamp) : (s.setStamp sp line ts).stalls = s.stalls := rfl
@[simp] theorem State.setStamp_issued (s : State) (sp : Sp) (line : Nat) (ts : Stamp) : (s.setStamp sp line ts).issued = s.issued := rfl
@[simp] theorem State.setStamp_cores (s : State) (sp : Sp) (line : Nat) (ts : Stamp) : (s.setStamp sp line ts).cores = s.cores := rfl
@[simp] theorem State.setStamp_sensors (s : State) (sp : Sp) (line : Nat) (ts : Stamp) : (s.setStamp sp line ts).sensors = s.sensors := rfl
@[simp] theorem State.setStamp_banks (s : State) (sp : Sp) (line : Nat) (ts : Stamp) : (s.setStamp sp line ts).banks = s.banks := rfl
@[simp] theorem State.setStamp_testers (s : State) (sp : Sp) (line : Nat) (ts : Stamp) : (s.setStamp sp line ts).testers = s.testers := rfl
@[simp] theorem State.setStamp_sampledIn (s : State) (sp : Sp) (line : Nat) (ts : Stamp) : (s.setStamp sp line ts).sampledIn = s.sampledIn := rfl
@[simp] theorem State.setStamp_allowedIn (s : State) (sp : Sp) (line : Nat) (ts : Stamp) : (s.setStamp sp line ts).allowedIn = s.allowedIn := rfl
@[simp] theorem State.setStamp_rotatedIn (s : State) (sp : Sp) (line : Nat) (ts : Stamp) : (s.setStamp sp line ts).rotatedIn = s.rotatedIn := rfl
@[simp] theorem State.setStamp_ports (s : State) (sp : Sp) (line : Nat) (ts : Stamp) : (s.setStamp sp line ts).ports = s.ports := rfl
@[simp] theorem State.setStamp_disps (s : State) (sp : Sp) (line : Nat) (ts : Stamp) : (s.setStamp sp line ts).disps = s.disps := rfl
@[simp] theorem State.setStamp_trails (s : State) (sp : Sp) (line : Nat) (ts : Stamp) : (s.setStamp sp line ts).trails = s.trails := rfl
@[simp] theorem State.setStamp_attest (s : State) (sp : Sp) (line : Nat) (ts : Stamp) : (s.setStamp sp line ts).attest = s.attest := rfl
@[simp] theorem State.setStamp_pilotLast (s : State) (sp : Sp) (line : Nat) (ts : Stamp) : (s.setStamp sp line ts).pilotLast = s.pilotLast := rfl
@[simp] theorem State.setStamp_power (s : State) (sp : Sp) (line : Nat) (ts : Stamp) : (s.setStamp sp line ts).power = s.power := rfl
@[simp] theorem State.setStamp_overSince (s : State) (sp : Sp) (line : Nat) (ts : Stamp) : (s.setStamp sp line ts).overSince = s.overSince := rfl
@[simp] theorem State.setStamp_cur (s : State) (sp : Sp) (line : Nat) (ts : Stamp) : (s.setStamp sp line ts).cur = s.cur := rfl
@[simp] theorem State.setStamp_agenda (s : State) (sp : Sp) (line : Nat) (ts : Stamp) : (s.setStamp sp line ts).agenda = s.agenda := rfl
@[simp] theorem State.mapRegs_tick (s : State) (n : Nat) (f : Regs → Regs) : (s.mapRegs n f).tick = s.tick := rfl
@[simp] theorem State.mapRegs_clk (s : State) (n : Nat) (f : Regs → Regs) : (s.mapRegs n f).clk = s.clk := rfl
@[simp] theorem State.mapRegs_clkFrac (s : State) (n : Nat) (f : Regs → Regs) : (s.mapRegs n f).clkFrac = s.clkFrac := rfl
@[simp] theorem State.mapRegs_loc (s : State) (n : Nat) (f : Regs → Regs) : (s.mapRegs n f).loc = s.loc := rfl
@[simp] theorem State.mapRegs_host (s : State) (n : Nat) (f : Regs → Regs) : (s.mapRegs n f).host = s.host := rfl
@[simp] theorem State.mapRegs_peer (s : State) (n : Nat) (f : Regs → Regs) : (s.mapRegs n f).peer = s.peer := rfl
@[simp] theorem State.mapRegs_pool (s : State) (n : Nat) (f : Regs → Regs) : (s.mapRegs n f).pool = s.pool := rfl
@[simp] theorem State.mapRegs_rkmem (s : State) (n : Nat) (f : Regs → Regs) : (s.mapRegs n f).rkmem = s.rkmem := rfl
@[simp] theorem State.mapRegs_homes (s : State) (n : Nat) (f : Regs → Regs) : (s.mapRegs n f).homes = s.homes := rfl
@[simp] theorem State.mapRegs_copies (s : State) (n : Nat) (f : Regs → Regs) : (s.mapRegs n f).copies = s.copies := rfl
@[simp] theorem State.mapRegs_relaxed (s : State) (n : Nat) (f : Regs → Regs) : (s.mapRegs n f).relaxed = s.relaxed := rfl
@[simp] theorem State.mapRegs_releases (s : State) (n : Nat) (f : Regs → Regs) : (s.mapRegs n f).releases = s.releases := rfl
@[simp] theorem State.mapRegs_poison (s : State) (n : Nat) (f : Regs → Regs) : (s.mapRegs n f).poison = s.poison := rfl
@[simp] theorem State.mapRegs_extClk (s : State) (n : Nat) (f : Regs → Regs) : (s.mapRegs n f).extClk = s.extClk := rfl
@[simp] theorem State.mapRegs_seq (s : State) (n : Nat) (f : Regs → Regs) : (s.mapRegs n f).seq = s.seq := rfl
@[simp] theorem State.mapRegs_leases (s : State) (n : Nat) (f : Regs → Regs) : (s.mapRegs n f).leases = s.leases := rfl
@[simp] theorem State.mapRegs_fresh (s : State) (n : Nat) (f : Regs → Regs) : (s.mapRegs n f).fresh = s.fresh := rfl
@[simp] theorem State.mapRegs_nextId (s : State) (n : Nat) (f : Regs → Regs) : (s.mapRegs n f).nextId = s.nextId := rfl
@[simp] theorem State.mapRegs_pend (s : State) (n : Nat) (f : Regs → Regs) : (s.mapRegs n f).pend = s.pend := rfl
@[simp] theorem State.mapRegs_blocks (s : State) (n : Nat) (f : Regs → Regs) : (s.mapRegs n f).blocks = s.blocks := rfl
@[simp] theorem State.mapRegs_gangs (s : State) (n : Nat) (f : Regs → Regs) : (s.mapRegs n f).gangs = s.gangs := rfl
@[simp] theorem State.mapRegs_launches (s : State) (n : Nat) (f : Regs → Regs) : (s.mapRegs n f).launches = s.launches := rfl
@[simp] theorem State.mapRegs_queues (s : State) (n : Nat) (f : Regs → Regs) : (s.mapRegs n f).queues = s.queues := rfl
@[simp] theorem State.mapRegs_nextLaunch (s : State) (n : Nat) (f : Regs → Regs) : (s.mapRegs n f).nextLaunch = s.nextLaunch := rfl
@[simp] theorem State.mapRegs_slotRuns (s : State) (n : Nat) (f : Regs → Regs) : (s.mapRegs n f).slotRuns = s.slotRuns := rfl
@[simp] theorem State.mapRegs_hostTlbis (s : State) (n : Nat) (f : Regs → Regs) : (s.mapRegs n f).hostTlbis = s.hostTlbis := rfl
@[simp] theorem State.mapRegs_ctxs (s : State) (n : Nat) (f : Regs → Regs) : (s.mapRegs n f).ctxs = s.ctxs := rfl
@[simp] theorem State.mapRegs_tlb (s : State) (n : Nat) (f : Regs → Regs) : (s.mapRegs n f).tlb = s.tlb := rfl
@[simp] theorem State.mapRegs_fetch (s : State) (n : Nat) (f : Regs → Regs) : (s.mapRegs n f).fetch = s.fetch := rfl
@[simp] theorem State.mapRegs_fills (s : State) (n : Nat) (f : Regs → Regs) : (s.mapRegs n f).fills = s.fills := rfl
@[simp] theorem State.mapRegs_asks (s : State) (n : Nat) (f : Regs → Regs) : (s.mapRegs n f).asks = s.asks := rfl
@[simp] theorem State.mapRegs_rkLines (s : State) (n : Nat) (f : Regs → Regs) : (s.mapRegs n f).rkLines = s.rkLines := rfl
@[simp] theorem State.mapRegs_pins (s : State) (n : Nat) (f : Regs → Regs) : (s.mapRegs n f).pins = s.pins := rfl
@[simp] theorem State.mapRegs_jobs (s : State) (n : Nat) (f : Regs → Regs) : (s.mapRegs n f).jobs = s.jobs := rfl
@[simp] theorem State.mapRegs_colls (s : State) (n : Nat) (f : Regs → Regs) : (s.mapRegs n f).colls = s.colls := rfl
@[simp] theorem State.mapRegs_books (s : State) (n : Nat) (f : Regs → Regs) : (s.mapRegs n f).books = s.books := rfl
@[simp] theorem State.mapRegs_chanTs (s : State) (n : Nat) (f : Regs → Regs) : (s.mapRegs n f).chanTs = s.chanTs := rfl
@[simp] theorem State.mapRegs_stageHolds (s : State) (n : Nat) (f : Regs → Regs) : (s.mapRegs n f).stageHolds = s.stageHolds := rfl
@[simp] theorem State.mapRegs_links (s : State) (n : Nat) (f : Regs → Regs) : (s.mapRegs n f).links = s.links := rfl
@[simp] theorem State.mapRegs_regs (s : State) (n : Nat) (f : Regs → Regs) : (s.mapRegs n f).regs = s.regs := rfl
@[simp] theorem State.mapRegs_events (s : State) (n : Nat) (f : Regs → Regs) : (s.mapRegs n f).events = s.events := rfl
@[simp] theorem State.mapRegs_signals (s : State) (n : Nat) (f : Regs → Regs) : (s.mapRegs n f).signals = s.signals := rfl
@[simp] theorem State.mapRegs_stops (s : State) (n : Nat) (f : Regs → Regs) : (s.mapRegs n f).stops = s.stops := rfl
@[simp] theorem State.mapRegs_stalls (s : State) (n : Nat) (f : Regs → Regs) : (s.mapRegs n f).stalls = s.stalls := rfl
@[simp] theorem State.mapRegs_issued (s : State) (n : Nat) (f : Regs → Regs) : (s.mapRegs n f).issued = s.issued := rfl
@[simp] theorem State.mapRegs_cores (s : State) (n : Nat) (f : Regs → Regs) : (s.mapRegs n f).cores = s.cores := rfl
@[simp] theorem State.mapRegs_sensors (s : State) (n : Nat) (f : Regs → Regs) : (s.mapRegs n f).sensors = s.sensors := rfl
@[simp] theorem State.mapRegs_banks (s : State) (n : Nat) (f : Regs → Regs) : (s.mapRegs n f).banks = s.banks := rfl
@[simp] theorem State.mapRegs_testers (s : State) (n : Nat) (f : Regs → Regs) : (s.mapRegs n f).testers = s.testers := rfl
@[simp] theorem State.mapRegs_sampledIn (s : State) (n : Nat) (f : Regs → Regs) : (s.mapRegs n f).sampledIn = s.sampledIn := rfl
@[simp] theorem State.mapRegs_allowedIn (s : State) (n : Nat) (f : Regs → Regs) : (s.mapRegs n f).allowedIn = s.allowedIn := rfl
@[simp] theorem State.mapRegs_rotatedIn (s : State) (n : Nat) (f : Regs → Regs) : (s.mapRegs n f).rotatedIn = s.rotatedIn := rfl
@[simp] theorem State.mapRegs_ports (s : State) (n : Nat) (f : Regs → Regs) : (s.mapRegs n f).ports = s.ports := rfl
@[simp] theorem State.mapRegs_disps (s : State) (n : Nat) (f : Regs → Regs) : (s.mapRegs n f).disps = s.disps := rfl
@[simp] theorem State.mapRegs_trails (s : State) (n : Nat) (f : Regs → Regs) : (s.mapRegs n f).trails = s.trails := rfl
@[simp] theorem State.mapRegs_attest (s : State) (n : Nat) (f : Regs → Regs) : (s.mapRegs n f).attest = s.attest := rfl
@[simp] theorem State.mapRegs_pilotLast (s : State) (n : Nat) (f : Regs → Regs) : (s.mapRegs n f).pilotLast = s.pilotLast := rfl
@[simp] theorem State.mapRegs_power (s : State) (n : Nat) (f : Regs → Regs) : (s.mapRegs n f).power = s.power := rfl
@[simp] theorem State.mapRegs_overSince (s : State) (n : Nat) (f : Regs → Regs) : (s.mapRegs n f).overSince = s.overSince := rfl
@[simp] theorem State.mapRegs_cur (s : State) (n : Nat) (f : Regs → Regs) : (s.mapRegs n f).cur = s.cur := rfl
@[simp] theorem State.mapRegs_agenda (s : State) (n : Nat) (f : Regs → Regs) : (s.mapRegs n f).agenda = s.agenda := rfl
@[simp] theorem State.updPath_tick (s : State) (n p : Nat) (f : Path → Path) : (s.updPath n p f).tick = s.tick := rfl
@[simp] theorem State.updPath_clk (s : State) (n p : Nat) (f : Path → Path) : (s.updPath n p f).clk = s.clk := rfl
@[simp] theorem State.updPath_clkFrac (s : State) (n p : Nat) (f : Path → Path) : (s.updPath n p f).clkFrac = s.clkFrac := rfl
@[simp] theorem State.updPath_loc (s : State) (n p : Nat) (f : Path → Path) : (s.updPath n p f).loc = s.loc := rfl
@[simp] theorem State.updPath_host (s : State) (n p : Nat) (f : Path → Path) : (s.updPath n p f).host = s.host := rfl
@[simp] theorem State.updPath_peer (s : State) (n p : Nat) (f : Path → Path) : (s.updPath n p f).peer = s.peer := rfl
@[simp] theorem State.updPath_pool (s : State) (n p : Nat) (f : Path → Path) : (s.updPath n p f).pool = s.pool := rfl
@[simp] theorem State.updPath_rkmem (s : State) (n p : Nat) (f : Path → Path) : (s.updPath n p f).rkmem = s.rkmem := rfl
@[simp] theorem State.updPath_homes (s : State) (n p : Nat) (f : Path → Path) : (s.updPath n p f).homes = s.homes := rfl
@[simp] theorem State.updPath_copies (s : State) (n p : Nat) (f : Path → Path) : (s.updPath n p f).copies = s.copies := rfl
@[simp] theorem State.updPath_relaxed (s : State) (n p : Nat) (f : Path → Path) : (s.updPath n p f).relaxed = s.relaxed := rfl
@[simp] theorem State.updPath_releases (s : State) (n p : Nat) (f : Path → Path) : (s.updPath n p f).releases = s.releases := rfl
@[simp] theorem State.updPath_poison (s : State) (n p : Nat) (f : Path → Path) : (s.updPath n p f).poison = s.poison := rfl
@[simp] theorem State.updPath_extClk (s : State) (n p : Nat) (f : Path → Path) : (s.updPath n p f).extClk = s.extClk := rfl
@[simp] theorem State.updPath_seq (s : State) (n p : Nat) (f : Path → Path) : (s.updPath n p f).seq = s.seq := rfl
@[simp] theorem State.updPath_leases (s : State) (n p : Nat) (f : Path → Path) : (s.updPath n p f).leases = s.leases := rfl
@[simp] theorem State.updPath_fresh (s : State) (n p : Nat) (f : Path → Path) : (s.updPath n p f).fresh = s.fresh := rfl
@[simp] theorem State.updPath_nextId (s : State) (n p : Nat) (f : Path → Path) : (s.updPath n p f).nextId = s.nextId := rfl
@[simp] theorem State.updPath_pend (s : State) (n p : Nat) (f : Path → Path) : (s.updPath n p f).pend = s.pend := rfl
@[simp] theorem State.updPath_blocks (s : State) (n p : Nat) (f : Path → Path) : (s.updPath n p f).blocks = s.blocks := rfl
@[simp] theorem State.updPath_gangs (s : State) (n p : Nat) (f : Path → Path) : (s.updPath n p f).gangs = s.gangs := rfl
@[simp] theorem State.updPath_launches (s : State) (n p : Nat) (f : Path → Path) : (s.updPath n p f).launches = s.launches := rfl
@[simp] theorem State.updPath_queues (s : State) (n p : Nat) (f : Path → Path) : (s.updPath n p f).queues = s.queues := rfl
@[simp] theorem State.updPath_nextLaunch (s : State) (n p : Nat) (f : Path → Path) : (s.updPath n p f).nextLaunch = s.nextLaunch := rfl
@[simp] theorem State.updPath_slotRuns (s : State) (n p : Nat) (f : Path → Path) : (s.updPath n p f).slotRuns = s.slotRuns := rfl
@[simp] theorem State.updPath_hostTlbis (s : State) (n p : Nat) (f : Path → Path) : (s.updPath n p f).hostTlbis = s.hostTlbis := rfl
@[simp] theorem State.updPath_ctxs (s : State) (n p : Nat) (f : Path → Path) : (s.updPath n p f).ctxs = s.ctxs := rfl
@[simp] theorem State.updPath_tlb (s : State) (n p : Nat) (f : Path → Path) : (s.updPath n p f).tlb = s.tlb := rfl
@[simp] theorem State.updPath_fetch (s : State) (n p : Nat) (f : Path → Path) : (s.updPath n p f).fetch = s.fetch := rfl
@[simp] theorem State.updPath_fills (s : State) (n p : Nat) (f : Path → Path) : (s.updPath n p f).fills = s.fills := rfl
@[simp] theorem State.updPath_asks (s : State) (n p : Nat) (f : Path → Path) : (s.updPath n p f).asks = s.asks := rfl
@[simp] theorem State.updPath_rkLines (s : State) (n p : Nat) (f : Path → Path) : (s.updPath n p f).rkLines = s.rkLines := rfl
@[simp] theorem State.updPath_pins (s : State) (n p : Nat) (f : Path → Path) : (s.updPath n p f).pins = s.pins := rfl
@[simp] theorem State.updPath_jobs (s : State) (n p : Nat) (f : Path → Path) : (s.updPath n p f).jobs = s.jobs := rfl
@[simp] theorem State.updPath_colls (s : State) (n p : Nat) (f : Path → Path) : (s.updPath n p f).colls = s.colls := rfl
@[simp] theorem State.updPath_books (s : State) (n p : Nat) (f : Path → Path) : (s.updPath n p f).books = s.books := rfl
@[simp] theorem State.updPath_chanTs (s : State) (n p : Nat) (f : Path → Path) : (s.updPath n p f).chanTs = s.chanTs := rfl
@[simp] theorem State.updPath_stageHolds (s : State) (n p : Nat) (f : Path → Path) : (s.updPath n p f).stageHolds = s.stageHolds := rfl
@[simp] theorem State.updPath_links (s : State) (n p : Nat) (f : Path → Path) : (s.updPath n p f).links = s.links := rfl
@[simp] theorem State.updPath_regs (s : State) (n p : Nat) (f : Path → Path) : (s.updPath n p f).regs = s.regs := rfl
@[simp] theorem State.updPath_events (s : State) (n p : Nat) (f : Path → Path) : (s.updPath n p f).events = s.events := rfl
@[simp] theorem State.updPath_signals (s : State) (n p : Nat) (f : Path → Path) : (s.updPath n p f).signals = s.signals := rfl
@[simp] theorem State.updPath_stops (s : State) (n p : Nat) (f : Path → Path) : (s.updPath n p f).stops = s.stops := rfl
@[simp] theorem State.updPath_stalls (s : State) (n p : Nat) (f : Path → Path) : (s.updPath n p f).stalls = s.stalls := rfl
@[simp] theorem State.updPath_issued (s : State) (n p : Nat) (f : Path → Path) : (s.updPath n p f).issued = s.issued := rfl
@[simp] theorem State.updPath_cores (s : State) (n p : Nat) (f : Path → Path) : (s.updPath n p f).cores = s.cores := rfl
@[simp] theorem State.updPath_sensors (s : State) (n p : Nat) (f : Path → Path) : (s.updPath n p f).sensors = s.sensors := rfl
@[simp] theorem State.updPath_banks (s : State) (n p : Nat) (f : Path → Path) : (s.updPath n p f).banks = s.banks := rfl
@[simp] theorem State.updPath_testers (s : State) (n p : Nat) (f : Path → Path) : (s.updPath n p f).testers = s.testers := rfl
@[simp] theorem State.updPath_sampledIn (s : State) (n p : Nat) (f : Path → Path) : (s.updPath n p f).sampledIn = s.sampledIn := rfl
@[simp] theorem State.updPath_allowedIn (s : State) (n p : Nat) (f : Path → Path) : (s.updPath n p f).allowedIn = s.allowedIn := rfl
@[simp] theorem State.updPath_rotatedIn (s : State) (n p : Nat) (f : Path → Path) : (s.updPath n p f).rotatedIn = s.rotatedIn := rfl
@[simp] theorem State.updPath_ports (s : State) (n p : Nat) (f : Path → Path) : (s.updPath n p f).ports = s.ports := rfl
@[simp] theorem State.updPath_disps (s : State) (n p : Nat) (f : Path → Path) : (s.updPath n p f).disps = s.disps := rfl
@[simp] theorem State.updPath_trails (s : State) (n p : Nat) (f : Path → Path) : (s.updPath n p f).trails = s.trails := rfl
@[simp] theorem State.updPath_attest (s : State) (n p : Nat) (f : Path → Path) : (s.updPath n p f).attest = s.attest := rfl
@[simp] theorem State.updPath_pilotLast (s : State) (n p : Nat) (f : Path → Path) : (s.updPath n p f).pilotLast = s.pilotLast := rfl
@[simp] theorem State.updPath_power (s : State) (n p : Nat) (f : Path → Path) : (s.updPath n p f).power = s.power := rfl
@[simp] theorem State.updPath_overSince (s : State) (n p : Nat) (f : Path → Path) : (s.updPath n p f).overSince = s.overSince := rfl
@[simp] theorem State.updPath_cur (s : State) (n p : Nat) (f : Path → Path) : (s.updPath n p f).cur = s.cur := rfl
@[simp] theorem State.updPath_agenda (s : State) (n p : Nat) (f : Path → Path) : (s.updPath n p f).agenda = s.agenda := rfl
@[simp] theorem State.updFill_tick (s : State) (id : Nat) (f : Fill → Fill) : (s.updFill id f).tick = s.tick := rfl
@[simp] theorem State.updFill_clk (s : State) (id : Nat) (f : Fill → Fill) : (s.updFill id f).clk = s.clk := rfl
@[simp] theorem State.updFill_clkFrac (s : State) (id : Nat) (f : Fill → Fill) : (s.updFill id f).clkFrac = s.clkFrac := rfl
@[simp] theorem State.updFill_loc (s : State) (id : Nat) (f : Fill → Fill) : (s.updFill id f).loc = s.loc := rfl
@[simp] theorem State.updFill_host (s : State) (id : Nat) (f : Fill → Fill) : (s.updFill id f).host = s.host := rfl
@[simp] theorem State.updFill_peer (s : State) (id : Nat) (f : Fill → Fill) : (s.updFill id f).peer = s.peer := rfl
@[simp] theorem State.updFill_pool (s : State) (id : Nat) (f : Fill → Fill) : (s.updFill id f).pool = s.pool := rfl
@[simp] theorem State.updFill_rkmem (s : State) (id : Nat) (f : Fill → Fill) : (s.updFill id f).rkmem = s.rkmem := rfl
@[simp] theorem State.updFill_homes (s : State) (id : Nat) (f : Fill → Fill) : (s.updFill id f).homes = s.homes := rfl
@[simp] theorem State.updFill_copies (s : State) (id : Nat) (f : Fill → Fill) : (s.updFill id f).copies = s.copies := rfl
@[simp] theorem State.updFill_relaxed (s : State) (id : Nat) (f : Fill → Fill) : (s.updFill id f).relaxed = s.relaxed := rfl
@[simp] theorem State.updFill_releases (s : State) (id : Nat) (f : Fill → Fill) : (s.updFill id f).releases = s.releases := rfl
@[simp] theorem State.updFill_poison (s : State) (id : Nat) (f : Fill → Fill) : (s.updFill id f).poison = s.poison := rfl
@[simp] theorem State.updFill_extClk (s : State) (id : Nat) (f : Fill → Fill) : (s.updFill id f).extClk = s.extClk := rfl
@[simp] theorem State.updFill_seq (s : State) (id : Nat) (f : Fill → Fill) : (s.updFill id f).seq = s.seq := rfl
@[simp] theorem State.updFill_leases (s : State) (id : Nat) (f : Fill → Fill) : (s.updFill id f).leases = s.leases := rfl
@[simp] theorem State.updFill_fresh (s : State) (id : Nat) (f : Fill → Fill) : (s.updFill id f).fresh = s.fresh := rfl
@[simp] theorem State.updFill_nextId (s : State) (id : Nat) (f : Fill → Fill) : (s.updFill id f).nextId = s.nextId := rfl
@[simp] theorem State.updFill_agents (s : State) (id : Nat) (f : Fill → Fill) : (s.updFill id f).agents = s.agents := rfl
@[simp] theorem State.updFill_pend (s : State) (id : Nat) (f : Fill → Fill) : (s.updFill id f).pend = s.pend := rfl
@[simp] theorem State.updFill_blocks (s : State) (id : Nat) (f : Fill → Fill) : (s.updFill id f).blocks = s.blocks := rfl
@[simp] theorem State.updFill_gangs (s : State) (id : Nat) (f : Fill → Fill) : (s.updFill id f).gangs = s.gangs := rfl
@[simp] theorem State.updFill_launches (s : State) (id : Nat) (f : Fill → Fill) : (s.updFill id f).launches = s.launches := rfl
@[simp] theorem State.updFill_queues (s : State) (id : Nat) (f : Fill → Fill) : (s.updFill id f).queues = s.queues := rfl
@[simp] theorem State.updFill_nextLaunch (s : State) (id : Nat) (f : Fill → Fill) : (s.updFill id f).nextLaunch = s.nextLaunch := rfl
@[simp] theorem State.updFill_slotRuns (s : State) (id : Nat) (f : Fill → Fill) : (s.updFill id f).slotRuns = s.slotRuns := rfl
@[simp] theorem State.updFill_hostTlbis (s : State) (id : Nat) (f : Fill → Fill) : (s.updFill id f).hostTlbis = s.hostTlbis := rfl
@[simp] theorem State.updFill_ctxs (s : State) (id : Nat) (f : Fill → Fill) : (s.updFill id f).ctxs = s.ctxs := rfl
@[simp] theorem State.updFill_tlb (s : State) (id : Nat) (f : Fill → Fill) : (s.updFill id f).tlb = s.tlb := rfl
@[simp] theorem State.updFill_fetch (s : State) (id : Nat) (f : Fill → Fill) : (s.updFill id f).fetch = s.fetch := rfl
@[simp] theorem State.updFill_asks (s : State) (id : Nat) (f : Fill → Fill) : (s.updFill id f).asks = s.asks := rfl
@[simp] theorem State.updFill_rkLines (s : State) (id : Nat) (f : Fill → Fill) : (s.updFill id f).rkLines = s.rkLines := rfl
@[simp] theorem State.updFill_pins (s : State) (id : Nat) (f : Fill → Fill) : (s.updFill id f).pins = s.pins := rfl
@[simp] theorem State.updFill_jobs (s : State) (id : Nat) (f : Fill → Fill) : (s.updFill id f).jobs = s.jobs := rfl
@[simp] theorem State.updFill_colls (s : State) (id : Nat) (f : Fill → Fill) : (s.updFill id f).colls = s.colls := rfl
@[simp] theorem State.updFill_books (s : State) (id : Nat) (f : Fill → Fill) : (s.updFill id f).books = s.books := rfl
@[simp] theorem State.updFill_chanTs (s : State) (id : Nat) (f : Fill → Fill) : (s.updFill id f).chanTs = s.chanTs := rfl
@[simp] theorem State.updFill_stageHolds (s : State) (id : Nat) (f : Fill → Fill) : (s.updFill id f).stageHolds = s.stageHolds := rfl
@[simp] theorem State.updFill_links (s : State) (id : Nat) (f : Fill → Fill) : (s.updFill id f).links = s.links := rfl
@[simp] theorem State.updFill_regs (s : State) (id : Nat) (f : Fill → Fill) : (s.updFill id f).regs = s.regs := rfl
@[simp] theorem State.updFill_events (s : State) (id : Nat) (f : Fill → Fill) : (s.updFill id f).events = s.events := rfl
@[simp] theorem State.updFill_signals (s : State) (id : Nat) (f : Fill → Fill) : (s.updFill id f).signals = s.signals := rfl
@[simp] theorem State.updFill_stops (s : State) (id : Nat) (f : Fill → Fill) : (s.updFill id f).stops = s.stops := rfl
@[simp] theorem State.updFill_stalls (s : State) (id : Nat) (f : Fill → Fill) : (s.updFill id f).stalls = s.stalls := rfl
@[simp] theorem State.updFill_issued (s : State) (id : Nat) (f : Fill → Fill) : (s.updFill id f).issued = s.issued := rfl
@[simp] theorem State.updFill_cores (s : State) (id : Nat) (f : Fill → Fill) : (s.updFill id f).cores = s.cores := rfl
@[simp] theorem State.updFill_sensors (s : State) (id : Nat) (f : Fill → Fill) : (s.updFill id f).sensors = s.sensors := rfl
@[simp] theorem State.updFill_banks (s : State) (id : Nat) (f : Fill → Fill) : (s.updFill id f).banks = s.banks := rfl
@[simp] theorem State.updFill_testers (s : State) (id : Nat) (f : Fill → Fill) : (s.updFill id f).testers = s.testers := rfl
@[simp] theorem State.updFill_sampledIn (s : State) (id : Nat) (f : Fill → Fill) : (s.updFill id f).sampledIn = s.sampledIn := rfl
@[simp] theorem State.updFill_allowedIn (s : State) (id : Nat) (f : Fill → Fill) : (s.updFill id f).allowedIn = s.allowedIn := rfl
@[simp] theorem State.updFill_rotatedIn (s : State) (id : Nat) (f : Fill → Fill) : (s.updFill id f).rotatedIn = s.rotatedIn := rfl
@[simp] theorem State.updFill_ports (s : State) (id : Nat) (f : Fill → Fill) : (s.updFill id f).ports = s.ports := rfl
@[simp] theorem State.updFill_disps (s : State) (id : Nat) (f : Fill → Fill) : (s.updFill id f).disps = s.disps := rfl
@[simp] theorem State.updFill_trails (s : State) (id : Nat) (f : Fill → Fill) : (s.updFill id f).trails = s.trails := rfl
@[simp] theorem State.updFill_attest (s : State) (id : Nat) (f : Fill → Fill) : (s.updFill id f).attest = s.attest := rfl
@[simp] theorem State.updFill_pilotLast (s : State) (id : Nat) (f : Fill → Fill) : (s.updFill id f).pilotLast = s.pilotLast := rfl
@[simp] theorem State.updFill_power (s : State) (id : Nat) (f : Fill → Fill) : (s.updFill id f).power = s.power := rfl
@[simp] theorem State.updFill_overSince (s : State) (id : Nat) (f : Fill → Fill) : (s.updFill id f).overSince = s.overSince := rfl
@[simp] theorem State.updFill_cur (s : State) (id : Nat) (f : Fill → Fill) : (s.updFill id f).cur = s.cur := rfl
@[simp] theorem State.updFill_agenda (s : State) (id : Nat) (f : Fill → Fill) : (s.updFill id f).agenda = s.agenda := rfl
@[simp] theorem State.updJob_tick (s : State) (id : Nat) (f : Job → Job) : (s.updJob id f).tick = s.tick := rfl
@[simp] theorem State.updJob_clk (s : State) (id : Nat) (f : Job → Job) : (s.updJob id f).clk = s.clk := rfl
@[simp] theorem State.updJob_clkFrac (s : State) (id : Nat) (f : Job → Job) : (s.updJob id f).clkFrac = s.clkFrac := rfl
@[simp] theorem State.updJob_loc (s : State) (id : Nat) (f : Job → Job) : (s.updJob id f).loc = s.loc := rfl
@[simp] theorem State.updJob_host (s : State) (id : Nat) (f : Job → Job) : (s.updJob id f).host = s.host := rfl
@[simp] theorem State.updJob_peer (s : State) (id : Nat) (f : Job → Job) : (s.updJob id f).peer = s.peer := rfl
@[simp] theorem State.updJob_pool (s : State) (id : Nat) (f : Job → Job) : (s.updJob id f).pool = s.pool := rfl
@[simp] theorem State.updJob_rkmem (s : State) (id : Nat) (f : Job → Job) : (s.updJob id f).rkmem = s.rkmem := rfl
@[simp] theorem State.updJob_homes (s : State) (id : Nat) (f : Job → Job) : (s.updJob id f).homes = s.homes := rfl
@[simp] theorem State.updJob_copies (s : State) (id : Nat) (f : Job → Job) : (s.updJob id f).copies = s.copies := rfl
@[simp] theorem State.updJob_relaxed (s : State) (id : Nat) (f : Job → Job) : (s.updJob id f).relaxed = s.relaxed := rfl
@[simp] theorem State.updJob_releases (s : State) (id : Nat) (f : Job → Job) : (s.updJob id f).releases = s.releases := rfl
@[simp] theorem State.updJob_poison (s : State) (id : Nat) (f : Job → Job) : (s.updJob id f).poison = s.poison := rfl
@[simp] theorem State.updJob_extClk (s : State) (id : Nat) (f : Job → Job) : (s.updJob id f).extClk = s.extClk := rfl
@[simp] theorem State.updJob_seq (s : State) (id : Nat) (f : Job → Job) : (s.updJob id f).seq = s.seq := rfl
@[simp] theorem State.updJob_leases (s : State) (id : Nat) (f : Job → Job) : (s.updJob id f).leases = s.leases := rfl
@[simp] theorem State.updJob_fresh (s : State) (id : Nat) (f : Job → Job) : (s.updJob id f).fresh = s.fresh := rfl
@[simp] theorem State.updJob_nextId (s : State) (id : Nat) (f : Job → Job) : (s.updJob id f).nextId = s.nextId := rfl
@[simp] theorem State.updJob_agents (s : State) (id : Nat) (f : Job → Job) : (s.updJob id f).agents = s.agents := rfl
@[simp] theorem State.updJob_pend (s : State) (id : Nat) (f : Job → Job) : (s.updJob id f).pend = s.pend := rfl
@[simp] theorem State.updJob_blocks (s : State) (id : Nat) (f : Job → Job) : (s.updJob id f).blocks = s.blocks := rfl
@[simp] theorem State.updJob_gangs (s : State) (id : Nat) (f : Job → Job) : (s.updJob id f).gangs = s.gangs := rfl
@[simp] theorem State.updJob_launches (s : State) (id : Nat) (f : Job → Job) : (s.updJob id f).launches = s.launches := rfl
@[simp] theorem State.updJob_queues (s : State) (id : Nat) (f : Job → Job) : (s.updJob id f).queues = s.queues := rfl
@[simp] theorem State.updJob_nextLaunch (s : State) (id : Nat) (f : Job → Job) : (s.updJob id f).nextLaunch = s.nextLaunch := rfl
@[simp] theorem State.updJob_slotRuns (s : State) (id : Nat) (f : Job → Job) : (s.updJob id f).slotRuns = s.slotRuns := rfl
@[simp] theorem State.updJob_hostTlbis (s : State) (id : Nat) (f : Job → Job) : (s.updJob id f).hostTlbis = s.hostTlbis := rfl
@[simp] theorem State.updJob_ctxs (s : State) (id : Nat) (f : Job → Job) : (s.updJob id f).ctxs = s.ctxs := rfl
@[simp] theorem State.updJob_tlb (s : State) (id : Nat) (f : Job → Job) : (s.updJob id f).tlb = s.tlb := rfl
@[simp] theorem State.updJob_fetch (s : State) (id : Nat) (f : Job → Job) : (s.updJob id f).fetch = s.fetch := rfl
@[simp] theorem State.updJob_fills (s : State) (id : Nat) (f : Job → Job) : (s.updJob id f).fills = s.fills := rfl
@[simp] theorem State.updJob_asks (s : State) (id : Nat) (f : Job → Job) : (s.updJob id f).asks = s.asks := rfl
@[simp] theorem State.updJob_rkLines (s : State) (id : Nat) (f : Job → Job) : (s.updJob id f).rkLines = s.rkLines := rfl
@[simp] theorem State.updJob_pins (s : State) (id : Nat) (f : Job → Job) : (s.updJob id f).pins = s.pins := rfl
@[simp] theorem State.updJob_colls (s : State) (id : Nat) (f : Job → Job) : (s.updJob id f).colls = s.colls := rfl
@[simp] theorem State.updJob_books (s : State) (id : Nat) (f : Job → Job) : (s.updJob id f).books = s.books := rfl
@[simp] theorem State.updJob_chanTs (s : State) (id : Nat) (f : Job → Job) : (s.updJob id f).chanTs = s.chanTs := rfl
@[simp] theorem State.updJob_stageHolds (s : State) (id : Nat) (f : Job → Job) : (s.updJob id f).stageHolds = s.stageHolds := rfl
@[simp] theorem State.updJob_links (s : State) (id : Nat) (f : Job → Job) : (s.updJob id f).links = s.links := rfl
@[simp] theorem State.updJob_regs (s : State) (id : Nat) (f : Job → Job) : (s.updJob id f).regs = s.regs := rfl
@[simp] theorem State.updJob_events (s : State) (id : Nat) (f : Job → Job) : (s.updJob id f).events = s.events := rfl
@[simp] theorem State.updJob_signals (s : State) (id : Nat) (f : Job → Job) : (s.updJob id f).signals = s.signals := rfl
@[simp] theorem State.updJob_stops (s : State) (id : Nat) (f : Job → Job) : (s.updJob id f).stops = s.stops := rfl
@[simp] theorem State.updJob_stalls (s : State) (id : Nat) (f : Job → Job) : (s.updJob id f).stalls = s.stalls := rfl
@[simp] theorem State.updJob_issued (s : State) (id : Nat) (f : Job → Job) : (s.updJob id f).issued = s.issued := rfl
@[simp] theorem State.updJob_cores (s : State) (id : Nat) (f : Job → Job) : (s.updJob id f).cores = s.cores := rfl
@[simp] theorem State.updJob_sensors (s : State) (id : Nat) (f : Job → Job) : (s.updJob id f).sensors = s.sensors := rfl
@[simp] theorem State.updJob_banks (s : State) (id : Nat) (f : Job → Job) : (s.updJob id f).banks = s.banks := rfl
@[simp] theorem State.updJob_testers (s : State) (id : Nat) (f : Job → Job) : (s.updJob id f).testers = s.testers := rfl
@[simp] theorem State.updJob_sampledIn (s : State) (id : Nat) (f : Job → Job) : (s.updJob id f).sampledIn = s.sampledIn := rfl
@[simp] theorem State.updJob_allowedIn (s : State) (id : Nat) (f : Job → Job) : (s.updJob id f).allowedIn = s.allowedIn := rfl
@[simp] theorem State.updJob_rotatedIn (s : State) (id : Nat) (f : Job → Job) : (s.updJob id f).rotatedIn = s.rotatedIn := rfl
@[simp] theorem State.updJob_ports (s : State) (id : Nat) (f : Job → Job) : (s.updJob id f).ports = s.ports := rfl
@[simp] theorem State.updJob_disps (s : State) (id : Nat) (f : Job → Job) : (s.updJob id f).disps = s.disps := rfl
@[simp] theorem State.updJob_trails (s : State) (id : Nat) (f : Job → Job) : (s.updJob id f).trails = s.trails := rfl
@[simp] theorem State.updJob_attest (s : State) (id : Nat) (f : Job → Job) : (s.updJob id f).attest = s.attest := rfl
@[simp] theorem State.updJob_pilotLast (s : State) (id : Nat) (f : Job → Job) : (s.updJob id f).pilotLast = s.pilotLast := rfl
@[simp] theorem State.updJob_power (s : State) (id : Nat) (f : Job → Job) : (s.updJob id f).power = s.power := rfl
@[simp] theorem State.updJob_overSince (s : State) (id : Nat) (f : Job → Job) : (s.updJob id f).overSince = s.overSince := rfl
@[simp] theorem State.updJob_cur (s : State) (id : Nat) (f : Job → Job) : (s.updJob id f).cur = s.cur := rfl
@[simp] theorem State.updJob_agenda (s : State) (id : Nat) (f : Job → Job) : (s.updJob id f).agenda = s.agenda := rfl
@[simp] theorem State.setPin_tick (s : State) (c : Nat) (u : Nat × Nat) (n : Nat) : (s.setPin c u n).tick = s.tick := rfl
@[simp] theorem State.setPin_clk (s : State) (c : Nat) (u : Nat × Nat) (n : Nat) : (s.setPin c u n).clk = s.clk := rfl
@[simp] theorem State.setPin_clkFrac (s : State) (c : Nat) (u : Nat × Nat) (n : Nat) : (s.setPin c u n).clkFrac = s.clkFrac := rfl
@[simp] theorem State.setPin_loc (s : State) (c : Nat) (u : Nat × Nat) (n : Nat) : (s.setPin c u n).loc = s.loc := rfl
@[simp] theorem State.setPin_host (s : State) (c : Nat) (u : Nat × Nat) (n : Nat) : (s.setPin c u n).host = s.host := rfl
@[simp] theorem State.setPin_peer (s : State) (c : Nat) (u : Nat × Nat) (n : Nat) : (s.setPin c u n).peer = s.peer := rfl
@[simp] theorem State.setPin_pool (s : State) (c : Nat) (u : Nat × Nat) (n : Nat) : (s.setPin c u n).pool = s.pool := rfl
@[simp] theorem State.setPin_rkmem (s : State) (c : Nat) (u : Nat × Nat) (n : Nat) : (s.setPin c u n).rkmem = s.rkmem := rfl
@[simp] theorem State.setPin_homes (s : State) (c : Nat) (u : Nat × Nat) (n : Nat) : (s.setPin c u n).homes = s.homes := rfl
@[simp] theorem State.setPin_copies (s : State) (c : Nat) (u : Nat × Nat) (n : Nat) : (s.setPin c u n).copies = s.copies := rfl
@[simp] theorem State.setPin_relaxed (s : State) (c : Nat) (u : Nat × Nat) (n : Nat) : (s.setPin c u n).relaxed = s.relaxed := rfl
@[simp] theorem State.setPin_releases (s : State) (c : Nat) (u : Nat × Nat) (n : Nat) : (s.setPin c u n).releases = s.releases := rfl
@[simp] theorem State.setPin_poison (s : State) (c : Nat) (u : Nat × Nat) (n : Nat) : (s.setPin c u n).poison = s.poison := rfl
@[simp] theorem State.setPin_extClk (s : State) (c : Nat) (u : Nat × Nat) (n : Nat) : (s.setPin c u n).extClk = s.extClk := rfl
@[simp] theorem State.setPin_seq (s : State) (c : Nat) (u : Nat × Nat) (n : Nat) : (s.setPin c u n).seq = s.seq := rfl
@[simp] theorem State.setPin_leases (s : State) (c : Nat) (u : Nat × Nat) (n : Nat) : (s.setPin c u n).leases = s.leases := rfl
@[simp] theorem State.setPin_fresh (s : State) (c : Nat) (u : Nat × Nat) (n : Nat) : (s.setPin c u n).fresh = s.fresh := rfl
@[simp] theorem State.setPin_nextId (s : State) (c : Nat) (u : Nat × Nat) (n : Nat) : (s.setPin c u n).nextId = s.nextId := rfl
@[simp] theorem State.setPin_agents (s : State) (c : Nat) (u : Nat × Nat) (n : Nat) : (s.setPin c u n).agents = s.agents := rfl
@[simp] theorem State.setPin_pend (s : State) (c : Nat) (u : Nat × Nat) (n : Nat) : (s.setPin c u n).pend = s.pend := rfl
@[simp] theorem State.setPin_blocks (s : State) (c : Nat) (u : Nat × Nat) (n : Nat) : (s.setPin c u n).blocks = s.blocks := rfl
@[simp] theorem State.setPin_gangs (s : State) (c : Nat) (u : Nat × Nat) (n : Nat) : (s.setPin c u n).gangs = s.gangs := rfl
@[simp] theorem State.setPin_launches (s : State) (c : Nat) (u : Nat × Nat) (n : Nat) : (s.setPin c u n).launches = s.launches := rfl
@[simp] theorem State.setPin_queues (s : State) (c : Nat) (u : Nat × Nat) (n : Nat) : (s.setPin c u n).queues = s.queues := rfl
@[simp] theorem State.setPin_nextLaunch (s : State) (c : Nat) (u : Nat × Nat) (n : Nat) : (s.setPin c u n).nextLaunch = s.nextLaunch := rfl
@[simp] theorem State.setPin_slotRuns (s : State) (c : Nat) (u : Nat × Nat) (n : Nat) : (s.setPin c u n).slotRuns = s.slotRuns := rfl
@[simp] theorem State.setPin_hostTlbis (s : State) (c : Nat) (u : Nat × Nat) (n : Nat) : (s.setPin c u n).hostTlbis = s.hostTlbis := rfl
@[simp] theorem State.setPin_ctxs (s : State) (c : Nat) (u : Nat × Nat) (n : Nat) : (s.setPin c u n).ctxs = s.ctxs := rfl
@[simp] theorem State.setPin_tlb (s : State) (c : Nat) (u : Nat × Nat) (n : Nat) : (s.setPin c u n).tlb = s.tlb := rfl
@[simp] theorem State.setPin_fetch (s : State) (c : Nat) (u : Nat × Nat) (n : Nat) : (s.setPin c u n).fetch = s.fetch := rfl
@[simp] theorem State.setPin_fills (s : State) (c : Nat) (u : Nat × Nat) (n : Nat) : (s.setPin c u n).fills = s.fills := rfl
@[simp] theorem State.setPin_asks (s : State) (c : Nat) (u : Nat × Nat) (n : Nat) : (s.setPin c u n).asks = s.asks := rfl
@[simp] theorem State.setPin_rkLines (s : State) (c : Nat) (u : Nat × Nat) (n : Nat) : (s.setPin c u n).rkLines = s.rkLines := rfl
@[simp] theorem State.setPin_jobs (s : State) (c : Nat) (u : Nat × Nat) (n : Nat) : (s.setPin c u n).jobs = s.jobs := rfl
@[simp] theorem State.setPin_colls (s : State) (c : Nat) (u : Nat × Nat) (n : Nat) : (s.setPin c u n).colls = s.colls := rfl
@[simp] theorem State.setPin_books (s : State) (c : Nat) (u : Nat × Nat) (n : Nat) : (s.setPin c u n).books = s.books := rfl
@[simp] theorem State.setPin_chanTs (s : State) (c : Nat) (u : Nat × Nat) (n : Nat) : (s.setPin c u n).chanTs = s.chanTs := rfl
@[simp] theorem State.setPin_stageHolds (s : State) (c : Nat) (u : Nat × Nat) (n : Nat) : (s.setPin c u n).stageHolds = s.stageHolds := rfl
@[simp] theorem State.setPin_links (s : State) (c : Nat) (u : Nat × Nat) (n : Nat) : (s.setPin c u n).links = s.links := rfl
@[simp] theorem State.setPin_regs (s : State) (c : Nat) (u : Nat × Nat) (n : Nat) : (s.setPin c u n).regs = s.regs := rfl
@[simp] theorem State.setPin_events (s : State) (c : Nat) (u : Nat × Nat) (n : Nat) : (s.setPin c u n).events = s.events := rfl
@[simp] theorem State.setPin_signals (s : State) (c : Nat) (u : Nat × Nat) (n : Nat) : (s.setPin c u n).signals = s.signals := rfl
@[simp] theorem State.setPin_stops (s : State) (c : Nat) (u : Nat × Nat) (n : Nat) : (s.setPin c u n).stops = s.stops := rfl
@[simp] theorem State.setPin_stalls (s : State) (c : Nat) (u : Nat × Nat) (n : Nat) : (s.setPin c u n).stalls = s.stalls := rfl
@[simp] theorem State.setPin_issued (s : State) (c : Nat) (u : Nat × Nat) (n : Nat) : (s.setPin c u n).issued = s.issued := rfl
@[simp] theorem State.setPin_cores (s : State) (c : Nat) (u : Nat × Nat) (n : Nat) : (s.setPin c u n).cores = s.cores := rfl
@[simp] theorem State.setPin_sensors (s : State) (c : Nat) (u : Nat × Nat) (n : Nat) : (s.setPin c u n).sensors = s.sensors := rfl
@[simp] theorem State.setPin_banks (s : State) (c : Nat) (u : Nat × Nat) (n : Nat) : (s.setPin c u n).banks = s.banks := rfl
@[simp] theorem State.setPin_testers (s : State) (c : Nat) (u : Nat × Nat) (n : Nat) : (s.setPin c u n).testers = s.testers := rfl
@[simp] theorem State.setPin_sampledIn (s : State) (c : Nat) (u : Nat × Nat) (n : Nat) : (s.setPin c u n).sampledIn = s.sampledIn := rfl
@[simp] theorem State.setPin_allowedIn (s : State) (c : Nat) (u : Nat × Nat) (n : Nat) : (s.setPin c u n).allowedIn = s.allowedIn := rfl
@[simp] theorem State.setPin_rotatedIn (s : State) (c : Nat) (u : Nat × Nat) (n : Nat) : (s.setPin c u n).rotatedIn = s.rotatedIn := rfl
@[simp] theorem State.setPin_ports (s : State) (c : Nat) (u : Nat × Nat) (n : Nat) : (s.setPin c u n).ports = s.ports := rfl
@[simp] theorem State.setPin_disps (s : State) (c : Nat) (u : Nat × Nat) (n : Nat) : (s.setPin c u n).disps = s.disps := rfl
@[simp] theorem State.setPin_trails (s : State) (c : Nat) (u : Nat × Nat) (n : Nat) : (s.setPin c u n).trails = s.trails := rfl
@[simp] theorem State.setPin_attest (s : State) (c : Nat) (u : Nat × Nat) (n : Nat) : (s.setPin c u n).attest = s.attest := rfl
@[simp] theorem State.setPin_pilotLast (s : State) (c : Nat) (u : Nat × Nat) (n : Nat) : (s.setPin c u n).pilotLast = s.pilotLast := rfl
@[simp] theorem State.setPin_power (s : State) (c : Nat) (u : Nat × Nat) (n : Nat) : (s.setPin c u n).power = s.power := rfl
@[simp] theorem State.setPin_overSince (s : State) (c : Nat) (u : Nat × Nat) (n : Nat) : (s.setPin c u n).overSince = s.overSince := rfl
@[simp] theorem State.setPin_cur (s : State) (c : Nat) (u : Nat × Nat) (n : Nat) : (s.setPin c u n).cur = s.cur := rfl
@[simp] theorem State.setPin_agenda (s : State) (c : Nat) (u : Nat × Nat) (n : Nat) : (s.setPin c u n).agenda = s.agenda := rfl
@[simp] theorem State.updLaunch_tick (s : State) (id : Nat) (f : Launch → Launch) : (s.updLaunch id f).tick = s.tick := rfl
@[simp] theorem State.updLaunch_clk (s : State) (id : Nat) (f : Launch → Launch) : (s.updLaunch id f).clk = s.clk := rfl
@[simp] theorem State.updLaunch_clkFrac (s : State) (id : Nat) (f : Launch → Launch) : (s.updLaunch id f).clkFrac = s.clkFrac := rfl
@[simp] theorem State.updLaunch_loc (s : State) (id : Nat) (f : Launch → Launch) : (s.updLaunch id f).loc = s.loc := rfl
@[simp] theorem State.updLaunch_host (s : State) (id : Nat) (f : Launch → Launch) : (s.updLaunch id f).host = s.host := rfl
@[simp] theorem State.updLaunch_peer (s : State) (id : Nat) (f : Launch → Launch) : (s.updLaunch id f).peer = s.peer := rfl
@[simp] theorem State.updLaunch_pool (s : State) (id : Nat) (f : Launch → Launch) : (s.updLaunch id f).pool = s.pool := rfl
@[simp] theorem State.updLaunch_rkmem (s : State) (id : Nat) (f : Launch → Launch) : (s.updLaunch id f).rkmem = s.rkmem := rfl
@[simp] theorem State.updLaunch_homes (s : State) (id : Nat) (f : Launch → Launch) : (s.updLaunch id f).homes = s.homes := rfl
@[simp] theorem State.updLaunch_copies (s : State) (id : Nat) (f : Launch → Launch) : (s.updLaunch id f).copies = s.copies := rfl
@[simp] theorem State.updLaunch_relaxed (s : State) (id : Nat) (f : Launch → Launch) : (s.updLaunch id f).relaxed = s.relaxed := rfl
@[simp] theorem State.updLaunch_releases (s : State) (id : Nat) (f : Launch → Launch) : (s.updLaunch id f).releases = s.releases := rfl
@[simp] theorem State.updLaunch_poison (s : State) (id : Nat) (f : Launch → Launch) : (s.updLaunch id f).poison = s.poison := rfl
@[simp] theorem State.updLaunch_extClk (s : State) (id : Nat) (f : Launch → Launch) : (s.updLaunch id f).extClk = s.extClk := rfl
@[simp] theorem State.updLaunch_seq (s : State) (id : Nat) (f : Launch → Launch) : (s.updLaunch id f).seq = s.seq := rfl
@[simp] theorem State.updLaunch_leases (s : State) (id : Nat) (f : Launch → Launch) : (s.updLaunch id f).leases = s.leases := rfl
@[simp] theorem State.updLaunch_fresh (s : State) (id : Nat) (f : Launch → Launch) : (s.updLaunch id f).fresh = s.fresh := rfl
@[simp] theorem State.updLaunch_nextId (s : State) (id : Nat) (f : Launch → Launch) : (s.updLaunch id f).nextId = s.nextId := rfl
@[simp] theorem State.updLaunch_agents (s : State) (id : Nat) (f : Launch → Launch) : (s.updLaunch id f).agents = s.agents := rfl
@[simp] theorem State.updLaunch_pend (s : State) (id : Nat) (f : Launch → Launch) : (s.updLaunch id f).pend = s.pend := rfl
@[simp] theorem State.updLaunch_blocks (s : State) (id : Nat) (f : Launch → Launch) : (s.updLaunch id f).blocks = s.blocks := rfl
@[simp] theorem State.updLaunch_gangs (s : State) (id : Nat) (f : Launch → Launch) : (s.updLaunch id f).gangs = s.gangs := rfl
@[simp] theorem State.updLaunch_queues (s : State) (id : Nat) (f : Launch → Launch) : (s.updLaunch id f).queues = s.queues := rfl
@[simp] theorem State.updLaunch_nextLaunch (s : State) (id : Nat) (f : Launch → Launch) : (s.updLaunch id f).nextLaunch = s.nextLaunch := rfl
@[simp] theorem State.updLaunch_slotRuns (s : State) (id : Nat) (f : Launch → Launch) : (s.updLaunch id f).slotRuns = s.slotRuns := rfl
@[simp] theorem State.updLaunch_hostTlbis (s : State) (id : Nat) (f : Launch → Launch) : (s.updLaunch id f).hostTlbis = s.hostTlbis := rfl
@[simp] theorem State.updLaunch_ctxs (s : State) (id : Nat) (f : Launch → Launch) : (s.updLaunch id f).ctxs = s.ctxs := rfl
@[simp] theorem State.updLaunch_tlb (s : State) (id : Nat) (f : Launch → Launch) : (s.updLaunch id f).tlb = s.tlb := rfl
@[simp] theorem State.updLaunch_fetch (s : State) (id : Nat) (f : Launch → Launch) : (s.updLaunch id f).fetch = s.fetch := rfl
@[simp] theorem State.updLaunch_fills (s : State) (id : Nat) (f : Launch → Launch) : (s.updLaunch id f).fills = s.fills := rfl
@[simp] theorem State.updLaunch_asks (s : State) (id : Nat) (f : Launch → Launch) : (s.updLaunch id f).asks = s.asks := rfl
@[simp] theorem State.updLaunch_rkLines (s : State) (id : Nat) (f : Launch → Launch) : (s.updLaunch id f).rkLines = s.rkLines := rfl
@[simp] theorem State.updLaunch_pins (s : State) (id : Nat) (f : Launch → Launch) : (s.updLaunch id f).pins = s.pins := rfl
@[simp] theorem State.updLaunch_jobs (s : State) (id : Nat) (f : Launch → Launch) : (s.updLaunch id f).jobs = s.jobs := rfl
@[simp] theorem State.updLaunch_colls (s : State) (id : Nat) (f : Launch → Launch) : (s.updLaunch id f).colls = s.colls := rfl
@[simp] theorem State.updLaunch_books (s : State) (id : Nat) (f : Launch → Launch) : (s.updLaunch id f).books = s.books := rfl
@[simp] theorem State.updLaunch_chanTs (s : State) (id : Nat) (f : Launch → Launch) : (s.updLaunch id f).chanTs = s.chanTs := rfl
@[simp] theorem State.updLaunch_stageHolds (s : State) (id : Nat) (f : Launch → Launch) : (s.updLaunch id f).stageHolds = s.stageHolds := rfl
@[simp] theorem State.updLaunch_links (s : State) (id : Nat) (f : Launch → Launch) : (s.updLaunch id f).links = s.links := rfl
@[simp] theorem State.updLaunch_regs (s : State) (id : Nat) (f : Launch → Launch) : (s.updLaunch id f).regs = s.regs := rfl
@[simp] theorem State.updLaunch_events (s : State) (id : Nat) (f : Launch → Launch) : (s.updLaunch id f).events = s.events := rfl
@[simp] theorem State.updLaunch_signals (s : State) (id : Nat) (f : Launch → Launch) : (s.updLaunch id f).signals = s.signals := rfl
@[simp] theorem State.updLaunch_stops (s : State) (id : Nat) (f : Launch → Launch) : (s.updLaunch id f).stops = s.stops := rfl
@[simp] theorem State.updLaunch_stalls (s : State) (id : Nat) (f : Launch → Launch) : (s.updLaunch id f).stalls = s.stalls := rfl
@[simp] theorem State.updLaunch_issued (s : State) (id : Nat) (f : Launch → Launch) : (s.updLaunch id f).issued = s.issued := rfl
@[simp] theorem State.updLaunch_cores (s : State) (id : Nat) (f : Launch → Launch) : (s.updLaunch id f).cores = s.cores := rfl
@[simp] theorem State.updLaunch_sensors (s : State) (id : Nat) (f : Launch → Launch) : (s.updLaunch id f).sensors = s.sensors := rfl
@[simp] theorem State.updLaunch_banks (s : State) (id : Nat) (f : Launch → Launch) : (s.updLaunch id f).banks = s.banks := rfl
@[simp] theorem State.updLaunch_testers (s : State) (id : Nat) (f : Launch → Launch) : (s.updLaunch id f).testers = s.testers := rfl
@[simp] theorem State.updLaunch_sampledIn (s : State) (id : Nat) (f : Launch → Launch) : (s.updLaunch id f).sampledIn = s.sampledIn := rfl
@[simp] theorem State.updLaunch_allowedIn (s : State) (id : Nat) (f : Launch → Launch) : (s.updLaunch id f).allowedIn = s.allowedIn := rfl
@[simp] theorem State.updLaunch_rotatedIn (s : State) (id : Nat) (f : Launch → Launch) : (s.updLaunch id f).rotatedIn = s.rotatedIn := rfl
@[simp] theorem State.updLaunch_ports (s : State) (id : Nat) (f : Launch → Launch) : (s.updLaunch id f).ports = s.ports := rfl
@[simp] theorem State.updLaunch_disps (s : State) (id : Nat) (f : Launch → Launch) : (s.updLaunch id f).disps = s.disps := rfl
@[simp] theorem State.updLaunch_trails (s : State) (id : Nat) (f : Launch → Launch) : (s.updLaunch id f).trails = s.trails := rfl
@[simp] theorem State.updLaunch_attest (s : State) (id : Nat) (f : Launch → Launch) : (s.updLaunch id f).attest = s.attest := rfl
@[simp] theorem State.updLaunch_pilotLast (s : State) (id : Nat) (f : Launch → Launch) : (s.updLaunch id f).pilotLast = s.pilotLast := rfl
@[simp] theorem State.updLaunch_power (s : State) (id : Nat) (f : Launch → Launch) : (s.updLaunch id f).power = s.power := rfl
@[simp] theorem State.updLaunch_overSince (s : State) (id : Nat) (f : Launch → Launch) : (s.updLaunch id f).overSince = s.overSince := rfl
@[simp] theorem State.updLaunch_cur (s : State) (id : Nat) (f : Launch → Launch) : (s.updLaunch id f).cur = s.cur := rfl
@[simp] theorem State.updLaunch_agenda (s : State) (id : Nat) (f : Launch → Launch) : (s.updLaunch id f).agenda = s.agenda := rfl
@[simp] theorem State.setCtx_tick (s : State) (c : Ctx) : (s.setCtx c).tick = s.tick := rfl
@[simp] theorem State.setCtx_clk (s : State) (c : Ctx) : (s.setCtx c).clk = s.clk := rfl
@[simp] theorem State.setCtx_clkFrac (s : State) (c : Ctx) : (s.setCtx c).clkFrac = s.clkFrac := rfl
@[simp] theorem State.setCtx_loc (s : State) (c : Ctx) : (s.setCtx c).loc = s.loc := rfl
@[simp] theorem State.setCtx_host (s : State) (c : Ctx) : (s.setCtx c).host = s.host := rfl
@[simp] theorem State.setCtx_peer (s : State) (c : Ctx) : (s.setCtx c).peer = s.peer := rfl
@[simp] theorem State.setCtx_pool (s : State) (c : Ctx) : (s.setCtx c).pool = s.pool := rfl
@[simp] theorem State.setCtx_rkmem (s : State) (c : Ctx) : (s.setCtx c).rkmem = s.rkmem := rfl
@[simp] theorem State.setCtx_homes (s : State) (c : Ctx) : (s.setCtx c).homes = s.homes := rfl
@[simp] theorem State.setCtx_copies (s : State) (c : Ctx) : (s.setCtx c).copies = s.copies := rfl
@[simp] theorem State.setCtx_relaxed (s : State) (c : Ctx) : (s.setCtx c).relaxed = s.relaxed := rfl
@[simp] theorem State.setCtx_releases (s : State) (c : Ctx) : (s.setCtx c).releases = s.releases := rfl
@[simp] theorem State.setCtx_poison (s : State) (c : Ctx) : (s.setCtx c).poison = s.poison := rfl
@[simp] theorem State.setCtx_extClk (s : State) (c : Ctx) : (s.setCtx c).extClk = s.extClk := rfl
@[simp] theorem State.setCtx_seq (s : State) (c : Ctx) : (s.setCtx c).seq = s.seq := rfl
@[simp] theorem State.setCtx_leases (s : State) (c : Ctx) : (s.setCtx c).leases = s.leases := rfl
@[simp] theorem State.setCtx_fresh (s : State) (c : Ctx) : (s.setCtx c).fresh = s.fresh := rfl
@[simp] theorem State.setCtx_nextId (s : State) (c : Ctx) : (s.setCtx c).nextId = s.nextId := rfl
@[simp] theorem State.setCtx_agents (s : State) (c : Ctx) : (s.setCtx c).agents = s.agents := rfl
@[simp] theorem State.setCtx_pend (s : State) (c : Ctx) : (s.setCtx c).pend = s.pend := rfl
@[simp] theorem State.setCtx_blocks (s : State) (c : Ctx) : (s.setCtx c).blocks = s.blocks := rfl
@[simp] theorem State.setCtx_gangs (s : State) (c : Ctx) : (s.setCtx c).gangs = s.gangs := rfl
@[simp] theorem State.setCtx_launches (s : State) (c : Ctx) : (s.setCtx c).launches = s.launches := rfl
@[simp] theorem State.setCtx_queues (s : State) (c : Ctx) : (s.setCtx c).queues = s.queues := rfl
@[simp] theorem State.setCtx_nextLaunch (s : State) (c : Ctx) : (s.setCtx c).nextLaunch = s.nextLaunch := rfl
@[simp] theorem State.setCtx_slotRuns (s : State) (c : Ctx) : (s.setCtx c).slotRuns = s.slotRuns := rfl
@[simp] theorem State.setCtx_hostTlbis (s : State) (c : Ctx) : (s.setCtx c).hostTlbis = s.hostTlbis := rfl
@[simp] theorem State.setCtx_tlb (s : State) (c : Ctx) : (s.setCtx c).tlb = s.tlb := rfl
@[simp] theorem State.setCtx_fetch (s : State) (c : Ctx) : (s.setCtx c).fetch = s.fetch := rfl
@[simp] theorem State.setCtx_fills (s : State) (c : Ctx) : (s.setCtx c).fills = s.fills := rfl
@[simp] theorem State.setCtx_asks (s : State) (c : Ctx) : (s.setCtx c).asks = s.asks := rfl
@[simp] theorem State.setCtx_rkLines (s : State) (c : Ctx) : (s.setCtx c).rkLines = s.rkLines := rfl
@[simp] theorem State.setCtx_pins (s : State) (c : Ctx) : (s.setCtx c).pins = s.pins := rfl
@[simp] theorem State.setCtx_jobs (s : State) (c : Ctx) : (s.setCtx c).jobs = s.jobs := rfl
@[simp] theorem State.setCtx_colls (s : State) (c : Ctx) : (s.setCtx c).colls = s.colls := rfl
@[simp] theorem State.setCtx_books (s : State) (c : Ctx) : (s.setCtx c).books = s.books := rfl
@[simp] theorem State.setCtx_chanTs (s : State) (c : Ctx) : (s.setCtx c).chanTs = s.chanTs := rfl
@[simp] theorem State.setCtx_stageHolds (s : State) (c : Ctx) : (s.setCtx c).stageHolds = s.stageHolds := rfl
@[simp] theorem State.setCtx_links (s : State) (c : Ctx) : (s.setCtx c).links = s.links := rfl
@[simp] theorem State.setCtx_regs (s : State) (c : Ctx) : (s.setCtx c).regs = s.regs := rfl
@[simp] theorem State.setCtx_events (s : State) (c : Ctx) : (s.setCtx c).events = s.events := rfl
@[simp] theorem State.setCtx_signals (s : State) (c : Ctx) : (s.setCtx c).signals = s.signals := rfl
@[simp] theorem State.setCtx_stops (s : State) (c : Ctx) : (s.setCtx c).stops = s.stops := rfl
@[simp] theorem State.setCtx_stalls (s : State) (c : Ctx) : (s.setCtx c).stalls = s.stalls := rfl
@[simp] theorem State.setCtx_issued (s : State) (c : Ctx) : (s.setCtx c).issued = s.issued := rfl
@[simp] theorem State.setCtx_cores (s : State) (c : Ctx) : (s.setCtx c).cores = s.cores := rfl
@[simp] theorem State.setCtx_sensors (s : State) (c : Ctx) : (s.setCtx c).sensors = s.sensors := rfl
@[simp] theorem State.setCtx_banks (s : State) (c : Ctx) : (s.setCtx c).banks = s.banks := rfl
@[simp] theorem State.setCtx_testers (s : State) (c : Ctx) : (s.setCtx c).testers = s.testers := rfl
@[simp] theorem State.setCtx_sampledIn (s : State) (c : Ctx) : (s.setCtx c).sampledIn = s.sampledIn := rfl
@[simp] theorem State.setCtx_allowedIn (s : State) (c : Ctx) : (s.setCtx c).allowedIn = s.allowedIn := rfl
@[simp] theorem State.setCtx_rotatedIn (s : State) (c : Ctx) : (s.setCtx c).rotatedIn = s.rotatedIn := rfl
@[simp] theorem State.setCtx_ports (s : State) (c : Ctx) : (s.setCtx c).ports = s.ports := rfl
@[simp] theorem State.setCtx_disps (s : State) (c : Ctx) : (s.setCtx c).disps = s.disps := rfl
@[simp] theorem State.setCtx_trails (s : State) (c : Ctx) : (s.setCtx c).trails = s.trails := rfl
@[simp] theorem State.setCtx_attest (s : State) (c : Ctx) : (s.setCtx c).attest = s.attest := rfl
@[simp] theorem State.setCtx_pilotLast (s : State) (c : Ctx) : (s.setCtx c).pilotLast = s.pilotLast := rfl
@[simp] theorem State.setCtx_power (s : State) (c : Ctx) : (s.setCtx c).power = s.power := rfl
@[simp] theorem State.setCtx_overSince (s : State) (c : Ctx) : (s.setCtx c).overSince = s.overSince := rfl
@[simp] theorem State.setCtx_cur (s : State) (c : Ctx) : (s.setCtx c).cur = s.cur := rfl
@[simp] theorem State.setCtx_agenda (s : State) (c : Ctx) : (s.setCtx c).agenda = s.agenda := rfl
@[simp] theorem State.setBook_tick (s : State) (b : Codebook) : (s.setBook b).tick = s.tick := rfl
@[simp] theorem State.setBook_clk (s : State) (b : Codebook) : (s.setBook b).clk = s.clk := rfl
@[simp] theorem State.setBook_clkFrac (s : State) (b : Codebook) : (s.setBook b).clkFrac = s.clkFrac := rfl
@[simp] theorem State.setBook_loc (s : State) (b : Codebook) : (s.setBook b).loc = s.loc := rfl
@[simp] theorem State.setBook_host (s : State) (b : Codebook) : (s.setBook b).host = s.host := rfl
@[simp] theorem State.setBook_peer (s : State) (b : Codebook) : (s.setBook b).peer = s.peer := rfl
@[simp] theorem State.setBook_pool (s : State) (b : Codebook) : (s.setBook b).pool = s.pool := rfl
@[simp] theorem State.setBook_rkmem (s : State) (b : Codebook) : (s.setBook b).rkmem = s.rkmem := rfl
@[simp] theorem State.setBook_homes (s : State) (b : Codebook) : (s.setBook b).homes = s.homes := rfl
@[simp] theorem State.setBook_copies (s : State) (b : Codebook) : (s.setBook b).copies = s.copies := rfl
@[simp] theorem State.setBook_relaxed (s : State) (b : Codebook) : (s.setBook b).relaxed = s.relaxed := rfl
@[simp] theorem State.setBook_releases (s : State) (b : Codebook) : (s.setBook b).releases = s.releases := rfl
@[simp] theorem State.setBook_poison (s : State) (b : Codebook) : (s.setBook b).poison = s.poison := rfl
@[simp] theorem State.setBook_extClk (s : State) (b : Codebook) : (s.setBook b).extClk = s.extClk := rfl
@[simp] theorem State.setBook_seq (s : State) (b : Codebook) : (s.setBook b).seq = s.seq := rfl
@[simp] theorem State.setBook_leases (s : State) (b : Codebook) : (s.setBook b).leases = s.leases := rfl
@[simp] theorem State.setBook_fresh (s : State) (b : Codebook) : (s.setBook b).fresh = s.fresh := rfl
@[simp] theorem State.setBook_nextId (s : State) (b : Codebook) : (s.setBook b).nextId = s.nextId := rfl
@[simp] theorem State.setBook_agents (s : State) (b : Codebook) : (s.setBook b).agents = s.agents := rfl
@[simp] theorem State.setBook_pend (s : State) (b : Codebook) : (s.setBook b).pend = s.pend := rfl
@[simp] theorem State.setBook_blocks (s : State) (b : Codebook) : (s.setBook b).blocks = s.blocks := rfl
@[simp] theorem State.setBook_gangs (s : State) (b : Codebook) : (s.setBook b).gangs = s.gangs := rfl
@[simp] theorem State.setBook_launches (s : State) (b : Codebook) : (s.setBook b).launches = s.launches := rfl
@[simp] theorem State.setBook_queues (s : State) (b : Codebook) : (s.setBook b).queues = s.queues := rfl
@[simp] theorem State.setBook_nextLaunch (s : State) (b : Codebook) : (s.setBook b).nextLaunch = s.nextLaunch := rfl
@[simp] theorem State.setBook_slotRuns (s : State) (b : Codebook) : (s.setBook b).slotRuns = s.slotRuns := rfl
@[simp] theorem State.setBook_hostTlbis (s : State) (b : Codebook) : (s.setBook b).hostTlbis = s.hostTlbis := rfl
@[simp] theorem State.setBook_ctxs (s : State) (b : Codebook) : (s.setBook b).ctxs = s.ctxs := rfl
@[simp] theorem State.setBook_tlb (s : State) (b : Codebook) : (s.setBook b).tlb = s.tlb := rfl
@[simp] theorem State.setBook_fetch (s : State) (b : Codebook) : (s.setBook b).fetch = s.fetch := rfl
@[simp] theorem State.setBook_fills (s : State) (b : Codebook) : (s.setBook b).fills = s.fills := rfl
@[simp] theorem State.setBook_asks (s : State) (b : Codebook) : (s.setBook b).asks = s.asks := rfl
@[simp] theorem State.setBook_rkLines (s : State) (b : Codebook) : (s.setBook b).rkLines = s.rkLines := rfl
@[simp] theorem State.setBook_pins (s : State) (b : Codebook) : (s.setBook b).pins = s.pins := rfl
@[simp] theorem State.setBook_jobs (s : State) (b : Codebook) : (s.setBook b).jobs = s.jobs := rfl
@[simp] theorem State.setBook_colls (s : State) (b : Codebook) : (s.setBook b).colls = s.colls := rfl
@[simp] theorem State.setBook_chanTs (s : State) (b : Codebook) : (s.setBook b).chanTs = s.chanTs := rfl
@[simp] theorem State.setBook_stageHolds (s : State) (b : Codebook) : (s.setBook b).stageHolds = s.stageHolds := rfl
@[simp] theorem State.setBook_links (s : State) (b : Codebook) : (s.setBook b).links = s.links := rfl
@[simp] theorem State.setBook_regs (s : State) (b : Codebook) : (s.setBook b).regs = s.regs := rfl
@[simp] theorem State.setBook_events (s : State) (b : Codebook) : (s.setBook b).events = s.events := rfl
@[simp] theorem State.setBook_signals (s : State) (b : Codebook) : (s.setBook b).signals = s.signals := rfl
@[simp] theorem State.setBook_stops (s : State) (b : Codebook) : (s.setBook b).stops = s.stops := rfl
@[simp] theorem State.setBook_stalls (s : State) (b : Codebook) : (s.setBook b).stalls = s.stalls := rfl
@[simp] theorem State.setBook_issued (s : State) (b : Codebook) : (s.setBook b).issued = s.issued := rfl
@[simp] theorem State.setBook_cores (s : State) (b : Codebook) : (s.setBook b).cores = s.cores := rfl
@[simp] theorem State.setBook_sensors (s : State) (b : Codebook) : (s.setBook b).sensors = s.sensors := rfl
@[simp] theorem State.setBook_banks (s : State) (b : Codebook) : (s.setBook b).banks = s.banks := rfl
@[simp] theorem State.setBook_testers (s : State) (b : Codebook) : (s.setBook b).testers = s.testers := rfl
@[simp] theorem State.setBook_sampledIn (s : State) (b : Codebook) : (s.setBook b).sampledIn = s.sampledIn := rfl
@[simp] theorem State.setBook_allowedIn (s : State) (b : Codebook) : (s.setBook b).allowedIn = s.allowedIn := rfl
@[simp] theorem State.setBook_rotatedIn (s : State) (b : Codebook) : (s.setBook b).rotatedIn = s.rotatedIn := rfl
@[simp] theorem State.setBook_ports (s : State) (b : Codebook) : (s.setBook b).ports = s.ports := rfl
@[simp] theorem State.setBook_disps (s : State) (b : Codebook) : (s.setBook b).disps = s.disps := rfl
@[simp] theorem State.setBook_trails (s : State) (b : Codebook) : (s.setBook b).trails = s.trails := rfl
@[simp] theorem State.setBook_attest (s : State) (b : Codebook) : (s.setBook b).attest = s.attest := rfl
@[simp] theorem State.setBook_pilotLast (s : State) (b : Codebook) : (s.setBook b).pilotLast = s.pilotLast := rfl
@[simp] theorem State.setBook_power (s : State) (b : Codebook) : (s.setBook b).power = s.power := rfl
@[simp] theorem State.setBook_overSince (s : State) (b : Codebook) : (s.setBook b).overSince = s.overSince := rfl
@[simp] theorem State.setBook_cur (s : State) (b : Codebook) : (s.setBook b).cur = s.cur := rfl
@[simp] theorem State.setBook_agenda (s : State) (b : Codebook) : (s.setBook b).agenda = s.agenda := rfl
@[simp] theorem State.setCore_tick (s : State) (c : CoreSt) : (s.setCore c).tick = s.tick := rfl
@[simp] theorem State.setCore_clk (s : State) (c : CoreSt) : (s.setCore c).clk = s.clk := rfl
@[simp] theorem State.setCore_clkFrac (s : State) (c : CoreSt) : (s.setCore c).clkFrac = s.clkFrac := rfl
@[simp] theorem State.setCore_loc (s : State) (c : CoreSt) : (s.setCore c).loc = s.loc := rfl
@[simp] theorem State.setCore_host (s : State) (c : CoreSt) : (s.setCore c).host = s.host := rfl
@[simp] theorem State.setCore_peer (s : State) (c : CoreSt) : (s.setCore c).peer = s.peer := rfl
@[simp] theorem State.setCore_pool (s : State) (c : CoreSt) : (s.setCore c).pool = s.pool := rfl
@[simp] theorem State.setCore_rkmem (s : State) (c : CoreSt) : (s.setCore c).rkmem = s.rkmem := rfl
@[simp] theorem State.setCore_homes (s : State) (c : CoreSt) : (s.setCore c).homes = s.homes := rfl
@[simp] theorem State.setCore_copies (s : State) (c : CoreSt) : (s.setCore c).copies = s.copies := rfl
@[simp] theorem State.setCore_relaxed (s : State) (c : CoreSt) : (s.setCore c).relaxed = s.relaxed := rfl
@[simp] theorem State.setCore_releases (s : State) (c : CoreSt) : (s.setCore c).releases = s.releases := rfl
@[simp] theorem State.setCore_poison (s : State) (c : CoreSt) : (s.setCore c).poison = s.poison := rfl
@[simp] theorem State.setCore_extClk (s : State) (c : CoreSt) : (s.setCore c).extClk = s.extClk := rfl
@[simp] theorem State.setCore_seq (s : State) (c : CoreSt) : (s.setCore c).seq = s.seq := rfl
@[simp] theorem State.setCore_leases (s : State) (c : CoreSt) : (s.setCore c).leases = s.leases := rfl
@[simp] theorem State.setCore_fresh (s : State) (c : CoreSt) : (s.setCore c).fresh = s.fresh := rfl
@[simp] theorem State.setCore_nextId (s : State) (c : CoreSt) : (s.setCore c).nextId = s.nextId := rfl
@[simp] theorem State.setCore_agents (s : State) (c : CoreSt) : (s.setCore c).agents = s.agents := rfl
@[simp] theorem State.setCore_pend (s : State) (c : CoreSt) : (s.setCore c).pend = s.pend := rfl
@[simp] theorem State.setCore_blocks (s : State) (c : CoreSt) : (s.setCore c).blocks = s.blocks := rfl
@[simp] theorem State.setCore_gangs (s : State) (c : CoreSt) : (s.setCore c).gangs = s.gangs := rfl
@[simp] theorem State.setCore_launches (s : State) (c : CoreSt) : (s.setCore c).launches = s.launches := rfl
@[simp] theorem State.setCore_queues (s : State) (c : CoreSt) : (s.setCore c).queues = s.queues := rfl
@[simp] theorem State.setCore_nextLaunch (s : State) (c : CoreSt) : (s.setCore c).nextLaunch = s.nextLaunch := rfl
@[simp] theorem State.setCore_slotRuns (s : State) (c : CoreSt) : (s.setCore c).slotRuns = s.slotRuns := rfl
@[simp] theorem State.setCore_hostTlbis (s : State) (c : CoreSt) : (s.setCore c).hostTlbis = s.hostTlbis := rfl
@[simp] theorem State.setCore_ctxs (s : State) (c : CoreSt) : (s.setCore c).ctxs = s.ctxs := rfl
@[simp] theorem State.setCore_tlb (s : State) (c : CoreSt) : (s.setCore c).tlb = s.tlb := rfl
@[simp] theorem State.setCore_fetch (s : State) (c : CoreSt) : (s.setCore c).fetch = s.fetch := rfl
@[simp] theorem State.setCore_fills (s : State) (c : CoreSt) : (s.setCore c).fills = s.fills := rfl
@[simp] theorem State.setCore_asks (s : State) (c : CoreSt) : (s.setCore c).asks = s.asks := rfl
@[simp] theorem State.setCore_rkLines (s : State) (c : CoreSt) : (s.setCore c).rkLines = s.rkLines := rfl
@[simp] theorem State.setCore_pins (s : State) (c : CoreSt) : (s.setCore c).pins = s.pins := rfl
@[simp] theorem State.setCore_jobs (s : State) (c : CoreSt) : (s.setCore c).jobs = s.jobs := rfl
@[simp] theorem State.setCore_colls (s : State) (c : CoreSt) : (s.setCore c).colls = s.colls := rfl
@[simp] theorem State.setCore_books (s : State) (c : CoreSt) : (s.setCore c).books = s.books := rfl
@[simp] theorem State.setCore_chanTs (s : State) (c : CoreSt) : (s.setCore c).chanTs = s.chanTs := rfl
@[simp] theorem State.setCore_stageHolds (s : State) (c : CoreSt) : (s.setCore c).stageHolds = s.stageHolds := rfl
@[simp] theorem State.setCore_links (s : State) (c : CoreSt) : (s.setCore c).links = s.links := rfl
@[simp] theorem State.setCore_regs (s : State) (c : CoreSt) : (s.setCore c).regs = s.regs := rfl
@[simp] theorem State.setCore_events (s : State) (c : CoreSt) : (s.setCore c).events = s.events := rfl
@[simp] theorem State.setCore_signals (s : State) (c : CoreSt) : (s.setCore c).signals = s.signals := rfl
@[simp] theorem State.setCore_stops (s : State) (c : CoreSt) : (s.setCore c).stops = s.stops := rfl
@[simp] theorem State.setCore_stalls (s : State) (c : CoreSt) : (s.setCore c).stalls = s.stalls := rfl
@[simp] theorem State.setCore_issued (s : State) (c : CoreSt) : (s.setCore c).issued = s.issued := rfl
@[simp] theorem State.setCore_sensors (s : State) (c : CoreSt) : (s.setCore c).sensors = s.sensors := rfl
@[simp] theorem State.setCore_banks (s : State) (c : CoreSt) : (s.setCore c).banks = s.banks := rfl
@[simp] theorem State.setCore_testers (s : State) (c : CoreSt) : (s.setCore c).testers = s.testers := rfl
@[simp] theorem State.setCore_sampledIn (s : State) (c : CoreSt) : (s.setCore c).sampledIn = s.sampledIn := rfl
@[simp] theorem State.setCore_allowedIn (s : State) (c : CoreSt) : (s.setCore c).allowedIn = s.allowedIn := rfl
@[simp] theorem State.setCore_rotatedIn (s : State) (c : CoreSt) : (s.setCore c).rotatedIn = s.rotatedIn := rfl
@[simp] theorem State.setCore_ports (s : State) (c : CoreSt) : (s.setCore c).ports = s.ports := rfl
@[simp] theorem State.setCore_disps (s : State) (c : CoreSt) : (s.setCore c).disps = s.disps := rfl
@[simp] theorem State.setCore_trails (s : State) (c : CoreSt) : (s.setCore c).trails = s.trails := rfl
@[simp] theorem State.setCore_attest (s : State) (c : CoreSt) : (s.setCore c).attest = s.attest := rfl
@[simp] theorem State.setCore_pilotLast (s : State) (c : CoreSt) : (s.setCore c).pilotLast = s.pilotLast := rfl
@[simp] theorem State.setCore_power (s : State) (c : CoreSt) : (s.setCore c).power = s.power := rfl
@[simp] theorem State.setCore_overSince (s : State) (c : CoreSt) : (s.setCore c).overSince = s.overSince := rfl
@[simp] theorem State.setCore_cur (s : State) (c : CoreSt) : (s.setCore c).cur = s.cur := rfl
@[simp] theorem State.setCore_agenda (s : State) (c : CoreSt) : (s.setCore c).agenda = s.agenda := rfl
@[simp] theorem State.setSensor_tick (s : State) (x : Sensor) : (s.setSensor x).tick = s.tick := rfl
@[simp] theorem State.setSensor_clk (s : State) (x : Sensor) : (s.setSensor x).clk = s.clk := rfl
@[simp] theorem State.setSensor_clkFrac (s : State) (x : Sensor) : (s.setSensor x).clkFrac = s.clkFrac := rfl
@[simp] theorem State.setSensor_loc (s : State) (x : Sensor) : (s.setSensor x).loc = s.loc := rfl
@[simp] theorem State.setSensor_host (s : State) (x : Sensor) : (s.setSensor x).host = s.host := rfl
@[simp] theorem State.setSensor_peer (s : State) (x : Sensor) : (s.setSensor x).peer = s.peer := rfl
@[simp] theorem State.setSensor_pool (s : State) (x : Sensor) : (s.setSensor x).pool = s.pool := rfl
@[simp] theorem State.setSensor_rkmem (s : State) (x : Sensor) : (s.setSensor x).rkmem = s.rkmem := rfl
@[simp] theorem State.setSensor_homes (s : State) (x : Sensor) : (s.setSensor x).homes = s.homes := rfl
@[simp] theorem State.setSensor_copies (s : State) (x : Sensor) : (s.setSensor x).copies = s.copies := rfl
@[simp] theorem State.setSensor_relaxed (s : State) (x : Sensor) : (s.setSensor x).relaxed = s.relaxed := rfl
@[simp] theorem State.setSensor_releases (s : State) (x : Sensor) : (s.setSensor x).releases = s.releases := rfl
@[simp] theorem State.setSensor_poison (s : State) (x : Sensor) : (s.setSensor x).poison = s.poison := rfl
@[simp] theorem State.setSensor_extClk (s : State) (x : Sensor) : (s.setSensor x).extClk = s.extClk := rfl
@[simp] theorem State.setSensor_seq (s : State) (x : Sensor) : (s.setSensor x).seq = s.seq := rfl
@[simp] theorem State.setSensor_leases (s : State) (x : Sensor) : (s.setSensor x).leases = s.leases := rfl
@[simp] theorem State.setSensor_fresh (s : State) (x : Sensor) : (s.setSensor x).fresh = s.fresh := rfl
@[simp] theorem State.setSensor_nextId (s : State) (x : Sensor) : (s.setSensor x).nextId = s.nextId := rfl
@[simp] theorem State.setSensor_agents (s : State) (x : Sensor) : (s.setSensor x).agents = s.agents := rfl
@[simp] theorem State.setSensor_pend (s : State) (x : Sensor) : (s.setSensor x).pend = s.pend := rfl
@[simp] theorem State.setSensor_blocks (s : State) (x : Sensor) : (s.setSensor x).blocks = s.blocks := rfl
@[simp] theorem State.setSensor_gangs (s : State) (x : Sensor) : (s.setSensor x).gangs = s.gangs := rfl
@[simp] theorem State.setSensor_launches (s : State) (x : Sensor) : (s.setSensor x).launches = s.launches := rfl
@[simp] theorem State.setSensor_queues (s : State) (x : Sensor) : (s.setSensor x).queues = s.queues := rfl
@[simp] theorem State.setSensor_nextLaunch (s : State) (x : Sensor) : (s.setSensor x).nextLaunch = s.nextLaunch := rfl
@[simp] theorem State.setSensor_slotRuns (s : State) (x : Sensor) : (s.setSensor x).slotRuns = s.slotRuns := rfl
@[simp] theorem State.setSensor_hostTlbis (s : State) (x : Sensor) : (s.setSensor x).hostTlbis = s.hostTlbis := rfl
@[simp] theorem State.setSensor_ctxs (s : State) (x : Sensor) : (s.setSensor x).ctxs = s.ctxs := rfl
@[simp] theorem State.setSensor_tlb (s : State) (x : Sensor) : (s.setSensor x).tlb = s.tlb := rfl
@[simp] theorem State.setSensor_fetch (s : State) (x : Sensor) : (s.setSensor x).fetch = s.fetch := rfl
@[simp] theorem State.setSensor_fills (s : State) (x : Sensor) : (s.setSensor x).fills = s.fills := rfl
@[simp] theorem State.setSensor_asks (s : State) (x : Sensor) : (s.setSensor x).asks = s.asks := rfl
@[simp] theorem State.setSensor_rkLines (s : State) (x : Sensor) : (s.setSensor x).rkLines = s.rkLines := rfl
@[simp] theorem State.setSensor_pins (s : State) (x : Sensor) : (s.setSensor x).pins = s.pins := rfl
@[simp] theorem State.setSensor_jobs (s : State) (x : Sensor) : (s.setSensor x).jobs = s.jobs := rfl
@[simp] theorem State.setSensor_colls (s : State) (x : Sensor) : (s.setSensor x).colls = s.colls := rfl
@[simp] theorem State.setSensor_books (s : State) (x : Sensor) : (s.setSensor x).books = s.books := rfl
@[simp] theorem State.setSensor_chanTs (s : State) (x : Sensor) : (s.setSensor x).chanTs = s.chanTs := rfl
@[simp] theorem State.setSensor_stageHolds (s : State) (x : Sensor) : (s.setSensor x).stageHolds = s.stageHolds := rfl
@[simp] theorem State.setSensor_links (s : State) (x : Sensor) : (s.setSensor x).links = s.links := rfl
@[simp] theorem State.setSensor_regs (s : State) (x : Sensor) : (s.setSensor x).regs = s.regs := rfl
@[simp] theorem State.setSensor_events (s : State) (x : Sensor) : (s.setSensor x).events = s.events := rfl
@[simp] theorem State.setSensor_signals (s : State) (x : Sensor) : (s.setSensor x).signals = s.signals := rfl
@[simp] theorem State.setSensor_stops (s : State) (x : Sensor) : (s.setSensor x).stops = s.stops := rfl
@[simp] theorem State.setSensor_stalls (s : State) (x : Sensor) : (s.setSensor x).stalls = s.stalls := rfl
@[simp] theorem State.setSensor_issued (s : State) (x : Sensor) : (s.setSensor x).issued = s.issued := rfl
@[simp] theorem State.setSensor_cores (s : State) (x : Sensor) : (s.setSensor x).cores = s.cores := rfl
@[simp] theorem State.setSensor_banks (s : State) (x : Sensor) : (s.setSensor x).banks = s.banks := rfl
@[simp] theorem State.setSensor_testers (s : State) (x : Sensor) : (s.setSensor x).testers = s.testers := rfl
@[simp] theorem State.setSensor_sampledIn (s : State) (x : Sensor) : (s.setSensor x).sampledIn = s.sampledIn := rfl
@[simp] theorem State.setSensor_allowedIn (s : State) (x : Sensor) : (s.setSensor x).allowedIn = s.allowedIn := rfl
@[simp] theorem State.setSensor_rotatedIn (s : State) (x : Sensor) : (s.setSensor x).rotatedIn = s.rotatedIn := rfl
@[simp] theorem State.setSensor_ports (s : State) (x : Sensor) : (s.setSensor x).ports = s.ports := rfl
@[simp] theorem State.setSensor_disps (s : State) (x : Sensor) : (s.setSensor x).disps = s.disps := rfl
@[simp] theorem State.setSensor_trails (s : State) (x : Sensor) : (s.setSensor x).trails = s.trails := rfl
@[simp] theorem State.setSensor_attest (s : State) (x : Sensor) : (s.setSensor x).attest = s.attest := rfl
@[simp] theorem State.setSensor_pilotLast (s : State) (x : Sensor) : (s.setSensor x).pilotLast = s.pilotLast := rfl
@[simp] theorem State.setSensor_power (s : State) (x : Sensor) : (s.setSensor x).power = s.power := rfl
@[simp] theorem State.setSensor_overSince (s : State) (x : Sensor) : (s.setSensor x).overSince = s.overSince := rfl
@[simp] theorem State.setSensor_cur (s : State) (x : Sensor) : (s.setSensor x).cur = s.cur := rfl
@[simp] theorem State.setSensor_agenda (s : State) (x : Sensor) : (s.setSensor x).agenda = s.agenda := rfl
@[simp] theorem State.setBank_tick (s : State) (x : Bank) : (s.setBank x).tick = s.tick := rfl
@[simp] theorem State.setBank_clk (s : State) (x : Bank) : (s.setBank x).clk = s.clk := rfl
@[simp] theorem State.setBank_clkFrac (s : State) (x : Bank) : (s.setBank x).clkFrac = s.clkFrac := rfl
@[simp] theorem State.setBank_loc (s : State) (x : Bank) : (s.setBank x).loc = s.loc := rfl
@[simp] theorem State.setBank_host (s : State) (x : Bank) : (s.setBank x).host = s.host := rfl
@[simp] theorem State.setBank_peer (s : State) (x : Bank) : (s.setBank x).peer = s.peer := rfl
@[simp] theorem State.setBank_pool (s : State) (x : Bank) : (s.setBank x).pool = s.pool := rfl
@[simp] theorem State.setBank_rkmem (s : State) (x : Bank) : (s.setBank x).rkmem = s.rkmem := rfl
@[simp] theorem State.setBank_homes (s : State) (x : Bank) : (s.setBank x).homes = s.homes := rfl
@[simp] theorem State.setBank_copies (s : State) (x : Bank) : (s.setBank x).copies = s.copies := rfl
@[simp] theorem State.setBank_relaxed (s : State) (x : Bank) : (s.setBank x).relaxed = s.relaxed := rfl
@[simp] theorem State.setBank_releases (s : State) (x : Bank) : (s.setBank x).releases = s.releases := rfl
@[simp] theorem State.setBank_poison (s : State) (x : Bank) : (s.setBank x).poison = s.poison := rfl
@[simp] theorem State.setBank_extClk (s : State) (x : Bank) : (s.setBank x).extClk = s.extClk := rfl
@[simp] theorem State.setBank_seq (s : State) (x : Bank) : (s.setBank x).seq = s.seq := rfl
@[simp] theorem State.setBank_leases (s : State) (x : Bank) : (s.setBank x).leases = s.leases := rfl
@[simp] theorem State.setBank_fresh (s : State) (x : Bank) : (s.setBank x).fresh = s.fresh := rfl
@[simp] theorem State.setBank_nextId (s : State) (x : Bank) : (s.setBank x).nextId = s.nextId := rfl
@[simp] theorem State.setBank_agents (s : State) (x : Bank) : (s.setBank x).agents = s.agents := rfl
@[simp] theorem State.setBank_pend (s : State) (x : Bank) : (s.setBank x).pend = s.pend := rfl
@[simp] theorem State.setBank_blocks (s : State) (x : Bank) : (s.setBank x).blocks = s.blocks := rfl
@[simp] theorem State.setBank_gangs (s : State) (x : Bank) : (s.setBank x).gangs = s.gangs := rfl
@[simp] theorem State.setBank_launches (s : State) (x : Bank) : (s.setBank x).launches = s.launches := rfl
@[simp] theorem State.setBank_queues (s : State) (x : Bank) : (s.setBank x).queues = s.queues := rfl
@[simp] theorem State.setBank_nextLaunch (s : State) (x : Bank) : (s.setBank x).nextLaunch = s.nextLaunch := rfl
@[simp] theorem State.setBank_slotRuns (s : State) (x : Bank) : (s.setBank x).slotRuns = s.slotRuns := rfl
@[simp] theorem State.setBank_hostTlbis (s : State) (x : Bank) : (s.setBank x).hostTlbis = s.hostTlbis := rfl
@[simp] theorem State.setBank_ctxs (s : State) (x : Bank) : (s.setBank x).ctxs = s.ctxs := rfl
@[simp] theorem State.setBank_tlb (s : State) (x : Bank) : (s.setBank x).tlb = s.tlb := rfl
@[simp] theorem State.setBank_fetch (s : State) (x : Bank) : (s.setBank x).fetch = s.fetch := rfl
@[simp] theorem State.setBank_fills (s : State) (x : Bank) : (s.setBank x).fills = s.fills := rfl
@[simp] theorem State.setBank_asks (s : State) (x : Bank) : (s.setBank x).asks = s.asks := rfl
@[simp] theorem State.setBank_rkLines (s : State) (x : Bank) : (s.setBank x).rkLines = s.rkLines := rfl
@[simp] theorem State.setBank_pins (s : State) (x : Bank) : (s.setBank x).pins = s.pins := rfl
@[simp] theorem State.setBank_jobs (s : State) (x : Bank) : (s.setBank x).jobs = s.jobs := rfl
@[simp] theorem State.setBank_colls (s : State) (x : Bank) : (s.setBank x).colls = s.colls := rfl
@[simp] theorem State.setBank_books (s : State) (x : Bank) : (s.setBank x).books = s.books := rfl
@[simp] theorem State.setBank_chanTs (s : State) (x : Bank) : (s.setBank x).chanTs = s.chanTs := rfl
@[simp] theorem State.setBank_stageHolds (s : State) (x : Bank) : (s.setBank x).stageHolds = s.stageHolds := rfl
@[simp] theorem State.setBank_links (s : State) (x : Bank) : (s.setBank x).links = s.links := rfl
@[simp] theorem State.setBank_regs (s : State) (x : Bank) : (s.setBank x).regs = s.regs := rfl
@[simp] theorem State.setBank_events (s : State) (x : Bank) : (s.setBank x).events = s.events := rfl
@[simp] theorem State.setBank_signals (s : State) (x : Bank) : (s.setBank x).signals = s.signals := rfl
@[simp] theorem State.setBank_stops (s : State) (x : Bank) : (s.setBank x).stops = s.stops := rfl
@[simp] theorem State.setBank_stalls (s : State) (x : Bank) : (s.setBank x).stalls = s.stalls := rfl
@[simp] theorem State.setBank_issued (s : State) (x : Bank) : (s.setBank x).issued = s.issued := rfl
@[simp] theorem State.setBank_cores (s : State) (x : Bank) : (s.setBank x).cores = s.cores := rfl
@[simp] theorem State.setBank_sensors (s : State) (x : Bank) : (s.setBank x).sensors = s.sensors := rfl
@[simp] theorem State.setBank_testers (s : State) (x : Bank) : (s.setBank x).testers = s.testers := rfl
@[simp] theorem State.setBank_sampledIn (s : State) (x : Bank) : (s.setBank x).sampledIn = s.sampledIn := rfl
@[simp] theorem State.setBank_allowedIn (s : State) (x : Bank) : (s.setBank x).allowedIn = s.allowedIn := rfl
@[simp] theorem State.setBank_rotatedIn (s : State) (x : Bank) : (s.setBank x).rotatedIn = s.rotatedIn := rfl
@[simp] theorem State.setBank_ports (s : State) (x : Bank) : (s.setBank x).ports = s.ports := rfl
@[simp] theorem State.setBank_disps (s : State) (x : Bank) : (s.setBank x).disps = s.disps := rfl
@[simp] theorem State.setBank_trails (s : State) (x : Bank) : (s.setBank x).trails = s.trails := rfl
@[simp] theorem State.setBank_attest (s : State) (x : Bank) : (s.setBank x).attest = s.attest := rfl
@[simp] theorem State.setBank_pilotLast (s : State) (x : Bank) : (s.setBank x).pilotLast = s.pilotLast := rfl
@[simp] theorem State.setBank_power (s : State) (x : Bank) : (s.setBank x).power = s.power := rfl
@[simp] theorem State.setBank_overSince (s : State) (x : Bank) : (s.setBank x).overSince = s.overSince := rfl
@[simp] theorem State.setBank_cur (s : State) (x : Bank) : (s.setBank x).cur = s.cur := rfl
@[simp] theorem State.setBank_agenda (s : State) (x : Bank) : (s.setBank x).agenda = s.agenda := rfl
@[simp] theorem State.setTester_tick (s : State) (x : Tester) : (s.setTester x).tick = s.tick := rfl
@[simp] theorem State.setTester_clk (s : State) (x : Tester) : (s.setTester x).clk = s.clk := rfl
@[simp] theorem State.setTester_clkFrac (s : State) (x : Tester) : (s.setTester x).clkFrac = s.clkFrac := rfl
@[simp] theorem State.setTester_loc (s : State) (x : Tester) : (s.setTester x).loc = s.loc := rfl
@[simp] theorem State.setTester_host (s : State) (x : Tester) : (s.setTester x).host = s.host := rfl
@[simp] theorem State.setTester_peer (s : State) (x : Tester) : (s.setTester x).peer = s.peer := rfl
@[simp] theorem State.setTester_pool (s : State) (x : Tester) : (s.setTester x).pool = s.pool := rfl
@[simp] theorem State.setTester_rkmem (s : State) (x : Tester) : (s.setTester x).rkmem = s.rkmem := rfl
@[simp] theorem State.setTester_homes (s : State) (x : Tester) : (s.setTester x).homes = s.homes := rfl
@[simp] theorem State.setTester_copies (s : State) (x : Tester) : (s.setTester x).copies = s.copies := rfl
@[simp] theorem State.setTester_relaxed (s : State) (x : Tester) : (s.setTester x).relaxed = s.relaxed := rfl
@[simp] theorem State.setTester_releases (s : State) (x : Tester) : (s.setTester x).releases = s.releases := rfl
@[simp] theorem State.setTester_poison (s : State) (x : Tester) : (s.setTester x).poison = s.poison := rfl
@[simp] theorem State.setTester_extClk (s : State) (x : Tester) : (s.setTester x).extClk = s.extClk := rfl
@[simp] theorem State.setTester_seq (s : State) (x : Tester) : (s.setTester x).seq = s.seq := rfl
@[simp] theorem State.setTester_leases (s : State) (x : Tester) : (s.setTester x).leases = s.leases := rfl
@[simp] theorem State.setTester_fresh (s : State) (x : Tester) : (s.setTester x).fresh = s.fresh := rfl
@[simp] theorem State.setTester_nextId (s : State) (x : Tester) : (s.setTester x).nextId = s.nextId := rfl
@[simp] theorem State.setTester_agents (s : State) (x : Tester) : (s.setTester x).agents = s.agents := rfl
@[simp] theorem State.setTester_pend (s : State) (x : Tester) : (s.setTester x).pend = s.pend := rfl
@[simp] theorem State.setTester_blocks (s : State) (x : Tester) : (s.setTester x).blocks = s.blocks := rfl
@[simp] theorem State.setTester_gangs (s : State) (x : Tester) : (s.setTester x).gangs = s.gangs := rfl
@[simp] theorem State.setTester_launches (s : State) (x : Tester) : (s.setTester x).launches = s.launches := rfl
@[simp] theorem State.setTester_queues (s : State) (x : Tester) : (s.setTester x).queues = s.queues := rfl
@[simp] theorem State.setTester_nextLaunch (s : State) (x : Tester) : (s.setTester x).nextLaunch = s.nextLaunch := rfl
@[simp] theorem State.setTester_slotRuns (s : State) (x : Tester) : (s.setTester x).slotRuns = s.slotRuns := rfl
@[simp] theorem State.setTester_hostTlbis (s : State) (x : Tester) : (s.setTester x).hostTlbis = s.hostTlbis := rfl
@[simp] theorem State.setTester_ctxs (s : State) (x : Tester) : (s.setTester x).ctxs = s.ctxs := rfl
@[simp] theorem State.setTester_tlb (s : State) (x : Tester) : (s.setTester x).tlb = s.tlb := rfl
@[simp] theorem State.setTester_fetch (s : State) (x : Tester) : (s.setTester x).fetch = s.fetch := rfl
@[simp] theorem State.setTester_fills (s : State) (x : Tester) : (s.setTester x).fills = s.fills := rfl
@[simp] theorem State.setTester_asks (s : State) (x : Tester) : (s.setTester x).asks = s.asks := rfl
@[simp] theorem State.setTester_rkLines (s : State) (x : Tester) : (s.setTester x).rkLines = s.rkLines := rfl
@[simp] theorem State.setTester_pins (s : State) (x : Tester) : (s.setTester x).pins = s.pins := rfl
@[simp] theorem State.setTester_jobs (s : State) (x : Tester) : (s.setTester x).jobs = s.jobs := rfl
@[simp] theorem State.setTester_colls (s : State) (x : Tester) : (s.setTester x).colls = s.colls := rfl
@[simp] theorem State.setTester_books (s : State) (x : Tester) : (s.setTester x).books = s.books := rfl
@[simp] theorem State.setTester_chanTs (s : State) (x : Tester) : (s.setTester x).chanTs = s.chanTs := rfl
@[simp] theorem State.setTester_stageHolds (s : State) (x : Tester) : (s.setTester x).stageHolds = s.stageHolds := rfl
@[simp] theorem State.setTester_links (s : State) (x : Tester) : (s.setTester x).links = s.links := rfl
@[simp] theorem State.setTester_regs (s : State) (x : Tester) : (s.setTester x).regs = s.regs := rfl
@[simp] theorem State.setTester_events (s : State) (x : Tester) : (s.setTester x).events = s.events := rfl
@[simp] theorem State.setTester_signals (s : State) (x : Tester) : (s.setTester x).signals = s.signals := rfl
@[simp] theorem State.setTester_stops (s : State) (x : Tester) : (s.setTester x).stops = s.stops := rfl
@[simp] theorem State.setTester_stalls (s : State) (x : Tester) : (s.setTester x).stalls = s.stalls := rfl
@[simp] theorem State.setTester_issued (s : State) (x : Tester) : (s.setTester x).issued = s.issued := rfl
@[simp] theorem State.setTester_cores (s : State) (x : Tester) : (s.setTester x).cores = s.cores := rfl
@[simp] theorem State.setTester_sensors (s : State) (x : Tester) : (s.setTester x).sensors = s.sensors := rfl
@[simp] theorem State.setTester_banks (s : State) (x : Tester) : (s.setTester x).banks = s.banks := rfl
@[simp] theorem State.setTester_sampledIn (s : State) (x : Tester) : (s.setTester x).sampledIn = s.sampledIn := rfl
@[simp] theorem State.setTester_allowedIn (s : State) (x : Tester) : (s.setTester x).allowedIn = s.allowedIn := rfl
@[simp] theorem State.setTester_rotatedIn (s : State) (x : Tester) : (s.setTester x).rotatedIn = s.rotatedIn := rfl
@[simp] theorem State.setTester_ports (s : State) (x : Tester) : (s.setTester x).ports = s.ports := rfl
@[simp] theorem State.setTester_disps (s : State) (x : Tester) : (s.setTester x).disps = s.disps := rfl
@[simp] theorem State.setTester_trails (s : State) (x : Tester) : (s.setTester x).trails = s.trails := rfl
@[simp] theorem State.setTester_attest (s : State) (x : Tester) : (s.setTester x).attest = s.attest := rfl
@[simp] theorem State.setTester_pilotLast (s : State) (x : Tester) : (s.setTester x).pilotLast = s.pilotLast := rfl
@[simp] theorem State.setTester_power (s : State) (x : Tester) : (s.setTester x).power = s.power := rfl
@[simp] theorem State.setTester_overSince (s : State) (x : Tester) : (s.setTester x).overSince = s.overSince := rfl
@[simp] theorem State.setTester_cur (s : State) (x : Tester) : (s.setTester x).cur = s.cur := rfl
@[simp] theorem State.setTester_agenda (s : State) (x : Tester) : (s.setTester x).agenda = s.agenda := rfl
@[simp] theorem State.setPort_tick (s : State) (x : Port) : (s.setPort x).tick = s.tick := rfl
@[simp] theorem State.setPort_clk (s : State) (x : Port) : (s.setPort x).clk = s.clk := rfl
@[simp] theorem State.setPort_clkFrac (s : State) (x : Port) : (s.setPort x).clkFrac = s.clkFrac := rfl
@[simp] theorem State.setPort_loc (s : State) (x : Port) : (s.setPort x).loc = s.loc := rfl
@[simp] theorem State.setPort_host (s : State) (x : Port) : (s.setPort x).host = s.host := rfl
@[simp] theorem State.setPort_peer (s : State) (x : Port) : (s.setPort x).peer = s.peer := rfl
@[simp] theorem State.setPort_pool (s : State) (x : Port) : (s.setPort x).pool = s.pool := rfl
@[simp] theorem State.setPort_rkmem (s : State) (x : Port) : (s.setPort x).rkmem = s.rkmem := rfl
@[simp] theorem State.setPort_homes (s : State) (x : Port) : (s.setPort x).homes = s.homes := rfl
@[simp] theorem State.setPort_copies (s : State) (x : Port) : (s.setPort x).copies = s.copies := rfl
@[simp] theorem State.setPort_relaxed (s : State) (x : Port) : (s.setPort x).relaxed = s.relaxed := rfl
@[simp] theorem State.setPort_releases (s : State) (x : Port) : (s.setPort x).releases = s.releases := rfl
@[simp] theorem State.setPort_poison (s : State) (x : Port) : (s.setPort x).poison = s.poison := rfl
@[simp] theorem State.setPort_extClk (s : State) (x : Port) : (s.setPort x).extClk = s.extClk := rfl
@[simp] theorem State.setPort_seq (s : State) (x : Port) : (s.setPort x).seq = s.seq := rfl
@[simp] theorem State.setPort_leases (s : State) (x : Port) : (s.setPort x).leases = s.leases := rfl
@[simp] theorem State.setPort_fresh (s : State) (x : Port) : (s.setPort x).fresh = s.fresh := rfl
@[simp] theorem State.setPort_nextId (s : State) (x : Port) : (s.setPort x).nextId = s.nextId := rfl
@[simp] theorem State.setPort_agents (s : State) (x : Port) : (s.setPort x).agents = s.agents := rfl
@[simp] theorem State.setPort_pend (s : State) (x : Port) : (s.setPort x).pend = s.pend := rfl
@[simp] theorem State.setPort_blocks (s : State) (x : Port) : (s.setPort x).blocks = s.blocks := rfl
@[simp] theorem State.setPort_gangs (s : State) (x : Port) : (s.setPort x).gangs = s.gangs := rfl
@[simp] theorem State.setPort_launches (s : State) (x : Port) : (s.setPort x).launches = s.launches := rfl
@[simp] theorem State.setPort_queues (s : State) (x : Port) : (s.setPort x).queues = s.queues := rfl
@[simp] theorem State.setPort_nextLaunch (s : State) (x : Port) : (s.setPort x).nextLaunch = s.nextLaunch := rfl
@[simp] theorem State.setPort_slotRuns (s : State) (x : Port) : (s.setPort x).slotRuns = s.slotRuns := rfl
@[simp] theorem State.setPort_hostTlbis (s : State) (x : Port) : (s.setPort x).hostTlbis = s.hostTlbis := rfl
@[simp] theorem State.setPort_ctxs (s : State) (x : Port) : (s.setPort x).ctxs = s.ctxs := rfl
@[simp] theorem State.setPort_tlb (s : State) (x : Port) : (s.setPort x).tlb = s.tlb := rfl
@[simp] theorem State.setPort_fetch (s : State) (x : Port) : (s.setPort x).fetch = s.fetch := rfl
@[simp] theorem State.setPort_fills (s : State) (x : Port) : (s.setPort x).fills = s.fills := rfl
@[simp] theorem State.setPort_asks (s : State) (x : Port) : (s.setPort x).asks = s.asks := rfl
@[simp] theorem State.setPort_rkLines (s : State) (x : Port) : (s.setPort x).rkLines = s.rkLines := rfl
@[simp] theorem State.setPort_pins (s : State) (x : Port) : (s.setPort x).pins = s.pins := rfl
@[simp] theorem State.setPort_jobs (s : State) (x : Port) : (s.setPort x).jobs = s.jobs := rfl
@[simp] theorem State.setPort_colls (s : State) (x : Port) : (s.setPort x).colls = s.colls := rfl
@[simp] theorem State.setPort_books (s : State) (x : Port) : (s.setPort x).books = s.books := rfl
@[simp] theorem State.setPort_chanTs (s : State) (x : Port) : (s.setPort x).chanTs = s.chanTs := rfl
@[simp] theorem State.setPort_stageHolds (s : State) (x : Port) : (s.setPort x).stageHolds = s.stageHolds := rfl
@[simp] theorem State.setPort_links (s : State) (x : Port) : (s.setPort x).links = s.links := rfl
@[simp] theorem State.setPort_regs (s : State) (x : Port) : (s.setPort x).regs = s.regs := rfl
@[simp] theorem State.setPort_events (s : State) (x : Port) : (s.setPort x).events = s.events := rfl
@[simp] theorem State.setPort_signals (s : State) (x : Port) : (s.setPort x).signals = s.signals := rfl
@[simp] theorem State.setPort_stops (s : State) (x : Port) : (s.setPort x).stops = s.stops := rfl
@[simp] theorem State.setPort_stalls (s : State) (x : Port) : (s.setPort x).stalls = s.stalls := rfl
@[simp] theorem State.setPort_issued (s : State) (x : Port) : (s.setPort x).issued = s.issued := rfl
@[simp] theorem State.setPort_cores (s : State) (x : Port) : (s.setPort x).cores = s.cores := rfl
@[simp] theorem State.setPort_sensors (s : State) (x : Port) : (s.setPort x).sensors = s.sensors := rfl
@[simp] theorem State.setPort_banks (s : State) (x : Port) : (s.setPort x).banks = s.banks := rfl
@[simp] theorem State.setPort_testers (s : State) (x : Port) : (s.setPort x).testers = s.testers := rfl
@[simp] theorem State.setPort_sampledIn (s : State) (x : Port) : (s.setPort x).sampledIn = s.sampledIn := rfl
@[simp] theorem State.setPort_allowedIn (s : State) (x : Port) : (s.setPort x).allowedIn = s.allowedIn := rfl
@[simp] theorem State.setPort_rotatedIn (s : State) (x : Port) : (s.setPort x).rotatedIn = s.rotatedIn := rfl
@[simp] theorem State.setPort_disps (s : State) (x : Port) : (s.setPort x).disps = s.disps := rfl
@[simp] theorem State.setPort_trails (s : State) (x : Port) : (s.setPort x).trails = s.trails := rfl
@[simp] theorem State.setPort_attest (s : State) (x : Port) : (s.setPort x).attest = s.attest := rfl
@[simp] theorem State.setPort_pilotLast (s : State) (x : Port) : (s.setPort x).pilotLast = s.pilotLast := rfl
@[simp] theorem State.setPort_power (s : State) (x : Port) : (s.setPort x).power = s.power := rfl
@[simp] theorem State.setPort_overSince (s : State) (x : Port) : (s.setPort x).overSince = s.overSince := rfl
@[simp] theorem State.setPort_cur (s : State) (x : Port) : (s.setPort x).cur = s.cur := rfl
@[simp] theorem State.setPort_agenda (s : State) (x : Port) : (s.setPort x).agenda = s.agenda := rfl
@[simp] theorem State.setDisp_tick (s : State) (d : Disp) : (s.setDisp d).tick = s.tick := rfl
@[simp] theorem State.setDisp_clk (s : State) (d : Disp) : (s.setDisp d).clk = s.clk := rfl
@[simp] theorem State.setDisp_clkFrac (s : State) (d : Disp) : (s.setDisp d).clkFrac = s.clkFrac := rfl
@[simp] theorem State.setDisp_loc (s : State) (d : Disp) : (s.setDisp d).loc = s.loc := rfl
@[simp] theorem State.setDisp_host (s : State) (d : Disp) : (s.setDisp d).host = s.host := rfl
@[simp] theorem State.setDisp_peer (s : State) (d : Disp) : (s.setDisp d).peer = s.peer := rfl
@[simp] theorem State.setDisp_pool (s : State) (d : Disp) : (s.setDisp d).pool = s.pool := rfl
@[simp] theorem State.setDisp_rkmem (s : State) (d : Disp) : (s.setDisp d).rkmem = s.rkmem := rfl
@[simp] theorem State.setDisp_homes (s : State) (d : Disp) : (s.setDisp d).homes = s.homes := rfl
@[simp] theorem State.setDisp_copies (s : State) (d : Disp) : (s.setDisp d).copies = s.copies := rfl
@[simp] theorem State.setDisp_relaxed (s : State) (d : Disp) : (s.setDisp d).relaxed = s.relaxed := rfl
@[simp] theorem State.setDisp_releases (s : State) (d : Disp) : (s.setDisp d).releases = s.releases := rfl
@[simp] theorem State.setDisp_poison (s : State) (d : Disp) : (s.setDisp d).poison = s.poison := rfl
@[simp] theorem State.setDisp_extClk (s : State) (d : Disp) : (s.setDisp d).extClk = s.extClk := rfl
@[simp] theorem State.setDisp_seq (s : State) (d : Disp) : (s.setDisp d).seq = s.seq := rfl
@[simp] theorem State.setDisp_leases (s : State) (d : Disp) : (s.setDisp d).leases = s.leases := rfl
@[simp] theorem State.setDisp_fresh (s : State) (d : Disp) : (s.setDisp d).fresh = s.fresh := rfl
@[simp] theorem State.setDisp_nextId (s : State) (d : Disp) : (s.setDisp d).nextId = s.nextId := rfl
@[simp] theorem State.setDisp_agents (s : State) (d : Disp) : (s.setDisp d).agents = s.agents := rfl
@[simp] theorem State.setDisp_pend (s : State) (d : Disp) : (s.setDisp d).pend = s.pend := rfl
@[simp] theorem State.setDisp_blocks (s : State) (d : Disp) : (s.setDisp d).blocks = s.blocks := rfl
@[simp] theorem State.setDisp_gangs (s : State) (d : Disp) : (s.setDisp d).gangs = s.gangs := rfl
@[simp] theorem State.setDisp_launches (s : State) (d : Disp) : (s.setDisp d).launches = s.launches := rfl
@[simp] theorem State.setDisp_queues (s : State) (d : Disp) : (s.setDisp d).queues = s.queues := rfl
@[simp] theorem State.setDisp_nextLaunch (s : State) (d : Disp) : (s.setDisp d).nextLaunch = s.nextLaunch := rfl
@[simp] theorem State.setDisp_slotRuns (s : State) (d : Disp) : (s.setDisp d).slotRuns = s.slotRuns := rfl
@[simp] theorem State.setDisp_hostTlbis (s : State) (d : Disp) : (s.setDisp d).hostTlbis = s.hostTlbis := rfl
@[simp] theorem State.setDisp_ctxs (s : State) (d : Disp) : (s.setDisp d).ctxs = s.ctxs := rfl
@[simp] theorem State.setDisp_tlb (s : State) (d : Disp) : (s.setDisp d).tlb = s.tlb := rfl
@[simp] theorem State.setDisp_fetch (s : State) (d : Disp) : (s.setDisp d).fetch = s.fetch := rfl
@[simp] theorem State.setDisp_fills (s : State) (d : Disp) : (s.setDisp d).fills = s.fills := rfl
@[simp] theorem State.setDisp_asks (s : State) (d : Disp) : (s.setDisp d).asks = s.asks := rfl
@[simp] theorem State.setDisp_rkLines (s : State) (d : Disp) : (s.setDisp d).rkLines = s.rkLines := rfl
@[simp] theorem State.setDisp_pins (s : State) (d : Disp) : (s.setDisp d).pins = s.pins := rfl
@[simp] theorem State.setDisp_jobs (s : State) (d : Disp) : (s.setDisp d).jobs = s.jobs := rfl
@[simp] theorem State.setDisp_colls (s : State) (d : Disp) : (s.setDisp d).colls = s.colls := rfl
@[simp] theorem State.setDisp_books (s : State) (d : Disp) : (s.setDisp d).books = s.books := rfl
@[simp] theorem State.setDisp_chanTs (s : State) (d : Disp) : (s.setDisp d).chanTs = s.chanTs := rfl
@[simp] theorem State.setDisp_stageHolds (s : State) (d : Disp) : (s.setDisp d).stageHolds = s.stageHolds := rfl
@[simp] theorem State.setDisp_links (s : State) (d : Disp) : (s.setDisp d).links = s.links := rfl
@[simp] theorem State.setDisp_regs (s : State) (d : Disp) : (s.setDisp d).regs = s.regs := rfl
@[simp] theorem State.setDisp_events (s : State) (d : Disp) : (s.setDisp d).events = s.events := rfl
@[simp] theorem State.setDisp_signals (s : State) (d : Disp) : (s.setDisp d).signals = s.signals := rfl
@[simp] theorem State.setDisp_stops (s : State) (d : Disp) : (s.setDisp d).stops = s.stops := rfl
@[simp] theorem State.setDisp_stalls (s : State) (d : Disp) : (s.setDisp d).stalls = s.stalls := rfl
@[simp] theorem State.setDisp_issued (s : State) (d : Disp) : (s.setDisp d).issued = s.issued := rfl
@[simp] theorem State.setDisp_cores (s : State) (d : Disp) : (s.setDisp d).cores = s.cores := rfl
@[simp] theorem State.setDisp_sensors (s : State) (d : Disp) : (s.setDisp d).sensors = s.sensors := rfl
@[simp] theorem State.setDisp_banks (s : State) (d : Disp) : (s.setDisp d).banks = s.banks := rfl
@[simp] theorem State.setDisp_testers (s : State) (d : Disp) : (s.setDisp d).testers = s.testers := rfl
@[simp] theorem State.setDisp_sampledIn (s : State) (d : Disp) : (s.setDisp d).sampledIn = s.sampledIn := rfl
@[simp] theorem State.setDisp_allowedIn (s : State) (d : Disp) : (s.setDisp d).allowedIn = s.allowedIn := rfl
@[simp] theorem State.setDisp_rotatedIn (s : State) (d : Disp) : (s.setDisp d).rotatedIn = s.rotatedIn := rfl
@[simp] theorem State.setDisp_ports (s : State) (d : Disp) : (s.setDisp d).ports = s.ports := rfl
@[simp] theorem State.setDisp_trails (s : State) (d : Disp) : (s.setDisp d).trails = s.trails := rfl
@[simp] theorem State.setDisp_attest (s : State) (d : Disp) : (s.setDisp d).attest = s.attest := rfl
@[simp] theorem State.setDisp_pilotLast (s : State) (d : Disp) : (s.setDisp d).pilotLast = s.pilotLast := rfl
@[simp] theorem State.setDisp_power (s : State) (d : Disp) : (s.setDisp d).power = s.power := rfl
@[simp] theorem State.setDisp_overSince (s : State) (d : Disp) : (s.setDisp d).overSince = s.overSince := rfl
@[simp] theorem State.setDisp_cur (s : State) (d : Disp) : (s.setDisp d).cur = s.cur := rfl
@[simp] theorem State.setDisp_agenda (s : State) (d : Disp) : (s.setDisp d).agenda = s.agenda := rfl
@[simp] theorem charge_tick (s : State) (g : GangKey) (role amount : Nat) : (charge s g role amount).tick = s.tick := rfl
@[simp] theorem charge_clk (s : State) (g : GangKey) (role amount : Nat) : (charge s g role amount).clk = s.clk := rfl
@[simp] theorem charge_clkFrac (s : State) (g : GangKey) (role amount : Nat) : (charge s g role amount).clkFrac = s.clkFrac := rfl
@[simp] theorem charge_loc (s : State) (g : GangKey) (role amount : Nat) : (charge s g role amount).loc = s.loc := rfl
@[simp] theorem charge_host (s : State) (g : GangKey) (role amount : Nat) : (charge s g role amount).host = s.host := rfl
@[simp] theorem charge_peer (s : State) (g : GangKey) (role amount : Nat) : (charge s g role amount).peer = s.peer := rfl
@[simp] theorem charge_pool (s : State) (g : GangKey) (role amount : Nat) : (charge s g role amount).pool = s.pool := rfl
@[simp] theorem charge_rkmem (s : State) (g : GangKey) (role amount : Nat) : (charge s g role amount).rkmem = s.rkmem := rfl
@[simp] theorem charge_homes (s : State) (g : GangKey) (role amount : Nat) : (charge s g role amount).homes = s.homes := rfl
@[simp] theorem charge_copies (s : State) (g : GangKey) (role amount : Nat) : (charge s g role amount).copies = s.copies := rfl
@[simp] theorem charge_relaxed (s : State) (g : GangKey) (role amount : Nat) : (charge s g role amount).relaxed = s.relaxed := rfl
@[simp] theorem charge_releases (s : State) (g : GangKey) (role amount : Nat) : (charge s g role amount).releases = s.releases := rfl
@[simp] theorem charge_poison (s : State) (g : GangKey) (role amount : Nat) : (charge s g role amount).poison = s.poison := rfl
@[simp] theorem charge_extClk (s : State) (g : GangKey) (role amount : Nat) : (charge s g role amount).extClk = s.extClk := rfl
@[simp] theorem charge_seq (s : State) (g : GangKey) (role amount : Nat) : (charge s g role amount).seq = s.seq := rfl
@[simp] theorem charge_leases (s : State) (g : GangKey) (role amount : Nat) : (charge s g role amount).leases = s.leases := rfl
@[simp] theorem charge_fresh (s : State) (g : GangKey) (role amount : Nat) : (charge s g role amount).fresh = s.fresh := rfl
@[simp] theorem charge_nextId (s : State) (g : GangKey) (role amount : Nat) : (charge s g role amount).nextId = s.nextId := rfl
@[simp] theorem charge_agents (s : State) (g : GangKey) (role amount : Nat) : (charge s g role amount).agents = s.agents := rfl
@[simp] theorem charge_pend (s : State) (g : GangKey) (role amount : Nat) : (charge s g role amount).pend = s.pend := rfl
@[simp] theorem charge_gangs (s : State) (g : GangKey) (role amount : Nat) : (charge s g role amount).gangs = s.gangs := rfl
@[simp] theorem charge_launches (s : State) (g : GangKey) (role amount : Nat) : (charge s g role amount).launches = s.launches := rfl
@[simp] theorem charge_queues (s : State) (g : GangKey) (role amount : Nat) : (charge s g role amount).queues = s.queues := rfl
@[simp] theorem charge_nextLaunch (s : State) (g : GangKey) (role amount : Nat) : (charge s g role amount).nextLaunch = s.nextLaunch := rfl
@[simp] theorem charge_slotRuns (s : State) (g : GangKey) (role amount : Nat) : (charge s g role amount).slotRuns = s.slotRuns := rfl
@[simp] theorem charge_hostTlbis (s : State) (g : GangKey) (role amount : Nat) : (charge s g role amount).hostTlbis = s.hostTlbis := rfl
@[simp] theorem charge_ctxs (s : State) (g : GangKey) (role amount : Nat) : (charge s g role amount).ctxs = s.ctxs := rfl
@[simp] theorem charge_tlb (s : State) (g : GangKey) (role amount : Nat) : (charge s g role amount).tlb = s.tlb := rfl
@[simp] theorem charge_fetch (s : State) (g : GangKey) (role amount : Nat) : (charge s g role amount).fetch = s.fetch := rfl
@[simp] theorem charge_fills (s : State) (g : GangKey) (role amount : Nat) : (charge s g role amount).fills = s.fills := rfl
@[simp] theorem charge_asks (s : State) (g : GangKey) (role amount : Nat) : (charge s g role amount).asks = s.asks := rfl
@[simp] theorem charge_rkLines (s : State) (g : GangKey) (role amount : Nat) : (charge s g role amount).rkLines = s.rkLines := rfl
@[simp] theorem charge_pins (s : State) (g : GangKey) (role amount : Nat) : (charge s g role amount).pins = s.pins := rfl
@[simp] theorem charge_jobs (s : State) (g : GangKey) (role amount : Nat) : (charge s g role amount).jobs = s.jobs := rfl
@[simp] theorem charge_colls (s : State) (g : GangKey) (role amount : Nat) : (charge s g role amount).colls = s.colls := rfl
@[simp] theorem charge_books (s : State) (g : GangKey) (role amount : Nat) : (charge s g role amount).books = s.books := rfl
@[simp] theorem charge_chanTs (s : State) (g : GangKey) (role amount : Nat) : (charge s g role amount).chanTs = s.chanTs := rfl
@[simp] theorem charge_stageHolds (s : State) (g : GangKey) (role amount : Nat) : (charge s g role amount).stageHolds = s.stageHolds := rfl
@[simp] theorem charge_links (s : State) (g : GangKey) (role amount : Nat) : (charge s g role amount).links = s.links := rfl
@[simp] theorem charge_regs (s : State) (g : GangKey) (role amount : Nat) : (charge s g role amount).regs = s.regs := rfl
@[simp] theorem charge_events (s : State) (g : GangKey) (role amount : Nat) : (charge s g role amount).events = s.events := rfl
@[simp] theorem charge_signals (s : State) (g : GangKey) (role amount : Nat) : (charge s g role amount).signals = s.signals := rfl
@[simp] theorem charge_stops (s : State) (g : GangKey) (role amount : Nat) : (charge s g role amount).stops = s.stops := rfl
@[simp] theorem charge_stalls (s : State) (g : GangKey) (role amount : Nat) : (charge s g role amount).stalls = s.stalls := rfl
@[simp] theorem charge_issued (s : State) (g : GangKey) (role amount : Nat) : (charge s g role amount).issued = s.issued := rfl
@[simp] theorem charge_cores (s : State) (g : GangKey) (role amount : Nat) : (charge s g role amount).cores = s.cores := rfl
@[simp] theorem charge_sensors (s : State) (g : GangKey) (role amount : Nat) : (charge s g role amount).sensors = s.sensors := rfl
@[simp] theorem charge_banks (s : State) (g : GangKey) (role amount : Nat) : (charge s g role amount).banks = s.banks := rfl
@[simp] theorem charge_testers (s : State) (g : GangKey) (role amount : Nat) : (charge s g role amount).testers = s.testers := rfl
@[simp] theorem charge_sampledIn (s : State) (g : GangKey) (role amount : Nat) : (charge s g role amount).sampledIn = s.sampledIn := rfl
@[simp] theorem charge_allowedIn (s : State) (g : GangKey) (role amount : Nat) : (charge s g role amount).allowedIn = s.allowedIn := rfl
@[simp] theorem charge_rotatedIn (s : State) (g : GangKey) (role amount : Nat) : (charge s g role amount).rotatedIn = s.rotatedIn := rfl
@[simp] theorem charge_ports (s : State) (g : GangKey) (role amount : Nat) : (charge s g role amount).ports = s.ports := rfl
@[simp] theorem charge_disps (s : State) (g : GangKey) (role amount : Nat) : (charge s g role amount).disps = s.disps := rfl
@[simp] theorem charge_trails (s : State) (g : GangKey) (role amount : Nat) : (charge s g role amount).trails = s.trails := rfl
@[simp] theorem charge_attest (s : State) (g : GangKey) (role amount : Nat) : (charge s g role amount).attest = s.attest := rfl
@[simp] theorem charge_pilotLast (s : State) (g : GangKey) (role amount : Nat) : (charge s g role amount).pilotLast = s.pilotLast := rfl
@[simp] theorem charge_power (s : State) (g : GangKey) (role amount : Nat) : (charge s g role amount).power = s.power := rfl
@[simp] theorem charge_overSince (s : State) (g : GangKey) (role amount : Nat) : (charge s g role amount).overSince = s.overSince := rfl
@[simp] theorem charge_cur (s : State) (g : GangKey) (role amount : Nat) : (charge s g role amount).cur = s.cur := rfl
@[simp] theorem charge_agenda (s : State) (g : GangKey) (role amount : Nat) : (charge s g role amount).agenda = s.agenda := rfl
@[simp] theorem noteWrite_tick (s : State) (sp : Sp) (a n : Nat) : (noteWrite s sp a n).tick = s.tick := rfl
@[simp] theorem noteWrite_clk (s : State) (sp : Sp) (a n : Nat) : (noteWrite s sp a n).clk = s.clk := rfl
@[simp] theorem noteWrite_clkFrac (s : State) (sp : Sp) (a n : Nat) : (noteWrite s sp a n).clkFrac = s.clkFrac := rfl
@[simp] theorem noteWrite_loc (s : State) (sp : Sp) (a n : Nat) : (noteWrite s sp a n).loc = s.loc := rfl
@[simp] theorem noteWrite_host (s : State) (sp : Sp) (a n : Nat) : (noteWrite s sp a n).host = s.host := rfl
@[simp] theorem noteWrite_peer (s : State) (sp : Sp) (a n : Nat) : (noteWrite s sp a n).peer = s.peer := rfl
@[simp] theorem noteWrite_pool (s : State) (sp : Sp) (a n : Nat) : (noteWrite s sp a n).pool = s.pool := rfl
@[simp] theorem noteWrite_rkmem (s : State) (sp : Sp) (a n : Nat) : (noteWrite s sp a n).rkmem = s.rkmem := rfl
@[simp] theorem noteWrite_homes (s : State) (sp : Sp) (a n : Nat) : (noteWrite s sp a n).homes = s.homes := rfl
@[simp] theorem noteWrite_copies (s : State) (sp : Sp) (a n : Nat) : (noteWrite s sp a n).copies = s.copies := rfl
@[simp] theorem noteWrite_relaxed (s : State) (sp : Sp) (a n : Nat) : (noteWrite s sp a n).relaxed = s.relaxed := rfl
@[simp] theorem noteWrite_releases (s : State) (sp : Sp) (a n : Nat) : (noteWrite s sp a n).releases = s.releases := rfl
@[simp] theorem noteWrite_poison (s : State) (sp : Sp) (a n : Nat) : (noteWrite s sp a n).poison = s.poison := rfl
@[simp] theorem noteWrite_extClk (s : State) (sp : Sp) (a n : Nat) : (noteWrite s sp a n).extClk = s.extClk := rfl
@[simp] theorem noteWrite_seq (s : State) (sp : Sp) (a n : Nat) : (noteWrite s sp a n).seq = s.seq := rfl
@[simp] theorem noteWrite_leases (s : State) (sp : Sp) (a n : Nat) : (noteWrite s sp a n).leases = s.leases := rfl
@[simp] theorem noteWrite_fresh (s : State) (sp : Sp) (a n : Nat) : (noteWrite s sp a n).fresh = s.fresh := rfl
@[simp] theorem noteWrite_nextId (s : State) (sp : Sp) (a n : Nat) : (noteWrite s sp a n).nextId = s.nextId := rfl
@[simp] theorem noteWrite_pend (s : State) (sp : Sp) (a n : Nat) : (noteWrite s sp a n).pend = s.pend := rfl
@[simp] theorem noteWrite_blocks (s : State) (sp : Sp) (a n : Nat) : (noteWrite s sp a n).blocks = s.blocks := rfl
@[simp] theorem noteWrite_gangs (s : State) (sp : Sp) (a n : Nat) : (noteWrite s sp a n).gangs = s.gangs := rfl
@[simp] theorem noteWrite_launches (s : State) (sp : Sp) (a n : Nat) : (noteWrite s sp a n).launches = s.launches := rfl
@[simp] theorem noteWrite_queues (s : State) (sp : Sp) (a n : Nat) : (noteWrite s sp a n).queues = s.queues := rfl
@[simp] theorem noteWrite_nextLaunch (s : State) (sp : Sp) (a n : Nat) : (noteWrite s sp a n).nextLaunch = s.nextLaunch := rfl
@[simp] theorem noteWrite_slotRuns (s : State) (sp : Sp) (a n : Nat) : (noteWrite s sp a n).slotRuns = s.slotRuns := rfl
@[simp] theorem noteWrite_hostTlbis (s : State) (sp : Sp) (a n : Nat) : (noteWrite s sp a n).hostTlbis = s.hostTlbis := rfl
@[simp] theorem noteWrite_ctxs (s : State) (sp : Sp) (a n : Nat) : (noteWrite s sp a n).ctxs = s.ctxs := rfl
@[simp] theorem noteWrite_tlb (s : State) (sp : Sp) (a n : Nat) : (noteWrite s sp a n).tlb = s.tlb := rfl
@[simp] theorem noteWrite_fetch (s : State) (sp : Sp) (a n : Nat) : (noteWrite s sp a n).fetch = s.fetch := rfl
@[simp] theorem noteWrite_fills (s : State) (sp : Sp) (a n : Nat) : (noteWrite s sp a n).fills = s.fills := rfl
@[simp] theorem noteWrite_asks (s : State) (sp : Sp) (a n : Nat) : (noteWrite s sp a n).asks = s.asks := rfl
@[simp] theorem noteWrite_rkLines (s : State) (sp : Sp) (a n : Nat) : (noteWrite s sp a n).rkLines = s.rkLines := rfl
@[simp] theorem noteWrite_pins (s : State) (sp : Sp) (a n : Nat) : (noteWrite s sp a n).pins = s.pins := rfl
@[simp] theorem noteWrite_jobs (s : State) (sp : Sp) (a n : Nat) : (noteWrite s sp a n).jobs = s.jobs := rfl
@[simp] theorem noteWrite_books (s : State) (sp : Sp) (a n : Nat) : (noteWrite s sp a n).books = s.books := rfl
@[simp] theorem noteWrite_chanTs (s : State) (sp : Sp) (a n : Nat) : (noteWrite s sp a n).chanTs = s.chanTs := rfl
@[simp] theorem noteWrite_stageHolds (s : State) (sp : Sp) (a n : Nat) : (noteWrite s sp a n).stageHolds = s.stageHolds := rfl
@[simp] theorem noteWrite_links (s : State) (sp : Sp) (a n : Nat) : (noteWrite s sp a n).links = s.links := rfl
@[simp] theorem noteWrite_regs (s : State) (sp : Sp) (a n : Nat) : (noteWrite s sp a n).regs = s.regs := rfl
@[simp] theorem noteWrite_events (s : State) (sp : Sp) (a n : Nat) : (noteWrite s sp a n).events = s.events := rfl
@[simp] theorem noteWrite_signals (s : State) (sp : Sp) (a n : Nat) : (noteWrite s sp a n).signals = s.signals := rfl
@[simp] theorem noteWrite_stops (s : State) (sp : Sp) (a n : Nat) : (noteWrite s sp a n).stops = s.stops := rfl
@[simp] theorem noteWrite_stalls (s : State) (sp : Sp) (a n : Nat) : (noteWrite s sp a n).stalls = s.stalls := rfl
@[simp] theorem noteWrite_issued (s : State) (sp : Sp) (a n : Nat) : (noteWrite s sp a n).issued = s.issued := rfl
@[simp] theorem noteWrite_cores (s : State) (sp : Sp) (a n : Nat) : (noteWrite s sp a n).cores = s.cores := rfl
@[simp] theorem noteWrite_sensors (s : State) (sp : Sp) (a n : Nat) : (noteWrite s sp a n).sensors = s.sensors := rfl
@[simp] theorem noteWrite_banks (s : State) (sp : Sp) (a n : Nat) : (noteWrite s sp a n).banks = s.banks := rfl
@[simp] theorem noteWrite_testers (s : State) (sp : Sp) (a n : Nat) : (noteWrite s sp a n).testers = s.testers := rfl
@[simp] theorem noteWrite_sampledIn (s : State) (sp : Sp) (a n : Nat) : (noteWrite s sp a n).sampledIn = s.sampledIn := rfl
@[simp] theorem noteWrite_allowedIn (s : State) (sp : Sp) (a n : Nat) : (noteWrite s sp a n).allowedIn = s.allowedIn := rfl
@[simp] theorem noteWrite_rotatedIn (s : State) (sp : Sp) (a n : Nat) : (noteWrite s sp a n).rotatedIn = s.rotatedIn := rfl
@[simp] theorem noteWrite_ports (s : State) (sp : Sp) (a n : Nat) : (noteWrite s sp a n).ports = s.ports := rfl
@[simp] theorem noteWrite_disps (s : State) (sp : Sp) (a n : Nat) : (noteWrite s sp a n).disps = s.disps := rfl
@[simp] theorem noteWrite_trails (s : State) (sp : Sp) (a n : Nat) : (noteWrite s sp a n).trails = s.trails := rfl
@[simp] theorem noteWrite_attest (s : State) (sp : Sp) (a n : Nat) : (noteWrite s sp a n).attest = s.attest := rfl
@[simp] theorem noteWrite_pilotLast (s : State) (sp : Sp) (a n : Nat) : (noteWrite s sp a n).pilotLast = s.pilotLast := rfl
@[simp] theorem noteWrite_power (s : State) (sp : Sp) (a n : Nat) : (noteWrite s sp a n).power = s.power := rfl
@[simp] theorem noteWrite_overSince (s : State) (sp : Sp) (a n : Nat) : (noteWrite s sp a n).overSince = s.overSince := rfl
@[simp] theorem noteWrite_cur (s : State) (sp : Sp) (a n : Nat) : (noteWrite s sp a n).cur = s.cur := rfl
@[simp] theorem noteWrite_agenda (s : State) (sp : Sp) (a n : Nat) : (noteWrite s sp a n).agenda = s.agenda := rfl
@[simp] theorem unpoison_tick (s : State) (sp : Sp) (a n : Nat) : (unpoison s sp a n).tick = s.tick := rfl
@[simp] theorem unpoison_clk (s : State) (sp : Sp) (a n : Nat) : (unpoison s sp a n).clk = s.clk := rfl
@[simp] theorem unpoison_clkFrac (s : State) (sp : Sp) (a n : Nat) : (unpoison s sp a n).clkFrac = s.clkFrac := rfl
@[simp] theorem unpoison_loc (s : State) (sp : Sp) (a n : Nat) : (unpoison s sp a n).loc = s.loc := rfl
@[simp] theorem unpoison_host (s : State) (sp : Sp) (a n : Nat) : (unpoison s sp a n).host = s.host := rfl
@[simp] theorem unpoison_peer (s : State) (sp : Sp) (a n : Nat) : (unpoison s sp a n).peer = s.peer := rfl
@[simp] theorem unpoison_pool (s : State) (sp : Sp) (a n : Nat) : (unpoison s sp a n).pool = s.pool := rfl
@[simp] theorem unpoison_rkmem (s : State) (sp : Sp) (a n : Nat) : (unpoison s sp a n).rkmem = s.rkmem := rfl
@[simp] theorem unpoison_homes (s : State) (sp : Sp) (a n : Nat) : (unpoison s sp a n).homes = s.homes := rfl
@[simp] theorem unpoison_copies (s : State) (sp : Sp) (a n : Nat) : (unpoison s sp a n).copies = s.copies := rfl
@[simp] theorem unpoison_relaxed (s : State) (sp : Sp) (a n : Nat) : (unpoison s sp a n).relaxed = s.relaxed := rfl
@[simp] theorem unpoison_releases (s : State) (sp : Sp) (a n : Nat) : (unpoison s sp a n).releases = s.releases := rfl
@[simp] theorem unpoison_extClk (s : State) (sp : Sp) (a n : Nat) : (unpoison s sp a n).extClk = s.extClk := rfl
@[simp] theorem unpoison_seq (s : State) (sp : Sp) (a n : Nat) : (unpoison s sp a n).seq = s.seq := rfl
@[simp] theorem unpoison_leases (s : State) (sp : Sp) (a n : Nat) : (unpoison s sp a n).leases = s.leases := rfl
@[simp] theorem unpoison_fresh (s : State) (sp : Sp) (a n : Nat) : (unpoison s sp a n).fresh = s.fresh := rfl
@[simp] theorem unpoison_nextId (s : State) (sp : Sp) (a n : Nat) : (unpoison s sp a n).nextId = s.nextId := rfl
@[simp] theorem unpoison_agents (s : State) (sp : Sp) (a n : Nat) : (unpoison s sp a n).agents = s.agents := rfl
@[simp] theorem unpoison_pend (s : State) (sp : Sp) (a n : Nat) : (unpoison s sp a n).pend = s.pend := rfl
@[simp] theorem unpoison_blocks (s : State) (sp : Sp) (a n : Nat) : (unpoison s sp a n).blocks = s.blocks := rfl
@[simp] theorem unpoison_gangs (s : State) (sp : Sp) (a n : Nat) : (unpoison s sp a n).gangs = s.gangs := rfl
@[simp] theorem unpoison_launches (s : State) (sp : Sp) (a n : Nat) : (unpoison s sp a n).launches = s.launches := rfl
@[simp] theorem unpoison_queues (s : State) (sp : Sp) (a n : Nat) : (unpoison s sp a n).queues = s.queues := rfl
@[simp] theorem unpoison_nextLaunch (s : State) (sp : Sp) (a n : Nat) : (unpoison s sp a n).nextLaunch = s.nextLaunch := rfl
@[simp] theorem unpoison_slotRuns (s : State) (sp : Sp) (a n : Nat) : (unpoison s sp a n).slotRuns = s.slotRuns := rfl
@[simp] theorem unpoison_hostTlbis (s : State) (sp : Sp) (a n : Nat) : (unpoison s sp a n).hostTlbis = s.hostTlbis := rfl
@[simp] theorem unpoison_ctxs (s : State) (sp : Sp) (a n : Nat) : (unpoison s sp a n).ctxs = s.ctxs := rfl
@[simp] theorem unpoison_tlb (s : State) (sp : Sp) (a n : Nat) : (unpoison s sp a n).tlb = s.tlb := rfl
@[simp] theorem unpoison_fetch (s : State) (sp : Sp) (a n : Nat) : (unpoison s sp a n).fetch = s.fetch := rfl
@[simp] theorem unpoison_fills (s : State) (sp : Sp) (a n : Nat) : (unpoison s sp a n).fills = s.fills := rfl
@[simp] theorem unpoison_asks (s : State) (sp : Sp) (a n : Nat) : (unpoison s sp a n).asks = s.asks := rfl
@[simp] theorem unpoison_rkLines (s : State) (sp : Sp) (a n : Nat) : (unpoison s sp a n).rkLines = s.rkLines := rfl
@[simp] theorem unpoison_pins (s : State) (sp : Sp) (a n : Nat) : (unpoison s sp a n).pins = s.pins := rfl
@[simp] theorem unpoison_jobs (s : State) (sp : Sp) (a n : Nat) : (unpoison s sp a n).jobs = s.jobs := rfl
@[simp] theorem unpoison_colls (s : State) (sp : Sp) (a n : Nat) : (unpoison s sp a n).colls = s.colls := rfl
@[simp] theorem unpoison_books (s : State) (sp : Sp) (a n : Nat) : (unpoison s sp a n).books = s.books := rfl
@[simp] theorem unpoison_chanTs (s : State) (sp : Sp) (a n : Nat) : (unpoison s sp a n).chanTs = s.chanTs := rfl
@[simp] theorem unpoison_stageHolds (s : State) (sp : Sp) (a n : Nat) : (unpoison s sp a n).stageHolds = s.stageHolds := rfl
@[simp] theorem unpoison_links (s : State) (sp : Sp) (a n : Nat) : (unpoison s sp a n).links = s.links := rfl
@[simp] theorem unpoison_regs (s : State) (sp : Sp) (a n : Nat) : (unpoison s sp a n).regs = s.regs := rfl
@[simp] theorem unpoison_events (s : State) (sp : Sp) (a n : Nat) : (unpoison s sp a n).events = s.events := rfl
@[simp] theorem unpoison_signals (s : State) (sp : Sp) (a n : Nat) : (unpoison s sp a n).signals = s.signals := rfl
@[simp] theorem unpoison_stops (s : State) (sp : Sp) (a n : Nat) : (unpoison s sp a n).stops = s.stops := rfl
@[simp] theorem unpoison_stalls (s : State) (sp : Sp) (a n : Nat) : (unpoison s sp a n).stalls = s.stalls := rfl
@[simp] theorem unpoison_issued (s : State) (sp : Sp) (a n : Nat) : (unpoison s sp a n).issued = s.issued := rfl
@[simp] theorem unpoison_cores (s : State) (sp : Sp) (a n : Nat) : (unpoison s sp a n).cores = s.cores := rfl
@[simp] theorem unpoison_sensors (s : State) (sp : Sp) (a n : Nat) : (unpoison s sp a n).sensors = s.sensors := rfl
@[simp] theorem unpoison_banks (s : State) (sp : Sp) (a n : Nat) : (unpoison s sp a n).banks = s.banks := rfl
@[simp] theorem unpoison_testers (s : State) (sp : Sp) (a n : Nat) : (unpoison s sp a n).testers = s.testers := rfl
@[simp] theorem unpoison_sampledIn (s : State) (sp : Sp) (a n : Nat) : (unpoison s sp a n).sampledIn = s.sampledIn := rfl
@[simp] theorem unpoison_allowedIn (s : State) (sp : Sp) (a n : Nat) : (unpoison s sp a n).allowedIn = s.allowedIn := rfl
@[simp] theorem unpoison_rotatedIn (s : State) (sp : Sp) (a n : Nat) : (unpoison s sp a n).rotatedIn = s.rotatedIn := rfl
@[simp] theorem unpoison_ports (s : State) (sp : Sp) (a n : Nat) : (unpoison s sp a n).ports = s.ports := rfl
@[simp] theorem unpoison_disps (s : State) (sp : Sp) (a n : Nat) : (unpoison s sp a n).disps = s.disps := rfl
@[simp] theorem unpoison_trails (s : State) (sp : Sp) (a n : Nat) : (unpoison s sp a n).trails = s.trails := rfl
@[simp] theorem unpoison_attest (s : State) (sp : Sp) (a n : Nat) : (unpoison s sp a n).attest = s.attest := rfl
@[simp] theorem unpoison_pilotLast (s : State) (sp : Sp) (a n : Nat) : (unpoison s sp a n).pilotLast = s.pilotLast := rfl
@[simp] theorem unpoison_power (s : State) (sp : Sp) (a n : Nat) : (unpoison s sp a n).power = s.power := rfl
@[simp] theorem unpoison_overSince (s : State) (sp : Sp) (a n : Nat) : (unpoison s sp a n).overSince = s.overSince := rfl
@[simp] theorem unpoison_cur (s : State) (sp : Sp) (a n : Nat) : (unpoison s sp a n).cur = s.cur := rfl
@[simp] theorem unpoison_agenda (s : State) (sp : Sp) (a n : Nat) : (unpoison s sp a n).agenda = s.agenda := rfl
@[simp] theorem addPoison_tick (s : State) (sp : Sp) (a n : Nat) : (addPoison s sp a n).tick = s.tick := rfl
@[simp] theorem addPoison_clk (s : State) (sp : Sp) (a n : Nat) : (addPoison s sp a n).clk = s.clk := rfl
@[simp] theorem addPoison_clkFrac (s : State) (sp : Sp) (a n : Nat) : (addPoison s sp a n).clkFrac = s.clkFrac := rfl
@[simp] theorem addPoison_loc (s : State) (sp : Sp) (a n : Nat) : (addPoison s sp a n).loc = s.loc := rfl
@[simp] theorem addPoison_host (s : State) (sp : Sp) (a n : Nat) : (addPoison s sp a n).host = s.host := rfl
@[simp] theorem addPoison_peer (s : State) (sp : Sp) (a n : Nat) : (addPoison s sp a n).peer = s.peer := rfl
@[simp] theorem addPoison_pool (s : State) (sp : Sp) (a n : Nat) : (addPoison s sp a n).pool = s.pool := rfl
@[simp] theorem addPoison_rkmem (s : State) (sp : Sp) (a n : Nat) : (addPoison s sp a n).rkmem = s.rkmem := rfl
@[simp] theorem addPoison_homes (s : State) (sp : Sp) (a n : Nat) : (addPoison s sp a n).homes = s.homes := rfl
@[simp] theorem addPoison_copies (s : State) (sp : Sp) (a n : Nat) : (addPoison s sp a n).copies = s.copies := rfl
@[simp] theorem addPoison_relaxed (s : State) (sp : Sp) (a n : Nat) : (addPoison s sp a n).relaxed = s.relaxed := rfl
@[simp] theorem addPoison_releases (s : State) (sp : Sp) (a n : Nat) : (addPoison s sp a n).releases = s.releases := rfl
@[simp] theorem addPoison_extClk (s : State) (sp : Sp) (a n : Nat) : (addPoison s sp a n).extClk = s.extClk := rfl
@[simp] theorem addPoison_seq (s : State) (sp : Sp) (a n : Nat) : (addPoison s sp a n).seq = s.seq := rfl
@[simp] theorem addPoison_leases (s : State) (sp : Sp) (a n : Nat) : (addPoison s sp a n).leases = s.leases := rfl
@[simp] theorem addPoison_fresh (s : State) (sp : Sp) (a n : Nat) : (addPoison s sp a n).fresh = s.fresh := rfl
@[simp] theorem addPoison_nextId (s : State) (sp : Sp) (a n : Nat) : (addPoison s sp a n).nextId = s.nextId := rfl
@[simp] theorem addPoison_agents (s : State) (sp : Sp) (a n : Nat) : (addPoison s sp a n).agents = s.agents := rfl
@[simp] theorem addPoison_pend (s : State) (sp : Sp) (a n : Nat) : (addPoison s sp a n).pend = s.pend := rfl
@[simp] theorem addPoison_blocks (s : State) (sp : Sp) (a n : Nat) : (addPoison s sp a n).blocks = s.blocks := rfl
@[simp] theorem addPoison_gangs (s : State) (sp : Sp) (a n : Nat) : (addPoison s sp a n).gangs = s.gangs := rfl
@[simp] theorem addPoison_launches (s : State) (sp : Sp) (a n : Nat) : (addPoison s sp a n).launches = s.launches := rfl
@[simp] theorem addPoison_queues (s : State) (sp : Sp) (a n : Nat) : (addPoison s sp a n).queues = s.queues := rfl
@[simp] theorem addPoison_nextLaunch (s : State) (sp : Sp) (a n : Nat) : (addPoison s sp a n).nextLaunch = s.nextLaunch := rfl
@[simp] theorem addPoison_slotRuns (s : State) (sp : Sp) (a n : Nat) : (addPoison s sp a n).slotRuns = s.slotRuns := rfl
@[simp] theorem addPoison_hostTlbis (s : State) (sp : Sp) (a n : Nat) : (addPoison s sp a n).hostTlbis = s.hostTlbis := rfl
@[simp] theorem addPoison_ctxs (s : State) (sp : Sp) (a n : Nat) : (addPoison s sp a n).ctxs = s.ctxs := rfl
@[simp] theorem addPoison_tlb (s : State) (sp : Sp) (a n : Nat) : (addPoison s sp a n).tlb = s.tlb := rfl
@[simp] theorem addPoison_fetch (s : State) (sp : Sp) (a n : Nat) : (addPoison s sp a n).fetch = s.fetch := rfl
@[simp] theorem addPoison_fills (s : State) (sp : Sp) (a n : Nat) : (addPoison s sp a n).fills = s.fills := rfl
@[simp] theorem addPoison_asks (s : State) (sp : Sp) (a n : Nat) : (addPoison s sp a n).asks = s.asks := rfl
@[simp] theorem addPoison_rkLines (s : State) (sp : Sp) (a n : Nat) : (addPoison s sp a n).rkLines = s.rkLines := rfl
@[simp] theorem addPoison_pins (s : State) (sp : Sp) (a n : Nat) : (addPoison s sp a n).pins = s.pins := rfl
@[simp] theorem addPoison_jobs (s : State) (sp : Sp) (a n : Nat) : (addPoison s sp a n).jobs = s.jobs := rfl
@[simp] theorem addPoison_colls (s : State) (sp : Sp) (a n : Nat) : (addPoison s sp a n).colls = s.colls := rfl
@[simp] theorem addPoison_books (s : State) (sp : Sp) (a n : Nat) : (addPoison s sp a n).books = s.books := rfl
@[simp] theorem addPoison_chanTs (s : State) (sp : Sp) (a n : Nat) : (addPoison s sp a n).chanTs = s.chanTs := rfl
@[simp] theorem addPoison_stageHolds (s : State) (sp : Sp) (a n : Nat) : (addPoison s sp a n).stageHolds = s.stageHolds := rfl
@[simp] theorem addPoison_links (s : State) (sp : Sp) (a n : Nat) : (addPoison s sp a n).links = s.links := rfl
@[simp] theorem addPoison_regs (s : State) (sp : Sp) (a n : Nat) : (addPoison s sp a n).regs = s.regs := rfl
@[simp] theorem addPoison_events (s : State) (sp : Sp) (a n : Nat) : (addPoison s sp a n).events = s.events := rfl
@[simp] theorem addPoison_signals (s : State) (sp : Sp) (a n : Nat) : (addPoison s sp a n).signals = s.signals := rfl
@[simp] theorem addPoison_stops (s : State) (sp : Sp) (a n : Nat) : (addPoison s sp a n).stops = s.stops := rfl
@[simp] theorem addPoison_stalls (s : State) (sp : Sp) (a n : Nat) : (addPoison s sp a n).stalls = s.stalls := rfl
@[simp] theorem addPoison_issued (s : State) (sp : Sp) (a n : Nat) : (addPoison s sp a n).issued = s.issued := rfl
@[simp] theorem addPoison_cores (s : State) (sp : Sp) (a n : Nat) : (addPoison s sp a n).cores = s.cores := rfl
@[simp] theorem addPoison_sensors (s : State) (sp : Sp) (a n : Nat) : (addPoison s sp a n).sensors = s.sensors := rfl
@[simp] theorem addPoison_banks (s : State) (sp : Sp) (a n : Nat) : (addPoison s sp a n).banks = s.banks := rfl
@[simp] theorem addPoison_testers (s : State) (sp : Sp) (a n : Nat) : (addPoison s sp a n).testers = s.testers := rfl
@[simp] theorem addPoison_sampledIn (s : State) (sp : Sp) (a n : Nat) : (addPoison s sp a n).sampledIn = s.sampledIn := rfl
@[simp] theorem addPoison_allowedIn (s : State) (sp : Sp) (a n : Nat) : (addPoison s sp a n).allowedIn = s.allowedIn := rfl
@[simp] theorem addPoison_rotatedIn (s : State) (sp : Sp) (a n : Nat) : (addPoison s sp a n).rotatedIn = s.rotatedIn := rfl
@[simp] theorem addPoison_ports (s : State) (sp : Sp) (a n : Nat) : (addPoison s sp a n).ports = s.ports := rfl
@[simp] theorem addPoison_disps (s : State) (sp : Sp) (a n : Nat) : (addPoison s sp a n).disps = s.disps := rfl
@[simp] theorem addPoison_trails (s : State) (sp : Sp) (a n : Nat) : (addPoison s sp a n).trails = s.trails := rfl
@[simp] theorem addPoison_attest (s : State) (sp : Sp) (a n : Nat) : (addPoison s sp a n).attest = s.attest := rfl
@[simp] theorem addPoison_pilotLast (s : State) (sp : Sp) (a n : Nat) : (addPoison s sp a n).pilotLast = s.pilotLast := rfl
@[simp] theorem addPoison_power (s : State) (sp : Sp) (a n : Nat) : (addPoison s sp a n).power = s.power := rfl
@[simp] theorem addPoison_overSince (s : State) (sp : Sp) (a n : Nat) : (addPoison s sp a n).overSince = s.overSince := rfl
@[simp] theorem addPoison_cur (s : State) (sp : Sp) (a n : Nat) : (addPoison s sp a n).cur = s.cur := rfl
@[simp] theorem addPoison_agenda (s : State) (sp : Sp) (a n : Nat) : (addPoison s sp a n).agenda = s.agenda := rfl
@[simp] theorem signal_tick (s : State) (v : Nat) : (signal s v).tick = s.tick := rfl
@[simp] theorem signal_clk (s : State) (v : Nat) : (signal s v).clk = s.clk := rfl
@[simp] theorem signal_clkFrac (s : State) (v : Nat) : (signal s v).clkFrac = s.clkFrac := rfl
@[simp] theorem signal_loc (s : State) (v : Nat) : (signal s v).loc = s.loc := rfl
@[simp] theorem signal_host (s : State) (v : Nat) : (signal s v).host = s.host := rfl
@[simp] theorem signal_peer (s : State) (v : Nat) : (signal s v).peer = s.peer := rfl
@[simp] theorem signal_pool (s : State) (v : Nat) : (signal s v).pool = s.pool := rfl
@[simp] theorem signal_rkmem (s : State) (v : Nat) : (signal s v).rkmem = s.rkmem := rfl
@[simp] theorem signal_homes (s : State) (v : Nat) : (signal s v).homes = s.homes := rfl
@[simp] theorem signal_copies (s : State) (v : Nat) : (signal s v).copies = s.copies := rfl
@[simp] theorem signal_relaxed (s : State) (v : Nat) : (signal s v).relaxed = s.relaxed := rfl
@[simp] theorem signal_releases (s : State) (v : Nat) : (signal s v).releases = s.releases := rfl
@[simp] theorem signal_poison (s : State) (v : Nat) : (signal s v).poison = s.poison := rfl
@[simp] theorem signal_extClk (s : State) (v : Nat) : (signal s v).extClk = s.extClk := rfl
@[simp] theorem signal_seq (s : State) (v : Nat) : (signal s v).seq = s.seq := rfl
@[simp] theorem signal_leases (s : State) (v : Nat) : (signal s v).leases = s.leases := rfl
@[simp] theorem signal_fresh (s : State) (v : Nat) : (signal s v).fresh = s.fresh := rfl
@[simp] theorem signal_nextId (s : State) (v : Nat) : (signal s v).nextId = s.nextId := rfl
@[simp] theorem signal_agents (s : State) (v : Nat) : (signal s v).agents = s.agents := rfl
@[simp] theorem signal_pend (s : State) (v : Nat) : (signal s v).pend = s.pend := rfl
@[simp] theorem signal_blocks (s : State) (v : Nat) : (signal s v).blocks = s.blocks := rfl
@[simp] theorem signal_gangs (s : State) (v : Nat) : (signal s v).gangs = s.gangs := rfl
@[simp] theorem signal_launches (s : State) (v : Nat) : (signal s v).launches = s.launches := rfl
@[simp] theorem signal_queues (s : State) (v : Nat) : (signal s v).queues = s.queues := rfl
@[simp] theorem signal_nextLaunch (s : State) (v : Nat) : (signal s v).nextLaunch = s.nextLaunch := rfl
@[simp] theorem signal_slotRuns (s : State) (v : Nat) : (signal s v).slotRuns = s.slotRuns := rfl
@[simp] theorem signal_hostTlbis (s : State) (v : Nat) : (signal s v).hostTlbis = s.hostTlbis := rfl
@[simp] theorem signal_ctxs (s : State) (v : Nat) : (signal s v).ctxs = s.ctxs := rfl
@[simp] theorem signal_tlb (s : State) (v : Nat) : (signal s v).tlb = s.tlb := rfl
@[simp] theorem signal_fetch (s : State) (v : Nat) : (signal s v).fetch = s.fetch := rfl
@[simp] theorem signal_fills (s : State) (v : Nat) : (signal s v).fills = s.fills := rfl
@[simp] theorem signal_asks (s : State) (v : Nat) : (signal s v).asks = s.asks := rfl
@[simp] theorem signal_rkLines (s : State) (v : Nat) : (signal s v).rkLines = s.rkLines := rfl
@[simp] theorem signal_pins (s : State) (v : Nat) : (signal s v).pins = s.pins := rfl
@[simp] theorem signal_jobs (s : State) (v : Nat) : (signal s v).jobs = s.jobs := rfl
@[simp] theorem signal_colls (s : State) (v : Nat) : (signal s v).colls = s.colls := rfl
@[simp] theorem signal_books (s : State) (v : Nat) : (signal s v).books = s.books := rfl
@[simp] theorem signal_chanTs (s : State) (v : Nat) : (signal s v).chanTs = s.chanTs := rfl
@[simp] theorem signal_stageHolds (s : State) (v : Nat) : (signal s v).stageHolds = s.stageHolds := rfl
@[simp] theorem signal_links (s : State) (v : Nat) : (signal s v).links = s.links := rfl
@[simp] theorem signal_regs (s : State) (v : Nat) : (signal s v).regs = s.regs := rfl
@[simp] theorem signal_events (s : State) (v : Nat) : (signal s v).events = s.events := rfl
@[simp] theorem signal_stops (s : State) (v : Nat) : (signal s v).stops = s.stops := rfl
@[simp] theorem signal_stalls (s : State) (v : Nat) : (signal s v).stalls = s.stalls := rfl
@[simp] theorem signal_issued (s : State) (v : Nat) : (signal s v).issued = s.issued := rfl
@[simp] theorem signal_cores (s : State) (v : Nat) : (signal s v).cores = s.cores := rfl
@[simp] theorem signal_sensors (s : State) (v : Nat) : (signal s v).sensors = s.sensors := rfl
@[simp] theorem signal_banks (s : State) (v : Nat) : (signal s v).banks = s.banks := rfl
@[simp] theorem signal_testers (s : State) (v : Nat) : (signal s v).testers = s.testers := rfl
@[simp] theorem signal_sampledIn (s : State) (v : Nat) : (signal s v).sampledIn = s.sampledIn := rfl
@[simp] theorem signal_allowedIn (s : State) (v : Nat) : (signal s v).allowedIn = s.allowedIn := rfl
@[simp] theorem signal_rotatedIn (s : State) (v : Nat) : (signal s v).rotatedIn = s.rotatedIn := rfl
@[simp] theorem signal_ports (s : State) (v : Nat) : (signal s v).ports = s.ports := rfl
@[simp] theorem signal_disps (s : State) (v : Nat) : (signal s v).disps = s.disps := rfl
@[simp] theorem signal_trails (s : State) (v : Nat) : (signal s v).trails = s.trails := rfl
@[simp] theorem signal_attest (s : State) (v : Nat) : (signal s v).attest = s.attest := rfl
@[simp] theorem signal_pilotLast (s : State) (v : Nat) : (signal s v).pilotLast = s.pilotLast := rfl
@[simp] theorem signal_power (s : State) (v : Nat) : (signal s v).power = s.power := rfl
@[simp] theorem signal_overSince (s : State) (v : Nat) : (signal s v).overSince = s.overSince := rfl
@[simp] theorem signal_cur (s : State) (v : Nat) : (signal s v).cur = s.cur := rfl
@[simp] theorem signal_agenda (s : State) (v : Nat) : (signal s v).agenda = s.agenda := rfl
@[simp] theorem addEvent_tick (s : State) (e : Event) : (addEvent s e).tick = s.tick := rfl
@[simp] theorem addEvent_clk (s : State) (e : Event) : (addEvent s e).clk = s.clk := rfl
@[simp] theorem addEvent_clkFrac (s : State) (e : Event) : (addEvent s e).clkFrac = s.clkFrac := rfl
@[simp] theorem addEvent_loc (s : State) (e : Event) : (addEvent s e).loc = s.loc := rfl
@[simp] theorem addEvent_host (s : State) (e : Event) : (addEvent s e).host = s.host := rfl
@[simp] theorem addEvent_peer (s : State) (e : Event) : (addEvent s e).peer = s.peer := rfl
@[simp] theorem addEvent_pool (s : State) (e : Event) : (addEvent s e).pool = s.pool := rfl
@[simp] theorem addEvent_rkmem (s : State) (e : Event) : (addEvent s e).rkmem = s.rkmem := rfl
@[simp] theorem addEvent_homes (s : State) (e : Event) : (addEvent s e).homes = s.homes := rfl
@[simp] theorem addEvent_copies (s : State) (e : Event) : (addEvent s e).copies = s.copies := rfl
@[simp] theorem addEvent_relaxed (s : State) (e : Event) : (addEvent s e).relaxed = s.relaxed := rfl
@[simp] theorem addEvent_releases (s : State) (e : Event) : (addEvent s e).releases = s.releases := rfl
@[simp] theorem addEvent_poison (s : State) (e : Event) : (addEvent s e).poison = s.poison := rfl
@[simp] theorem addEvent_extClk (s : State) (e : Event) : (addEvent s e).extClk = s.extClk := rfl
@[simp] theorem addEvent_seq (s : State) (e : Event) : (addEvent s e).seq = s.seq := rfl
@[simp] theorem addEvent_leases (s : State) (e : Event) : (addEvent s e).leases = s.leases := rfl
@[simp] theorem addEvent_fresh (s : State) (e : Event) : (addEvent s e).fresh = s.fresh := rfl
@[simp] theorem addEvent_nextId (s : State) (e : Event) : (addEvent s e).nextId = s.nextId := rfl
@[simp] theorem addEvent_agents (s : State) (e : Event) : (addEvent s e).agents = s.agents := rfl
@[simp] theorem addEvent_pend (s : State) (e : Event) : (addEvent s e).pend = s.pend := rfl
@[simp] theorem addEvent_blocks (s : State) (e : Event) : (addEvent s e).blocks = s.blocks := rfl
@[simp] theorem addEvent_gangs (s : State) (e : Event) : (addEvent s e).gangs = s.gangs := rfl
@[simp] theorem addEvent_launches (s : State) (e : Event) : (addEvent s e).launches = s.launches := rfl
@[simp] theorem addEvent_queues (s : State) (e : Event) : (addEvent s e).queues = s.queues := rfl
@[simp] theorem addEvent_nextLaunch (s : State) (e : Event) : (addEvent s e).nextLaunch = s.nextLaunch := rfl
@[simp] theorem addEvent_slotRuns (s : State) (e : Event) : (addEvent s e).slotRuns = s.slotRuns := rfl
@[simp] theorem addEvent_hostTlbis (s : State) (e : Event) : (addEvent s e).hostTlbis = s.hostTlbis := rfl
@[simp] theorem addEvent_ctxs (s : State) (e : Event) : (addEvent s e).ctxs = s.ctxs := rfl
@[simp] theorem addEvent_tlb (s : State) (e : Event) : (addEvent s e).tlb = s.tlb := rfl
@[simp] theorem addEvent_fetch (s : State) (e : Event) : (addEvent s e).fetch = s.fetch := rfl
@[simp] theorem addEvent_fills (s : State) (e : Event) : (addEvent s e).fills = s.fills := rfl
@[simp] theorem addEvent_asks (s : State) (e : Event) : (addEvent s e).asks = s.asks := rfl
@[simp] theorem addEvent_rkLines (s : State) (e : Event) : (addEvent s e).rkLines = s.rkLines := rfl
@[simp] theorem addEvent_pins (s : State) (e : Event) : (addEvent s e).pins = s.pins := rfl
@[simp] theorem addEvent_jobs (s : State) (e : Event) : (addEvent s e).jobs = s.jobs := rfl
@[simp] theorem addEvent_colls (s : State) (e : Event) : (addEvent s e).colls = s.colls := rfl
@[simp] theorem addEvent_books (s : State) (e : Event) : (addEvent s e).books = s.books := rfl
@[simp] theorem addEvent_chanTs (s : State) (e : Event) : (addEvent s e).chanTs = s.chanTs := rfl
@[simp] theorem addEvent_stageHolds (s : State) (e : Event) : (addEvent s e).stageHolds = s.stageHolds := rfl
@[simp] theorem addEvent_links (s : State) (e : Event) : (addEvent s e).links = s.links := rfl
@[simp] theorem addEvent_stops (s : State) (e : Event) : (addEvent s e).stops = s.stops := rfl
@[simp] theorem addEvent_stalls (s : State) (e : Event) : (addEvent s e).stalls = s.stalls := rfl
@[simp] theorem addEvent_issued (s : State) (e : Event) : (addEvent s e).issued = s.issued := rfl
@[simp] theorem addEvent_cores (s : State) (e : Event) : (addEvent s e).cores = s.cores := rfl
@[simp] theorem addEvent_sensors (s : State) (e : Event) : (addEvent s e).sensors = s.sensors := rfl
@[simp] theorem addEvent_banks (s : State) (e : Event) : (addEvent s e).banks = s.banks := rfl
@[simp] theorem addEvent_testers (s : State) (e : Event) : (addEvent s e).testers = s.testers := rfl
@[simp] theorem addEvent_sampledIn (s : State) (e : Event) : (addEvent s e).sampledIn = s.sampledIn := rfl
@[simp] theorem addEvent_allowedIn (s : State) (e : Event) : (addEvent s e).allowedIn = s.allowedIn := rfl
@[simp] theorem addEvent_rotatedIn (s : State) (e : Event) : (addEvent s e).rotatedIn = s.rotatedIn := rfl
@[simp] theorem addEvent_ports (s : State) (e : Event) : (addEvent s e).ports = s.ports := rfl
@[simp] theorem addEvent_disps (s : State) (e : Event) : (addEvent s e).disps = s.disps := rfl
@[simp] theorem addEvent_trails (s : State) (e : Event) : (addEvent s e).trails = s.trails := rfl
@[simp] theorem addEvent_attest (s : State) (e : Event) : (addEvent s e).attest = s.attest := rfl
@[simp] theorem addEvent_pilotLast (s : State) (e : Event) : (addEvent s e).pilotLast = s.pilotLast := rfl
@[simp] theorem addEvent_power (s : State) (e : Event) : (addEvent s e).power = s.power := rfl
@[simp] theorem addEvent_overSince (s : State) (e : Event) : (addEvent s e).overSince = s.overSince := rfl
@[simp] theorem addEvent_cur (s : State) (e : Event) : (addEvent s e).cur = s.cur := rfl
@[simp] theorem addEvent_agenda (s : State) (e : Event) : (addEvent s e).agenda = s.agenda := rfl
@[simp] theorem barWrite_tick (s : State)  : (barWrite s).tick = s.tick := rfl
@[simp] theorem barWrite_clk (s : State)  : (barWrite s).clk = s.clk := rfl
@[simp] theorem barWrite_clkFrac (s : State)  : (barWrite s).clkFrac = s.clkFrac := rfl
@[simp] theorem barWrite_loc (s : State)  : (barWrite s).loc = s.loc := rfl
@[simp] theorem barWrite_host (s : State)  : (barWrite s).host = s.host := rfl
@[simp] theorem barWrite_peer (s : State)  : (barWrite s).peer = s.peer := rfl
@[simp] theorem barWrite_pool (s : State)  : (barWrite s).pool = s.pool := rfl
@[simp] theorem barWrite_rkmem (s : State)  : (barWrite s).rkmem = s.rkmem := rfl
@[simp] theorem barWrite_homes (s : State)  : (barWrite s).homes = s.homes := rfl
@[simp] theorem barWrite_copies (s : State)  : (barWrite s).copies = s.copies := rfl
@[simp] theorem barWrite_relaxed (s : State)  : (barWrite s).relaxed = s.relaxed := rfl
@[simp] theorem barWrite_releases (s : State)  : (barWrite s).releases = s.releases := rfl
@[simp] theorem barWrite_poison (s : State)  : (barWrite s).poison = s.poison := rfl
@[simp] theorem barWrite_extClk (s : State)  : (barWrite s).extClk = s.extClk := rfl
@[simp] theorem barWrite_seq (s : State)  : (barWrite s).seq = s.seq := rfl
@[simp] theorem barWrite_leases (s : State)  : (barWrite s).leases = s.leases := rfl
@[simp] theorem barWrite_fresh (s : State)  : (barWrite s).fresh = s.fresh := rfl
@[simp] theorem barWrite_nextId (s : State)  : (barWrite s).nextId = s.nextId := rfl
@[simp] theorem barWrite_agents (s : State)  : (barWrite s).agents = s.agents := rfl
@[simp] theorem barWrite_pend (s : State)  : (barWrite s).pend = s.pend := rfl
@[simp] theorem barWrite_blocks (s : State)  : (barWrite s).blocks = s.blocks := rfl
@[simp] theorem barWrite_gangs (s : State)  : (barWrite s).gangs = s.gangs := rfl
@[simp] theorem barWrite_launches (s : State)  : (barWrite s).launches = s.launches := rfl
@[simp] theorem barWrite_queues (s : State)  : (barWrite s).queues = s.queues := rfl
@[simp] theorem barWrite_nextLaunch (s : State)  : (barWrite s).nextLaunch = s.nextLaunch := rfl
@[simp] theorem barWrite_slotRuns (s : State)  : (barWrite s).slotRuns = s.slotRuns := rfl
@[simp] theorem barWrite_hostTlbis (s : State)  : (barWrite s).hostTlbis = s.hostTlbis := rfl
@[simp] theorem barWrite_ctxs (s : State)  : (barWrite s).ctxs = s.ctxs := rfl
@[simp] theorem barWrite_tlb (s : State)  : (barWrite s).tlb = s.tlb := rfl
@[simp] theorem barWrite_fetch (s : State)  : (barWrite s).fetch = s.fetch := rfl
@[simp] theorem barWrite_fills (s : State)  : (barWrite s).fills = s.fills := rfl
@[simp] theorem barWrite_asks (s : State)  : (barWrite s).asks = s.asks := rfl
@[simp] theorem barWrite_rkLines (s : State)  : (barWrite s).rkLines = s.rkLines := rfl
@[simp] theorem barWrite_pins (s : State)  : (barWrite s).pins = s.pins := rfl
@[simp] theorem barWrite_jobs (s : State)  : (barWrite s).jobs = s.jobs := rfl
@[simp] theorem barWrite_colls (s : State)  : (barWrite s).colls = s.colls := rfl
@[simp] theorem barWrite_books (s : State)  : (barWrite s).books = s.books := rfl
@[simp] theorem barWrite_chanTs (s : State)  : (barWrite s).chanTs = s.chanTs := rfl
@[simp] theorem barWrite_stageHolds (s : State)  : (barWrite s).stageHolds = s.stageHolds := rfl
@[simp] theorem barWrite_links (s : State)  : (barWrite s).links = s.links := rfl
@[simp] theorem barWrite_regs (s : State)  : (barWrite s).regs = s.regs := rfl
@[simp] theorem barWrite_events (s : State)  : (barWrite s).events = s.events := rfl
@[simp] theorem barWrite_signals (s : State)  : (barWrite s).signals = s.signals := rfl
@[simp] theorem barWrite_stops (s : State)  : (barWrite s).stops = s.stops := rfl
@[simp] theorem barWrite_stalls (s : State)  : (barWrite s).stalls = s.stalls := rfl
@[simp] theorem barWrite_issued (s : State)  : (barWrite s).issued = s.issued := rfl
@[simp] theorem barWrite_cores (s : State)  : (barWrite s).cores = s.cores := rfl
@[simp] theorem barWrite_sensors (s : State)  : (barWrite s).sensors = s.sensors := rfl
@[simp] theorem barWrite_banks (s : State)  : (barWrite s).banks = s.banks := rfl
@[simp] theorem barWrite_testers (s : State)  : (barWrite s).testers = s.testers := rfl
@[simp] theorem barWrite_sampledIn (s : State)  : (barWrite s).sampledIn = s.sampledIn := rfl
@[simp] theorem barWrite_allowedIn (s : State)  : (barWrite s).allowedIn = s.allowedIn := rfl
@[simp] theorem barWrite_rotatedIn (s : State)  : (barWrite s).rotatedIn = s.rotatedIn := rfl
@[simp] theorem barWrite_ports (s : State)  : (barWrite s).ports = s.ports := rfl
@[simp] theorem barWrite_disps (s : State)  : (barWrite s).disps = s.disps := rfl
@[simp] theorem barWrite_trails (s : State)  : (barWrite s).trails = s.trails := rfl
@[simp] theorem barWrite_pilotLast (s : State)  : (barWrite s).pilotLast = s.pilotLast := rfl
@[simp] theorem barWrite_power (s : State)  : (barWrite s).power = s.power := rfl
@[simp] theorem barWrite_overSince (s : State)  : (barWrite s).overSince = s.overSince := rfl
@[simp] theorem barWrite_cur (s : State)  : (barWrite s).cur = s.cur := rfl
@[simp] theorem barWrite_agenda (s : State)  : (barWrite s).agenda = s.agenda := rfl

end Sys2Proof.Machine
end

