-- ==== Sys2Proof/Laws/Agents.lean ====
section
/-! SUPPORT. What updates leave of agents and their registers, and what noting an issue leaves of the machine. -/

namespace Sys2Proof.Machine

/-! ## Updates of agents -/

/-- A map over a list that leaves the search predicate alone. -/
theorem find_map_of {α : Type} (q : α → Bool) (f : α → α) (hf : ∀ x, q (f x) = q x) (l : List α) :
    (l.map f).find? q = (l.find? q).map f := by
  rw [List.find?_map, show q ∘ f = q from funext hf]

/-- What an update may not change for a search of agents to find the same one. -/
abbrev KeepsName (f : Agent → Agent) : Prop := ∀ x, (f x).num = x.num ∧ (f x).ended = x.ended

theorem agent?_map (s : State) (m : Nat) (f : Agent → Agent) (h : KeepsName f) :
    ({ s with agents := s.agents.map f } : State).agent? m = (s.agent? m).map f :=
  find_map_of _ f (fun x => by rw [(h x).1, (h x).2]) s.agents

theorem agent?_updAgent (s : State) (n m : Nat) (f : Agent → Agent) (h : KeepsName f) :
    (s.updAgent n f).agent? m = (s.agent? m).map fun x => if x.num == n && !x.ended then f x else x :=
  find_map_of _ _ (fun x => by split <;> simp [(h x).1, (h x).2]) s.agents

theorem agent?_num {s : State} {n : Nat} {x : Agent} (h : s.agent? n = some x) : x.num = n ∧ x.ended = false := by
  simpa using List.find?_some h

theorem agent?_updAgent_same (s : State) (n : Nat) (f : Agent → Agent) (h : KeepsName f) :
    (s.updAgent n f).agent? n = (s.agent? n).map f := by
  rw [agent?_updAgent s n n f h]
  cases hx : s.agent? n with
  | none => rfl
  | some x => simp [agent?_num hx]

theorem agent?_updAgent_ne (s : State) {n m : Nat} (f : Agent → Agent) (hn : m ≠ n) (h : KeepsName f) :
    (s.updAgent n f).agent? m = s.agent? m := by
  rw [agent?_updAgent s n m f h]
  cases hx : s.agent? m with
  | none => rfl
  | some x => simp [agent?_num hx, hn]

/-! ## Registers of agents -/

theorem regsOf_map (s : State) (m : Nat) (f : Agent → Agent) (h : KeepsName f) (hr : ∀ x, (f x).regs = x.regs) :
    ({ s with agents := s.agents.map f } : State).regsOf m = s.regsOf m := by
  unfold State.regsOf; rw [agent?_map s m f h]; cases s.agent? m <;> simp [hr]

theorem regsOf_updAgent (s : State) (n m : Nat) (f : Agent → Agent) (h : KeepsName f) (hr : ∀ x, (f x).regs = x.regs) :
    (s.updAgent n f).regsOf m = s.regsOf m := by
  unfold State.regsOf
  rw [agent?_updAgent s n m f h]
  cases s.agent? m with
  | none => rfl
  | some x => simp only [Option.map_some]; split <;> simp [hr]

theorem regsOf_mapRegs_same (s : State) (n : Nat) (f : Regs → Regs) : (s.mapRegs n f).regsOf n = (s.regsOf n).map f := by
  have h := agent?_updAgent_same s n (fun x => { x with regs := f x.regs }) (fun _ => ⟨rfl, rfl⟩)
  simp only [State.regsOf, State.mapRegs, h, Option.map_map]; rfl

theorem regsOf_mapRegs_ne (s : State) {n m : Nat} (f : Regs → Regs) (h : m ≠ n) : (s.mapRegs n f).regsOf m = s.regsOf m := by
  have h := agent?_updAgent_ne s (fun x => { x with regs := f x.regs }) h (fun _ => ⟨rfl, rfl⟩)
  simp only [State.regsOf, State.mapRegs, h]

@[simp] theorem regsOf_updPath (s : State) (n p m : Nat) (f : Path → Path) : (s.updPath n p f).regsOf m = s.regsOf m :=
  regsOf_updAgent s n m _ (fun _ => ⟨rfl, rfl⟩) (fun _ => rfl)

/-- Registers depend on the agents alone. -/
theorem regsOf_agents {s t : State} (h : t.agents = s.agents) (m : Nat) : t.regsOf m = s.regsOf m := by
  unfold State.regsOf State.agent?; rw [h]

@[simp] theorem regsOf_charge (s : State) (g : GangKey) (role a m : Nat) : (charge s g role a).regsOf m = s.regsOf m := regsOf_agents rfl m
@[simp] theorem regsOf_noteWrite (s : State) (sp : Sp) (a n m : Nat) : (noteWrite s sp a n).regsOf m = s.regsOf m :=
  regsOf_map s m _ (fun _ => ⟨rfl, rfl⟩) (fun _ => rfl)
@[simp] theorem regsOf_noteRing (s : State) (n m : Nat) : (noteRing s n).regsOf m = s.regsOf m := by
  unfold noteRing; dsimp only; split <;> simp
@[simp] theorem regsOf_ringWrite (s : State) (bs : List Byte) (m : Nat) : (ringWrite s bs).regsOf m = s.regsOf m :=
  (regsOf_agents rfl m).trans (regsOf_noteRing s bs.length m)
@[simp] theorem regsOf_emit (s : State) (bs : List Byte) (m : Nat) : (emit s bs).2.regsOf m = s.regsOf m := by
  unfold emit; split
  · exact (regsOf_ringWrite _ _ m).trans (regsOf_agents rfl m)
  · exact regsOf_agents rfl m
@[simp] theorem regsOf_packet (s : State) (x : Agent) (bs : List Byte) (b : Bool) (m : Nat) : (packet s x bs b).regsOf m = s.regsOf m := by
  unfold packet
  rw [regsOf_updAgent _ _ _ _ (fun y => by split <;> exact ⟨rfl, rfl⟩) (fun y => by split <;> rfl), regsOf_emit]
@[simp] theorem regsOf_traceSync (s : State) (n p : Nat) (ps : List Path) (m : Nat) : (traceSync s n p ps).regsOf m = s.regsOf m := by
  unfold traceSync; split
  · split <;> simp
  · rfl
@[simp] theorem regsOf_dropPacket (s : State) (n m : Nat) : (dropPacket s n).regsOf m = s.regsOf m :=
  (regsOf_updAgent _ n m (fun y => { y with trDrop := true }) (fun _ => ⟨rfl, rfl⟩) (fun _ => rfl)).trans (regsOf_agents rfl m)
@[simp] theorem regsOf_traceFrom (s : State) (n ty p : Nat) (w : Word) (e : List Byte) (ps : List Path) (m : Nat) : (traceFrom s n ty p w e ps).regsOf m = s.regsOf m := by
  unfold traceFrom; split
  · rfl
  · split
    · rfl
    · split
      · simp
      · dsimp only; split
        · simp
        · split <;> split <;> simp
@[simp] theorem regsOf_trace (s : State) (n ty p : Nat) (w : Word) (e : List Byte) (m : Nat) : (trace s n ty p w e).regsOf m = s.regsOf m := regsOf_traceFrom ..
@[simp] theorem regsOf_countWindows (s : State) (n p m : Nat) : (countWindows s n p).regsOf m = s.regsOf m := regsOf_agents rfl m
@[simp] theorem regsOf_traceFirst (s : State) (k : Iss) (m : Nat) : (traceFirst s k).regsOf m = s.regsOf m := by
  unfold traceFirst; split
  · split <;> simp
  · rfl
@[simp] theorem regsOf_noteIssue (s : State) (k : Iss) (m : Nat) : (noteIssue s k).regsOf m = s.regsOf m := by
  unfold noteIssue
  rw [regsOf_traceFirst, regsOf_updAgent _ _ m (fun x => x.noteIssue k.path s.tick s.clk k.cont) (fun _ => ⟨rfl, rfl⟩) (fun _ => rfl)]
  split <;> simp

@[simp] theorem regsOf_issued (s : State) (k : Iss) (nd : Need) (m : Nat) : (issued s k nd).regsOf m = s.regsOf m := by
  simp [issued]

end Sys2Proof.Machine
end

