-- ==== Sys2Proof/Laws/Mem.lean ====
section
/-! SUPPORT. Every operation that writes memory keeps it in canonical form, and a byte reads back as it was written. -/

namespace Sys2Proof.Machine

/-! ## The storages -/

/-- The canonical form is about these fields alone. -/
theorem memWf_congr {s t : State} (h1 : t.loc = s.loc) (h2 : t.host = s.host) (h3 : t.peer = s.peer) (h4 : t.pool = s.pool)
    (h5 : t.rkmem = s.rkmem) (h6 : t.blocks = s.blocks) (h7 : t.gangs = s.gangs) : t.memWf = s.memWf := by
  unfold State.memWf; rw [h1, h2, h3, h4, h5, h6, h7]

/-- The parts of the canonical form. -/
theorem memWf_iff (s : State) : s.memWf = true ↔ Memory.wf s.loc = true ∧ Memory.wf s.host = true ∧ mwf [] s.peer = true ∧ mwf [] s.pool = true
    ∧ mwf [] s.rkmem = true ∧ (∀ x ∈ s.peer, Memory.wf x.2 = true) ∧ (∀ x ∈ s.pool, Memory.wf x.2 = true) ∧ (∀ x ∈ s.rkmem, Memory.wf x.2 = true)
    ∧ (∀ b ∈ s.blocks, Memory.wf b.scr = true) ∧ ∀ y ∈ s.gangs, ∀ b ∈ y.ckBlocks, Memory.wf b.scr = true := by
  simp only [State.memWf, Bool.and_eq_true, List.all_eq_true, and_assoc]

theorem mem_merase {α : Type} {x : Nat × α} : ∀ {l : List (Nat × α)} {k : Nat}, x ∈ merase l k → x ∈ l
  | (i, y) :: t, k, h => by
    unfold merase at h
    split at h
    · exact List.mem_cons_of_mem _ (mem_merase h)
    · rcases List.mem_cons.1 h with h | h
      · exact h ▸ List.mem_cons_self
      · exact List.mem_cons_of_mem _ (mem_merase h)

theorem mem_minsert {α : Type} {x : Nat × α} {k : Nat} {y : α} : ∀ {l : List (Nat × α)}, x ∈ minsert l k y → x = (k, y) ∨ x ∈ l
  | [], h => by simpa [minsert] using h
  | (i, z) :: t, h => by
    unfold minsert at h
    split at h
    · simpa using h
    · split at h
      · rcases List.mem_cons.1 h with h | h
        · exact .inl h
        · exact .inr (List.mem_cons_of_mem _ h)
      · rcases List.mem_cons.1 h with h | h
        · exact .inr (h ▸ List.mem_cons_self)
        · exact (mem_minsert h).imp id (List.mem_cons_of_mem _)

/-- What a list of storages holds after one of them was replaced. -/
theorem mem_mset {α : Type} [DecidableEq α] {d : α} {x : Nat × α} {l : List (Nat × α)} {k : Nat} {y : α} (h : x ∈ mset d l k y) : x = (k, y) ∨ x ∈ l := by
  unfold mset at h
  split at h
  · exact .inr (mem_merase h)
  · exact mem_minsert h

theorem mget_wf {l : List (Nat × List Host.Cell)} (h : ∀ x ∈ l, Memory.wf x.2 = true) (k : Nat) : Memory.wf (mget [] l k) = true := by
  induction l with
  | nil => rfl
  | cons a t ih =>
    unfold mget
    split
    · exact h _ List.mem_cons_self
    · exact ih fun x hx => h x (List.mem_cons_of_mem _ hx)

theorem mset_wf {l : List (Nat × List Host.Cell)} {k : Nat} {c : List Host.Cell} (h : ∀ x ∈ l, Memory.wf x.2 = true) (hc : Memory.wf c = true) :
    ∀ x ∈ mset [] l k c, Memory.wf x.2 = true := fun x hx => by
  rcases mem_mset hx with rfl | hx
  · exact hc
  · exact h x hx

/-- The bytes of every storage are in canonical form. -/
theorem cells_wf {s : State} (h : s.memWf = true) (sp : Sp) : Memory.wf (s.cells sp) = true := by
  obtain ⟨h1, h2, -, -, -, h6, h7, h8, h9, -⟩ := (memWf_iff s).1 h
  cases sp with
  | loc => exact h1
  | host => exact h2
  | peer k => exact mget_wf h6 k
  | pool k => exact mget_wf h7 k
  | rk k => exact mget_wf h8 k
  | scr g r =>
    simp only [State.cells]
    cases hb : s.blockOf? g r with
    | none => rfl
    | some b => exact h9 b (List.mem_of_find?_eq_some hb)

/-- An update of a block that keeps its scratchpad's form keeps the machine's. -/
theorem updBlock_wf {s : State} {g : GangKey} {r : Nat} {f : Block → Block} (h : s.memWf = true) (hf : ∀ b, Memory.wf b.scr = true → Memory.wf (f b).scr = true) :
    (s.updBlock g r f).memWf = true := by
  rw [memWf_iff] at h ⊢
  refine ⟨h.1, h.2.1, h.2.2.1, h.2.2.2.1, h.2.2.2.2.1, h.2.2.2.2.2.1, h.2.2.2.2.2.2.1, h.2.2.2.2.2.2.2.1, fun b hb => ?_, h.2.2.2.2.2.2.2.2.2⟩
  obtain ⟨a, ha, rfl⟩ := List.mem_map.1 hb
  have := h.2.2.2.2.2.2.2.2.1 a ha
  split
  · exact hf a this
  · exact this

/-- Storing one storage's bytes keeps the canonical form. -/
theorem setCells_wf {s : State} {sp : Sp} {c : List Host.Cell} (h : s.memWf = true) (hc : Memory.wf c = true) : (s.setCells sp c).memWf = true := by
  have h' := (memWf_iff s).1 h
  obtain ⟨h1, h2, h3, h4, h5, h6, h7, h8, h9, h10⟩ := h'
  cases sp with
  | loc => exact (memWf_iff _).2 ⟨hc, h2, h3, h4, h5, h6, h7, h8, h9, h10⟩
  | host => exact (memWf_iff _).2 ⟨h1, hc, h3, h4, h5, h6, h7, h8, h9, h10⟩
  | peer k => exact (memWf_iff _).2 ⟨h1, h2, mwf_mset _ _ _ _ h3, h4, h5, mset_wf h6 hc, h7, h8, h9, h10⟩
  | pool k => exact (memWf_iff _).2 ⟨h1, h2, h3, mwf_mset _ _ _ _ h4, h5, h6, mset_wf h7 hc, h8, h9, h10⟩
  | rk k => exact (memWf_iff _).2 ⟨h1, h2, h3, h4, mwf_mset _ _ _ _ h5, h6, h7, mset_wf h8 hc, h9, h10⟩
  | scr g r => exact updBlock_wf h fun _ _ => hc

/-! ## Writers -/

/-- Bytes put in their place keep the canonical form. -/
theorem writeOn_wf {s : State} (h : s.memWf = true) (sp : Sp) (a : Nat) (bs : List Byte) : (s.writeOn sp a bs).memWf = true :=
  (memWf_congr rfl rfl rfl rfl rfl rfl rfl).trans (setCells_wf h (cellsWrite_wf bs _ a (cells_wf h sp)))

/-- Releases, the order count and the device's clock are no memory. -/
theorem marks_wf {s : State} (h : s.memWf = true) (rs : List Release) (q e : Nat) : ({ s with releases := rs, seq := q, extClk := e } : State).memWf = true :=
  (memWf_congr rfl rfl rfl rfl rfl rfl rfl).trans h

/-- Bytes written at their home keep the canonical form. -/
theorem writeRaw_wf {s : State} (h : s.memWf = true) (sp : Sp) (a : Nat) (bs : List Byte) : (s.writeRaw sp a bs).memWf = true :=
  writeOn_wf (marks_wf h _ _ _) sp a bs

/-- What every step of a fold keeps, the fold keeps. -/
theorem foldl_wf {α : Type} {f : State → α → State} (hf : ∀ s x, s.memWf = true → (f s x).memWf = true) : ∀ (l : List α) (s : State), s.memWf = true → (l.foldl f s).memWf = true
  | [], _, h => h
  | x :: t, s, h => foldl_wf hf t (f s x) (hf s x h)

theorem setStamp_wf {s : State} (h : s.memWf = true) (sp : Sp) (l : Nat) (ts : Stamp) : (s.setStamp sp l ts).memWf = true :=
  (memWf_congr rfl rfl rfl rfl rfl rfl rfl).trans h

theorem setStamps_wf {s : State} (h : s.memWf = true) (sp : Sp) (a n ts : Nat) : (s.setStamps sp a n ts).memWf = true :=
  foldl_wf (fun _ _ h => setStamp_wf h _ _ _) _ s h

/-- An update of agents keeps every memory. -/
theorem updAgent_wf {s : State} (h : s.memWf = true) (n : Nat) (f : Agent → Agent) : (s.updAgent n f).memWf = true :=
  (memWf_congr rfl rfl rfl rfl rfl rfl rfl).trans h

/-- What agents have observed is no memory. -/
theorem see_wf {s : State} (h : s.memWf = true) (n : Nat) (sp : Sp) (a len ts : Nat) : (s.see n sp a len ts).memWf = true := by
  unfold State.see
  split
  · exact updAgent_wf h _ _
  · exact h

theorem seeParts_wf {s : State} (h : s.memWf = true) (n : Nat) (ps : List ((Sp × Nat × Nat) × Nat)) : (s.seeParts n ps).memWf = true :=
  foldl_wf (fun _ _ h => see_wf h _ _ _ _ _) ps s h

theorem performRelaxed_wf {s : State} (h : s.memWf = true) (r : Relaxed) : (performRelaxed s r).memWf = true :=
  marks_wf (seeParts_wf (updAgent_wf (setStamps_wf (writeRaw_wf h _ _ _) _ _ _ _) _ _) _ _) _ _ _

/-- Relaxed stores that reach their homes keep the canonical form. -/
theorem drainWhere_wf {s : State} (h : s.memWf = true) (p : Relaxed → Bool) : (drainWhere s p).memWf = true :=
  foldl_wf (fun _ r h => performRelaxed_wf h r) _ _ h

theorem releaseAgent_wf {s : State} (h : s.memWf = true) (n : Nat) : (releaseAgent s n).memWf = true := updAgent_wf (drainWhere_wf h _) _ _

theorem takeRel_wf {s : State} (h : s.memWf = true) (n : Nat) (rel : Option (Nat × Nat)) : (takeRel s n rel).2.memWf = true := updAgent_wf h _ _

/-- Waiting for a refresh is no memory. -/
theorem meetRefresh_wf {s : State} (h : s.memWf = true) (sp : Sp) (l : Nat) : (meetRefresh s sp l).memWf = true := by
  unfold meetRefresh
  split
  · exact (memWf_congr rfl rfl rfl rfl rfl rfl rfl).trans h
  · exact h

/-- A store of an agent at its homes keeps the canonical form. -/
theorem storeParts_wf {s : State} (h : s.memWf = true) (n : Nat) (ps : List (Sp × Nat × List Byte)) (rel : Option (Nat × Nat)) (atomic bump : Bool) :
    (storeParts s n ps rel atomic bump).memWf = true := by
  have hd : (ps.foldl (fun s p => drainOverlap s n p.1 p.2.1 p.2.2.length) s).memWf = true := foldl_wf (fun _ _ h => drainWhere_wf h _) ps s h
  have hr : (if rel.isSome then releaseAgent (ps.foldl (fun s p => drainOverlap s n p.1 p.2.1 p.2.2.length) s) n
      else ps.foldl (fun s p => drainOverlap s n p.1 p.2.1 p.2.2.length) s).memWf = true := by
    split
    · exact releaseAgent_wf hd n
    · exact hd
  unfold storeParts
  dsimp only
  generalize hu : takeRel _ n rel = u at *
  have ht : u.2.memWf = true := by rw [← hu]; exact takeRel_wf hr n rel
  have hm := foldl_wf (fun s (p : Sp × Nat × Nat) h => meetRefresh_wf (s := s) h p.1 (lineOf p.1 p.2.1)) (ps.flatMap fun p => unitParts p.1 p.2.1 p.2.2.length) u.2 ht
  generalize (ps.flatMap fun p => unitParts p.1 p.2.1 p.2.2.length).foldl _ u.2 = v at hm ⊢
  refine marks_wf (seeParts_wf (updAgent_wf (foldl_wf (fun s p h => ?_) ps v hm) _ _) _ _) _ _ _
  refine marks_wf (setStamps_wf ?_ _ _ _ _) _ _ _
  split
  · exact writeOn_wf h _ _ _
  · exact writeRaw_wf h _ _ _

theorem storeHome_wf {s : State} (h : s.memWf = true) (n : Nat) (sp : Sp) (a : Nat) (bs : List Byte) (rel : Option (Nat × Nat)) (atomic bump : Bool) :
    (storeHome s n sp a bs rel atomic bump).memWf = true := storeParts_wf h n _ rel atomic bump

/-- A store of any ordering keeps the canonical form. -/
theorem storeOrd_wf {s : State} (h : s.memWf = true) (n : Nat) (sp : Sp) (a : Nat) (bs : List Byte) (kind scope storage : Nat) :
    (storeOrd s n sp a bs kind scope storage).memWf = true := by
  unfold storeOrd
  split
  · exact (memWf_congr rfl rfl rfl rfl rfl rfl rfl).trans (takeRel_wf (s := drainOverlap s n sp a bs.length) (drainWhere_wf h _) n none)
  · exact storeHome_wf h _ _ _ _ _ _ _

/-- A store of the host or of the device's own units keeps the canonical form. -/
theorem storeAs_wf {s : State} (h : s.memWf = true) (who : Who) (sp : Sp) (a : Nat) (bs : List Byte) : (storeAs who s sp a bs).memWf = true :=
  marks_wf (setStamps_wf (writeRaw_wf h sp a bs) _ _ _ _) _ _ _

theorem storeDevice_wf {s : State} (h : s.memWf = true) (sp : Sp) (a : Nat) (bs : List Byte) : (storeDevice s sp a bs).memWf = true := storeAs_wf h .unit sp a bs

theorem enginePut_wf {s : State} (h : s.memWf = true) (rel : Bool) (ts : Nat) (p : Sp × Nat × List Byte) : (enginePut rel ts s p).memWf = true := by
  unfold enginePut
  dsimp only
  generalize (if rel = true then _ else _ : List Release) ++ _ = rs
  exact (memWf_congr rfl rfl rfl rfl rfl rfl rfl).trans (setStamps_wf (writeRaw_wf h p.1 p.2.1 p.2.2) p.1 p.2.1 p.2.2.length ts)

/-- A job's write keeps the canonical form. -/
theorem engineWrite_wf {s : State} (h : s.memWf = true) (ps : List (Sp × Nat × List Byte)) (m : Nat) (rel : Bool) : (engineWrite s ps m rel).2.memWf = true := by
  unfold engineWrite
  generalize ps.foldl (fun c p => s.storeTs p.1 p.2.1 p.2.2.length c) m = ts
  have hf := foldl_wf (fun _ p h => enginePut_wf h rel ts p) ps s h
  dsimp only
  generalize ps.foldl (enginePut rel ts) s = t at hf ⊢
  exact (memWf_congr rfl rfl rfl rfl rfl rfl rfl).trans hf

/-- A line that takes its bytes, and lines that leave, keep the canonical form. -/
theorem putLine_wf {s : State} (h : s.memWf = true) (asn line : Nat) (bs : List Byte) (clock : Nat) : (putLine s asn line bs clock).memWf = true := by
  unfold putLine
  dsimp only
  generalize max clock _ = ts
  have hw := setStamp_wf (writeRaw_wf h (.rk asn) (line * 128) bs) (.rk asn) line { wts := ts, rts := ts }
  generalize (s.writeRaw (.rk asn) (line * 128) bs).setStamp (.rk asn) line { wts := ts, rts := ts } = t at hw ⊢
  exact (memWf_congr rfl rfl rfl rfl rfl rfl rfl).trans hw

theorem dropLines_wf {s : State} (h : s.memWf = true) (asn : Nat) (p : Nat → Bool) : (dropLines s asn p).memWf = true := by
  have hs := setCells_wf (sp := .rk asn) h (mwf_filter (0 : Byte) (fun (a, _) => !p (a / 128)) (s.cells (.rk asn)) (cells_wf h (.rk asn)))
  exact (memWf_congr (s := s.setCells (.rk asn) _) rfl rfl rfl rfl rfl rfl rfl).trans hs

theorem ringCells_wf (f : Nat → Nat) : ∀ (bs : List Byte) (c : List Host.Cell) (i : Nat), Memory.wf c = true →
    Memory.wf (bs.foldl (fun (q : List Host.Cell × Nat) b => (mset 0 q.1 (f q.2) b, q.2 + 1)) (c, i)).1 = true
  | [], _, _, h => h
  | b :: t, c, i, h => ringCells_wf f t _ _ (mwf_mset 0 c (f i) b h)

/-- A write as monitors see it is no memory. -/
theorem noteWrite_wf {s : State} (h : s.memWf = true) (sp : Sp) (a n : Nat) : (noteWrite s sp a n).memWf = true :=
  (memWf_congr rfl rfl rfl rfl rfl rfl rfl).trans h

theorem noteRing_wf {s : State} (h : s.memWf = true) (n : Nat) : (noteRing s n).memWf = true := by
  unfold noteRing
  dsimp only
  split
  · exact noteWrite_wf h _ _ _
  · exact noteWrite_wf (noteWrite_wf h _ _ _) _ _ _

/-- A packet in the trace ring keeps the canonical form. -/
theorem ringWrite_wf {s : State} (h : s.memWf = true) (bs : List Byte) : (ringWrite s bs).memWf = true := by
  have hc := ringCells_wf (fun i => s.regs.trbase + i % 2 ^ s.regs.trlog) bs s.loc s.regs.trwidx (cells_wf h .loc)
  have hs := setCells_wf (sp := .loc) (noteRing_wf h bs.length) hc
  unfold ringWrite
  dsimp only
  generalize noteRing s bs.length = u at hs ⊢
  generalize (List.foldl (fun (q : List Host.Cell × Nat) b => (mset 0 q.1 (s.regs.trbase + q.2 % 2 ^ s.regs.trlog) b, q.2 + 1)) (s.loc, s.regs.trwidx) bs).1 = c at hs ⊢
  exact (memWf_congr (s := u.setCells .loc c) rfl rfl rfl rfl rfl rfl rfl).trans hs

/-- A block's first scratchpad, from its launch record (R31), is in canonical form. -/
theorem payloadCells_wf (record : List Byte) (size : Nat) : Memory.wf (payloadCells record size) = true := cellsWrite_wf _ _ _ rfl

/-! ## Read after write -/

/-- What a byte of a storage reads as after that storage was replaced. -/
theorem cells_setCells (s : State) (sp : Sp) (c : List Host.Cell) (h : ∀ g r, sp = .scr g r → s.blockOf? g r ≠ none) : (s.setCells sp c).cells sp = c := by
  cases sp with
  | loc => rfl
  | host => rfl
  | peer k => simp [State.setCells, State.cells]
  | pool k => simp [State.setCells, State.cells]
  | rk k => simp [State.setCells, State.cells]
  | scr g r =>
    obtain ⟨b, hb⟩ := Option.ne_none_iff_exists'.1 (h g r rfl)
    have hf : (s.blocks.map fun x => if x.gang == g && x.role == r then { x with scr := c } else x).find? (fun b => b.gang == g && b.role == r) = some { b with scr := c } := by
      rw [List.find?_map, show (fun b : Block => b.gang == g && b.role == r) ∘ (fun x : Block => if x.gang == g && x.role == r then { x with scr := c } else x)
        = fun b : Block => b.gang == g && b.role == r from funext fun x => by simp only [Function.comp]; split <;> rfl]
      have hp := List.find?_some hb
      unfold State.blockOf? at hb
      simp only [hb, Option.map_some, hp, if_true]
    simp only [State.cells, State.setCells, State.blockOf?, State.updBlock, updWhere, hf, Option.map_some, Option.getD_some]

/-- Read after write: bytes written at a home read back there, and every other byte of that storage is as before. -/
theorem byteAt_writeRaw (s : State) (sp : Sp) (a : Nat) (bs : List Byte) (x : Nat) (h : ∀ g r, sp = .scr g r → s.blockOf? g r ≠ none) :
    (s.writeRaw sp a bs).byteAt sp x = if a ≤ x ∧ x < a + bs.length then bs.getD (x - a) 0 else s.byteAt sp x := by
  have hc : (s.writeRaw sp a bs).cells sp = (s.setCells sp (cellsWrite (s.cells sp) a bs)).cells sp := by cases sp <;> rfl
  unfold State.byteAt
  rw [hc, cells_setCells s sp _ h, mget_cellsWrite]

end Sys2Proof.Machine
end

