-- ==== Sys2Proof/Laws/Results.lean ====
section
/-! SUPPORT. What the frame of an issue answers, and what fixed- and variable-latency results leave (R65-R70, R120, R134). -/

namespace Sys2Proof.Machine

/-! ## The frame of an issue -/

theorem counter_room {x : Agent} {c : BitVec 3} (h : c = 0 ∨ x.d.getD (c.toNat - 1) 0 < 63) :
    ¬ ((c != 0 && decide (x.d.getD (c.toNat - 1) 0 ≥ 63)) = true) := by
  rcases h with h | h
  · simp [h]
  · intro e
    rw [Bool.and_eq_true, decide_eq_true_eq] at e
    omega

/-- An instruction that issues ends as its own effect says, unless that holds it back. -/
theorem instr_ends {s : State} {g : Ctl} {nd : Need} {k : Iss} {body : Iss → State → State × Fate} (h : Issues s g nd k)
    {t : State} {f : Fate} (hb : body k (issued s k nd) = (t, f)) (hf : f ≠ .hold) :
    instr s g nd body = .next { finish t k f with cur := none } := by
  obtain ⟨x, hx, hr, hc⟩ := h
  unfold instr
  unfold issued at hb
  simp only [hx, hr]
  rw [if_neg (counter_room hc)]
  simp only [hb]
  rw [if_neg hf]

/-- An instruction whose effect holds it back does not issue: its slot goes back and nothing else has changed. -/
theorem instr_holds {s : State} {g : Ctl} {nd : Need} {k : Iss} {body : Iss → State → State × Fate} (h : Issues s g nd k)
    {t : State} (hb : body k (issued s k nd) = (t, .hold)) : instr s g nd body = .next { unissue s k with cur := none } := by
  obtain ⟨x, hx, hr, hc⟩ := h
  unfold instr
  unfold issued at hb
  simp only [hx, hr]
  rw [if_neg (counter_room hc)]
  simp only [hb, if_true]

/-- What the checks of R70 that depend on the machine refuse takes its fault at the slot. -/
theorem instr_refused {s : State} {g : Ctl} {nd : Need} {k : Iss} {x : Agent} {body : Iss → State → State × Fate} {code : Nat}
    (h : issOf s g.guard = some (k, x)) (hr : refusal s x nd = some code) :
    instr s g nd body = .next { finish (noteIssue s k) k (.fault code k.lanes 0) with cur := none } := by
  unfold instr; simp only [h, hr]

/-! ## Lanes -/

theorem mem_lanesOf {m : Word} {l : Nat} : l ∈ lanesOf m ↔ l < 32 ∧ m.getLsbD l = true := by simp [lanesOf]

/-! ## Registers written by lane results -/

@[simp] theorem get_set (r : Regs) (a l b j : Nat) (x : Word) :
    (r.set a l x).get b j = if 32 * b + j = 32 * a + l then x else r.get b j := by
  simp [Regs.get, Regs.set]

theorem setKeys_cons (r : Regs) (w : Nat × Word) (ws : List (Nat × Word)) :
    r.setKeys (w :: ws) = Regs.setKeys { r with v := mset 0 r.v w.1 w.2 } ws := rfl

theorem setKeys_append (r : Regs) (a b : List (Nat × Word)) : r.setKeys (a ++ b) = (r.setKeys a).setKeys b := by
  simp [Regs.setKeys, List.foldl_append]

/-- `setKeys` changes vector registers alone. -/
theorem setKeys_eq : ∀ (ws : List (Nat × Word)) (r : Regs), r.setKeys ws = { r with v := ws.foldl (fun m w => mset 0 m w.1 w.2) r.v }
  | [], _ => rfl
  | w :: ws, r => by rw [setKeys_cons, setKeys_eq ws]; rfl

/-- A lane result in a register: the lanes of the list hold it, in one register or in a pair; the rest is as it was. -/
theorem get_setKeys_outWrites (d : Nat) (wide : Bool) (f : Nat → LaneOut) (reg lane : Nat) (hl : lane < 32) : ∀ (ls : List Nat) (r : Regs), (∀ l ∈ ls, l < 32) →
    (r.setKeys (outWrites d wide (ls.map fun l => (l, f l)))).get reg lane =
      if lane ∈ ls ∧ reg = d then (f lane).val.extractLsb' 0 32
      else if lane ∈ ls ∧ wide ∧ reg = d + 1 then (f lane).val.extractLsb' 32 32 else r.get reg lane
  | [], r, _ => by simp [outWrites, Regs.setKeys]
  | l :: ls, r, h => by
    have hlt : l < 32 := h l (List.mem_cons_self)
    have ih := get_setKeys_outWrites d wide f reg lane hl ls
    have hs : ∀ x ∈ ls, x < 32 := fun x hx => h x (List.mem_cons_of_mem _ hx)
    have step : outWrites d wide ((l :: ls).map fun l => (l, f l)) =
        outWrites d wide [(l, f l)] ++ outWrites d wide (ls.map fun l => (l, f l)) := by simp [outWrites]
    rw [step, setKeys_append, ih _ hs]
    by_cases hm : lane ∈ ls
    · simp [hm]
      by_cases h1 : reg = d
      · simp [h1]
      · by_cases h2 : wide = true ∧ reg = d + 1
        · simp [h2]
        · have : ¬ (32 * reg + lane = 32 * d + l) := by omega
          have : ¬ (wide = true ∧ 32 * reg + lane = 32 * (d + 1) + l) := by
            rintro ⟨a, b⟩; exact h2 ⟨a, by omega⟩
          cases wide <;> simp_all [outWrites, setKeys_eq, Regs.get]
    · by_cases e : lane = l
      · subst e
        by_cases h1 : reg = d
        · subst h1
          have : ¬ (32 * reg + lane = 32 * (reg + 1) + lane) := by omega
          cases wide <;> simp_all [outWrites, setKeys_eq, Regs.get]
        · have h3 : ¬ (32 * reg + lane = 32 * d + lane) := by omega
          cases wide
          · simp_all [outWrites, setKeys_eq, Regs.get]
          · by_cases h2 : reg = d + 1
            · subst h2; simp_all [outWrites, setKeys_eq, Regs.get]
            · have h4 : ¬ (32 * reg + lane = 32 * (d + 1) + lane) := by omega
              simp_all [outWrites, setKeys_eq, Regs.get]
      · have h3 : ¬ (32 * reg + lane = 32 * d + l) := by omega
        have h4 : ¬ (32 * reg + lane = 32 * (d + 1) + l) := by omega
        cases wide <;> simp_all [outWrites, setKeys_eq, Regs.get]

/-- Of a list of writes those that a condition on the key keeps: a key that it keeps holds what all of them leave there. -/
theorem mget_foldl_filter (p : Nat → Bool) (key : Nat) : ∀ (ws : List (Nat × Word)) (m m' : List (Nat × Word)), (p key = true → mget 0 m key = mget 0 m' key) →
    mget 0 ((ws.filter fun w => p w.1).foldl (fun m w => mset 0 m w.1 w.2) m) key =
      if p key = true then mget 0 (ws.foldl (fun m w => mset 0 m w.1 w.2) m') key else mget 0 m key
  | [], m, m', h => by
    by_cases e : p key = true
    · rw [if_pos e]; exact h e
    · rw [if_neg e]; rfl
  | w :: ws, m, m', h => by
    by_cases hw : p w.1 = true
    · rw [List.filter_cons_of_pos (by simpa using hw), List.foldl_cons, List.foldl_cons,
        mget_foldl_filter p key ws (mset 0 m w.1 w.2) (mset 0 m' w.1 w.2) (fun e => by rw [mget_mset, mget_mset, h e])]
      by_cases e : p key = true
      · simp [e]
      · have : key ≠ w.1 := fun c => e (c ▸ hw)
        simp [e, this]
    · rw [List.filter_cons_of_neg (by simpa using hw), List.foldl_cons,
        mget_foldl_filter p key ws m (mset 0 m' w.1 w.2) (fun e => by
          have : key ≠ w.1 := fun c => hw (c ▸ e)
          rw [mget_mset, if_neg this, h e])]

/-! ## Flags -/

/-- Flags change no vector register and no predicate. -/
theorem flags_regs (k : Iss) (s : State) (fl lanes : Word) (n : Nat) :
    ((k.flags s fl lanes).regsOf n).map (fun r => (r.v, r.p)) = (s.regsOf n).map fun r => (r.v, r.p) := by
  have h : ((s.mapRegs k.agent fun r => { r with arith := r.arith ||| fl }).regsOf n).map (fun r => (r.v, r.p)) = (s.regsOf n).map fun r => (r.v, r.p) := by
    by_cases e : n = k.agent
    · subst e; rw [regsOf_mapRegs_same]; cases s.regsOf k.agent <;> rfl
    · rw [regsOf_mapRegs_ne _ _ e]
  have ha : ∀ (t : State) (l : List FaultRec), (addDue t k.agent k.path l).regsOf n = t.regsOf n := by
    intro t l; unfold addDue; split <;> simp
  unfold Iss.flags
  split
  · rfl
  · dsimp only; split
    · rw [ha]; exact h
    · exact h

theorem vreg_of_v {s t : State} {n : Nat} (h : (t.regsOf n).map (fun r => (r.v, r.p)) = (s.regsOf n).map fun r => (r.v, r.p)) (reg lane : Nat) :
    t.vreg n reg lane = s.vreg n reg lane := by
  unfold State.vreg
  cases ht : t.regsOf n <;> cases hs : s.regsOf n <;> simp_all [Regs.get]

theorem vpred_of_p {s t : State} {n : Nat} (h : (t.regsOf n).map (fun r => (r.v, r.p)) = (s.regsOf n).map fun r => (r.v, r.p)) (p lane : Nat) :
    t.vpred n p lane = s.vpred n p lane := by
  unfold State.vpred
  cases ht : t.regsOf n <;> cases hs : s.regsOf n <;> simp_all [Regs.pred]

/-! ## The two latency classes -/

/-- The issuer of an instruction is there. -/
theorem issOf_agent {s : State} {g : Guard} {k : Iss} {x : Agent} (h : issOf s g = some (k, x)) : s.agent? k.agent = some x := by
  unfold issOf at h
  split at h
  · cases h
  · split at h
    · rename_i hx _; cases h; exact hx
    · cases h

theorem issued_regs {s : State} {g : Ctl} {nd : Need} {k : Iss} (h : Issues s g nd k) : ∃ r, (issued s k nd).regsOf k.agent = some r := by
  obtain ⟨x, hx, _⟩ := h
  exact ⟨x.regs, by rw [regsOf_issued, State.regsOf, issOf_agent hx]; rfl⟩

theorem putFixed_result (k : Iss) (b : State) (d : Nat) (wide : Bool) (f : Nat → LaneOut) (h : ∃ r, b.regsOf k.agent = some r) :
    (putFixed k b d wide f).2 = .done ∧ FixedResult b (putFixed k b d wide f).1 k d wide f := by
  obtain ⟨r, hr⟩ := h
  refine ⟨rfl, ?_, fun v => ((outWrites d wide (laneOuts k f)).filter fun w => !k.kept.contains w.1).foldl (fun m w => mset 0 m w.1 w.2) v, ?_⟩
  · have hv : ∀ reg lane, lane < 32 → (putFixed k b d wide f).1.vreg k.agent reg lane =
        if 32 * reg + lane ∈ k.kept then b.vreg k.agent reg lane
        else if lane ∈ lanesOf k.lanes ∧ reg = d then (f lane).val.extractLsb' 0 32
        else if lane ∈ lanesOf k.lanes ∧ wide ∧ reg = d + 1 then (f lane).val.extractLsb' 32 32 else b.vreg k.agent reg lane := by
      intro reg lane hl
      have hg := get_setKeys_outWrites d wide f reg lane hl (lanesOf k.lanes) r (fun l hl => (mem_lanesOf.1 hl).1)
      simp only [setKeys_eq, Regs.get] at hg
      simp only [putFixed]
      rw [vreg_of_v (flags_regs k _ _ _ k.agent)]
      simp only [State.vreg, regsOf_mapRegs_same, hr, Option.map_some, Option.getD_some, setKeys_eq, Regs.get]
      rw [mget_foldl_filter (fun key => !k.kept.contains key) (32 * reg + lane) _ r.v r.v (fun _ => rfl)]
      by_cases hk : 32 * reg + lane ∈ k.kept
      · simp [hk]
      · simpa [hk, laneOuts] using hg
    constructor
    · intro lane hl
      refine ⟨fun hm => ?_, fun hw hm => ?_⟩
      · rw [hv _ _ hl]; simp [hm.2, mem_lanesOf.2 ⟨hl, hm.1⟩]
      · rw [hv _ _ hl]; simp [hm.2, mem_lanesOf.2 ⟨hl, hm.1⟩, hw]
    · intro reg lane hl hn
      rw [hv _ _ hl]
      by_cases hk : 32 * reg + lane ∈ k.kept
      · simp [hk]
      · rw [if_neg hk, if_neg, if_neg]
        · rintro ⟨a, b, c⟩; exact hn ⟨⟨(mem_lanesOf.1 a).2, hk⟩, .inr ⟨b, c⟩⟩
        · rintro ⟨a, b⟩; exact hn ⟨⟨(mem_lanesOf.1 a).2, hk⟩, .inl b⟩
  · simp only [putFixed, setKeys_eq]

theorem regsOf_bump (s : State) (n m : Nat) (cnt : Nat) (up : Bool) :
    (s.updAgent n fun x => { x with d := bumpCounter x.d cnt up }).regsOf m = s.regsOf m :=
  regsOf_updAgent s n m (fun x => { x with d := bumpCounter x.d cnt up }) (fun _ => ⟨rfl, rfl⟩) (fun _ => rfl)

/-- A result that opens a window or holds a register stands in the list of what is outstanding. -/
theorem later_pend (k : Iss) (b : State) (g : Ctl) (r : Result) (h : r.opens = true) :
    ∃ p : Pend, Outstanding b (k.later b g r) k.agent g.cnt p ∧ OfIssue k g p ∧ p.writes = r.writes ∧ p.arith = r.arith ∧ p.mem = r.mem
      ∧ p.traps = r.traps ∧ p.hold = r.hold ∧ (k.later b g r).regsOf k.agent = b.regsOf k.agent := by
  have hn : ¬ (((g.cnt == 0) && decide (r = { opens := false })) = true) := by
    rw [Bool.and_eq_true, decide_eq_true_eq]; rintro ⟨_, e⟩; rw [e] at h; cases h
  unfold Iss.later
  rw [if_neg hn]
  by_cases hc : g.cnt = 0
  · rw [hc]
    exact ⟨_, rfl, ⟨rfl, rfl, rfl, by rw [hc], by simp [h, hc], rfl, rfl, rfl⟩, rfl, rfl, rfl, rfl, rfl, regsOf_agents rfl _⟩
  · have hc' : (g.cnt == 0) = false := by simpa using hc
    simp only [hc']
    refine ⟨_, (if_neg hc).symm, ⟨rfl, rfl, rfl, rfl, (if_neg hc).symm, rfl, rfl, rfl⟩, rfl, rfl, rfl, rfl, rfl, ?_⟩
    exact (regsOf_bump _ _ _ _ _).trans (regsOf_agents rfl _)

theorem putVar_result (k : Iss) (b : State) (g : Ctl) (d : Nat) (wide : Bool) (f : Nat → LaneOut) :
    (putVar k b g d wide f).2 = .done ∧ PendingResult b (putVar k b g d wide f).1 k g d wide f := by
  obtain ⟨p, h1, h2, h3, h4, h5, _, h7, h8⟩ := later_pend k b g { writes := outWrites d wide (laneOuts k f), arith := outFlags (laneOuts k f), traps := if outTraps (laneOuts k f) == 0 then [] else [(0x50, outTraps (laneOuts k f), 0)] } rfl
  exact ⟨rfl, p, h1, h2, h3, h4, h5, h7, h8⟩

/-- Any instruction that puts one result per lane computes it. -/
theorem computes_put {i : Instr} {g : Ctl} {nd : Need} {var : Bool} {d : Nat} {wide : Bool} {f : Iss → Nat → LaneOut}
    (h : ∀ s, exec i s = instr s g nd fun k s => put var k s g d wide (f k)) : Computes i g nd var d wide f := by
  intro s k hi
  have hp := putFixed_result k (issued s k nd) d wide (f k) (issued_regs hi)
  have hv := putVar_result k (issued s k nd) g d wide (f k)
  refine ⟨(put var k (issued s k nd) g d wide (f k)).1, ?_, ?_⟩
  · unfold Completes EndsWith
    rw [h]
    refine instr_ends hi (Prod.ext rfl ?_) (by simp)
    cases var
    · exact hp.1
    · exact hv.1
  · cases var
    · exact hp.2
    · exact hv.2

/-- An instruction whose effect is `body`, and which then is done, does it. -/
theorem does_of {i : Instr} {g : Ctl} {nd : Need} {body : Iss → State → State × Fate} {f : Iss → State → State}
    (h : ∀ s, exec i s = instr s g nd body) (hb : ∀ k s, body k s = (f k s, .done)) : Does i g nd f := by
  intro s k hi
  unfold Completes EndsWith
  rw [h]
  exact instr_ends hi (hb _ _) (by simp)

theorem doesIf_of {i : Instr} {g : Ctl} {nd : Need} {body : Iss → State → State × Fate} {c : Iss → State → Prop} {f : Iss → State → State}
    (h : ∀ s, exec i s = instr s g nd body) (hb : ∀ k s, c k s → body k s = (f k s, .done)) : DoesIf i g nd c f := by
  intro s k hi hc
  unfold Completes EndsWith
  rw [h]
  exact instr_ends hi (hb _ _ hc) (by simp)

theorem endsIf_of {i : Instr} {g : Ctl} {nd : Need} {body : Iss → State → State × Fate} {c : Iss → State → Prop} {f : Iss → State → Fate}
    (h : ∀ s, exec i s = instr s g nd body) (hb : ∀ k s, c k s → body k s = (s, f k s)) (hf : ∀ k s, f k s ≠ .hold) : EndsIf i g nd c f := by
  intro s k hi hc
  unfold EndsWith
  rw [h]
  exact instr_ends hi (hb _ _ hc) (hf _ _)

end Sys2Proof.Machine
end

