-- ==== Sys2Proof/Laws/Words.lean ====
section
/-! SUPPORT. A word and its fields are each other's inverse. -/

namespace Sys2Proof

/-- A flag as one bit. -/
theorem ofBool_get (b : Bool) (i : Nat) : (BitVec.ofBool b).getLsbD i = (decide (i = 0) && b) := by
  cases b
  · simp
  · rcases i with _ | i
    · rfl
    · exact BitVec.getLsbD_of_ge _ _ (by omega)

/-- R58, R60: the fields of the word that fields make up are those fields. -/
theorem fieldsOf_packFields (f : Fields) : fieldsOf (packFields f) = f := by
  cases f with
  | mk op sub g n pg la d a b c cnt ty imm =>
  unfold fieldsOf packFields
  congr 1
  all_goals first
    | (apply BitVec.eq_of_getLsbD_eq; intro i hi
       simp only [BitVec.getLsbD_extractLsb', BitVec.getLsbD_append, hi, decide_true, Bool.true_and]
       repeat (rw [if_neg (by omega)])
       try rw [if_pos (by omega)]
       first | rfl | (congr 1; omega))
    | (simp only [BitVec.getLsbD_append, ofBool_get]; simp only [Nat.reduceLT, if_false, if_true, Nat.reduceSub, decide_true, Bool.true_and])
/-- A bit under a bound that holds. -/
theorem and_of {p : Prop} [Decidable p] {a b : Bool} (h : p) (e : a = b) : (decide p && a) = b := by simp [h, e]

/-- A choice both of whose sides have one value. -/
theorem ite_case {c : Prop} [Decidable c] {a b z : Bool} (h : c → a = z) (h' : ¬c → b = z) : (if c then a else b) = z := by
  split <;> simp_all

/-- R58, R60: the word that a word's fields make up is that word: no bit stands outside a field. -/
theorem packFields_fieldsOf (w : Slot) : packFields (fieldsOf w) = w := by
  unfold fieldsOf packFields
  apply BitVec.eq_of_getLsbD_eq; intro i hi
  simp only [BitVec.getLsbD_extractLsb', BitVec.getLsbD_append, ofBool_get]
  repeat (refine ite_case (fun h => and_of (by omega) (congrArg w.getLsbD (by omega))) (fun h => ?_))
  exact and_of (by omega) (congrArg w.getLsbD (by omega))

end Sys2Proof
end

