-- ==== Sys2Proof/Tests/Slice0.lean ====
section
/-! SUPPORT. Tests: words of every instruction from the encoding tables of the spec, terms and words that the checks refuse, results
the spec states or that follow from it by hand, and states that meet the hypotheses of the statements. -/

namespace Sys2Proof.Tests

open Sys2Proof.Machine

set_option maxRecDepth 100000
set_option Elab.async false

/-! ## Words written out from R58, R60-R64 and the opcode tables R88-R98 -/

theorem decode_major_00 : ∀ p ∈ ([(0x00040000000000000000002A, .join { disp := 5, slot := 2 }),
    (0x000400000001000000000000, .joinClr {}),
    (0x000A30000000000000000000, .exit { ctl := { guard := .pos 3 } }),
    (0x000C00000000000000000000, .yield {}),
    (0x001320060100000000000003, .vote { ctl := { guard := .neg 2 }, d := 6, a := 1, opx := 3 }),
    (0x001400090000000000000000, .xmrd { d := 9 }),
    (0x001800000900000000000000, .xmwr { a := 9 }),
    (0x001C00090000000000000000, .pathq { d := 9 }),
    (0x002000000000000000000040, .regroup { imm := 64 })] : List (Nat × Instr)),
    decodeTableWord 96 p.1 = some p.2 ∧ encode p.2 = some (BitVec.ofNat 96 p.1) := by decide +kernel

theorem decode_major_01 : ∀ p ∈ ([(0x0102100000000000FFFFFFFC, .bra { ctl := { guard := .pos 1 }, disp := 0x1fffffff, slot := 4 }),
    (0x010400000A00000000000000, .brx { a := 10 }),
    (0x010A400C0000000000000019, .call { ctl := { guard := .pos 4 }, d := 12, disp := 3, slot := 1 }),
    (0x010C00000E00000000000000, .ret { a := 14 })] : List (Nat × Instr)),
    decodeTableWord 96 p.1 = some p.2 ∧ encode p.2 = some (BitVec.ofNat 96 p.1) := by decide +kernel

theorem decode_major_10 : ∀ p ∈ ([(0x100000010203000310000000, .iadd { ty := .s32, d := 1, a := 2, b := 3, sat := true }),
    (0x1004000102100007FFFFFFFB, .iaddImm { ty := .n32, d := 1, a := 2, bctl := 16, imm := 0xfffffffb }),
    (0x100BF0040506000700000000, .isub { ctl := { guard := .neg 15 }, ty := .n32, d := 4, a := 5, b := 6 }),
    (0x100C00040500000300000007, .isubImm { ty := .s32, d := 4, a := 5, imm := 7 }),
    (0x1010000A0204030701000000, .iaddc { ty := .n32, d := 10, a := 2, b := 4, c := 3, fl := 1 }),
    (0x1014000B0301030700000005, .iaddcImm { ty := .n32, d := 11, a := 3, c := 3, bctl := 1, imm := 5 }),
    (0x101800010203000300000000, .imin { ty := .s32, d := 1, a := 2, b := 3 }),
    (0x101C00010200000700000009, .iminImm { ty := .n32, d := 1, a := 2, imm := 9 }),
    (0x102000010203000700000000, .imax { ty := .n32, d := 1, a := 2, b := 3 }),
    (0x102400010200000380000000, .imaxImm { ty := .s32, d := 1, a := 2, imm := 0x80000000 }),
    (0x102800070800000310000000, .iabs { ty := .s32, d := 7, a := 8, sat := true }),
    (0x103000010203040500000000, .sad { ty := .n8, d := 1, a := 2, b := 3, c := 4 }),
    (0x103800080A0300030F000000, .lea { ty := .s32, d := 8, a := 10, b := 3, fl := 15 }),
    (0x103C00080A02000700000064, .leaImm { ty := .n32, d := 8, a := 10, bctl := 2, imm := 100 }),
    (0x104000020406000410000000, .iadd64 { ty := .s64, d := 2, a := 4, b := 6, sat := true }),
    (0x1044000204000008FFFFFFFF, .iadd64Imm { ty := .n64, d := 2, a := 4, imm := 0xffffffff })] : List (Nat × Instr)),
    decodeTableWord 96 p.1 = some p.2 ∧ encode p.2 = some (BitVec.ofNat 96 p.1) := by decide +kernel

theorem decode_major_11 : ∀ p ∈ ([(0x110000020406004800000000, .imul { ctl := { cnt := 2 }, ty := .n64, d := 2, a := 4, b := 6 }),
    (0x110400020400000300000003, .imulImm { ty := .s32, d := 2, a := 4, imm := 3 }),
    (0x110800010305000300000000, .imulh { ty := .s32, d := 1, a := 3, b := 5 }),
    (0x110C04020400000480000000, .imulhImm { ctl := { la := 4 }, ty := .s64, d := 2, a := 4, imm := 0x80000000 }),
    (0x111000010203040310000000, .imad { ty := .s32, d := 1, a := 2, b := 3, c := 4, sat := true }),
    (0x11140001020004070000000A, .imadImm { ty := .n32, d := 1, a := 2, c := 4, imm := 10 }),
    (0x111800020305042300000000, .imadw { ctl := { cnt := 1 }, ty := .s32, d := 2, a := 3, b := 5, c := 4 }),
    (0x111C0002030004C7FFFFFFFF, .imadwImm { ctl := { cnt := 6 }, ty := .n32, d := 2, a := 3, c := 4, imm := 0xffffffff })] : List (Nat × Instr)),
    decodeTableWord 96 p.1 = some p.2 ∧ encode p.2 = some (BitVec.ofNat 96 p.1) := by decide +kernel

theorem decode_major_12 : ∀ p ∈ ([(0x120000020407000C00000000, .shl { ty := .b64, d := 2, a := 4, b := 7 }),
    (0x120400020500000B0000001F, .shlImm { ty := .b32, d := 2, a := 5, imm := 31 }),
    (0x120800020507000B00000000, .shr { ty := .b32, d := 2, a := 5, b := 7 }),
    (0x120C00020400000C0000003F, .shrImm { ty := .b64, d := 2, a := 4, imm := 63 }),
    (0x121000020407000400000000, .sar { ty := .s64, d := 2, a := 4, b := 7 }),
    (0x121400010300000300000028, .sarImm { ty := .s32, d := 1, a := 3, imm := 40 }),
    (0x121800010305000B00000000, .rot { ty := .b32, d := 1, a := 3, b := 5 }),
    (0x121C00010300000B00000008, .rotImm { ty := .b32, d := 1, a := 3, imm := 8 }),
    (0x122000020406000C00000000, .and { ty := .b64, d := 2, a := 4, b := 6 }),
    (0x122400010300000B000000FF, .andImm { ty := .b32, d := 1, a := 3, imm := 255 }),
    (0x122800010305000B00000000, .or { ty := .b32, d := 1, a := 3, b := 5 }),
    (0x122C00020400000C80000000, .orImm { ty := .b64, d := 2, a := 4, imm := 0x80000000 }),
    (0x123000010305000B00000000, .xor { ty := .b32, d := 1, a := 3, b := 5 }),
    (0x123400010300000BFFFFFFFF, .xorImm { ty := .b32, d := 1, a := 3, imm := 0xffffffff }),
    (0x123800030405060B000000E8, .lop3 { ty := .b32, d := 3, a := 4, b := 5, c := 6, opx := 232 }),
    (0x123C00030496060BF0F0F0F0, .lop3Imm { ty := .b32, d := 3, a := 4, c := 6, bctl := 150, imm := 0xf0f0f0f0 })] : List (Nat × Instr)),
    decodeTableWord 96 p.1 = some p.2 ∧ encode p.2 = some (BitVec.ofNat 96 p.1) := by decide +kernel

theorem decode_major_13 : ∀ p ∈ ([(0x130000030400000C00000000, .popc { ty := .b64, d := 3, a := 4 }),
    (0x130800030500000B00000000, .clz { ty := .b32, d := 3, a := 5 }),
    (0x131000030400000C00000000, .ctz { ty := .b64, d := 3, a := 4 }),
    (0x131800020400000C00000000, .brev { ty := .b64, d := 2, a := 4 }),
    (0x132000010203000300000000, .bfx { ty := .s32, d := 1, a := 2, b := 3 }),
    (0x132400010200000700000808, .bfxImm { ty := .n32, d := 1, a := 2, imm := 0x808 }),
    (0x132800010203040B00000000, .bfi { ty := .b32, d := 1, a := 2, b := 3, c := 4 }),
    (0x132C00010200040B00000410, .bfiImm { ty := .b32, d := 1, a := 2, c := 4, imm := 0x410 }),
    (0x133000010203040B00000000, .prmt { ty := .b32, d := 1, a := 2, b := 3, c := 4 }),
    (0x133400010200040B00010203, .prmtImm { ty := .b32, d := 1, a := 2, c := 4, imm := 0x10203 })] : List (Nat × Instr)),
    decodeTableWord 96 p.1 = some p.2 ∧ encode p.2 = some (BitVec.ofNat 96 p.1) := by decide +kernel

theorem decode_major_14 : ∀ p ∈ ([(0x1400000102030F0B00000000, .sel { ty := .b32, d := 1, a := 2, b := 3, c := 15 }),
    (0x140400020400010C00000007, .selImm { ty := .b64, d := 2, a := 4, c := 1, imm := 7 }),
    (0x140800010204000405000000, .iset { ty := .s64, d := 1, a := 2, b := 4, fl := 5 }),
    (0x140C000100020003000003E8, .isetImm { ty := .s32, d := 1, bctl := 2, imm := 0x3e8 }),
    (0x141000010203040000000080, .pset { d := 1, a := 2, b := 3, c := 4, opx := 128 }),
    (0x141800090000000000000000, .pmovTov { d := 9 }),
    (0x141800000900000000000001, .pmovFromv { a := 9, opx := 1 })] : List (Nat × Instr)),
    decodeTableWord 96 p.1 = some p.2 ∧ encode p.2 = some (BitVec.ofNat 96 p.1) := by decide +kernel

theorem decode_major_15 : ∀ p ∈ ([(0x150000020400000C00000000, .mov { ty := .b64, d := 2, a := 4 }),
    (0x15040002000000113FC00000, .movi { ty := .f32, d := 2, imm := 0x3fc00000 }),
    (0x150800010203000B0D000000, .shfl { ty := .b32, d := 1, a := 2, b := 3, fl := 13 }),
    (0x150C00010203000B00000001, .shflImm { ty := .b32, d := 1, a := 2, bctl := 3, imm := 1 }),
    (0x151000010200001140000000, .wred { ty := .f32, d := 1, a := 2, rnd := .rz })] : List (Nat × Instr)),
    decodeTableWord 96 p.1 = some p.2 ∧ encode p.2 = some (BitVec.ofNat 96 p.1) := by decide +kernel

theorem decode_major_30 : ∀ p ∈ ([(0x300000010203001170000000, .fadd { ty := .f32, d := 1, a := 2, b := 3, rnd := .ru, sat := true }),
    (0x30040001020000113FC00000, .faddImm { ty := .f32, d := 1, a := 2, imm := 0x3fc00000 }),
    (0x300800010203001120000000, .fmul { ty := .f32, d := 1, a := 2, b := 3, rnd := .rn }),
    (0x300C00010240001140000000, .fmulImm { ty := .f32, d := 1, a := 2, bctl := 64, imm := 0x40000000 }),
    (0x301000010203041180000000, .ffma { ty := .f32, d := 1, a := 2, b := 3, c := 4, rnd := .rd }),
    (0x301400010290041140400000, .ffmaImm { ty := .f32, d := 1, a := 2, c := 4, bctl := 144, imm := 0x40400000 }),
    (0x301800010203001100000000, .fmin { ty := .f32, d := 1, a := 2, b := 3 }),
    (0x301C00010200001100000000, .fminImm { ty := .f32, d := 1, a := 2 }),
    (0x302000010203001100000000, .fmax { ty := .f32, d := 1, a := 2, b := 3 }),
    (0x3024000102000011FF800000, .fmaxImm { ty := .f32, d := 1, a := 2, imm := 0xff800000 }),
    (0x3028000F020300110D000000, .fset { ty := .f32, d := 15, a := 2, b := 3, fl := 13 }),
    (0x302C0001020900117FC00000, .fsetImm { ty := .f32, d := 1, a := 2, bctl := 9, imm := 0x7fc00000 }),
    (0x303000010200001300000000, .fclass { ty := .bf16, d := 1, a := 2 }),
    (0x303800010200001180000000, .frnd { ty := .f32, d := 1, a := 2, rnd := .rd })] : List (Nat × Instr)),
    decodeTableWord 96 p.1 = some p.2 ∧ encode p.2 = some (BitVec.ofNat 96 p.1) := by decide +kernel

theorem decode_major_31 : ∀ p ∈ ([(0x310000010200003100000000, .frcp { ctl := { cnt := 1 }, ty := .f32, d := 1, a := 2 }),
    (0x310802010200001140000000, .frsq { ctl := { la := 2 }, ty := .f32, d := 1, a := 2, rnd := .rz }),
    (0x311000010200001110000000, .fsqrt { ty := .f32, d := 1, a := 2, sat := true }),
    (0x311800010200007100000000, .fex2 { ctl := { cnt := 3 }, ty := .f32, d := 1, a := 2 }),
    (0x312000010200009100000000, .flg2 { ctl := { cnt := 4 }, ty := .f32, d := 1, a := 2 }),
    (0x31280001020000B100000000, .fsin { ctl := { cnt := 5 }, ty := .f32, d := 1, a := 2 }),
    (0x31300001020000D100000000, .fcos { ctl := { cnt := 6 }, ty := .f32, d := 1, a := 2 }),
    (0x31380F010200001100000000, .ftanh { ctl := { la := 15 }, ty := .f32, d := 1, a := 2 })] : List (Nat × Instr)),
    decodeTableWord 96 p.1 = some p.2 ∧ encode p.2 = some (BitVec.ofNat 96 p.1) := by decide +kernel

theorem decode_major_32 : ∀ p ∈ ([(0x320000010203001205000000, .hadd2 { ty := .f16, d := 1, a := 2, b := 3, fl := 5 }),
    (0x32040001022000123C003C00, .hadd2Imm { ty := .f16, d := 1, a := 2, bctl := 32, imm := 0x3c003c00 }),
    (0x320800010203001210000000, .hmul2 { ty := .f16, d := 1, a := 2, b := 3, sat := true }),
    (0x320C00010203001240004000, .hmul2Imm { ty := .f16, d := 1, a := 2, bctl := 3, imm := 0x40004000 }),
    (0x32100001020304120F000000, .hfma2 { ty := .f16, d := 1, a := 2, b := 3, c := 4, fl := 15 }),
    (0x321400010200041200003C00, .hfma2Imm { ty := .f16, d := 1, a := 2, c := 4, imm := 0x3c00 }),
    (0x321800010203001300000000, .badd2 { ty := .bf16, d := 1, a := 2, b := 3 }),
    (0x321C0001021000133F803F80, .badd2Imm { ty := .bf16, d := 1, a := 2, bctl := 16, imm := 0x3f803f80 }),
    (0x322000010203041360000000, .bfma2 { ty := .bf16, d := 1, a := 2, b := 3, c := 4, rnd := .ru }),
    (0x32240001020004133F803F80, .bfma2Imm { ty := .bf16, d := 1, a := 2, c := 4, imm := 0x3f803f80 }),
    (0x322800010203041400000015, .fdot4 { ty := .e4m3, d := 1, a := 2, b := 3, c := 4, opx := 21 })] : List (Nat × Instr)),
    decodeTableWord 96 p.1 = some p.2 ∧ encode p.2 = some (BitVec.ofNat 96 p.1) := by decide +kernel

theorem decode_major_33 : ∀ p ∈ ([(0x330000020406003000000000, .dadd { ctl := { cnt := 1 }, ty := .f64, d := 2, a := 4, b := 6 }),
    (0x330800020406005040000000, .dmul { ctl := { cnt := 2 }, ty := .f64, d := 2, a := 4, b := 6, rnd := .rz }),
    (0x331001020406081000000000, .dfma { ctl := { la := 1 }, ty := .f64, d := 2, a := 4, b := 6, c := 8 })] : List (Nat × Instr)),
    decodeTableWord 96 p.1 = some p.2 ∧ encode p.2 = some (BitVec.ofNat 96 p.1) := by decide +kernel

theorem decode_major_34 : ∀ p ∈ ([(0x340000020100001420000011, .cvt { ty := .e4m3, d := 2, a := 1, rnd := .rn, opx := 17 }),
    (0x340800010203001800000003, .cpack { ty := .e2m1, d := 1, a := 2, b := 3, opx := 3 }),
    (0x341000010200001700000003, .cunpk { ty := .e3m2, d := 1, a := 2, opx := 3 })] : List (Nat × Instr)),
    decodeTableWord 96 p.1 = some p.2 ∧ encode p.2 = some (BitVec.ofNat 96 p.1) := by decide +kernel

theorem decode_major_50 : ∀ p ∈ ([(0x50000F000000000000000051, .tshape { ctl := { la := 15 }, imm := 81 }),
    (0x500400070000004088000001, .tzero { ctl := { cnt := 2 }, d := 7, imm := 0x88000001 })] : List (Nat × Instr)),
    decodeTableWord 96 p.1 = some p.2 ∧ encode p.2 = some (BitVec.ofNat 96 p.1) := by decide +kernel

theorem decode_major_51 : ∀ p ∈ ([(0x510000030406002089000000, .tld { ctl := { cnt := 1 }, d := 3, a := 4, b := 6, imm := 0x89000000 }),
    (0x510400000406032000000000, .tst { ctl := { cnt := 1 }, a := 4, b := 6, c := 3 }),
    (0x510800030400002000000120, .tfeed { ctl := { cnt := 1 }, d := 3, a := 4, imm := 0x120 }),
    (0x510C00040200002000002820, .tdrain { ctl := { cnt := 1 }, d := 4, a := 2, imm := 0x2820 })] : List (Nat × Instr)),
    decodeTableWord 96 p.1 = some p.2 ∧ encode p.2 = some (BitVec.ofNat 96 p.1) := by decide +kernel

theorem decode_major_52 : ∀ p ∈ ([(0x52000F000001000000000000, .mma { ctl := { la := 15 }, b := 1 }),
    (0x520400010203005500200000, .acvt { ctl := { cnt := 2 }, ty := .e5m2, d := 1, a := 2, b := 3, imm := 0x200000 }),
    (0x520800010200004000002000, .menc { ctl := { cnt := 2 }, d := 1, a := 2, imm := 0x2000 })] : List (Nat × Instr)),
    decodeTableWord 96 p.1 = some p.2 ∧ encode p.2 = some (BitVec.ofNat 96 p.1) := by decide +kernel

theorem decode_major_53 : ∀ p ∈ ([(0x530001070000000000000500, .bobjArm { ctl := { la := 1 }, d := 7, imm := 0x500 }),
    (0x53000007000000C000000001, .bobjWait { ctl := { cnt := 6 }, d := 7, imm := 1 })] : List (Nat × Instr)),
    decodeTableWord 96 p.1 = some p.2 ∧ encode p.2 = some (BitVec.ofNat 96 p.1) := by decide +kernel

theorem decode_major_60 : ∀ p ∈ ([(0x600000100804032000000002, .rayq { ctl := { cnt := 1 }, d := 16, a := 8, b := 4, c := 3, imm := 2 }),
    (0x600400100804032000000004, .rayw { ctl := { cnt := 1 }, d := 16, a := 8, b := 4, c := 3, imm := 4 }),
    (0x600800100804002000000000, .rayh { ctl := { cnt := 1 }, d := 16, a := 8, b := 4 }),
    (0x600C00100805002000000000, .ptch { ctl := { cnt := 1 }, d := 16, a := 8, b := 5 })] : List (Nat × Instr)),
    decodeTableWord 96 p.1 = some p.2 ∧ encode p.2 = some (BitVec.ofNat 96 p.1) := by decide +kernel

theorem decode_major_61 : ∀ p ∈ ([(0x610000100804002000000000, .sndm { ctl := { cnt := 1 }, d := 16, a := 8, b := 4 }),
    (0x610400100804004000000000, .sndo { ctl := { cnt := 2 }, d := 16, a := 8, b := 4 }),
    (0x610800100804006000000000, .snde { ctl := { cnt := 3 }, d := 16, a := 8, b := 4 }),
    (0x610C00100804008000000000, .snda { ctl := { cnt := 4 }, d := 16, a := 8, b := 4 })] : List (Nat × Instr)),
    decodeTableWord 96 p.1 = some p.2 ∧ encode p.2 = some (BitVec.ofNat 96 p.1) := by decide +kernel

theorem decode_major_62 : ∀ p ∈ ([(0x620000090102031100000002, .draw { ty := .f32, d := 9, a := 1, b := 2, c := 3, opx := 2 })] : List (Nat × Instr)),
    decodeTableWord 96 p.1 = some p.2 ∧ encode p.2 = some (BitVec.ofNat 96 p.1) := by decide +kernel

theorem decode_major_63 : ∀ p ∈ ([(0x630000010204002000000183, .hgf { ctl := { cnt := 1 }, d := 1, a := 2, b := 4, imm := 0x183 })] : List (Nat × Instr)),
    decodeTableWord 96 p.1 = some p.2 ∧ encode p.2 = some (BitVec.ofNat 96 p.1) := by decide +kernel

theorem decode_major_70 : ∀ p ∈ ([(0x700000070800006B00000010, .ld { ctl := { cnt := 3 }, ty := .b32, d := 7, a := 8, off := 16 }),
    (0x700400000400000B67000008, .st { ty := .b32, a := 4, ord := 103, off := 8 })] : List (Nat × Instr)),
    decodeTableWord 96 p.1 = some p.2 ∧ encode p.2 = some (BitVec.ofNat 96 p.1) := by decide +kernel

theorem decode_major_71 : ∀ p ∈ ([(0x710000080300002D00FFFFF0, .lds { ctl := { cnt := 1 }, ty := .b128, d := 8, a := 3, off := 0xfffff0 }),
    (0x710403000309000A01000002, .sts { ctl := { la := 3 }, ty := .b16, a := 3, b := 9, ord := 1, off := 2 })] : List (Nat × Instr)),
    decodeTableWord 96 p.1 = some p.2 ∧ encode p.2 = some (BitVec.ofNat 96 p.1) := by decide +kernel

theorem decode_major_72 : ∀ p ∈ ([(0x720000080300022C00000008, .ldrm { ctl := { cnt := 1 }, ty := .b64, d := 8, a := 3, c := 2, off := 8 }),
    (0x720400000309033100000004, .strm { ctl := { cnt := 1 }, ty := .f32, a := 3, b := 9, c := 3, off := 4 })] : List (Nat × Instr)),
    decodeTableWord 96 p.1 = some p.2 ∧ encode p.2 = some (BitVec.ofNat 96 p.1) := by decide +kernel

theorem decode_major_73 : ∀ p ∈ ([(0x730000020406004766000000, .atom { ctl := { cnt := 2 }, ty := .n32, d := 2, a := 4, b := 6, ord := 102 }),
    (0x730400020506084C01700000, .atoms { ctl := { cnt := 2 }, ty := .b64, d := 2, a := 5, b := 6, c := 8, ord := 1, off := 0x700000 }),
    (0x730800000406005100A00000, .red { ctl := { cnt := 2 }, ty := .f32, a := 4, b := 6, off := 0xa00000 })] : List (Nat × Instr)),
    decodeTableWord 96 p.1 = some p.2 ∧ encode p.2 = some (BitVec.ofNat 96 p.1) := by decide +kernel

theorem decode_major_74 : ∀ p ∈ ([(0x740000000000000067000000, .fence { ord := 103 }),
    (0x740400020400002B66000004, .marm { ctl := { cnt := 1 }, ty := .b32, d := 2, a := 4, ord := 102, off := 4 }),
    (0x740800030000000000FFFFFF, .mwait { d := 3, off := 0xffffff }),
    (0x740C00020400002000000080, .pref { ctl := { cnt := 1 }, d := 2, a := 4, off := 128 })] : List (Nat × Instr)),
    decodeTableWord 96 p.1 = some p.2 ∧ encode p.2 = some (BitVec.ofNat 96 p.1) := by decide +kernel

theorem decode_major_75 : ∀ p ∈ ([(0x750000080406003100000000, .texs { ctl := { cnt := 1 }, ty := .f32, d := 8, a := 4, b := 6 }),
    (0x750400080406003100000005, .texf { ctl := { cnt := 1 }, ty := .f32, d := 8, a := 4, b := 6, off := 5 })] : List (Nat × Instr)),
    decodeTableWord 96 p.1 = some p.2 ∧ encode p.2 = some (BitVec.ofNat 96 p.1) := by decide +kernel

theorem decode_major_76 : ∀ p ∈ ([(0x76000000050000200000000D, .lnks { ctl := { cnt := 1 }, a := 5, imm := 13 }),
    (0x760400050000002000000012, .lnkr { ctl := { cnt := 1 }, d := 5, imm := 18 })] : List (Nat × Instr)),
    decodeTableWord 96 p.1 = some p.2 ∧ encode p.2 = some (BitVec.ofNat 96 p.1) := by decide +kernel

theorem decode_major_90 : ∀ p ∈ ([(0x900000140804002000000002, .cpy { ctl := { cnt := 1 }, d := 20, a := 8, b := 4, imm := 2 }),
    (0x900400140804003200000090, .cpyq { ctl := { cnt := 1 }, ty := .f16, d := 20, a := 8, b := 4, imm := 144 })] : List (Nat × Instr)),
    decodeTableWord 96 p.1 = some p.2 ∧ encode p.2 = some (BitVec.ofNat 96 p.1) := by decide +kernel

theorem decode_major_91 : ∀ p ∈ ([(0x910000020406004000000401, .cbld { ctl := { cnt := 2 }, d := 2, a := 4, b := 6, imm := 0x401 })] : List (Nat × Instr)),
    decodeTableWord 96 p.1 = some p.2 ∧ encode p.2 = some (BitVec.ofNat 96 p.1) := by decide +kernel

theorem decode_major_92 : ∀ p ∈ ([(0x920000020406006000000015, .gthr { ctl := { cnt := 3 }, d := 2, a := 4, b := 6, imm := 21 })] : List (Nat × Instr)),
    decodeTableWord 96 p.1 = some p.2 ∧ encode p.2 = some (BitVec.ofNat 96 p.1) := by decide +kernel

theorem decode_major_93 : ∀ p ∈ ([(0x930000020406002000000000, .job { ctl := { cnt := 1 }, d := 2, a := 4, b := 6 })] : List (Nat × Instr)),
    decodeTableWord 96 p.1 = some p.2 ∧ encode p.2 = some (BitVec.ofNat 96 p.1) := by decide +kernel

theorem decode_major_94 : ∀ p ∈ ([(0x940000030406002000000000, .stageHold { ctl := { cnt := 1 }, d := 3, a := 4, b := 6 }),
    (0x940000030406002000000001, .stageRel { ctl := { cnt := 1 }, d := 3, a := 4, b := 6, imm := 1 })] : List (Nat × Instr)),
    decodeTableWord 96 p.1 = some p.2 ∧ encode p.2 = some (BitVec.ofNat 96 p.1) := by decide +kernel

theorem decode_major_a0 : ∀ p ∈ ([(0xA0000000000000000000000F, .bar { imm := 15 }),
    (0xA00400000000000000000003, .gbar { imm := 3 }),
    (0xA00800000000000000000080, .waitc { imm := 128 }),
    (0xA00C00000000000000000401, .rdzv { imm := 0x401 }),
    (0xA01000000000000000FFFFFF, .sleep { imm := 0xffffff })] : List (Nat × Instr)),
    decodeTableWord 96 p.1 = some p.2 ∧ encode p.2 = some (BitVec.ofNat 96 p.1) := by decide +kernel

theorem decode_major_a1 : ∀ p ∈ ([(0xA10000030000000000000103, .fork { d := 3, imm := 0x103 }),
    (0xA10400030000000000000FFC, .lrec { d := 3, imm := 0xffc }),
    (0xA1080003000000000000000C, .permitQ { d := 3, imm := 12 }),
    (0xA10800030000004000002005, .permitRsv { ctl := { cnt := 2 }, d := 3, imm := 0x2005 }),
    (0xA10800030000000000000006, .permitRel { d := 3, imm := 6 })] : List (Nat × Instr)),
    decodeTableWord 96 p.1 = some p.2 ∧ encode p.2 = some (BitVec.ofNat 96 p.1) := by decide +kernel

theorem decode_major_a2 : ∀ p ∈ ([(0xA200000A0406002000000002, .qapp { ctl := { cnt := 1 }, d := 10, a := 4, b := 6, imm := 2 })] : List (Nat × Instr)),
    decodeTableWord 96 p.1 = some p.2 ∧ encode p.2 = some (BitVec.ofNat 96 p.1) := by decide +kernel

theorem decode_major_a3 : ∀ p ∈ ([(0xA3000003000000000000003F, .varpt { d := 3, imm := 63 })] : List (Nat × Instr)),
    decodeTableWord 96 p.1 = some p.2 ∧ encode p.2 = some (BitVec.ofNat 96 p.1) := by decide +kernel

theorem decode_major_b0 : ∀ p ∈ ([(0xB00000000400002B00000000, .fillc { ctl := { cnt := 1 }, ty := .b32, a := 4 }),
    (0xB00400000000000000000003, .fillx { imm := 3 })] : List (Nat × Instr)),
    decodeTableWord 96 p.1 = some p.2 ∧ encode p.2 = some (BitVec.ofNat 96 p.1) := by decide +kernel

theorem decode_major_b1 : ∀ p ∈ ([(0xB10000020406002000000000, .rkinv { ctl := { cnt := 1 }, d := 2, a := 4, b := 6 }),
    (0xB10400020406002000000008, .rkpinPin { ctl := { cnt := 1 }, d := 2, a := 4, b := 6, off := 8 }),
    (0xB10400020406012000000000, .rkpinUnpin { ctl := { cnt := 1 }, d := 2, a := 4, b := 6, c := 1 })] : List (Nat × Instr)),
    decodeTableWord 96 p.1 = some p.2 ∧ encode p.2 = some (BitVec.ofNat 96 p.1) := by decide +kernel

theorem decode_major_b8 : ∀ p ∈ ([(0xB80000020400002C67000008, .tstamp { ctl := { cnt := 1 }, ty := .b64, d := 2, a := 4, ord := 103, off := 8 }),
    (0xB80000020500042C00000000, .tstampWake { ctl := { cnt := 1 }, ty := .b64, d := 2, a := 5, c := 4 })] : List (Nat × Instr)),
    decodeTableWord 96 p.1 = some p.2 ∧ encode p.2 = some (BitVec.ofNat 96 p.1) := by decide +kernel

theorem decode_major_b9 : ∀ p ∈ ([(0xB90000000500000000000012, .trcm { a := 5, imm := 18 })] : List (Nat × Instr)),
    decodeTableWord 96 p.1 = some p.2 ∧ encode p.2 = some (BitVec.ofNat 96 p.1) := by decide +kernel

theorem decode_major_c0 : ∀ p ∈ ([(0xC00000040000000000000000, .srd { d := 4 }),
    (0xC00710000900000000000101, .swr { ctl := { guard := .neg 1 }, a := 9, imm := 0x101 })] : List (Nat × Instr)),
    decodeTableWord 96 p.1 = some p.2 ∧ encode p.2 = some (BitVec.ofNat 96 p.1) := by decide +kernel

theorem decode_major_c1 : ∀ p ∈ ([(0xC10210000000000000000021, .trap { ctl := { guard := .pos 1 }, imm := 33 }),
    (0xC1040000000000000000FFFF, .brk { imm := 0xffff }),
    (0xC10800000000000000000000, .eret {}),
    (0xC10800000000000000000001, .eretSkip { imm := 1 }),
    (0xC10800000000000000000002, .eretPc { imm := 2 })] : List (Nat × Instr)),
    decodeTableWord 96 p.1 = some p.2 ∧ encode p.2 = some (BitVec.ofNat 96 p.1) := by decide +kernel

theorem decode_major_c2 : ∀ p ∈ ([(0xC20000030400000000000000, .ctxsv { d := 3, a := 4 }),
    (0xC20400030005000000000000, .ctxld { d := 3, b := 5 })] : List (Nat × Instr)),
    decodeTableWord 96 p.1 = some p.2 ∧ encode p.2 = some (BitVec.ofNat 96 p.1) := by decide +kernel

theorem decode_major_c3 : ∀ p ∈ ([(0xC30000000406070000000000, .tlbiVa { a := 4, b := 6, c := 7 }),
    (0xC30000000000070000000001, .tlbiAsn { c := 7, imm := 1 }),
    (0xC30000000000000000000002, .tlbiAll { imm := 2 })] : List (Nat × Instr)),
    decodeTableWord 96 p.1 = some p.2 ∧ encode p.2 = some (BitVec.ofNat 96 p.1) := by decide +kernel

/-! ## Ill-formed terms, one for each check (R58-R68, R70, R135) -/

/-- R65-R68: LA or CNT on a fixed-latency instruction; CNT 7; LA and CNT together; a wait on an engine's object without its counter. -/
theorem reject_latency_fields : ([.iadd { ctl := { la := 1 }, ty := .s32 }, .iadd { ctl := { cnt := 1 }, ty := .s32 }, .ld { ctl := { cnt := 7 }, ty := .b32 },
    .ld { ctl := { la := 1, cnt := 1 }, ty := .b32 }, .imul { ctl := { la := 1 }, ty := .s32 }, .imul { ctl := { la := 1, cnt := 1 }, ty := .s64 },
    .bobjWait { imm := 1 }] : List Instr).all (fun i => !i.wf) = true := by decide +kernel

/-- R104, R106, R110, R332, R436: a guard on a path-level instruction. -/
theorem reject_guard : ([.join { ctl := { guard := .pos 0 } }, .joinClr { ctl := { guard := .neg 0 } }, .yield { ctl := { guard := .pos 1 } }, .regroup { ctl := { guard := .pos 1 }, imm := 1 },
    .bar { ctl := { guard := .pos 1 } }, .gbar { ctl := { guard := .pos 1 } }, .waitc { ctl := { guard := .pos 1 } }, .rdzv { ctl := { guard := .pos 1 } },
    .sleep { ctl := { guard := .pos 1 }, imm := 1 }, .varpt { ctl := { guard := .pos 1 } }, .eret { ctl := { guard := .pos 1 } }] : List Instr).all (fun i => !i.wf) = true := by decide +kernel

/-- R36, R60: an odd pair, a quad off its multiple of four, a predicate, tile, accumulator or object number out of range. -/
theorem reject_register_numbers : ([.iadd64 { ty := .s64, d := 1 }, .iadd64 { ty := .s64, a := 1 }, .iadd64 { ty := .s64, b := 1 }, .dfma { ty := .f64, c := 1 }, .call { d := 1 }, .ret { a := 1 }, .brx { a := 3 },
    .ld { ty := .b128, d := 2 }, .rayq { d := 2 }, .rayq { a := 2 }, .texs { ty := .f32, d := 2 }, .iset { ty := .s32, d := 16 }, .sel { ty := .b32, c := 16 }, .pset { a := 16 }, .vote { d := 16 },
    .tzero { d := 16 }, .tzero { d := 8, imm := 1 }, .mma { d := 8 }, .mma { a := 16 }, .bobjArm { d := 8, imm := 0x100 }, .ldrm { ty := .b32, c := 4 }, .pref { d := 3 }] : List Instr).all (fun i => !i.wf) = true := by decide +kernel

/-- R61, R83, R137-R160, R248, R262: a type the instruction does not have. -/
theorem reject_type : ([.iadd { ty := .f32 }, .iadd64 { ty := .s32 }, .shl { ty := .s32 }, .sar { ty := .b32 }, .mov { ty := .n32 }, .fadd { ty := .f16 }, .cvt { ty := .b32, opx := 3 }, .cvt { ty := .s32, opx := 11 },
    .cpack { ty := .f32 }, .wred { ty := .s32, opx := 3 }, .ld { ty := .e4m3 }, .ld { ty := .none }, .atom { ty := .b32 }, .atom { ty := .s32, off := 0x300000 }, .atom { ty := .b32, off := 0x800000 }, .tshape { ty := .f32 },
    .acvt { ty := .f32 }, .draw { ty := .s32 }, .tstamp { ty := .b32 }] : List Instr).all (fun i => !i.wf) = true := by decide +kernel

/-- R60, R62, R135: a rounding code, a rounding, a saturation, a flag or an OPX that the instruction does not have. -/
theorem reject_rounding_and_flags : ([.iadd { ty := .s32, rnd := .rz }, .imin { ty := .s32, sat := true }, .iadd { ty := .s32, fl := 1 }, .iadd { ty := .s32, opx := 1 }, .iaddc { ty := .n32, fl := 2 }, .iset { ty := .s32, fl := 6 },
    .faddImm { ty := .f32, bctl := 0xA0 }, .shlImm { ty := .b32, bctl := 0x10 }, .vote { opx := 5 }, .lop3 { ty := .b32, opx := 256 }, .wred { ty := .s32, opx := 6 }] : List Instr).all (fun i => !i.wf) = true := by decide +kernel

/-- R60, R135: a field the instruction does not use. -/
theorem reject_unused_fields : ([.iadd { ty := .s32, c := 1 }, .iabs { ty := .s32, b := 1 }, .movi { ty := .b32, a := 1 }, .exit { imm := 1 }, .joinClr { disp := 1 }, .bra { d := 1 }, .ld { ty := .b32, b := 1 }, .fence { off := 1 },
    .mwait { c := 1 }, .rayh { imm := 1 }, .ctxld { imm := 1 }] : List Instr).all (fun i => !i.wf) = true := by decide +kernel

/-- R63, R250: an ordering byte out of its range, or of an ordering the instruction does not take. -/
theorem reject_ordering : ([.ld { ty := .b32, ord := 0x04 }, .ld { ty := .b32, ord := 0x03 }, .ld { ty := .b32, ord := 0xA2 }, .ld { ty := .b32, ord := 0x16 }, .st { ty := .b32, ord := 0x02 }, .fence { ord := 0x01 },
    .red { ty := .n32, ord := 0x02 }, .tstamp { ty := .b64, ord := 0x01 }] : List Instr).all (fun i => !i.wf) = true := by decide +kernel

/-- R64, R110, R171-R185, R191, R221, R287-R295: a field out of the range its instruction gives it. -/
theorem reject_ranges : ([.bra { slot := 5 }, .join { slot := 7 }, .regroup { imm := 0 }, .regroup { imm := 257 }, .tshape { imm := 6 }, .tshape { imm := 0x09 }, .tshape { imm := 0x1049 }, .tshape { imm := 0x69 },
    .tzero { imm := 0x01000000 }, .tdrain { imm := 0x400 }, .tdrain { imm := 0x1001 }, .tfeed { imm := 1 }, .bobjArm { imm := 0 }, .bobjWait { ctl := { cnt := 1 }, imm := 0 }, .rayq { imm := 12 }, .hgf { imm := 0 }, .hgf { imm := 0x90 }, .hgf { imm := 0x8F },
    .lnks { imm := 64 }, .cpy { imm := 0x60 }, .cpy { imm := 0x80 }, .cpy { ty := .f32 }, .gthr { imm := 0 }, .cbld { imm := 0x800 }, .stageRel { imm := 0 }] : List Instr).all (fun i => !i.wf) = true := by decide +kernel

/-- R43, R46, R332-R345, R363, R371, R428, R436, R438, R470: the same of the waits and of the system instructions. -/
theorem reject_system_ranges : ([.bar { imm := 16 }, .waitc { imm := 0x180 }, .waitc { imm := 0x201 }, .rdzv { imm := 8 }, .rdzv { imm := 0x4000 }, .sleep { imm := 0 }, .sleep { imm := 0x1000000 }, .fork { imm := 5 }, .lrec { imm := 2 }, .lrec { imm := 4096 },
    .permitQ { imm := 1 }, .permitRsv { imm := 1 }, .permitRsv { imm := 0x2101 }, .permitRel { imm := 0x10 }, .qapp { imm := 16 }, .varpt { imm := 64 }, .fillx { imm := 255 }, .rkpinUnpin { c := 2 }, .tstampWake { ty := .b64 },
    .tstampWake { ty := .b64, c := 5 }, .trcm { imm := 65536 }, .srd { imm := 0x00F }, .srd { imm := 0x1001 }, .srd { d := 1, imm := 0x1010 }, .swr { imm := 0x2100 }, .trap { imm := 65536 }, .eret { imm := 1 }, .eretSkip { imm := 2 }, .eretPc { imm := 3 },
    .tlbiAsn { imm := 0 }, .tlbiAll { imm := 1 }] : List Instr).all (fun i => !i.wf) = true := by decide +kernel

/-- R58, R61, R62, R70: words that no instruction has: a reserved operation, guard bits without a guard, a reserved type and a reserved rounding. -/
theorem reject_words : ([1, 0xFF0000000000000000000000, 0x10FC00000000000000000000, 0x100080010203000700000000, 0x10000001020300FF00000000, 0x1000000102030067A0000000] : List Nat).all (fun w => (decodeTableWord 96 w).isNone) = true := by decide +kernel

/-! ## Results: one step, and what it has outstanding becomes visible -/

/-- A wave about to issue a word, with lanes of its registers and predicates and bytes of local memory set; every feature is accepted and
addresses below 2^36 translate to local memory, with every right. -/
def ready (w : Nat) (v : List (Nat × Word)) (p : List (Nat × BitVec 16)) (m : List Host.Cell) : State :=
  let s := (State.reset.withFetchWord 96 w).updAgent 0 fun x => { x with regs := { x.regs with v := v, p := p } }
  { s with loc := m, regs := { s.regs with feat := 0x1FFF }, tlb := [{ asn := 0, page := 0, leaf := { logSize := 36, r := true, w := true, x := true } }] }

/-- The same with the page of 0x300000 formatted in MX32-4 (R386). -/
def formatted (s : State) : State := { s with tlb := { asn := 0, page := 0x300, leaf := { fmt := 1, pfn := 0x300, r := true, w := true } } :: s.tlb }

/-- The state of a next outcome. -/
def nextOf (o : Host.Outcome State Fault Refusal) (s : State) : State := match o with | .next t => t | _ => s

/-- One step; then each outstanding result becomes visible. -/
def after (s : State) : State :=
  let t := nextOf (step s) s
  t.pend.foldl (fun u p => nextOf (exec (.resultVisible p.agent p.id) u) u) t

/-- R107: the lanes of L whose p1 is true. -/
theorem test_vote_lanes : let s := (after (ready 0x001000060100000000000003 [] [(0, 0x2), (2, 0x2), (3, 0x1)] []))
    s.vreg 0 6 0 = 0x5 ∧ s.vreg 0 6 31 = 0x5 := by decide +kernel

/-- R107. -/
theorem test_vote_count : let s := (after (ready 0x001000070100000000000004 [] [(0, 0x2), (2, 0x2), (3, 0x1)] []))
    s.vreg 0 7 9 = 0x2 := by decide +kernel

/-- R107: not all lanes have p1. -/
theorem test_vote_all_any : let s := (after (ready 0x001000020100000000000000 [] [(0, 0x2), (2, 0x2)] []))
    s.vpred 0 2 0 = false ∧ s.vpred 0 2 31 = false := by decide +kernel

/-- R108: 32 lanes, entry 0 in use, none waits, SELF 0. -/
theorem test_pathq : let s := (after (ready 0x001C00090000000000000000 [] [] []))
    s.vreg 0 9 0 = 0x20000100 := by decide +kernel

/-- R59, R108: only the lanes whose guard holds are written. -/
theorem test_xmrd_guarded : let s := (after (ready 0x001630090000000000000000 [] [(1, 0x8)] []))
    s.vreg 0 9 1 = 0xFFFFFFFF ∧ s.vreg 0 9 0 = 0x0 := by decide +kernel

/-- R112, R137: 0x7FFFFFFF + 1 clamps under .s32.sat and sets saturated. -/
theorem test_iadd_saturates : let s := (after (ready 0x100000010203000310000000 [(64, 0x7FFFFFFF), (96, 0x1)] [] []))
    s.vreg 0 1 0 = 0x7FFFFFFF ∧ (s.regsOf 0).map (·.arith) = some 0x20 := by decide +kernel

/-- R137: without .sat the sum wraps and sets no flag; the destination is also a source. -/
theorem test_iadd_wraps : let s := (after (ready 0x100000020203000300000000 [(64, 0xFFFFFFFF), (96, 0x2)] [] []))
    s.vreg 0 2 0 = 0x1 ∧ (s.regsOf 0).map (·.arith) = some 0x0 := by decide +kernel

/-- R112: 3 - 5 under .n32.sat is 0. -/
theorem test_isub_unsigned_saturates : let s := (after (ready 0x100800010203000710000000 [(64, 0x3), (96, 0x5)] [] []))
    s.vreg 0 1 0 = 0x0 ∧ (s.regsOf 0).map (·.arith) = some 0x20 := by decide +kernel

/-- R135, R137: the immediate is read under the type. -/
theorem test_iaddImm_widens : let s := (after (ready 0x1004000102000003FFFFFFFF [(64, 0x5)] [] []))
    s.vreg 0 1 0 = 0x4 := by decide +kernel

/-- R138: the spec's example, first half: 0xFFFFFFFF + 2 gives 1 with p3 set. -/
theorem test_iaddc_carry_out : let s := (after (ready 0x1010000A0204030700000000 [(64, 0xFFFFFFFF), (128, 0x2)] [] []))
    s.vreg 0 10 0 = 0x1 ∧ s.vpred 0 3 0 = true := by decide +kernel

/-- R138: the spec's example, second half: 1 + 0 + carry gives 2 with p3 clear. -/
theorem test_iaddc_carry_in : let s := (after (ready 0x1010000B0305030700000000 [(96, 0x1)] [(0, 0x8)] []))
    s.vreg 0 11 0 = 0x2 ∧ s.vpred 0 3 0 = false := by decide +kernel

/-- R138: 0 - 1 - 1 borrows. -/
theorem test_iaddc_borrow : let s := (after (ready 0x101400010201030700000001 [] [(0, 0x8)] []))
    s.vreg 0 1 0 = 0xFFFFFFFE ∧ s.vpred 0 3 0 = true := by decide +kernel

/-- R137: iabs.s32 of the least value returns it. -/
theorem test_iabs_of_least : let s := (after (ready 0x102800010200000300000000 [(64, 0x80000000)] [] []))
    s.vreg 0 1 0 = 0x80000000 ∧ (s.regsOf 0).map (·.arith) = some 0x0 := by decide +kernel

/-- R137: -1 is below 1 under .s32. -/
theorem test_imin_signed : let s := (after (ready 0x101800010203000300000000 [(64, 0xFFFFFFFF), (96, 0x1)] [] []))
    s.vreg 0 1 0 = 0xFFFFFFFF := by decide +kernel

/-- R137: 0xFFFFFFFF is above 1 under .n32. -/
theorem test_imax_unsigned : let s := (after (ready 0x102400010200000700000001 [(64, 0xFFFFFFFF)] [] []))
    s.vreg 0 1 0 = 0xFFFFFFFF := by decide +kernel

/-- R137. -/
theorem test_imul_low : let s := (after (ready 0x110000010203000300000000 [(64, 0xFFFFFFFF), (96, 0x7)] [] []))
    s.vreg 0 1 0 = 0xFFFFFFF9 := by decide +kernel

/-- R137: the high half of (2^32 - 1)^2. -/
theorem test_imulh_unsigned : let s := (after (ready 0x110800010203000700000000 [(64, 0xFFFFFFFF), (96, 0xFFFFFFFF)] [] []))
    s.vreg 0 1 0 = 0xFFFFFFFE := by decide +kernel

/-- R36, R137: a pair holds its low half at the even number. -/
theorem test_iadd64_carries : let s := (after (ready 0x104000020406000800000000 [(128, 0xFFFFFFFF), (160, 0x1), (192, 0x1)] [] []))
    s.vreg 0 2 0 = 0x0 ∧ s.vreg 0 3 0 = 0x2 := by decide +kernel

/-- R137: -1 × 1 + 0 as a 64-bit value. -/
theorem test_imadw_signed : let s := (after (ready 0x111800020405060300000000 [(128, 0xFFFFFFFF), (160, 0x1)] [] []))
    s.vreg 0 2 0 = 0xFFFFFFFF ∧ s.vreg 0 3 0 = 0xFFFFFFFF := by decide +kernel

/-- R137: |1-4| + |2-3| + |3-2| + |4-1| + 10. -/
theorem test_sad_bytes : let s := (after (ready 0x103000010203040500000000 [(64, 0x1020304), (96, 0x4030201), (128, 0xA)] [] []))
    s.vreg 0 1 0 = 0x12 := by decide +kernel

/-- R137: base + (-1) × 4. -/
theorem test_lea_scales : let s := (after (ready 0x103800020406000302000000 [(160, 0x1), (192, 0xFFFFFFFF)] [] []))
    s.vreg 0 2 0 = 0xFFFFFFFC ∧ s.vreg 0 3 0 = 0x0 := by decide +kernel

/-- R139: a count at or above the width gives 0. -/
theorem test_shl_by_width : let s := (after (ready 0x120000010203000B00000000 [(64, 0xFFFFFFFF), (96, 0x20)] [] []))
    s.vreg 0 1 0 = 0x0 := by decide +kernel

/-- R139: a 64-bit shift reads one register of count. -/
theorem test_shr_pair : let s := (after (ready 0x120800020406000C00000000 [(160, 0x80000000), (192, 0x3F)] [] []))
    s.vreg 0 2 0 = 0x1 ∧ s.vreg 0 3 0 = 0x0 := by decide +kernel

/-- R139: SAR spreads the sign for any larger count. -/
theorem test_sar_past_width : let s := (after (ready 0x121000010203000300000000 [(64, 0x80000000), (96, 0x28)] [] []))
    s.vreg 0 1 0 = 0xFFFFFFFF := by decide +kernel

/-- R139: the count is taken modulo 32. -/
theorem test_rot_count_modulo : let s := (after (ready 0x121800010203000B00000000 [(64, 0x80000001), (96, 0x24)] [] []))
    s.vreg 0 1 0 = 0x18 := by decide +kernel

/-- R140: the table 0xE8 takes the bitwise majority. -/
theorem test_lop3_majority : let s := (after (ready 0x123800030405060B000000E8 [(128, 0xC), (160, 0xA), (192, 0x6)] [] []))
    s.vreg 0 3 0 = 0xE := by decide +kernel

/-- R140: in VI form the table fills the control byte; 0x0A is A AND NOT C. -/
theorem test_lop3_imm_table : let s := (after (ready 0x123C0003040A060B00000000 [(128, 0xC), (192, 0x6)] [] []))
    s.vreg 0 3 0 = 0x8 := by decide +kernel

/-- R141: a count over 64 bits goes to one register. -/
theorem test_popc_pair : let s := (after (ready 0x130000010200000C00000000 [(64, 0xF), (96, 0x3)] [] []))
    s.vreg 0 1 0 = 0x6 := by decide +kernel

/-- R141: W for zero. -/
theorem test_clz_zero : let s := (after (ready 0x130800010200000B00000000 [] [] []))
    s.vreg 0 1 0 = 0x20 := by decide +kernel

/-- R141. -/
theorem test_ctz_high : let s := (after (ready 0x131000010200000C00000000 [(96, 0x1)] [] []))
    s.vreg 0 1 0 = 0x20 := by decide +kernel

/-- R141. -/
theorem test_brev : let s := (after (ready 0x131800010200000B00000000 [(64, 0xD0000001)] [] []))
    s.vreg 0 1 0 = 0x8000000B := by decide +kernel

/-- R142: the field's top bit is spread. -/
theorem test_bfx_signed : let s := (after (ready 0x132000010203000300000000 [(64, 0xF0), (96, 0x404)] [] []))
    s.vreg 0 1 0 = 0xFFFFFFFF := by decide +kernel

/-- R142: four bits of A at position 8 of C. -/
theorem test_bfi : let s := (after (ready 0x132800010203040B00000000 [(64, 0xFF), (96, 0x408)] [] []))
    s.vreg 0 1 0 = 0xF00 := by decide +kernel

/-- R143: row 1 of the spec's table of selectors, on A = 0xAABBCCDD and C = 0x11223344. -/
theorem test_prmt_row_0 : let s := (after (ready 0x133400010200030B08080801 [(64, 0xAABBCCDD), (96, 0x11223344)] [] []))
    s.vreg 0 1 0 = 0xCC := by decide +kernel

/-- R143: row 2 of the spec's table of selectors, on A = 0xAABBCCDD and C = 0x11223344. -/
theorem test_prmt_row_1 : let s := (after (ready 0x133400010200030B11111101 [(64, 0xAABBCCDD), (96, 0x11223344)] [] []))
    s.vreg 0 1 0 = 0xFFFFFFCC := by decide +kernel

/-- R143: row 3 of the spec's table of selectors, on A = 0xAABBCCDD and C = 0x11223344. -/
theorem test_prmt_row_2 : let s := (after (ready 0x133400010200030B00010203 [(64, 0xAABBCCDD), (96, 0x11223344)] [] []))
    s.vreg 0 1 0 = 0xDDCCBBAA := by decide +kernel

/-- R143: row 4 of the spec's table of selectors, on A = 0xAABBCCDD and C = 0x11223344. -/
theorem test_prmt_row_3 : let s := (after (ready 0x133400010200030B05040100 [(64, 0xAABBCCDD), (96, 0x11223344)] [] []))
    s.vreg 0 1 0 = 0x3344CCDD := by decide +kernel

/-- R144: lanes take A where p2 is true, else B. -/
theorem test_sel : let s := (after (ready 0x140000010203020B00000000 [(64, 0x7), (65, 0x7), (96, 0x9), (97, 0x9)] [(0, 0x4)] []))
    s.vreg 0 1 0 = 0x7 ∧ s.vreg 0 1 1 = 0x9 := by decide +kernel

/-- R135, R144: a .s64 immediate is sign-extended. -/
theorem test_movi_wide : let s := (after (ready 0x1504000200000004FFFFFFFE [] [] []))
    s.vreg 0 2 0 = 0xFFFFFFFE ∧ s.vreg 0 3 0 = 0xFFFFFFFF := by decide +kernel

/-- R145: 0xFFFFFFFF is below 0 under .s32. -/
theorem test_iset_signed : let s := (after (ready 0x140800010203000302000000 [(64, 0xFFFFFFFF)] [] []))
    s.vpred 0 1 0 = true := by decide +kernel

/-- R145: and is not under .n32. -/
theorem test_iset_unsigned : let s := (after (ready 0x140800010203000702000000 [(64, 0xFFFFFFFF)] [] []))
    s.vpred 0 1 0 = false := by decide +kernel

/-- R145: bit p0 + 2 p1 + 4 p2 of the table. -/
theorem test_pset_table : let s := (after (ready 0x141000040001020000000020 [] [(0, 0x5), (1, 0x1)] []))
    s.vpred 0 4 0 = true ∧ s.vpred 0 4 1 = false := by decide +kernel

/-- R146: .sh by -1 within segments of four; the first lane of each keeps its own. -/
theorem test_shfl_shift : let s := (after (ready 0x150C0001020D000BFFFFFFFF [(64, 0xA), (65, 0xB), (66, 0xC), (67, 0xD), (68, 0xE), (69, 0xF), (70, 0x10), (71, 0x11), (72, 0x12)] [] []))
    s.vreg 0 1 0 = 0xA ∧ s.vreg 0 1 1 = 0xA ∧ s.vreg 0 1 4 = 0xE ∧ s.vreg 0 1 8 = 0x12 ∧ s.vreg 0 1 7 = 0x10 := by decide +kernel

/-- R146: exchange of neighbours. -/
theorem test_shfl_xor : let s := (after (ready 0x150C00010203000B00000001 [(64, 0xA), (65, 0xB), (66, 0xC), (67, 0xD)] [] []))
    s.vreg 0 1 0 = 0xB ∧ s.vreg 0 1 1 = 0xA ∧ s.vreg 0 1 3 = 0xC := by decide +kernel

/-- R147: the sum of the lane values 0 to 31. -/
theorem test_wred_add : let s := (after (ready 0x151000010200000300000000 [(65, 0x1), (66, 0x2), (67, 0x3), (68, 0x4), (69, 0x5), (70, 0x6), (71, 0x7), (72, 0x8), (73, 0x9), (74, 0xA), (75, 0xB), (76, 0xC), (77, 0xD), (78, 0xE), (79, 0xF), (80, 0x10), (81, 0x11), (82, 0x12), (83, 0x13), (84, 0x14), (85, 0x15), (86, 0x16), (87, 0x17), (88, 0x18), (89, 0x19), (90, 0x1A), (91, 0x1B), (92, 0x1C), (93, 0x1D), (94, 0x1E), (95, 0x1F)] [] []))
    s.vreg 0 1 0 = 0x1F0 ∧ s.vreg 0 1 31 = 0x1F0 := by decide +kernel

/-- R149: the spec's example: the product is not rounded before the addition. -/
theorem test_ffma_once : let s := (after (ready 0x301000010203041120000000 [(64, 0x3F800800), (96, 0x3F800800), (128, 0xBF800000)] [] []))
    s.vreg 0 1 0 = 0x3A000400 ∧ (s.regsOf 0).map (·.arith) = some 0x0 := by decide +kernel

/-- R149: the spec's example: a tie rounds to even, inexact. -/
theorem test_fmul_ties_to_even : let s := (after (ready 0x300800010203001120000000 [(64, 0x3F800800), (96, 0x3F800800)] [] []))
    s.vreg 0 1 0 = 0x3F801000 ∧ (s.regsOf 0).map (·.arith) = some 0x10 := by decide +kernel

/-- R149: the same product under .ru. -/
theorem test_fmul_up : let s := (after (ready 0x300800010203001160000000 [(64, 0x3F800800), (96, 0x3F800800)] [] []))
    s.vreg 0 1 0 = 0x3F801001 ∧ (s.regsOf 0).map (·.arith) = some 0x10 := by decide +kernel

/-- R148: infinity minus infinity is the canonical NaN and sets invalid. -/
theorem test_fadd_invalid : let s := (after (ready 0x300000010203001100000000 [(64, 0x7F800000), (96, 0xFF800000)] [] []))
    s.vreg 0 1 0 = 0x7FC00000 ∧ (s.regsOf 0).map (·.arith) = some 0x1 := by decide +kernel

/-- R150: -0 is below +0. -/
theorem test_fmin_zeros : let s := (after (ready 0x301800010203001100000000 [(96, 0x80000000)] [] []))
    s.vreg 0 1 0 = 0x80000000 := by decide +kernel

/-- R150: the operand that is no NaN. -/
theorem test_fmax_nan : let s := (after (ready 0x302000010203001100000000 [(64, 0x7FC00000), (96, 0x40000000)] [] []))
    s.vreg 0 1 0 = 0x40000000 ∧ (s.regsOf 0).map (·.arith) = some 0x0 := by decide +kernel

/-- R151: .ltu is true with a NaN. -/
theorem test_fset_unordered : let s := (after (ready 0x30280001020300110A000000 [(64, 0x7FC00000)] [] []))
    s.vpred 0 1 0 = true ∧ (s.regsOf 0).map (·.arith) = some 0x0 := by decide +kernel

/-- R152. -/
theorem test_fclass_subnormal : let s := (after (ready 0x303000010200001100000000 [(64, 0x80000001)] [] []))
    s.vreg 0 1 0 = 0x4 := by decide +kernel

/-- R153: frnd.rn of -0.3 gives -0. -/
theorem test_frnd_keeps_sign : let s := (after (ready 0x303800010200001120000000 [(64, 0xBE99999A)] [] []))
    s.vreg 0 1 0 = 0x80000000 ∧ (s.regsOf 0).map (·.arith) = some 0x10 := by decide +kernel

/-- R154: divide by zero. -/
theorem test_frcp_zero : let s := (after (ready 0x310000010200001100000000 [(64, 0x80000000)] [] []))
    s.vreg 0 1 0 = 0xFF800000 ∧ (s.regsOf 0).map (·.arith) = some 0x2 := by decide +kernel

/-- R154. -/
theorem test_fsqrt_four : let s := (after (ready 0x311000010200001100000000 [(64, 0x40800000)] [] []))
    s.vreg 0 1 0 = 0x40000000 ∧ (s.regsOf 0).map (·.arith) = some 0x0 := by decide +kernel

/-- R154: FEX2 of 128 overflows to infinity under .rn. -/
theorem test_fex2_overflows : let s := (after (ready 0x311800010200001120000000 [(64, 0x43000000)] [] []))
    s.vreg 0 1 0 = 0x7F800000 ∧ (s.regsOf 0).map (·.arith) = some 0x14 := by decide +kernel

/-- R155: hmul2.bh multiplies both halves by the high half of B: (2, 3) × 2. -/
theorem test_hmul2_high_half : let s := (after (ready 0x320800030102001202000000 [(32, 0x42004000), (64, 0x4000FFFF)] [] []))
    s.vreg 0 3 0 = 0x46004400 := by decide +kernel

/-- R156: 1 × 1 + 2 × 1 + 0 + 0 + 0.5 on .e4m3 bytes. -/
theorem test_fdot4 : let s := (after (ready 0x322800010203041400000000 [(64, 0x4038), (96, 0x3838), (128, 0x3F000000)] [] []))
    s.vreg 0 1 0 = 0x40600000 := by decide +kernel

/-- R157: 1.0 + 2^-52. -/
theorem test_dadd : let s := (after (ready 0x330000020406001000000000 [(160, 0x3FF00000), (224, 0x3CB00000)] [] []))
    s.vreg 0 2 0 = 0x1 ∧ s.vreg 0 3 0 = 0x3FF00000 := by decide +kernel

/-- R158: the spec's example: 500 to .e4m3 is 448, with overflow, inexact and saturated. -/
theorem test_cvt_clamps : let s := (after (ready 0x340000020100001420000011 [(32, 0x43FA0000)] [] []))
    s.vreg 0 2 0 = 0x7E ∧ (s.regsOf 0).map (·.arith) = some 0x34 := by decide +kernel

/-- R158: cvt.rz.s32.f32 of -3.7. -/
theorem test_cvt_to_int_truncates : let s := (after (ready 0x340000020100000340000011 [(32, 0xC06CCCCD)] [] []))
    s.vreg 0 2 0 = 0xFFFFFFFD ∧ (s.regsOf 0).map (·.arith) = some 0x10 := by decide +kernel

/-- R119, R158: cvt.rn.s32.f32 of 3.0e9. -/
theorem test_cvt_to_int_clamps : let s := (after (ready 0x340000020100000320000011 [(32, 0x4F32D05E)] [] []))
    s.vreg 0 2 0 = 0x7FFFFFFF ∧ (s.regsOf 0).map (·.arith) = some 0x31 := by decide +kernel

/-- R160: the spec's example. -/
theorem test_cpack : let s := (after (ready 0x340800050102001820000001 [(32, 0x3FC00000), (64, 0xC0C00000)] [] []))
    s.vreg 0 5 0 = 0xF300 := by decide +kernel

/-- R160: the spec's example. -/
theorem test_cunpk : let s := (after (ready 0x341000060500001800000003 [(160, 0xF300)] [] []))
    s.vreg 0 6 0 = 0xC0C00000 ∧ (s.regsOf 0).map (·.arith) = some 0x0 := by decide +kernel

/-- R43, R46: LANE differs by lane. -/
theorem test_srd_lane : let s := (after (ready 0xC00000040000000000000000 [] [] []))
    s.vreg 0 4 0 = 0x0 ∧ s.vreg 0 4 31 = 0x1F := by decide +kernel

/-- R43, R46, R47: TRAPEN has five bits, from the lowest lane of L. -/
theorem test_swr_drops_bits : let s := (after (ready 0xC00400000900000000000101 [(288, 0xFFFFFFFF)] [] []))
    (s.regsOf 0).map (·.trapen) = some 0x1F := by decide +kernel

/-- R2, R241, R249: st.b32 [v4+8], v0 at 0x1000. -/
theorem test_st_little_endian : let s := (after (ready 0x700400000400000B00000008 [(0, 0x11223344), (128, 0x1000), (129, 0x1010), (130, 0x1020), (131, 0x1030), (132, 0x1040), (133, 0x1050), (134, 0x1060), (135, 0x1070), (136, 0x1080), (137, 0x1090), (138, 0x10A0), (139, 0x10B0), (140, 0x10C0), (141, 0x10D0), (142, 0x10E0), (143, 0x10F0), (144, 0x1100), (145, 0x1110), (146, 0x1120), (147, 0x1130), (148, 0x1140), (149, 0x1150), (150, 0x1160), (151, 0x1170), (152, 0x1180), (153, 0x1190), (154, 0x11A0), (155, 0x11B0), (156, 0x11C0), (157, 0x11D0), (158, 0x11E0), (159, 0x11F0)] [] []))
    s.byteAt .loc 0x1008 = 0x44 ∧ s.byteAt .loc 0x100B = 0x11 ∧ s.byteAt .loc 0x100C = 0x00 := by decide +kernel

/-- R253: where lanes overlap, the highest lane's bytes stand. -/
theorem test_st_last_lane_wins : let s := (after (ready 0x700400000400000900000000 [(1, 0x1), (2, 0x2), (3, 0x3), (4, 0x4), (5, 0x5), (6, 0x6), (7, 0x7), (8, 0x8), (9, 0x9), (10, 0xA), (11, 0xB), (12, 0xC), (13, 0xD), (14, 0xE), (15, 0xF), (16, 0x10), (17, 0x11), (18, 0x12), (19, 0x13), (20, 0x14), (21, 0x15), (22, 0x16), (23, 0x17), (24, 0x18), (25, 0x19), (26, 0x1A), (27, 0x1B), (28, 0x1C), (29, 0x1D), (30, 0x1E), (31, 0x1F), (128, 0x1000), (129, 0x1000), (130, 0x1000), (131, 0x1000), (132, 0x1000), (133, 0x1000), (134, 0x1000), (135, 0x1000), (136, 0x1000), (137, 0x1000), (138, 0x1000), (139, 0x1000), (140, 0x1000), (141, 0x1000), (142, 0x1000), (143, 0x1000), (144, 0x1000), (145, 0x1000), (146, 0x1000), (147, 0x1000), (148, 0x1000), (149, 0x1000), (150, 0x1000), (151, 0x1000), (152, 0x1000), (153, 0x1000), (154, 0x1000), (155, 0x1000), (156, 0x1000), (157, 0x1000), (158, 0x1000), (159, 0x1000)] [] []))
    s.byteAt .loc 0x1000 = 0x1F := by decide +kernel

/-- R112, R248: a .s8 load is sign-extended. -/
theorem test_ld_sign : let s := (after (ready 0x700210020400060100000000 [(128, 0x1000)] [(0, 0x2)] [(0x1000, 0x80)]))
    s.vreg 0 2 0 = 0xFFFFFF80 ∧ s.vreg 0 2 1 = 0x0 := by decide +kernel

/-- R261-R263: each lane adds 1 in turn; lane 31 reads 36. -/
theorem test_atom_add_returns_old : let s := (after (ready 0x730000020406000700000000 [(128, 0x1000), (129, 0x1000), (130, 0x1000), (131, 0x1000), (132, 0x1000), (133, 0x1000), (134, 0x1000), (135, 0x1000), (136, 0x1000), (137, 0x1000), (138, 0x1000), (139, 0x1000), (140, 0x1000), (141, 0x1000), (142, 0x1000), (143, 0x1000), (144, 0x1000), (145, 0x1000), (146, 0x1000), (147, 0x1000), (148, 0x1000), (149, 0x1000), (150, 0x1000), (151, 0x1000), (152, 0x1000), (153, 0x1000), (154, 0x1000), (155, 0x1000), (156, 0x1000), (157, 0x1000), (158, 0x1000), (159, 0x1000), (192, 0x1), (193, 0x1), (194, 0x1), (195, 0x1), (196, 0x1), (197, 0x1), (198, 0x1), (199, 0x1), (200, 0x1), (201, 0x1), (202, 0x1), (203, 0x1), (204, 0x1), (205, 0x1), (206, 0x1), (207, 0x1), (208, 0x1), (209, 0x1), (210, 0x1), (211, 0x1), (212, 0x1), (213, 0x1), (214, 0x1), (215, 0x1), (216, 0x1), (217, 0x1), (218, 0x1), (219, 0x1), (220, 0x1), (221, 0x1), (222, 0x1), (223, 0x1)] [] [(0x1000, 0x05)]))
    s.vreg 0 2 0 = 0x5 ∧ s.vreg 0 2 31 = 0x24 ∧ s.byteAt .loc 0x1000 = 0x25 := by decide +kernel

/-- R262: the value is exchanged where it equals B. -/
theorem test_atom_cas : let s := (after (ready 0x730210020406080B00700000 [(128, 0x1000), (192, 0x5), (256, 0x9)] [(0, 0x2)] [(0x1000, 0x05)]))
    s.vreg 0 2 0 = 0x5 ∧ s.byteAt .loc 0x1000 = 0x09 := by decide +kernel

/-- R251: a word at an odd address faults whole with MISALIGNED. -/
theorem test_ld_misaligned : let s := (after (ready 0x700000020400060B00000000 [(128, 0x1001), (129, 0x1001), (130, 0x1001), (131, 0x1001), (132, 0x1001), (133, 0x1001), (134, 0x1001), (135, 0x1001), (136, 0x1001), (137, 0x1001), (138, 0x1001), (139, 0x1001), (140, 0x1001), (141, 0x1001), (142, 0x1001), (143, 0x1001), (144, 0x1001), (145, 0x1001), (146, 0x1001), (147, 0x1001), (148, 0x1001), (149, 0x1001), (150, 0x1001), (151, 0x1001), (152, 0x1001), (153, 0x1001), (154, 0x1001), (155, 0x1001), (156, 0x1001), (157, 0x1001), (158, 0x1001), (159, 0x1001)] [] []))
    s.vreg 0 2 0 = 0x0 ∧ s.agents.all fun x => x.regs.v.all fun w => w.1 < 160 := by decide +kernel

/-- R126, R254: the spec's block 32 7F F3 on a page of format 1: element 0 is 1.5. -/
theorem test_ld_decodes_first : let s := (after (formatted (ready 0x700210020400061100000000 [(128, 0x300000)] [(0, 0x2)] [(0x300000, 0x32), (0x300001, 0x7F), (0x300002, 0xF3)])))
    s.vreg 0 2 0 = 0x3FC00000 ∧ (s.regsOf 0).map (·.arith) = some 0x0 ∧ (s.regsOf 0).map (·.mem) = some 0x0 := by decide +kernel

/-- R126, R254: element 1 is -6. -/
theorem test_ld_decodes_second : let s := (after (formatted (ready 0x700210020400061100000000 [(128, 0x300000), (192, 0x1)] [(0, 0x2)] [(0x300000, 0x32), (0x300001, 0x7F), (0x300002, 0xF3)])))
    s.vreg 0 2 0 = 0xC0C00000 := by decide +kernel

/-- R126: with 33 in byte 0 the check fails: NaN, and MEMSTAT bits 0 and 1 are set. -/
theorem test_ld_bad_block : let s := (after (formatted (ready 0x700210020400061100000000 [(128, 0x300000), (192, 0x2)] [(0, 0x2)] [(0x300000, 0x33), (0x300001, 0x7F), (0x300002, 0xF3)])))
    s.vreg 0 2 0 = 0x7FC00000 ∧ (s.regsOf 0).map (·.mem) = some 0x3 := by decide +kernel

/-- R254: a raw load of the same page. -/
theorem test_ld_raw_of_formatted : let s := (after (formatted (ready 0x700210020400060B00000000 [(128, 0x300000)] [(0, 0x2)] [(0x300000, 0x32), (0x300001, 0x7F), (0x300002, 0xF3)])))
    s.vreg 0 2 0 = 0xF37F32 := by decide +kernel

/-- R131: the spec's residue sum of 3 × 7 and -12 × 100. -/
theorem test_residue_sum : channelSum 255 [(3, 7), (-12, 100)] = 96 ∧ channelSum 254 [(3, 7), (-12, 100)] = 91 ∧ channelSum 253 [(3, 7), (-12, 100)] = 86
    ∧ residueSum [(3, 7), (-12, 100)] = -1179 := by decide +kernel

/-- R2: a word of memory, lowest byte first. -/
theorem test_byte_order : leBytes 4 0x11223344 = [0x44, 0x33, 0x22, 0x11] ∧ leNat [0x44, 0x33, 0x22, 0x11] = 0x11223344 := by decide +kernel

/-! ## States that meet the hypotheses of the statements, clause by clause -/

/-- The state in which `exec` receives the word that issues next. -/
def atSlot (s : State) : State :=
  match s.agenda with
  | .issue n p :: rest => match beginIssue (markIssued { s with agenda := rest } n) n p with
    | .slot _ _ t => t
    | _ => s
  | _ => s

/-- A wave in a slot of its own, with lanes of its registers and predicates and bytes of local memory set. -/
def wave (v : List (Nat × Word)) (p : List (Nat × BitVec 16)) (m : List Host.Cell) : State := atSlot (ready 0 v p m)

/-- A wave whose agent is changed. -/
def waveBut (f : Agent → Agent) (v : List (Nat × Word)) : State := (wave v [] []).updAgent 0 f

/-- Whether an outcome is a next state. -/
def goesOn (o : Host.Outcome State Fault Refusal) : Bool := match o with | .next _ => true | _ => false

/-- The fault that lanes' addresses meet. -/
def faultOf : Lanes → Option (Nat × Nat)
  | .fault c a => some (c, a)
  | _ => none

/-- Whether an instruction with these fields and needs issues with a property. -/
def issuesB (s : State) (g : Ctl) (nd : Need) (P : Iss → Bool) : Bool :=
  match issOf s g.guard with
  | some (k, x) => (refusal s x nd == none) && (g.cnt == 0 || decide (x.d.getD (g.cnt.toNat - 1) 0 < 63)) && P k
  | none => false

theorem issues_of {s : State} {g : Ctl} {nd : Need} {P : Iss → Bool} (h : issuesB s g nd P = true) : ∃ k, Issues s g nd k ∧ P k = true := by
  unfold issuesB at h
  split at h
  · rename_i k x hx
    simp only [Bool.and_eq_true, beq_iff_eq, Bool.or_eq_true, decide_eq_true_eq] at h
    exact ⟨k, ⟨x, hx, h.1.1, h.1.2⟩, h.2⟩
  · cases h

/-- Every guard, window and counter, and every need whose registers lie below NREGS with no mode or unit of its own: the wave issues it. So the statements that
ask for nothing more speak of this state whatever the operands. -/
theorem witness_issues (g : Ctl) (nd : Need) (hr : nd.regs.all (fun r => r.1 + r.2 ≤ 256) = true) (hf : ∀ f, nd.feature = some f → f < 13) (hs : nd.sup = false) (hl : nd.fill = false) :
    ∃ k, Issues (wave [] [] []) g nd k := by
  have hx : ∀ g : Guard, ∃ k x, issOf (wave [] [] []) g = some (k, x) ∧ x.nregs = 256 ∧ x.pilot = false ∧ x.d = [0, 0, 0, 0, 0, 0] := by
    intro g
    have h0 : ((issOf (wave [] [] []) .always).map fun p => (p.2.nregs, p.2.pilot, p.2.d)) = some (256, false, [0, 0, 0, 0, 0, 0]) := by decide +kernel
    unfold issOf at h0 ⊢
    split at h0
    · cases h0
    · split at h0
      · simp only [Option.map_some, Option.some.injEq, Prod.mk.injEq] at h0
        exact ⟨_, _, rfl, h0.1, h0.2.1, h0.2.2⟩
      · cases h0
  obtain ⟨k, x, hk, hn, hp, hd⟩ := hx g.guard
  refine ⟨k, x, hk, ?_, ?_⟩
  · have h1 : (nd.regs.any fun (r, c) => r + c > x.nregs) = false := by
      rw [List.any_eq_false]; intro r hm
      have := List.all_eq_true.1 hr r hm
      simp only [hn, gt_iff_lt, decide_eq_true_eq] at this ⊢; omega
    have h2 : ((nd.feature.map fun k => !(wave [] [] []).feature k).getD false) = false := by
      cases hfe : nd.feature with
      | none => rfl
      | some f =>
        have hall : ∀ f < 13, (wave [] [] []).feature f = true := by decide +kernel
        simp [hall f (hf f hfe)]
    unfold refusal
    simp [h1, h2, hp, hs, hl]
  · right
    rw [hd]
    have hz : ∀ i : Nat, ([0, 0, 0, 0, 0, 0] : List Nat).getD i 0 = 0 := by
      intro i
      match i with
      | 0 => rfl | 1 => rfl | 2 => rfl | 3 => rfl | 4 => rfl | 5 => rfl
      | _ + 6 => rfl
    rw [hz]; decide

/-- A guard that holds in no lane, and one that holds in one. -/
theorem witness_lanes : issuesB (wave [] [] []) { guard := .pos 0 } {} (fun k => k.lanes == 0) ∧ issuesB (wave [] [(5, 2)] []) { guard := .pos 1 } {} (fun k => lanesOf k.lanes == [5])
    ∧ issuesB (wave [] [] []) {} {} (fun k => k.lanes == 0xFFFFFFFF && !k.pilot && !k.sup) := by decide +kernel

/-- A pilot program, a wave in supervisor mode and a wave of a fill, each able to issue what is for it alone. -/
theorem witness_modes : issuesB (waveBut (fun x => { x with pilot := true }) []) {} {} (fun k => k.pilot)
    ∧ issuesB (waveBut (fun x => { x with sup := true }) []) {} { pilot := false, sup := true } (fun k => k.sup)
    ∧ issuesB (waveBut (fun x => { x with fill := true }) []) {} { pilot := false, feature := some 0, fill := true } (fun _ => true) := by decide +kernel

/-- Encodings: well-formed terms with a word, and a word that decodes. -/
theorem witness_encoding : (Instr.faddImm { ty := .f32, d := 255, bctl := 0x90 }).wf ∧ hasWord (.faddImm { ty := .f32 }) ∧ (decode 0).toOption = some .nop := by decide +kernel

/-- The first slot of a bundle, a later slot and a replayed slot, at a cached line; and a word that decodes to nothing. -/
def issuable (s : State) : Bool :=
  let b := markIssued { s with agenda := [] } 0
  s.agenda == [.issue 0 0] && match b.agent? 0, b.path? 0 0 with
  | some x, some q => mayIssue b x 0 q && (q.dueNow x).isNone && q.jpc != some q.pc && (stopOf b (b.ctxOf x.gang).id x.pilot q).isNone && q.entry == .none
      && match slotIndex q.pc.toNat with
      | some k => match b.fetchLine? (b.coreOf x) (b.ctxOf x.gang).asn (lineBase q.pc.toNat) with
        | some f => (!f.sup || x.sup) && f.ok && (match decode (slotWord f.data k) with
          | .ok i => (blockedBy b 0 0 i).isNone && !engineLate { s with agenda := [] } 0 i
          | .error _ => (blockedBy b 0 0 (.illegalEncoding (slotWord f.data k))).isNone)
        | none => false
      | none => false
  | _, _ => false

/-- A later slot, or a replay, of a bundle under way at the wave's line. -/
def midBundle (rest : List Dword) (redo : List Redo) : State :=
  (ready 0 [] [] []).updPath 0 0 fun q => { q with bun := some { first := 0x20000, next := 0x20040, rest := rest, src := {}, redo := redo, xmask := 0xFFFFFFFF, lanes := 0xFFFFFFFF } }

theorem witness_step_runs : (let s := ready 0 [] [] []; issuable s ∧ (s.path? 0 0).bind (·.bun) = none ∧ (decode 0).isOk)
    ∧ (issuable (ready 0xFF0000000000000000000000 [] [] []) ∧ (decode 0xFF0000000000000000000000).isOk = false)
    ∧ (let s := midBundle [0x20000] []; issuable s ∧ (s.bundle 0 0).map (fun b => b.word 0x20000) = some 0)
    ∧ issuable (midBundle [] [{ pc := 0x20000, lanes := 5 }]) := by decide +kernel

/-- Integer results at the ends of .s32 and one beyond them. -/
theorem witness_int_range : Ty.s32.isInt ∧ Ty.s32.lo = -2147483648 ∧ Ty.s32.hi = 2147483647 ∧ Ty.n64.isInt ∧ Ty.n64.lo = 0 ∧ (-2147483649 : Int) < Ty.s32.lo ∧ Ty.s32.hi < 2147483648 := by decide +kernel

/-- Limits of shuffles, of the residue sum's terms, of conversions' types, of zero and full counts. -/
theorem witness_operand_limits : shflLane 15 31 0xFFFFFFFF = some 28 ∧ shflLane 1 0 0xFFFFFFFF = none
    ∧ ([(448, -448)] : List (Int × Int)).all (fun q => decide (q.1.natAbs ≤ 448 ∧ q.2.natAbs ≤ 448)) ∧ ({ opx := 17 } : V3).srcTy = some .f32 ∧ (fmtOf .e2m1).isSome
    ∧ popcOf 32 (2 ^ 32 - 1) = 32 ∧ clzOf 64 1 = 63 ∧ ctzOf 64 (2 ^ 63) = 63 := by decide +kernel

/-- The issuer's bundle with slots to come, at the last slot, and at a replay of its last unfinished slot. -/
theorem witness_slot_ends : ((midBundle [0x2000C] []).bundle 0 0).map (·.rest) = some [0x2000C]
    ∧ (let s := midBundle [] []; ((s.bundle 0 0).map fun b => (b.rest.isEmpty && b.redo.isEmpty && b.eret.isNone && b.exits == 0 && b.nexts.isEmpty && !b.branch && b.brk.isNone)) = some true
        ∧ ((s.agent? 0).map fun x => !x.pilot && x.paths.all fun y => y.st != .join) = some true ∧ ((s.path? 0 0).map fun q => q.xmask != 0 && q.jpc != some 0x20040) = some true)
    ∧ (let s := (midBundle [] [{ pc := 0x20000, lanes := 5 }]).updPath 0 0 fun q => { q with bun := q.bun.map fun b => { b with now := some (0x20000, true) } };
        (s.bundle 0 0).map (fun b => (b.redo.length, b.now)) = some (1, some (0x20000, true))) := by decide +kernel

/-- A fixed-latency instruction in a bundle with a slot to come gives a next state. -/
theorem witness_results : fixedDest (.iadd { ty := .s32, d := 1 }) = some (1, false)
    ∧ (let s := (wave [] [] []).updPath 0 0 fun q => { q with bun := q.bun.map fun b => { b with rest := [0x2000C] } };
        s.cur.isSome ∧ ((s.cur.bind fun c => s.bundle c.agent c.path).map fun b => b.rest) = some [0x2000C]
        ∧ goesOn (exec (.iadd { ty := .s32, d := 1 }) s)) := by decide +kernel

/-- A result that is not visible at once is outstanding, for every issue and every result. -/
theorem witness_pending_result (k : Iss) (b : State) (g : Ctl) (d : Nat) (wide : Bool) (f : Nat → LaneOut) : ∃ t, PendingResult b t k g d wide f :=
  ⟨_, (putVar_result k b g d wide f).2⟩

/-- Each refusal of R70: a register at NREGS, a pilot program, a feature, a fill's instruction, the mode, a full counter. -/
theorem witness_refusals : (let s := waveBut (fun x => { x with nregs := 8 }) []; (issOf s .always).map (fun p => p.2.nregs) = some 8)
    ∧ (issOf (waveBut (fun x => { x with pilot := true }) []) .always).map (fun p => p.2.pilot) = some true
    ∧ (let s := atSlot (State.reset.withFetchWord 96 0); s.feature 6 = false ∧ (issOf s .always).map (fun p => (p.2.fill, p.2.sup, refusal s p.2 { fill := true } == some 0x01, refusal s p.2 { sup := true } == some 0x02)) = some (false, false, true, true))
    ∧ (let s := waveBut (fun x => { x with d := [63, 0, 0, 0, 0, 0] }) []; (issOf s .always).map (fun p => (refusal s p.2 {}, p.2.d.getD 0 0)) = some (none, 63)) := by decide +kernel

/-- Legal targets, as a check over the lanes. -/
def legalB (s : State) (x : Agent) (target : Nat → Dword) (lanes : Word) : Bool :=
  (List.range 32).all fun l => !lanes.getLsbD l || match slotIndex (target l).toNat with
    | some j => match s.fetchLine? (s.coreOf x) (s.ctxOf x.gang).asn (lineBase (target l).toNat) with
      | some f => (!f.sup || x.sup) && lineTgt f.data j
      | none => false
    | none => false

theorem legal_of {s : State} {x : Agent} {target : Nat → Dword} {lanes : Word} (h : legalB s x target lanes = true) : LegalTargets s x target lanes := by
  intro l hl hm
  have := List.all_eq_true.1 h l (by simpa using hl)
  rw [hm] at this
  simp only [Bool.not_true, Bool.false_or] at this
  split at this
  · rename_i j hj
    split at this
    · rename_i f hf
      simp only [Bool.and_eq_true, Bool.or_eq_true, Bool.not_eq_true'] at this
      exact ⟨j, f, hj, hf, fun hs => by rcases this.1 with h | h; · rw [h] at hs; cases hs
                                        · exact h, this.2⟩
    · cases this
  · cases this

/-- A branch to a marked slot of a cached line, and one to an address that begins no slot, with free entries. -/
theorem witness_branches : issuesB (wave [] [] []) {} {} (fun k => let b := issued (wave [] [] []) k {}
      match b.agent? k.agent, b.bundle k.agent k.path with
      | some x, some bn => legalB b x (fun _ => brTarget k.pc 0 0) k.lanes
          && (k.lanes != 0 && (groupPcs (bn.goTo k.lanes (fun _ => 0x20001) 0).nexts bn.next (k.xmask &&& ~~~bn.exits)).length ≤ (freeEntries x.paths).length + 1 && (slotIndex 0x20001).isNone)
      | _, _ => false) := by decide +kernel

/-- Two next PCs with entries enough, one of them in sequence or none. -/
theorem witness_groups : (let gs : List (Dword × Word) := [(0x20000, 3), (0x20040, 12)]; gs ≠ [] ∧ gs.length ≤ 7 + 1 ∧ (gs.map (·.1)).Nodup ∧ gs.length ≤ 1 + 1)
    ∧ (groupPcs [(0, 0x20000)] 0x20040 3).length = 2 := by decide +kernel

/-- JOIN with a legal target; YIELD alone and with an eligible sibling; REGROUP on one path, on two, and with a join PC; a block whose one wave has arrived. -/
theorem witness_paths : issuesB (wave [] [] []) {} { pilot := false } (fun k => ((wave [] [] []).agent? 0).map (fun x => legalB (wave [] [] []) x (fun _ => brTarget k.pc 0 0) 1) == some true)
    ∧ (let two := waveBut (fun x => { x with paths := x.paths.mapIdx fun i q => if i = 1 then { q with st := .eligible, xmask := 1 } else q }) [];
        (two.agent? 0).map (fun a => ((List.range a.paths.length).filter fun i => i ≠ 0 ∧ ((a.paths[i]?).map fun q => q.st == .eligible && !q.trapHeld).getD false, (a.paths.filter fun p => p.st ≠ .free).length)) = some ([1], 2))
    ∧ issuesB (wave [] [] []) {} { pilot := false, feature := some 7, regs := [(0, 256)] } (fun _ => ((wave [] [] []).agent? 0).map (fun a => (a.paths.filter fun p => p.st ≠ .free).length) == some 1)
    ∧ (let s := (wave [] [] []).updPath 0 0 fun q => { q with wait := some (.regroup 8) }; let g : GangKey := { launch := 1, idx := 0 };
        (s.agents.filter fun y => y.gang == g && y.role == 0 && !y.pilot && !y.ended && !y.ending).map (fun x => (atRegroup s x).map fun r => (r.1, r.2.2)) = [some (0, 8)]) := by decide +kernel

/-- XMWR that removes nothing; that removes lanes without a join PC; with one and no entry left; with one and an entry that waits there, or free. -/
theorem witness_mask_change : (let nd : Need := { pilot := false, regs := [(9, 1)] };
      issuesB (wave [(288, 0xFFFFFFFF)] [] []) {} nd (fun k => k.xmask &&& ~~~(k.src.get 9 0 &&& k.xmask) == 0)
      ∧ issuesB (wave [(288, 1)] [] []) {} nd (fun k => k.xmask &&& ~~~(k.src.get 9 0 &&& k.xmask) == 0xFFFFFFFE && ((wave [(288, 1)] [] []).path? 0 0).map (·.jpc) == some none && lanesOf k.lanes == 0 :: (List.range 31).map (· + 1)))
    ∧ (let s := waveBut (fun x => { x with paths := x.paths.mapIdx fun i q => if i = 0 then { q with jpc := some 0x20040 } else { q with st := .stopped } }) []; ((s.agent? 0).map fun a => freeEntries a.paths) = some [])
    ∧ (let s := waveBut (fun x => { x with paths := x.paths.mapIdx fun i q => if i = 0 then { q with jpc := some 0x20040 } else if i = 3 then { q with st := .join, jpc := some 0x20040 } else q }) [];
        ((s.agent? 0).map fun a => ((List.range a.paths.length).find? fun i => ((a.paths[i]?).map fun p => p.st == .join && p.jpc == some 0x20040 && !p.trapHeld).getD false, (freeEntries a.paths).head?)) = some (some 3, some 1)) := by decide +kernel

/-- A wave in a state with a copy of line 32 in its L1, whose lease covers its clock. -/
def withCopy : State :=
  let s := wave [] [] [(0x1000, 0x44)]
  { s with copies := [{ place := 0, sp := .loc, line := 32, data := List.replicate 128 7, ts := { wts := 0, rts := 9 }, taken := 0, seq := 0 }] }

/-- A plain load that a copy serves, one that goes to the home, one over two lines, and stores at a home. -/
theorem witness_plain_memory : (withCopy.relaxed = [] ∧ (withCopy.agent? 0).isSome ∧ lineOf .loc 0x107C = lineOf .loc (0x107C + 3)
      ∧ ((withCopy.agent? 0).map fun x => (withCopy.copyFor 0 .loc 32 fun c => c.serves x withCopy.tick false .loc 0x107C 4).isSome) = some true)
    ∧ (((wave [] [] []).agent? 0).map fun x => ((wave [] [] []).copyFor 0 .loc 32 fun c => c.serves x 0 false .loc 0x1000 4).isNone) = some true
    ∧ lineOf .loc 0x107E < lineOf .loc (0x107E + (16 - 1))
    ∧ (wave [] [] []).blockOf? { launch := 1, idx := 0 } 0 ≠ none := by decide +kernel

/-- One lane that loads, with its page mapped and no copy of the line: admitted, and nothing waits for a reckoned line. -/
theorem witness_load : let s := wave [(128, 0x1000)] [(0, 2)] [(0x1000, 0x44)]; let x : Mem := { ctl := { guard := .pos 1 }, ty := .b32, d := 2, a := 4, c := 6 }; let nd := memNeed [(2, 1), (4, 2), (6, 1)];
    issuesB s x.ctl nd (fun k => let b := issued s k nd
      k.lanes != 0 && b.relaxed.isEmpty && (b.agents.all fun a => a.mon.armed.isNone) && k.lanes == guarded k.src x.ctl.guard k.xmask
      && match checkLanes b k.gang k.sup .read 4 (k.eas 4 0) (loadRule .b32 fun l => (k.src.get 6 l).toNat) with
        | .go ts [] => ts.all (fun p => !p.leaf.rk && p.sp == .loc) && (loadLanes (touchAll b k.gang (ts.map (·.va))) k .b32 (fun l => (k.src.get 6 l).toNat) (ordOf 0) ts).2.1.isEmpty
        | _ => false) := by decide +kernel

/-- A misaligned load and store, and a page without the right. -/
theorem witness_access_faults : (let s := wave [(128, 0x1001)] [(0, 2)] []; issuesB s { guard := .pos 1 } (memNeed [(2, 1), (4, 2), (6, 1)]) fun k =>
      faultOf (checkLanes (issued s k (memNeed [(2, 1), (4, 2), (6, 1)])) k.gang k.sup .read 4 (k.eas 4 0) (loadRule .b32 fun l => (k.src.get 6 l).toNat)) == some (0x03, 0x1001))
    ∧ (let s := { wave [(128, 0x1000)] [(0, 2)] [] with tlb := [{ asn := 0, page := 0, leaf := { logSize := 36, r := true } }] }; issuesB s { guard := .pos 1 } (memNeed [(4, 2), (0, 1)]) fun k =>
        faultOf (checkLanes (issued s k (memNeed [(4, 2), (0, 1)])) k.gang k.sup .write 4 (k.eas 4 0) (storeRule .b32)) == some (0x11, 0x1000))
    ∧ ([(0, 0x1000), (1, 0x1002)] : List (Nat × Nat)).find? (fun e => e.2 % 4 ≠ 0) = some (1, 0x1002)
    ∧ (let s := wave [] [] []; tr s (s.ctxOf { launch := 1, idx := 0 }) false .read (2 ^ 57) = .perm ∧ tr s (s.ctxOf { launch := 1, idx := 0 }) false .read (2 ^ 36 - 4) ≠ .perm) := by decide +kernel

/-- Lanes that store and that change a word, all translated and admitted, with no job edge; none is reckoned. -/
theorem witness_store : let s := wave ((List.range 32).map fun l => (128 + l, BitVec.ofNat 32 (0x1000 + 4 * l))) [] [];
    issuesB s {} (memNeed [(4, 2), (0, 1)]) (fun k => let b := issued s k (memNeed [(4, 2), (0, 1)])
      match checkLanes b k.gang k.sup .write 4 (k.eas 4 0) (storeRule .b32) with
      | .go ts [] => ts.length == 32 && ts.all fun p => !jobEdge b (b.ctxOf k.gang).id p.va 4
      | _ => false)
    ∧ issuesB s { guard := .neg 0 } (atomNeed { ty := .n32, d := 2, a := 4, b := 6 } false 2) (fun k => let b := issued s k (atomNeed { ty := .n32, d := 2, a := 4, b := 6 } false 2)
      match checkLanes b k.gang k.sup .atomic 4 (k.eas 4 0) (atomRule 0) with
      | .go ts [] => ts.length == 32 && ts.all fun p => !jobEdge b (b.ctxOf k.gang).id p.va 4 && !b.poisoned p.sp p.addr 4
      | _ => false) := by decide +kernel

/-- A wave of a block with 128 bytes of scratchpad. -/
def scrWave (pilot : Bool) (v : List (Nat × Word)) : State :=
  let s := waveBut (fun x => { x with pilot := pilot }) v
  { s with blocks := s.blocks.map fun b => { b with scrSize := 128 } }

/-- Lanes inside, the last word, the first byte outside, a misaligned one, and a pilot program's lane outside. -/
theorem witness_scratchpad : let at_ (a : Word) : List (Nat × Word) := [(160, a)]; let nd := memNeed [(2, 1), (5, 1)];
    let got (s : State) : Option (Nat × List (Nat × Nat)) := ((issOf s (.pos 1)).map fun p => match scrCheck s p.1 0 5 4 0 with | .inl (c, _, _) => (c, []) | .inr (as, _) => (0, as));
    let lane0 (s : State) : State := { s with cur := s.cur.map fun c => { c with src := { c.src with p := [(0, 2)] } } };
    issuesB (lane0 (scrWave false (at_ 124))) { guard := .pos 1 } nd (fun k => lanesOf k.lanes == [0])
    ∧ got (lane0 (scrWave false (at_ 124))) = some (0, [(0, 124)]) ∧ got (lane0 (scrWave false (at_ 128))) = some (0, []) ∧ got (lane0 (scrWave false (at_ 122))) = some (3, []) ∧ got (lane0 (scrWave false (at_ 126))) = some (0, [])
    ∧ got (lane0 (scrWave true (at_ 128))) = some (0x16, []) ∧ got (lane0 (scrWave true (at_ 0))) = some (0, [(0, 0)])
    ∧ ((scrWave false []).gang? { launch := 1, idx := 0 }).map (·.size) = some 1 := by decide +kernel

/-- Operands of the atomic operations at the ends of their types. -/
theorem witness_atomic_operands : (2 ^ 32 - 1 < 2 ^ Ty.n32.width ∧ 2 ^ 64 - 1 < 2 ^ Ty.s64.width) ∧ (atomNew 8 .n32 5 5 0).1 = 0 ∧ (atomNew 9 .n32 6 5 0).1 = 5 ∧ (atomNew 9 .n32 0 5 0).1 = 5
    ∧ (atomNew 1 .s32 0xFFFFFFFF 1 0).1 = 0xFFFFFFFF ∧ (atomNew 1 .n32 0xFFFFFFFF 1 0).1 = 1 := by decide +kernel

/-- MWAIT with its monitor written, lost, absent and armed; and one that waits with and without a limit. -/
theorem witness_monitor : let m (mon : Monitor) : State := waveBut (fun x => { x with mon := mon }) [];
    let get (s : State) : Option (Bool × Bool × Bool) := (s.agent? 0).map fun a => (a.mon.written, a.mon.lost, a.mon.armed.isSome);
    get (m { written := true }) = some (true, false, false) ∧ get (m { lost := true }) = some (false, true, false) ∧ get (m {}) = some (false, false, false) ∧ get (m { armed := some (.loc, 32) }) = some (false, false, true)
    ∧ (((m {}).updPath 0 0 fun q => { q with wait := some (.mwait (some 0) 2 1) }).path? 0 0).bind (·.wait) = some (.mwait (some 0) 2 1)
    ∧ (0 : Nat) ≤ (m {}).tick ∧ (((m { lost := true }).updPath 0 0 fun q => { q with wait := some (.mwait none 2 1) }).path? 0 0).bind (·.wait) = some (.mwait none 2 1) := by decide +kernel

/-! ### Units, engines and copies -/

/-- One lane, lane 0, of a wave with some registers and bytes of memory. -/
def oneLane (v : List (Nat × Word)) (m : List Host.Cell) : State :=
  let s := wave v [(0, 2)] m
  { s with ctxs := s.ctxs.map fun c => { c with chanstat := 0x100000 } }

/-- The query of a unit: in the lane, done, refused, or missing its page. -/
def queryEnds (s : State) (nd : Need) (q : Iss → Nat → U LaneQ) : Option (List (Bool × Bool)) :=
  (issOf s (.pos 1)).bind fun p => if refusal s p.2 nd = none then some ((queryLanes (issued s p.1 nd) p.1 (q p.1)).1.map fun e => ((laneDone e).isSome, (lanePerm e).isSome)) else none

/-- Queries that end: a march, rays against empty memory, a texture; and one that a page refuses, and one that misses its page. -/
theorem witness_units : (let x : Eng := { ctl := { guard := .pos 1 }, d := 16, a := 8, b := 4, c := 3 };
      queryEnds (oneLane [(128, 0x1000)] []) (needUnit [(16, 8), (8, 8), (4, 2)] 2) (sndLane .m x) = some [(true, false)]
      ∧ queryEnds (oneLane [(128, 0x1000)] []) (needUnit [(16, 12), (8, 8), (4, 2), (3, 1)] 1) (rayqLane x) = some [(true, false)]
      ∧ queryEnds (oneLane [(128, 0x1000)] []) (needUnit [(16, 8), (8, 8), (4, 2), (3, 1)] 1) (raywLane x) = some [(true, false)])
    ∧ (let x : Mem := { ctl := { guard := .pos 1 }, ty := .f32, d := 16, a := 4, b := 8 }; let q := fun k => texLane x k fun _ _ => (pure { regs := [] } : U LaneQ);
        queryEnds (oneLane [(128, 0x1000)] []) (texNeed x) q = some [(true, false)] ∧ queryEnds (oneLane [(160, 0x02000000)] []) (texNeed x) q = some [(false, true)]
        ∧ queryEnds { oneLane [(128, 0x1000)] [] with tlb := [] } (texNeed x) q = some [(false, false)]) := by decide +kernel

/-- Two gangs of a formation, side by side. -/
def pairOfGangs : State :=
  let s := wave [] [] []
  { s with gangs := s.gangs.map fun y => { y with fw := 2, fh := 1 } }

/-- A link without a neighbour, with one, empty, full, and with a message that has landed and one that has not. -/
theorem witness_links : ((wave [] [] []).gang? { launch := 1, idx := 0 }).bind (fun g => neighbour g 1) = none
    ∧ (pairOfGangs.gang? { launch := 1, idx := 0 }).bind (fun g => neighbour g 1) = some { launch := 1, idx := 1 }
    ∧ (let m (i : Nat) (l : Bool) : LinkMsg := { id := i, gang := { launch := 1, idx := 0 }, dir := 1, ch := 0, words := [], landed := l };
        let s : State := { pairOfGangs with links := [m 1 false, m 2 false, m 3 false, m 4 false] };
        s.links.find? (fun y => y.id == 1) = some (m 1 false) ∧ s.links.find? (fun y => y.gang == { launch := 1, idx := 0 } && y.dir == 1 && y.ch == 0 && !y.landed) = some (m 1 false)
        ∧ (s.links.filter fun y => y.gang == { launch := 1, idx := 0 } && y.dir == 1 && y.ch == 0).length = 4 ∧ s.pend = []
        ∧ (({ s with links := [m 1 true] } : State).links.find? fun y => y.gang == { launch := 1, idx := 0 } && y.dir == 1 && y.ch == 0) = some (m 1 true)) := by decide +kernel

/-- A block with four tiles and an accumulator; tile 0 has one row of one 32-element block of bytes, 1 the same. -/
def tileWave (busy : Bool) (v : List (Nat × Word)) : State :=
  let s := oneLane v []
  let t : Tile := { rows := 1, kblk := 1, kind := 3 }
  { s with blocks := s.blocks.map fun b => { b with nt := 4, na := 1, tiles := [t, t], engBusy := busy } }

/-- Engine instructions that pass their checks and that fail them; rows of a tile that translate, that are misaligned; an engine that holds what it accepts. -/
theorem witness_engine : ((tileWave false []).blocks.all fun b => (([.tshape { d := 3 }, .mma { b := 1 }, .tzero { imm := 1 }, .tld {}, .tfeed {}, .tdrain {}, .acvt { ty := .e4m3 }, .menc {}] : List Instr).all (engCheck b))
        && ([.tshape { d := 4 }, .mma { b := 2 }, .tld { d := 2 }, .tdrain { a := 1 }, .acvt { ty := .f16 }] : List Instr).all fun i => !engCheck b i)
    ∧ issuesB (tileWave false [(128, 0x1000), (192, 64)]) { guard := .pos 1 } { engNeed [(4, 2), (6, 1)] with pilot := false, base := 0 } (fun k => let c := issued (tileWave false [(128, 0x1000), (192, 64)]) k {}
        k.lanes == 1 && match tileRows c (c.ctxOf k.gang) k.sup .read (1, 1, 3) (tileBase k { a := 4, b := 6 }).1 (tileBase k { a := 4, b := 6 }).2 with
          | .go rs => rs.length == 1 && rs.all fun p => !jobEdge c (c.ctxOf k.gang).id p.va p.len && (leafAt c (c.ctxOf k.gang) p.va).map (·.rk) == some false
          | _ => false)
    ∧ issuesB (tileWave false [(128, 0x1001)]) { guard := .pos 1 } { engNeed [(4, 2), (6, 1)] with pilot := false, base := 0 } (fun k => let c := issued (tileWave false []) k {}
        match tileRows c (c.ctxOf k.gang) k.sup .read (1, 1, 3) (tileBase k { a := 4, b := 6 }).1 0 with | .fault 0x03 _ => true | _ => false)
    ∧ ((tileWave true []).blockOf? { launch := 1, idx := 0 } 0).map (·.engBusy) = some true := by decide +kernel

/-- What the engine performs: zeroes, feeds, a drain and a product whose windows lie inside the accumulator, at its last element. -/
theorem witness_engine_performs : (Instr.tzero { imm := 1 }).wf ∧ (Instr.tzero {}).wf ∧ (Instr.tfeed {}).wf ∧ (Instr.tdrain { imm := 63 }).wf ∧ (Instr.mma { imm := 0xFFF }).wf
    ∧ immBits { imm := 0xFFF } 5 0 + 1 ≤ 64 ∧ immBits { imm := 0xFFF } 11 6 + 1 ≤ 64 := by decide +kernel

/-- What a submission's check answers. -/
def checkEnds (c : PageCheck) : Option (Option Nat) :=
  match c with
  | .ok _ => some none
  | .fault code _ => some (some code)
  | _ => none

/-- The check of a copy of one row of 16 bytes from 0x1000 to 0x2000, with its stamp, as issued; and its room. -/
def copyCheck (s : State) (v : List Nat) (stamp : Nat) : Option (Option (Option Nat) × Bool × Bool) :=
  (issOf s (.pos 1)).map fun p => let b := issued s p.1 (cpyNeed {})
    let c := b.ctxOf p.1.gang
    let es := (if sliceLimits (xformOf {}) v then sliceExts b c (xformOf {}) v else []) ++ stampExt stamp
    let r := submitCheck b c p.1.sup (sliceLimits (xformOf {}) v) es (sliceMisaligned b c (xformOf {}) v) stamp []
    (checkEnds r, b.sharedFree (b.clusterOf p.1.gang), match r with | .ok l => b.locksFree (b.clusterOf p.1.gang) l | _ => false)

/-- Copies within their limits and at one beyond; misaligned; with room; a pilot program's, a wave's alone in its block, and a wave's beside another. -/
theorem witness_copies : (∀ c ∈ ([([0x1000, 0x2000, 16, 1, 0, 0], 0, some none, true, true), ([0x1000, 0x2000, 16, 2, 16, 16], 8, some none, true, true), ([0x1000, 0x100F, 16, 1, 0, 0], 0, some (some 0x20), true, false),
      ([0x1001, 0x2000, 16, 1, 0, 0], 0, some (some 0x03), true, false), ([0x1000, 0x2000, 16, 1, 0, 0], 4, some (some 0x03), true, false)] : List (List Nat × Nat × Option (Option Nat) × Bool × Bool)),
      copyCheck (oneLane [] []) c.1 c.2.1 = some c.2.2)
    ∧ sliceLimits (xformOf {}) [0, 0, 1048576, 4096] ∧ sliceLimits (xformOf {}) [0, 0, 1048576, 4097] = false ∧ sliceLimits (xformOf {}) [0, 0, 1048577, 4096] = false := by decide +kernel

/-- A wave alone in its block and one beside another, with no collective under way and nothing outstanding. -/
theorem witness_collective : ((oneLane [] []).colls = [] ∧ (oneLane [] []).pend = [] ∧ ((oneLane [] []).wavesOf { launch := 1, idx := 0 } 0).map (·.num) = [0])
    ∧ (let s := oneLane [] []; (({ s with agents := s.agents ++ s.agents.map fun x => { x with num := 1, idx := 1 } } : State).wavesOf { launch := 1, idx := 0 } 0).map (·.num) = [0, 1])
    ∧ ((oneLane [] []).book 0 0).owner = [] := by decide +kernel

/-- A job card at 0x1000 that passes its checks: an empty copy; and a job that may start, one behind an edge, one that has run. -/
theorem witness_jobs : issuesB (oneLane [(128, 0x1000)] []) { guard := .pos 1 } { regs := [(10, 2), (4, 2), (6, 2)], base := 0 } (fun k => let s := oneLane [(128, 0x1000)] [(0x1000, 1)]; let b := issued s k { regs := [(10, 2), (4, 2), (6, 2)], base := 0 }
      match tr b (b.ctxOf k.gang) k.sup .read 0x1000 with
      | .ok sp pa leaf => !leaf.rk && (let r := loadPlain (touch b (b.ctxOf k.gang) 0x1000) k.agent sp pa 128
          let card := cardOf r.2 (r.2.ctxOf k.gang) r.1.bytes 0
          card.ok && !r.1.poison && (card.exts ++ stampExt 0).all (inCard (cardRegions r.1.bytes)) && !selfOverlap (cardRegions r.1.bytes)
            && checkEnds (submitCheck r.2 (r.2.ctxOf k.gang) k.sup true [] card.mis 0 []) == some none && r.2.sharedFree (r.2.clusterOf k.gang))
      | _ => false)
    ∧ (let j : Job := { id := 5, ctx := 256, cluster := 0, chan := 0, kind := 0, gang := { launch := 1, idx := 0 } }; let s : State := { wave [] [] [] with jobs := [j] };
        s.job? 5 = some j ∧ jobWaits s 5 = false ∧ edgeOn s j = false ∧ turnOf s j ∧ s.jobs.takeWhile (fun k => k.id != 5) = [])
    ∧ (let j : Job := { id := 5, ctx := 256, cluster := 0, chan := 0, kind := 0, gang := { launch := 1, idx := 0 }, regions := [{ va := 0x1000, len := 16, write := true }] };
        let i : Job := { id := 6, ctx := 256, cluster := 0, chan := 1, kind := 0, gang := { launch := 1, idx := 0 }, regions := [{ va := 0x100F, len := 1, write := false }] };
        edgeOn ({ wave [] [] [] with jobs := [j, i] } : State) i) := by decide +kernel

/-- Lines to hold within the quota, and a hold to give up. -/
theorem witness_staging : issuesB (oneLane [(128, 0x1000), (160, 0), (192, 129)] []) { guard := .pos 1 } { regs := [(2, 1), (4, 2), (6, 1)], base := 0 } (fun k => let s := oneLane [(128, 0x1000), (192, 129)] []; let b := issued s k { regs := [], base := 0 }
      let lines := stageLines b k 0x1000 129
      lines.length == 2 && lines.all (fun y => !y.2.2.rk) && decide ((lines.map fun y => ((b.ctxOf k.gang).id, y.1, y.2.1)).Nodup) && b.stageHolds.isEmpty && b.pins.isEmpty)
    ∧ (let s := oneLane [] []; let t : State := { s with ctxs := s.ctxs.map fun c => { c with stgquota := 2 } }; ((t.ctxOf { launch := 1, idx := 0 }).stgquota, t.stageHolds.length + 2) = (2, 2)) := by decide +kernel


/-! ### Waits, rendezvous, programs and queues -/

/-- The gang of the tests' wave. -/
def gang0 : GangKey := { launch := 1, idx := 0 }

/-- The wave with its one path changed. -/
def pathBut (f : Path → Path) : State := (wave [] [] []).updPath 0 0 f

/-- The wave with its gang changed. -/
def gangBut (f : Gang → Gang) (s : State) : State := { s with gangs := s.gangs.map f }

/-- The wave as a pilot program that waits at rendezvous point 2 for two. -/
def pilotAt (l : List (Nat × Nat × List Nat)) (m : Nat) : State :=
  gangBut (fun y => { y with rdzv := l }) ((pathBut fun q => { q with wait := some (.rdzv 2 m false) }).updAgent 0 fun x => { x with pilot := true, paths := x.paths.take 1 })

/-- Facts that hold together. -/
def all (l : List Bool) : Bool := l.all id

/-- A wave at barrier 3, not at barrier 4; a pilot program at an empty point, at an open phase of another count, and a phase that has its count. -/
theorem witness_barriers : all [
    let s := pathBut fun q => { q with wait := some (.bar 3) };
    gangRuns s gang0 && (s.wavesOf gang0 0).map (fun x => (x.num, x.arrived (isBar 3), x.arrived (isBar 4))) == [(0, true, false)] && (s.gangWaves gang0).map (·.num) == [0]
      && ((meetAll s [0] 1).agent? 0).isSome,
    let s := pilotAt [] 2;
    gangRuns s gang0 && (s.gangAgents gang0).map (fun x => (x.num, x.pilot, x.paths.map (·.wait))) == [(0, true, [some (.rdzv 2 2 false)])] && (s.gang? gang0).map (·.rdzv) == some [],
    (let s := pilotAt [(2, 3, [8192])] 2; (s.gang? gang0).map (·.rdzv) == some [(2, 3, [8192])] && ((s.agent? 0).map fun x => x.gang == gang0) == some true),
    let s := gangBut (fun y => { y with rdzv := [(2, 1, [0])] }) (pathBut fun q => { q with wait := some (.rdzv 2 1 true) });
    gangRuns s gang0 && ((s.gangAgents gang0).all fun x => !atRdzv x 2) && ((s.gang? gang0).bind fun y => y.rdzv.find? fun p => p.1 == 2 && p.2.2.length ≥ p.2.1) == some (2, 1, [0])] := by decide +kernel

/-- Counters that are down and one that is not; sleeps that are over and that are not. -/
theorem witness_waits : all [
    let s := pathBut fun q => { q with wait := some (.waitc false 0 0) };
    gangRuns s gang0 && (s.path? 0 0).bind (·.wait) == some (.waitc false 0 0) && ((s.agent? 0).map fun a => (waitcMet s a false 0 0, waitcMet s { a with d := [1, 0, 0, 0, 0, 0] } false 0 0, waitcMet s a true 0 0,
        waitcMet s { a with d := [63, 0, 0, 0, 0, 0] } false 0 63)) == some (true, false, true, true),
    let s := pathBut fun q => { q with wait := some (.sleep 1024) };
    s.tick < 1024 && (s.path? 0 0).bind (·.wait) == some (.sleep 1024)] := by decide +kernel

/-- A launch for the wave's gang, and the wave with it. -/
def launchOf (pilot : Bool) : Launch := { id := 1, queue := 0, ctx := 256, kernel := { pilot := pilot, pregs := 8, switches := [{ id := 7, live := 16 }] } }

def ofLaunch (pilot : Bool) : State := { wave [] [] [] with launches := [launchOf pilot] }

/-- A request for 32 permits that waits. -/
def asksPermits : State :=
  { gangBut (fun y => { y with permitQ := [(0, 0, 32)] }) (wave [] [] []) with
    pend := [{ id := 3, agent := 0, path := 0, pc := 0, wins := [(0, 1)], cnt := 0, hold := .permit 0 32 9 1 }] }

/-- A gang with pilot programs, one without, and one with none free; permits that are free, that are not, and requests that wait. -/
theorem witness_forks : all [
    let s := ofLaunch true;
    ((s.gang? gang0).map fun y => freePilot s y.cluster) == some (some 0) && (s.launches.find? fun l => l.id == 1).map (·.kernel.pilot) == some true,
    ((ofLaunch false).launches.find? fun l => l.id == 1).map (·.kernel.pilot) == some false,
    let w := wave [] [] [];
    let s : State := { w with agents := w.agents ++ (List.range 8).map fun i => { num := 8192 + i, gang := gang0, role := 0, idx := i, pilot := true } };
    ((s.gang? gang0).map fun y => freePilot s y.cluster) == some none,
    let s := wave [] [] [];
    (s.gang? gang0).map (fun y => (y.size, y.permitQ)) == some (1, []) && s.permitsFree gang0 0 == 32 && rsvOf s gang0 0 0 == 0,
    let s := asksPermits;
    gangRuns s gang0 && 32 ≤ s.permitsFree gang0 0 && (s.gang? gang0).bind (fun y => y.permitQ.find? fun r => r.2.1 == 0) == some (0, 0, 32) && s.pend.map (·.hold) == [.permit 0 32 9 1]
      && (setRsv s gang0 0 8192 1).permitsFree gang0 0 < 32] := by decide +kernel

/-- Context 0, with its wave, and its queue 1 with a descriptor at QTABLE + 64 (R305): ring at 0x200000, 16 records of 64 bytes. -/
def queued (status pending : Nat) : State :=
  let s := wave [(128, 0x1000), (192, 1)] [(0, 2)] [(0x10004A, 0x20), (0x100060, 0x40), (0x100062, 4)]
  { s with ctxs := s.ctxs.map (fun c => { c with id := 0, chanstat := 0x100000 }), gangs := s.gangs.map (fun y => { y with ctx := 0 }), regs := { s.regs with qtable := 0x100000 }, queues := [{ q := 1, head := 0, tail := pending, status := status }] }

/-- What of QAPP's conditions a state meets: own queue, status, size of a record, whether the append can be done. -/
def qappCase (s : State) : Option (Nat × Bool × Nat × Bool) :=
  (issOf s (.pos 1)).map fun p => let b := issued s p.1 { regs := [(2, 2), (4, 2), (6, 1)], base := 0 }
    let d := qdesc b 1
    (d.ctx, (b.queue 1).status == 1, d.recsz, (appendRecords b p.1.agent ((b.ctx? d.ctx).getD { id := d.ctx }) d 0 [List.replicate d.recsz 0]).isSome)

theorem witness_qapp : all [
    (queued 1 0).queue 1 == { q := 1, head := 0, tail := 0, status := 1 }, ((queued 1 0).ctxOf gang0).id == 0,
    ((qappCase (queued 1 0)).map fun r => (r.1, r.2.1, decide (0 < r.2.2.1), r.2.2.2)) == some (0, true, true, true),
    ((qappCase (queued 0 0)).map fun r => r.2.1) == some false,
    ((qappCase { queued 1 0 with tlb := [] }).map fun r => r.2.2.2) == some false,
    let s := queued 1 0;
    (issOf s (.pos 1)).map (fun p => match readSpan s p.1 0x1000 64 with | .bytes _ bs => bs.length | _ => 0) == some 64] := by decide +kernel

/-- The wave at switch point 7 of its launch's kernel, with what its gang wants. -/
def atSwitch (w : Wanted) (since : Nat) : State :=
  gangBut (fun y => { y with want := w }) { pathBut fun q => { q with wait := some (.varpt 7 9 since true) } with launches := [launchOf false] }

/-- A VARPT that issues at a point of its kernel, asked for a pre-emption and not asked; a gang that has reached the point with no wish, a pre-emption that
finds slots and one that finds none, and a migration; waves at one id and at two, before and after 20 µs. -/
theorem witness_switch : all [
    issuesB { ofLaunch false with agents := (ofLaunch false).agents.map fun x => { x with paths := x.paths.take 1 } } {} { pilot := false, regs := [(9, 1)] } (fun k =>
      let b := issued { ofLaunch false with agents := (ofLaunch false).agents.map fun x => { x with paths := x.paths.take 1 } } k { pilot := false, regs := [(9, 1)] };
      match b.gang? k.gang, b.agent? k.agent with
      | some y, some a => ((kernelOfGang b y).switches.find? fun w => w.id == 7).map (·.live) == some 16 && a.d.all (· == 0) && b.pend.isEmpty && switchAct b y == .none
          && switchAct b { y with want := { preempt := some 0 } } != .none
      | _, _ => false),
    let s := atSwitch {} 0;
    ((s.gang? gang0).map fun y => (switchPoint s y, switchAct s y == .none)) == some (some 7, true) && (s.launches.find? fun l => l.id == gang0.launch).isSome,
    let s := atSwitch { preempt := some 0 } 0;
    ((s.gang? gang0).map fun y => (switchPoint s y, switchAct s y == .preempt, (newSave (checkpointed (serveSaves s (some gang0)) y 7) gang0 1 (some 7)).isSome)) == some (some 7, true, true),
    let w := atSwitch { preempt := some 0 } 0;
    let s : State := { w with regs := { w.regs with cssize := 0 } };
    ((s.gang? gang0).map fun y => (newSave (checkpointed (serveSaves s (some gang0)) y 7) gang0 1 (some 7)).isSome) == some false,
    let s := atSwitch { leave := true } 0;
    ((s.gang? gang0).map fun y => switchAct s y == .migrate) == some true,
    let s := atSwitch {} 0;
    varptWaits s gang0 == [(7, 0)] && ((s.gang? gang0).map fun y => (y.st == .resident, y.want.preempt)) == some (true, none) && s.tick < 320000,
    let w := atSwitch {} 0;
    let s : State := { w with agents := w.agents ++ w.agents.map fun x => { x with num := 1, paths := [{ st := .eligible, wait := some (.varpt 8 9 0 true) }] } };
    varptWaits s gang0 == [(7, 0), (8, 0)]] := by decide +kernel

/-- A reckoned page at 0x40000000: one descriptor, units of two lines, 4 KiB. -/
def reckoned (s : State) : State :=
  { s with loc := [(0x18000B, 0x40), (0x180011, 0x10), (0x180018, 1), (0x18001B, 1)], ctxs := s.ctxs.map (fun c => { c with rktab := 0x180000, rkcount := 1, stgquota := 4 }), tlb := { asn := 0, page := 0x40000, leaf := { rk := true, r := true, w := true } } :: s.tlb }

/-- A fill of the page's first unit, launched as the wave's gang. -/
def fill0 : Fill := { id := 4, ctx := 256, asn := 0, rkidx := 0, unit := 0, base := 0x800000, nlines := 2, depth := 1, prio := 0, budget := 0, param := 0, missva := 0, kernel := {}, clock := 0, created := 0, launched := some gang0 }

def filling (f : Fill) (v : List (Nat × Word)) : State := { reckoned (waveBut (fun x => { x with fill := true }) v) with fills := [f] }

/-- Its own lines and one beyond, committed before and stale; units of an interval, a pin at 0, at its limit, over its quota. -/
theorem witness_fills : all [
    issuesB (filling fill0 [(128, 0x40000000)]) { guard := .pos 1 } { pilot := false, regs := [(4, 2), (6, 1)], feature := some 0, fill := true, base := 8, lane := 6 } (fun _ => true),
    ((filling fill0 []).agentFill 0) == some fill0 && ((filling fill0 []).fill? 4) == some fill0,
    fill0.base ≤ 0x40000080 / 128 && 0x40000080 / 128 < fill0.base + fill0.nlines && !(0x40000100 / 128 < fill0.base + fill0.nlines),
    ((filling { fill0 with stale := true } []).agentFill 0).map (·.stale) == some true && ((filling { fill0 with committed := [0x800000] } []).agentFill 0).map (·.committed) == some [0x800000],
    (filling fill0 []).relaxed.isEmpty && ((filling fill0 []).wavesOf gang0 0).map (·.num) == [0] && ((filling fill0 []).bundle 0 0).isSome,
    let s := reckoned (wave [] [] []);
    unitsIn s (s.ctxOf gang0) false 0x40000000 1 == [(0, 0)] && (unitsIn s (s.ctxOf gang0) false 0x40000000 0x1000).length == 16 && unitsIn s (s.ctxOf gang0) false 0x1000 1 == []
      && unitSpan s (s.ctxOf gang0) (0, 0) == (0x800000, 2) && s.pinOf 256 (0, 0) == 0 && quotaUsed s (s.ctxOf gang0) + 2 ≤ 4,
    let w := reckoned (wave [] [] []);
    let s : State := { w with pins := [{ ctx := 256, rkidx := 0, unit := 0, count := 255 }, { ctx := 256, rkidx := 0, unit := 1, count := 1 }] };
    s.pinOf 256 (0, 0) == 255 && s.pinOf 256 (0, 1) == 1 && (s.ctxOf gang0).stgquota < quotaUsed s (s.ctxOf gang0) + 2] := by decide +kernel

/-! ### Special registers, stamps, traps, contexts -/

/-- Registers read and written in each mode, and not; the supervisor registers' limits. -/
theorem witness_sregs : all [(sregAccess 0).allows false false, !(sregAccess 0).allows true true, !(sregAccess 0x800).allows false false, (sregAccess 0x800).allows false true, !(sregAccess 0x806).allows true true,
    (sregAccess 0x102).allows true false, !(sregAccess 0x801).allows true false, (sregAccess 0x801).allows true true] := by decide +kernel

/-- A wave with the trace on, in a ring with room; one with it off; a trail of tag 5. -/
theorem witness_stamps : all [
    ((wave [] [] []).agent? 0).map (traced (wave [] [] [])) == some false,
    let w := gangBut (fun y => { y with ctx := 0 }) (wave [] [] []);
    let s : State := { w with regs := { w.regs with trctl := 1, trlog := 12 } };
    (s.agent? 0).map (traced s) == some true && room s 64,
    issuesB (oneLane [(128, 0x1000)] []) { guard := .pos 1 } (memNeed [(9, 2), (4, 2)]) (fun k => let s := issued (oneLane [(128, 0x1000)] []) k (memNeed [(9, 2), (4, 2)]);
      match checkLanes s k.gang k.sup .write 8 [(0, 0x1000)] (storeRule .b64) with
      | .go [p] [] => !jobEdge s (s.ctxOf k.gang).id p.va 8 && s.relaxed.isEmpty
      | _ => false),
    issuesB (oneLane [(128, 0x1004)] []) { guard := .pos 1 } (memNeed [(9, 2), (4, 2)]) (fun k => (faultOf (checkLanes (oneLane [] []) k.gang k.sup .write 8 [(0, 0x1004)] (storeRule .b64))).map (·.1) == some 0x03),
    ({ oneLane [(128, 5)] [] with trails := [{ tag := 5, t0 := 0, t1 := 0 }] } : State).trails.any fun r => r.tag == 5 && r.marks.isEmpty] := by decide +kernel

/-- A path whose agent may take a trap, with one due. -/
def trapDue : State :=
  pathBut fun q => { q with bun := none, due := [{ code := 0x60, kind := 2, mask := 1, info := 0, pc := 0x20000, sup := false }] }

/-- Supervisor instructions issue in supervisor mode; stops that are armed; a trap of each form that is due; a handler that is there, one that is not. -/
theorem witness_traps : all [
    issuesB (waveBut (fun x => { x with sup := true }) []) {} { pilot := false, sup := true } (fun _ => true),
    let w := wave [] [] [];
    let s : State := { w with regs := { w.regs with stoparm := [(4, 1)] } };
    stopsArmed s 256 && s.stops.length < 64 && !stopsArmed w 256,
    let s := trapDue;
    match s.agent? 0, s.path? 0 0 with
      | some x, some q => mayIssue s x 0 q && q.bun.isNone && !q.trapHeld && q.wait.isNone && q.due.all (fun f => f.sup == x.sup)
      | _, _ => false,
    let r : Redo := { pc := 0x20000, lanes := 1, flt := some { code := 0x03, kind := 0, mask := 1, info := 0, pc := 0x20000, sup := false } };
    let s := midBundle [] [r];
    match s.agent? 0, s.path? 0 0 with
      | some x, some q => mayIssue s x 0 q && (q.bun.map fun b => (b.rest.isEmpty, b.redo)) == some (true, [r])
      | _, _ => false] := by decide +kernel

/-- A wave with a handler's record at TRAPVEC: the handler at 0x20000, the frames from 0x8000. -/
def trapping (vec : Dword) (m : List Host.Cell) : State :=
  let s := wave [] [] m
  { s with ctxs := s.ctxs.map fun c => { c with trapvec := vec } }

theorem witness_trap_entry : all [
    let s := trapping 0 [];
    (s.agent? 0).map (fun x => (x.pilot, x.sup, (readTrapvec s x).1)) == some (false, false, 0),
    let s := trapping 0x4078 [(0x407A, 2), (0x4081, 0x80)];
    ((s.agent? 0).bind fun x => let r := readTrapvec s x; (supLoad r.2 x 0x4078).bind fun h => (supLoad h.2 x 0x4080).bind fun f =>
      (s.path? 0 0).bind fun q => (supStores f.2 x ((f.1 + 1024 * x.num) % 2 ^ 64) (frameBytes x 0 q { code := 0x03, kind := 0, mask := 1, info := 0, pc := 0x20000, sup := false } 0x20000)).map fun _ => (h.1, f.1))
      == some (0x20000, 0x8000)] := by decide +kernel

/-- Inside a handler, with a frame in host memory for the path's lanes at 0x8000, resuming at 0x2000C, at no slot, and for other lanes. -/
def inHandler (pc lanes : BitVec 8) : State :=
  let s := waveBut (fun x => { x with sup := true, frame := 0x8000 }) []
  { s with host := [(0x8010, pc), (0x8012, 2), (0x8020, lanes), (0x8021, 0xFF), (0x8022, 0xFF), (0x8023, 0xFF)], tlb := { asn := 0, page := 8, leaf := { target := 2, pfn := 8, r := true, w := true } } :: s.tlb }

def frameCase (s : State) : Option (Bool × Bool) :=
  (s.agent? 0).bind fun x => (s.path? 0 0).bind fun q => (readFrame s x).map fun r => (leField r.1 32 4 == q.xmask.toNat, [0, 12, 24, 36, 48].contains (leField r.1 16 8 % 64))

theorem witness_trap_return : all [frameCase (inHandler 0x0C 0xFF) == some (true, true), frameCase (inHandler 0x0D 0xFF) == some (true, false),
    frameCase (inHandler 0x0C 0) == some (false, true)] := by decide +kernel

/-- Pages that a TLBI names and that it does not; a job that has locked one; an interval that reaches 2^57 and one beyond. -/
theorem witness_tlb : all [(Inv.range 0 0x1000 1).covers 0 0x1000 4096, !(Inv.asn 1).covers 0 0x1000 4096,
    let s := wave [] [] [];
    (lockHolders s .all).isEmpty,
    let w := wave [] [] [];
    let s : State := { w with jobs := [{ id := 5, ctx := 256, cluster := 0, chan := 0, kind := 0, gang := gang0, locks := w.tlb }] };
    lockHolders s .all == [5],
    let w := wave [] [] [];
    (oldUsers w .all).isEmpty && !(oldUsers { w with blocks := w.blocks.map fun b => { b with engq := [{ id := 1, agent := 0, instr := .nop, ts := [{ row := 0, block := none, dest := [], va := 0, len := 16 }] }] } } .all).isEmpty] := by decide +kernel

/-- A save with slots and one without; engines idle and not; a slot that holds a suspended gang. -/
theorem witness_suspend : all [
    let w := wave [] [] [];
    (saveGang w gang0 3 none).isSome && enginesIdle w gang0 && (saveGang { w with regs := { w.regs with cssize := 0 } } gang0 3 none).isNone,
    let w := wave [] [] [];
    !enginesIdle { w with blocks := w.blocks.map fun b => { b with engq := [{ id := 1, agent := 0, instr := .nop }] } } gang0,
    let s : State := { wave [] [] [] with slotRuns := [{ first := 3, len := 1, state := 3, ctx := 256, gang := gang0, saved := 0, swid := 0 }] };
    (s.slotRuns.find? fun r => r.first == 3 && r.state == 3 && r.ctx == (s.ctxOf gang0).id).isSome && (s.slotRuns.find? fun r => r.first == 4).isNone && (s.gang? gang0).isSome] := by decide +kernel

/-! ### Happenings -/

/-- A result that can become visible, a line that reads with good parity and with bad, a path that was ready for 31 and for 32 clocks. -/
theorem witness_results_lines : all [
    let p : Pend := { id := 9, agent := 0, path := 0, pc := 0, wins := [], cnt := 1, writes := [(0, 1)] };
    let s : State := { wave [] [] [] with pend := [p] };
    s.pend.find? (fun q => q.id == p.id && q.agent == p.agent) == some p && ((s.agent? 0).map fun x => x.ending) == some false,
    let s := wave [] [] [];
    match s.ctx? 256 with
      | some c => (match tr s c true .fetch 0x20000 with | .ok _ _ _ => true | _ => false) && parityOk (lineOfBytes (s.readHome .loc 0x20000 64)) && !parityOk (lineOfBytes (s.readHome .loc 0x20000 64) ^^^ 1)
      | none => false,
    let s := pathBut fun q => { q with bun := none };
    match s.agent? 0, s.path? 0 0 with
      | some x, some q => mayRun s x q && !q.overdue && q.ready < 32 && mayRun s x { q with ready := 32 }
      | _, _ => false] := by decide +kernel

/-- Paths that wait for a translation, whose entry has become valid and is still invalid; a fill's node with all its lines; a unit that may be evicted. -/
theorem witness_memory_waits : all [
    let s := pathBut fun q => { q with st := .parked, park := some (.xlate { va := 0x1000, pte := 0x5008, level := 1, kind := 0 } [(0xA0, true)] true 0) };
    (s.path? 0 0).bind (·.park) == some (.xlate { va := 0x1000, pte := 0x5008, level := 1, kind := 0 } [(0xA0, true)] true 0),
    let s := pathBut fun q => { q with st := .parked, park := some (.xlate { va := 0x1000, pte := 0x5008, level := 1, kind := 0 } [(0xA0, false)] true 0) };
    (match translate s (s.ctxOf gang0) 0x1000 with | .invalid _ _ => false | _ => true) && (match translate { s with tlb := [] } (s.ctxOf gang0) 0x1000 with | .invalid _ _ => true | _ => false),
    let n : Node := { id := 2, who := .path 0 0, fill := none, prio := 0, deadline := 0, lines := [0x800000] };
    let s := filling { fill0 with nodes := [n], committed := [0x800000] } [];
    (s.fill? 4).map (fun f => (f.nodes, f.nodes.all fun n => n.lines.all f.committed.contains)) == some ([n], true),
    let w := reckoned (wave [] [] []);
    let s : State := { w with rkLines := [{ asn := 0, line := 0x800000 }] };
    (rkDesc s (s.ctxOf gang0) 0).ok && evictable s (s.ctxOf gang0) (0, 0) && (rkDesc s (s.ctxOf gang0) 0).rlen / 128 / 2 == 16] := by decide +kernel

/-- A queue's descriptor that is well formed, with its kernel at 0x4000; a launch whose staging waits. -/
def kernelCells : List Host.Cell := [(0x4000, 1), (0x4001, 1), (0x4014, 8), (0x4016, 1)]
def enabling (m : List Host.Cell) : State := { queued 0 0 with loc := kernelCells ++ m }
def descCells : List Host.Cell := [(0x100041, 0x40), (0x10004A, 0x20), (0x100060, 0x40), (0x100062, 4), (0x100068, 2), (0x10006A, 1)]

theorem witness_queues : all [
    (enableCode (enabling descCells) 1).1 == 1 && (qdesc (enabling descCells) 1).ok, (enableCode (enabling []) 1).1 == 3,
    (queued 1 0).queue 1 == { q := 1, status := 1 } && 16 - 0 ≤ 2 ^ (qdesc (enabling descCells) 1).logcap && 2 ^ (qdesc (enabling descCells) 1).logcap < 17,
    let e := enabling descCells;
    let s : State := { e with queues := [{ q := 1, tail := 2, status := 1, pendingAt := [(2, 0)] }] };
    (s.queues.filter s.eligibleQ).map (·.q) == [1] && (e.queues.filter e.eligibleQ).isEmpty,
    let s : State := { wave [] [] [] with launches := [{ launchOf false with stgStart := some 0, stgLines := [(.loc, 5)] }] };
    (s.launches.find? fun m => m.id == 1).map (·.stgStart) == some (some 0)] := by decide +kernel

/-- A launch that can be placed, one that fits nowhere, a gang whose blocks are over, a pre-emption that is late, a gang on its way, a fill that is due, and a
gang held by reckoning. -/
theorem witness_gangs : all [
    let s : State := { wave [] [] [] with launches := [{ launchOf false with ngang := 1, staged := true, bind := [2147483648], kernel := { variants := [{ regs := 8, waves := 1 }] } }], gangs := [] };
    ((candidates s).findSome? fun c => (feasible s c).map fun p => (c, p)).isSome && ((candidates (wave [] [] [])).isEmpty),
    let s : State := { wave [] [] [] with cores := (List.range 4).map (fun c => { core := c, fenced := true }), launches := [{ launchOf false with ngang := 1, staged := true, bind := [2147483648], kernel := { variants := [{ regs := 8, waves := 1 }] } }], gangs := [] };
    !(candidates s).isEmpty && (candidates s).all fun c => (feasible s c).isNone,
    let w := wave [] [] [];
    let s : State := { w with blocks := w.blocks.map fun b => { b with ended := true } };
    ((s.gang? gang0).map fun y => (y.st == .waiting, (partners s y).all fun z => blocksOver s z.key && z.st != .waiting, decide (y.fw * y.fh ≤ 1), y.reexec)) == some (false, true, true, none)
      && ((w.gang? gang0).map fun y => (partners w y).any fun z => !blocksOver w z.key) == some true,
    let w := atSwitch { preempt := some 0 } 0;
    ((w.gang? gang0).map fun y => (y.want.preempt, y.st == .resident, enginesIdle w y.key, blocksOver w y.key, (newSave w y.key 2 none).isSome)) == some (some 0, true, true, false, true),
    ((gangBut (fun y => { y with migrating := true }) (wave [] [] [])).gang? gang0).map (·.migrating) == some true,
    (nextFill { filling { fill0 with launched := none } [] with agents := [], blocks := [] }).isSome && (nextFill (wave [] [] [])).isNone,
    let w := pathBut fun q => { q with st := .parked, park := some (.reckon 0) };
    let s : State := { w with cores := (List.range 4).map (fun c => { core := c, fenced := true }), launches := [{ launchOf false with id := 2, ngang := 1, staged := true, bind := [2147483648], kernel := { variants := [{ regs := 8, waves := 1 }] } }] };
    s.gangs.length == 1 && ((s.gang? gang0).map fun y => ((heldSince s y).isSome, enginesIdle s y.key)) == some (true, true) && someFitsNowhere s (fun _ => true)] := by decide +kernel

/-- Descriptors a create takes and refuses; a context alone; features offered; a fixed-clock mode that can be entered; power over the limit for 10 ms. -/
theorem witness_host : all [
    let w := wave [] [] [];
    let s : State := { w with loc := [(0x140, 4)], ctxs := [] };
    createCode s 2 (s.readHome .loc (ctxDescAt s 2) 128) == 1 && createCode s 3 (s.readHome .loc (ctxDescAt s 3) 128) == 3 && (s.ctx? 2).isNone && !(barWrite s).regs.featDone && (barWrite s).feature 9,
    let w := wave [] [] [];
    let s : State := { w with gangs := [] };
    (s.ctx? 256).map (·.cstate) == some 1 && s.launches.isEmpty && s.queues.isEmpty && s.fills.isEmpty && s.colls.isEmpty,
    let s : State := { State.reset with ctxs := [{ id := 2, cstate := 2 }] };
    (s.ctx? 2).map (·.cstate) == some 2 && s.jobs.isEmpty && s.gangs.isEmpty,
    let r := State.reset;
    let s : State := { r with tick := 160000000, overSince := some 0, regs := { r.regs with fixed := true } };
    s.regs.powerlim < 900001 && 0 + 10000000 * 16 ≤ s.tick] := by decide +kernel

/-- Requests that are too short, of another version, out of order, and in order, on a transport that is on and one that is off. -/
theorem witness_responder : all [transportOn State.reset 0, !transportOn State.reset 1, leField [0x13, 0x81, 0, 0] 1 1 == 0x81, ([0x13, 0x81, 0, 0] : List Byte).length == 4, leField [0x12, 0x81, 0, 0] 0 1 != 0x13,
    State.reset.attest.stage < 3, ({ State.reset with attest := { State.reset.attest with stage := 3 } } : State).attest.stage == 3, leField [0x10, 0x84, 0, 0] 0 1 == 0x10,
    State.reset.attest.measPart.length + 8 < 64, (List.replicate 56 (0 : Byte)).length + 8 == 64] := by decide +kernel

/-- A gang that has stalled for 2 s; a core at 110 and at 109 degrees, cool since, stopped; gangs that an error finds. -/
theorem witness_health : all [
    let w := wave [] [] [];
    let s : State := { w with tick := 32000000000 };
    (s.gang? gang0).map (stalled s) == some true && (w.gang? gang0).map (stalled w) == some false,
    let r := State.reset;
    let s := r.setCore { core := 7, temp := some (110 * 16) };
    (s.core 7).temp == some 1760 && !(s.core 7).stopped && (gangsOn s 7).isEmpty && s.fills.isEmpty && s.gangs.isEmpty,
    let s := State.reset.setCore { core := 7, stopped := true, coolSince := some 0 };
    (s.core 7).stopped && (s.core 7).coolSince == some 0 && s.tick < 16000000,
    let s := wave [] [] [];
    (s.gang? gang0).map (fun y => (y.reexec, y.fill, (kernelOfGang s y).restart)) == some (none, false, false) && (s.gang? { launch := 9, idx := 9 }).isNone && !(s.core 0).transient,
    let s := State.reset;
    (List.replicate 1024 (0 : Int)).length == 1024 && (s.bankOf 3).last + 7800 / (s.bankOf 3).mult * 16 ≤ 124800 && (s.tester 3).spares != 0 && !(s.tester 3).testing && (s.tester 3).retired.length < 32
      && !(s.tester 3).fails.contains (s.tester 3).group && turnDue s (s.tester 3) && s.tick / 128000 ≤ s.sampledIn && s.tick / 1024000 ≤ s.allowedIn && s.tick / 16000000 ≤ s.rotatedIn,
    let s : State := { State.reset with tick := 16000000 };
    s.sampledIn < s.tick / 128000 && s.allowedIn < s.tick / 1024000 && s.rotatedIn < s.tick / 16000000,
    let s := State.reset.setTester { slice := 3, round := 1 };
    !turnDue s (s.tester 3) && !turnDue State.reset { slice := 3, retry := 1 },
    let s := State.reset.setTester { slice := 3, spares := 0, fails := [0] };
    (s.tester 3).spares == 0 && (s.tester 3).fails.contains (s.tester 3).group] := by decide +kernel

/-- A trace ring of a size that is taken and of sizes that are not; a breakpoint that a path matches; a held path; a loss that is due. -/
theorem witness_trace : all [
    let b := barWrite State.reset;
    !b.regs.trctl.getLsbD 0 && b.regs.trlog < 12 && ([12, 30] : List Nat).all fun n => 12 ≤ n && n ≤ 30,
    let w := (pathBut fun q => { q with bun := none });
    let s : State := { w with ctxs := w.ctxs.map (fun c => { c with id := 0 }), gangs := w.gangs.map (fun y => { y with ctx := 0 }), regs := { w.regs with stoparm := [(0, 1)], bkpt := [(0, 0x20000), (1, 0x100)] } };
    match s.agent? 0, s.path? 0 0 with
      | some x, some q => mayIssue s x 0 q && stopOf s (s.ctxOf x.gang).id x.pilot q == some 0 && s.stops.isEmpty
      | _, _ => false,
    let s : State := { (pathBut fun q => { q with st := .stopped }) with stops := [{ slot := 0, pc := 0x20000, agent := 0, path := 0, ctx := 0, cause := 0, xmask := 1 }] };
    (stopNamed (barWrite s) 0 0 0).isSome && ((barWrite s).path? 0 0).map (·.st == .stopped) == some true && (stopNamed (barWrite s) 1 0 0).isNone,
    let r := State.reset;
    let s : State := { r with regs := { r.regs with trctl := 1, trlog := 12, trpending := 3 } };
    s.regs.trctl.getLsbD 0 && s.regs.trpending != 0 && room s 216 && !room { s with regs := { s.regs with trwidx := 3881 } } 216] := by decide +kernel

/-- A display whose registers are acceptable, one whose link cannot carry it; a transaction under way; a flip at the end of memory and one beyond; a trail. -/
def display : Disp := { out := 0, hpd := true, htiming := 0x0010001000A00050, vtiming := 0x00100010009A0040, pclk := 25000, stride := 320, training := true }

theorem witness_outputs : all [display.acceptable 1, !({ display with pclk := 24999 } : Disp).acceptable 1, !({ display with stride := 319 } : Disp).acceptable 1, display.needs ≤ linkPayload 0 0,
    linkPayload 0 0 < ({ display with pclk := 1300000, format := 2 } : Disp).needs,
    let s := State.reset.setDisp { display with dpctl := 1, trained := true, pending := some (0, some 5), auxBusy := some (9, 0, 16) };
    (s.disp 0).scans && (s.disp 0).pending == some (0, some 5) && (s.disp 0).auxBusy == some (9, 0, 16) && s.disps.any (fun d => d.out == 0),
    let s := State.reset.setDisp { display with dpctl := 1, trained := true, scanTag := some 5 };
    (s.disp 0).scanTag == some 5 && (s.disp 0).scans && ({ s with trails := [{ tag := 5, t0 := 0, t1 := 0 }] } : State).trail? 5 == some { tag := 5, t0 := 0, t1 := 0 },
    let r := State.reset;
    let s : State := { r with regs := { r.regs with feat := 0x1FFF, wtring := 0x1000, wtlog := 4 } };
    trailOn (barWrite s) && !trailOn (barWrite r) && (barWrite s).feature 10 && !(barWrite r).feature 10] := by decide +kernel

/-- A port that is on, with a frame posted that is well formed and one that is refused, a frame it wants, gates that are pending, at a cycle's and an interval's end. -/
def portOn : State :=
  let r := State.reset
  { r with regs := { r.regs with feat := 0x1FFF }, tick := 10000, host := [(8, 14), (40, 13)], ports := [{ port := 0, pctl := 3, link := true, txlog := 4, txtail := 1 }, { port := 1, pctl := 3, link := true, txlog := 4, txhead := 1, txtail := 2 }] }

theorem witness_ports : all [
    let s := portOn;
    s.feature 11 && (s.port 0).en && (s.port 0).link && (s.port 0).posted == [0] && !txRefused (s.readHome .host ((s.port 0).txDesc 0) 32) && (nextTx s (s.port 0)).isSome && (s.port 0).busyUntil ≤ s.tick,
    let s := portOn;
    (s.port 1).posted == [1] && txRefused (s.readHome .host ((s.port 1).txDesc 1) 32) && s.ports.any fun x => x.port == 1,
    let f : List Byte := List.replicate 6 0xFF ++ List.replicate 54 0;
    let x := portOn.port 0;
    x.wants f && !x.isArp f && !x.isSolicit f && (x.tcpPayload f).isNone && 14 ≤ f.length && beField f 12 2 != 0x88F7,
    let x : Port := { port := 0, gateEnabled := true, cfgPending := some 5000 };
    x.gateEnabled && x.cfgPending == some 5000 && 5000 ≤ portOn.tick,
    let x : Port := { port := 0, gateEnabled := true, operLen := 2, operCycle := 9000, cycleStart := 0, entryEnd := 4000 };
    x.gating && x.operIdx + 1 < x.operLen && x.entryEnd ≤ portOn.tick && x.entryEnd < x.cycleStart + x.operCycle && x.cycleStart + x.operCycle ≤ portOn.tick && x.cfgPending.isNone,
    let r := State.reset;
    ({ r with regs := { r.regs with syncPort := 0 } } : State).regs.syncPort != 3] := by decide +kernel

/-! ### More clauses, one by one -/

/-- A bundle of the wave's path with its slot and exits, lanes and claims. -/
def bundleBut (f : Bun → Bun) : State := pathBut fun q => { q with bun := q.bun.map f }

/-- The issue of a bundle: lanes that may all go, none of which may, and a line of invalid form; REGROUP as the last of its bundle and before another, with an EXIT
that leaves lanes and none; two waves that wait at one PC; a bundle that is over; a slot with a higher one done. -/
theorem witness_bundles : all [
    let b : Bun := { first := 0x20000, next := 0x2000C, rest := [], src := {}, lanes := 0xFFFFFFFF, slots := [0x20000] };
    b.goers 256 0 == some 0xFFFFFFFF,
    -- v4 holds 0x20040 in lane 0 and 0x20080 elsewhere; BRX v4
    let line := oneSlotLine ((encode (.brx { a := 4 })).getD 0);
    let b : Bun := { first := 0x20000, next := 0x20040, rest := [], src := { v := [(128, 0x20040)] ++ (List.range 31).map fun l => (129 + l, 0x20080) }, lanes := 0xFFFFFFFF, line := line, slots := [0x20000] };
    b.goers 256 1 == some 0xFFFFFFFF && (b.goers 256 0).isNone,
    let w := ready 0 [] [] [];
    let s : State := { w with fetch := w.fetch.map fun f => { f with ok := false } };
    (s.agent? 0).isSome && (s.fetchLine? 0 0 0x20000).map (·.ok) == some false,
    let s := bundleBut fun b => { b with rest := [], redo := [] };
    (s.bundle 0 0).map (fun b => (b.rest, b.redo.length, b.exits)) == some ([], 0, 0),
    let s := bundleBut fun b => { b with rest := [0x2000C] };
    (s.bundle 0 0).map (·.rest) == some [0x2000C],
    let s := bundleBut fun b => { b with rest := [], redo := [], exits := 1 };
    ((s.path? 0 0).bind fun q => q.bun.map fun b => q.xmask &&& ~~~b.exits) == some 0xFFFFFFFE,
    let w := (pathBut fun q => { q with wait := some (.regroup 8), xmask := 0xFF });
    let s : State := { w with agents := w.agents ++ w.agents.map fun x => { x with num := 1, idx := 1 } };
    s.agents.map (fun x => (atRegroup s x).map fun r => (r.1, r.2.1.pc, r.2.2)) == [some (0, 0x20000, 8), some (0, 0x20000, 8)],
    let s := midBundle [] [];
    (s.path? 0 0).bind (fun q => q.bun.map fun b => q.xmask &&& ~~~b.lanes) == some 0,
    let s : State := { (bundleBut fun b => { b with slots := [0x20000, 0x2000C], now := some (0x20000, false), rest := [0x2000C], claims := [(32, 0x2000C)], since := 5 }) with pend := [{ id := 7, agent := 0, path := 0, pc := 0x20000, wins := [], cnt := 1, writes := [(32, 1), (33, 2)], dest := [32, 33] }] };
    ((s.bundle 0 0).map fun b => (slotWrites s 0 0 b 0).1.pend.map (·.writes)) == some [[(33, 2)]]] := by decide +kernel

/-- A reader of a result in flight; a result one of whose lanes was overwritten; a completion trap that TRAPEN enables. -/
theorem witness_in_flight : all [
    let p : Pend := { id := 3, agent := 0, path := 0, pc := 0, wins := [], cnt := 1, writes := [(0, 1), (32, 2), (1, 3)], covered := [0, 32], trapen := 1, traps := [(0x12, 3, 0)] };
    let s : State := { wave [] [] [] with pend := [p] };
    (inFlight s 0 4).map (·.id) == [3] && (inFlight s 0 3).isEmpty && shownWrites s { p with covered := [] } == p.writes && p.covered.all (fun k => p.writes.any fun w => w.1 == k)
      && ((s.agent? 0).map fun x => (shownTraps x p).map (·.code)) == some [0x12] && ((s.agent? 0).map fun x => (shownTraps x { p with trapen := 0 }).isEmpty) == some true] := by decide +kernel

/-- A query that is refused whole; rows of TLD and TST that pass, that miss their page; a fill's CPYQ; a wave alone without an entry; a matrix card's permit. -/
theorem witness_more_units : all [
    let bad (ok : List (Nat × LaneQ)) : List Nat := (ok.filter fun r => r.2.regs.isEmpty).map (·.1);
    bad [(0, { regs := [] })] == [0] && bad [(0, { regs := [(0, 0)] })] == [],
    let s := { tileWave false [(128, 0x1000), (192, 64)] with tlb := [] };
    issuesB s { guard := .pos 1 } { engNeed [(4, 2), (6, 1)] with pilot := false, base := 0 } (fun k => match tileRows s (s.ctxOf k.gang) k.sup .read (1, 1, 3) (tileBase k { a := 4, b := 6 }).1 (tileBase k { a := 4, b := 6 }).2 with | .miss _ => true | _ => false),
    ((filling fill0 []).agentFill 0).isSome && ((oneLane [] []).agentFill 0).isNone,
    let s := oneLane [] [];
    s.sharedFree 0 && s.reserveFree 0 (entryKey false gang0 0 0),
    let s := oneLane [] [];
    s.permitsFree gang0 0 == 32 && ((s.blockOf? gang0 0).bind fun b => b.rsv.find? fun e => e.1 == 0).isNone] := by decide +kernel

/-- A slice with room takes a line as it is. -/
theorem witness_slice_room : sliceRoom (filling fill0 []) 0 0x800000 = filling fill0 [] := by
  simp only [sliceRoom]
  exact if_pos (by decide +kernel)

/-- A request that stands and none; a payload that cannot be read, and one that is poisoned; a job over the queue's next record; saves that wait; relaxed stores that a
moved gang's old core still forwards; a frame over what a job writes; a line's slice with room; a unit that no context has pinned; a line of a pool. -/
theorem witness_more_waits : all [
    ((gangBut (fun y => { y with request := true }) (ofLaunch false)).gang? gang0).map (·.request) == some true && ((ofLaunch false).gang? gang0).map (·.request) == some false,
    let s := { queued 1 0 with tlb := [{ asn := 0, page := 0, leaf := { logSize := 36, w := true } }] };
    (issOf s (.pos 1)).map (fun p => match readSpan s p.1 0x1000 64 with | .stop _ f => f != .hold | _ => false) == some true,
    let s := { queued 1 0 with poison := [(.loc, 0x100)] };
    (issOf s (.pos 1)).map (fun p => match readSpan s p.1 0x1000 64 with | .poison _ 0x12 _ => true | _ => false) == some true,
    let w := queued 1 0;
    let d := qdesc w 1;
    let s : State := { w with jobs := [{ id := 5, ctx := 0, cluster := 0, chan := 0, kind := 0, gang := gang0, regions := [{ va := recordAt d 0, len := 64, write := true }] }] };
    jobEdge s 0 (recordAt d 0) d.recsz && !jobEdge w 0 (recordAt d 0) d.recsz,
    let s := gangBut (fun y => { y with migrating := true, fwd := [(0, 5)] }) { wave [] [] [] with relaxed := [{ agent := 0, sp := .scr gang0 0, addr := 8, bytes := [1], since := 0 }] };
    ((s.gang? gang0).map fun y => ((drainForwards s y).relaxed.isEmpty, y.fwd)) == some (true, [(0, 5)]),
    let w := trapping 0x4078 [(0x407A, 2), (0x4081, 0x80)];
    let s : State := { w with jobs := [{ id := 5, ctx := 256, cluster := 0, chan := 0, kind := 0, gang := gang0, regions := [{ va := 0x8000, len := 16, write := true }] }] };
    trapWaits s 0 && !trapWaits w 0,
    let s := filling fill0 [];
    (s.rkLines.filter fun r => rkSlice r.asn (r.line * 128) == rkSlice 0 (0x800000 * 128)).length < sliceLines s && s.asks.isEmpty,
    let w := reckoned (wave [] [] []);
    !w.pinned 0 0x800000 && ({ w with pins := [{ ctx := 256, rkidx := 0, unit := 0, count := 1 }] } : State).pinned 0 0x800000,
    (match exec (.dieUncorrectable 3 0x1000 (4 + 2)) State.reset with | .next t => t.poisoned (.pool 2) 0x1000 128 && !t.poisoned .loc 0x1000 128 | _ => false)] := by decide +kernel

/-! ### Invariants -/

/-- A state whose memories are in canonical form and that steps; and one whose memory is not. -/
theorem witness_canonical : all [
    let s := ready 0 [] [] [(3, 1), (5, 2)];
    decide s.memWf && goesOn (step s), !decide (ready 0 [] [] [(5, 2), (3, 1)]).memWf, !decide (ready 0 [] [] [(3, 0)]).memWf] := by decide +kernel

/-! ### Clauses over several lanes, agents and happenings -/

/-- Lanes 0 and 1 of a wave with a block of scratchpad. -/
def twoLanes (v : List (Nat × Word)) : State :=
  let w := wave v [(0, 2), (1, 2)] []
  { w with blocks := w.blocks.map fun b => { b with scrSize := 128 }, ctxs := w.ctxs.map fun c => { c with chanstat := 0x100000 } }

/-- Two lanes that change one word of local memory, one word of the scratchpad, and none there. -/
theorem witness_atomic_chains : all [(Instr.atom { ty := .n32, d := 2, a := 4, b := 6 }).wf, (Instr.atoms { ty := .n32, d := 2, a := 4, b := 6 }).wf,
    let s := twoLanes [(128, 0x1000), (129, 0x1000)];
    let nd := atomNeed { ty := .n32, d := 2, a := 4, b := 6 } false 2;
    issuesB s { guard := .pos 1 } nd fun k => let b := issued s k nd
      match checkLanes b k.gang k.sup .atomic 4 (k.eas 4 0) (atomRule 0) with
      | .go [p, q] [] => p.sp == q.sp && p.addr == q.addr && !jobEdge b (b.ctxOf k.gang).id p.va 4 && b.relaxed.isEmpty && !b.poisoned p.sp p.addr 4
      | _ => false,
    let s := twoLanes [(128, 124), (129, 124)];
    let nd : Need := { atomNeed { ty := .n32, d := 2, a := 4, b := 6 } false 1 with pilot := false };
    issuesB s { guard := .pos 1 } nd fun k => let b := issued s k nd
      match scrCheck b k k.role 4 4 0 with
      | .inr ([p, q], _) => p.2 == q.2 && b.relaxed.isEmpty && !b.poisoned (.scr k.gang k.role) p.2 4
      | _ => false,
    let s := twoLanes [(128, 128), (129, 128)];
    let nd : Need := { atomNeed { ty := .n32, d := 2, a := 4, b := 6 } false 1 with pilot := false };
    issuesB s { guard := .pos 1 } nd fun k => match scrCheck (issued s k nd) k k.role 4 4 0 with
      | .inr ([], _) => true
      | _ => false] := by decide +kernel

/-- XMWR of zero: every lane leaves, to an entry that waits at the join PC. -/
theorem witness_mask_zero : issuesB (wave [(288, 0)] [] []) {} { pilot := false, regs := [(9, 1)] } (fun k => k.src.get 9 0 &&& k.xmask == 0) := by decide +kernel

/-- What a card at 0x1000, on a page that can only be read, comes to: within its regions, overlapping, its check's end, a page missing. -/
def cardEnds (m : List Host.Cell) (tlb : List Xlate) : Option (Bool × Bool × Option (Option Nat) × Bool) :=
  let s := { oneLane [(128, 0x1000)] m with tlb := { asn := 0, page := 1, leaf := { pfn := 1, r := true } } :: tlb }
  (issOf s (.pos 1)).map fun p => let c := s.ctxOf p.1.gang
    let bs := s.readHome .loc 0x1000 128
    let card := cardOf s c bs 0
    let rs := cardRegions bs
    let r := submitPages s c p.1.sup (rs.map (fun q => { va := q.va, len := q.len, write := q.write }) ++ card.exts) card.mis 0 []
    (card.ok && (card.exts ++ stampExt 0).all (inCard rs), selfOverlap rs, checkEnds r, match r with | .miss ms => !ms.isEmpty | _ => false)

/-- A card of a kind that is none; one that writes where it may only read; one that reads a page that is not mapped; a gang on its cluster and one that is not. -/
theorem witness_cards : all [((cardEnds [(0x1000, 9)] []).map (·.1)) == some false,
    cardEnds [(0x1000, 1), (0x1031, 0x10), (0x1038, 16), (0x103C, 3)] [] == some (true, false, some (some 0x11), false),
    cardEnds [(0x1000, 1), (0x1031, 0x20), (0x1038, 16), (0x103C, 1)] [] == some (true, false, none, true),
    let s := wave [] [] [];
    onCluster s gang0 && !onCluster (gangBut (fun y => { y with st := .waiting }) s) gang0] := by decide +kernel

/-- A sleep that is over; a wave and a pilot program at a rendezvous, at no phase, in one of their count and in one of another. -/
theorem witness_arrivals : all [
    let s := { pathBut fun q => { q with wait := some (.sleep 1024) } with tick := 1025 };
    (s.path? 0 0).bind (·.wait) == some (.sleep 1024) && 1024 < s.tick && gangRuns s gang0,
    let s := pathBut fun q => { q with wait := some (.rdzv 2 3 false) };
    let at_ (s : State) : Bool := ((s.agent? 0).map fun x => atRdzv x 2 && x.paths.all fun q => match q.wait with | some (.rdzv 2 n _) => n == 3 | _ => true) == some true;
    let phase (l : List (Nat × Nat × List Nat)) : Option (Nat × Nat × List Nat) := l.find? fun p => p.1 == 2 && p.2.2.length < p.2.1;
    at_ s && gangRuns s gang0 && phase [] == none && phase [(2, 3, [7])] == some (2, 3, [7]) && phase [(2, 4, [7])] == some (2, 4, [7]) && phase [(2, 1, [7])] == none,
    ((wave [] [] []).agent? 0).map (fun x => atRdzv x 2) == some false,
    let s := pathBut fun q => { q with wait := some (.rdzv 2 1 false) };
    let t := (s.gangAgents gang0).foldl (fun u x => rdzvAccept u x.num 2) s;
    gangRuns s gang0 && ((t.gang? gang0).bind fun y => y.rdzv.find? fun p => p.1 == 2 && p.2.2.length ≥ p.2.1) == some (2, 1, [0]),
    let s := pathBut fun q => { q with wait := some (.rdzv 2 2 false) };
    let t := (s.gangAgents gang0).foldl (fun u x => rdzvAccept u x.num 2) s;
    ((t.gang? gang0).bind fun y => y.rdzv.find? fun p => p.1 == 2 && p.2.2.length ≥ p.2.1) == none] := by decide +kernel

/-- A QAPP on a queue of another context, below 4,096 and beyond; waves short of their switch point for 20 µs. -/
theorem witness_appends : all [
    let s := queued 1 0;
    let t : State := { s with gangs := s.gangs.map fun y => { y with ctx := 256 }, ctxs := s.ctxs ++ [{ id := 256 }] };
    (issOf t (.pos 1)).map (fun p => (t.ctxOf p.1.gang).id == (qdesc t 1).ctx) == some false && (1 : Nat) < 4096,
    let w := atSwitch {} 0;
    let s : State := { w with tick := 320000, agents := w.agents ++ w.agents.map fun x => { x with num := 1, idx := 1, paths := [{ st := .eligible }] } };
    varptWaits s gang0 == [(7, 0)] && ((s.gang? gang0).map (switchPoint s)) == some none && 0 + 20000 * 16 ≤ s.tick] := by decide +kernel

/-- A completion trap due on a path, between bundles and before the slot that waited for it; a fault that stands; none; a trap block in an absent reckoned line. -/
theorem witness_standing : all [
    match trapDue.agent? 0, trapDue.path? 0 0 with
      | some x, some q => (q.dueNow x).isSome && (standing x q).isSome && trapReckon trapDue x 0 == none && !trapWaits trapDue 0 && q.wait.isNone
      | _, _ => false,
    let s := (midBundle [0x2000C] []).updPath 0 0 fun q => { q with bun := q.bun.map fun b => { b with more := 0 }, due := [{ code := 0x12, kind := 1, mask := 1, info := 0, pc := 0x20000, sup := false, mid := true }] };
    match s.agent? 0, s.path? 0 0 with
      | some x, some q => (q.dueNow x).isSome && (q.bun.map fun b => b.rest.headD b.next) == some 0x2000C && mayIssue s x 0 q
      | _, _ => false,
    match (wave [] [] []).agent? 0, (wave [] [] []).path? 0 0 with
      | some x, some q => standing x q == none
      | _, _ => false,
    let s := { reckoned (trapping 0x40000000 []) with agents := trapDue.agents, fills := [fill0] };
    match s.agent? 0, s.path? 0 0 with
      | some x, some q => (standing x q).isSome && mayIssue s x 0 q && (trapReckon s x 0).isSome
      | _, _ => false] := by decide +kernel

/-- Handlers with a bundle set aside: one refused before it began, one that faulted, one left by a completion trap at the slot its frame returns to. -/
theorem witness_saved : all [
    let bun : Bun := { first := 0x20000, next := 0x20040, rest := [0x2000C], src := {}, started := true, redo := [{ pc := 0x20000, lanes := 1 }] };
    let s := (inHandler 0x0C 0xFF).updPath 0 0 fun q => { q with saved := some bun };
    (s.path? 0 0).bind (·.saved) == some bun && bun.rest.head? == some 0x2000C && frameCase s == some (true, true)
      && (s.agent? 0).bind (fun x => (readFrame s x).map fun r => (leField r.1 16 8, leField r.1 1 1)) == some (0x2000C, 0)] := by decide +kernel

/-! ### Happenings once more -/

/-- Paths that wait on lines that all have a monitor, and on one that has none, for less than 10 µs and for longer; a TLBI of the host's while an engine has an access under it. -/
theorem witness_rewalks : all [
    let m : Miss := { va := 0x1000, pte := 0x5008, level := 1, kind := 0 };
    let p (l : List (Nat × Bool)) (t : Nat) : State := { pathBut fun q => { q with st := .parked, park := some (.xlate m l false 0) } with tick := t };
    ((p [(0xA0, true)] 0).path? 0 0).bind (·.park) == some (.xlate m [(0xA0, true)] false 0) && ((p [(0xA0, false)] 160000).path? 0 0).bind (·.park) == some (.xlate m [(0xA0, false)] false 0)
      && 0 + 10000 * 16 ≤ (p [(0xA0, false)] 160000).tick && (p [(0xA0, false)] 159999).tick < 0 + 10000 * 16,
    let w := wave [] [] [];
    let s : State := { w with blocks := w.blocks.map fun b => { b with engq := [{ id := 1, agent := 0, instr := .nop, ts := [{ row := 0, block := none, dest := [], va := 0, len := 16 }] }] } };
    oldUsers s .all == [1] && lockHolders s .all == [],
    let p : Pend := { id := 9, agent := 0, path := 0, pc := 0, wins := [], cnt := 1, writes := [(0, 1)], behind := 5 };
    let s : State := { wave [] [] [] with pend := [p] };
    !decide (p.behind ≤ s.tick) && decide (p.behind ≤ 5)] := by decide +kernel

/-- Queue 2 with the descriptor of queue 1. -/
def twoDescs : List Host.Cell := descCells ++ descCells.map fun c => (c.1 + 64, c.2)

/-- Of two eligible queues, one of higher priority, one with more batches pending, one of a lower number, and one overdue, goes first. -/
theorem witness_queue_order : all [
    let e := enabling descCells;
    let s : State := { e with queues := [{ q := 1, tail := 2, status := 1, pendingAt := [(2, 0)] }, { q := 2, tail := 2, status := 0 }] };
    s.queues.filter s.eligibleQ == [{ q := 1, tail := 2, status := 1, pendingAt := [(2, 0)] }],
    let s : State := { enabling twoDescs with queues := [{ q := 1, tail := 2, status := 1, pendingAt := [(2, 0)] }, { q := 2, tail := 4, status := 1, pendingAt := [(4, 0)] }] };
    (s.queues.map s.eligibleQ) == [true, true] && s.queues.map s.overdue == [false, false] && (qdesc s 1).prio == (qdesc s 2).prio && (qdesc s 1).batch == (qdesc s 2).batch
      && s.queues.map (·.pending) == [2, 4],
    let s : State := { enabling twoDescs with tick := 16000000000, queues := [{ q := 1, tail := 2, status := 1, pendingAt := [(2, 0)] }, { q := 2, tail := 4, status := 1, pendingAt := [(4, 8000000000)] }] };
    s.queues.map s.overdue == [true, true] && s.queues.map (fun x => x.age s.tick) == [16000000000, 8000000000]] := by decide +kernel

/-- A formation of two gangs, both over and with no matrix job, and one of which a matrix job still moves. -/
theorem witness_partners : all [
    let w := wave [] [] [];
    let s : State := { w with blocks := w.blocks.map (fun b => { b with ended := true }) ++ w.blocks.map (fun b => { b with gang := { launch := 1, idx := 1 }, ended := true }),
                              gangs := w.gangs.flatMap fun y => [{ y with fw := 2, fh := 1 }, { y with key := { launch := 1, idx := 1 }, fw := 2, fh := 1 }] };
    ((s.gang? gang0).map fun y => ((partners s y).map (·.key), (partners s y).all fun z => blocksOver s z.key && z.st != .waiting && !matrixBusy s z.key && z.reexec == none))
      == some ([gang0, { launch := 1, idx := 1 }], true),
    (wave [] [] []).asks.isEmpty] := by decide +kernel

/-- Requests in their order: the only one over the mailbox, the oldest of a queue, and one behind another; a code that is no request's. -/
theorem witness_requests : all [
    let s := State.reset;
    let req (version code n : Nat) : List Byte := [BitVec.ofNat 8 version, BitVec.ofNat 8 code] ++ List.replicate n 0;
    (arrive s 0 (req 0x10 0x84 2)).1 && !(arrive s 1 (req 0x10 0x84 2)).1 && (0xFF : Nat) ∉ spdmCodes && leField (req 0x10 0x84 2) 1 1 == 0x84,
    let req (version code n : Nat) : List Byte := [BitVec.ofNat 8 version, BitVec.ofNat 8 code] ++ List.replicate n 0;
    let s : State := { State.reset with attest := { State.reset.attest with requests := [(0, req 0x13 0xE1 18), (0, req 0x13 0xE0 43)], stage := 3 } };
    (arrive s 0 (req 0x13 0xE1 18)).1 && !(arrive s 0 (req 0x13 0xE0 43)).1 && (req 0x13 0xE1 18).length == 20 && (req 0x13 0xE0 43).length == 45
      && ({ State.reset with attest := { State.reset.attest with stage := 1 } } : State).attest.stage == 1,
    -- NEGOTIATE_ALGORITHMS that offers what the device has, and one that does not
    let req : List Byte := [0x13, 0xE3, 0, 0, 0, 0, 0, 0, 0, 1, 0, 0, 4] ++ List.replicate 19 0;
    req.length == 32 && (leField req 8 4).testBit 8 && (leField req 12 4).testBit 2 && !(leField (List.replicate 32 (0 : Byte)) 8 4).testBit 8,
    let s := { State.reset with ports := [{ port := 0 }] };
    s.ports.any fun y => y.port == 0] := by decide +kernel

/-- Errors in lines of each role, a slot with a gang in it and one without; a fixed-clock mode over its limit; a resident gang on the core. -/
theorem witness_die_roles : all [
    let w := wave [] [] [];
    let s : State := { w with slotRuns := [{ first := 3, len := 1, state := 3, ctx := 256, gang := gang0, saved := 0, swid := 0 }] };
    (s.slotRuns.find? fun r => r.state != 0xFF && r.first ≤ 3 && 3 < r.first + r.len).map (·.gang) == some gang0 && (s.blockOf? gang0 0).map (fun b => (b.ended, b.exitStatus)) == some (false, 0) && 0x300000 / 2 ^ 20 == 3
      && (s.slotRuns.find? fun r => r.state != 0xFF && r.first ≤ 4 && 4 < r.first + r.len).isNone,
    let s := { reckoned (wave [] [] []) with rkLines := [{ asn := 0, line := 0x800000 }] };
    s.resident 0 0x800000 && rkSlice 0 (128 * 0x800000) < 64,
    ((wave [] [] []).gang? gang0).map (·.st == .resident) == some true,
    let r := State.reset;
    let s : State := { r with power := 800000, regs := { r.regs with fixed := true } };
    s.regs.fixed && s.regs.powerlim != 150000 && 150000 < s.power,
    let s := State.reset.setTester { slice := 3, testing := true, began := 0, spares := 0 };
    (s.tester 3).testing && !decide ((s.tester 3).began + 2048 * 16 ≤ s.tick)] := by decide +kernel

/-- Held paths whose context's bit is cleared, with no path at a join; a path held at its join PC. -/
theorem witness_releases : all [
    let s : State := { (pathBut fun q => { q with st := .stopped, bun := none }) with stops := [{ slot := 0, pc := 0x20000, agent := 0, path := 0, ctx := 256, cause := 0, xmask := 1 }] };
    let b := barWrite s;
    b.stops.map (·.ctx) == [256] && (256 : Nat) / 64 == 4 && (b.path? 0 0).map (fun q => (q.st == .stopped, q.jpc != some q.pc)) == some (true, true)
      && ((b.agent? 0).map fun x => x.paths.all fun y => y.st != .join) == some true && b.agents.all fun x => x.paths.all fun y => y.st != .join,
    let w := wave [] [] [];
    let s : State := { (pathBut fun q => { q with st := .stopped, bun := none }) with
      ctxs := w.ctxs.map (fun c => { c with id := 2 }), gangs := w.gangs.map (fun y => { y with ctx := 2 }), stops := [{ slot := 0, pc := 0x20000, agent := 0, path := 0, ctx := 2, cause := 0, xmask := 1 }] };
    (barWrite s).stops.map (·.ctx) == [2] && ((barWrite s).path? 0 0).map (·.st == .stopped) == some true && !(0 : BitVec 64).getLsbD (2 % 64) && 2 / 64 == 0] := by decide +kernel

/-- Ports: a frame of its own before what was posted and behind it, a free descriptor and none, a gate that is shut; the grandmaster of one port, of the other, of none. -/
theorem witness_port_order : all [
    let x := portOn.port 0;
    x.classOf 0 == 0 && (match oldestTx portOn x 0 with | some (.posted 0 _ _) => true | _ => false) && (oldestTx portOn { x with own := [(0, [1])] } 0 == some (.own [1]))
      && (match oldestTx portOn { x with own := [(1, [1])] } 0 with | some (.posted 0 _ _) => true | _ => false) && oldestTx portOn x 5 == none,
    let x := portOn.port 0;
    (nextTx portOn { x with txhead := 1, sent := [] }).isNone && (nextTx portOn x).isSome && (nextTx portOn { x with txhead := 1, own := [(1, [1])] } == some (.own [1])),
    portOn.ports.any (fun y => y.port == 0) && (portOn.port 0).rxhead == (portOn.port 0).rxtail,
    let x : Port := { portOn.port 0 with rxlog := 4, rxtail := 1 };
    x.rxhead != x.rxtail && 4 ≤ x.rxlog.toNat && x.rxlog.toNat ≤ 14,
    (bestMaster { State.reset with ports := [{ port := 0 }, { port := 1 }] }).isNone && (bestMaster { State.reset with ports := [{ port := 0 }, { port := 1, master := some 0 }] }) == some 1
      && (bestMaster { State.reset with ports := [{ port := 0, master := some 0 }, { port := 1, master := some 0 }] }) == some 0,
    let arp : List Byte := List.replicate 6 0xFF ++ List.replicate 6 0 ++ [8, 6, 0, 1, 8, 0, 6, 4, 0, 1] ++ List.replicate 16 0 ++ [10, 0, 0, 1] ++ List.replicate 18 0;
    let x : Port := { portOn.port 0 with ipv4 := 0x0A000001 };
    x.isArp arp && 14 ≤ arp.length && beField arp 12 2 != 0x88F7] := by decide +kernel
end Sys2Proof.Tests
end

section
/-! PROOFS. Lanes grouped by their next PC, and the groups that take entries (R101, R102). -/

namespace Sys2Proof.Machine.ControlFlow

/-! ## Masks -/

/-- A mask holds the lanes of its list. -/
theorem getLsbD_maskOf {l : Nat} (hl : l < 32) (ls : List Nat) : (maskOf ls).getLsbD l = true ↔ l ∈ ls := by
  have fold : ∀ (ls : List Nat) (m : Word),
      (ls.foldl (fun m i => m ||| (1 : Word) <<< i) m).getLsbD l = true ↔ m.getLsbD l = true ∨ l ∈ ls := by
    intro ls
    induction ls with
    | nil => simp
    | cons i ls ih =>
      intro m
      have bit : ((1 : Word) <<< i).getLsbD l = true ↔ l = i := by
        change (1#32 <<< i).getLsbD l = true ↔ l = i
        rw [← BitVec.twoPow_eq, BitVec.getLsbD_twoPow, Bool.and_eq_true, decide_eq_true_eq, decide_eq_true_eq]
        omega
      rw [List.foldl_cons, ih, BitVec.getLsbD_or, Bool.or_eq_true, bit, List.mem_cons, or_assoc]
  exact (fold ls 0).trans (by simp)

/-! ## Lists in the order of a key -/

/-- An element put before the first whose key is not below its own. -/
def insertBy {α : Type} (key : α → Nat) (l : List α) (x : α) : List α :=
  (l.takeWhile fun y => key y < key x) ++ x :: l.dropWhile fun y => key y < key x

/-- The elements of a list put in one after another. -/
def sortBy {α : Type} (key : α → Nat) (l : List α) : List α := l.foldl (insertBy key) []

section SortBy
variable {α : Type} (key : α → Nat)

theorem insertBy_cons (y : α) (l : List α) (x : α) :
    insertBy key (y :: l) x = if key y < key x then y :: insertBy key l x else x :: y :: l := by
  unfold insertBy
  by_cases below : key y < key x
  · simp only [List.takeWhile_cons, List.dropWhile_cons, below, decide_true, if_true, List.cons_append]
  · simp only [List.takeWhile_cons, List.dropWhile_cons, below, decide_false, Bool.false_eq_true, if_false, List.nil_append]

theorem insertBy_perm (l : List α) (x : α) : (insertBy key l x).Perm (x :: l) := by
  have middle : (insertBy key l x).Perm (x :: ((l.takeWhile fun y => key y < key x) ++ l.dropWhile fun y => key y < key x)) := List.perm_middle
  rwa [List.takeWhile_append_dropWhile] at middle

theorem insertBy_pairwise {l : List α} (h : l.Pairwise fun a b => key a ≤ key b) (x : α) :
    (insertBy key l x).Pairwise fun a b => key a ≤ key b := by
  induction l with
  | nil => exact List.pairwise_singleton _ x
  | cons y l ih =>
    obtain ⟨hy, hl⟩ := List.pairwise_cons.1 h
    rw [insertBy_cons]
    split
    · next below =>
      refine List.pairwise_cons.2 ⟨fun z hz => ?_, ih hl⟩
      rcases List.mem_cons.1 ((insertBy_perm key l x).mem_iff.1 hz) with rfl | hz
      · exact Nat.le_of_lt below
      · exact hy z hz
    · next above =>
      have first : key x ≤ key y := Nat.le_of_not_lt above
      refine List.pairwise_cons.2 ⟨fun z hz => ?_, h⟩
      rcases List.mem_cons.1 hz with rfl | hz
      · exact first
      · exact Nat.le_trans first (hy z hz)

theorem foldl_insertBy_perm (l acc : List α) : (l.foldl (insertBy key) acc).Perm (l ++ acc) := by
  induction l generalizing acc with
  | nil => exact .refl _
  | cons x l ih => exact (ih _).trans (((insertBy_perm key acc x).append_left l).trans List.perm_middle)

theorem sortBy_perm (l : List α) : (sortBy key l).Perm l :=
  (foldl_insertBy_perm key l []).trans (.of_eq (List.append_nil l))

theorem foldl_insertBy_pairwise (l acc : List α) (h : acc.Pairwise fun a b => key a ≤ key b) :
    (l.foldl (insertBy key) acc).Pairwise fun a b => key a ≤ key b := by
  induction l generalizing acc with
  | nil => exact h
  | cons x l ih => exact ih _ (insertBy_pairwise key h x)

theorem sortBy_pairwise_le (l : List α) : (sortBy key l).Pairwise fun a b => key a ≤ key b :=
  foldl_insertBy_pairwise key l [] .nil

/-- Of elements with keys of their own, the keys rise strictly. -/
theorem sortBy_pairwise_lt {l : List α} (h : (l.map key).Nodup) : (sortBy key l).Pairwise fun a b => key a < key b := by
  have nodup : ((sortBy key l).map key).Nodup := ((sortBy_perm key l).map key).nodup_iff.2 h
  exact (sortBy_pairwise_le key l).imp₂ (fun _ _ le ne => Nat.lt_of_le_of_ne le ne) (List.pairwise_map.1 nodup)

/-- What is in order stays as it is. -/
theorem sortBy_eq_self {l : List α} (h : l.Pairwise fun a b => key a < key b) : sortBy key l = l := by
  have nodup : (l.map key).Nodup := List.pairwise_map.2 (h.imp fun lt => Nat.ne_of_lt lt)
  exact List.Perm.eq_of_pairwise (fun a b _ _ ab ba => absurd ab (Nat.lt_asymm ba)) (sortBy_pairwise_lt key nodup) h (sortBy_perm key l)

end SortBy

/-! ## The groups of a path (R101) -/

/-- The values of a function over a list, each once. -/
def distinctOf (f : Nat → Dword) (ls : List Nat) : List Dword :=
  ls.foldl (fun acc l => if acc.contains (f l) then acc else acc ++ [f l]) []

theorem exists_mem_cons_iff {p : Nat → Prop} {l : Nat} {ls : List Nat} : (∃ i ∈ l :: ls, p i) ↔ p l ∨ ∃ i ∈ ls, p i := by
  simp only [List.mem_cons, exists_eq_or_imp]

theorem foldl_distinct (f : Nat → Dword) (ls : List Nat) (acc : List Dword) (h : acc.Nodup) :
    (ls.foldl (fun acc l => if acc.contains (f l) then acc else acc ++ [f l]) acc).Nodup
    ∧ ∀ pc, pc ∈ ls.foldl (fun acc l => if acc.contains (f l) then acc else acc ++ [f l]) acc ↔ pc ∈ acc ∨ ∃ l ∈ ls, f l = pc := by
  induction ls generalizing acc with
  | nil => simpa using h
  | cons l ls ih =>
    rw [List.foldl_cons]
    by_cases seen : f l ∈ acc
    · rw [if_pos (List.contains_iff_mem.2 seen)]
      refine ⟨(ih acc h).1, fun pc => ?_⟩
      rw [(ih acc h).2, exists_mem_cons_iff]
      exact ⟨Or.imp_right .inr, fun e => e.elim .inl fun e => e.elim (fun e => .inl (e ▸ seen)) .inr⟩
    · rw [if_neg (mt List.contains_iff_mem.1 seen)]
      have new : (acc ++ [f l]).Nodup := List.nodup_append.2 ⟨h, List.pairwise_singleton _ _, by rintro a ha b hb rfl; exact seen (List.mem_singleton.1 hb ▸ ha)⟩
      refine ⟨(ih _ new).1, fun pc => ?_⟩
      rw [(ih _ new).2, exists_mem_cons_iff, List.mem_append, List.mem_singleton, or_assoc, eq_comm (a := pc)]

theorem distinctOf_nodup (f : Nat → Dword) (ls : List Nat) : (distinctOf f ls).Nodup := (foldl_distinct f ls [] .nil).1

theorem mem_distinctOf {f : Nat → Dword} {ls : List Nat} {pc : Dword} : pc ∈ distinctOf f ls ↔ ∃ l ∈ ls, f l = pc :=
  ((foldl_distinct f ls [] .nil).2 pc).trans (by simp)

/-- The groups: the next PCs in ascending order, each with the lanes that have it. -/
theorem groupPcs_eq (nexts : List (Nat × Dword)) (seq : Dword) (m : Word) :
    groupPcs nexts seq m = (sortBy BitVec.toNat (distinctOf (mget seq nexts) (lanesOf m))).map fun pc =>
      (pc, maskOf ((lanesOf m).filter fun l => mget seq nexts l == pc)) := rfl

theorem groupPcs_ascending (nexts : List (Nat × Dword)) (seq : Dword) (m : Word) :
    ((groupPcs nexts seq m).map fun g => g.1.toNat).Pairwise (· < ·) := by
  have nodup : ((distinctOf (mget seq nexts) (lanesOf m)).map BitVec.toNat).Nodup :=
    List.pairwise_map.2 ((distinctOf_nodup _ _).imp fun ne e => ne (BitVec.eq_of_toNat_eq e))
  rw [groupPcs_eq, List.map_map]
  exact List.pairwise_map.2 (sortBy_pairwise_lt _ nodup)

theorem mem_groupPcs {nexts : List (Nat × Dword)} {seq : Dword} {m : Word} {g : Dword × Word} :
    g ∈ groupPcs nexts seq m ↔ (∃ l ∈ lanesOf m, mget seq nexts l = g.1) ∧ maskOf ((lanesOf m).filter fun l => mget seq nexts l == g.1) = g.2 := by
  rw [groupPcs_eq, List.mem_map]
  constructor
  · rintro ⟨pc, hpc, rfl⟩
    exact ⟨mem_distinctOf.1 ((sortBy_perm _ _).mem_iff.1 hpc), rfl⟩
  · rintro ⟨hpc, hm⟩
    exact ⟨g.1, (sortBy_perm _ _).mem_iff.2 (mem_distinctOf.2 hpc), Prod.ext rfl hm⟩

/-- A group holds the lanes of the path whose next PC is its own. -/
theorem getLsbD_group {nexts : List (Nat × Dword)} {seq : Dword} {m : Word} {g : Dword × Word} (hg : g ∈ groupPcs nexts seq m)
    {l : Nat} (hl : l < 32) : g.2.getLsbD l = true ↔ m.getLsbD l = true ∧ mget seq nexts l = g.1 := by
  rw [← (mem_groupPcs.1 hg).2, getLsbD_maskOf hl, List.mem_filter, mem_lanesOf, beq_iff_eq, and_iff_right hl]

theorem exists_group {nexts : List (Nat × Dword)} {seq : Dword} {m : Word} {l : Nat} (hl : l < 32) :
    m.getLsbD l = true ↔ ∃ g ∈ groupPcs nexts seq m, g.2.getLsbD l = true := by
  constructor
  · intro h
    have hg : (mget seq nexts l, maskOf ((lanesOf m).filter fun i => mget seq nexts i == mget seq nexts l)) ∈ groupPcs nexts seq m :=
      mem_groupPcs.2 ⟨⟨l, mem_lanesOf.2 ⟨hl, h⟩, rfl⟩, rfl⟩
    exact ⟨_, hg, (getLsbD_group hg hl).2 ⟨h, rfl⟩⟩
  · rintro ⟨g, hg, h⟩
    exact ((getLsbD_group hg hl).1 h).1

/-! ## The entries that the groups take (R102) -/

/-- With entries enough, the group kept stays and every other one moves. -/
theorem splitOf_of_room {groups : List (Dword × Word)} {seq : Dword} {free : Nat} {g : Dword × Word} (hg : g ∈ groups)
    (kept : groups.find? (fun g => g.1 == seq) = some g ∨ groups.find? (fun g => g.1 == seq) = none ∧ groups.head? = some g)
    (room : groups.length ≤ free + 1) :
    splitOf groups seq free = { keep := some g, moved := groups.filter fun h => h ≠ g, left := 0 } := by
  have others : (groups.filter fun h => some h != some g) = groups.filter fun h => h ≠ g := by
    refine List.filter_congr fun h _ => ?_
    by_cases e : h = g <;> simp [e]
  have fewer : (groups.filter fun h => h ≠ g).length < groups.length :=
    List.length_filter_lt_length_iff_exists.2 ⟨g, hg, by simp⟩
  have fit : (groups.filter fun h => h ≠ g).length ≤ free := by omega
  unfold splitOf
  rcases kept with found | ⟨found, head⟩
  · simp only [found, others, if_pos fit]
  · simp only [found, head, others, if_pos fit]

/-- The group kept is that of the next PC in sequence, else the lowest. -/
theorem exists_kept {groups : List (Dword × Word)} (seq : Dword) (ne : groups ≠ []) :
    ∃ g ∈ groups, (groups.find? (fun g => g.1 == seq) = some g ∨ groups.find? (fun g => g.1 == seq) = none ∧ groups.head? = some g)
      ∧ (g.1 = seq ∨ (∀ h ∈ groups, h.1 ≠ seq) ∧ groups.head? = some g) := by
  cases found : groups.find? fun g => g.1 == seq with
  | some g => exact ⟨g, List.mem_of_find?_eq_some found, .inl rfl, .inl (by simpa using List.find?_some found)⟩
  | none =>
    have none_seq : ∀ h ∈ groups, h.1 ≠ seq := by simpa using found
    cases groups with
    | nil => exact absurd rfl ne
    | cons g t => exact ⟨g, List.mem_cons_self, .inr ⟨rfl, rfl⟩, .inr ⟨none_seq, rfl⟩⟩

/-- Settles O20: the groups are the sorted next PCs with their lanes, and a split with room keeps one and moves the rest. -/
theorem pathsGroupAndSplitByNextPc : Obligations.PathsGroupAndSplitByNextPc := by
  unfold Obligations.PathsGroupAndSplitByNextPc
  refine ⟨fun nexts seq m => ⟨groupPcs_ascending nexts seq m, fun l hl => exists_group hl, fun l hl g hg h => ((getLsbD_group hg hl).1 h).2.symm⟩, ?_⟩
  intro groups seq free ne room _
  obtain ⟨g, hg, kept, which⟩ := exists_kept seq ne
  dsimp only
  rw [splitOf_of_room hg kept room]
  exact ⟨rfl, g, hg, rfl, which, rfl⟩

end Sys2Proof.Machine.ControlFlow
end

section
/-! PROOFS. NOP, JOIN, EXIT, YIELD, REGROUP and its completion (R70, R104-R106, R110, R111). -/

namespace Sys2Proof.Machine.ControlFlow

/-! ## NOP, JOIN, EXIT and YIELD -/

/-- A target in a cached line that the agent may run and that marks it is legal, and its check changes nothing (R53). -/
theorem checkTarget_legal {s : State} {n pc j : Nat} {x : Agent} {f : FetchLine} (hx : s.agent? n = some x) (hj : slotIndex pc = some j)
    (hf : s.fetchLine? (s.coreOf x) (s.ctxOf x.gang).asn (lineBase pc) = some f) (hsup : f.sup → x.sup) (htgt : lineTgt f.data j) :
    checkTarget s n pc = (.legal, s) := by
  have may : (f.sup && !x.sup) = false := by
    cases e : f.sup with
    | false => rfl
    | true => simp [hsup e]
  simp only [checkTarget, hj, hx, hf, may, htgt, if_true, Bool.false_eq_true, if_false]

theorem join_completes (x : Br) (s : State) (k : Iss) (hi : Issues s x.ctl { pilot := false } k) (a : Agent)
    (ha : (issued s k { pilot := false }).agent? k.agent = some a)
    (legal : LegalTargets (issued s k { pilot := false }) a (fun _ => brTarget k.pc x.disp x.slot) 1) :
    Completes (.join x) s k (mergeTest ((issued s k { pilot := false }).updPath k.agent k.path fun q =>
      { q with jpc := some (brTarget k.pc x.disp x.slot) }) k.agent) := by
  obtain ⟨j, f, hj, hf, hsup, htgt⟩ := legal 0 (by decide) (by decide)
  change execJoin x s = _
  unfold execJoin
  refine instr_ends hi ?_ (by simp)
  simp only [checkTarget_legal ha hj hf hsup htgt]

/-- The other entries of a path table that are eligible (R106). -/
def eligibleOthers (a : Agent) (p : Nat) : List Nat :=
  (List.range a.paths.length).filter fun i => i ≠ p ∧ ((a.paths[i]?).map fun q => q.st == .eligible && !q.trapHeld).getD false

section Yield
variable {x : Sys} {s : State} {k : Iss} {a : Agent} (hi : Issues s x.ctl {} k) (ha : (issued s k {}).agent? k.agent = some a)
include hi ha

theorem yield_ends : EndsWith (.yield x) s k ((issued s k {}).updAgent k.agent fun y => { y with youngest := (issued s k {}).clk + 1 })
    (if k.pilot ∨ eligibleOthers a k.path = [] then .done else .wait (.yield (eligibleOthers a k.path))) := by
  have others : ((List.range a.paths.length).filter fun i => i != k.path && ((a.paths[i]?).map fun q => q.st == .eligible && !q.trapHeld).getD false)
      = eligibleOthers a k.path :=
    List.filter_congr fun i _ => by rw [Bool.eq_iff_iff, Bool.and_eq_true, bne_iff_ne, decide_eq_true_eq]
  change execYield x s = _
  unfold execYield
  refine instr_ends hi ?_ (by split <;> simp)
  simp only [ha, others, Bool.or_eq_true, List.isEmpty_iff]
  split <;> rfl

theorem yield_completes (h : k.pilot ∨ eligibleOthers a k.path = []) :
    Completes (.yield x) s k ((issued s k {}).updAgent k.agent fun y => { y with youngest := (issued s k {}).clk + 1 }) := by
  have ends := yield_ends hi ha
  rwa [if_pos h] at ends

theorem yield_waits (wave : ¬k.pilot) (others : eligibleOthers a k.path ≠ []) :
    EndsWith (.yield x) s k ((issued s k {}).updAgent k.agent fun y => { y with youngest := (issued s k {}).clk + 1 })
      (.wait (.yield (eligibleOthers a k.path))) := by
  have ends := yield_ends hi ha
  rwa [if_neg (not_or.2 ⟨wave, others⟩)] at ends

end Yield

/-! ## REGROUP (R110) -/

/-- A wave whose only entry is its path, with no join PC. -/
def Alone (a : Agent) (q : Path) : Prop := (a.paths.filter fun p => p.st ≠ .free).length ≤ 1 ∧ q.jpc = none

/-- What is left of a bundle beside a slot are the REGROUPs in higher slots. -/
def LastSlot (bn : Bun) (pc : Dword) : Prop := bn.rest = [] ∧ ∀ r ∈ bn.redo, r.pc = pc ∨ isRegroup (bn.word r.pc) ∧ pc < r.pc

theorem alone_iff (a : Agent) (q : Path) :
    ((decide ((a.paths.filter fun p => p.st != .free).length > 1) || q.jpc.isSome) = true) ↔ ¬Alone a q := by
  have entries : (a.paths.filter fun p => p.st != .free) = a.paths.filter fun p => p.st ≠ .free :=
    List.filter_congr fun p _ => by rw [Bool.eq_iff_iff, bne_iff_ne, decide_eq_true_eq]
  rw [entries, Alone, Bool.or_eq_true, decide_eq_true_eq, Classical.not_and_iff_not_or_not, Nat.not_le, Option.isSome_iff_ne_none]

theorem lastSlot_iff (bn : Bun) (pc : Dword) :
    ((!bn.rest.isEmpty || bn.redo.any fun r => r.pc != pc && !(isRegroup (bn.word r.pc) && decide (pc < r.pc))) = true) ↔ ¬LastSlot bn pc := by
  simp only [LastSlot, Bool.or_eq_true, Bool.not_eq_true', List.isEmpty_eq_false_iff, List.any_eq_true, Bool.and_eq_true, bne_iff_ne,
    Bool.and_eq_false_iff, decide_eq_false_iff_not, Classical.not_and_iff_not_or_not, Classical.not_forall, exists_prop, not_or, Bool.not_eq_true, ne_eq]

section Regroup
variable {x : Sys} {s : State} {k : Iss} {a : Agent} {q : Path} {bn : Bun}

/-- What a REGROUP needs before it may issue. -/
abbrev regroupNeed (x : Sys) : Need := { pilot := false, feature := some 7, regs := [(0, x.imm.toNat)] }

variable (hi : Issues s x.ctl (regroupNeed x) k) (ha : (issued s k (regroupNeed x)).agent? k.agent = some a)
  (hq : (issued s k (regroupNeed x)).path? k.agent k.path = some q) (hbn : q.bun = some bn)
include hi ha hq

theorem regroup_faults (h : ¬Alone a q) : EndsWith (.regroup x) s k (issued s k (regroupNeed x)) (.fault 0x04 k.lanes 0) := by
  change execRegroup x s = _
  unfold execRegroup
  refine instr_ends hi ?_ (by simp)
  simp only [ha, hq, if_pos ((alone_iff a q).2 h)]

include hbn

theorem regroup_waits_its_turn (h : Alone a q) (hl : ¬LastSlot bn k.pc) : EndsWith (.regroup x) s k (issued s k (regroupNeed x)) .last := by
  change execRegroup x s = _
  unfold execRegroup
  refine instr_ends hi ?_ (by simp)
  simp only [ha, hq, hbn, if_neg (mt (alone_iff a q).1 (not_not_intro h)), if_pos ((lastSlot_iff bn k.pc).2 hl)]

theorem regroup_waits (h : Alone a q) (hl : LastSlot bn k.pc) (he : bn.exits = 0) :
    EndsWith (.regroup x) s k (issued s k (regroupNeed x)) (.wait (.regroup x.imm.toNat)) := by
  change execRegroup x s = _
  unfold execRegroup
  refine instr_ends hi ?_ (by simp)
  simp only [ha, hq, hbn, if_neg (mt (alone_iff a q).1 (not_not_intro h)), if_neg (mt (lastSlot_iff bn k.pc).1 (not_not_intro hl)),
    if_pos (beq_iff_eq.2 he)]

theorem regroup_waits_after_exits (h : Alone a q) (hl : LastSlot bn k.pc) (he : bn.exits ≠ 0) (stay : q.xmask &&& ~~~bn.exits ≠ 0) :
    EndsWith (.regroup x) s k ((leaveLanes (issued s k (regroupNeed x)) k.agent k.path bn.exits).updPath k.agent k.path fun q =>
      { q with bun := some { bn with exits := 0 } }) (.wait (.regroup x.imm.toNat)) := by
  change execRegroup x s = _
  unfold execRegroup
  refine instr_ends hi ?_ (by simp)
  simp only [ha, hq, hbn, if_neg (mt (alone_iff a q).1 (not_not_intro h)), if_neg (mt (lastSlot_iff bn k.pc).1 (not_not_intro hl)),
    if_neg (mt beq_iff_eq.1 he), if_neg (mt beq_iff_eq.1 stay)]

end Regroup

/-! ## REGROUP_COMPLETE (R111) -/

/-- The waves of a block that have not ended. -/
def liveWaves (s : State) (g : GangKey) (role : Nat) : List Agent := s.agents.filter fun y => y.gang == g && y.role == role && !y.pilot && !y.ended

/-- A wave with the path that waits at its REGROUP. -/
def arrival (s : State) (x : Agent) : Option (Agent × Nat × Path × Nat) := (atRegroup s x).map fun w => (x, w)

/-- The completion of a block's waves by what has arrived: nothing until all have, then one set of waves after another by their PC. -/
theorem exec_regroupComplete (g : GangKey) (role : Nat) (s : State) : exec (.regroupComplete g role) s =
    let arrived := (liveWaves s g role).filterMap (arrival s)
    if (liveWaves s g role).isEmpty || arrived.length != (liveWaves s g role).length then .next s
    else
      let sorted := sortBy (fun w => w.1.idx) arrived
      .next ((sorted.map fun w => regroupPc w.2.2.1).eraseDups.foldl (fun s pc => regroupSet s (sorted.filter fun w => regroupPc w.2.2.1 == pc)) s) := rfl

theorem regroupComplete_of_missing {g : GangKey} {role : Nat} {s : State} (h : ∃ y ∈ liveWaves s g role, atRegroup s y = none) :
    exec (.regroupComplete g role) s = .next s := by
  obtain ⟨y, hy, none_here⟩ := h
  have fewer : ((liveWaves s g role).filterMap (arrival s)).length < (liveWaves s g role).length :=
    List.length_filterMap_lt_length_iff_exists.2 ⟨y, hy, by rw [arrival, none_here]; rfl⟩
  have some_missing : (((liveWaves s g role).filterMap (arrival s)).length != (liveWaves s g role).length) = true := bne_iff_ne.2 (Nat.ne_of_lt fewer)
  rw [exec_regroupComplete]
  dsimp only
  rw [some_missing, Bool.or_true, if_pos rfl]

theorem filterMap_arrival {s : State} : ∀ {ws : List (Agent × Nat × Path × Nat)}, (∀ w ∈ ws, atRegroup s w.1 = some w.2) →
    (ws.map (·.1)).filterMap (arrival s) = ws
  | [], _ => rfl
  | w :: ws, h => by
    have here : arrival s w.1 = some w := by rw [arrival, h w List.mem_cons_self]; rfl
    rw [List.map_cons, List.filterMap_cons_some here, filterMap_arrival fun v hv => h v (List.mem_cons_of_mem _ hv)]

/-- A list whose elements all are one has that one alone. -/
theorem eraseDups_eq_singleton {a : Dword} {l : List Dword} (ne : l ≠ []) (h : ∀ b ∈ l, b = a) : l.eraseDups = [a] := by
  cases l with
  | nil => exact absurd rfl ne
  | cons b l =>
    obtain rfl := h b List.mem_cons_self
    have rest : l.filter (fun c => !c == b) = [] :=
      List.filter_eq_nil_iff.2 fun c hc => by simp [h c (List.mem_cons_of_mem _ hc)]
    rw [List.eraseDups_cons, rest, List.eraseDups_nil]

theorem regroupComplete_of_all {g : GangKey} {role : Nat} {s : State} {ws : List (Agent × Nat × Path × Nat)} {pc : Dword} (ne : ws ≠ [])
    (all : ws.map (·.1) = liveWaves s g role) (at_pc : ∀ w ∈ ws, atRegroup s w.1 = some w.2 ∧ regroupPc w.2.2.1 = pc)
    (order : ws.Pairwise fun v w => v.1.idx < w.1.idx) : exec (.regroupComplete g role) s = .next (regroupSet s ws) := by
  have arrived : (liveWaves s g role).filterMap (arrival s) = ws := all ▸ filterMap_arrival fun w hw => (at_pc w hw).1
  have count : ws.length = (liveWaves s g role).length := by rw [← all, List.length_map]
  have some_wave : (liveWaves s g role).isEmpty = false := by
    rw [← all, List.isEmpty_eq_false_iff]; exact fun e => ne (List.map_eq_nil_iff.1 e)
  have one_pc : (ws.map fun w => regroupPc w.2.2.1).eraseDups = [pc] := by
    refine eraseDups_eq_singleton (fun e => ne (List.map_eq_nil_iff.1 e)) fun b hb => ?_
    obtain ⟨w, hw, rfl⟩ := List.mem_map.1 hb
    exact (at_pc w hw).2
  have one_set : ws.filter (fun w => regroupPc w.2.2.1 == pc) = ws := List.filter_eq_self.2 fun w hw => beq_iff_eq.2 (at_pc w hw).2
  rw [exec_regroupComplete]
  dsimp only
  rw [arrived, some_wave, count, bne_self_eq_false, sortBy_eq_self _ order, one_pc]
  simp [one_set]

/-! ## The registers of waves packed together (R111) -/

/-- One lane's registers below n written into lane `i`. -/
theorem mget_writeLane (f : Nat → Word) {i j : Nat} (hi : i < 32) (hj : j < 32) (reg n : Nat) (m : List (Nat × Word)) :
    mget 0 ((List.range n).foldl (fun m r => mset 0 m (32 * r + i) (f r)) m) (32 * reg + j) =
      if reg < n ∧ j = i then f reg else mget 0 m (32 * reg + j) := by
  induction n with
  | zero => simp
  | succ n ih =>
    rw [List.range_succ, List.foldl_append, List.foldl_cons, List.foldl_nil, mget_mset, ih]
    by_cases here : 32 * reg + j = 32 * n + i
    · obtain ⟨rfl, rfl⟩ : reg = n ∧ j = i := by omega
      simp
    · have same : (reg < n + 1 ∧ j = i) ↔ (reg < n ∧ j = i) := by omega
      rw [if_neg here]
      simp only [same]

/-- The registers below n of a list of lanes, each put into the lane of its place in the list. -/
def placeLanes (n : Nat) (srcs : List (Regs × Nat)) : List (Nat × Word) :=
  (srcs.mapIdx fun i x => (i, x)).foldl (fun m y => (List.range n).foldl (fun m reg => mset 0 m (32 * reg + y.1) (y.2.1.get reg y.2.2)) m) []

theorem mget_placeLanes (n : Nat) {srcs : List (Regs × Nat)} (len : srcs.length ≤ 32) (reg : Nat) {i : Nat} (hi : i < 32) :
    mget 0 (placeLanes n srcs) (32 * reg + i) = if n ≤ reg then 0 else ((srcs[i]?).map fun y => y.1.get reg y.2).getD 0 := by
  obtain ⟨rev, rfl⟩ : ∃ rev : List (Regs × Nat), srcs = rev.reverse := ⟨srcs.reverse, (List.reverse_reverse srcs).symm⟩
  induction rev with
  | nil => simp [placeLanes, mget]
  | cons y rev ih =>
    rw [List.reverse_cons] at len ⊢
    generalize rev.reverse = srcs at ih len ⊢
    rw [List.length_append, List.length_singleton] at len
    have last : placeLanes n (srcs ++ [y]) =
        (List.range n).foldl (fun m reg => mset 0 m (32 * reg + srcs.length) (y.1.get reg y.2)) (placeLanes n srcs) := by
      rw [placeLanes, List.mapIdx_concat, List.foldl_append]; rfl
    rw [last, mget_writeLane (fun reg => y.1.get reg y.2) (by omega) hi, ih (by omega)]
    by_cases above : n ≤ reg
    · rw [if_pos above, if_pos above, if_neg (by omega)]
    · rw [if_neg above, if_neg above]
      rcases Nat.lt_trichotomy i srcs.length with lt | rfl | gt
      · rw [if_neg (by omega), List.getElem?_append_left lt]
      · simp [Nat.lt_of_not_le above]
      · rw [if_neg (by omega), List.getElem?_eq_none (by omega), List.getElem?_eq_none (by simp; omega)]

theorem get_packRegs (n : Nat) (r r' : Regs) (ls ls' : List Nat) (reg : Nat) {i : Nat} (len : ls.length + ls'.length ≤ 32) (hi : i < 32) :
    (packRegs n (r, ls) (some (r', ls'))).get reg i =
      if n ≤ reg then 0 else if h : i < ls.length then r.get reg ls[i] else if h' : i - ls.length < ls'.length then r'.get reg ls'[i - ls.length] else 0 := by
  have placed : (packRegs n (r, ls) (some (r', ls'))).get reg i =
      mget 0 (placeLanes n (ls.map (fun l => (r, l)) ++ ls'.map fun l => (r', l))) (32 * reg + i) := rfl
  rw [placed, mget_placeLanes n (by simpa using len) reg hi]
  congr 1
  by_cases own : i < ls.length
  · rw [dif_pos own, List.getElem?_append_left (by simpa using own)]
    simp [own]
  · rw [dif_neg own, List.getElem?_append_right (by simpa using own)]
    by_cases donor : i - ls.length < ls'.length <;> simp [donor]

/-- Settles O21: each instruction's effect evaluated under its conditions, the arrivals of a block sorted, and the lanes of packed waves read back. -/
theorem joinExitYieldAndRegroup : Obligations.JoinExitYieldAndRegroup := by
  unfold Obligations.JoinExitYieldAndRegroup
  refine ⟨⟨?nop, join_completes, ?clear, ?exit, ?yield⟩, ?regroup, ?complete, ?packed⟩
  case nop => exact does_of (fun _ => rfl) fun _ _ => rfl
  case clear => exact fun x => does_of (fun _ => rfl) fun _ _ => rfl
  case exit => exact fun x => does_of (fun _ => rfl) fun _ _ => rfl
  case yield => exact fun x s k hi a ha => ⟨yield_completes hi ha, yield_waits hi ha⟩
  case regroup =>
    intro x s k nd hi b a q bn ha hq hbn alone lastSlot
    exact ⟨regroup_faults hi ha hq, regroup_waits_its_turn hi ha hq hbn, regroup_waits hi ha hq hbn, regroup_waits_after_exits hi ha hq hbn⟩
  case complete =>
    exact fun s g role => ⟨regroupComplete_of_missing, fun ws pc ne all at_pc order => regroupComplete_of_all ne all at_pc order⟩
  case packed => exact fun n r r' ls ls' reg i len hi => get_packRegs n r r' ls ls' reg len hi

end Sys2Proof.Machine.ControlFlow
end

section
/-! PROOFS. VOTE, XMRD, PATHQ and XMWR (R66, R107-R109). -/

namespace Sys2Proof.Machine.ControlFlow

/-! ## Votes and mask reads (R107, R108) -/

theorem countP_beq_length (p : Nat → Bool) (ls : List Nat) : (ls.countP p == ls.length) = ls.all p := by
  rw [Bool.eq_iff_iff, beq_iff_eq, List.countP_eq_length, List.all_eq_true]

theorem isEmpty_filter (p : Nat → Bool) (ls : List Nat) : (ls.filter p).isEmpty = !ls.any p := by
  rw [Bool.eq_iff_iff, List.isEmpty_iff, List.filter_eq_nil_iff, Bool.not_eq_true', List.any_eq_false]

/-- What VOTE writes, by its form (R107). -/
def voteResult (x : V3) (k : Iss) (b : State) : State :=
  let yes (l : Nat) : Bool := k.src.pred x.a.toNat l
  match x.opx.toNat with
  | 0 => k.writePred b x.d.toNat fun _ => (lanesOf k.lanes).all yes
  | 1 => k.writePred b x.d.toNat fun _ => (lanesOf k.lanes).any yes
  | 2 => k.writePred b x.d.toNat fun _ => (lanesOf k.lanes).all yes || !(lanesOf k.lanes).any yes
  | 3 => k.write b x.d.toNat fun _ => maskOf ((lanesOf k.lanes).filter yes)
  | _ => k.write b x.d.toNat fun _ => BitVec.ofNat 32 ((lanesOf k.lanes).countP yes)

theorem does_vote (x : V3) : Does (.vote x) x.ctl { pilot := false, regs := if x.opx.toNat ≥ 3 then [(x.d.toNat, 1)] else [] } (voteResult x) := by
  intro s k hi
  change execVote x s = _
  unfold execVote
  refine instr_ends hi ?_ (by simp)
  simp only [← List.countP_eq_length_filter, countP_beq_length, isEmpty_filter, Bool.not_not, voteResult]
  rw [Bool.or_comm]
  rcases x.opx.toNat with _ | _ | _ | _ | form <;> rfl

theorem vote_fields {x : V3} (h : (Instr.vote x).wf) :
    x.opx.toNat ≤ 4 ∧ x.a.toNat < 16 ∧ (x.opx.toNat ≤ 2 → x.d.toNat < 16) ∧ x.b = 0 ∧ x.c = 0 ∧ x.ty = .none ∧ x.rnd = .dyn ∧ x.sat = false ∧ x.fl = 0 := by
  simp only [Instr.wf, V3.noRnd, V3.noSat, predField, Bool.and_eq_true, Bool.or_eq_true, beq_iff_eq, decide_eq_true_eq, Bool.not_eq_true'] at h
  obtain ⟨⟨⟨⟨⟨⟨⟨⟨⟨_, ty⟩, rnd⟩, sat⟩, fl⟩, b⟩, c⟩, a⟩, opx⟩, d⟩ := h
  exact ⟨opx, a, fun pred => d.resolve_left (by omega), b, c, ty, rnd, sat, fl⟩

theorem lanesOf_of_none {m : Word} (h : m = 0) : lanesOf m = [] := by rw [h]; rfl

theorem updAgent_id (s : State) (n : Nat) : (s.updAgent n fun x => x) = s := by
  simp [State.updAgent, updWhere]

/-- An instruction with no lanes writes no register. -/
theorem write_no_lanes {k : Iss} (h : k.lanes = 0) (b : State) (d : Nat) (f : Nat → Word) : k.write b d f = b := by
  rw [Iss.write, lanesOf_of_none h]
  exact updAgent_id b k.agent

/-- An instruction with no lanes writes no predicate. -/
theorem writePred_no_lanes {k : Iss} (h : k.lanes = 0) (b : State) (p : Nat) (f : Nat → Bool) : k.writePred b p f = b := by
  rw [Iss.writePred, lanesOf_of_none h]
  exact updAgent_id b k.agent

/-! ## XMWR (R66, R109) -/

/-- The entry that lanes sent ahead to a join PC go to: the first that waits there, else the first that is free. -/
def joinEntry (a : Agent) (j : Dword) : Option Nat :=
  ((List.range a.paths.length).find? fun i => ((a.paths[i]?).map fun p => p.st == .join && p.jpc == some j && !p.trapHeld).getD false).or
    (freeEntries a.paths).head?

/-- What a path that loses its last lane leaves to the entry that they go to. -/
def owes (q : Path) (m : Word) (p : Path) : Path :=
  if m = 0 then { p with due := orderDue (p.due ++ q.due), saved := p.saved.or q.saved, abort := p.abort ++ q.abort } else p

/-- The path table after XMWR: the lanes that are gone stand at the join PC in entry `e`, and the path keeps `m`. -/
def sendAhead (q : Path) (m gone : Word) (j : Dword) (e self i : Nat) (p : Path) : Path :=
  if i = e then owes q m (if p.st = .join then { p with xmask := p.xmask ||| gone } else { pc := j, jpc := some j, xmask := gone, st := .join })
  else if i = self then { p with xmask := m } else p

/-- The machine once the lanes that XMWR removes have gone to entry `e` (R66, R109). -/
def sentAhead (b : State) (k : Iss) (q : Path) (m : Word) (j : Dword) (e : Nat) : State :=
  let gone := q.xmask &&& ~~~m
  let t := (splitPends b k.agent k.path e).updAgent k.agent fun y => { y with
    paths := y.paths.mapIdx (sendAhead q m gone j e k.path)
    inTrap := y.inTrap.map fun h => (if m = 0 ∧ h.1 = k.path then e else h.1, h.2) }
  trace (if m = 0 then joinPends t k.agent [k.path] e else t) k.agent 6 k.path gone (extPc j e)

/-- What an XMWR needs before it may issue. -/
abbrev xmwrNeed (x : Sys) : Need := { pilot := false, regs := [(x.a.toNat, 1)] }

/-- The mask that an XMWR leaves its path. -/
abbrev newMask (x : Sys) (k : Iss) (q : Path) (low : Nat) : Word := k.src.get x.a.toNat low &&& q.xmask

theorem xmwr_no_lanes {x : Sys} {s : State} {k : Iss} (hi : Issues s x.ctl (xmwrNeed x) k) (h : k.lanes = 0) :
    Completes (.xmwr x) s k (issued s k (xmwrNeed x)) := by
  change execXmwr x s = _
  unfold execXmwr
  refine instr_ends hi ?_ (by simp)
  simp only [lanesOf_of_none h]

section Xmwr
variable {x : Sys} {s : State} {k : Iss} {low : Nat} {rest : List Nat} {a : Agent} {q : Path} (hi : Issues s x.ctl (xmwrNeed x) k)
  (hl : lanesOf k.lanes = low :: rest) (ha : (issued s k (xmwrNeed x)).agent? k.agent = some a)
  (hq : (issued s k (xmwrNeed x)).path? k.agent k.path = some q)
include hi hl ha hq

theorem xmwr_removes_nothing (h : q.xmask &&& ~~~newMask x k q low = 0) : Completes (.xmwr x) s k (issued s k (xmwrNeed x)) := by
  change execXmwr x s = _
  unfold execXmwr
  refine instr_ends hi ?_ (by simp)
  simp only [hl, ha, hq, if_pos (beq_iff_eq.2 h)]

theorem xmwr_faults (h : q.xmask &&& ~~~newMask x k q low ≠ 0) (hj : q.jpc = none) :
    EndsWith (.xmwr x) s k (issued s k (xmwrNeed x)) (.fault 0x04 k.lanes 0) := by
  change execXmwr x s = _
  unfold execXmwr
  refine instr_ends hi ?_ (by simp)
  simp only [hl, ha, hq, hj, if_neg (mt beq_iff_eq.1 h)]

theorem xmwr_holds {j : Dword} (h : q.xmask &&& ~~~newMask x k q low ≠ 0) (hj : q.jpc = some j) (he : joinEntry a j = none) :
    exec (.xmwr x) s = .next { unissue s k with cur := none } := by
  rw [joinEntry] at he
  change execXmwr x s = _
  unfold execXmwr
  refine instr_holds (t := issued s k (xmwrNeed x)) hi ?_
  simp only [hl, ha, hq, hj, he, if_neg (mt beq_iff_eq.1 h)]

theorem xmwr_sends_ahead {j : Dword} {e : Nat} (h : q.xmask &&& ~~~newMask x k q low ≠ 0) (hj : q.jpc = some j) (he : joinEntry a j = some e) :
    Completes (.xmwr x) s k (sentAhead (issued s k (xmwrNeed x)) k q (newMask x k q low) j e) := by
  rw [joinEntry] at he
  change execXmwr x s = _
  unfold execXmwr
  refine instr_ends hi ?_ (by simp)
  simp only [hl, ha, hq, hj, he, beq_iff_eq, if_neg h, Bool.and_eq_true]
  rfl

end Xmwr

/-- Settles O22: votes counted over the lanes of L, and XMWR evaluated under each of its conditions. -/
theorem votesAndMaskChanges : Obligations.VotesAndMaskChanges := by
  unfold Obligations.VotesAndMaskChanges
  refine ⟨⟨does_vote, fun x => vote_fields, ?none, ?xmrd, ?pathq⟩, ?xmwr⟩
  case none => exact fun d f h b k hk => ⟨write_no_lanes hk b d f, writePred_no_lanes hk b d h⟩
  case xmrd => exact fun x => does_of (fun _ => rfl) fun _ _ => rfl
  case pathq => exact fun x => does_of (fun _ => rfl) fun _ _ => rfl
  case xmwr =>
    intro x s k hi
    refine ⟨xmwr_no_lanes hi, fun low rest a q hl ha hq => ⟨xmwr_removes_nothing hi hl ha hq, xmwr_faults hi hl ha hq, ?_, ?_⟩⟩
    · exact fun j => xmwr_holds hi hl ha hq
    · exact fun j e => xmwr_sends_ahead hi hl ha hq

end Sys2Proof.Machine.ControlFlow
end
section
/-! PROOFS. Integer results and the sums of the residue datapath (R112, R131, R137). -/

namespace Sys2Proof.Machine.NumberFormats

/-! ## Integer results (R112, R137) -/

theorem width_le_of_isInt {t : Ty} (h : t.isInt) : t.width ≤ 64 := by
  revert h
  cases t <;> decide

theorem wrap_lt (w : Nat) (x : Int) : wrap w x < 2 ^ w := by
  have pos : (0 : Int) < (2 ^ w : Nat) := by exact_mod_cast Nat.two_pow_pos w
  have := Int.emod_lt_of_pos x pos
  have := Int.emod_nonneg x (Int.ne_of_gt pos)
  unfold wrap
  omega

theorem lo_le_hi (t : Ty) : t.lo ≤ t.hi := by
  have half := Nat.two_pow_pos (t.width - 1)
  have whole := Nat.two_pow_pos t.width
  unfold Ty.lo Ty.hi
  split <;> omega

theorem clampTo_of_mem {t : Ty} {x : Int} (lo : t.lo ≤ x) (hi : x ≤ t.hi) : clampTo t x = (x, false) := by
  rw [clampTo, if_neg (by omega), if_neg (by omega)]

theorem clampTo_of_lt_lo {t : Ty} {x : Int} (h : x < t.lo) : clampTo t x = (t.lo, true) := if_pos h

theorem clampTo_of_hi_lt {t : Ty} {x : Int} (h : t.hi < x) : clampTo t x = (t.hi, true) := by
  have := lo_le_hi t
  rw [clampTo, if_neg (by omega), if_pos h]

/-- With `.sat`, the clamped value is what wraps, and a value that was clamped sets `saturated`. -/
theorem intOut_sat {t : Ty} {x c : Int} {out : Bool} (h : clampTo t x = (c, out)) :
    intOut t true x = { intOut t false c with fl := if out then flSat else 0 } := by
  simp [intOut, h, LaneOut.ofNat]

theorem toNat_val_intOut {t : Ty} (h : t.isInt) (x : Int) : (intOut t false x).val.toNat = wrap t.width x := by
  have fits : wrap t.width x < 2 ^ 64 := Nat.lt_of_lt_of_le (wrap_lt t.width x) (Nat.pow_le_pow_right (by omega) (width_le_of_isInt h))
  exact (BitVec.toNat_ofNat _ 64).trans (Nat.mod_eq_of_lt fits)

/-- Settles O6: an integer type's wrapped value fits a lane's 64 bits, and `.sat` wraps what the clamp leaves. -/
theorem integerResultWrapsOrClamps : Obligations.IntegerResultWrapsOrClamps := by
  unfold Obligations.IntegerResultWrapsOrClamps
  exact fun t x h => ⟨toNat_val_intOut h x, rfl, fun lo hi => intOut_sat (clampTo_of_mem lo hi), fun lt => intOut_sat (clampTo_of_lt_lo lt),
    fun gt => intOut_sat (clampTo_of_hi_lt gt)⟩

/-! ## The residue datapath (R131) -/

/-- The product of a pair's residues, as a channel adds it. -/
def channelProduct (m : Nat) (q : Int × Int) : Nat := (q.1 % (m : Int)).toNat * (q.2 % (m : Int)).toNat

theorem channelSum_eq (m : Nat) (qs : List (Int × Int)) : channelSum m qs = (qs.map (channelProduct m)).sum % m := by
  have fold (qs : List (Int × Int)) (s : Nat) :
      qs.foldl (fun s q => (s + channelProduct m q) % m) (s % m) = (s + (qs.map (channelProduct m)).sum) % m := by
    induction qs generalizing s with
    | nil => simp
    | cons q qs ih => rw [List.foldl_cons, Nat.mod_add_mod, ih, List.map_cons, List.sum_cons, Nat.add_assoc]
  have from_zero := fold qs 0
  rwa [Nat.zero_mod, Nat.zero_add] at from_zero

theorem channelProduct_emod {m : Nat} (hm : 0 < m) (q : Int × Int) : (channelProduct m q : Int) % m = q.1 * q.2 % m := by
  have residue (a : Int) : ((a % (m : Int)).toNat : Int) = a % m := Int.toNat_of_nonneg (Int.emod_nonneg a (by omega))
  rw [channelProduct, Int.natCast_mul, residue, residue, ← Int.mul_emod]

/-- A channel holds the residue of the exact sum of products. -/
theorem channelSum_emod {m : Nat} (hm : 0 < m) (qs : List (Int × Int)) : (channelSum m qs : Int) % m = (qs.map fun q => q.1 * q.2).sum % m := by
  have products : (((qs.map (channelProduct m)).sum : Nat) : Int) % m = (qs.map fun q => q.1 * q.2).sum % m := by
    induction qs with
    | nil => rfl
    | cons q qs ih =>
      rw [List.map_cons, List.map_cons, List.sum_cons, List.sum_cons, Int.natCast_add, Int.add_emod, channelProduct_emod hm, ih, ← Int.add_emod]
  rw [channelSum_eq, Int.natCast_emod, Int.emod_emod, products]

/-- The conversion out recovers a value below half the product of the moduli from its three residues (R131). -/
theorem residueOut_eq {a b c : Nat} {x : Int} (ha : (a : Int) % 255 = x % 255) (hb : (b : Int) % 254 = x % 254) (hc : (c : Int) % 253 = x % 253)
    (bound : x.natAbs < 8193405) : residueOut a b c = x := by
  obtain ⟨i, hi⟩ : ∃ i, x - a = 255 * i := ⟨(x - a) / 255, by omega⟩
  obtain ⟨j, hj⟩ : ∃ j, x - b = 254 * j := ⟨(x - b) / 254, by omega⟩
  obtain ⟨k, hk⟩ : ∃ k, x - c = 253 * k := ⟨(x - c) / 253, by omega⟩
  clear ha hb hc
  have weighted : ((a * 8225536 + b * 16322295 + c * 8225790 : Nat) : Int) = x + 16386810 * (2 * x - 128 * i - 253 * j - 127 * k) := by
    omega
  unfold residueOut
  dsimp only
  generalize 2 * x - 128 * i - 253 * j - 127 * k = z at weighted
  split <;> omega

/-- A product of two elements of a residue pair is at most 448², so a sum over a block is below half the product of the moduli (R130). -/
theorem natAbs_sum_le {qs : List (Int × Int)} (h : ∀ q ∈ qs, q.1.natAbs ≤ 448 ∧ q.2.natAbs ≤ 448) :
    ((qs.map fun q => q.1 * q.2).sum : Int).natAbs ≤ qs.length * (448 * 448) := by
  induction qs with
  | nil => simp
  | cons q qs ih =>
    obtain ⟨h1, h2⟩ := h q List.mem_cons_self
    have product : (q.1 * q.2).natAbs ≤ 448 * 448 := by rw [Int.natAbs_mul]; exact Nat.mul_le_mul h1 h2
    have rest := ih fun p hp => h p (List.mem_cons_of_mem _ hp)
    rw [List.map_cons, List.sum_cons, List.length_cons]
    omega

/-- Settles O14: each channel holds the sum's residue, and the conversion out is the Chinese remainder of the three. -/
theorem residueSumIsExact : Obligations.ResidueSumIsExact := by
  unfold Obligations.ResidueSumIsExact
  refine ⟨by decide, by decide, by decide, rfl, rfl, rfl, rfl, rfl, rfl, rfl, rfl, rfl, rfl, fun m qs _ => channelSum_eq m qs,
    fun a b c => rfl, fun qs => rfl, fun qs len small => ?_⟩
  have bound := natAbs_sum_le small
  exact residueOut_eq (channelSum_emod (by decide) qs) (channelSum_emod (by decide) qs) (channelSum_emod (by decide) qs) (by omega)

end Sys2Proof.Machine.NumberFormats
end

section
/-! PROOFS. What noting an issue and ending a slot leave alone (R56, R66, R409, R468). -/

namespace Sys2Proof.Machine.NumberFormats

/-! ## Memory outside the trace ring, contexts, gangs and clocks -/

/-- Memory outside the trace ring, the ring's place, contexts, gangs and clocks are as before. -/
structure Untouched (s t : State) : Prop where
  mem : SameMemoryBut (InTraceRing s) s t
  trctl : t.regs.trctl = s.regs.trctl
  trbase : t.regs.trbase = s.regs.trbase
  trlog : t.regs.trlog = s.regs.trlog
  ctxs : t.ctxs = s.ctxs
  gangs : t.gangs = s.gangs
  clk : t.clk = s.clk
  tick : t.tick = s.tick

/-- Memory is these fields. -/
theorem sameMemory_of {s t : State} (loc : t.loc = s.loc := by rfl) (host : t.host = s.host := by rfl) (peer : t.peer = s.peer := by rfl)
    (pool : t.pool = s.pool := by rfl) (rkmem : t.rkmem = s.rkmem := by rfl) (blocks : t.blocks = s.blocks := by rfl) : SameMemory s t := by
  intro sp a
  unfold State.byteAt State.cells State.blockOf?
  rw [loc, host, peer, pool, rkmem, blocks]

/-- An update of other parts than memory, contexts, gangs, clocks and the trace ring's place. -/
theorem untouched_of {s t : State} (mem : SameMemory s t := by exact sameMemory_of) (trctl : t.regs.trctl = s.regs.trctl := by rfl)
    (trbase : t.regs.trbase = s.regs.trbase := by rfl) (trlog : t.regs.trlog = s.regs.trlog := by rfl) (ctxs : t.ctxs = s.ctxs := by rfl)
    (gangs : t.gangs = s.gangs := by rfl) (clk : t.clk = s.clk := by rfl) (tick : t.tick = s.tick := by rfl) : Untouched s t :=
  ⟨fun sp a _ => mem sp a, trctl, trbase, trlog, ctxs, gangs, clk, tick⟩

theorem Untouched.trans {s t u : State} (h : Untouched s t) (h' : Untouched t u) : Untouched s u where
  mem sp a out := by
    have outside : ¬InTraceRing t sp a := by
      unfold InTraceRing
      rwa [h.trctl, h.trbase, h.trlog]
    exact (h'.mem sp a outside).trans (h.mem sp a out)
  trctl := h'.trctl.trans h.trctl
  trbase := h'.trbase.trans h.trbase
  trlog := h'.trlog.trans h.trlog
  ctxs := h'.ctxs.trans h.ctxs
  gangs := h'.gangs.trans h.gangs
  clk := h'.clk.trans h.clk
  tick := h'.tick.trans h.tick

/-! ## The slots that a bundle has left -/

/-- The slots still to issue of the bundle under way on a path. -/
def restIn (ps : List Path) (p : Nat) : Option (List Dword) := ((ps[p]?).bind (·.bun)).map (·.rest)

/-- The same by an agent's number. -/
def restOf (s : State) (n p : Nat) : Option (List Dword) := (s.agent? n).bind fun x => restIn x.paths p

theorem restOf_eq (s : State) (n p : Nat) : restOf s n p = (s.bundle n p).map (·.rest) := by
  unfold restOf restIn State.bundle State.path?
  cases s.agent? n <;> rfl

theorem restIn_mapIdx (ps : List Path) (f : Nat → Path → Path) (h : ∀ i q, (f i q).bun.map (·.rest) = q.bun.map (·.rest)) (p : Nat) :
    restIn (ps.mapIdx f) p = restIn ps p := by
  unfold restIn
  rw [List.getElem?_mapIdx]
  cases ps[p]? with
  | none => rfl
  | some q => exact h p q

theorem restIn_map (ps : List Path) (f : Path → Path) (h : ∀ q, (f q).bun.map (·.rest) = q.bun.map (·.rest)) (p : Nat) :
    restIn (ps.map f) p = restIn ps p := by
  unfold restIn
  rw [List.getElem?_map]
  cases ps[p]? with
  | none => rfl
  | some q => exact h q

theorem restOf_map (s : State) (f : Agent → Agent) (name : KeepsName f) (rest : ∀ x p, restIn (f x).paths p = restIn x.paths p) (n p : Nat) :
    restOf { s with agents := s.agents.map f } n p = restOf s n p := by
  unfold restOf
  rw [agent?_map s n f name]
  cases s.agent? n with
  | none => rfl
  | some x => exact rest x p

/-- The machine is untouched, and every bundle has its slots left. -/
structure Bookkeeping (s t : State) : Prop extends Untouched s t where
  rest : ∀ n p, restOf t n p = restOf s n p

theorem Bookkeeping.refl (s : State) : Bookkeeping s s := ⟨untouched_of, fun _ _ => rfl⟩

theorem Bookkeeping.trans {s t u : State} (h : Bookkeeping s t) (h' : Bookkeeping t u) : Bookkeeping s u :=
  ⟨h.toUntouched.trans h'.toUntouched, fun n p => (h'.rest n p).trans (h.rest n p)⟩

/-- An update beside the agents. -/
theorem Untouched.bookkeeping {s t : State} (h : Untouched s t) (agents : t.agents = s.agents := by rfl) : Bookkeeping s t :=
  ⟨h, fun n p => by unfold restOf State.agent?; rw [agents]⟩

theorem updAgent_bookkeeping (s : State) (n : Nat) {f : Agent → Agent} (name : KeepsName f) (rest : ∀ x p, restIn (f x).paths p = restIn x.paths p) :
    Bookkeeping s (s.updAgent n f) :=
  ⟨untouched_of, restOf_map s _ (fun x => by split <;> simp [name x]) fun x p => by
    split
    · exact rest x p
    · rfl⟩

theorem updPath_bookkeeping (s : State) (n p : Nat) {f : Path → Path} (h : ∀ q, (f q).bun = q.bun) : Bookkeeping s (s.updPath n p f) :=
  updAgent_bookkeeping s n (fun _ => ⟨rfl, rfl⟩) fun x => restIn_mapIdx x.paths _ fun i q => by
    split
    · rw [h q]
    · rfl

theorem mapRegs_bookkeeping (s : State) (n : Nat) (f : Regs → Regs) : Bookkeeping s (s.mapRegs n f) :=
  updAgent_bookkeeping s n (fun _ => ⟨rfl, rfl⟩) fun _ _ => rfl

/-! ## Noting an issue (R66, R409, R467, R468) -/

theorem charge_bookkeeping (s : State) (g : GangKey) (role amount : Nat) : Bookkeeping s (charge s g role amount) := by
  refine Untouched.bookkeeping (untouched_of (mem := fun sp a => ?_))
  cases sp with
  | scr h r =>
    have scratchpad : ((charge s g role amount).blockOf? h r).map (·.scr) = (s.blockOf? h r).map (·.scr) := by
      have found : (charge s g role amount).blockOf? h r =
          (s.blockOf? h r).map fun b => if b.gang == g && b.role == role then { b with energy := b.energy + amount } else b :=
        find_map_of _ _ (fun b => by split <;> rfl) s.blocks
      rw [found, Option.map_map]
      refine congrArg (fun f => Option.map f (s.blockOf? h r)) (funext fun b => ?_)
      dsimp only [Function.comp]
      split <;> rfl
    exact congrArg (fun cells => mget 0 (cells.getD []) a) scratchpad
  | _ => rfl

theorem noteWrite_bookkeeping (s : State) (sp : Sp) (a n : Nat) : Bookkeeping s (noteWrite s sp a n) :=
  ⟨untouched_of, restOf_map s _ (fun _ => ⟨rfl, rfl⟩) fun x => restIn_map x.paths _ fun q => Option.map_map _ _ q.bun⟩

theorem noteRing_bookkeeping (s : State) (n : Nat) : Bookkeeping s (noteRing s n) := by
  unfold noteRing
  dsimp only
  split
  · exact noteWrite_bookkeeping _ _ _ _
  · exact (noteWrite_bookkeeping _ _ _ _).trans (noteWrite_bookkeeping _ _ _ _)

/-- Bytes written where `f` says leave every other byte. -/
theorem mget_ringCells (f : Nat → Nat) {a : Nat} (out : ∀ i, f i ≠ a) (bs : List Byte) (q : List Host.Cell × Nat) :
    mget 0 (bs.foldl (fun (c, i) b => (mset 0 c (f i) b, i + 1)) q).1 a = mget 0 q.1 a := by
  induction bs generalizing q with
  | nil => rfl
  | cons b bs ih => rw [List.foldl_cons, ih, mget_mset, if_neg (out q.2).symm]

/-- While the trace is on, bytes go to the ring alone (R468). -/
theorem ringWrite_bookkeeping {s : State} (on : s.regs.trctl.getLsbD 0) (bs : List Byte) : Bookkeeping s (ringWrite s bs) where
  mem sp a out := by
    cases sp with
    | loc =>
      refine mget_ringCells (fun i => s.regs.trbase + i % 2 ^ s.regs.trlog) (fun i here => out ⟨rfl, on, ?_⟩) bs (s.loc, s.regs.trwidx)
      have inside := Nat.mod_lt i (Nat.two_pow_pos s.regs.trlog)
      omega
    | _ => exact (noteRing_bookkeeping s bs.length).mem _ a out
  trctl := rfl
  trbase := rfl
  trlog := rfl
  ctxs := (noteRing_bookkeeping s bs.length).ctxs
  gangs := (noteRing_bookkeeping s bs.length).gangs
  clk := (noteRing_bookkeeping s bs.length).clk
  tick := (noteRing_bookkeeping s bs.length).tick
  rest := (noteRing_bookkeeping s bs.length).rest

theorem emit_bookkeeping {s : State} (on : s.regs.trctl.getLsbD 0) (bs : List Byte) : Bookkeeping s (emit s bs).2 := by
  unfold emit
  split
  · exact (Untouched.bookkeeping untouched_of).trans (ringWrite_bookkeeping (s := { s with regs := { s.regs with trpending := 0 } }) on _)
  · exact Untouched.bookkeeping untouched_of

theorem packet_bookkeeping {s : State} (on : s.regs.trctl.getLsbD 0) (x : Agent) (bs : List Byte) (isSync : Bool) :
    Bookkeeping s (packet s x bs isSync) :=
  (emit_bookkeeping on bs).trans (updAgent_bookkeeping _ _ (fun _ => by split <;> exact ⟨rfl, rfl⟩) fun _ _ => by split <;> rfl)

theorem on_of_traced {s : State} {x : Agent} (h : traced s x) : s.regs.trctl.getLsbD 0 := by
  simp only [traced, Bool.and_eq_true] at h
  simpa [bitOf, BitVec.getLsbD, Nat.testBit_zero] using h.1

theorem traceSync_bookkeeping (s : State) (n p : Nat) (ps : List Path) : Bookkeeping s (traceSync s n p ps) := by
  unfold traceSync
  split
  · split
    · next shown => exact packet_bookkeeping (on_of_traced (Bool.and_eq_true_iff.1 shown).1) _ _ _
    · exact .refl s
  · exact .refl s

theorem traceFirst_bookkeeping (s : State) (k : Iss) : Bookkeeping s (traceFirst s k) := by
  unfold traceFirst
  split
  · split
    · exact traceSync_bookkeeping _ _ _ _
    · exact .refl s
  · exact .refl s

theorem bun_noteIssue (q : Path) (i p : Nat) : (q.noteIssue i p).bun = q.bun := by
  unfold Path.noteIssue Path.seesIssue
  split
  · rfl
  · split
    · split <;> rfl
    · rfl

theorem noteIssue_bookkeeping (s : State) (k : Iss) : Bookkeeping s (noteIssue s k) := by
  have windows : Bookkeeping s (if k.replay then s else countWindows s k.agent k.path) := by
    split
    · exact .refl s
    · exact Untouched.bookkeeping untouched_of
  have noted : Bookkeeping s ((if k.replay then s else countWindows s k.agent k.path).updAgent k.agent fun x => x.noteIssue k.path s.tick s.clk k.cont) :=
    windows.trans (updAgent_bookkeeping _ _ (fun _ => ⟨rfl, rfl⟩) fun x => restIn_mapIdx x.paths _ fun i q => by rw [bun_noteIssue])
  exact noted.trans (traceFirst_bookkeeping _ k)

theorem issued_bookkeeping (s : State) (k : Iss) (nd : Need) : Bookkeeping s (issued s k nd) :=
  (noteIssue_bookkeeping s k).trans (charge_bookkeeping _ _ _ _)

/-! ## Slots that end or go back (R56) -/

/-- The machine is untouched, and so are the registers. -/
structure Quiet (s t : State) : Prop extends Untouched s t where
  regs : SameRegs s t

theorem Quiet.trans {s t u : State} (h : Quiet s t) (h' : Quiet t u) : Quiet s u :=
  ⟨h.toUntouched.trans h'.toUntouched, fun n => (h'.regs n).trans (h.regs n)⟩

theorem updPath_quiet (s : State) (n p : Nat) (f : Path → Path) : Quiet s (s.updPath n p f) := ⟨untouched_of, fun _ => regsOf_updPath _ _ _ _ _⟩

/-- Which slot has written what, and which results still write, is all that a slot's writes change. -/
theorem slotWrites_eq (s : State) (n p : Nat) (b : Bun) (undone : Word) :
    ∃ pend claims, slotWrites s n p b undone = ({ s with pend := pend }, { b with claims := claims }) := by
  unfold slotWrites
  split
  · exact ⟨_, _, rfl⟩
  · split
    · exact ⟨_, _, rfl⟩
    · dsimp only
      split <;> exact ⟨_, _, rfl⟩

/-- While its bundle has more slots, the end of a slot only notes it (R56). -/
theorem endSlot_quiet {s : State} {n p : Nat} {r : List Dword} (more : restOf s n p = some r) (ne : r ≠ []) (add : Undone) :
    Quiet s (endSlot s n p add) := by
  rw [restOf_eq] at more
  obtain ⟨b, hb, rfl⟩ := Option.map_eq_some_iff.1 more
  obtain ⟨pend, claims, writes⟩ := slotWrites_eq s n p b add.lanes
  have noted : Quiet s { s with pend := pend } := ⟨untouched_of, regsOf_agents rfl⟩
  have bun : (s.path? n p).bind (·.bun) = some b := hb
  have left : b.rest.isEmpty = false := List.isEmpty_eq_false_iff.2 ne
  unfold endSlot
  simp only [bun, writes, left, Bool.false_eq_true, if_false]
  exact noted.trans (updPath_quiet _ _ _ _)

theorem unissue_quiet (s : State) (k : Iss) : Quiet s (unissue s k) := (updPath_quiet s k.agent k.path _).trans ⟨untouched_of, regsOf_agents rfl⟩

theorem endIssue_quiet (s : State) : Quiet s { s with cur := none } := ⟨untouched_of, regsOf_agents rfl⟩

end Sys2Proof.Machine.NumberFormats
end

section
/-! PROOFS. The frame of a result (R65, R120, R134). -/

namespace Sys2Proof.Machine.NumberFormats

/-! ## Results of fixed latency -/

theorem regsOf_addDue (s : State) (n p : Nat) (ts : List FaultRec) (m : Nat) : (addDue s n p ts).regsOf m = s.regsOf m := by
  unfold addDue
  split
  · rfl
  · exact regsOf_updPath _ _ _ _ _

theorem addDue_bookkeeping (s : State) (n p : Nat) (ts : List FaultRec) : Bookkeeping s (addDue s n p ts) := by
  unfold addDue
  split
  · exact .refl s
  · exact updPath_bookkeeping _ _ _ fun _ => rfl

/-- Flags join ARITHSTAT, and no register beside it changes (R120). -/
theorem regsOf_flags (k : Iss) (s : State) (fl lanes : Word) (n : Nat) :
    (k.flags s fl lanes).regsOf n = (s.mapRegs k.agent fun r => { r with arith := r.arith ||| fl }).regsOf n := by
  unfold Iss.flags
  split
  · next none_set =>
    by_cases issuer : n = k.agent
    · rw [issuer, regsOf_mapRegs_same, beq_iff_eq.1 none_set]
      simp
    · rw [regsOf_mapRegs_ne _ _ issuer]
  · dsimp only
    split
    · exact regsOf_addDue _ _ _ _ n
    · rfl

theorem flags_bookkeeping (k : Iss) (s : State) (fl lanes : Word) : Bookkeeping s (k.flags s fl lanes) := by
  unfold Iss.flags
  split
  · exact .refl s
  · dsimp only
    split
    · exact (mapRegs_bookkeeping _ _ _).trans (addDue_bookkeeping _ _ _ _)
    · exact mapRegs_bookkeeping _ _ _

theorem putFixed_bookkeeping (k : Iss) (b : State) (d : Nat) (wide : Bool) (f : Nat → LaneOut) : Bookkeeping b (putFixed k b d wide f).1 :=
  (mapRegs_bookkeeping _ _ _).trans (flags_bookkeeping _ _ _ _)

theorem get_eq_of_vreg_eq {s t : State} {n reg lane : Nat} {r r' : Regs} (hr : s.regsOf n = some r) (hr' : t.regsOf n = some r')
    (h : t.vreg n reg lane = s.vreg n reg lane) : r'.get reg lane = r.get reg lane := by
  simpa [State.vreg, hr, hr'] using h

/-- A result of fixed latency changes its destination and adds bits to ARITHSTAT (R65, R120). -/
theorem onlyDest_of_fixedResult {b t : State} {k : Iss} {d : Nat} {wide : Bool} {f : Nat → LaneOut} (h : FixedResult b t k d wide f) :
    OnlyDest b t k.agent d wide := by
  obtain ⟨⟨-, kept⟩, v, rfl⟩ := h
  refine ⟨fun m other => ?_, fun r hr => ?_⟩
  · rw [regsOf_flags, regsOf_mapRegs_ne _ _ other, regsOf_mapRegs_ne _ _ other]
  · have after := regsOf_flags k (b.mapRegs k.agent fun r => { r with v := v r.v }) (outFlags (laneOuts k f)) (outTraps (laneOuts k f)) k.agent
    rw [regsOf_mapRegs_same, regsOf_mapRegs_same, hr] at after
    refine ⟨_, after, rfl, rfl, rfl, rfl, rfl, ?_, fun reg lane hl not_low not_high => ?_⟩
    · exact BitVec.eq_of_getLsbD_eq fun i _ => by simp only [BitVec.getLsbD_and, BitVec.getLsbD_or]; cases r.arith.getLsbD i <;> simp
    · exact get_eq_of_vreg_eq hr after (kept reg lane hl fun written => written.2.elim not_low not_high)

/-- Registers kept before and after a change of the destination alone. -/
theorem onlyDest_of_sameRegs {s b u t : State} {n d : Nat} {wide : Bool} (before : SameRegs s b) (h : OnlyDest b u n d wide) (after : SameRegs u t) :
    OnlyDest s t n d wide := by
  unfold OnlyDest
  simp only [← before _, after _]
  exact h

theorem onlyDest_of_same {s t : State} (h : SameRegs s t) (n d : Nat) (wide : Bool) : OnlyDest s t n d wide :=
  ⟨fun m _ => h m, fun r hr => ⟨r, (h n).trans hr, rfl, rfl, rfl, rfl, rfl, BitVec.and_self, fun _ _ _ _ _ => rfl⟩⟩

/-! ## The frame of an instruction with one result per lane -/

/-- R40: an instruction whose counter is full does not issue, and its slot goes back. -/
theorem instr_of_counter_full {s : State} {g : Ctl} {nd : Need} {k : Iss} {x : Agent} {body : Iss → State → State × Fate}
    (iss : issOf s g.guard = some (k, x)) (accepted : refusal s x nd = none) (full : ¬(g.cnt = 0 ∨ x.d.getD (g.cnt.toNat - 1) 0 < 63)) :
    instr s g nd body = .next { unissue s k with cur := none } := by
  obtain ⟨counts, high⟩ := not_or.1 full
  have stands : (g.cnt != 0 && decide (x.d.getD (g.cnt.toNat - 1) 0 ≥ 63)) = true :=
    Bool.and_eq_true_iff.2 ⟨bne_iff_ne.2 counts, decide_eq_true (Nat.le_of_not_lt high)⟩
  unfold instr
  simp only [iss, accepted]
  rw [if_pos stands]

/-- What an instruction's issue can come to: its slot goes back, it takes a fault of R70, or its own effect ends it. -/
theorem instr_cases {s t : State} {g : Ctl} {nd : Need} {body : Iss → State → State × Fate} (h : instr s g nd body = .next t) :
    ∃ k x, issOf s g.guard = some (k, x)
      ∧ (t = { unissue s k with cur := none } ∨ (∃ code, t = { finish (noteIssue s k) k (.fault code k.lanes 0) with cur := none })
        ∨ t = { finish (body k (issued s k nd)).1 k (body k (issued s k nd)).2 with cur := none }) := by
  cases iss : issOf s g.guard with
  | none => unfold instr at h; rw [iss] at h; cases h
  | some kx =>
    obtain ⟨k, x⟩ := kx
    refine ⟨k, x, rfl, ?_⟩
    cases check : refusal s x nd with
    | some code => exact .inr (.inl ⟨code, Host.Outcome.next.inj (h.symm.trans (instr_refused iss check))⟩)
    | none =>
      by_cases room : g.cnt = 0 ∨ x.d.getD (g.cnt.toNat - 1) 0 < 63
      · have issues : Issues s g nd k := ⟨x, iss, check, room⟩
        by_cases held : (body k (issued s k nd)).2 = .hold
        · exact .inl (Host.Outcome.next.inj (h.symm.trans (instr_holds issues (Prod.ext rfl held))))
        · exact .inr (.inr (Host.Outcome.next.inj (h.symm.trans (instr_ends issues rfl held))))
      · exact .inl (Host.Outcome.next.inj (h.symm.trans (instr_of_counter_full iss check room)))

theorem issOf_cur {s : State} {g : Guard} {k : Iss} {x : Agent} {c : Cur} (hc : s.cur = some c) (h : issOf s g = some (k, x)) :
    k.agent = c.agent ∧ k.path = c.path := by
  unfold issOf at h
  rw [hc] at h
  dsimp only at h
  split at h <;> cases h
  exact ⟨rfl, rfl⟩

/-- R134: such an instruction, with more slots in its bundle, changes its destination and ARITHSTAT alone, however its issue ends. -/
theorem instr_putFixed_frame {s t : State} {g : Ctl} {nd : Need} {d : Nat} {wide : Bool} {f : Iss → Nat → LaneOut} {c : Cur} {b : Bun}
    (hc : s.cur = some c) (hb : s.bundle c.agent c.path = some b) (more : b.rest ≠ [])
    (h : instr s g nd (fun k s => putFixed k s d wide (f k)) = .next t) : OnlyDest s t c.agent d wide ∧ Untouched s t := by
  obtain ⟨k, x, iss, ends⟩ := instr_cases h
  obtain ⟨agent, path⟩ := issOf_cur hc iss
  have left : restOf s k.agent k.path = some b.rest := by rw [restOf_eq, agent, path, hb]; rfl
  rw [← agent]
  rcases ends with rfl | ⟨code, rfl⟩ | rfl
  · have quiet := (unissue_quiet s k).trans (endIssue_quiet _)
    exact ⟨onlyDest_of_same quiet.regs _ _ _, quiet.toUntouched⟩
  · have book := noteIssue_bookkeeping s k
    have noted : Quiet s (noteIssue s k) := ⟨book.toUntouched, regsOf_noteIssue s k⟩
    have faulted : Quiet s (finish (noteIssue s k) k (.fault code k.lanes 0)) := noted.trans (endSlot_quiet ((book.rest _ _).trans left) more _)
    have quiet := faulted.trans (endIssue_quiet _)
    exact ⟨onlyDest_of_same quiet.regs _ _ _, quiet.toUntouched⟩
  · have running : ∃ r, (issued s k nd).regsOf k.agent = some r :=
      ⟨x.regs, by rw [regsOf_issued, State.regsOf, issOf_agent iss]; rfl⟩
    have book := (issued_bookkeeping s k nd).trans (putFixed_bookkeeping k (issued s k nd) d wide (f k))
    have quiet := (endSlot_quiet ((book.rest _ _).trans left) more .nothing).trans (endIssue_quiet _)
    have result := onlyDest_of_fixedResult (putFixed_result k (issued s k nd) d wide (f k) running).2
    exact ⟨onlyDest_of_sameRegs (regsOf_issued s k nd) result quiet.regs, book.toUntouched.trans quiet.toUntouched⟩

/-- R83: the instructions of `fixedDest` put one result of fixed latency per lane into that destination. -/
theorem exec_of_fixedDest {i : Instr} {d : Nat} {wide : Bool} (h : fixedDest i = some (d, wide)) :
    ∃ (g : Ctl) (nd : Need) (f : Iss → Nat → LaneOut), ∀ s, exec i s = instr s g nd fun k s => putFixed k s d wide (f k) := by
  unfold fixedDest at h
  split at h <;> cases h <;> exact ⟨_, _, _, fun _ => rfl⟩

/-! ## Results that wait (R65-R67) -/

theorem mem_outWrites {d : Nat} {wide : Bool} {os : List (Nat × LaneOut)} {key : Nat} {w : Word} (h : (key, w) ∈ outWrites d wide os) :
    ∃ o ∈ os, key = 32 * d + o.1 ∨ (wide ∧ key = 32 * (d + 1) + o.1) := by
  obtain ⟨o, ho, h⟩ := List.mem_flatMap.1 h
  refine ⟨o, ho, ?_⟩
  rcases List.mem_cons.1 h with low | high
  · exact .inl (congrArg Prod.fst low)
  · cases wide with
    | false => cases high
    | true => exact .inr ⟨rfl, congrArg Prod.fst (List.mem_singleton.1 high)⟩

theorem lane_of_mem_laneOuts {k : Iss} {f : Nat → LaneOut} {o : Nat × LaneOut} (h : o ∈ laneOuts k f) : o.1 < 32 ∧ k.lanes.getLsbD o.1 := by
  obtain ⟨l, hl, rfl⟩ := List.mem_map.1 h
  exact mem_lanesOf.1 hl

/-- A result that is left outstanding changes no register and no memory yet, and joins the end of the list. -/
theorem outstanding_frame {b t : State} {n : Nat} {cnt : BitVec 3} {p : Pend} (h : Outstanding b t n cnt p) :
    SameRegs b t ∧ SameMemory b t ∧ t.pend = b.pend ++ [p] := by
  unfold Outstanding at h
  dsimp only at h
  split at h <;> subst h
  · exact ⟨regsOf_agents rfl, sameMemory_of, rfl⟩
  · exact ⟨fun m => (regsOf_bump _ n m cnt.toNat true).trans (regsOf_agents rfl m), sameMemory_of, rfl⟩

theorem pendingResult_frame {k : Iss} {b t : State} {g : Ctl} {d : Nat} {wide : Bool} {f : Nat → LaneOut} (h : PendingResult b t k g d wide f) :
    SameRegs b t ∧ SameMemory b t ∧ ∃ p, t.pend = b.pend ++ [p] ∧ ∀ key w, (key, w) ∈ p.writes →
      ∃ lane, lane < 32 ∧ k.lanes.getLsbD lane ∧ (key = 32 * d + lane ∨ (wide ∧ key = 32 * (d + 1) + lane)) := by
  obtain ⟨p, outstanding, -, writes, -⟩ := h
  obtain ⟨regs, mem, pend⟩ := outstanding_frame outstanding
  refine ⟨regs, mem, p, pend, fun key w hw => ?_⟩
  rw [writes] at hw
  obtain ⟨o, ho, place⟩ := mem_outWrites hw
  obtain ⟨lt, on⟩ := lane_of_mem_laneOuts ho
  exact ⟨o.1, lt, on, place⟩

/-- Settles O17: a fixed result's frame by each way its issue can end, and a pending result's by what is left outstanding. -/
theorem resultsChangeOnlyTheirDestination : Obligations.ResultsChangeOnlyTheirDestination := by
  unfold Obligations.ResultsChangeOnlyTheirDestination
  refine ⟨fun i d wide dest s t c b hc hb more h => ?fixed, fun k b t g d wide f h => pendingResult_frame h⟩
  case fixed =>
    obtain ⟨g, nd, f, result⟩ := exec_of_fixedDest dest
    obtain ⟨only, rest⟩ := instr_putFixed_frame hc hb more ((result s).symm.trans h)
    exact ⟨only, rest.mem, rest.ctxs, rest.gangs, rest.clk, rest.tick⟩

end Sys2Proof.Machine.NumberFormats
end

section
/-! PROOFS. Integer arithmetic and carry chains (R135, R137, R138). -/

namespace Sys2Proof.Machine.ScalarVector

/-! ## Integer instructions with one result per lane -/

/-- An instruction whose meaning is `intOp` computes the integer that `intOp` is given. -/
theorem computesInt_of {i : Instr} {g : Ctl} {var : Bool} {out : Ty} {d : Nat} {sat : Bool} {names : List (Nat × Nat)} {f : Regs → Nat → Int}
    (h : ∀ s, exec i s = intOp s g var out d sat names f) : ComputesInt i g var out d sat names f :=
  computes_put h

/-- Two forms whose meanings are `intAB`, with B from its register or from the immediate. -/
theorem computesAB_of {mk : V3 → Instr} {mkI : VI → Instr} {var : Ty → Bool} {sat : Bool} {f : Ty → Int → Int → Int}
    (v3 : ∀ (x : V3) (s : State), exec (mk x) s = intAB s x.ctl (var x.ty) x.ty x.d.toNat x.a.toNat (srcV3 x) (sat && x.sat) (f x.ty))
    (vi : ∀ (x : VI) (s : State), exec (mkI x) s = intAB s x.ctl (var x.ty) x.ty x.d.toNat x.a.toNat (srcVI x) (sat && x.sat) (f x.ty)) :
    ComputesAB mk mkI var sat f :=
  ⟨fun x => computesInt_of (v3 x), fun x => computesInt_of (vi x)⟩

/-- SAD adds the bytes' differences under .n8, the values' difference under any other type (R137). -/
theorem computes_sad (x : V3) :
    ComputesInt (.sad x) x.ctl false .n32 x.d.toNat false [(x.a.toNat, 1), (x.b.toNat, 1), (x.c.toNat, 1)] fun r l =>
      if x.ty = .n8 then intAt r .n32 x.c.toNat l + sadBytes (r.get x.a.toNat l).toNat (r.get x.b.toNat l).toNat
      else intAt r .n32 x.c.toNat l + (intAt r x.ty x.a.toNat l - intAt r x.ty x.b.toNat l).natAbs := by
  refine computesInt_of fun s => ?_
  change execSad x s = _
  simp only [execSad, beq_iff_eq]

/-- The pair type that IMADW's C and D have (R137). -/
theorem wideTy_eq (t : Ty) : (if t == .s32 then Ty.s64 else .n64) = if t = .s32 then .s64 else .n64 := by
  simp only [beq_iff_eq]

theorem computes_imadw (x : V3) :
    let w : Ty := if x.ty = .s32 then .s64 else .n64
    ComputesInt (.imadw x) x.ctl true w x.d.toNat x.sat [(x.a.toNat, 1), (x.c.toNat, 2), (x.b.toNat, 1)] fun r l =>
      intAt r x.ty x.a.toNat l * intAt r x.ty x.b.toNat l + intAt r w x.c.toNat l := by
  rw [← wideTy_eq]
  exact computesInt_of fun _ => rfl

theorem computes_imadwImm (x : VI) :
    let w : Ty := if x.ty = .s32 then .s64 else .n64
    ComputesInt (.imadwImm x) x.ctl true w x.d.toNat x.sat [(x.a.toNat, 1), (x.c.toNat, 2)] fun r l =>
      intAt r x.ty x.a.toNat l * intOf x.ty (immRaw x.ty x.imm) + intAt r w x.c.toNat l := by
  rw [← wideTy_eq]
  exact computesInt_of fun _ => rfl

/-! ## Carry chains (R138) -/

/-- IADDC's step adds the carry as a number. -/
theorem addCarry_add (c : Bool) (a b : Nat) : addCarry false c a b = ((a + b + c.toNat) % 2 ^ 32, decide (a + b + c.toNat ≥ 2 ^ 32)) := by
  cases c <;> rfl

/-- With FL set it subtracts the borrow as a number. -/
theorem addCarry_sub (c : Bool) (a b : Nat) : addCarry true c a b = (wrap 32 ((a : Int) - b - c.toNat), decide ((a : Int) - b - c.toNat < 0)) := by
  cases c <;> rfl

/-- The word that IADDC writes is the sum or difference with the carry, wrapped. -/
theorem addCarry_value (sub c : Bool) (a b : Word) :
    BitVec.ofNat 32 (addCarry sub c a.toNat b.toNat).1 = BitVec.ofInt 32 (carrySum sub a b c) := by
  apply BitVec.eq_of_toNat_eq
  rw [BitVec.toNat_ofNat, BitVec.toNat_ofInt]
  cases sub
  · rw [addCarry_add, carrySum, if_neg Bool.false_ne_true]
    dsimp only
    omega
  · rw [addCarry_sub, carrySum, if_pos rfl, wrap]
    dsimp only
    omega

/-- Its carry or borrow out says that the sum or difference lies outside a word. -/
theorem addCarry_out (sub c : Bool) (a b : Word) :
    (addCarry sub c a.toNat b.toNat).2 = decide (carrySum sub a b c < 0 ∨ 2 ^ 32 ≤ carrySum sub a b c) := by
  cases sub
  · rw [addCarry_add, carrySum, if_neg Bool.false_ne_true, decide_eq_decide]
    omega
  · rw [addCarry_sub, carrySum, if_pos rfl, decide_eq_decide]
    omega

/-- IADDC's effect for a B operand that stands for the word `b l` in each lane. -/
theorem does_intCarry {i : Instr} {g : Ctl} {d a p : Nat} {b : Src} {sub : Bool} {word : Iss → Nat → Word}
    (meaning : ∀ s, exec i s = intCarry s g d a b p sub) (raw : ∀ k l, b.raw k.src .n32 l = (word k l).toNat) :
    Does i g (needInt ((d, 1) :: (a, 1) :: b.names 1)) fun k s =>
      let t (l : Nat) : Int := carrySum sub (k.src.get a l) (word k l) (k.src.pred p l)
      k.writePred (k.write s d fun l => BitVec.ofInt 32 (t l)) p fun l => t l < 0 ∨ 2 ^ 32 ≤ t l := by
  refine does_of meaning fun k s => ?_
  simp only [raw, addCarry_value, addCarry_out]

theorem iaddc_fields {x : V3} (h : (Instr.iaddc x).wf) : x.ty = .n32 ∧ x.fl.toNat ≤ 1 ∧ x.c.toNat < 16 ∧ x.rnd = .dyn ∧ x.sat = false := by
  simp only [Instr.wf, V3.noRnd, V3.noSat, predField, Bool.and_eq_true, beq_iff_eq, decide_eq_true_eq, Bool.not_eq_true'] at h
  obtain ⟨⟨⟨⟨⟨⟨-, ty⟩, rnd⟩, sat⟩, fl⟩, -⟩, c⟩ := h
  exact ⟨ty, fl, c, rnd, sat⟩

theorem iaddcImm_fields {x : VI} (h : (Instr.iaddcImm x).wf) : x.ty = .n32 ∧ x.fl.toNat ≤ 1 ∧ x.c.toNat < 16 ∧ x.rndCode = 0 ∧ x.sat = false := by
  simp only [Instr.wf, VI.noRnd, VI.noSat, predField, Bool.and_eq_true, beq_iff_eq, decide_eq_true_eq, Bool.not_eq_true'] at h
  obtain ⟨⟨⟨⟨⟨-, ty⟩, rnd⟩, sat⟩, fl⟩, c⟩ := h
  exact ⟨ty, fl, c, rnd, sat⟩

/-- Settles O7: each instruction's meaning is one of the shared integer operations, and a carry chain's step is the sum with the carry. -/
theorem integerArithmeticAndCarryChains : Obligations.IntegerArithmeticAndCarryChains := by
  unfold Obligations.IntegerArithmeticAndCarryChains
  refine ⟨⟨?iadd, ?isub, ?iadd64, ?imin, ?imax, ?imul, ?imulh⟩, ⟨?iabs, computes_sad, ?lea, ?leaImm, ?imad, ?imadImm, computes_imadw, computes_imadwImm⟩,
    ?iaddc, ?iaddcImm, fun _ => iaddc_fields, fun _ => iaddcImm_fields⟩
  case iadd | isub | iadd64 | imin | imax | imul | imulh => exact computesAB_of (fun _ _ => rfl) fun _ _ => rfl
  case iabs | lea | leaImm | imad | imadImm => exact fun x => computesInt_of fun _ => rfl
  case iaddc => exact fun x => does_intCarry (b := srcV3 x) (fun _ => rfl) fun _ _ => rfl
  case iaddcImm => exact fun x => does_intCarry (b := srcVI x) (fun _ => rfl) fun _ _ => rfl

end Sys2Proof.Machine.ScalarVector
end

section
/-! PROOFS. Shifts, bitwise logic and the fields of integer words (R135, R139, R140). -/

namespace Sys2Proof.Machine.ScalarVector

/-! ## The fields of a word without rounding, saturation and flags (R135) -/

theorem int_fields {x : V3} {c : Bool} (h : x.int c false) : x.rnd = .dyn ∧ x.sat = false ∧ x.fl = 0 ∧ x.opx = 0 := by
  simp only [V3.int, Bool.and_eq_true, Bool.false_or, Bool.not_eq_true', beq_iff_eq] at h
  obtain ⟨⟨⟨⟨rnd, sat⟩, fl⟩, opx⟩, -⟩ := h
  exact ⟨rnd, sat, fl, opx⟩

/-- Of a VI word the rounding code, SAT and FL are the whole control byte (R60). -/
theorem bctl_of_int {x : VI} {c : Bool} (h : x.int c false) : x.bctl = 0 := by
  simp only [VI.int, VI.rndCode, VI.sat, VI.fl, Bool.and_eq_true, Bool.false_or, Bool.not_eq_true', beq_iff_eq] at h
  obtain ⟨⟨⟨rnd, sat⟩, fl⟩, -⟩ := h
  have low : x.bctl.toNat % 16 = 0 := by simpa using congrArg BitVec.toNat fl
  rw [BitVec.getLsbD, Nat.testBit_eq_decide_div_mod_eq, decide_eq_false_iff_not] at sat
  exact BitVec.eq_of_toNat_eq (show x.bctl.toNat = 0 by omega)

theorem raw_iff {t : Ty} : t.raw = true ↔ t = .b32 ∨ t = .b64 := by
  simp only [Ty.raw, Bool.or_eq_true, beq_iff_eq]

theorem int32_iff {t : Ty} : t.int32 = true ↔ t = .s32 ∨ t = .n32 := by
  simp only [Ty.int32, Bool.or_eq_true, beq_iff_eq]

/-! ## Shifts (R139) -/

/-- Two forms whose meanings are `shiftOp`, with the count from B or the immediate. -/
theorem computesShift_of {mk : V3 → Instr} {mkI : VI → Instr} {f : Ty → Nat → Nat → Int}
    (v3 : ∀ (x : V3) (s : State), exec (mk x) s = shiftOp s x.ctl x.ty x.d.toNat x.a.toNat (srcV3 x) (f x.ty))
    (vi : ∀ (x : VI) (s : State), exec (mkI x) s = shiftOp s x.ctl x.ty x.d.toNat x.a.toNat (srcVI x) (f x.ty)) :
    ComputesShift mk mkI f :=
  ⟨fun x => computesInt_of (v3 x), fun x => computesInt_of (vi x)⟩

theorem shl_shr_fields {x : V3} (h : (Instr.shl x).wf ∨ (Instr.shr x).wf) : (x.ty = .b32 ∨ x.ty = .b64) ∧ x.rnd = .dyn ∧ x.sat = false ∧ x.fl = 0 := by
  simp only [Instr.wf, or_self, Bool.and_eq_true, raw_iff] at h
  obtain ⟨⟨⟨-, ty⟩, rest⟩, -⟩ := h
  obtain ⟨rnd, sat, fl, -⟩ := int_fields rest
  exact ⟨ty, rnd, sat, fl⟩

theorem sar_fields {x : V3} (h : (Instr.sar x).wf) : (x.ty = .s32 ∨ x.ty = .s64) ∧ x.rnd = .dyn ∧ x.sat = false ∧ x.fl = 0 := by
  simp only [Instr.wf, Bool.and_eq_true, Bool.or_eq_true, beq_iff_eq] at h
  obtain ⟨⟨⟨-, ty⟩, rest⟩, -⟩ := h
  obtain ⟨rnd, sat, fl, -⟩ := int_fields rest
  exact ⟨ty, rnd, sat, fl⟩

theorem rot_fields {x : V3} (h : (Instr.rot x).wf) : x.ty = .b32 ∧ x.rnd = .dyn ∧ x.sat = false ∧ x.fl = 0 := by
  simp only [Instr.wf, Bool.and_eq_true, beq_iff_eq] at h
  obtain ⟨⟨-, ty⟩, rest⟩ := h
  obtain ⟨rnd, sat, fl, -⟩ := int_fields rest
  exact ⟨ty, rnd, sat, fl⟩

theorem shlImm_shrImm_fields {x : VI} (h : (Instr.shlImm x).wf ∨ (Instr.shrImm x).wf) : (x.ty = .b32 ∨ x.ty = .b64) ∧ x.bctl = 0 := by
  simp only [Instr.wf, or_self, Bool.and_eq_true, raw_iff] at h
  obtain ⟨⟨⟨-, ty⟩, rest⟩, -⟩ := h
  exact ⟨ty, bctl_of_int rest⟩

theorem sarImm_fields {x : VI} (h : (Instr.sarImm x).wf) : (x.ty = .s32 ∨ x.ty = .s64) ∧ x.bctl = 0 := by
  simp only [Instr.wf, Bool.and_eq_true, Bool.or_eq_true, beq_iff_eq] at h
  obtain ⟨⟨⟨-, ty⟩, rest⟩, -⟩ := h
  exact ⟨ty, bctl_of_int rest⟩

theorem rotImm_fields {x : VI} (h : (Instr.rotImm x).wf) : x.ty = .b32 ∧ x.bctl = 0 := by
  simp only [Instr.wf, Bool.and_eq_true, beq_iff_eq] at h
  obtain ⟨⟨-, ty⟩, rest⟩ := h
  exact ⟨ty, bctl_of_int rest⟩

/-! ## Bitwise logic and LOP3 (R140) -/

/-- Two forms whose meanings are `logicOp`. -/
theorem computesLogic_of {mk : V3 → Instr} {mkI : VI → Instr} {f : Dword → Dword → Dword}
    (v3 : ∀ (x : V3) (s : State), exec (mk x) s = logicOp s x.ctl x.ty x.d.toNat x.a.toNat (srcV3 x) f)
    (vi : ∀ (x : VI) (s : State), exec (mkI x) s = logicOp s x.ctl x.ty x.d.toNat x.a.toNat (srcVI x) f) :
    ComputesLogic mk mkI f :=
  ⟨fun x => computesInt_of (v3 x), fun x => computesInt_of (vi x)⟩

/-- Two forms whose meanings are `word3`. -/
theorem computesWord3_of {α : Type} {mk : V3 → Instr} {mkI : VI → Instr} {tv : V3 → α} {ti : VI → α} {f : α → Word → Word → Word → Word}
    (v3 : ∀ (x : V3) (s : State), exec (mk x) s = word3 s x.ctl x.d.toNat x.a.toNat (srcV3 x) x.c.toNat (f (tv x)))
    (vi : ∀ (x : VI) (s : State), exec (mkI x) s = word3 s x.ctl x.d.toNat x.a.toNat (srcVI x) x.c.toNat (f (ti x))) :
    ComputesWord3 mk mkI tv ti f :=
  ⟨fun x => computesInt_of (v3 x), fun x => computesInt_of (vi x)⟩

/-- A word built up over a list has a bit where one of the steps sets it. -/
theorem getLsbD_foldl {α : Type} {w n : Nat} {step : BitVec w → α → BitVec w} {sets : α → Bool}
    (h : ∀ x i, (step x i).getLsbD n = (x.getLsbD n || sets i)) (is : List α) (x : BitVec w) :
    (is.foldl step x).getLsbD n = (x.getLsbD n || is.any sets) := by
  induction is generalizing x with
  | nil => rw [List.foldl_nil, List.any_nil, Bool.or_false]
  | cons i is ih => rw [List.foldl_cons, ih, h, List.any_cons, Bool.or_assoc]

/-- The index that three bits make, the first the lowest. -/
def bitIndex (a b c : Bool) : Nat := a.toNat + 2 * b.toNat + 4 * c.toNat

theorem bitIndex_lt (a b c : Bool) : bitIndex a b c < 8 := by
  have := a.toNat_le
  have := b.toNat_le
  have := c.toNat_le
  unfold bitIndex
  omega

/-- The minterm of three words that a bit of the truth table stands for. -/
def minterm (a b c : Word) (i : Nat) : Word :=
  (if i % 2 == 1 then a else ~~~a) &&& (if i / 2 % 2 == 1 then b else ~~~b) &&& (if i / 4 == 1 then c else ~~~c)

/-- A word or its complement, as a selector's bit chooses, has the bits that agree with the selector. -/
theorem getLsbD_literal {n : Nat} (hn : n < 32) (keep : Bool) (a : Word) : (if keep then a else ~~~a).getLsbD n = (a.getLsbD n == keep) := by
  cases keep <;> simp [hn]

/-- Three bits agree with an index's binary digits where they make that index. -/
theorem digits_of_index : ∀ i < 8, ∀ p q r : Bool, (p == (i % 2 == 1) && q == (i / 2 % 2 == 1) && r == (i / 4 == 1)) = decide (i = bitIndex p q r) := by
  decide

/-- A minterm holds just those bits at which the three words' bits make its index. -/
theorem getLsbD_minterm {n i : Nat} (hn : n < 32) (hi : i < 8) (a b c : Word) :
    (minterm a b c i).getLsbD n = decide (i = bitIndex (a.getLsbD n) (b.getLsbD n) (c.getLsbD n)) := by
  simp only [minterm, BitVec.getLsbD_and, getLsbD_literal hn]
  exact digits_of_index i hi _ _ _

/-- R140: each bit of LOP3 is the truth table's at the index of the three words' bits. -/
theorem getLsbD_lop3Of (tt : BitVec 8) (a b c : Word) {n : Nat} (hn : n < 32) :
    (lop3Of tt a b c).getLsbD n = tt.getLsbD (bitIndex (a.getLsbD n) (b.getLsbD n) (c.getLsbD n)) := by
  have step (x : Word) (i : Nat) : (if tt.getLsbD i then x ||| minterm a b c i else x).getLsbD n
      = (x.getLsbD n || (tt.getLsbD i && (minterm a b c i).getLsbD n)) := by
    cases tt.getLsbD i <;> simp
  change ((List.range 8).foldl (fun x i => if tt.getLsbD i then x ||| minterm a b c i else x) 0).getLsbD n = _
  rw [getLsbD_foldl step, Bool.eq_iff_iff]
  simp only [BitVec.ofNat_eq_ofNat, BitVec.getLsbD_zero, Bool.false_or, List.any_eq_true, List.mem_range, Bool.and_eq_true]
  constructor
  · rintro ⟨i, hi, set, here⟩
    rw [getLsbD_minterm hn hi, decide_eq_true_eq] at here
    exact here ▸ set
  · exact fun set => ⟨_, bitIndex_lt _ _ _, set, by rw [getLsbD_minterm hn (bitIndex_lt _ _ _), decide_eq_true_eq]⟩

theorem logic_ty {x : V3} (h : (Instr.and x).wf ∨ (Instr.or x).wf ∨ (Instr.xor x).wf) : x.ty = .b32 ∨ x.ty = .b64 := by
  simp only [Instr.wf, or_self, Bool.and_eq_true, raw_iff] at h
  obtain ⟨⟨⟨-, ty⟩, -⟩, -⟩ := h
  exact ty

theorem logicImm_ty {x : VI} (h : (Instr.andImm x).wf ∨ (Instr.orImm x).wf ∨ (Instr.xorImm x).wf) : x.ty = .b32 ∨ x.ty = .b64 := by
  simp only [Instr.wf, or_self, Bool.and_eq_true, raw_iff] at h
  obtain ⟨⟨⟨-, ty⟩, -⟩, -⟩ := h
  exact ty

theorem lop3_fields {x : V3} (h : (Instr.lop3 x).wf) : x.ty = .b32 ∧ x.opx.toNat < 256 := by
  simp only [Instr.wf, Bool.and_eq_true, beq_iff_eq, decide_eq_true_eq] at h
  obtain ⟨⟨⟨⟨⟨-, ty⟩, -⟩, -⟩, -⟩, opx⟩ := h
  exact ⟨ty, opx⟩

theorem lop3Imm_ty {x : VI} (h : (Instr.lop3Imm x).wf) : x.ty = .b32 := by
  simp only [Instr.wf, Bool.and_eq_true, beq_iff_eq] at h
  exact h.2

/-- Settles O8: the shifts' and logic's meanings are the shared operations, and LOP3 joins the minterms that its truth table names. -/
theorem shiftsAndBitwiseLogic : Obligations.ShiftsAndBitwiseLogic := by
  unfold Obligations.ShiftsAndBitwiseLogic
  refine ⟨⟨?shl, ?shr, ?sar, ?rot, fun _ => shl_shr_fields, fun _ => sar_fields, fun _ => rot_fields, fun _ => shlImm_shrImm_fields, fun _ => sarImm_fields,
    fun _ => rotImm_fields⟩, ?and, ?or, ?xor, ?lop3, fun tt a b c _ hn => getLsbD_lop3Of tt a b c hn, fun _ => logic_ty, fun _ => logicImm_ty,
    fun _ => lop3_fields, fun _ => lop3Imm_ty⟩
  case shl | shr | sar | rot => exact computesShift_of (fun _ _ => rfl) fun _ _ => rfl
  case and | or | xor => exact computesLogic_of (fun _ _ => rfl) fun _ _ => rfl
  case lop3 => exact computesWord3_of (fun _ _ => rfl) fun _ _ => rfl

end Sys2Proof.Machine.ScalarVector
end

section
/-! PROOFS. Bit counts, bit fields and byte permutes (R141-R143). -/

namespace Sys2Proof.Machine.ScalarVector

/-! ## Counts and reversal (R141) -/

theorem popcOf_eq (w a : Nat) : popcOf w a = ((List.range w).filter fun i => a.testBit i).length := by
  have fold (is : List Nat) (n : Nat) : is.foldl (fun n i => n + a / 2 ^ i % 2) n = n + (is.filter fun i => a.testBit i).length := by
    induction is generalizing n with
    | nil => rfl
    | cons i is ih =>
      rw [List.foldl_cons, ih, ← Nat.toNat_testBit, List.filter_cons]
      cases a.testBit i
      · rfl
      · rw [if_pos rfl, List.length_cons, Bool.toNat_true]
        omega
  exact (fold (List.range w) 0).trans (Nat.zero_add _)

theorem clzOf_zero (w : Nat) : clzOf w 0 = w := rfl

/-- Above a nonzero number's highest bit stand as many zeros as CLZ counts. -/
theorem clzOf_bounds {w a : Nat} (lt : a < 2 ^ w) (ne : a ≠ 0) : 2 ^ (w - 1 - clzOf w a) ≤ a ∧ a < 2 ^ (w - clzOf w a) := by
  have top : Nat.log2 a < w := (Nat.log2_lt ne).2 lt
  have count : clzOf w a = w - 1 - Nat.log2 a := if_neg (by simpa using ne)
  have lowest : w - 1 - clzOf w a = Nat.log2 a := by omega
  have past : w - clzOf w a = Nat.log2 a + 1 := by omega
  rw [lowest, past]
  exact ⟨Nat.log2_self_le ne, Nat.lt_log2_self⟩

theorem ctzOf_eq (w a : Nat) : ctzOf w a = ((List.range w).find? a.testBit).getD w := by
  have bit : (fun i => a / 2 ^ i % 2 == 1) = a.testBit := by
    funext i
    rw [Nat.testBit_eq_decide_div_mod_eq]
    rfl
  rw [ctzOf, bit]

theorem ctzOf_zero (w : Nat) : ctzOf w 0 = w := by
  have none_set : (List.range w).find? (Nat.testBit 0) = none := List.find?_eq_none.2 fun i _ => by simp
  rw [ctzOf_eq, none_set, Option.getD_none]

/-- CTZ finds the lowest bit that is set: it is set, and all below it are clear. -/
theorem ctzOf_lowest {w a : Nat} (lt : a < 2 ^ w) (ne : a ≠ 0) : a.testBit (ctzOf w a) ∧ a % 2 ^ ctzOf w a = 0 := by
  obtain ⟨j, set⟩ := Nat.exists_testBit_of_ne_zero ne
  have below : j < w := Nat.lt_of_not_le fun le => by
    rw [Nat.testBit_lt_two_pow (Nat.lt_of_lt_of_le lt (Nat.pow_le_pow_right (by decide) le))] at set
    cases set
  cases found : (List.range w).find? a.testBit with
  | none => exact absurd set (List.find?_eq_none.1 found j (List.mem_range.2 below))
  | some i =>
    obtain ⟨here, -, clear⟩ := List.find?_range_eq_some.1 found
    rw [ctzOf_eq, found, Option.getD_some]
    refine ⟨here, Nat.eq_of_testBit_eq fun k => ?_⟩
    rw [Nat.testBit_mod_two_pow, Nat.zero_testBit, Bool.and_eq_false_imp]
    exact fun lower => by simpa using clear k (of_decide_eq_true lower)

/-- A number summed from bits at their places has those bits, and no more. -/
theorem sum_of_bits (f : Nat → Nat) (bits : ∀ i, f i < 2) (k : Nat) :
    let n := (List.range k).foldl (fun n i => n + f i * 2 ^ i) 0
    n < 2 ^ k ∧ ∀ i < k, n.testBit i = decide (f i = 1) := by
  induction k with
  | zero => exact ⟨Nat.one_pos, fun i hi => absurd hi (Nat.not_lt_zero i)⟩
  | succ k ih =>
    obtain ⟨lt, low⟩ := ih
    simp only [List.range_succ, List.foldl_append, List.foldl_cons, List.foldl_nil]
    generalize (List.range k).foldl (fun n i => n + f i * 2 ^ i) 0 = n at lt low
    have top := bits k
    refine ⟨?_, fun i hi => ?_⟩
    · have := Nat.mul_le_mul_right (2 ^ k) (Nat.le_of_lt_succ top)
      rw [Nat.pow_succ]
      omega
    · rw [Nat.add_comm, Nat.mul_comm, Nat.testBit_two_pow_mul_add _ lt]
      split
      · next lower => exact low i lower
      · next upper =>
        obtain rfl : i = k := by omega
        rw [Nat.sub_self, Nat.testBit_zero, Nat.mod_eq_of_lt top]

theorem testBit_brevOf {w i : Nat} (a : Nat) (hi : i < w) : (brevOf w a).testBit i = a.testBit (w - 1 - i) := by
  rw [Nat.testBit_eq_decide_div_mod_eq (i := w - 1 - i)]
  exact (sum_of_bits (fun i => a / 2 ^ (w - 1 - i) % 2) (fun _ => Nat.mod_lt _ (by decide)) w).2 i hi

theorem count_fields {x : V3} (h : (Instr.popc x).wf ∨ (Instr.clz x).wf ∨ (Instr.ctz x).wf ∨ (Instr.brev x).wf) :
    (x.ty = .b32 ∨ x.ty = .b64) ∧ x.rnd = .dyn ∧ x.sat = false ∧ x.fl = 0 ∧ x.opx = 0 := by
  simp only [Instr.wf, Bool.and_eq_true, raw_iff] at h
  rcases h with h | h | h | h
  all_goals
    obtain ⟨⟨⟨⟨-, ty⟩, rest⟩, -⟩, -⟩ := h
    exact ⟨ty, int_fields rest⟩

/-! ## Bit fields (R142) -/

/-- Division by a power of two rounds down. -/
theorem fdiv_two_pow (a : Int) (n : Nat) : a.fdiv (2 ^ n : Nat) = a / (2 ^ n : Nat) := Int.fdiv_eq_ediv_of_nonneg _ (Int.natCast_nonneg _)

theorem natCast_wrap (w : Nat) (x : Int) : (wrap w x : Int) = x % (2 ^ w : Nat) :=
  Int.toNat_of_nonneg (Int.emod_nonneg _ (Int.natCast_ne_zero.2 (Nat.ne_of_gt (Nat.two_pow_pos w))))

/-- BFX reads the field at its position and length, its top bit spread under .s32. -/
theorem bfxOf_eq (t : Ty) (a : Nat) (b : Word) : bfxOf t a b = bitField t a b.toNat := by
  have field : (wrap (fieldLen b) ((intOf t a).fdiv (2 ^ fieldPos b : Nat)) : Int)
      = intOf t a / (2 ^ (b.toNat % 256) : Nat) % (2 ^ min (b.toNat / 256 % 256) 32 : Nat) := by
    rw [natCast_wrap, fdiv_two_pow, fieldLen, fieldPos]
  unfold bfxOf bitField
  dsimp only
  rw [← field]
  generalize wrap (fieldLen b) ((intOf t a).fdiv (2 ^ fieldPos b : Nat)) = f
  have spread : ((t == .s32 && decide (fieldLen b > 0) && f / 2 ^ (fieldLen b - 1) % 2 == 1) = true)
      ↔ t = .s32 ∧ 0 < fieldLen b ∧ (f : Int) / (2 ^ (fieldLen b - 1) : Nat) % 2 = 1 := by
    rw [Bool.and_eq_true, Bool.and_eq_true, beq_iff_eq, beq_iff_eq, decide_eq_true_eq, and_assoc]
    norm_cast
  by_cases h : t = .s32 ∧ 0 < fieldLen b ∧ (f : Int) / (2 ^ (fieldLen b - 1) : Nat) % 2 = 1
  · exact (if_pos (spread.2 h)).trans (if_pos h).symm
  · exact (if_neg (mt spread.1 h)).trans (if_neg h).symm

theorem computes_bfx (x : V3) : ComputesInt (.bfx x) x.ctl false x.ty x.d.toNat false [(x.a.toNat, 1), (x.b.toNat, 1)] fun r l =>
    bitField x.ty (rawOf r x.ty x.a.toNat l) (r.get x.b.toNat l).toNat := by
  simp only [← bfxOf_eq]
  exact computesInt_of fun _ => rfl

theorem computes_bfxImm (x : VI) : ComputesInt (.bfxImm x) x.ctl false x.ty x.d.toNat false [(x.a.toNat, 1)] fun r l =>
    bitField x.ty (rawOf r x.ty x.a.toNat l) x.imm.toNat := by
  simp only [← bfxOf_eq]
  exact computesInt_of fun _ => rfl

theorem bfx_fields {x : V3} (h : (Instr.bfx x).wf) : (x.ty = .s32 ∨ x.ty = .n32) ∧ x.rnd = .dyn ∧ x.sat = false ∧ x.fl = 0 := by
  simp only [Instr.wf, Bool.and_eq_true, int32_iff] at h
  obtain ⟨⟨-, ty⟩, rest⟩ := h
  obtain ⟨rnd, sat, fl, -⟩ := int_fields rest
  exact ⟨ty, rnd, sat, fl⟩

theorem bfxImm_fields {x : VI} (h : (Instr.bfxImm x).wf) : (x.ty = .s32 ∨ x.ty = .n32) ∧ x.bctl = 0 := by
  simp only [Instr.wf, Bool.and_eq_true, int32_iff] at h
  obtain ⟨⟨-, ty⟩, rest⟩ := h
  exact ⟨ty, bctl_of_int rest⟩

/-! ## Byte permutes (R143) -/

/-- A byte put at its place among four stands there alone. -/
theorem getLsbD_byte_shifted {i j n : Nat} (hn : n < 8) (hi : i < 4) (y : Byte) :
    (y.zeroExtend 32 <<< (8 * j) : Word).getLsbD (8 * i + n) = (decide (j = i) && y.getLsbD n) := by
  have word : 8 * i + n < 32 := by omega
  rw [BitVec.getLsbD_shiftLeft, BitVec.getLsbD_setWidth, decide_eq_true word, Bool.true_and]
  by_cases at_place : j = i
  · subst at_place
    have : n < 32 := by omega
    simp [this]
  · rcases Nat.lt_or_gt_of_ne at_place with before | after
    · rw [BitVec.getLsbD_of_ge _ _ (by omega)]
      simp [at_place]
    · have : 8 * i + n < 8 * j := by omega
      simp [at_place, this]

/-- Of four bytes put at their places, each can be read back. -/
theorem extractLsb'_joined_bytes (y : Nat → Byte) {i : Nat} (hi : i < 4) :
    ((List.range 4).foldl (fun x j => x ||| ((y j).zeroExtend 32 <<< (8 * j))) (0 : Word)).extractLsb' (8 * i) 8 = y i := by
  apply BitVec.eq_of_getLsbD_eq
  intro n hn
  have step (x : Word) (j : Nat) : (x ||| ((y j).zeroExtend 32 <<< (8 * j))).getLsbD (8 * i + n) = (x.getLsbD (8 * i + n) || (decide (j = i) && (y j).getLsbD n)) := by
    rw [BitVec.getLsbD_or, getLsbD_byte_shifted hn hi]
  rw [BitVec.getLsbD_extractLsb', decide_eq_true hn, Bool.true_and, getLsbD_foldl step, BitVec.ofNat_eq_ofNat, BitVec.getLsbD_zero, Bool.false_or, Bool.eq_iff_iff]
  simp only [List.any_eq_true, List.mem_range, Bool.and_eq_true, decide_eq_true_eq]
  exact ⟨fun ⟨_, _, here, set⟩ => here ▸ set, fun set => ⟨i, hi, rfl, set⟩⟩

/-- The selector byte that PRMT reads for a place. -/
theorem selector_eq (b : Word) (i : Nat) : b.toNat / 256 ^ i % 256 = (b.extractLsb' (8 * i) 8).toNat := by
  rw [BitVec.extractLsb'_toNat, Nat.shiftRight_eq_div_pow, Nat.pow_mul]

/-- What PRMT writes in a byte, by bits 4:3 of its selector. -/
theorem prmtByte_eq (s : Nat) (y : Dword) :
    let z : Byte := y.extractLsb' (8 * (s % 8)) 8
    prmtByte s y = if s / 8 % 4 = 0 then z else if s / 8 % 4 = 1 then 0 else if s / 8 % 4 = 2 then (if z.getLsbD 7 then 0xFF else 0) else 0xFF := by
  unfold prmtByte
  rcases s / 8 % 4 with _ | _ | _ | _ <;> rfl

/-- R143: each byte of the result is chosen from the eight bytes of A and C under its own selector. -/
theorem extractLsb'_prmtOf (a b c : Word) {i : Nat} (hi : i < 4) :
    (prmtOf a b c).extractLsb' (8 * i) 8 = prmtByte (b.extractLsb' (8 * i) 8).toNat (c ++ a) := by
  rw [← selector_eq]
  exact extractLsb'_joined_bytes (fun j => prmtByte (b.toNat / 256 ^ j % 256) (c ++ a)) hi

theorem bfi_prmt_fields {x : V3} (h : (Instr.bfi x).wf ∨ (Instr.prmt x).wf) : x.ty = .b32 ∧ x.rnd = .dyn ∧ x.sat = false ∧ x.fl = 0 := by
  simp only [Instr.wf, or_self, Bool.and_eq_true, beq_iff_eq] at h
  obtain ⟨⟨-, ty⟩, rest⟩ := h
  obtain ⟨rnd, sat, fl, -⟩ := int_fields rest
  exact ⟨ty, rnd, sat, fl⟩

theorem bfiImm_prmtImm_fields {x : VI} (h : (Instr.bfiImm x).wf ∨ (Instr.prmtImm x).wf) : x.ty = .b32 ∧ x.bctl = 0 := by
  simp only [Instr.wf, or_self, Bool.and_eq_true, beq_iff_eq] at h
  obtain ⟨⟨-, ty⟩, rest⟩ := h
  exact ⟨ty, bctl_of_int rest⟩

/-- Settles O9: counts by the bits that they find, fields by division, and a permute byte by byte. -/
theorem bitCountsFieldsAndPermutes : Obligations.BitCountsFieldsAndPermutes := by
  unfold Obligations.BitCountsFieldsAndPermutes
  refine ⟨⟨?popc, ?clz, ?ctz, ?brev, fun _ => count_fields, ?counts⟩, computes_bfx, computes_bfxImm, ?bfi, ?prmt, ?bytes, fun _ => bfx_fields,
    fun _ => bfxImm_fields, fun _ => bfi_prmt_fields, fun _ => bfiImm_prmtImm_fields⟩
  case popc | clz | ctz | brev => exact fun x => computesInt_of fun _ => rfl
  case counts => exact fun w a lt => ⟨popcOf_eq w a, clzOf_bounds lt, clzOf_zero w, ctzOf_lowest lt, ctzOf_zero w, fun i => testBit_brevOf a⟩
  case bfi | prmt => exact computesWord3_of (fun _ _ => rfl) fun _ _ => rfl
  case bytes => exact fun a b c i hi => (extractLsb'_prmtOf a b c hi).trans (prmtByte_eq _ _)

end Sys2Proof.Machine.ScalarVector
end

section
/-! PROOFS. Moves, selections, predicates, shuffles and reductions (R144-R147). -/

namespace Sys2Proof.Machine.ScalarVector

/-! ## Moves, selections and predicates (R144, R145) -/

theorem bit01_eq (b : Bool) : bit01 b = b.toNat := by
  cases b <;> rfl

/-- PSET looks its three predicates up in its truth table. -/
theorem does_pset (x : V3) : Does (.pset x) x.ctl (needInt []) fun k b => k.writePred b x.d.toNat fun l =>
    x.opx.getLsbD ((k.src.pred x.a.toNat l).toNat + 2 * (k.src.pred x.b.toNat l).toNat + 4 * (k.src.pred x.c.toNat l).toNat) := by
  simp only [← bit01_eq]
  exact does_of (fun _ => rfl) fun _ _ => rfl

/-- Settles O10: moves and selections put an integer result, comparisons and predicate logic write a predicate. -/
theorem movesSelectsAndPredicates : Obligations.MovesSelectsAndPredicates := by
  unfold Obligations.MovesSelectsAndPredicates
  refine ⟨?mov, ?movi, ?sel, ?selImm, ?tov, ?fromv, ?iset, ?isetImm, does_pset⟩
  case mov | movi | sel | selImm => exact fun x => computesInt_of fun _ => rfl
  case tov | fromv | iset | isetImm => exact fun x => does_of (fun _ => rfl) fun _ _ => rfl

/-! ## Shuffles (R146) -/

/-- A segment has 32, 16, 8 or 4 lanes. -/
theorem segment_size : ∀ k < 4, 0 < 32 / 2 ^ k ∧ 32 / 2 ^ k ∣ 32 ∧ 32 / 2 ^ k = 2 ^ (5 - k) := by
  decide

/-- A place within a lane's segment is a lane of that segment. -/
theorem lane_of_segment {w l t : Nat} (hw : 0 < w) (dvd : w ∣ 32) (hl : l < 32) (ht : t < w) :
    l - l % w + t < 32 ∧ (l - l % w + t) / w = l / w := by
  obtain ⟨m, hm⟩ := dvd
  have base : l - l % w = w * (l / w) := by
    have := Nat.div_add_mod l w
    omega
  have below : l / w < m := Nat.div_lt_of_lt_mul (hm ▸ hl)
  have next : w * (l / w) + w ≤ w * m := by
    rw [← Nat.mul_succ]
    exact Nat.mul_le_mul_left w below
  refine ⟨by omega, ?_⟩
  rw [base, Nat.mul_add_div hw, Nat.div_eq_of_lt ht, Nat.add_zero]

/-- The source lane of SHFL, where there is one, is a place within the lane's segment. -/
theorem shflLane_eq_some {fl l src : Nat} {n : Word} (hfl : fl < 16) (h : shflLane fl l n = some src) :
    ∃ t < 32 / 2 ^ (fl / 4), src = l - l % (32 / 2 ^ (fl / 4)) + t := by
  obtain ⟨pos, -, pow⟩ := segment_size (fl / 4) (by omega)
  unfold shflLane at h
  dsimp only at h
  generalize 32 / 2 ^ (fl / 4) = w at *
  have place : l % w < w := Nat.mod_lt l pos
  split at h
  · exact ⟨_, Nat.mod_lt _ pos, (Option.some.inj h).symm⟩
  · split at h
    · next inside =>
      rw [Bool.and_eq_true, decide_eq_true_eq, decide_eq_true_eq] at inside
      exact ⟨_, by omega, (Option.some.inj h).symm⟩
    · cases h
  · have := Int.emod_lt_of_pos ((l % w : Nat) + n.toInt) (by omega : (0 : Int) < w)
    exact ⟨_, by omega, (Option.some.inj h).symm⟩
  · exact ⟨_, by rw [pow] at place ⊢; exact Nat.xor_lt_two_pow place (Nat.mod_lt _ (pow ▸ pos)), (Option.some.inj h).symm⟩

theorem shflLane_in_segment {fl l src : Nat} {n : Word} (hfl : fl < 16) (hl : l < 32) (h : shflLane fl l n = some src) :
    src < 32 ∧ src / (32 / 2 ^ (fl / 4)) = l / (32 / 2 ^ (fl / 4)) := by
  obtain ⟨pos, dvd, -⟩ := segment_size (fl / 4) (by omega)
  obtain ⟨t, ht, rfl⟩ := shflLane_eq_some hfl h
  exact lane_of_segment pos dvd hl ht

/-! ## Reductions (R147) -/

section Tree
variable (f : Word → Word → Word × Word) (v : Nat → Word)

/-- The trees of height `h` that stand side by side from lane `l` on. -/
def treeRow (h : Nat) : Nat → Nat → List (Word × Word)
  | 0, _ => []
  | n + 1, l => treeOf f h l v :: treeRow h n (l + 2 ^ h)

/-- The flags of the nodes of several trees. -/
def rowFlags (ts : List (Word × Word)) : Word := ts.foldr (fun t m => t.2 ||| m) 0

/-- One level of the tree joins the trees of a row in pairs, and adds the flags of the nodes that join them. -/
theorem wredPairs_treeRow (h n l : Nat) :
    (wredPairs f ((treeRow f v h (2 * n) l).map (·.1))).1 = (treeRow f v (h + 1) n l).map (·.1)
    ∧ rowFlags (treeRow f v h (2 * n) l) ||| (wredPairs f ((treeRow f v h (2 * n) l).map (·.1))).2 = rowFlags (treeRow f v (h + 1) n l) := by
  induction n generalizing l with
  | zero => exact ⟨rfl, BitVec.or_self⟩
  | succ n ih =>
    have next : l + 2 ^ h + 2 ^ h = l + 2 ^ (h + 1) := by rw [Nat.pow_succ]; omega
    obtain ⟨values, flags⟩ := ih (l + 2 ^ (h + 1))
    have two : treeRow f v h (2 * (n + 1)) l = treeOf f h l v :: treeOf f h (l + 2 ^ h) v :: treeRow f v h (2 * n) (l + 2 ^ (h + 1)) := by
      rw [← next]
      rfl
    rw [two]
    simp only [List.map_cons, wredPairs, treeRow, treeOf, rowFlags, List.foldr_cons] at values flags ⊢
    exact ⟨by rw [values], by rw [← flags]; ac_rfl⟩

/-- One level of the tree, with the flags found so far. -/
def wredLevel (p : List Word × Word) : List Word × Word := ((wredPairs f p.1).1, p.2 ||| (wredPairs f p.1).2)

theorem wredTree_eq_levels (xs : List Word) :
    wredTree f xs = let p := (List.range 5).foldl (fun p _ => wredLevel f p) (xs, 0); (p.1.headD 0, p.2) := rfl

/-- The levels that are left make of a row of trees the one tree over all of them. -/
theorem foldl_wredLevel (is : List Nat) (h : Nat) :
    is.foldl (fun p _ => wredLevel f p) ((treeRow f v h (2 ^ is.length) 0).map (·.1), rowFlags (treeRow f v h (2 ^ is.length) 0))
      = ([(treeOf f (h + is.length) 0 v).1], (treeOf f (h + is.length) 0 v).2) := by
  induction is generalizing h with
  | nil => simp [treeRow, rowFlags]
  | cons i is ih =>
    have double : 2 ^ (i :: is).length = 2 * 2 ^ is.length := by rw [List.length_cons, Nat.pow_succ, Nat.mul_comm]
    obtain ⟨values, flags⟩ := wredPairs_treeRow f v h (2 ^ is.length) 0
    rw [double, List.foldl_cons, wredLevel, values, flags, ih (h + 1), List.length_cons, Nat.add_assoc, Nat.add_comm 1]

/-- The trees of height zero are the lanes. -/
theorem treeRow_zero (n l : Nat) : treeRow f v 0 n l = (List.range' l n).map fun i => (v i, 0) := by
  induction n generalizing l with
  | zero => rfl
  | succ n ih => rw [treeRow, ih, List.range'_succ, List.map_cons]; rfl

theorem rowFlags_lanes (ls : List Nat) : rowFlags (ls.map fun i => (v i, 0)) = 0 := by
  induction ls with
  | nil => rfl
  | cons l ls ih => exact (congrArg _ ih).trans BitVec.or_self

/-- R147: combining the 32 lanes level by level gives the value of the fixed tree and the flags of its nodes. -/
theorem wredTree_eq : wredTree f ((List.range 32).map v) = treeOf f 5 0 v := by
  have lanes : treeRow f v 0 (2 ^ (List.range 5).length) 0 = (List.range 32).map fun i => (v i, 0) := by
    rw [treeRow_zero, List.range_eq_range']
    rfl
  have levels := foldl_wredLevel f v (List.range 5) 0
  rw [lanes, rowFlags_lanes, List.map_map] at levels
  rw [wredTree_eq_levels]
  exact congrArg (fun p : List Word × Word => (p.1.headD 0, p.2)) levels

end Tree

/-- WRED writes the tree's value to every lane of L, and sets the flags of its nodes; with no lane in L it does nothing. -/
theorem does_wred (x : V3) : Does (.wred x) x.ctl { regs := [(x.d.toNat, 1), (x.a.toNat, 1)], pilot := false, base := 2, lane := 2 } fun k b =>
    let f := wredStep x.opx.toNat x.ty (modeOf x.rnd k.src.rnd)
    let v (l : Nat) : Word := if k.lanes.getLsbD l then k.src.get x.a.toNat l else wredId x.opx.toNat x.ty
    let r := treeOf f 5 0 v
    if k.lanes = 0 then b else k.flags (k.write b x.d.toNat fun _ => r.1) r.2 (if trapping r.2 then k.lanes else 0) := by
  intro s k hi
  change execWred x s = _
  unfold execWred
  refine instr_ends hi ?_ (by simp)
  simp only [wredTree_eq, beq_iff_eq]
  split <;> rfl

/-- Settles O11: a shuffle's source lane lies in its lane's segment, and the levels of WRED build the fixed tree. -/
theorem shufflesAndReductions : Obligations.ShufflesAndReductions := by
  unfold Obligations.ShufflesAndReductions
  refine ⟨⟨?shfl, ?shflImm, fun fl l n hfl hl src h => shflLane_in_segment hfl hl h⟩, does_wred⟩
  case shfl | shflImm => exact fun x => does_of (fun _ => rfl) fun _ _ => rfl

end Sys2Proof.Machine.ScalarVector
end

section
/-! PROOFS. FP32, packed and FP64 arithmetic, conversions and the architected draw (R148-R160, R218). -/

namespace Sys2Proof.Machine.ScalarVector

/-! ## Float instructions with one result per lane -/

/-- An instruction whose meaning is `floatOp` computes the result that `floatOp` is given. -/
theorem computesFlt_of {i : Instr} {g : Ctl} {nd : Need} {var wide : Bool} {d : Nat} {mode : Word → Mode} {f : Regs → Mode → Nat → LaneOut}
    (h : ∀ s, exec i s = floatOp s g nd var wide d mode f) : ComputesFlt i g nd var wide d mode f :=
  computes_put h

/-! ## FP32 (R149-R154) -/

/-- Two forms whose meanings are `fltAB`. -/
theorem computesF32_of {mk : V3 → Instr} {mkI : VI → Instr} {op : Mode → X → X → X × Word}
    (v3 : ∀ (x : V3) (s : State), exec (mk x) s = fltAB s x.ctl (modeOf x.rnd) x.sat x.d.toNat x.a.toNat (srcV3 x) op)
    (vi : ∀ (x : VI) (s : State), exec (mkI x) s = fltAB s x.ctl (modeOfCode x.rndCode) x.sat x.d.toNat x.a.toNat (srcVI x) op) :
    ComputesF32 mk mkI op :=
  ⟨fun x => computesFlt_of (v3 x), fun x => computesFlt_of (vi x)⟩

/-- An instruction whose meaning is `fltFn`. -/
theorem computesFn_of {mk : V3 → Instr} {fn : Fn} (h : ∀ (x : V3) (s : State), exec (mk x) s = fltFn s x fn) : ComputesFn mk fn :=
  fun x => computesFlt_of (h x)

/-- Settles O12: each meaning is one of the shared float operations, which rounds the exact result once. -/
theorem floatArithmeticRoundsOnce : Obligations.FloatArithmeticRoundsOnce := by
  unfold Obligations.FloatArithmeticRoundsOnce
  refine ⟨⟨?fadd, ?fmul, ?ffma, ?ffmaImm⟩, ⟨?fmin, ?fminImm, ?fmax, ?fmaxImm, ?fset, ?fsetImm, ?fclass, ?frnd⟩,
    ?frcp, ?frsq, ?fsqrt, ?fex2, ?flg2, ?fsin, ?fcos, ?ftanh⟩
  case fadd | fmul => exact computesF32_of (fun _ _ => rfl) fun _ _ => rfl
  case fset | fsetImm => exact fun x => does_of (fun _ => rfl) fun _ _ => rfl
  case ffma | ffmaImm | fmin | fminImm | fmax | fmaxImm | fclass | frnd => exact fun x => computesFlt_of fun _ => rfl
  case frcp | frsq | fsqrt | fex2 | flg2 | fsin | fcos | ftanh => exact computesFn_of fun _ _ => rfl

/-! ## Packed halves and dot products (R155, R156) -/

/-- Two forms whose meanings are `packedV3` and `packedVI`; which registers they name depends on the operation. -/
theorem computesPacked_of {mk : V3 → Instr} {mkI : VI → Instr} {o : HOp} {f : Fmt} (v3 : ∀ (x : V3) (s : State), exec (mk x) s = packedV3 s x o f)
    (vi : ∀ (x : VI) (s : State), exec (mkI x) s = packedVI s x o f) : ComputesPacked mk mkI o f := by
  cases o with
  | add | mul | fma => exact ⟨fun x => computesFlt_of (v3 x), fun x => computesFlt_of (vi x)⟩

/-- FDOT4 reads B under A's type where OPX is zero, else under the type that OPX names. -/
theorem computes_fdot4 (x : V3) :
    ComputesFlt (.fdot4 x) x.ctl (needFloat [(x.a.toNat, 1), (x.b.toNat, 1), (x.c.toNat, 1)]) false false x.d.toNat (modeOf x.rnd) fun r m l =>
      laneRound (dotX m (f32 (r.get x.c.toNat l)) ((List.range 4).map fun i =>
        (byteEl x.ty (r.get x.a.toNat l) i, byteEl (if x.opx = 0 then x.ty else (tyOfCode x.opx.toNat).getD x.ty) (r.get x.b.toNat l) i))) fmtF32 m x.sat := by
  refine computesFlt_of fun s => ?_
  change execFdot4 x s = _
  simp only [execFdot4, beq_iff_eq]

/-! ## Conversion and packing (R158-R160) -/

theorem beq_f64_or_eq_decide (t ts : Ty) : (t == .f64 || ts == .f64) = decide (t = .f64 ∨ ts = .f64) := by
  rw [Bool.eq_iff_iff, Bool.or_eq_true, beq_iff_eq, beq_iff_eq, decide_eq_true_eq]

/-- A conversion from or to FP64 takes the S pipe and feature 6, any other the float pipe (R158). -/
theorem computes_cvt {x : V3} {ts : Ty} (src : x.srcTy = some ts) :
    ComputesFlt (.cvt x) x.ctl (if x.ty = .f64 ∨ ts = .f64 then { needS [(x.a.toNat, ts.nregs)] with feature := some 6 } else needFloat [(x.a.toNat, ts.nregs)])
      (x.ty = .f64 ∨ ts = .f64) (x.ty.bytes == 8) x.d.toNat (modeOf x.rnd) fun r m l => cvtOf x.ty ts (rawOf r ts x.a.toNat l) m x.sat := by
  refine computesFlt_of fun s => ?_
  change execCvt x s = _
  simp only [execCvt, src, Option.getD_some, beq_f64_or_eq_decide, decide_eq_true_eq]

/-- CPACK puts two rounded elements into their fields of the destination (R159). -/
theorem computes_cpack {x : V3} {f : Fmt} (fmt : fmtOf x.ty = some f) :
    ComputesFlt (.cpack x) x.ctl (needFloat [(x.a.toNat, 1), (x.b.toNat, 1)]) false false x.d.toNat (modeOf x.rnd) fun r m l =>
      let w := packWidth x.ty
      let e0 := roundWith (f32 (r.get x.a.toNat l), if (f32 (r.get x.a.toNat l)).sig then flInvalid else 0) f m x.sat
      let e1 := roundWith (f32 (r.get x.b.toNat l), if (f32 (r.get x.b.toNat l)).sig then flInvalid else 0) f m x.sat
      .ofNat (setField (setField (r.get x.d.toNat l).toNat (2 * x.opx.toNat * w) w e0.1) ((2 * x.opx.toNat + 1) * w) w e1.1) (e0.2 ||| e1.2) := by
  refine computesFlt_of fun s => ?_
  change execCpack x s = _
  simp only [execCpack, fmt, Option.getD_some]

/-- CUNPK widens one element to FP32 (R160). -/
theorem computes_cunpk {x : V3} {f : Fmt} (fmt : fmtOf x.ty = some f) :
    ComputesFlt (.cunpk x) x.ctl (needFloat [(x.a.toNat, 1)]) false false x.d.toNat (fun _ => 0) fun r m l =>
      let v := f.value ((r.get x.a.toNat l).toNat / 2 ^ (x.opx.toNat * packWidth x.ty) % 2 ^ packWidth x.ty % 2 ^ f.bits)
      laneRound (v, if v.sig then flInvalid else 0) fmtF32 m false := by
  refine computesFlt_of fun s => ?_
  change execCunpk x s = _
  simp only [execCunpk, fmt, Option.getD_some]

/-! ## The architected draw (R218) -/

/-- Rounding an exact value without flags of its own sets the flags of the rounding alone (R120). -/
theorem laneRound_no_flags (v : X) (f : Fmt) (m : Mode) (sat : Bool) :
    laneRound (v, 0) f m sat = .ofNat (roundFmt v f m sat).1 (roundFmt v f m sat).2 := by
  simp only [laneRound, roundWith]
  rw [show (roundFmt v f m sat).2 ||| 0 = (roundFmt v f m sat).2 from BitVec.or_zero]

theorem computes_draw (x : V3) :
    Computes (.draw x) x.ctl { needFloat [(x.d.toNat, 1), (x.a.toNat, 1), (x.b.toNat, 1), (x.c.toNat, 1)] with feature := some 2 } false x.d.toNat false fun k l =>
      let w := drawOf (k.src.get x.a.toNat l) (k.src.get x.b.toNat l) (k.src.get x.c.toNat l) x.opx.toNat
      if x.ty = .f32 then laneRound (X.ofQ (unitOf w), 0) fmtF32 0 false else .of32 w := by
  refine computes_put fun s => ?_
  change execDraw x s = _
  simp only [execDraw, beq_iff_eq, laneRound_no_flags]
  rfl

/-- Settles O13: each meaning is one of the shared float operations on the exact values of its operands. -/
theorem packedDoubleAndConversionResults : Obligations.PackedDoubleAndConversionResults := by
  unfold Obligations.PackedDoubleAndConversionResults
  refine ⟨⟨?hadd2, ?hmul2, ?hfma2, ?badd2, ?bfma2, computes_fdot4⟩,
    ⟨?dadd, ?dmul, ?dfma, fun _ _ => computes_cvt, fun _ _ => computes_cpack, fun _ _ => computes_cunpk⟩, computes_draw⟩
  case hadd2 | hmul2 | hfma2 | badd2 | bfma2 => exact computesPacked_of (fun _ _ => rfl) fun _ _ => rfl
  case dadd | dmul | dfma => exact fun x => computesFlt_of fun _ => rfl

end Sys2Proof.Machine.ScalarVector
end

section
/-! PROOFS. What the matrix engine computes on the tiles and accumulators of a block (R175, R179-R182). -/

namespace Sys2Proof.Machine.MatrixEngine

/-! ## The tiles and accumulators of a block -/

/-- The list that setTile and setAcc build reads as the old one with one entry replaced. -/
theorem getD_map_range_ite {α : Type} (l : List α) (d x : α) (i j : Nat) :
    ((List.range (max l.length (i + 1))).map fun k => if k == i then x else l.getD k d).getD j d = if j = i then x else l.getD j d := by
  by_cases hj : j < max l.length (i + 1)
  · simp [List.getD_eq_getElem?_getD, hj]
  · have hi : j ≠ i := by omega
    have hl : l.length ≤ j := by omega
    have out : (List.range (max l.length (i + 1)))[j]? = none := by simpa using hj
    simp [List.getD_eq_getElem?_getD, hi, hl, out]

@[simp] theorem tile_setTile (b : Block) (i j : Nat) (t : Tile) : (b.setTile i t).tile j = if j = i then t else b.tile j :=
  getD_map_range_ite b.tiles {} t i j

@[simp] theorem acc_setAcc (b : Block) (i j : Nat) (a : List (Nat × Word)) : (b.setAcc i a).acc j = if j = i then a else b.acc j :=
  getD_map_range_ite b.accs [] a i j

theorem keepsOthers_refl (b : Block) (t a : Option Nat) : KeepsOthers b b t a :=
  ⟨fun _ _ => rfl, fun _ _ => rfl, b.tiles, b.accs, rfl⟩

theorem keepsOthers_setTile (b : Block) (i : Nat) (t : Tile) : KeepsOthers b (b.setTile i t) (some i) none :=
  ⟨fun j hj => by rw [tile_setTile, if_neg fun h => hj (congrArg some h.symm)], fun _ _ => rfl, _, b.accs, rfl⟩

theorem keepsOthers_setAcc (b : Block) (i : Nat) (a : List (Nat × Word)) : KeepsOthers b (b.setAcc i a) none (some i) :=
  ⟨fun _ _ => rfl, fun j hj => by rw [acc_setAcc, if_neg fun h => hj (congrArg some h.symm)], b.tiles, _, rfl⟩

/-! ## Updates that each rewrite one cell -/

section Updates

variable {σ β α : Type} {read : σ → Nat → α} {f : σ → β → σ} {key : β → Nat} {upd : β → α → α}
  (step : ∀ s x k, read (f s x) k = if k = key x then upd x (read s k) else read s k)

include step

/-- A cell that none of the updates names keeps its value. -/
theorem read_foldl_of_ne : ∀ (l : List β) (s : σ) (k : Nat), (∀ x ∈ l, k ≠ key x) → read (l.foldl f s) k = read s k
  | [], _, _, _ => rfl
  | x :: l, s, k, ne => by
    rw [List.foldl_cons, read_foldl_of_ne l _ k fun y hy => ne y (.tail x hy), step, if_neg (ne x (.head l))]

/-- A cell that one of the updates names, and no other, takes what that update makes of the value the cell held at first. -/
theorem read_foldl_of_mem : ∀ (l : List β) (s : σ) (x : β), (l.Pairwise fun y z => key y ≠ key z) → x ∈ l →
    read (l.foldl f s) (key x) = upd x (read s (key x))
  | y :: l, s, x, distinct, mem => by
    obtain ⟨fresh, distinct⟩ := List.pairwise_cons.mp distinct
    rw [List.foldl_cons]
    rcases List.mem_cons.mp mem with rfl | mem
    · rw [read_foldl_of_ne step l _ _ fresh, step, if_pos rfl]
    · rw [read_foldl_of_mem l _ x distinct mem, step, if_neg fun h => fresh x mem h.symm]

end Updates

/-! ## What the engine does with each instruction -/

section EngRun

variable {b : Block} {op : EngOp} {x : Eng}

theorem engRun_tld (h : op.instr = .tld x) :
    engRun b op = (b.setTile x.d.toNat (op.tw.foldl applyTileWrite (b.tile x.d.toNat)), { mem := op.mem, traps := op.traps }) := by
  simp only [engRun, h]

theorem engRun_tfeed (h : op.instr = .tfeed x) :
    engRun b op = (b.setTile x.d.toNat (op.tw.foldl applyTileWrite (b.tile x.d.toNat)), {}) := by
  simp only [engRun, h]

theorem engRun_tzero_acc (h : op.instr = .tzero x) (acc : x.imm.getLsbD 0) : engRun b op = (b.setAcc x.d.toNat [], {}) := by
  simp only [engRun, h, acc, if_true]

theorem engRun_tzero_tile (h : op.instr = .tzero x) (tile : ¬x.imm.getLsbD 0) :
    engRun b op = (b.setTile x.d.toNat { b.tile x.d.toNat with bytes := [], scale := [], tag := [] }, {}) := by
  simp only [engRun, h, tile, if_false, Bool.false_eq_true]

/-! ## TDRAIN of an accumulator (R181) -/

/-- The elements (row, col + l) of the lanes cleared. -/
def clearLanes (row col : Nat) (ls : List Nat) (a : List (Nat × Word)) : List (Nat × Word) :=
  ls.foldl (fun a l => mset 0 a (64 * row + col + l) 0) a

theorem engRun_tdrain_acc (h : op.instr = .tdrain x) (acc : ¬x.imm.getLsbD 12) :
    engRun b op =
      (if x.imm.getLsbD 13 then b.setAcc x.a.toNat (clearLanes (immBits x 5 0) (immBits x 11 6) (lanesOf op.lanes) (b.acc x.a.toNat)) else b,
        { writes := laneWrites x.d.toNat (fun l => accAt (b.acc x.a.toNat) (immBits x 5 0) (immBits x 11 6 + l)) (lanesOf op.lanes) }) := by
  simp only [engRun, h, acc, if_false, clearLanes, Bool.false_eq_true]
  split <;> rfl

/-- Elements are cleared by the lanes that name them, as long as the lanes stay in the row. -/
theorem accAt_clearLanes {row col i j : Nat} {ls : List Nat} (a : List (Nat × Word)) (nodup : ls.Nodup) (inside : ∀ l ∈ ls, col + l < 64) (hj : j < 64) :
    accAt (clearLanes row col ls a) i j = if i = row ∧ col ≤ j ∧ j - col ∈ ls then 0 else accAt a i j := by
  have step (a : List (Nat × Word)) (l k : Nat) :
      mget 0 (mset 0 a (64 * row + col + l) 0) k = if k = 64 * row + col + l then 0 else mget 0 a k := mget_mset 0 a _ 0 k
  split
  case isTrue h =>
    obtain ⟨rfl, le, mem⟩ := h
    have key : 64 * i + j = 64 * i + col + (j - col) := by omega
    rw [accAt, key]
    exact read_foldl_of_mem (upd := fun _ _ => 0) step ls a (j - col) (nodup.imp fun ne same => ne (Nat.add_left_cancel same)) mem
  case isFalse h =>
    refine read_foldl_of_ne (upd := fun _ _ => 0) step ls a _ fun l hl same => h ?_
    have := inside l hl
    obtain ⟨hi, hj, hl'⟩ : i = row ∧ col ≤ j ∧ j - col = l := by omega
    exact ⟨hi, hj, hl' ▸ hl⟩

/-! ## MMA (R182) -/

/-- The blocks of a tile row under a shape, in ascending order. -/
def rowBlks (t : Tile) (sh : Nat × Nat × Nat) (i : Nat) : List Blk := (List.range sh.2.1).map fun kb => tileBlk t sh.2.2 i kb

/-- The part of MMA that works on element (i, j) of its window: the element and the flags so far. -/
def mmaStep (ta tb : Tile) (sa sb : Nat × Nat × Nat) (row0 col0 : Nat) (sat : Bool) (m : List (Nat × Word) × Word) (p : Nat × Nat) :
    List (Nat × Word) × Word :=
  let e := mmaElement sat (accAt m.1 (row0 + p.1) (col0 + p.2)) ((rowBlks ta sa p.1).zip (rowBlks tb sb p.2))
  (mset 0 m.1 (64 * (row0 + p.1) + col0 + p.2) e.1, m.2 ||| e.2)

/-- The elements of a window, row by row. -/
def windowElts (m n : Nat) : List (Nat × Nat) := (List.range m).flatMap fun i => (List.range n).map fun j => (i, j)

theorem mem_windowElts {m n i j : Nat} : (i, j) ∈ windowElts m n ↔ i < m ∧ j < n := by
  simp only [windowElts, List.mem_flatMap, List.mem_map, List.mem_range, Prod.mk.injEq]
  exact ⟨fun ⟨_, hi, _, hj, ei, ej⟩ => ⟨ei ▸ hi, ej ▸ hj⟩, fun ⟨hi, hj⟩ => ⟨i, hi, j, hj, rfl, rfl⟩⟩

/-- MMA goes through the elements of its window row by row. -/
theorem mmaRun_eq_foldl (ta tb : Tile) (sa sb : Nat × Nat × Nat) (row0 col0 : Nat) (sat : Bool) (acc : List (Nat × Word)) :
    mmaRun ta tb sa sb row0 col0 sat acc =
      (windowElts sa.1 sb.1).foldl (mmaStep ta tb sa sb row0 col0 sat) (acc, 0) := by
  simp only [mmaRun, windowElts, List.foldl_flatMap, List.foldl_map]
  rfl

theorem engRun_mma {sa sb : Nat × Nat × Nat} (h : op.instr = .mma x) (shapes : op.shapes = [sa, sb]) :
    (engRun b op).1 = b.setAcc x.d.toNat
      (mmaRun (b.tile x.a.toNat) (b.tile x.b.toNat) sa sb (immBits x 5 0) (immBits x 11 6) (x.imm.getLsbD 20) (b.acc x.d.toNat)).1 := by
  simp only [engRun, h, shapes, List.headD_cons, List.getD_cons_succ, List.getD_cons_zero]

section Mma

variable (ta tb : Tile) (sa sb : Nat × Nat × Nat) (row0 col0 : Nat) (sat : Bool)

/-- What MMA makes of the value of element (i, j) of its window. -/
def mmaValue (p : Nat × Nat) (v : Word) : Word := (mmaElement sat v ((rowBlks ta sa p.1).zip (rowBlks tb sb p.2))).1

/-- The index of a window element in the accumulator. -/
def windowKey (row0 col0 : Nat) (p : Nat × Nat) : Nat := 64 * (row0 + p.1) + (col0 + p.2)

theorem mget_mmaStep (m : List (Nat × Word) × Word) (p : Nat × Nat) (k : Nat) :
    mget 0 (mmaStep ta tb sa sb row0 col0 sat m p).1 k =
      if k = windowKey row0 col0 p then mmaValue ta tb sa sb sat p (mget 0 m.1 k) else mget 0 m.1 k := by
  have key : 64 * (row0 + p.1) + col0 + p.2 = windowKey row0 col0 p := Nat.add_assoc ..
  rw [mmaStep, key, mget_mset]
  split
  case isTrue h => rw [h]; rfl
  case isFalse => rfl

/-- No two elements of a window that ends within the row share an index. -/
theorem windowKeys_distinct {m n : Nat} (inside : col0 + n ≤ 64) :
    (windowElts m n).Pairwise fun p q => windowKey row0 col0 p ≠ windowKey row0 col0 q := by
  simp only [windowElts, List.pairwise_flatMap, List.pairwise_map, List.mem_map, List.mem_range, windowKey]
  constructor
  · intro i _
    exact List.nodup_range.imp fun ne => by omega
  · refine List.nodup_range.imp fun ne => ?_
    rintro _ ⟨j, hj, rfl⟩ _ ⟨j', hj', rfl⟩
    dsimp only
    omega

theorem accAt_mmaRun_window {i j : Nat} (acc : List (Nat × Word)) (inside : col0 + sb.1 ≤ 64) (hi : i < sa.1) (hj : j < sb.1) :
    accAt (mmaRun ta tb sa sb row0 col0 sat acc).1 (row0 + i) (col0 + j) =
      (mmaElement sat (accAt acc (row0 + i) (col0 + j)) ((rowBlks ta sa i).zip (rowBlks tb sb j))).1 := by
  rw [mmaRun_eq_foldl]
  exact read_foldl_of_mem (read := fun m : List (Nat × Word) × Word => mget 0 m.1) (upd := mmaValue ta tb sa sb sat)
    (mget_mmaStep ta tb sa sb row0 col0 sat) _ (acc, 0) (i, j) (windowKeys_distinct row0 col0 inside)
    (mem_windowElts.mpr ⟨hi, hj⟩)

theorem accAt_mmaRun_outside {i j : Nat} (acc : List (Nat × Word)) (inside : col0 + sb.1 ≤ 64) (hj : j < 64)
    (out : ¬(row0 ≤ i ∧ i < row0 + sa.1 ∧ col0 ≤ j ∧ j < col0 + sb.1)) :
    accAt (mmaRun ta tb sa sb row0 col0 sat acc).1 i j = accAt acc i j := by
  rw [mmaRun_eq_foldl, accAt, accAt]
  refine read_foldl_of_ne (read := fun m : List (Nat × Word) × Word => mget 0 m.1) (upd := mmaValue ta tb sa sb sat)
    (mget_mmaStep ta tb sa sb row0 col0 sat) _ (acc, 0) (64 * i + j) ?_
  rintro ⟨i', j'⟩ mem same
  obtain ⟨hi', hj'⟩ := mem_windowElts.mp mem
  simp only [windowKey] at same
  omega

end Mma

/-! ## TZERO and TDRAIN on the tiles and accumulators of a block (R175, R181) -/

theorem tzero_clears (h : op.instr = .tzero x) :
    (x.imm.getLsbD 0 → ∀ i j, accAt ((engRun b op).1.acc x.d.toNat) i j = 0)
    ∧ (¬x.imm.getLsbD 0 → let t := (engRun b op).1.tile x.d.toNat
        shapeOf t = shapeOf (b.tile x.d.toNat) ∧ ∀ r c, tileByte t r c = 0 ∧ tileScale t r c = 0x7F ∧ tileTag t r c = 0)
    ∧ KeepsOthers b (engRun b op).1 (if x.imm.getLsbD 0 then none else some x.d.toNat) (if x.imm.getLsbD 0 then some x.d.toNat else none) := by
  by_cases acc : x.imm.getLsbD 0
  · rw [engRun_tzero_acc h acc, if_pos acc, if_pos acc, acc_setAcc, if_pos rfl]
    exact ⟨fun _ _ _ => rfl, fun tile => absurd acc tile, keepsOthers_setAcc ..⟩
  · rw [engRun_tzero_tile h acc, if_neg acc, if_neg acc, tile_setTile, if_pos rfl]
    exact ⟨fun acc' => absurd acc' acc, fun _ => ⟨rfl, fun _ _ => ⟨rfl, rfl, rfl⟩⟩, keepsOthers_setTile ..⟩

theorem tdrain_clears (h : op.instr = .tdrain x) (acc : ¬x.imm.getLsbD 12) {i j : Nat} (col : immBits x 11 6 ≤ 32) (hj : j < 64) :
    accAt ((engRun b op).1.acc x.a.toNat) i j =
      if x.imm.getLsbD 13 ∧ i = immBits x 5 0 ∧ immBits x 11 6 ≤ j ∧ (j - immBits x 11 6) ∈ lanesOf op.lanes then 0 else accAt (b.acc x.a.toNat) i j := by
  have inside : ∀ l ∈ lanesOf op.lanes, immBits x 11 6 + l < 64 := fun l hl => by
    have := (mem_lanesOf.mp hl).1
    omega
  rw [engRun_tdrain_acc h acc]
  by_cases clr : x.imm.getLsbD 13
  · simp only [clr, if_true, true_and, acc_setAcc]
    exact accAt_clearLanes _ (List.nodup_range.filter _) inside hj
  · simp only [clr, false_and, if_false, Bool.false_eq_true]

theorem tdrain_keepsOthers (h : op.instr = .tdrain x) (acc : ¬x.imm.getLsbD 12) : KeepsOthers b (engRun b op).1 none (some x.a.toNat) := by
  rw [engRun_tdrain_acc h acc]
  dsimp only
  split
  · exact keepsOthers_setAcc ..
  · exact keepsOthers_refl ..

end EngRun

/-- Settles O34: each instruction replaces one tile or accumulator, and MMA and TDRAIN update each element of theirs once. -/
theorem enginePerformsTileArithmetic : Obligations.EnginePerformsTileArithmetic := by
  unfold Obligations.EnginePerformsTileArithmetic
  refine ⟨?tld, fun _ _ _ => tzero_clears, ?tfeed, ?tdrain, ?mma⟩
  case tld =>
    intro b op x h
    rw [engRun_tld h]
    exact ⟨by rw [tile_setTile, if_pos rfl], rfl, keepsOthers_setTile ..⟩
  case tfeed =>
    intro b op x h
    rw [engRun_tfeed h]
    exact ⟨by rw [tile_setTile, if_pos rfl], keepsOthers_setTile ..⟩
  case tdrain =>
    intro b op x h acc
    exact ⟨by rw [engRun_tdrain_acc h acc], tdrain_keepsOthers h acc, fun col _ _ _ hj => tdrain_clears h acc col hj⟩
  case mma =>
    intro b op x sa sb h shapes
    rw [engRun_mma h shapes, acc_setAcc, if_pos rfl]
    exact ⟨keepsOthers_setAcc .., fun _ cols =>
      ⟨fun _ hi _ hj => accAt_mmaRun_window _ _ sa sb _ _ _ _ cols hi hj, fun _ _ _ hj => accAt_mmaRun_outside _ _ sa sb _ _ _ _ cols hj⟩⟩

end Sys2Proof.Machine.MatrixEngine
end

section
/-! PROOFS. No read's poison leaves a query of the units (R193, R252). -/

namespace Sys2Proof.Machine.UnitQueries

/-- A query that a poisoned read does not stop: it ends with registers that stand for the poison (R193, R252). -/
def CatchesPoison {α : Type} (q : U α) : Prop := ∀ s code va, (q.run.run s).1 ≠ .error (.poison code va)

variable {α β : Type}

/-! ## Steps of a query -/

theorem catchesPoison_pure (a : α) : CatchesPoison (pure a) := fun _ _ _ => nofun

theorem catchesPoison_free : CatchesPoison U.free := fun _ _ _ => nofun

theorem catchesPoison_stop {e : UStop} (other : ∀ code va, e ≠ .poison code va) : CatchesPoison (U.stop e : U α) :=
  fun _ code va poison => other code va (Except.error.inj poison)

theorem catchesPoison_ite {p : Prop} [Decidable p] {q r : U α} (yes : CatchesPoison q) (no : CatchesPoison r) : CatchesPoison (if p then q else r) := by
  split <;> assumption

theorem catchesPoison_bind {q : U α} {f : α → U β} (first : CatchesPoison q) (next : ∀ a, CatchesPoison (f a)) : CatchesPoison (q >>= f) := by
  intro s code va
  have here := first s code va
  rw [ExceptT.run_bind, StateT.run_bind]
  rcases run : q.run.run s with ⟨e | a, t⟩
  · rw [run] at here
    exact fun poison => here (congrArg Except.error (Except.error.inj poison))
  · exact next a t code va

/-- A handler that lets no poison through, for a query that may. -/
theorem catchesPoison_tryCatch {q : U α} {h : UStop → U α} (handler : ∀ e, CatchesPoison (h e)) : CatchesPoison (tryCatch q h) := by
  intro s code va
  rw [ExceptT.run_tryCatch, StateT.run_bind]
  rcases q.run.run s with ⟨e | a, t⟩
  · exact handler e t code va
  · exact nofun

theorem catchesPoison_mapM {f : α → U β} (each : ∀ a, CatchesPoison (f a)) : ∀ l : List α, CatchesPoison (l.mapM f)
  | [] => by rw [List.mapM_nil]; exact catchesPoison_pure []
  | a :: l => by
    rw [List.mapM_cons]
    exact catchesPoison_bind (each a) fun _ => catchesPoison_bind (catchesPoison_mapM each l) fun _ => catchesPoison_pure _

theorem catchesPoison_fill (rs : List (Nat × Option Nat)) : CatchesPoison (U.fill rs) := by
  refine catchesPoison_mapM (fun (i, v) => ?_) rs
  cases v with
  | none => exact catchesPoison_bind catchesPoison_free fun _ => catchesPoison_pure _
  | some x => exact catchesPoison_pure (i, x)

/-- Whatever it reads, a query whose poison gives registers of its own catches it. -/
theorem catchesPoison_poisoned (q : U LaneQ) {f : U (List (Nat × Nat))} (regs : CatchesPoison f) : CatchesPoison (poisoned q f) := by
  refine catchesPoison_tryCatch fun e => ?_
  cases e with
  | poison code va => exact catchesPoison_bind regs fun _ => catchesPoison_pure _
  | miss | wait | perm | endless => exact catchesPoison_stop nofun

/-! ## Marches (R211-R216) -/

theorem catchesPoison_marchRead (k : Iss) (va len : Nat) : CatchesPoison (marchRead k va len) := by
  refine catchesPoison_tryCatch fun e => ?_
  cases e with
  | poison code va => exact catchesPoison_pure _
  | miss | wait | perm | endless => exact catchesPoison_stop nofun

theorem catchesPoison_floorIn (x : X) (shift : Nat) (lo hi : Nat) : CatchesPoison (floorIn x shift lo hi) := by
  cases x with
  | nan => exact catchesPoison_bind catchesPoison_free fun _ => catchesPoison_pure _
  | inf | zero | fin => exact catchesPoison_pure _

theorem catchesPoison_majorant (k : Iss) (g : Grid) (c : List Nat) : CatchesPoison (majorant k g c) := by
  refine catchesPoison_bind (catchesPoison_marchRead _ _ _) fun read => ?_
  cases read <;> exact catchesPoison_pure _

theorem catchesPoison_density (k : Iss) (f : Field) (m : March) : CatchesPoison (density k f m) := by
  refine catchesPoison_bind (catchesPoison_mapM (fun _ => catchesPoison_floorIn _ _ _ _) _) fun v => ?_
  refine catchesPoison_bind (catchesPoison_marchRead _ _ _) fun read => ?_
  cases read <;> exact catchesPoison_pure _

theorem catchesPoison_collide (kind : Snd) (k : Iss) (f : Field) (mu : Q) (m : March) : CatchesPoison (collide kind k f mu m) := by
  refine catchesPoison_ite (catchesPoison_pure _) (catchesPoison_bind (catchesPoison_density k f m) fun v => ?_)
  cases v with
  | poison | bad => exact catchesPoison_pure _
  | ok => exact catchesPoison_ite (catchesPoison_pure _) (catchesPoison_ite (catchesPoison_pure _) (catchesPoison_pure _))

/-- The end of a march, or what the march goes on with. -/
theorem catchesPoison_goOn {step : March → U SndEnd} (on : ∀ m, CatchesPoison (step m)) (next : Sum SndEnd March) :
    CatchesPoison (match next with | .inl e => pure e | .inr m => step m) := by
  cases next with
  | inl e => exact catchesPoison_pure e
  | inr m => exact on m

theorem catchesPoison_marchLoop (kind : Snd) (k : Iss) (f : Field) : ∀ (fuel : Nat) (m : March), CatchesPoison (marchLoop kind k f fuel m)
  | 0, _ => catchesPoison_stop nofun
  | fuel + 1, m => by
    have turn := catchesPoison_goOn (catchesPoison_marchLoop kind k f fuel)
    refine catchesPoison_ite (catchesPoison_pure _) (catchesPoison_bind (catchesPoison_majorant _ _ _) fun v => ?_)
    cases v with
    | poison | bad => exact catchesPoison_pure _
    | ok => exact catchesPoison_ite (catchesPoison_bind (catchesPoison_collide _ _ _ _ _) turn) (turn _)

theorem catchesPoison_occLoop (k : Iss) (f : Field) : ∀ (fuel : Nat) (entered : Bool) (m : March), CatchesPoison (occLoop k f fuel entered m)
  | 0, _, _ => catchesPoison_pure _
  | fuel + 1, entered, m => by
    have turn := catchesPoison_goOn (catchesPoison_occLoop k f fuel true)
    refine catchesPoison_ite (catchesPoison_bind (catchesPoison_marchRead _ _ _) fun read => ?_) ?_
    · cases read with
      | inl => exact catchesPoison_pure _
      | inr => exact catchesPoison_ite (catchesPoison_pure _) (catchesPoison_ite (catchesPoison_pure _) (turn _))
    · exact catchesPoison_ite (catchesPoison_pure _) (catchesPoison_ite (catchesPoison_pure _) (turn _))

theorem catchesPoison_sndMarch (kind : Snd) (k : Iss) (ray : Ray) (g : Grid) (r : SndRec) : CatchesPoison (sndMarch kind k ray g r) := by
  have loop (f : Field) (entered : Bool) (m : March) :
      CatchesPoison (if kind == .o then occLoop k f 300 entered m else marchLoop kind k f marchFuel m) :=
    catchesPoison_ite (catchesPoison_occLoop k f 300 entered m) (catchesPoison_marchLoop kind k f marchFuel m)
  refine catchesPoison_ite (catchesPoison_pure _) ?_
  split
  · exact catchesPoison_pure _
  · exact catchesPoison_ite (loop _ false _) (catchesPoison_bind (catchesPoison_mapM (fun _ => catchesPoison_floorIn _ _ _ _) _) fun _ => loop _ true _)

theorem catchesPoison_sndLane (kind : Snd) (x : Eng) (k : Iss) (l : Nat) : CatchesPoison (sndLane kind x k l) := by
  have ended {q : U SndEnd} (h : CatchesPoison q) : CatchesPoison (q >>= fun e => do
      let rs ← U.fill e.regs
      pure { regs := rs, mem := if e.poison.isSome then 1 else 0, trap := e.poison : LaneQ }) :=
    catchesPoison_bind h fun e => catchesPoison_bind (catchesPoison_fill e.regs) fun _ => catchesPoison_pure _
  unfold sndLane
  dsimp only
  split
  · exact ended (catchesPoison_pure _)
  · refine catchesPoison_bind (catchesPoison_marchRead _ _ _) fun read => ?_
    cases read with
    | inl => exact ended (catchesPoison_pure _)
    | inr =>
      dsimp only
      split
      · exact ended (catchesPoison_pure _)
      · exact catchesPoison_ite (ended (catchesPoison_pure _)) (ended (catchesPoison_sndMarch _ _ _ _ _))

/-! ## The other queries (R205-R209, R221, R272-R274) -/

/-- RAYQ and RAYW answer at once for a ray that is none, and else query with a status for poison. -/
theorem catchesPoison_rayqLane (x : Eng) (k : Iss) (l : Nat) : CatchesPoison (rayqLane x k l) := by
  unfold rayqLane
  dsimp only
  split
  · exact catchesPoison_pure _
  · exact catchesPoison_poisoned _ (catchesPoison_pure _)

theorem catchesPoison_raywLane (x : Eng) (k : Iss) (l : Nat) : CatchesPoison (raywLane x k l) := by
  unfold raywLane
  dsimp only
  split
  · exact catchesPoison_pure _
  · exact catchesPoison_poisoned _ (catchesPoison_pure _)

theorem catchesPoison_ptchLane (x : Eng) (k : Iss) (l : Nat) : CatchesPoison (ptchLane x k l) :=
  catchesPoison_poisoned _ (catchesPoison_fill _)

theorem catchesPoison_hgfLane (x : Eng) (k : Iss) (l : Nat) : CatchesPoison (hgfLane x k l) :=
  catchesPoison_poisoned _ (catchesPoison_fill _)

theorem catchesPoison_texLane (x : Mem) (k : Iss) (f : Tex → Nat → U LaneQ) (l : Nat) : CatchesPoison (texLane x k f l) :=
  catchesPoison_poisoned _ (catchesPoison_pure _)

end Sys2Proof.Machine.UnitQueries
end

section
/-! PROOFS. How an instruction of the units ends, from what became of each lane's query (R190, R193, R208). -/

namespace Sys2Proof.Machine.UnitQueries

open ControlFlow NumberFormats

/-- What became of a lane's query. -/
abbrev LaneEnd := Nat × Except UStop LaneQ

/-! ## The lanes' queries -/

/-- Each lane of L runs its query, from the state that the lanes before it have left. -/
theorem queryLanes_ran (s : State) (k : Iss) (q : Nat → U LaneQ) :
    (queryLanes s k q).1.map (·.1) = lanesOf k.lanes ∧ ∀ e ∈ (queryLanes s k q).1, ∃ t, e.2 = ((q e.1).run.run t).1 := by
  suffices fold : ∀ (ls : List Nat) (rs : List LaneEnd) (s : State), ∃ new,
      (ls.foldl (fun (rs, s) l => let (r, s) := (q l).run s; (rs ++ [(l, r)], s)) (rs, s)).1 = rs ++ new ∧ new.map (·.1) = ls
        ∧ ∀ e ∈ new, ∃ t, e.2 = ((q e.1).run.run t).1 by
    obtain ⟨new, eq, spec⟩ := fold (lanesOf k.lanes) [] s
    rw [List.nil_append] at eq
    rwa [← eq] at spec
  intro ls
  induction ls with
  | nil => exact fun rs _ => ⟨[], (List.append_nil rs).symm, rfl, nofun⟩
  | cons l ls ih =>
    intro rs s
    obtain ⟨new, eq, lanes, ran⟩ := ih (rs ++ [(l, ((q l).run.run s).1)]) ((q l).run.run s).2
    refine ⟨(l, ((q l).run.run s).1) :: new, eq.trans (List.append_assoc ..), congrArg (l :: ·) lanes, fun e he => ?_⟩
    rcases List.mem_cons.1 he with rfl | he
    · exact ⟨s, rfl⟩
    · exact ran e he

/-- No lane of a query that catches poison stops on it. -/
theorem ne_poison_of_mem {s : State} {k : Iss} {q : Nat → U LaneQ} (catches : ∀ l, CatchesPoison (q l)) {e : LaneEnd}
    (he : e ∈ (queryLanes s k q).1) (code va : Nat) : e.2 ≠ .error (.poison code va) := by
  obtain ⟨t, eq⟩ := (queryLanes_ran s k q).2 e he
  rw [eq]
  exact catches e.1 t code va

/-- A lane that neither ended, was refused, ran on for ever nor met poison misses a page or waits. -/
theorem missed_or_waits_iff {e : LaneEnd} (perm : lanePerm e = none) (endless : laneEndless e = false) (poison : ∀ code va, e.2 ≠ .error (.poison code va)) :
    (laneDone e).isNone ↔ (laneMiss e).isSome ∨ (laneWait e).isSome := by
  obtain ⟨l, stop | r⟩ := e
  · cases stop with
    | miss | wait => simp [laneDone, laneMiss, laneWait]
    | perm va => cases perm
    | poison code va => exact absurd rfl (poison code va)
    | endless => cases endless
  · simp [laneDone, laneMiss, laneWait]

theorem head_filterMap_perm {rs : List LaneEnd} (h : ∀ e ∈ rs, lanePerm e = none) : (rs.filterMap lanePerm).head? = none := by
  rw [List.filterMap_eq_nil_iff.2 h]; rfl

theorem not_any_endless {rs : List LaneEnd} (h : ∀ e ∈ rs, laneEndless e = false) : ¬rs.any laneEndless = true := by
  rw [List.any_eq_true]
  exact fun ⟨e, he, endless⟩ => Bool.false_ne_true ((h e he).symm.trans endless)

/-- What the lanes that did not reach their end stand before. -/
def blockedOf (rs : List LaneEnd) : Blocked := { miss := rs.filterMap laneMiss, wait := rs.filterMap laneWait }

theorem mem_lanes_filterMap {α : Type} {f : LaneEnd → Option (Nat × α)} (lane : ∀ e p, f e = some p → p.1 = e.1) {rs : List LaneEnd} {l : Nat} :
    l ∈ (rs.filterMap f).map (·.1) ↔ ∃ e ∈ rs, e.1 = l ∧ (f e).isSome := by
  simp only [List.mem_map, List.mem_filterMap]
  constructor
  · rintro ⟨p, ⟨e, he, eq⟩, rfl⟩
    exact ⟨e, he, (lane e p eq).symm, by rw [eq]; rfl⟩
  · rintro ⟨e, he, rfl, found⟩
    obtain ⟨p, eq⟩ := Option.isSome_iff_exists.1 found
    exact ⟨p, ⟨e, he, eq⟩, lane e p eq⟩

theorem lane_of_laneMiss (e : LaneEnd) (p : Nat × Miss) (h : laneMiss e = some p) : p.1 = e.1 := by
  unfold laneMiss at h
  split at h <;> cases h
  rfl

theorem lane_of_laneWait (e : LaneEnd) (p : Nat × Bool) (h : laneWait e = some p) : p.1 = e.1 := by
  unfold laneWait at h
  split at h <;> cases h
  rfl

theorem lane_ended_of_done {e : LaneEnd} (h : (laneDone e).isSome) : lanePerm e = none ∧ laneEndless e = false := by
  obtain ⟨l, stop | r⟩ := e
  · cases h
  · exact ⟨rfl, rfl⟩

theorem blockedOf_of_done {rs : List LaneEnd} (done : ∀ e ∈ rs, (laneDone e).isSome) : blockedOf rs = {} := by
  have nothing {α : Type} {f : LaneEnd → Option α} (h : ∀ l r, f (l, .ok r) = none) : rs.filterMap f = [] := by
    refine List.filterMap_eq_nil_iff.2 fun e he => ?_
    obtain ⟨l, stop | r⟩ := e
    · cases done _ he
    · exact h l r
  rw [blockedOf, nothing fun _ _ => rfl, nothing fun _ _ => rfl]

section Ended

variable {rs : List LaneEnd} (ended : ∀ e ∈ rs, lanePerm e = none ∧ laneEndless e = false) (poison : ∀ e ∈ rs, ∀ code va, e.2 ≠ .error (.poison code va))

include ended poison

/-- The lanes that stand before something are those that did not reach their end. -/
theorem getLsbD_blockedOf {l : Nat} (hl : l < 32) : (blockedOf rs).lanes.getLsbD l = true ↔ ∃ e ∈ rs, e.1 = l ∧ (laneDone e).isNone := by
  rw [Blocked.lanes, getLsbD_maskOf hl, List.mem_append]
  change l ∈ (rs.filterMap laneMiss).map (·.1) ∨ l ∈ (rs.filterMap laneWait).map (·.1) ↔ _
  rw [mem_lanes_filterMap lane_of_laneMiss, mem_lanes_filterMap lane_of_laneWait, ← exists_or]
  refine exists_congr fun e => ?_
  rw [← and_or_left]
  refine and_congr_right fun he => ?_
  rw [← and_or_left, missed_or_waits_iff (ended e he).1 (ended e he).2 (poison e he)]

theorem blockedOf_ne_nil (stopped : ∃ e ∈ rs, (laneDone e).isNone) : (blockedOf rs).miss ≠ [] ∨ (blockedOf rs).wait ≠ [] := by
  obtain ⟨e, he, undone⟩ := stopped
  have some_mem {α : Type} {f : LaneEnd → Option α} (h : (f e).isSome) : rs.filterMap f ≠ [] := by
    obtain ⟨p, eq⟩ := Option.isSome_iff_exists.1 h
    exact List.ne_nil_of_mem (List.mem_filterMap.2 ⟨e, he, eq⟩)
  exact ((missed_or_waits_iff (ended e he).1 (ended e he).2 (poison e he)).1 undone).imp some_mem some_mem

end Ended

/-! ## Parking (R251) -/

theorem parkOrDone_of_clear (s : State) (k : Iss) : ∃ f, parkOrDone s k {} = (s.updPath k.agent k.path f, .done) := ⟨_, rfl⟩

theorem parkOrDone_of_blocked (s : State) (k : Iss) {b : Blocked} (h : b.miss ≠ [] ∨ b.wait ≠ []) :
    ∃ t why, parkOrDone s k b = (t, .park b.lanes why) := by
  unfold parkOrDone
  split
  · exact ⟨_, _, rfl⟩
  · next no_miss =>
    split
    · next no_wait => exact absurd h (not_or.2 ⟨fun some_miss => some_miss no_miss, fun some_wait => some_wait no_wait⟩)
    · exact ⟨_, _, rfl⟩

/-! ## A unit instruction (R190, R193) -/

section UnitRun

variable {s : State} {k : Iss} {g : Ctl} {d why : Nat} {reject : Option (List (Nat × LaneQ) → Option (Nat × Word))} {q : Nat → U LaneQ}

theorem unitRun_of_perm {va : Nat} (refused : ((queryLanes s k q).1.filterMap lanePerm).head? = some va) :
    unitRun s k g d why reject q = (s, .fault 0x11 k.lanes (BitVec.ofNat 64 va)) := by
  unfold unitRun
  rcases run : queryLanes s k q with ⟨rs, t⟩
  rw [run] at refused
  simp only [refused]

theorem unitRun_of_endless (perm : ∀ e ∈ (queryLanes s k q).1, lanePerm e = none) (endless : ∃ e ∈ (queryLanes s k q).1, laneEndless e) :
    unitRun s k g d why reject q = (s, .hold) := by
  unfold unitRun
  rcases run : queryLanes s k q with ⟨rs, t⟩
  rw [run] at perm endless
  simp only [head_filterMap_perm perm, if_pos (List.any_eq_true.2 endless)]

/-- What lanes that reached their end will write. -/
def doneWrites (d : Nat) (ok : List (Nat × LaneQ)) : List (Nat × Word) :=
  ok.flatMap fun p => p.2.regs.map fun e => (32 * (d + e.1) + p.1, BitVec.ofNat 32 e.2)

/-- An instruction that may be refused parks with all its lanes (R208). -/
def parkWhole (k : Iss) : State × Fate → State × Fate
  | (t, .park _ why) => (t, .park k.lanes why)
  | r => r

section Ended

variable (ended : ∀ e ∈ (queryLanes s k q).1, lanePerm e = none ∧ laneEndless e = false)

include ended

theorem unitRun_of_refused {code : Nat} {m : Word} (refused : reject.bind (fun f => f ((queryLanes s k q).1.filterMap laneDone)) = some (code, m)) :
    unitRun s k g d why reject q = (s, .fault code m 0) := by
  unfold unitRun
  rcases run : queryLanes s k q with ⟨rs, t⟩
  rw [run] at ended refused
  simp only [head_filterMap_perm fun e he => (ended e he).1, if_neg (not_any_endless fun e he => (ended e he).2), refused]

/-- With no lane refused, the lanes that reached their end leave one result, and the others park. -/
theorem unitRun_of_accepted (accepted : reject.bind (fun f => f ((queryLanes s k q).1.filterMap laneDone)) = none) :
    ∃ res : Result, res.opens = true ∧ res.writes = doneWrites d ((queryLanes s k q).1.filterMap laneDone)
      ∧ unitRun s k g d why reject q =
        let b := blockedOf (queryLanes s k q).1
        let t := (queryLanes s k q).2
        if reject.isSome && b.lanes != 0 then parkWhole k (parkOrDone t k b)
        else parkOrDone (if ((queryLanes s k q).1.filterMap laneDone).isEmpty then t else k.later t g res) k b := by
  unfold unitRun
  rcases run : queryLanes s k q with ⟨rs, t⟩
  rw [run] at ended accepted
  simp only [head_filterMap_perm fun e he => (ended e he).1, if_neg (not_any_endless fun e he => (ended e he).2), accepted]
  exact ⟨_, rfl, rfl, rfl⟩

end Ended

end UnitRun

end Sys2Proof.Machine.UnitQueries
end

section
/-! PROOFS. The intersection, sounding, hash-grid and texture instructions, whenever they issue (R190-R221, R272-R274). -/

namespace Sys2Proof.Machine.UnitQueries

open ControlFlow NumberFormats

theorem lanesOf_ne_nil {m : Word} (h : m ≠ 0) : lanesOf m ≠ [] := by
  refine fun empty => h (BitVec.eq_of_getLsbD_eq fun i hi => ?_)
  refine (Bool.eq_false_iff.2 fun set => ?_).trans BitVec.getLsbD_zero.symm
  exact List.not_mem_nil (empty ▸ mem_lanesOf.2 ⟨hi, set⟩)

/-- The result that an instruction leaves is the newest outstanding. -/
theorem leaves_later (k : Iss) (s : State) (g : Ctl) {r : Result} (opens : r.opens = true) : Leaves (k.later s g r) k g r.writes := by
  obtain ⟨p, outstanding, ofIssue, writes, -⟩ := later_pend k s g r opens
  exact ⟨p, by rw [(outstanding_frame outstanding).2.2, List.getLast?_concat], ofIssue, writes⟩

section UnitRun

variable {s : State} {k : Iss} {g : Ctl} {d why : Nat} {reject : Option (List (Nat × LaneQ) → Option (Nat × Word))} {q : Nat → U LaneQ}

/-- With every lane at its end it completes, and each lane of L will receive its registers. -/
theorem unitRun_of_done (done : ∀ e ∈ (queryLanes s k q).1, (laneDone e).isSome)
    (accepted : reject.bind (fun f => f ((queryLanes s k q).1.filterMap laneDone)) = none) :
    ∃ t, unitRun s k g d why reject q = (t, .done)
      ∧ (k.lanes ≠ 0 → Leaves t k g (doneWrites d ((queryLanes s k q).1.filterMap laneDone))) := by
  obtain ⟨res, opens, writes, run⟩ := unitRun_of_accepted (g := g) (d := d) (why := why) (fun e he => lane_ended_of_done (done e he)) accepted
  have clear : (reject.isSome && (blockedOf (queryLanes s k q).1).lanes != 0) = false := by
    rw [blockedOf_of_done done]
    exact Bool.and_false _
  dsimp only at run
  rw [clear, if_neg Bool.false_ne_true, blockedOf_of_done done] at run
  obtain ⟨f, parked⟩ := parkOrDone_of_clear
    (if ((queryLanes s k q).1.filterMap laneDone).isEmpty then (queryLanes s k q).2 else k.later (queryLanes s k q).2 g res) k
  refine ⟨_, run.trans parked, fun active => ?_⟩
  have wrote : ¬((queryLanes s k q).1.filterMap laneDone).isEmpty := by
    have lanes : (queryLanes s k q).1 ≠ [] := fun empty =>
      lanesOf_ne_nil active (by rw [← (queryLanes_ran s k q).1, empty]; rfl)
    obtain ⟨e, he⟩ := List.exists_mem_of_ne_nil _ lanes
    obtain ⟨r, eq⟩ := Option.isSome_iff_exists.1 (done e he)
    rw [List.isEmpty_iff]
    exact List.ne_nil_of_mem (List.mem_filterMap.2 ⟨e, he, eq⟩)
  rw [if_neg wrote, ← writes]
  exact leaves_later k _ g opens

/-- With a lane that misses a page or waits it parks: with those lanes, or with all of L where it may be refused. -/
theorem unitRun_of_blocked (catches : ∀ l, CatchesPoison (q l)) (ended : ∀ e ∈ (queryLanes s k q).1, lanePerm e = none ∧ laneEndless e = false)
    (accepted : reject.bind (fun f => f ((queryLanes s k q).1.filterMap laneDone)) = none)
    (stopped : ∃ e ∈ (queryLanes s k q).1, (laneDone e).isNone) :
    ∃ t m park, unitRun s k g d why reject q = (t, .park m park)
      ∧ ∀ l < 32, m.getLsbD l ↔ if reject.isSome then k.lanes.getLsbD l else ∃ e ∈ (queryLanes s k q).1, e.1 = l ∧ (laneDone e).isNone := by
  obtain ⟨res, -, -, run⟩ := unitRun_of_accepted (g := g) (d := d) (why := why) ended accepted
  have poison (e) (he : e ∈ (queryLanes s k q).1) := ne_poison_of_mem catches he
  have blocked := blockedOf_ne_nil ended poison stopped
  dsimp only at run
  cases reject with
  | none =>
    obtain ⟨t, park, parked⟩ := parkOrDone_of_blocked
      (if ((queryLanes s k q).1.filterMap laneDone).isEmpty then (queryLanes s k q).2 else k.later (queryLanes s k q).2 g res) k blocked
    exact ⟨t, _, park, run.trans parked, fun l hl => (getLsbD_blockedOf ended poison hl).trans decide_eq_true_iff.symm⟩
  | some f =>
    have held : ((some f).isSome && (blockedOf (queryLanes s k q).1).lanes != 0) = true := by
      obtain ⟨e, he, undone⟩ := stopped
      have lane : e.1 < 32 := (mem_lanesOf.1 ((queryLanes_ran s k q).1 ▸ List.mem_map_of_mem he)).1
      have set := (getLsbD_blockedOf ended poison lane).2 ⟨e, he, rfl, undone⟩
      exact bne_iff_ne.2 fun zero => Bool.false_ne_true (BitVec.getLsbD_zero.symm.trans (zero ▸ set))
    obtain ⟨t, park, parked⟩ := parkOrDone_of_blocked (queryLanes s k q).2 k blocked
    rw [if_pos held, parked] at run
    exact ⟨t, k.lanes, park, run, fun _ _ => Iff.rfl⟩

end UnitRun

/-- R190, R193: an instruction that runs a query in each lane of L, none of which stops on poison. -/
theorem queries_of {i : Instr} {g : Ctl} {nd : Need} {d why : Nat} {reject : Option (List (Nat × LaneQ) → Option (Nat × Word))} {q : Iss → Nat → U LaneQ}
    (meaning : ∀ s, exec i s = instr s g nd fun k s => unitRun s k g d why reject (q k)) (catches : ∀ k l, CatchesPoison (q k l)) :
    Queries i g nd d reject q := by
  intro s k issues
  have ends {t : State} {f : Fate} (run : unitRun (issued s k nd) k g d why reject (q k) = (t, f)) (acts : f ≠ .hold) : EndsWith i s k t f :=
    (meaning s).trans (instr_ends issues run acts)
  refine ⟨fun done accepted => ?done, fun va refused => ends (unitRun_of_perm refused) nofun, fun perm endless => ?endless,
    fun code m ended refused => ends (unitRun_of_refused ended refused) nofun, fun ended accepted stopped => ?blocked⟩
  case done =>
    obtain ⟨t, run, leaves⟩ := unitRun_of_done done accepted
    exact ⟨t, ends run nofun, leaves⟩
  case endless => exact (meaning s).trans (instr_holds issues (unitRun_of_endless perm endless))
  case blocked =>
    obtain ⟨t, m, park, run, lanes⟩ := unitRun_of_blocked (catches k) ended accepted stopped
    exact ⟨t, m, park, ends run nofun, lanes⟩

/-- The lanes whose lookup has no record at all (R208). -/
def noRecord (ok : List (Nat × LaneQ)) : List Nat := (ok.filter fun r => r.2.regs.isEmpty).map (·.1)

/-- R208: RAYH is refused whole, before any lane writes, where some lane's lookup has no record. -/
theorem queries_rayh (x : Eng) :
    Queries (.rayh x) x.ctl (needUnit [(x.d.toNat, 4), (x.a.toNat, 8), (x.b.toNat, 2)] 1) 0
      (some fun ok => if noRecord ok = [] then none else some (0x41, maskOf (noRecord ok)))
      fun k l => poisoned (rayhLane x k l) (U.fill ([0, 1, 2, 3].map fun i => (i, none))) >>= fun r => pure (rayhPlace x.d.toNat x.a.toNat r) := by
  refine queries_of (why := 23) (fun s => ?meaning) fun k l =>
    catchesPoison_bind (catchesPoison_poisoned _ (catchesPoison_fill _)) fun _ => catchesPoison_pure _
  case meaning =>
    have rejects : (fun ok => if noRecord ok = [] then none else some (0x41, maskOf (noRecord ok)))
        = fun ok => if (noRecord ok).isEmpty then none else some (0x41, maskOf (noRecord ok)) :=
      funext fun ok => ite_congr (propext List.isEmpty_iff.symm) (fun _ => rfl) fun _ => rfl
    rw [rejects]
    rfl

/-- Settles O31: every query ends with registers where it meets poison, so what became of the lanes is one of the cases. -/
theorem unitAndTextureQueries : Obligations.UnitAndTextureQueries := by
  unfold Obligations.UnitAndTextureQueries
  refine ⟨⟨fun x => queries_of (fun _ => rfl) (catchesPoison_rayqLane x), fun x => queries_of (fun _ => rfl) (catchesPoison_raywLane x), queries_rayh,
    fun x => queries_of (fun _ => rfl) (catchesPoison_ptchLane x), ?sounding, fun x => queries_of (fun _ => rfl) (catchesPoison_hgfLane x)⟩, ?texs, ?texf⟩
  case sounding =>
    intro x i kind row
    simp only [List.mem_cons, List.not_mem_nil, or_false, Prod.mk.injEq] at row
    obtain ⟨rfl, rfl⟩ | ⟨rfl, rfl⟩ | ⟨rfl, rfl⟩ | ⟨rfl, rfl⟩ := row <;> exact queries_of (fun _ => rfl) (catchesPoison_sndLane _ x)
  case texs | texf => exact fun x => queries_of (fun _ => rfl) fun k l => catchesPoison_texLane x k _ l

end Sys2Proof.Machine.UnitQueries
end

section
/-! PROOFS. What loads and stores do beside their bytes: what is no write, agents' clocks, and the units of timestamps that an access touches (R228, R231). -/

namespace Sys2Proof.Machine.MemoryModel

open NumberFormats

/-! ## Maxima over a list -/

theorem le_foldl_max {α : Type} (g : α → Nat) (l : List α) (c : Nat) :
    c ≤ l.foldl (fun m e => max m (g e)) c ∧ ∀ e ∈ l, g e ≤ l.foldl (fun m e => max m (g e)) c := by
  induction l generalizing c with
  | nil => exact ⟨Nat.le_refl c, fun _ h => absurd h List.not_mem_nil⟩
  | cons a l ih =>
    obtain ⟨start, elems⟩ := ih (max c (g a))
    refine ⟨Nat.le_trans (Nat.le_max_left ..) start, fun e he => ?_⟩
    rcases List.mem_cons.1 he with rfl | he
    · exact Nat.le_trans (Nat.le_max_right ..) start
    · exact elems e he

theorem foldl_max_le {α : Type} {g : α → Nat} {l : List α} {c b : Nat} (start : c ≤ b) (elems : ∀ e ∈ l, g e ≤ b) :
    l.foldl (fun m e => max m (g e)) c ≤ b :=
  List.foldlRecOn (motive := (· ≤ b)) l _ start fun _ hm e he => Nat.max_le.2 ⟨hm, elems e he⟩

/-! ## What is no write -/

/-- No byte of a storage, no register and no timestamp has been written. -/
structure Unwritten (s t : State) : Prop where
  mem : SameMemory s t
  regs : SameRegs s t
  stamps : ∀ sp l, t.stampOf sp l = s.stampOf sp l
  blocks : t.blocks = s.blocks

theorem Unwritten.refl (s : State) : Unwritten s s := ⟨fun _ _ => rfl, fun _ => rfl, fun _ _ => rfl, rfl⟩

theorem Unwritten.trans {s t u : State} (h : Unwritten s t) (h' : Unwritten t u) : Unwritten s u where
  mem sp a := (h'.mem sp a).trans (h.mem sp a)
  regs n := (h'.regs n).trans (h.regs n)
  stamps sp l := (h'.stamps sp l).trans (h.stamps sp l)
  blocks := h'.blocks.trans h.blocks

theorem updAgent_unwritten (s : State) (n : Nat) {f : Agent → Agent} (name : KeepsName f) (regs : ∀ x, (f x).regs = x.regs) :
    Unwritten s (s.updAgent n f) := ⟨sameMemory_of, fun m => regsOf_updAgent s n m f name regs, fun _ _ => rfl, rfl⟩

/-- The issuing path, the releases, the relaxed stores under way and the count of accesses are none of these. -/
theorem Unwritten.marked {s t : State} (h : Unwritten s t) (cur : Option Cur) (releases : List Release) (relaxed : List Relaxed) (seq : Nat) :
    Unwritten s { t with cur := cur, releases := releases, relaxed := relaxed, seq := seq } :=
  h.trans ⟨sameMemory_of, fun _ => rfl, fun _ _ => rfl, rfl⟩

theorem meetRefresh_eq (s : State) (sp : Sp) (line : Nat) : ∃ cur, meetRefresh s sp line = { s with cur := cur } := by
  unfold meetRefresh
  split
  · exact ⟨_, rfl⟩
  · exact ⟨s.cur, rfl⟩

theorem see_unwritten (s : State) (n : Nat) (sp : Sp) (a len ts : Nat) : Unwritten s (s.see n sp a len ts) := by
  unfold State.see
  split
  · exact updAgent_unwritten s n (fun _ => ⟨rfl, rfl⟩) fun _ => rfl
  · exact .refl s

theorem seeParts_unwritten (s : State) (n : Nat) (ps : List ((Sp × Nat × Nat) × Nat)) : Unwritten s (s.seeParts n ps) :=
  List.foldlRecOn ps _ (.refl s) fun t h _ _ => h.trans (see_unwritten t n _ _ _ _)

theorem syncWith_unwritten (s : State) (r : Release) (y scope storage : Nat) : Unwritten s (syncWith s r y scope storage) := by
  unfold syncWith
  split
  · exact updAgent_unwritten s y (fun _ => ⟨rfl, rfl⟩) fun _ => rfl
  · exact .refl s

theorem syncAll_unwritten (s : State) (rs : List Release) (y scope storage : Nat) : Unwritten s (syncAll s rs y scope storage) :=
  List.foldlRecOn rs _ (.refl s) fun t h r _ => h.trans (syncWith_unwritten t r y scope storage)

theorem takeRel_unwritten (s : State) (n : Nat) (own : Option (Nat × Nat)) : Unwritten s (takeRel s n own).2 :=
  updAgent_unwritten s n (fun _ => ⟨rfl, rfl⟩) fun _ => rfl

/-! ## Clocks -/

/-- The logical clock of an agent that has not ended. -/
def clockOf (s : State) (n : Nat) : Option Nat := (s.agent? n).map (·.clock)

theorem clockOf_agents {s t : State} (h : t.agents = s.agents) (n : Nat) : clockOf t n = clockOf s n := by
  unfold clockOf State.agent?
  rw [h]

theorem clockOf_map (s : State) (n : Nat) {f : Agent → Agent} (name : KeepsName f) (clock : ∀ x, (f x).clock = x.clock) :
    clockOf { s with agents := s.agents.map f } n = clockOf s n := by
  unfold clockOf
  rw [agent?_map s n f name, Option.map_map]
  exact congrArg (Option.map · _) (funext clock)

theorem clockOf_updAgent (s : State) (n : Nat) {f : Agent → Agent} {g : Nat → Nat} (name : KeepsName f) (clock : ∀ x, (f x).clock = g x.clock) :
    clockOf (s.updAgent n f) n = (clockOf s n).map g := by
  unfold clockOf
  rw [agent?_updAgent_same s n f name, Option.map_map, Option.map_map]
  exact congrArg (Option.map · _) (funext clock)

theorem clockOf_updAgent_of_kept (s : State) (n : Nat) {f : Agent → Agent} (name : KeepsName f) (clock : ∀ x, (f x).clock = x.clock) :
    clockOf (s.updAgent n f) n = clockOf s n :=
  (clockOf_updAgent s n (g := id) name clock).trans (Option.map_id_apply ..)

theorem clockOf_see (s : State) (n : Nat) (sp : Sp) (a len ts : Nat) : clockOf (s.see n sp a len ts) n = clockOf s n := by
  unfold State.see
  split
  · exact clockOf_updAgent_of_kept s n (fun _ => ⟨rfl, rfl⟩) fun _ => rfl
  · rfl

theorem clockOf_seeParts (s : State) (n : Nat) (ps : List ((Sp × Nat × Nat) × Nat)) : clockOf (s.seeParts n ps) n = clockOf s n :=
  List.foldlRecOn (motive := fun t => clockOf t n = clockOf s n) ps _ rfl fun t h _ _ => (clockOf_see t n _ _ _ _).trans h

theorem clockOf_takeRel (s : State) (n : Nat) (own : Option (Nat × Nat)) : clockOf (takeRel s n own).2 n = clockOf s n :=
  clockOf_updAgent_of_kept s n (fun _ => ⟨rfl, rfl⟩) fun _ => rfl

/-- An agent that synchronises has at least the clock that it had (R234). -/
theorem clockOf_syncWith {s : State} {n c : Nat} (r : Release) (scope storage : Nat) (h : clockOf s n = some c) :
    ∃ d, clockOf (syncWith s r n scope storage) n = some d ∧ c ≤ d := by
  unfold syncWith
  split
  · refine ⟨max c r.clk, (clockOf_updAgent s n (g := fun c => max c r.clk) ?_ ?_).trans (congrArg _ h), Nat.le_max_left ..⟩
    · exact fun _ => ⟨rfl, rfl⟩
    · exact fun _ => rfl
  · exact ⟨c, h, Nat.le_refl c⟩

theorem clockOf_syncAll {s : State} {n c : Nat} (rs : List Release) (scope storage : Nat) (h : clockOf s n = some c) :
    ∃ d, clockOf (syncAll s rs n scope storage) n = some d ∧ c ≤ d :=
  List.foldlRecOn (motive := fun t => ∃ d, clockOf t n = some d ∧ c ≤ d) rs _ ⟨c, h, Nat.le_refl c⟩ fun t ⟨_, ht, hd⟩ r _ => by
    obtain ⟨e, he, de⟩ := clockOf_syncWith r scope storage ht
    exact ⟨e, he, Nat.le_trans hd de⟩

/-! ## Units of timestamps -/

theorem stampOf_setStamp_same (s : State) (sp : Sp) (l : Nat) (ts : Stamp) : (s.setStamp sp l ts).stampOf sp l = ts := by
  simp [State.stampOf, State.setStamp]

theorem stampOf_setStamp_ne (s : State) {sp sp' : Sp} {l l' : Nat} (ts : Stamp) (h : sp' = sp → l' ≠ l) :
    (s.setStamp sp l ts).stampOf sp' l' = s.stampOf sp' l' := by
  have kept (x : Home) : (!(x.sp == sp && x.line == l) && (x.sp == sp' && x.line == l')) = (x.sp == sp' && x.line == l') := by
    by_cases here : x.sp = sp' ∧ x.line = l'
    · obtain ⟨rfl, rfl⟩ := here
      have other : ¬((x.sp == sp && x.line == l) = true) := fun same => by
        rw [Bool.and_eq_true, beq_iff_eq, beq_iff_eq] at same
        exact h same.1 same.2
      rw [Bool.eq_false_iff.2 other]
      rfl
    · simp [here]
  have found : (s.setStamp sp l ts).homes.find? (fun x => x.sp == sp' && x.line == l') = s.homes.find? fun x => x.sp == sp' && x.line == l' := by
    refine (List.find?_cons_of_neg ?_).trans ?_
    · rw [Bool.and_eq_true, beq_iff_eq, beq_iff_eq]
      exact fun same => h same.1.symm same.2.symm
    · rw [List.find?_filter]
      simp only [Bool.decide_and, Bool.decide_eq_true, kept]
  unfold State.stampOf
  rw [found]

theorem lineOf_eq (sp : Sp) (a : Nat) : lineOf sp a = a / unitSize sp := by cases sp <;> rfl

theorem unitSize_pos (sp : Sp) : 0 < unitSize sp := by cases sp <;> exact Nat.succ_pos _

/-- The units that an access touches lie from the one of its first byte to that of its last. -/
theorem mem_linesOf {sp : Sp} {a n l : Nat} : l ∈ linesOf sp a n ↔ lineOf sp a ≤ l ∧ l ≤ lineOf sp (a + (n - 1)) := by
  have ascends : lineOf sp a ≤ lineOf sp (a + (n - 1)) := by
    rw [lineOf_eq, lineOf_eq]
    exact Nat.div_le_div_right (Nat.le_add_right _ _)
  unfold linesOf
  simp only [List.mem_map, List.mem_range]
  constructor
  · rintro ⟨i, hi, rfl⟩
    omega
  · exact fun h => ⟨l - lineOf sp a, by omega, by omega⟩

/-- A span in one unit of timestamps has one part. -/
theorem unitParts_of_one {sp : Sp} {a n : Nat} (h : lineOf sp a = lineOf sp (a + (n - 1))) : unitParts sp a n = [(sp, a, n)] := by
  have first : lineOf sp a * unitSize sp ≤ a := by
    rw [lineOf_eq]
    exact Nat.div_mul_le_self _ _
  have last : a + (n - 1) < (lineOf sp a + 1) * unitSize sp := by
    rw [h, lineOf_eq]
    exact Nat.lt_mul_of_div_lt (Nat.lt_succ_self _) (unitSize_pos sp)
  have single : linesOf sp a n = [lineOf sp a] := by
    simp [linesOf, ← h]
  have len : min (a + n) ((lineOf sp a + 1) * unitSize sp) - a = n := by omega
  simp only [unitParts, single, List.map_cons, List.map_nil, Nat.max_eq_left first, len]

/-- Each unit that a span touches has its part. -/
theorem exists_mem_unitParts {sp : Sp} {a n l : Nat} (h : l ∈ linesOf sp a n) : ∃ u ∈ unitParts sp a n, u.1 = sp ∧ lineOf u.1 u.2.1 = l := by
  refine ⟨_, List.mem_map_of_mem h, rfl, ?_⟩
  have low := (mem_linesOf.1 h).1
  dsimp only
  rw [lineOf_eq] at low ⊢
  rcases Nat.lt_or_eq_of_le low with below | rfl
  · rw [Nat.max_eq_right (Nat.le_of_lt (Nat.lt_mul_of_div_lt below (unitSize_pos sp))), Nat.mul_div_cancel _ (unitSize_pos sp)]
  · rw [Nat.max_eq_left (Nat.div_mul_le_self _ _)]

/-- A span over several units of timestamps has several parts. -/
theorem unitParts_of_several {sp : Sp} {a n : Nat} (h : lineOf sp a < lineOf sp (a + (n - 1))) : 2 ≤ (unitParts sp a n).length := by
  simp only [unitParts, linesOf, List.length_map, List.length_range]
  omega

/-! ## Relaxed stores under way -/

/-- With no relaxed store under way none reaches its home. -/
theorem drainWhere_of_none {s : State} (h : s.relaxed = []) (p : Relaxed → Bool) : drainWhere s p = s := by
  cases s
  cases h
  rfl

end Sys2Proof.Machine.MemoryModel
end

section
/-! PROOFS. Plain loads: what a fetch returns, the leases it renews, and the agent's clock after it (R228, R231, R237). -/

namespace Sys2Proof.Machine.MemoryModel

open NumberFormats

/-! ## Leases renewed and copies taken (R228) -/

/-- Lines have been renewed: writes keep their timestamps and leases their length at least; beside that only copies, and the counts of
leases and free choices, have changed, and for how long the access waits. -/
structure Renewed (s t : State) : Prop where
  only : ∃ homes copies leases fresh cur, t = { s with homes := homes, copies := copies, leases := leases, fresh := fresh, cur := cur }
  wts : ∀ sp l, (t.stampOf sp l).wts = (s.stampOf sp l).wts
  rts : ∀ sp l, (s.stampOf sp l).rts ≤ (t.stampOf sp l).rts

theorem Renewed.trans {s t u : State} (h : Renewed s t) (h' : Renewed t u) : Renewed s u where
  only := by
    obtain ⟨_, _, _, _, _, rfl⟩ := h.only
    obtain ⟨_, _, _, _, _, rfl⟩ := h'.only
    exact ⟨_, _, _, _, _, rfl⟩
  wts sp l := (h'.wts sp l).trans (h.wts sp l)
  rts sp l := Nat.le_trans (h.rts sp l) (h'.rts sp l)

/-- An update beside the homes. -/
theorem renewed_of {s t : State} (only : ∃ copies leases fresh cur, t = { s with copies := copies, leases := leases, fresh := fresh, cur := cur }) : Renewed s t := by
  obtain ⟨_, _, _, _, rfl⟩ := only
  exact ⟨⟨_, _, _, _, _, rfl⟩, fun _ _ => rfl, fun _ _ => Nat.le_refl _⟩

theorem Renewed.refl (s : State) : Renewed s s := renewed_of ⟨_, _, _, _, rfl⟩

theorem setStamp_renewed {s : State} {sp : Sp} {line rts : Nat} (longer : (s.stampOf sp line).rts ≤ rts) :
    Renewed s (s.setStamp sp line { wts := (s.stampOf sp line).wts, rts := rts }) := by
  have stamps (sp' : Sp) (l : Nat) : ((s.setStamp sp line { wts := (s.stampOf sp line).wts, rts := rts }).stampOf sp' l).wts = (s.stampOf sp' l).wts
      ∧ (s.stampOf sp' l).rts ≤ ((s.setStamp sp line { wts := (s.stampOf sp line).wts, rts := rts }).stampOf sp' l).rts := by
    by_cases here : sp' = sp ∧ l = line
    · obtain ⟨rfl, rfl⟩ := here
      rw [stampOf_setStamp_same]
      exact ⟨rfl, longer⟩
    · rw [stampOf_setStamp_ne s _ fun hsp hl => here ⟨hsp, hl⟩]
      exact ⟨rfl, Nat.le_refl _⟩
  exact ⟨⟨_, _, _, _, _, rfl⟩, fun sp' l => (stamps sp' l).1, fun sp' l => (stamps sp' l).2⟩

theorem Renewed.copied {s t : State} (h : Renewed s t) (cs : List Copy) : Renewed s { t with copies := cs } :=
  h.trans (renewed_of ⟨_, _, _, _, rfl⟩)

theorem meetRefresh_renewed (s : State) (sp : Sp) (line : Nat) : Renewed s (meetRefresh s sp line) := by
  obtain ⟨_, waits⟩ := meetRefresh_eq s sp line
  rw [waits]
  exact renewed_of ⟨_, _, _, _, rfl⟩

theorem poolRoom_renewed (s : State) (sp : Sp) (line : Nat) : Renewed s (poolRoom s sp line) := by
  cases sp with
  | pool k =>
    unfold poolRoom
    dsimp only
    rw [if_neg (by decide)]
    split
    · exact .refl s
    · split
      · exact .copied (.refl s) _
      · exact .refl s
  | _ => exact .refl s

theorem copyRoom_renewed (s : State) (place : Nat) : Renewed s (copyRoom s place) := by
  unfold copyRoom
  dsimp only
  split
  · exact .refl s
  · split
    · exact renewed_of ⟨_, _, _, _, rfl⟩
    · exact .refl s

/-- A renewal extends the lease at the home, over the load's own timestamp, before it takes copies. -/
theorem renew_stamps (s : State) (n : Nat) (sp : Sp) (line clock upto : Nat) : ∃ rts, (s.stampOf sp line).rts ≤ rts ∧ upto ≤ rts
    ∧ Renewed (s.setStamp sp line { wts := (s.stampOf sp line).wts, rts := rts }) (renew s n sp line clock upto) := by
  refine ⟨max (max (s.stampOf sp line).rts upto) (max (clock + s.lease) ((s.stampOf sp line).wts + s.lease)), by omega, by omega, ?_⟩
  have leased (t : State) (k : Nat) : Renewed t (meetRefresh { t with leases := k } sp line) :=
    (renewed_of ⟨_, _, _, _, rfl⟩).trans (meetRefresh_renewed _ sp line)
  unfold renew
  dsimp only
  split
  · refine .copied (List.foldlRecOn _ _ (.copied ((leased _ _).trans (poolRoom_renewed ..)) _) fun t h place _ => ?_) _
    exact h.trans (copyRoom_renewed t place)
  · exact leased _ _

theorem renew_renewed (s : State) (n : Nat) (sp : Sp) (line clock upto : Nat) : Renewed s (renew s n sp line clock upto) := by
  obtain ⟨rts, longer, -, copied⟩ := renew_stamps s n sp line clock upto
  exact (setStamp_renewed longer).trans copied

theorem le_rts_renew (s : State) (n : Nat) (sp : Sp) (line clock upto : Nat) : upto ≤ ((renew s n sp line clock upto).stampOf sp line).rts := by
  obtain ⟨rts, -, long, copied⟩ := renew_stamps s n sp line clock upto
  have kept := copied.rts sp line
  rw [stampOf_setStamp_same] at kept
  exact Nat.le_trans long kept

/-- The parts of a load renewed at their homes for one timestamp, which the leases of all of them then cover. -/
theorem foldl_renew (n clock upto : Nat) (us : List (Sp × Nat × Nat)) (s : State) :
    let t := us.foldl (fun s u => renew s n u.1 (lineOf u.1 u.2.1) clock upto) s
    Renewed s t ∧ ∀ u ∈ us, upto ≤ (t.stampOf u.1 (lineOf u.1 u.2.1)).rts := by
  induction us generalizing s with
  | nil => exact ⟨.refl s, fun _ h => absurd h List.not_mem_nil⟩
  | cons u us ih =>
    obtain ⟨rest, covered⟩ := ih (renew s n u.1 (lineOf u.1 u.2.1) clock upto)
    refine ⟨(renew_renewed ..).trans rest, fun v hv => ?_⟩
    rcases List.mem_cons.1 hv with rfl | hv
    · exact Nat.le_trans (le_rts_renew ..) (rest.rts _ _)
    · exact covered v hv

/-! ## What a fetch returns (R231, R237) -/

/-- The newest write at the home of a part. -/
def homeWts (s : State) (u : Sp × Nat × Nat) : Nat := (s.stampOf u.1 (lineOf u.1 u.2.1)).wts

/-- The timestamp of a plain load at its homes: above the writes of all its parts. -/
def loadTs (s : State) (x : Agent) (us : List (Sp × Nat × Nat)) : Nat := us.foldl (fun m u => max m (homeWts s u + 1)) x.clock

/-- Parts read at their homes at one point. -/
def fetchHomes (s : State) (n : Nat) (x : Agent) (us : List (Sp × Nat × Nat)) : List Byte × List ((Sp × Nat × Nat) × Nat) × State :=
  (us.flatMap fun u => s.readHome u.1 u.2.1 u.2.2, us.map fun u => (u, homeWts s u),
    us.foldl (fun t u => renew t n u.1 (lineOf u.1 u.2.1) x.clock (loadTs s x us)) s)

theorem fetchParts_renewed (s : State) (n : Nat) (us : List (Sp × Nat × Nat)) (relaxed : Bool) : Renewed s (fetchParts s n us relaxed).2.2 := by
  unfold fetchParts
  dsimp only
  split
  · exact renewed_of ⟨_, _, _, _, rfl⟩
  · exact (foldl_renew ..).1

section Fetch
variable {s : State} {n : Nat} {x : Agent} (hx : s.agent? n = some x)
include hx

theorem fetchParts_of_copy {sp : Sp} {a len : Nat} {c : Copy} (found : s.copyFor n sp (lineOf sp a) (fun k => k.serves x s.tick false sp a len) = some c) :
    ∃ t, fetchParts s n [(sp, a, len)] false = ((c.data.drop (a % 128)).take len, [((sp, a, len), c.ts.wts)], t) := by
  unfold fetchParts
  simp only [hx, Option.getD_some, found, Option.map_some]
  exact ⟨_, rfl⟩

theorem fetchParts_of_no_copy {sp : Sp} {a len : Nat} (absent : s.copyFor n sp (lineOf sp a) (fun k => k.serves x s.tick false sp a len) = none) :
    fetchParts s n [(sp, a, len)] false = fetchHomes s n x [(sp, a, len)] := by
  unfold fetchParts
  simp only [hx, Option.getD_some, absent, Option.map_none]
  rfl

theorem fetchParts_of_several {us : List (Sp × Nat × Nat)} (several : 2 ≤ us.length) : fetchParts s n us false = fetchHomes s n x us := by
  match us, several with
  | u :: v :: us, _ =>
    unfold fetchParts
    simp only [hx, Option.getD_some]
    rfl

end Fetch

/-- The newest write among those that the parts of a load can see. -/
def newestSeen (seen : List ((Sp × Nat × Nat) × Nat)) : Nat := seen.foldl (fun m p => max m p.2) 0

/-- A load at its homes has a timestamp above the newest write that it sees, and no less than the agent's clock. -/
theorem newestSeen_lt_loadTs (s : State) (n : Nat) (x : Agent) {us : List (Sp × Nat × Nat)} {u : Sp × Nat × Nat} (hu : u ∈ us) :
    max x.clock (newestSeen (fetchHomes s n x us).2.1 + 1) ≤ loadTs s x us := by
  obtain ⟨clock, above⟩ := le_foldl_max (fun u => homeWts s u + 1) us x.clock
  have positive := above u hu
  have newest : newestSeen (fetchHomes s n x us).2.1 ≤ loadTs s x us - 1 :=
    foldl_max_le (Nat.zero_le _) (List.forall_mem_map.2 fun v hv => Nat.le_sub_one_of_lt (above v hv))
  unfold loadTs at newest ⊢
  omega

/-- A load at its homes leaves the writes of each of its parts, and leases that cover it. -/
theorem fetchHomes_stamps (s : State) (n : Nat) (x : Agent) {us : List (Sp × Nat × Nat)} {u : Sp × Nat × Nat} (hu : u ∈ us) :
    let f := fetchHomes s n x us
    homeWts s u ≤ newestSeen f.2.1 ∧ homeWts f.2.2 u = homeWts s u
      ∧ max x.clock (newestSeen f.2.1 + 1) ≤ (f.2.2.stampOf u.1 (lineOf u.1 u.2.1)).rts := by
  obtain ⟨renewed, covered⟩ := foldl_renew n x.clock (loadTs s x us) us s
  have here : (u, homeWts s u) ∈ (fetchHomes s n x us).2.1 := List.mem_map_of_mem (f := fun u => (u, homeWts s u)) hu
  exact ⟨(le_foldl_max Prod.snd _ 0).2 _ here, renewed.wts _ _, Nat.le_trans (newestSeen_lt_loadTs s n x hu) (covered u hu)⟩

/-! ## What a plain load does for its agent (R228, R240) -/

/-- The releases whose values the parts of a load read. -/
def releasesRead (s : State) (seen : List ((Sp × Nat × Nat) × Nat)) : List Release := seen.flatMap fun p => s.releasesAt p.1.1 p.1.2.1 p.1.2.2 p.2

/-- What a plain load notes for its agent before it synchronises. -/
def noteLoad (s : State) (n : Nat) (seen : List ((Sp × Nat × Nat) × Nat)) : State :=
  (s.updAgent n fun x => { x with clock := max x.clock (newestSeen seen + 1), lastRel := releasesRead s seen }).seeParts n seen

theorem observe_plain (s : State) (n : Nat) (seen : List ((Sp × Nat × Nat) × Nat)) :
    observe s n seen 0 0 0 = syncAll (noteLoad s n seen) ((releasesRead s seen).filter fun r => r.who == .engine) n 3 4 := rfl

theorem clockOf_noteLoad (s : State) (n : Nat) (seen : List ((Sp × Nat × Nat) × Nat)) :
    clockOf (noteLoad s n seen) n = (clockOf s n).map fun c => max c (newestSeen seen + 1) := by
  refine (clockOf_seeParts ..).trans (clockOf_updAgent s n ?_ ?_)
  · exact fun _ => ⟨rfl, rfl⟩
  · exact fun _ => rfl

theorem observe_unwritten (s : State) (n : Nat) (seen : List ((Sp × Nat × Nat) × Nat)) : Unwritten s (observe s n seen 0 0 0) := by
  rw [observe_plain]
  refine .trans (.trans ?_ (seeParts_unwritten ..)) (syncAll_unwritten ..)
  exact updAgent_unwritten s n (fun _ => ⟨rfl, rfl⟩) fun _ => rfl

/-- After a plain load an agent's clock is past the newest write that it read; only a release of an engine raises it further. -/
theorem clockOf_observe {s : State} {n c : Nat} (seen : List ((Sp × Nat × Nat) × Nat)) (h : clockOf s n = some c) :
    ∃ d, clockOf (observe s n seen 0 0 0) n = some d ∧ max c (newestSeen seen + 1) ≤ d
      ∧ ((∀ q ∈ s.releases, q.who ≠ .engine) → d = max c (newestSeen seen + 1)) := by
  have noted := (clockOf_noteLoad s n seen).trans (congrArg _ h)
  rw [observe_plain]
  obtain ⟨d, synced, le⟩ := clockOf_syncAll ((releasesRead s seen).filter fun r => r.who == .engine) 3 4 noted
  refine ⟨d, synced, le, fun quiet => ?_⟩
  have none : ((releasesRead s seen).filter fun r => r.who == .engine) = [] := by
    refine List.filter_eq_nil_iff.2 fun r hr => ?_
    obtain ⟨p, -, hp⟩ := List.mem_flatMap.1 hr
    simpa using quiet r (List.mem_filter.1 hp).1
  rw [none] at synced
  exact Option.some.inj (synced.symm.trans noted)

/-! ## A plain load -/

section Load
variable {s : State} (n : Nat) (sp : Sp) (a len : Nat) (drained : s.relaxed = [])
include drained

/-- A plain load is the fetch of its parts, and what the agent has observed by it. -/
theorem loadPlain_eq :
    let f := fetchParts s n (unitParts sp a len) false
    let t := observe f.2.2 n f.2.1 0 0 0
    loadPlain s n sp a len = ({ bytes := f.1, poison := s.poisoned sp a len, wts := newestSeen f.2.1 }, { t with seq := t.seq + 1 }) := by
  unfold loadPlain loadOrd loadParts
  simp only [List.foldl_cons, List.foldl_nil, drainOverlap, drainWhere_of_none drained, List.any_cons, List.any_nil, Bool.or_false,
    List.flatMap_cons, List.flatMap_nil, List.append_nil]
  rfl

/-- After its fetch a plain load writes nothing. -/
theorem loadPlain_unwritten : Unwritten (fetchParts s n (unitParts sp a len) false).2.2 (loadPlain s n sp a len).2 := by
  rw [loadPlain_eq n sp a len drained]
  exact (observe_unwritten ..).marked _ _ _ _

theorem loadPlain_frame : SameRegs s (loadPlain s n sp a len).2 ∧ SameMemory s (loadPlain s n sp a len).2 := by
  have unwritten := loadPlain_unwritten n sp a len drained
  obtain ⟨_, _, _, _, _, fetched⟩ := (fetchParts_renewed s n (unitParts sp a len) false).only
  rw [fetched] at unwritten
  exact ⟨unwritten.regs, unwritten.mem⟩

variable {n} {x : Agent} (hx : s.agent? n = some x)
include hx

/-- The clock of the agent after a plain load. -/
theorem clockOf_loadPlain :
    let r := loadPlain s n sp a len
    ∃ y, r.2.agent? n = some y ∧ max x.clock (r.1.wts + 1) ≤ y.clock
      ∧ ((∀ q ∈ s.releases, q.who ≠ .engine) → y.clock = max x.clock (r.1.wts + 1)) := by
  rw [loadPlain_eq n sp a len drained]
  obtain ⟨_, _, _, _, _, fetched⟩ := (fetchParts_renewed s n (unitParts sp a len) false).only
  have before : clockOf (fetchParts s n (unitParts sp a len) false).2.2 n = some x.clock := by
    rw [fetched]
    exact (clockOf_agents rfl n).trans (congrArg _ hx)
  obtain ⟨d, after, le, quiet⟩ := clockOf_observe (fetchParts s n (unitParts sp a len) false).2.1 before
  obtain ⟨y, hy, rfl⟩ := Option.map_eq_some_iff.1 after
  exact ⟨y, hy, le, fun none => quiet (by rw [fetched]; exact none)⟩

/-- Several lines are read at their homes at one point, and their leases then cover the load's timestamp. -/
theorem loadPlain_of_several (several : lineOf sp a < lineOf sp (a + (len - 1))) :
    let r := loadPlain s n sp a len
    r.1.bytes = (unitParts sp a len).flatMap (fun u => s.readHome u.1 u.2.1 u.2.2)
      ∧ ∀ l ∈ linesOf sp a len, (s.stampOf sp l).wts ≤ r.1.wts ∧ (r.2.stampOf sp l).wts = (s.stampOf sp l).wts
        ∧ max x.clock (r.1.wts + 1) ≤ (r.2.stampOf sp l).rts := by
  intro r
  have fetched := fetchParts_of_several hx (unitParts_of_several several)
  have kept := (loadPlain_unwritten n sp a len drained).stamps
  have loaded : r.1 = _ := congrArg Prod.fst (loadPlain_eq n sp a len drained)
  rw [fetched] at kept loaded
  rw [loaded]
  refine ⟨rfl, fun l hl => ?_⟩
  obtain ⟨u, hu, rfl, rfl⟩ := exists_mem_unitParts hl
  rw [kept]
  exact fetchHomes_stamps s n x hu

end Load

/-- Settles O23: one part comes from the copy that serves it or from its home, several from their homes under one timestamp. -/
theorem plainLoadReadsALeasedCopyOrTheHome : Obligations.PlainLoadReadsALeasedCopyOrTheHome := by
  intro s n x sp a len drained hx
  obtain ⟨regs, memory⟩ := loadPlain_frame n sp a len drained
  refine ⟨?_, regs, memory, fun one => ?_, fun several => ?_, clockOf_loadPlain sp a len drained hx⟩
  · rw [loadPlain_eq n sp a len drained]
  · dsimp only
    rw [loadPlain_eq n sp a len drained, unitParts_of_one one]
    refine ⟨fun c found => ?_, fun absent => ?_⟩
    · obtain ⟨t, fetched⟩ := fetchParts_of_copy hx found
      rw [fetched]
      exact ⟨rfl, Nat.zero_max _⟩
    · rw [fetchParts_of_no_copy hx absent]
      exact ⟨List.append_nil _, Nat.zero_max _⟩
  · exact loadPlain_of_several sp a len drained hx several

end Sys2Proof.Machine.MemoryModel
end

section
/-! PROOFS. Stores at their homes, and relaxed stores that wait with their agent (R228, R231). -/

namespace Sys2Proof.Machine.MemoryModel

open NumberFormats

/-! ## The bytes of storages -/

theorem blockOf?_updBlock_ne (s : State) {g g' : GangKey} {r r' : Nat} (f : Block → Block) (name : ∀ b, (f b).gang = b.gang ∧ (f b).role = b.role)
    (h : ¬(g' = g ∧ r' = r)) : (s.updBlock g r f).blockOf? g' r' = s.blockOf? g' r' := by
  have found : (s.updBlock g r f).blockOf? g' r' = (s.blockOf? g' r').map fun b => if b.gang == g && b.role == r then f b else b :=
    find_map_of _ _ (fun b => by split <;> simp [name b]) s.blocks
  rw [found]
  cases hb : s.blockOf? g' r' with
  | none => rfl
  | some b =>
    have here : b.gang = g' ∧ b.role = r' := by simpa using List.find?_some hb
    obtain ⟨rfl, rfl⟩ := here
    exact congrArg some (if_neg (by simpa using h))

/-- One storage's bytes replaced leave every other storage. -/
theorem cells_setCells_ne (s : State) {sp sp' : Sp} (c : List Host.Cell) (h : sp' ≠ sp) : (s.setCells sp c).cells sp' = s.cells sp' := by
  cases sp with
  | loc =>
    cases sp' with
    | loc => exact absurd rfl h
    | _ => rfl
  | host =>
    cases sp' with
    | host => exact absurd rfl h
    | _ => rfl
  | peer k =>
    cases sp' with
    | peer k' => exact (mget_mset ..).trans (if_neg fun same => h (congrArg _ same))
    | _ => rfl
  | pool k =>
    cases sp' with
    | pool k' => exact (mget_mset ..).trans (if_neg fun same => h (congrArg _ same))
    | _ => rfl
  | rk k =>
    cases sp' with
    | rk k' => exact (mget_mset ..).trans (if_neg fun same => h (congrArg _ same))
    | _ => rfl
  | scr g r =>
    cases sp' with
    | scr g' r' =>
      have block := blockOf?_updBlock_ne s (fun b => { b with scr := c }) (fun _ => ⟨rfl, rfl⟩) fun same : g' = g ∧ r' = r => h (by rw [same.1, same.2])
      exact congrArg (fun b => (b.map Block.scr).getD []) block
    | _ => rfl

/-- Bytes written at their home replace those of their storage; what is noted beside is no memory. -/
theorem writeRaw_sameMemory (s : State) (sp : Sp) (a : Nat) (bs : List Byte) :
    SameMemory (s.setCells sp (cellsWrite (s.cells sp) a bs)) (s.writeRaw sp a bs) := by
  cases sp <;> exact sameMemory_of

/-- Stores between changes that are no memory. -/
theorem storedOnly_between {s u v t : State} {ts : List (Sp × Nat × List Byte)} (before : SameMemory s u) (store : StoredOnly u v ts) (after : SameMemory v t) :
    StoredOnly s t ts := fun sp a => by rw [after, store, before]

/-! ## Bytes written with a timestamp (R228) -/

/-- Bytes written at their home, and the timestamp that its units then carry. -/
def stampedWrite (s : State) (sp : Sp) (a : Nat) (bs : List Byte) (ts : Nat) : State := (s.writeRaw sp a bs).setStamps sp a bs.length ts

theorem setStamps_eq (s : State) (sp : Sp) (a n ts : Nat) : ∃ homes, s.setStamps sp a n ts = { s with homes := homes } :=
  List.foldlRecOn (motive := fun t => ∃ homes : List Home, t = ({ s with homes := homes } : State)) _ _ ⟨s.homes, rfl⟩ fun _ before _ _ => by
    obtain ⟨_, rfl⟩ := before
    exact ⟨_, rfl⟩

theorem stampOf_foldl_setStamp (sp : Sp) (ts : Stamp) (ls : List Nat) (s : State) (l : Nat) (h : l ∈ ls ∨ s.stampOf sp l = ts) :
    (ls.foldl (fun s l => s.setStamp sp l ts) s).stampOf sp l = ts := by
  induction ls generalizing s with
  | nil => exact h.resolve_left List.not_mem_nil
  | cons k ls ih =>
    refine ih _ ?_
    by_cases same : l = k
    · subst same
      exact .inr (stampOf_setStamp_same ..)
    · refine h.imp (fun mem => (List.mem_cons.1 mem).resolve_left same) fun before => ?_
      rw [stampOf_setStamp_ne s _ fun _ => same, before]

theorem stampOf_stampedWrite (s : State) {sp : Sp} {a : Nat} {bs : List Byte} (ts : Nat) {l : Nat} (h : l ∈ linesOf sp a bs.length) :
    (stampedWrite s sp a bs ts).stampOf sp l = { wts := ts, rts := ts } := stampOf_foldl_setStamp sp _ _ _ l (.inl h)

/-- Only the bytes of the write change. -/
theorem stampedWrite_storedOnly {s : State} {sp : Sp} (a : Nat) (bs : List Byte) (ts : Nat) (h : ∀ g r, sp = .scr g r → s.blockOf? g r ≠ none) :
    StoredOnly s (stampedWrite s sp a bs ts) [(sp, a, bs)] := by
  intro sp' x
  obtain ⟨homes, stamped⟩ := setStamps_eq (s.writeRaw sp a bs) sp a bs.length ts
  have written : (stampedWrite s sp a bs ts).byteAt sp' x = (s.writeRaw sp a bs).byteAt sp' x := by
    rw [stampedWrite, stamped]
    exact (sameMemory_of : SameMemory _ _) sp' x
  rw [written]
  by_cases same : sp' = sp
  · subst same
    rw [byteAt_writeRaw s sp' a bs x h]
    by_cases inside : a ≤ x ∧ x < a + bs.length
    · simp [lastStored, inside]
    · simp [lastStored, inside]
  · rw [writeRaw_sameMemory s sp a bs sp' x]
    simp [lastStored, Ne.symm same, State.byteAt, cells_setCells_ne s _ same]

theorem agents_stampedWrite (s : State) (sp : Sp) (a : Nat) (bs : List Byte) (ts : Nat) :
    (stampedWrite s sp a bs ts).agents = (noteWrite s sp a bs.length).agents := by
  obtain ⟨homes, stamped⟩ := setStamps_eq (s.writeRaw sp a bs) sp a bs.length ts
  rw [stampedWrite, stamped]
  cases sp <;> rfl

theorem stampedWrite_regs (s : State) (sp : Sp) (a : Nat) (bs : List Byte) (ts : Nat) : SameRegs s (stampedWrite s sp a bs ts) := fun m =>
  (regsOf_agents (agents_stampedWrite s sp a bs ts) m).trans (regsOf_noteWrite s sp a bs.length m)

theorem clockOf_stampedWrite (s : State) (sp : Sp) (a : Nat) (bs : List Byte) (ts n : Nat) : clockOf (stampedWrite s sp a bs ts) n = clockOf s n :=
  (clockOf_agents (agents_stampedWrite s sp a bs ts) n).trans (clockOf_map s n (fun _ => ⟨rfl, rfl⟩) fun _ => rfl)

/-- A store's timestamp is no less than its agent's clock, and past every lease on its units. -/
theorem storeTs_gt (s : State) (sp : Sp) (a n c : Nat) : c ≤ s.storeTs sp a n c ∧ ∀ l ∈ linesOf sp a n, (s.stampOf sp l).rts < s.storeTs sp a n c :=
  le_foldl_max (fun l => (s.stampOf sp l).rts + 1) _ c

/-! ## A store at its home (R228) -/

theorem foldl_meetRefresh_eq (us : List (Sp × Nat × Nat)) (s : State) :
    ∃ cur, us.foldl (fun s u => meetRefresh s u.1 (lineOf u.1 u.2.1)) s = { s with cur := cur } :=
  List.foldlRecOn (motive := fun t => ∃ cur : Option Cur, t = ({ s with cur := cur } : State)) _ _ ⟨s.cur, rfl⟩ fun _ before u _ => by
    obtain ⟨_, rfl⟩ := before
    exact meetRefresh_eq _ u.1 (lineOf u.1 u.2.1)

/-- An agent whose store has taken a timestamp. -/
def stored (ts : Nat) (x : Agent) : Agent := { x with clock := ts, relTs := max x.relTs ts }

theorem clockOf_stored (s : State) (n ts : Nat) : clockOf (s.updAgent n (stored ts)) n = (clockOf s n).map fun _ => ts :=
  clockOf_updAgent s n (fun _ => ⟨rfl, rfl⟩) fun _ => rfl

section StoreHome
variable {s : State} (n : Nat) (sp : Sp) (a : Nat) (bs : List Byte) (drained : s.relaxed = [])
include drained

theorem storeHome_eq :
    let ts := s.storeTs sp a bs.length ((clockOf s n).getD 0)
    ∃ u releases seq, Unwritten s u ∧ clockOf u n = clockOf s n ∧ storeHome s n sp a bs none false true =
      { (({ stampedWrite u sp a bs ts with releases := releases } : State).updAgent n (stored ts)).seeParts n
          ((unitParts sp a bs.length).map fun u => (u, ts)) with seq := seq } := by
  intro ts
  let taken := (takeRel s n none).2
  obtain ⟨cur, waits⟩ := foldl_meetRefresh_eq (unitParts sp a bs.length) taken
  have clock : s.storeTs sp a bs.length ((clockOf taken n).getD 0) = ts := by rw [clockOf_takeRel]
  refine ⟨{ taken with cur := cur }, ?_⟩
  rw [← clock]
  unfold storeHome storeParts
  simp only [List.foldl_cons, List.foldl_nil, drainOverlap, drainWhere_of_none drained, List.flatMap_cons, List.flatMap_nil, List.append_nil,
    Option.isSome_none, Bool.false_eq_true, if_false, if_true]
  rw [waits]
  exact ⟨_, _, (takeRel_unwritten s n none).marked _ _ _ _, (clockOf_agents rfl n).trans (clockOf_takeRel s n none), rfl⟩

/-- A plain store is one stamped write, and its timestamp its agent's clock. -/
theorem storeHome_writes :
    let t := storeHome s n sp a bs none false true
    let ts := s.storeTs sp a bs.length ((clockOf s n).getD 0)
    (∃ u, Unwritten s u ∧ Unwritten (stampedWrite u sp a bs ts) t) ∧ clockOf t n = (clockOf s n).map fun _ => ts := by
  obtain ⟨u, releases, seq, before, clock, store⟩ := storeHome_eq n sp a bs drained
  rw [store]
  refine ⟨⟨u, before, .marked (.trans ?_ (seeParts_unwritten ..)) _ _ _ _⟩, ?_⟩
  · exact .trans (.marked (.refl _) _ _ _ _) (updAgent_unwritten _ n (fun _ => ⟨rfl, rfl⟩) fun _ => rfl)
  · refine (clockOf_agents rfl n).trans ((clockOf_seeParts ..).trans ((clockOf_stored ..).trans (congrArg _ ?_)))
    exact (clockOf_agents rfl n).trans ((clockOf_stampedWrite ..).trans clock)

end StoreHome

/-! ## Relaxed stores (R231) -/

/-- A relaxed store that reaches its home is one stamped write. -/
theorem performRelaxed_writes (s : State) (r : Relaxed) :
    ∃ ts, Unwritten (stampedWrite s r.sp r.addr r.bytes ts) (performRelaxed s r) := by
  refine ⟨s.storeTs r.sp r.addr r.bytes.length 0, ?_⟩
  unfold performRelaxed
  refine .marked (.trans ?_ (seeParts_unwritten ..)) _ _ _ _
  exact updAgent_unwritten _ r.agent (fun _ => ⟨rfl, rfl⟩) fun _ => rfl

/-- A relaxed store joins those under way, with the release fences that act on it. -/
theorem storeOrd_relaxed {s : State} (n : Nat) (sp : Sp) (a : Nat) (bs : List Byte) (scope storage : Nat) (drained : s.relaxed = []) :
    ∃ r : Relaxed, (r.agent = n ∧ r.sp = sp ∧ r.addr = a ∧ r.bytes = bs)
      ∧ storeOrd s n sp a bs 1 scope storage = { (takeRel s n none).2 with relaxed := [r] } := by
  refine ⟨{ agent := n, sp := sp, addr := a, bytes := bs, since := s.tick, rel := (takeRel s n none).1 }, ⟨rfl, rfl, rfl, rfl⟩, ?_⟩
  have none_before : (takeRel s n none).2.relaxed = [] := drained
  unfold storeOrd drainOverlap
  simp only [drainWhere_of_none drained, beq_self_eq_true, if_true, none_before, List.nil_append]
  rfl

/-- The one relaxed store under way reaches its home with its agent's next release. -/
theorem drainAgent_of_one (s : State) {r : Relaxed} {n : Nat} (own : r.agent = n) :
    drainAgent { s with relaxed := [r] } n = performRelaxed { s with relaxed := [] } r := by
  have due : (r.agent == n) = true := beq_iff_eq.2 own
  unfold drainAgent drainWhere
  simp only [List.filter_cons, List.filter_nil, due, if_true, Bool.not_true, Bool.false_eq_true, if_false, List.foldl_cons, List.foldl_nil]

/-- A stamped write among changes that write nothing stores its bytes and no other. -/
theorem storedOnly_of_stampedWrite {s u t : State} {sp : Sp} {a : Nat} {bs : List Byte} {ts : Nat} (h : ∀ g r, sp = .scr g r → s.blockOf? g r ≠ none)
    (before : Unwritten s u) (after : Unwritten (stampedWrite u sp a bs ts) t) : StoredOnly s t [(sp, a, bs)] := by
  refine storedOnly_between before.mem (stampedWrite_storedOnly a bs ts fun g r scratchpad => ?_) after.mem
  unfold State.blockOf?
  rw [before.blocks]
  exact h g r scratchpad

/-- Settles O24: a store at its home is one stamped write above every lease on its units, and a relaxed one is that when it gets there. -/
theorem storesTakeLaterTimestamps : Obligations.StoresTakeLaterTimestamps := by
  refine ⟨fun s n x sp a bs drained hx _ block => ?_, fun s n sp a bs scope storage drained => ?_⟩
  · obtain ⟨⟨u, before, after⟩, clock⟩ := storeHome_writes n sp a bs drained
    have own : clockOf s n = some x.clock := congrArg _ hx
    rw [own, Option.getD_some] at after clock
    obtain ⟨y, hy, hts⟩ := Option.map_eq_some_iff.1 clock
    obtain ⟨passed, later⟩ := storeTs_gt s sp a bs.length x.clock
    refine ⟨storedOnly_of_stampedWrite block before after, fun m => (after.regs m).trans ((stampedWrite_regs u sp a bs _ m).trans (before.regs m)), _, fun l hl => ⟨later l hl, ?_⟩, passed, y, hy, hts⟩
    rw [after.stamps]
    exact stampOf_stampedWrite u _ hl
  · obtain ⟨r, ⟨agent, space, addr, bytes⟩, waits⟩ := storeOrd_relaxed n sp a bs scope storage drained
    dsimp only
    rw [waits, drainAgent_of_one _ agent]
    have before : Unwritten s { (takeRel s n none).2 with relaxed := [r] } := (takeRel_unwritten s n none).marked _ _ _ _
    refine ⟨before.mem, before.regs, r, rfl, agent, space, addr, bytes, fun block => ?_⟩
    subst space addr bytes
    obtain ⟨ts, store⟩ := performRelaxed_writes { (takeRel s n none).2 with relaxed := [] } r
    exact storedOnly_of_stampedWrite block ((takeRel_unwritten s n none).marked _ _ _ _) store

end Sys2Proof.Machine.MemoryModel
end

section
/-! PROOFS. FENCE, MWAIT and PREF, and the two ends of an MWAIT that waits (R234, R265, R267, R269). -/

namespace Sys2Proof.Machine.MemoryModel

/-! ## FENCE and PREF (R234, R265, R269) -/

theorem fence_does (x : Mem) : Does (.fence x) x.ctl (memNeed []) fun k b =>
    let o := ordOf x.ord
    if k.lanes = 0 then b else if o.kind = 0 then fenceAcquire (fenceRelease b k.agent 3 4) k.agent 3 4
    else if o.kind = 2 then fenceAcquire b k.agent o.scope o.storage else fenceRelease b k.agent o.scope o.storage := by
  refine does_of (fun s => show execFence x s = _ from rfl) fun k b => ?_
  dsimp only
  by_cases idle : k.lanes = 0
  · rw [if_pos (beq_iff_eq.2 idle), if_pos idle]
  · rw [if_neg (idle ∘ beq_iff_eq.1), if_neg idle]
    split
    · next plain => rw [if_pos plain]
    · next acquire => rw [acquire]; rfl
    · next not_plain not_acquire => rw [if_neg not_plain, if_neg not_acquire]

theorem pref_does (x : Mem) : Does (.pref x) x.ctl (memNeed [(x.a.toNat, 2)]) fun k b =>
    k.later ((k.eas x.a.toNat x.off.toInt).foldl (fun s e => prefLane s k x.d.toNat e.2) b) x.ctl { opens := false } :=
  does_of (fun s => show execPref x s = _ from rfl) fun _ _ => rfl

/-! ## MWAIT (R267) -/

section Mwait
variable {x : Mem} {s : State} {k : Iss} (hi : Issues s x.ctl (memNeed [(x.d.toNat, 1)]) k)
include hi

theorem mwait_idle (idle : k.lanes = 0) : Completes (.mwait x) s k (issued s k (memNeed [(x.d.toNat, 1)])) := by
  change execMwait x s = _
  unfold execMwait
  exact instr_ends hi (if_pos (beq_iff_eq.2 idle)) (by simp)

variable {a : Agent} (ha : (issued s k (memNeed [(x.d.toNat, 1)])).agent? k.agent = some a) (lanes : k.lanes ≠ 0)
include ha lanes

theorem mwait_completes {code : Nat} (now : mwaitNow a.mon = some code) :
    Completes (.mwait x) s k (mwaitEnd (issued s k (memNeed [(x.d.toNat, 1)])) k.agent x.d.toNat k.lanes code) := by
  change execMwait x s = _
  unfold execMwait
  refine instr_ends hi ((if_neg (lanes ∘ beq_iff_eq.1)).trans ?_) (by simp)
  simp only [ha, now]

theorem mwait_waits (later : mwaitNow a.mon = none) :
    EndsWith (.mwait x) s k (issued s k (memNeed [(x.d.toNat, 1)]))
      (.wait (.mwait (if x.off = 0 then none else some ((issued s k (memNeed [(x.d.toNat, 1)])).tick + x.off.toNat * 1024)) x.d.toNat k.lanes)) := by
  change execMwait x s = _
  unfold execMwait
  refine instr_ends hi ((if_neg (lanes ∘ beq_iff_eq.1)).trans ?_) (by simp)
  simp only [ha, later, beq_iff_eq, Nat.mul_assoc]

end Mwait

/-! ## MWAIT_WRITTEN and MWAIT_EXPIRE (R267) -/

/-- The end of an MWAIT that waits with a code: its result, and the end of its slot. -/
theorem mwaitDone_of_waiting {s : State} {n p : Nat} {lim : Option Nat} {d : Nat} {lanes : Word}
    (wait : (s.path? n p).bind (·.wait) = some (.mwait lim d lanes)) (code : Nat) :
    mwaitDone s n p code = endSlot ((mwaitEnd s n d lanes code).updAgent n fun x => { x with lastIssue := s.tick }) n p .nothing := by
  unfold mwaitDone
  simp only [wait]

theorem mwaitWritten_ends {s : State} {n p : Nat} {a : Agent} (ha : s.agent? n = some a) (written : a.mon.written) :
    exec (.mwaitWritten n p) s = .next (mwaitDone s n p 0) := by
  change execMwaitWritten n p s = _
  unfold execMwaitWritten event
  simp only [ha, written, if_true]

section Expire
variable {s : State} {n p : Nat} {a : Agent} {lim : Option Nat} {d : Nat} {lanes : Word} (ha : s.agent? n = some a)
  (wait : (s.path? n p).bind (·.wait) = some (.mwait lim d lanes)) (unwritten : ¬a.mon.written)
include ha wait unwritten

theorem mwaitExpire_at_limit {t : Nat} (limit : lim = some t) (passed : t ≤ s.tick) :
    exec (.mwaitExpire n p) s = .next (mwaitDone s n p 1) := by
  subst limit
  change execMwaitExpire n p s = _
  unfold execMwaitExpire event
  simp [ha, wait, unwritten, passed]

theorem mwaitExpire_when_lost (unlimited : lim = none) (lost : a.mon.lost) :
    exec (.mwaitExpire n p) s = .next (mwaitDone s n p 2) := by
  subst unlimited
  change execMwaitExpire n p s = _
  unfold execMwaitExpire event
  simp [ha, wait, unwritten, lost]

end Expire

/-- Settles O30: each instruction's meaning under each answer of its monitor, and the ends of an MWAIT that waits. -/
theorem fencesMonitorsAndPrefetch : Obligations.FencesMonitorsAndPrefetch := by
  refine ⟨fence_does, fun x s k hi => ⟨mwait_idle hi, fun a ha lanes => ⟨fun written => ?_, fun unwritten lost => ?_, fun unwritten kept absent => ?_,
    fun unwritten kept armed => ?_⟩⟩, pref_does, fun s n p a lim d lanes ha wait => ?_⟩
  · exact mwait_completes hi ha lanes (by simp [mwaitNow, written])
  · exact mwait_completes hi ha lanes (by simp [mwaitNow, unwritten, lost])
  · exact mwait_completes hi ha lanes (by simp [mwaitNow, unwritten, kept, absent])
  · exact mwait_waits hi ha lanes (by simp [mwaitNow, unwritten, kept, armed])
  · simp only [← mwaitDone_of_waiting wait]
    exact ⟨mwaitWritten_ends ha, fun unwritten _ => mwaitExpire_at_limit ha wait unwritten, mwaitExpire_when_lost ha wait⟩

end Sys2Proof.Machine.MemoryModel
end

section
/-! PROOFS. What the checks of an access leave, and its whole faults (R251, R430). -/

namespace Sys2Proof.Machine.MemoryInstructions

/-! ## The checks of an access (R251) -/

/-- The lanes of an access with what their addresses translate to. -/
def translations (s : State) (g : GangKey) (sup : Bool) (want : Want) (eas : List (Nat × Nat)) : List (Nat × Nat × Tr) :=
  eas.map fun e => (e.1, e.2, tr s (s.ctxOf g) sup want e.2)

/-- A lane that translates, with the rule's answer to it. -/
def spotOf (rule : Spot → Option Nat) (r : Nat × Nat × Tr) : Option (Spot × Option Nat) := match r.2.2 with
  | .ok sp a leaf => some ({ lane := r.1, va := r.2.1, sp := sp, addr := a, leaf := leaf }, rule { lane := r.1, va := r.2.1, sp := sp, addr := a, leaf := leaf })
  | _ => none

/-- A lane that misses. -/
def missOfLane (r : Nat × Nat × Tr) : Option (Nat × Miss) := match r.2.2 with
  | .miss m => some (r.1, m)
  | _ => none

/-- A lane without the right on its page, or that the rule refuses. -/
def refusedLane (rule : Spot → Option Nat) (r : Nat × Nat × Tr) : Bool :=
  r.2.2 == .perm || ((spotOf rule r).map fun p => p.2.isSome).getD false

section CheckLanes
variable {s : State} {g : GangKey} {sup : Bool} {want : Want} {size : Nat} {eas : List (Nat × Nat)} {rule : Spot → Option Nat}

theorem checkLanes_of_misaligned {l va : Nat} (found : eas.find? (fun e => e.2 % size ≠ 0) = some (l, va)) :
    checkLanes s g sup want size eas rule = .fault 0x03 va := by
  have odd : eas.find? (fun e => e.2 % size != 0) = some (l, va) := by
    rw [← found]
    exact congrArg eas.find? (funext fun e => Bool.eq_iff_iff.2 (by simp))
  unfold checkLanes
  dsimp only
  rw [odd]

/-- Of aligned lanes that the rule does not fault as misaligned, the lowest that is refused faults the access. -/
theorem checkLanes_of_refusedLane (aligned : eas.find? (fun e => e.2 % size != 0) = none)
    (admitted : ((translations s g sup want eas).filterMap (spotOf rule)).find? (fun p => p.2 == some 0x03) = none)
    {r : Nat × Nat × Tr} (refused : (translations s g sup want eas).find? (refusedLane rule) = some r) :
    checkLanes s g sup want size eas rule = .fault 0x11 r.2.1 := by
  unfold checkLanes
  dsimp only
  rw [aligned]
  dsimp only
  split
  · next found => exact absurd (found.symm.trans admitted) nofun
  · split
    · next found => rw [Option.some.inj (refused.symm.trans found)]
    · next found => exact absurd (found.symm.trans refused) nofun

/-- The lanes of an access that is not faulted have translated or miss, and none is refused. -/
theorem of_checkLanes_go {ts : List Spot} {miss : List (Nat × Miss)} (h : checkLanes s g sup want size eas rule = .go ts miss) :
    ts = ((translations s g sup want eas).filterMap (spotOf rule)).map (·.1) ∧ miss = (translations s g sup want eas).filterMap missOfLane
      ∧ ∀ r ∈ translations s g sup want eas, refusedLane rule r = false := by
  unfold checkLanes at h
  split at h
  · cases h
  · dsimp only at h
    split at h
    · cases h
    · split at h
      · cases h
      · next none_refused =>
        obtain ⟨rfl, rfl⟩ := Lanes.go.inj h
        exact ⟨rfl, rfl, fun r hr => Bool.eq_false_iff.2 (List.find?_eq_none.1 none_refused r hr)⟩

theorem checkLanes_of_refused {l va : Nat} (aligned : eas.all fun e => e.2 % size = 0)
    (found : eas.find? (fun e => tr s (s.ctxOf g) sup want e.2 = .perm) = some (l, va)) :
    checkLanes s g sup want size eas (fun _ => none) = .fault 0x11 va := by
  have even : eas.find? (fun e => e.2 % size != 0) = none := by simpa using aligned
  have unruled (r : Nat × Nat × Tr) (p : Spot × Option Nat) (h : spotOf (fun _ => none) r = some p) : p.2 = none := by
    unfold spotOf at h
    split at h <;> cases h
    rfl
  have admitted : ((translations s g sup want eas).filterMap (spotOf fun _ => none)).find? (fun p => p.2 == some 0x03) = none := by
    refine List.find?_eq_none.2 fun p hp => ?_
    obtain ⟨r, -, hr⟩ := List.mem_filterMap.1 hp
    simp [unruled r p hr]
  have refused : refusedLane (fun _ => none) = fun r => decide (r.2.2 = .perm) := by
    funext r
    unfold refusedLane
    cases h : spotOf (fun _ => none) r with
    | none => simp [beq_eq_decide]
    | some p => simp [unruled r p h, beq_eq_decide]
  refine checkLanes_of_refusedLane (r := (l, va, tr s (s.ctxOf g) sup want va)) even admitted ?_
  rw [refused, translations, List.find?_map]
  simp only [Function.comp_def, found, Option.map_some]

/-- A lane that is neither refused nor misses has translated, and the rule admits it. -/
theorem spotOf_of_admitted {rule : Spot → Option Nat} {r : Nat × Nat × Tr} (admitted : refusedLane rule r = false) (translated : missOfLane r = none) :
    ∃ p, spotOf rule r = some (p, none) ∧ p.lane = r.1 ∧ rule p = none := by
  obtain ⟨l, va, res⟩ := r
  cases res with
  | miss m => cases translated
  | perm => cases admitted
  | ok sp a leaf =>
    have allowed : rule { lane := l, va := va, sp := sp, addr := a, leaf := leaf } = none := Option.isNone_iff_eq_none.1 (Option.isSome_eq_false_iff.1 admitted)
    exact ⟨_, congrArg (fun o => some (_, o)) allowed, rfl, allowed⟩

/-- Where no lane misses, every lane goes on, as its address translates and the rule admits. -/
theorem of_checkLanes_all {ts : List Spot} (h : checkLanes s g sup want size eas rule = .go ts []) :
    ts.map (·.lane) = eas.map (·.1) ∧ ∀ p ∈ ts, rule p = none := by
  obtain ⟨rfl, no_miss, admitted⟩ := of_checkLanes_go h
  have spot (r) (hr : r ∈ translations s g sup want eas) := spotOf_of_admitted (admitted r hr) (List.filterMap_eq_nil_iff.1 no_miss.symm r hr)
  refine ⟨?lanes, fun p hp => ?rule⟩
  case lanes =>
    rw [List.map_map, List.map_filterMap]
    have each : ∀ r ∈ translations s g sup want eas, (spotOf rule r).map ((·.lane) ∘ (·.1)) = some r.1 := fun r hr => by
      obtain ⟨p, eq, lane, -⟩ := spot r hr
      rw [eq]
      exact congrArg some lane
    rw [List.filterMap_congr each, translations, List.filterMap_map]
    exact congrFun List.filterMap_eq_map eas
  case rule =>
    obtain ⟨q, hq, rfl⟩ := List.mem_map.1 hp
    obtain ⟨r, hr, eq⟩ := List.mem_filterMap.1 hq
    obtain ⟨p, eq', -, allowed⟩ := spot r hr
    cases eq.symm.trans eq'
    exact allowed

end CheckLanes

/-! ## An access that faults does so whole (R251, R430) -/

/-- The addresses of the lanes of L in lane order. -/
theorem eas_lanes (k : Iss) (a : Nat) (off : Int) : (k.eas a off).map (·.1) = lanesOf k.lanes := by
  rw [Iss.eas, List.map_map]
  exact List.map_id _

theorem loadBody_of_fault {x : Mem} {k : Iss} {s : State} {code info : Nat} (arm : Bool) (active : k.lanes ≠ 0)
    (fault : checkLanes s k.gang k.sup .read x.ty.bytes (k.eas x.a.toNat x.off.toInt) (loadRule x.ty fun l => (k.src.get x.c.toNat l).toNat) = .fault code info) :
    loadBody x arm k s = (s, .fault code k.lanes (BitVec.ofNat 64 info)) := by
  unfold loadBody memOff
  rw [if_neg (active ∘ beq_iff_eq.1)]
  dsimp only
  rw [fault]

theorem ld_faults {x : Mem} {s : State} {k : Iss} {code info : Nat} (issues : Issues s x.ctl (memNeed [(x.d.toNat, x.ty.nregs), (x.a.toNat, 2), (x.c.toNat, 1)]) k)
    (active : k.lanes ≠ 0)
    (fault : checkLanes (issued s k (memNeed [(x.d.toNat, x.ty.nregs), (x.a.toNat, 2), (x.c.toNat, 1)])) k.gang k.sup .read x.ty.bytes
      (k.eas x.a.toNat x.off.toInt) (loadRule x.ty fun l => (k.src.get x.c.toNat l).toNat) = .fault code info) :
    EndsWith (.ld x) s k (issued s k (memNeed [(x.d.toNat, x.ty.nregs), (x.a.toNat, 2), (x.c.toNat, 1)])) (.fault code k.lanes (BitVec.ofNat 64 info)) := by
  change execLd x s = _
  exact instr_ends issues (loadBody_of_fault false active fault) nofun

theorem st_faults {x : Mem} {s : State} {k : Iss} {code info : Nat} (issues : Issues s x.ctl (memNeed [(x.a.toNat, 2), (x.b.toNat, x.ty.nregs)]) k)
    (active : k.lanes ≠ 0)
    (fault : checkLanes (issued s k (memNeed [(x.a.toNat, 2), (x.b.toNat, x.ty.nregs)])) k.gang k.sup .write x.ty.bytes
      (k.eas x.a.toNat x.off.toInt) (storeRule x.ty) = .fault code info) :
    EndsWith (.st x) s k (issued s k (memNeed [(x.a.toNat, 2), (x.b.toNat, x.ty.nregs)])) (.fault code k.lanes (BitVec.ofNat 64 info)) := by
  change execSt x s = _
  unfold execSt memOff
  refine instr_ends issues ((if_neg (active ∘ beq_iff_eq.1)).trans ?_) nofun
  rw [fault]

/-- Settles O26: the checks fault the whole instruction with the lowest lane's address, and the faulted instruction leaves the state as it was issued. -/
theorem misalignedOrForbiddenAccessFaults : Obligations.MisalignedOrForbiddenAccessFaults :=
  ⟨fun _ _ _ issues _ _ active fault => ld_faults issues active fault, fun _ _ _ issues _ _ active fault => st_faults issues active fault,
    fun _ _ _ _ _ _ _ _ _ found => checkLanes_of_misaligned found, fun _ _ _ _ _ _ _ _ aligned found => checkLanes_of_refused aligned found⟩

end Sys2Proof.Machine.MemoryInstructions
end

section
/-! PROOFS. Messages of the neighbour links: sent, landed and received (R33, R275, R277). -/

namespace Sys2Proof.Machine.MemoryInstructions

open NumberFormats MemoryModel

/-! ## A result left outstanding -/

theorem updAgent_id (s : State) (n : Nat) : s.updAgent n (fun x => x) = s := by
  have same : updWhere (fun x : Agent => x.num == n && !x.ended) (fun x => x) s.agents = s.agents :=
    (List.map_congr_left fun _ _ => ite_self _).trans (List.map_id _)
  unfold State.updAgent
  rw [same]

/-- A result left outstanding is one in the list, and may be counted; nothing else changes. -/
theorem later_eq (k : Iss) (s : State) (g : Ctl) (r : Result) : ∃ pend nextId, ∃ d : List Nat → List Nat,
    k.later s g r = { s with pend := pend, nextId := nextId }.updAgent k.agent fun x => { x with d := d x.d } := by
  have uncounted (t : State) : t = t.updAgent k.agent fun x => { x with d := id x.d } := (updAgent_id t k.agent).symm
  unfold Iss.later
  split
  · exact ⟨s.pend, s.nextId, id, uncounted s⟩
  · dsimp only
    split
    · exact ⟨_, _, id, uncounted _⟩
    · exact ⟨_, _, fun d => bumpCounter d g.cnt.toNat true, rfl⟩

theorem later_unwritten (k : Iss) (s : State) (g : Ctl) (r : Result) : Unwritten s (k.later s g r) := by
  obtain ⟨pend, nextId, d, eq⟩ := later_eq k s g r
  have listed : Unwritten s { s with pend := pend, nextId := nextId } := ⟨sameMemory_of, regsOf_agents rfl, fun _ _ => rfl, rfl⟩
  rw [eq]
  refine listed.trans (updAgent_unwritten _ k.agent ?_ ?_)
  · exact fun _ => ⟨rfl, rfl⟩
  · exact fun _ => rfl

theorem links_later (k : Iss) (s : State) (g : Ctl) (r : Result) : (k.later s g r).links = s.links := by
  obtain ⟨pend, nextId, d, eq⟩ := later_eq k s g r
  rw [eq]
  rfl

/-! ## The gang of an agent -/

/-- The gang of an agent that has not ended. -/
def gangOf (s : State) (n : Nat) : Option GangKey := (s.agent? n).map (·.gang)

theorem gangOf_map (s : State) (n : Nat) {f : Agent → Agent} (name : KeepsName f) (gang : ∀ x, (f x).gang = x.gang) :
    gangOf { s with agents := s.agents.map f } n = gangOf s n := by
  unfold gangOf
  rw [agent?_map s n f name, Option.map_map]
  exact congrArg (Option.map · _) (funext gang)

theorem gangOf_updAgent (s : State) (m n : Nat) {f : Agent → Agent} (name : KeepsName f) (gang : ∀ x, (f x).gang = x.gang) :
    gangOf (s.updAgent m f) n = gangOf s n :=
  gangOf_map s n (fun x => by split <;> simp [name x]) fun x => by split <;> simp [gang x]

theorem gangOf_later (k : Iss) (s : State) (g : Ctl) (r : Result) (n : Nat) : gangOf (k.later s g r) n = gangOf s n := by
  obtain ⟨pend, nextId, d, eq⟩ := later_eq k s g r
  rw [eq]
  exact gangOf_updAgent _ k.agent n (fun _ => ⟨rfl, rfl⟩) fun _ => rfl

theorem gangOf_noteWrite (s : State) (sp : Sp) (a len n : Nat) : gangOf (noteWrite s sp a len) n = gangOf s n :=
  gangOf_map s n (fun _ => ⟨rfl, rfl⟩) fun _ => rfl

theorem gangOf_noteRing (s : State) (len n : Nat) : gangOf (noteRing s len) n = gangOf s n := by
  unfold noteRing
  dsimp only
  split
  · exact gangOf_noteWrite ..
  · exact (gangOf_noteWrite ..).trans (gangOf_noteWrite ..)

theorem gangOf_emit (s : State) (bs : List Byte) (n : Nat) : gangOf (emit s bs).2 n = gangOf s n := by
  unfold emit
  split
  · exact gangOf_noteRing _ _ n
  · rfl

theorem gangOf_packet (s : State) (x : Agent) (bs : List Byte) (isSync : Bool) (n : Nat) : gangOf (packet s x bs isSync) n = gangOf s n := by
  unfold packet
  refine (gangOf_updAgent _ x.num n (fun _ => ?_) fun _ => ?_).trans (gangOf_emit s bs n)
  · split <;> exact ⟨rfl, rfl⟩
  · split <;> rfl

theorem gangOf_traceSync (s : State) (m p : Nat) (ps : List Path) (n : Nat) : gangOf (traceSync s m p ps) n = gangOf s n := by
  unfold traceSync
  split
  · split
    · exact gangOf_packet ..
    · rfl
  · rfl

theorem gangOf_traceFirst (s : State) (k : Iss) (n : Nat) : gangOf (traceFirst s k) n = gangOf s n := by
  unfold traceFirst
  split
  · split
    · exact gangOf_traceSync ..
    · rfl
  · rfl

theorem gangOf_issued (s : State) (k : Iss) (nd : Need) (n : Nat) : gangOf (issued s k nd) n = gangOf s n := by
  have noted : gangOf (noteIssue s k) n = gangOf (if k.replay then s else countWindows s k.agent k.path) n :=
    (gangOf_traceFirst ..).trans (gangOf_updAgent _ k.agent n (fun _ => ⟨rfl, rfl⟩) fun _ => rfl)
  refine noted.trans ?_
  split <;> rfl

/-- The issuing agent is of the gang that the issue names. -/
theorem gangOf_issuer {s : State} {g : Ctl} {nd : Need} {k : Iss} (issues : Issues s g nd k) : gangOf (issued s k nd) k.agent = some k.gang := by
  obtain ⟨x, iss, -, -⟩ := issues
  have gang : x.gang = k.gang := by
    unfold issOf at iss
    split at iss
    · cases iss
    · split at iss <;> cases iss
      rfl
  rw [gangOf_issued, gangOf, issOf_agent iss, ← gang]
  rfl

/-! ## LNKS (R277) -/

/-- The message that LNKS sends: one word per lane, zero outside L. -/
def messageOf (x : Eng) (k : Iss) (b : State) (dest : GangKey) : LinkMsg where
  id := b.nextId
  gang := dest
  dir := opposite (fieldOf x.imm 1 0)
  ch := fieldOf x.imm 5 2
  words := (List.range 32).map fun l => if k.lanes.getLsbD l then k.src.get x.a.toNat l else 0

/-- A message under way to its neighbour. -/
def sendMessage (x : Eng) (k : Iss) (b : State) (dest : GangKey) : State :=
  { b with links := b.links ++ [messageOf x k b dest], nextId := b.nextId + 1 }

/-- The messages of LNKS's channel that wait with the neighbour. -/
def buffered (x : Eng) (b : State) (dest : GangKey) : Nat :=
  (b.links.filter fun m => m.gang == dest && m.dir == opposite (fieldOf x.imm 1 0) && m.ch == fieldOf x.imm 5 2).length

section Lnks
variable {x : Eng} {s : State} {k : Iss} (issues : Issues s x.ctl (linkNeed [(x.a.toNat, 1)]) k)
include issues

theorem lnks_faults (alone : (((issued s k (linkNeed [(x.a.toNat, 1)])).gang? k.gang).bind fun g => neighbour g (fieldOf x.imm 1 0)) = none) :
    EndsWith (.lnks x) s k (issued s k (linkNeed [(x.a.toNat, 1)])) (.fault 0x04 k.lanes 0) := by
  change execLnks x s = _
  unfold execLnks
  refine instr_ends issues ?_ nofun
  dsimp only
  rw [alone]

variable {dest : GangKey} (next : (((issued s k (linkNeed [(x.a.toNat, 1)])).gang? k.gang).bind fun g => neighbour g (fieldOf x.imm 1 0)) = some dest)
include next

theorem lnks_holds (full : 4 ≤ buffered x (issued s k (linkNeed [(x.a.toNat, 1)])) dest) : exec (.lnks x) s = .next { unissue s k with cur := none } := by
  change execLnks x s = _
  unfold execLnks
  refine instr_holds (t := issued s k (linkNeed [(x.a.toNat, 1)])) issues ?_
  dsimp only
  rw [next]
  exact if_pos full

theorem lnks_completes (room : ¬4 ≤ buffered x (issued s k (linkNeed [(x.a.toNat, 1)])) dest) :
    let sent := sendMessage x k (issued s k (linkNeed [(x.a.toNat, 1)])) dest
    Completes (.lnks x) s k (if x.ctl.cnt == 0 then sent
      else k.later sent x.ctl { hold := .linkSent (messageOf x k (issued s k (linkNeed [(x.a.toNat, 1)])) dest).id, opens := false }) := by
  change execLnks x s = _
  unfold execLnks
  refine instr_ends issues ?_ nofun
  dsimp only
  rw [next]
  exact if_neg room

end Lnks

theorem sendMessage_unwritten (x : Eng) (k : Iss) (b : State) (dest : GangKey) : Unwritten b (sendMessage x k b dest) :=
  ⟨sameMemory_of, regsOf_agents rfl, fun _ _ => rfl, rfl⟩

/-- With or without a counter, LNKS's own effect is the message sent. -/
theorem sent_frame (x : Eng) (k : Iss) (b : State) (dest : GangKey) (r : Result) :
    let t := if x.ctl.cnt == 0 then sendMessage x k b dest else k.later (sendMessage x k b dest) x.ctl r
    t.links = b.links ++ [messageOf x k b dest] ∧ SameRegs b t ∧ SameMemory b t := by
  dsimp only
  have sent := sendMessage_unwritten x k b dest
  split
  · exact ⟨rfl, sent.regs, sent.mem⟩
  · have counted := sent.trans (later_unwritten k _ x.ctl r)
    exact ⟨links_later .., counted.regs, counted.mem⟩

/-! ## LNKR (R277) -/

/-- A result that waits for a message of a channel of a gang. -/
def awaits (s : State) (g : GangKey) (dir ch : Nat) (q : Pend) : Bool := match q.hold with
  | .link d c _ _ => d == dir && c == ch && ((s.agent? q.agent).map fun x => x.gang == g).getD false
  | _ => false

/-- A message given to the result that waits for it. -/
def giveMessage (m : LinkMsg) (id : Nat) (p : Pend) : Pend := if p.id != id then p else match p.hold with
  | .link _ _ d lanes => { p with hold := .none, writes := laneWrites d (fun l => m.words.getD l 0) (lanesOf lanes) }
  | _ => p

theorem serveLink_of_none {s : State} {g : GangKey} {dir ch : Nat}
    (h : ∀ m, s.links.find? (fun m => m.gang == g && m.dir == dir && m.ch == ch) = some m → m.landed = false) : serveLink s g dir ch = s := by
  unfold serveLink
  dsimp only
  split
  · next found _ =>
    rw [h _ found]
    rfl
  · rfl

theorem serveLink_of_landed {s : State} {g : GangKey} {dir ch : Nat} {m : LinkMsg} {q : Pend}
    (oldest : s.links.find? (fun m => m.gang == g && m.dir == dir && m.ch == ch) = some m) (landed : m.landed)
    (waiter : s.pend.find? (awaits s g dir ch) = some q) :
    serveLink s g dir ch = { s with links := s.links.filter fun y => y.id != m.id, pend := s.pend.map (giveMessage m q.id) } := by
  unfold serveLink
  dsimp only
  split
  · next found served =>
    cases oldest.symm.trans found
    cases waiter.symm.trans served
    rw [landed]
    rfl
  · next unserved => exact absurd waiter (unserved m q oldest)

/-- A result that waits for a message of LNKR's channel is outstanding. -/
def expectMessage (x : Eng) (k : Iss) (b : State) : State :=
  k.later b x.ctl { hold := .link (fieldOf x.imm 1 0) (fieldOf x.imm 5 2) x.d.toNat k.lanes }

section Lnkr
variable {x : Eng} {s : State} {k : Iss} (issues : Issues s x.ctl (linkNeed [(x.d.toNat, 1)]) k)
include issues

theorem lnkr_faults (alone : (((issued s k (linkNeed [(x.d.toNat, 1)])).gang? k.gang).bind fun g => neighbour g (fieldOf x.imm 1 0)) = none) :
    EndsWith (.lnkr x) s k (issued s k (linkNeed [(x.d.toNat, 1)])) (.fault 0x04 k.lanes 0) := by
  change execLnkr x s = _
  unfold execLnkr
  refine instr_ends issues ?_ nofun
  dsimp only
  rw [alone]

theorem lnkr_completes (next : (((issued s k (linkNeed [(x.d.toNat, 1)])).gang? k.gang).bind fun g => neighbour g (fieldOf x.imm 1 0)) ≠ none) :
    Completes (.lnkr x) s k 
      (serveLink (expectMessage x k (issued s k (linkNeed [(x.d.toNat, 1)]))) k.gang (fieldOf x.imm 1 0) (fieldOf x.imm 5 2)) := by
  obtain ⟨dest, found⟩ := Option.ne_none_iff_exists'.1 next
  change execLnkr x s = _
  unfold execLnkr
  refine instr_ends issues ?_ nofun
  dsimp only
  rw [found]
  rfl

end Lnkr

/-- The result that waits for a message is the newest outstanding, and the first to wait where none did. -/
theorem awaits_expectMessage (x : Eng) {b : State} {k : Iss} (idle : ∀ p ∈ b.pend, ∀ d c r m, p.hold ≠ .link d c r m) (own : gangOf b k.agent = some k.gang) :
    let u := expectMessage x k b
    ∃ p, u.pend.getLast? = some p ∧ OfIssue k x.ctl p ∧ p.hold = .link (fieldOf x.imm 1 0) (fieldOf x.imm 5 2) x.d.toNat k.lanes
      ∧ u.pend.find? (awaits u k.gang (fieldOf x.imm 1 0) (fieldOf x.imm 5 2)) = some p := by
  intro u
  obtain ⟨p, outstanding, ofIssue, -, -, -, -, hold, -⟩ := later_pend k b x.ctl { hold := .link (fieldOf x.imm 1 0) (fieldOf x.imm 5 2) x.d.toNat k.lanes } rfl
  have pend : u.pend = b.pend ++ [p] := (outstanding_frame outstanding).2.2
  have unmoved : gangOf u k.agent = some k.gang := (gangOf_later ..).trans own
  refine ⟨p, by rw [pend, List.getLast?_concat], ofIssue, hold, ?_⟩
  have earlier : b.pend.find? (awaits u k.gang (fieldOf x.imm 1 0) (fieldOf x.imm 5 2)) = none := by
    refine List.find?_eq_none.2 fun q hq => ?_
    unfold awaits
    split
    · next held => exact absurd held (idle q hq _ _ _ _)
    · exact Bool.false_ne_true
  have first : awaits u k.gang (fieldOf x.imm 1 0) (fieldOf x.imm 5 2) p = true := by
    obtain ⟨y, hy, gang⟩ := Option.map_eq_some_iff.1 unmoved
    simp [awaits, hold, ofIssue.1, hy, gang]
  rw [pend, List.find?_append, earlier, Option.none_or, List.find?_singleton, first]
  rfl

theorem serveLink_frame (s : State) (g : GangKey) (dir ch : Nat) : SameRegs s (serveLink s g dir ch) ∧ SameMemory s (serveLink s g dir ch) := by
  unfold serveLink
  dsimp only
  split
  · split
    · exact ⟨fun _ => rfl, fun _ _ => rfl⟩
    · exact ⟨regsOf_agents rfl, sameMemory_of⟩
  · exact ⟨fun _ => rfl, fun _ _ => rfl⟩

/-- The result that waits takes the words of a message that has landed. -/
theorem leaves_serveLink {u : State} {k : Iss} {g : Ctl} {dir ch d : Nat} {m : LinkMsg} {p : Pend}
    (oldest : u.links.find? (fun m => m.gang == k.gang && m.dir == dir && m.ch == ch) = some m) (landed : m.landed)
    (last : u.pend.getLast? = some p) (ofIssue : OfIssue k g p) (hold : p.hold = .link dir ch d k.lanes) (waiter : u.pend.find? (awaits u k.gang dir ch) = some p) :
    Leaves (serveLink u k.gang dir ch) k g (laneWrites d (fun l => m.words.getD l 0) (lanesOf k.lanes))
      ∧ (serveLink u k.gang dir ch).links = u.links.filter fun y => y.id != m.id := by
  have given : giveMessage m p.id p = { p with hold := .none, writes := laneWrites d (fun l => m.words.getD l 0) (lanesOf k.lanes) } := by
    simp [giveMessage, hold]
  rw [serveLink_of_landed oldest landed waiter]
  refine ⟨⟨giveMessage m p.id p, ?_, ?_, ?_⟩, rfl⟩
  · rw [List.getLast?_map, last]
    rfl
  · rw [given]
    exact ofIssue
  · rw [given]

/-! ## LINK_MESSAGE_LAND (R275, R277) -/

/-- The oldest message of its channel that has not landed lands, where no counter waits for it. -/
theorem landLink_of_oldest {s : State} {m : LinkMsg} (found : s.links.find? (fun y => y.id == m.id) = some m)
    (oldest : s.links.find? (fun y => y.gang == m.gang && y.dir == m.dir && y.ch == m.ch && !y.landed) = some m) (uncounted : ∀ p ∈ s.pend, p.hold ≠ .linkSent m.id) :
    landLink s m.id = serveLink { s with links := updWhere (fun y => y.id == m.id) (fun y => { y with landed := true }) s.links } m.gang m.dir m.ch := by
  have waiting : (s.pend.find? fun q => q.hold == .linkSent m.id) = none := List.find?_eq_none.2 fun p hp => by simp [uncounted p hp]
  have kept : (s.pend.filter fun q => q.hold != .linkSent m.id) = s.pend := List.filter_eq_self.2 fun p hp => by simp [uncounted p hp]
  unfold landLink
  simp only [found, oldest, waiting, kept, bne_self_eq_false, Bool.false_eq_true, if_false]

/-- Settles O32: LNKS appends its message where the channel has room, LNKR's result takes the first message that has landed, and a landing serves its channel. -/
theorem linkMessagesArriveInOrder : Obligations.LinkMessagesArriveInOrder := by
  refine ⟨fun x s k issues => ⟨lnks_faults issues, fun dest next => ⟨lnks_holds issues next, fun room => ?sent⟩⟩,
    fun x s k issues => ⟨lnkr_faults issues, fun next idle => ?received⟩, fun s m found oldest uncounted => congrArg _ (landLink_of_oldest found oldest uncounted)⟩
  case sent =>
    let b := issued s k (linkNeed [(x.a.toNat, 1)])
    obtain ⟨links, regs, mem⟩ := sent_frame x k b dest { hold := .linkSent (messageOf x k b dest).id, opens := false }
    exact ⟨_, _, lnks_completes issues next room, links, rfl, rfl, rfl, rfl, rfl, regs, mem⟩
  case received =>
    let b := issued s k (linkNeed [(x.d.toNat, 1)])
    obtain ⟨p, last, ofIssue, hold, waiter⟩ := awaits_expectMessage x idle (gangOf_issuer issues)
    have noted : Unwritten b (expectMessage x k b) := later_unwritten ..
    have links : (expectMessage x k b).links = b.links := links_later ..
    obtain ⟨regs, mem⟩ := serveLink_frame (expectMessage x k b) k.gang (fieldOf x.imm 1 0) (fieldOf x.imm 5 2)
    refine ⟨_, lnkr_completes issues next, fun n => (regs n).trans (noted.regs n), fun sp a => (mem sp a).trans (noted.mem sp a), fun m oldest landed => ?_, fun none_landed => ?_⟩
    · rw [← links] at oldest ⊢
      exact leaves_serveLink oldest landed last ofIssue hold waiter
    · rw [serveLink_of_none]
      · exact ⟨links, p, last, ofIssue, hold⟩
      · rw [links]
        rintro m found
        obtain absent | ⟨m', found', unlanded⟩ := none_landed
        · exact absurd (found.symm.trans absent) nofun
        · rwa [Option.some.inj (found.symm.trans found')]

end Sys2Proof.Machine.MemoryInstructions
end

section
/-! PROOFS. What a load leaves of memory, registers and monitors (R228, R249, R253, R266). -/

namespace Sys2Proof.Machine.MemoryInstructions

open NumberFormats MemoryModel UnitQueries

/-! ## What agents note beside their registers and monitors -/

/-- A change of an agent that keeps its name, its registers and its monitor. -/
structure Notes (f : Agent → Agent) : Prop where
  name : KeepsName f
  regs : ∀ x, (f x).regs = x.regs
  mon : ∀ x, (f x).mon = x.mon

/-- Agents have noted something; nothing beside them has changed. -/
def AgentsNoted (s t : State) : Prop := ∃ f, Notes f ∧ t = { s with agents := s.agents.map f }

theorem AgentsNoted.refl (s : State) : AgentsNoted s s := ⟨id, ⟨fun _ => ⟨rfl, rfl⟩, fun _ => rfl, fun _ => rfl⟩, by rw [List.map_id]⟩

theorem AgentsNoted.trans {s t u : State} (h : AgentsNoted s t) (h' : AgentsNoted t u) : AgentsNoted s u := by
  obtain ⟨f, notes, rfl⟩ := h
  obtain ⟨f', notes', rfl⟩ := h'
  refine ⟨f' ∘ f, ⟨fun x => ?_, fun x => (notes'.regs _).trans (notes.regs x), fun x => (notes'.mon _).trans (notes.mon x)⟩, by rw [List.map_map]⟩
  exact ⟨(notes'.name _).1.trans (notes.name x).1, (notes'.name _).2.trans (notes.name x).2⟩

theorem updAgent_noted (s : State) (n : Nat) {f : Agent → Agent} (notes : Notes f) : AgentsNoted s (s.updAgent n f) := by
  refine ⟨fun x => if x.num == n && !x.ended then f x else x, ⟨fun x => ?_, fun x => ?_, fun x => ?_⟩, rfl⟩
  · split
    · exact notes.name x
    · exact ⟨rfl, rfl⟩
  · split
    · exact notes.regs x
    · rfl
  · split
    · exact notes.mon x
    · rfl

theorem see_noted (s : State) (n : Nat) (sp : Sp) (a len ts : Nat) : AgentsNoted s (s.see n sp a len ts) := by
  unfold State.see
  split
  · exact updAgent_noted s n ⟨fun _ => ⟨rfl, rfl⟩, fun _ => rfl, fun _ => rfl⟩
  · exact .refl s

theorem seeParts_noted (s : State) (n : Nat) (ps : List ((Sp × Nat × Nat) × Nat)) : AgentsNoted s (s.seeParts n ps) :=
  List.foldlRecOn ps _ (.refl s) fun t h _ _ => h.trans (see_noted t n _ _ _ _)

theorem syncWith_noted (s : State) (r : Release) (y scope storage : Nat) : AgentsNoted s (syncWith s r y scope storage) := by
  unfold syncWith
  split
  · exact updAgent_noted s y ⟨fun _ => ⟨rfl, rfl⟩, fun _ => rfl, fun _ => rfl⟩
  · exact .refl s

theorem syncAll_noted (s : State) (rs : List Release) (y scope storage : Nat) : AgentsNoted s (syncAll s rs y scope storage) :=
  List.foldlRecOn rs _ (.refl s) fun t h r _ => h.trans (syncWith_noted t r y scope storage)

/-- Whatever its ordering, a load only notes what it has observed. -/
theorem observe_noted (s : State) (n : Nat) (seen : List ((Sp × Nat × Nat) × Nat)) (kind scope storage : Nat) :
    AgentsNoted s (observe s n seen kind scope storage) := by
  have noted (f : Agent → Agent) (notes : Notes f) : AgentsNoted s ((s.updAgent n f).seeParts n seen) :=
    (updAgent_noted s n notes).trans (seeParts_noted ..)
  have own := noted (fun x => { x with clock := if kind == 1 then x.clock else max x.clock (newestSeen seen + 1), lastRel := releasesRead s seen })
    ⟨fun _ => ⟨rfl, rfl⟩, fun _ => rfl, fun _ => rfl⟩
  unfold observe
  dsimp only
  split
  · exact own.trans (syncAll_noted ..)
  · exact own.trans (syncAll_noted ..)
  · exact own

/-! ## What only reads -/

/-- No byte, register or monitor has changed, and no relaxed store has gone. -/
structure OnlyRead (s t : State) : Prop where
  mem : SameMemory s t
  regs : SameRegs s t
  relaxed : t.relaxed = s.relaxed
  mons : t.agents.map (·.mon) = s.agents.map (·.mon)

theorem OnlyRead.refl (s : State) : OnlyRead s s := ⟨fun _ _ => rfl, fun _ => rfl, rfl, rfl⟩

theorem OnlyRead.trans {s t u : State} (h : OnlyRead s t) (h' : OnlyRead t u) : OnlyRead s u where
  mem sp a := (h'.mem sp a).trans (h.mem sp a)
  regs n := (h'.regs n).trans (h.regs n)
  relaxed := h'.relaxed.trans h.relaxed
  mons := h'.mons.trans h.mons

theorem AgentsNoted.onlyRead {s t : State} (h : AgentsNoted s t) : OnlyRead s t := by
  obtain ⟨f, notes, rfl⟩ := h
  exact ⟨sameMemory_of, fun m => regsOf_map s m f notes.name notes.regs, rfl, (List.map_map ..).trans (List.map_congr_left fun x _ => notes.mon x)⟩

/-- An update beside memory, agents and the relaxed stores under way. -/
theorem onlyRead_of {s t : State} (mem : SameMemory s t := by exact sameMemory_of) (agents : t.agents = s.agents := by rfl)
    (relaxed : t.relaxed = s.relaxed := by rfl) : OnlyRead s t := ⟨mem, regsOf_agents agents, relaxed, congrArg _ agents⟩

theorem updPath_onlyRead (s : State) (n p : Nat) (f : Path → Path) : OnlyRead s (s.updPath n p f) := by
  refine (updAgent_noted s n ?_).onlyRead
  exact ⟨fun _ => ⟨rfl, rfl⟩, fun _ => rfl, fun _ => rfl⟩

theorem later_onlyRead (k : Iss) (s : State) (g : Ctl) (r : Result) : OnlyRead s (k.later s g r) := by
  obtain ⟨pend, nextId, d, eq⟩ := later_eq k s g r
  have listed : OnlyRead s { s with pend := pend, nextId := nextId } := onlyRead_of
  rw [eq]
  refine listed.trans (updAgent_noted _ k.agent ?_).onlyRead
  exact ⟨fun _ => ⟨rfl, rfl⟩, fun _ => rfl, fun _ => rfl⟩

/-! ## The translations that lanes used (R392) -/

theorem touch_eq (s : State) (c : Ctx) (va : Nat) : ∃ tlb, touch s c va = { s with tlb := tlb } := by
  unfold touch keepXlate
  split
  · dsimp only
    split <;> exact ⟨_, rfl⟩
  · exact ⟨_, rfl⟩

theorem touchAll_eq (s : State) (g : GangKey) (vas : List Nat) : ∃ tlb, touchAll s g vas = { s with tlb := tlb } :=
  List.foldlRecOn (motive := fun t => ∃ tlb, t = ({ s with tlb := tlb } : State)) _ _ ⟨s.tlb, rfl⟩ fun t before p _ => by
    obtain ⟨_, rfl⟩ := before
    exact touch_eq _ _ (p * 4096)

theorem touchAll_onlyRead (s : State) (g : GangKey) (vas : List Nat) : OnlyRead s (touchAll s g vas) := by
  obtain ⟨tlb, eq⟩ := touchAll_eq s g vas
  rw [eq]
  exact onlyRead_of

/-! ## The lanes of a load (R253) -/

/-- With no relaxed store under way, a load of any ordering only reads. -/
theorem loadOrd_onlyRead {s : State} (n : Nat) (sp : Sp) (a len kind scope storage : Nat) (drained : s.relaxed = []) :
    OnlyRead s (loadOrd s n sp a len kind scope storage).2 := by
  have fetched : OnlyRead s (fetchParts s n (unitParts sp a len) (kind == 1)).2.2 := by
    obtain ⟨_, _, _, _, _, eq⟩ := (fetchParts_renewed s n (unitParts sp a len) (kind == 1)).only
    rw [eq]
    exact onlyRead_of
  unfold loadOrd loadParts
  simp only [List.foldl_cons, List.foldl_nil, drainOverlap, drainWhere_of_none drained, List.flatMap_cons, List.flatMap_nil, List.append_nil]
  exact (fetched.trans (observe_noted ..).onlyRead).trans onlyRead_of

theorem loadLane_onlyRead {s : State} (n : Nat) (ty : Ty) (e : Nat → Nat) (o : OrdB) {t : Spot} (drained : s.relaxed = []) (plain : t.leaf.rk = false) :
    OnlyRead s (loadLane s n ty e o t).2 := by
  have loaded := loadOrd_onlyRead n t.sp (t.addr + (loadSpan ty e t).1) (loadSpan ty e t).2 o.kind o.scope o.storage drained
  unfold loadLane
  simp only [plain, Bool.false_eq_true, if_false]
  split
  · exact loaded
  · split <;> exact loaded

theorem loadLanes_onlyRead {s : State} (k : Iss) (ty : Ty) (e : Nat → Nat) (o : OrdB) {ts : List Spot} (drained : s.relaxed = [])
    (plain : ∀ t ∈ ts, t.leaf.rk = false) : OnlyRead s (loadLanes s k ty e o ts).2.2 :=
  List.foldlRecOn (motive := fun acc : List Got × List (Nat × Bool) × State => OnlyRead s acc.2.2) ts _ (.refl s) fun acc read t ht => by
    simp only [rkSpot, plain t ht, Bool.false_eq_true, if_false]
    exact read.trans (loadLane_onlyRead _ _ _ _ (read.relaxed.trans drained) (plain t ht))

theorem lane_loadLane (s : State) (n : Nat) (ty : Ty) (e : Nat → Nat) (o : OrdB) (t : Spot) : (loadLane s n ty e o t).1.lane = t.lane := by
  unfold loadLane
  dsimp only
  generalize (if t.leaf.rk then _ else s : State) = u
  split
  · rfl
  · split <;> rfl

/-- Lanes each of which gives a value, or is added to those that wait: where none waits, each has given its value. -/
theorem foldl_lanes {F : List Got × List (Nat × Bool) × State → Spot → List Got × List (Nat × Bool) × State}
    (step : ∀ acc t, (F acc t).2.1 = [] → acc.2.1 = [] ∧ (F acc t).1.map (·.lane) = acc.1.map (·.lane) ++ [t.lane]) (ts : List Spot)
    (acc : List Got × List (Nat × Bool) × State) (present : (ts.foldl F acc).2.1 = []) :
    acc.2.1 = [] ∧ (ts.foldl F acc).1.map (·.lane) = acc.1.map (·.lane) ++ ts.map (·.lane) := by
  induction ts generalizing acc with
  | nil => exact ⟨present, (List.append_nil _).symm⟩
  | cons t ts ih =>
    obtain ⟨none_waits, lanes⟩ := ih (F acc t) present
    obtain ⟨before, lane⟩ := step acc t none_waits
    refine ⟨before, lanes.trans ?_⟩
    rw [lane, List.append_assoc]
    rfl

theorem lanes_loadLanes {s : State} {k : Iss} {ty : Ty} {e : Nat → Nat} {o : OrdB} {ts : List Spot} (present : (loadLanes s k ty e o ts).2.1 = []) :
    (loadLanes s k ty e o ts).1.map (·.lane) = ts.map (·.lane) := by
  refine (foldl_lanes (fun acc t none_waits => ?_) ts _ present).2
  revert none_waits
  dsimp only
  split
  · exact fun waits => absurd waits (List.append_ne_nil_of_right_ne_nil _ (List.cons_ne_nil _ _))
  · exact fun before => ⟨before, List.map_append ..⟩
  · exact fun before => ⟨before, (List.map_append ..).trans (by rw [List.map_singleton, lane_loadLane])⟩

end Sys2Proof.Machine.MemoryInstructions
end

section
/-! PROOFS. LD and MARM, and the monitor that MARM arms (R253, R254, R266). -/

namespace Sys2Proof.Machine.MemoryInstructions

open NumberFormats MemoryModel UnitQueries

theorem leaves_of_pend {t u : State} {k : Iss} {g : Ctl} {ws : List (Nat × Word)} (h : Leaves u k g ws) (pend : t.pend = u.pend) : Leaves t k g ws := by
  unfold Leaves
  rw [pend]
  exact h

/-! ## Monitors (R266) -/

/-- The monitor that MARM arms on the line of its lowest lane, where that lane has its value. -/
def armLowest (arm : Bool) (k : Iss) (low : Option Nat) (ts : List Spot) (gs : List Got) (s : State) : State :=
  match if arm then ts.find? fun t => some t.lane == low else none, gs.find? fun g => some g.lane == low with
  | some t, some g => armMonitor s k t g.wts
  | _, _ => s

theorem armMonitor_eq (s : State) (k : Iss) (t : Spot) (wts : Nat) : ∃ m, armMonitor s k t wts = s.updAgent k.agent fun x => { x with mon := m } := by
  unfold armMonitor
  dsimp only
  generalize (_ && decide (List.length _ < 512)) = room
  cases room <;> exact ⟨_, rfl⟩

theorem armLowest_frame (arm : Bool) (k : Iss) (low : Option Nat) (ts : List Spot) (gs : List Got) (s : State) :
    (armLowest arm k low ts gs s).pend = s.pend ∧ Unwritten s (armLowest arm k low ts gs s) := by
  unfold armLowest
  split
  · next t g _ _ =>
    obtain ⟨m, eq⟩ := armMonitor_eq s k t g.wts
    rw [eq]
    exact ⟨rfl, updAgent_unwritten s k.agent (fun _ => ⟨rfl, rfl⟩) fun _ => rfl⟩
  · exact ⟨rfl, .refl s⟩

/-- With no monitor armed in the slice, a monitor on a line of local memory is. -/
theorem armMonitor_armed {s : State} {k : Iss} {p : Spot} {y : Agent} (wts : Nat) (hy : s.agent? k.agent = some y) (free : ∀ a ∈ s.agents, a.mon.armed = none)
    (space : p.sp = .loc) : ∃ z, (armMonitor s k p wts).agent? k.agent = some z ∧ z.mon.armed = some (.loc, p.addr / 128) := by
  unfold armMonitor
  rw [space]
  dsimp only
  rw [List.filter_eq_nil_iff.2 fun a ha => ?taken]
  case taken => simp [free a ha]
  rw [agent?_updAgent_same, hy]
  · exact ⟨_, rfl, rfl⟩
  · exact fun _ => ⟨rfl, rfl⟩

/-! ## The body of LD and MARM (R253, R266) -/

theorem exec_load (x : Mem) (arm : Bool) (s : State) : exec (if arm then .marm x else .ld x) s
    = instr s x.ctl (memNeed ([(x.d.toNat, x.ty.nregs), (x.a.toNat, 2)] ++ if arm then [] else [(x.c.toNat, 1)])) (loadBody x arm) := by
  cases arm <;> rfl

theorem loadBody_of_idle {x : Mem} {arm : Bool} {k : Iss} {s : State} (idle : k.lanes = 0) : loadBody x arm k s = (s, .done) := if_pos (beq_iff_eq.2 idle)

/-- The lanes of a load, each from its translated address. -/
def lanesLoaded (x : Mem) (k : Iss) (b : State) (ts : List Spot) : List Got × List (Nat × Bool) × State :=
  loadLanes (touchAll b k.gang (ts.map (·.va))) k x.ty (fun l => (k.src.get x.c.toNat l).toNat) (ordOf x.ord) ts

section Loaded
variable {x : Mem} {arm : Bool} {k : Iss} {b : State} {ts : List Spot} (active : k.lanes ≠ 0)
  (go : checkLanes b k.gang k.sup .read x.ty.bytes (k.eas x.a.toNat x.off.toInt) (loadRule x.ty fun l => (k.src.get x.c.toNat l).toNat) = .go ts [])
  (present : (lanesLoaded x k b ts).2.1 = [])
include go

theorem spots_eq : ts.map (·.lane) = lanesOf k.lanes := (of_checkLanes_all go).1.trans (eas_lanes ..)

include present

theorem gots_eq : (lanesLoaded x k b ts).1.map (·.lane) = lanesOf k.lanes := (lanes_loadLanes present).trans (spots_eq go)

include active

/-- With every lane's value there, its result is left outstanding and the monitor armed. -/
theorem loadBody_of_go : ∃ f g r, Result.opens r = true ∧ r.writes = (lanesLoaded x k b ts).1.flatMap (fun g => laneRegs x.d.toNat g.lane x.ty g.val)
    ∧ loadBody x arm k b = ((armLowest arm k (lanesOf (guarded k.src x.ctl.guard k.xmask)).head? ts (lanesLoaded x k b ts).1
        (k.later ((lanesLoaded x k b ts).2.2.updPath k.agent k.path f) x.ctl r)).updPath k.agent k.path g, .done) := by
  have gots := gots_eq go present
  unfold lanesLoaded at present gots ⊢
  unfold loadBody memOff
  rw [if_neg (active ∘ beq_iff_eq.1)]
  dsimp only
  rw [go]
  dsimp only
  have some_got : (loadLanes (touchAll b k.gang (ts.map (·.va))) k x.ty (fun l => (k.src.get x.c.toNat l).toNat) (ordOf x.ord) ts).1.isEmpty = false :=
    List.isEmpty_eq_false_iff.2 fun empty => lanesOf_ne_nil active (gots.symm.trans (congrArg (List.map _) empty))
  simp only [some_got, present, Bool.false_eq_true, if_false]
  exact ⟨_, _, _, rfl, rfl, rfl⟩

end Loaded

section Frame
variable {x : Mem} {arm : Bool} {k : Iss} {b : State} {ts : List Spot} {gs : List Got} {u : State} {f g : Path → Path} {r : Result} {low : Option Nat}
  (read : OnlyRead b u)
include read

/-- The body of LD and MARM after its lanes only reads, but for the monitor that it arms. -/
theorem loadBody_frame :
    let t := (armLowest arm k low ts gs (k.later (u.updPath k.agent k.path f) x.ctl r)).updPath k.agent k.path g
    SameRegs b t ∧ SameMemory b t := by
  have noted := read.trans ((updPath_onlyRead u k.agent k.path f).trans (later_onlyRead k _ x.ctl r))
  have armed := (armLowest_frame arm k low ts gs (k.later (u.updPath k.agent k.path f) x.ctl r)).2
  have ended := updPath_onlyRead (armLowest arm k low ts gs (k.later (u.updPath k.agent k.path f) x.ctl r)) k.agent k.path g
  exact ⟨fun n => (ended.regs n).trans ((armed.regs n).trans (noted.regs n)), fun sp a => (ended.mem sp a).trans ((armed.mem sp a).trans (noted.mem sp a))⟩

/-- MARM arms its monitor on the line of its lowest lane. -/
theorem loadBody_armed {p : Spot} {h : Got} (own : ∃ y, b.regsOf k.agent = some y) (free : ∀ a ∈ b.agents, a.mon.armed = none)
    (first : ts.head? = some p) (got : gs.head? = some h) (lane : h.lane = p.lane) (lowest : low = some p.lane) (space : p.sp = .loc) :
    let t := (armLowest true k low ts gs (k.later (u.updPath k.agent k.path f) x.ctl r)).updPath k.agent k.path g
    ∃ y, t.agent? k.agent = some y ∧ y.mon.armed = some (.loc, p.addr / 128) := by
  have noted := read.trans ((updPath_onlyRead u k.agent k.path f).trans (later_onlyRead k _ x.ctl r))
  have here : ∃ y, (k.later (u.updPath k.agent k.path f) x.ctl r).agent? k.agent = some y := by
    obtain ⟨regs, hr⟩ := own
    obtain ⟨y, hy, -⟩ := Option.map_eq_some_iff.1 ((noted.regs k.agent).trans hr)
    exact ⟨y, hy⟩
  have free' : ∀ a ∈ (k.later (u.updPath k.agent k.path f) x.ctl r).agents, a.mon.armed = none := fun a ha => by
    have kept : a.mon ∈ b.agents.map (·.mon) := noted.mons ▸ List.mem_map_of_mem ha
    obtain ⟨c, hc, eq⟩ := List.mem_map.1 kept
    exact (congrArg Monitor.armed eq.symm).trans (free c hc)
  obtain ⟨y, hy⟩ := here
  obtain ⟨z, hz, armed⟩ := armMonitor_armed h.wts hy free' space
  have spot : (ts.find? fun t => some t.lane == low) = some p := by
    obtain ⟨rest, rfl⟩ := List.head?_eq_some_iff.1 first
    exact List.find?_cons_of_pos (by simp [lowest])
  have found : (gs.find? fun g => some g.lane == low) = some h := by
    obtain ⟨rest, rfl⟩ := List.head?_eq_some_iff.1 got
    exact List.find?_cons_of_pos (by simp [lowest, lane])
  have arms : armLowest true k low ts gs (k.later (u.updPath k.agent k.path f) x.ctl r) = armMonitor (k.later (u.updPath k.agent k.path f) x.ctl r) k p h.wts := by
    unfold armLowest
    simp only [if_true, spot, found]
  dsimp only
  rw [arms, State.updPath, agent?_updAgent_same, hz]
  · exact ⟨_, rfl, armed⟩
  · exact fun _ => ⟨rfl, rfl⟩

end Frame

/-- Settles O25: with every lane's value there the body's result is left outstanding, and its parts only read but for the monitor. -/
theorem loadsLeaveTheirLanesResults : Obligations.LoadsLeaveTheirLanesResults := by
  intro x arm s k nd i issues b e
  have meaning : exec i s = instr s x.ctl nd (loadBody x arm) := exec_load x arm s
  refine ⟨fun idle => meaning.trans (instr_ends issues (loadBody_of_idle idle) nofun), fun ts active go present => ?_⟩
  obtain ⟨f, g, res, opens, writes, body⟩ := loadBody_of_go (arm := arm) active go present
  have gots := gots_eq go present
  have left := leaves_later k ((lanesLoaded x k b ts).2.2.updPath k.agent k.path f) x.ctl opens
  rw [writes] at left
  refine ⟨_, meaning.trans (instr_ends issues body nofun), leaves_of_pend left (armLowest_frame ..).1, fun drained plain => ?_⟩
  have read : OnlyRead b (lanesLoaded x k b ts).2.2 :=
    (touchAll_onlyRead b k.gang _).trans (loadLanes_onlyRead k _ _ _ ((touchAll_onlyRead b k.gang _).relaxed.trans drained) plain)
  obtain ⟨regs, mem⟩ := loadBody_frame (x := x) (arm := arm) read
  refine ⟨regs, mem, fun armed all free p first space => ?_⟩
  subst armed
  have lowest : (lanesOf (guarded k.src x.ctl.guard k.xmask)).head? = some p.lane := by
    rw [← all, ← spots_eq go, List.head?_map, first]
    rfl
  have got : ((lanesLoaded x k b ts).1.head?).map (·.lane) = some p.lane := by
    rw [← List.head?_map, gots, all, lowest]
  obtain ⟨h, hh, lane⟩ := Option.map_eq_some_iff.1 got
  exact loadBody_armed read (issued_regs issues) free first hh lane lowest space

end Sys2Proof.Machine.MemoryInstructions
end

section
/-! PROOFS. The values of atomics: their bytes, their operations, and the width that they fit in (R112, R262). -/

namespace Sys2Proof.Machine.MemoryInstructions

open NumberFormats

/-! ## Little-endian bytes (R2) -/

theorem length_leBytes (n x : Nat) : (leBytes n x).length = n := by
  induction n generalizing x with
  | zero => rfl
  | succ n ih => exact congrArg (· + 1) (ih _)

theorem leNat_leBytes (n x : Nat) : leNat (leBytes n x) = x % 256 ^ n := by
  induction n generalizing x with
  | zero => exact (Nat.mod_one x).symm
  | succ n ih => rw [leBytes, leNat, ih, Nat.pow_succ, Nat.mul_comm (256 ^ n), Nat.mod_mul, BitVec.toNat_ofNat]

theorem leBytes_leNat (bs : List Byte) : leBytes bs.length (leNat bs) = bs := by
  induction bs with
  | nil => rfl
  | cons b bs ih =>
    have low : BitVec.ofNat 8 (leNat (b :: bs)) = b := by
      refine BitVec.eq_of_toNat_eq ?_
      rw [BitVec.toNat_ofNat, leNat, Nat.add_mul_mod_self_left, Nat.mod_eq_of_lt b.isLt]
    have rest : leNat (b :: bs) / 256 = leNat bs := by
      rw [leNat, Nat.add_mul_div_left _ _ (by decide), Nat.div_eq_of_lt b.isLt, Nat.zero_add]
    rw [List.length_cons, leBytes, low, rest, ih]

theorem leNat_lt (bs : List Byte) : leNat bs < 256 ^ bs.length := by
  rw [← leBytes_leNat bs, leNat_leBytes, length_leBytes]
  exact Nat.mod_lt _ (Nat.pow_pos (by decide))

theorem two_pow_width (t : Ty) : 2 ^ t.width = 256 ^ t.bytes := Nat.pow_mul 2 8 t.bytes

/-! ## Operands (R112) -/

/-- What a type reads of a register fits its width. -/
theorem rawOf_lt (r : Regs) (t : Ty) (reg lane : Nat) : rawOf r t reg lane < 2 ^ t.width := by
  unfold rawOf Ty.width
  split
  · next pair =>
    rw [beq_iff_eq.1 pair]
    exact (r.get64 reg lane).isLt
  · split
    · next wide => exact Nat.lt_of_lt_of_le (r.get reg lane).isLt (Nat.pow_le_pow_right (by decide) (by omega))
    · exact Nat.mod_lt _ (Nat.two_pow_pos _)

/-- An integer reads as its bits, but for a multiple of two to its width. -/
theorem exists_intOf (t : Ty) (n : Nat) : ∃ z : Int, intOf t n = n + (2 ^ t.width : Nat) * z := by
  unfold intOf signedOf
  split
  · split
    · exact ⟨-1, by omega⟩
    · exact ⟨0, by omega⟩
  · exact ⟨0, by omega⟩

theorem wrap_intOf_add (t : Ty) (a b : Nat) : wrap t.width (intOf t a + intOf t b) = (a + b) % 2 ^ t.width := by
  obtain ⟨y, hy⟩ := exists_intOf t a
  obtain ⟨z, hz⟩ := exists_intOf t b
  have sum : intOf t a + intOf t b = ((a + b : Nat) : Int) + (2 ^ t.width : Nat) * (y + z) := by
    rw [hy, hz, Int.mul_add]
    omega
  rw [wrap, sum, Int.add_mul_emod_self_left, ← Int.natCast_emod, Int.toNat_natCast]

theorem toNat_ofNat_of_lt {w n : Nat} (le : w ≤ 64) (h : n < 2 ^ w) : (BitVec.ofNat 64 n).toNat = n := by
  rw [BitVec.toNat_ofNat, Nat.mod_eq_of_lt (Nat.lt_of_lt_of_le h (Nat.pow_le_pow_right (by decide) le))]

/-! ## Operations (R262) -/

/-- A rounded FP32 encoding fits a word. -/
theorem roundFmt_fmtF32_lt (x : X) (mode : Mode) : (roundFmt x fmtF32 mode false).1 < 2 ^ 32 := by
  have signed (neg : Bool) {code : Nat} (h : code ≤ fmtF32.maxCode + 1) : fmtF32.signed neg code < 2 ^ 32 := by
    have max : fmtF32.maxCode = 2139095039 := rfl
    unfold Fmt.signed
    split
    · change code + 2147483648 < _
      omega
    · omega
  have either (infinite : Bool) : (if infinite then fmtF32.maxCode + 1 else fmtF32.maxCode) ≤ fmtF32.maxCode + 1 := by cases infinite <;> simp
  unfold roundFmt
  dsimp only
  split
  · decide
  · exact signed _ (Nat.zero_le _)
  · exact signed _ (Nat.le_refl _)
  · split
    · exact signed _ (either _)
    · next small => exact signed _ (by omega)

theorem minmaxBits_fmtF32_lt (isMax : Bool) {a b : Nat} (ha : a < 2 ^ 32) (hb : b < 2 ^ 32) : (minmaxBits fmtF32 isMax a b).1 < 2 ^ 32 := by
  unfold minmaxBits
  dsimp only
  split
  · exact (by decide : fmtF32.qnan < 2 ^ 32)
  · exact hb
  · exact ha
  · repeat' split
    all_goals assumption

/-- The float operations are of .f32. -/
theorem ty_of_atomTy {op : Nat} {t : Ty} (h : atomTy op t) (float : 10 ≤ op) : t = .f32 := by
  unfold atomTy at h
  rw [if_neg (by omega), if_neg (by omega), if_neg (by omega), Bool.and_eq_true, beq_iff_eq] at h
  exact h.2

theorem width_le_of_atomTy {op : Nat} {t : Ty} (h : atomTy op t) : t.width ≤ 64 := by
  have narrow : t = .s32 ∨ t = .n32 ∨ t = .s64 ∨ t = .n64 ∨ t = .b32 ∨ t = .b64 ∨ t = .f32 := by
    unfold atomTy Ty.intAny Ty.int32 Ty.int64 Ty.raw at h
    split at h
    · simp only [Bool.or_eq_true, beq_iff_eq] at h
      tauto
    · split at h
      · simp only [Bool.or_eq_true, beq_iff_eq] at h
        tauto
      · split at h
        · rw [beq_iff_eq] at h
          tauto
        · rw [Bool.and_eq_true, beq_iff_eq] at h
          tauto
  obtain rfl | rfl | rfl | rfl | rfl | rfl | rfl := narrow <;> decide

/-- R262: the new value of an atomic fits its type, as its operands do. -/
theorem atomNew_lt {op : Nat} {t : Ty} {old b c : Nat} (h : atomTy op t) (hold : old < 2 ^ t.width) (hb : b < 2 ^ t.width) (hc : c < 2 ^ t.width) :
    (atomNew op t old b c).1 < 2 ^ t.width := by
  have le := width_le_of_atomTy h
  unfold atomNew
  dsimp only
  split
  · exact wrap_lt _ _
  · split <;> assumption
  · split <;> assumption
  · rw [BitVec.toNat_and, toNat_ofNat_of_lt le hold, toNat_ofNat_of_lt le hb]
    exact Nat.and_lt_two_pow _ hb
  · rw [BitVec.toNat_or, toNat_ofNat_of_lt le hold, toNat_ofNat_of_lt le hb]
    exact Nat.or_lt_two_pow hold hb
  · rw [BitVec.toNat_xor, toNat_ofNat_of_lt le hold, toNat_ofNat_of_lt le hb]
    exact Nat.xor_lt_two_pow hold hb
  · exact hb
  · split <;> assumption
  · split
    · exact Nat.two_pow_pos _
    · omega
  · split
    · exact hb
    · omega
  · cases ty_of_atomTy h (by decide)
    exact roundFmt_fmtF32_lt _ _
  · cases ty_of_atomTy h (by decide)
    exact minmaxBits_fmtF32_lt _ hold hb
  · next n0 n1 n2 n3 n4 n5 n6 n7 n8 n9 _ _ =>
    have float : 10 ≤ op := by
      simp only [imp_false] at n0 n1 n2 n3 n4 n5 n6 n7 n8 n9
      omega
    cases ty_of_atomTy h float
    exact minmaxBits_fmtF32_lt _ hold hb

/-- R262: the new value of each integer operation. -/
theorem atomNew_integer {t : Ty} {old b c : Nat} (ty : t = .n32 ∨ t = .n64 ∨ t = .s32 ∨ t = .s64) (hold : old < 2 ^ t.width) (hb : b < 2 ^ t.width) :
    (atomNew 0 t old b c).1 = (old + b) % 2 ^ t.width
    ∧ (atomNew 1 t old b c).1 = (if intOf t old ≤ intOf t b then old else b) ∧ (atomNew 2 t old b c).1 = (if intOf t old ≤ intOf t b then b else old)
    ∧ (atomNew 3 t old b c).1 = old &&& b ∧ (atomNew 4 t old b c).1 = old ||| b ∧ (atomNew 5 t old b c).1 = old ^^^ b
    ∧ (atomNew 6 t old b c).1 = b ∧ (atomNew 7 t old b c).1 = (if old = b then c else old)
    ∧ (atomNew 8 t old b c).1 = (if b ≤ old then 0 else old + 1) ∧ (atomNew 9 t old b c).1 = (if old = 0 ∨ b < old then b else old - 1) := by
  have le : t.width ≤ 64 := by obtain rfl | rfl | rfl | rfl := ty <;> decide
  have old64 := toNat_ofNat_of_lt le hold
  have b64 := toNat_ofNat_of_lt le hb
  refine ⟨wrap_intOf_add t old b, rfl, rfl, ?and, ?or, ?xor, rfl, ?swap, rfl, ?dec⟩
  case and => exact (BitVec.toNat_and ..).trans (by rw [old64, b64])
  case or => exact (BitVec.toNat_or ..).trans (by rw [old64, b64])
  case xor => exact (BitVec.toNat_xor ..).trans (by rw [old64, b64])
  case swap => simp [atomNew]
  case dec => simp [atomNew]

end Sys2Proof.Machine.MemoryInstructions
end

section
/-! PROOFS. The read-modify-write of the lanes of an atomic at one location (R226, R261, R262). -/

namespace Sys2Proof.Machine.MemoryInstructions

open NumberFormats MemoryModel

/-! ## What a step stores -/

/-- Nothing but these bytes has been stored: no relaxed store has gone, no block, and nothing is newly poisoned. -/
structure Stores (s t : State) (ts : List (Sp × Nat × List Byte)) : Prop where
  mem : StoredOnly s t ts
  relaxed : t.relaxed = s.relaxed
  poison : ∀ u ∈ t.poison, u ∈ s.poison
  block : ∀ g r, s.blockOf? g r ≠ none → t.blockOf? g r ≠ none

/-- An update beside memory, the blocks, poison and the relaxed stores under way. -/
theorem stores_nil_of {s t : State} (mem : SameMemory s t := by exact sameMemory_of) (relaxed : t.relaxed = s.relaxed := by rfl)
    (poison : t.poison = s.poison := by rfl) (blocks : t.blocks = s.blocks := by rfl) : Stores s t [] where
  mem := mem
  relaxed := relaxed
  poison u hu := poison ▸ hu
  block g r h := by
    unfold State.blockOf?
    rw [blocks]
    exact h

theorem AgentsNoted.stores {s t : State} (h : AgentsNoted s t) : Stores s t [] := by
  obtain ⟨f, -, rfl⟩ := h
  exact stores_nil_of

theorem Stores.after {s t u : State} {ts : List (Sp × Nat × List Byte)} (h : Stores s t []) (h' : Stores t u ts) : Stores s u ts where
  mem := storedOnly_between h.mem h'.mem fun _ _ => rfl
  relaxed := h'.relaxed.trans h.relaxed
  poison v hv := h.poison v (h'.poison v hv)
  block g r hb := h'.block g r (h.block g r hb)

theorem Stores.before {s t u : State} {ts : List (Sp × Nat × List Byte)} (h : Stores s t ts) (h' : Stores t u []) : Stores s u ts where
  mem := storedOnly_between (fun _ _ => rfl) h.mem h'.mem
  relaxed := h'.relaxed.trans h.relaxed
  poison v hv := h.poison v (h'.poison v hv)
  block g r hb := h'.block g r (h.block g r hb)

/-- One store leaves its bytes where it stores, and the rest as before. -/
theorem storedOnly_single {s t : State} {sp : Sp} {a : Nat} {bs : List Byte} : StoredOnly s t [(sp, a, bs)]
    ↔ ∀ sp' x, t.byteAt sp' x = if sp = sp' ∧ a ≤ x ∧ x < a + bs.length then bs.getD (x - a) 0 else s.byteAt sp' x := by
  unfold StoredOnly lastStored
  refine forall_congr' fun sp' => forall_congr' fun x => ?_
  simp only [List.foldl_cons, List.foldl_nil]
  split <;> rfl

/-- A store over one of the same length is the only one. -/
theorem Stores.again {s t u : State} {sp : Sp} {a : Nat} {bs cs : List Byte} (h : Stores s t [(sp, a, bs)]) (h' : Stores t u [(sp, a, cs)])
    (length : bs.length = cs.length) : Stores s u [(sp, a, cs)] where
  mem := by
    refine storedOnly_single.2 fun sp' x => (storedOnly_single.1 h'.mem sp' x).trans ?_
    split
    · rfl
    · next outside => rw [storedOnly_single.1 h.mem, length, if_neg outside]
  relaxed := h'.relaxed.trans h.relaxed
  poison v hv := h.poison v (h'.poison v hv)
  block g r hb := h'.block g r (h.block g r hb)

/-! ## Bytes at their home -/

theorem length_readHome (s : State) (sp : Sp) (a n : Nat) : (s.readHome sp a n).length = n := by simp [State.readHome, cellsRead]

theorem readHome_congr {s t : State} (h : SameMemory s t) (sp : Sp) (a n : Nat) : t.readHome sp a n = s.readHome sp a n :=
  List.map_congr_left fun i _ => h sp (a + i)

/-- Bytes stored read back. -/
theorem readHome_of_stored {s t : State} {sp : Sp} {a : Nat} {bs : List Byte} (h : StoredOnly s t [(sp, a, bs)]) : t.readHome sp a bs.length = bs := by
  refine List.ext_getElem (length_readHome ..) fun i hi hi' => ?_
  have byte : (t.readHome sp a bs.length)[i] = t.byteAt sp (a + i) := by simp [State.readHome, cellsRead, State.byteAt]
  rw [byte, storedOnly_single.1 h, if_pos ⟨rfl, Nat.le_add_right a i, Nat.add_lt_add_left hi' a⟩, Nat.add_sub_cancel_left, List.getD_eq_getElem _ _ hi']

/-- What stands at a location may be written back. -/
theorem stores_readHome (s : State) (sp : Sp) (a n : Nat) : Stores s s [(sp, a, s.readHome sp a n)] where
  mem := by
    refine storedOnly_single.2 fun sp' x => ?_
    rw [length_readHome]
    split
    · next inside =>
      obtain ⟨rfl, low, high⟩ := inside
      have index : x - a < n := by omega
      rw [List.getD_eq_getElem _ _ (by rwa [length_readHome])]
      simp [State.readHome, cellsRead, State.byteAt, Nat.add_sub_cancel' low]
    · rfl
  relaxed := rfl
  poison _ hu := hu
  block _ _ hb := hb

/-! ## The store of an atomic (R228, R235) -/

theorem blockOf?_setCells {s : State} (sp : Sp) (c : List Host.Cell) {g : GangKey} {r : Nat} (h : s.blockOf? g r ≠ none) :
    (s.setCells sp c).blockOf? g r ≠ none := by
  cases sp with
  | scr g' r' =>
    have found : (s.updBlock g' r' fun b => { b with scr := c }).blockOf? g r
        = (s.blockOf? g r).map fun b => if b.gang == g' && b.role == r' then { b with scr := c } else b :=
      find_map_of _ _ (fun b => by split <;> rfl) s.blocks
    intro none
    exact h (Option.map_eq_none_iff.1 (found.symm.trans none))
  | _ => exact h

/-- Bytes put in their place, which ends no release sequence. -/
theorem writeOn_stores {s : State} {sp : Sp} (a : Nat) (bs : List Byte) (h : ∀ g r, sp = .scr g r → s.blockOf? g r ≠ none) :
    Stores s (s.writeOn sp a bs) [(sp, a, bs)] where
  mem := by
    have same : SameMemory (stampedWrite s sp a bs 0) (s.writeOn sp a bs) := by
      obtain ⟨homes, stamped⟩ := setStamps_eq (s.writeRaw sp a bs) sp a bs.length 0
      rw [stampedWrite, stamped]
      cases sp <;> exact sameMemory_of
    exact storedOnly_between (fun _ _ => rfl) (stampedWrite_storedOnly a bs 0 h) same
  relaxed := by cases sp <;> rfl
  poison u hu := by
    have kept : (s.setCells sp (cellsWrite (s.cells sp) a bs)).poison = s.poison := by cases sp <;> rfl
    exact kept ▸ (List.mem_filter.1 hu).1
  block _ _ hb := blockOf?_setCells sp _ hb

theorem releaseAgent_noted {s : State} (n : Nat) (drained : s.relaxed = []) : AgentsNoted s (releaseAgent s n) := by
  unfold releaseAgent drainAgent
  rw [drainWhere_of_none drained]
  exact updAgent_noted s n ⟨fun _ => ⟨rfl, rfl⟩, fun _ => rfl, fun _ => rfl⟩

theorem takeRel_noted (s : State) (n : Nat) (own : Option (Nat × Nat)) : AgentsNoted s (takeRel s n own).2 :=
  updAgent_noted s n ⟨fun _ => ⟨rfl, rfl⟩, fun _ => rfl, fun _ => rfl⟩

section StoreHome
variable {s : State} (n : Nat) {sp : Sp} (a : Nat) (bs : List Byte) (rel : Option (Nat × Nat)) (bump : Bool) (drained : s.relaxed = [])
include drained

/-- The store of an atomic of any ordering is one write, between changes that write nothing. -/
theorem storeHome_atomic_eq : ∃ u v f parts seq, Stores s u [] ∧ Stores (u.writeOn sp a bs) v [] ∧ Notes f
    ∧ storeHome s n sp a bs rel true bump = { (v.updAgent n f).seeParts n parts with seq := seq } := by
  let released := if rel.isSome then releaseAgent s n else s
  have noted : AgentsNoted s released := by
    unfold released
    split
    · exact releaseAgent_noted n drained
    · exact .refl s
  obtain ⟨cur, waits⟩ := foldl_meetRefresh_eq (unitParts sp a bs.length) (takeRel released n rel).2
  have before : Stores s { (takeRel released n rel).2 with cur := cur } [] := (noted.trans (takeRel_noted released n rel)).stores.after stores_nil_of
  have marked (u : State) (ts : Nat) (releases : List Release) : Stores u { u.setStamps sp a bs.length ts with releases := releases } [] := by
    obtain ⟨homes, stamped⟩ := setStamps_eq u sp a bs.length ts
    rw [stamped]
    exact stores_nil_of
  unfold storeHome storeParts
  simp only [List.foldl_cons, List.foldl_nil, drainOverlap, drainWhere_of_none drained, List.flatMap_cons, List.flatMap_nil, List.append_nil, if_true]
  rw [show (if rel.isSome = true then releaseAgent s n else s) = released from rfl, waits]
  refine ⟨_, _, _, _, _, before, marked _ _ _, ?_, rfl⟩
  exact ⟨fun _ => ⟨rfl, rfl⟩, fun _ => rfl, fun _ => rfl⟩

/-- With no relaxed store under way, the store of an atomic of any ordering stores its bytes and no other. -/
theorem storeHome_atomic (h : ∀ g r, sp = .scr g r → s.blockOf? g r ≠ none) : Stores s (storeHome s n sp a bs rel true bump) [(sp, a, bs)] := by
  obtain ⟨u, v, f, parts, seq, before, marked, notes, store⟩ := storeHome_atomic_eq n (sp := sp) a bs rel bump drained
  have written := before.after (writeOn_stores a bs fun g r space => before.block g r (h g r space))
  have seen := ((updAgent_noted v n notes).trans (seeParts_noted _ n parts)).stores
  rw [store]
  exact ((written.before marked).before seen).before stores_nil_of

end StoreHome

/-! ## The read-modify-write of a lane (R226, R261) -/

/-- A location that an atomic can read and write: nothing waits to be stored, and it is there and not poisoned. -/
structure Ready (s : State) (sp : Sp) (a n : Nat) : Prop where
  relaxed : s.relaxed = []
  sound : ¬s.poisoned sp a n
  block : ∀ g r, sp = .scr g r → s.blockOf? g r ≠ none

theorem Ready.of_stores {s t : State} {sp : Sp} {a n : Nat} {ts : List (Sp × Nat × List Byte)} (h : Ready s sp a n) (h' : Stores s t ts) : Ready t sp a n where
  relaxed := h'.relaxed.trans h.relaxed
  sound poisoned := by
    obtain ⟨u, hu, bad⟩ := List.any_eq_true.1 poisoned
    exact h.sound (List.any_eq_true.2 ⟨u, hu, List.contains_iff_mem.2 (h'.poison _ (List.contains_iff_mem.1 bad))⟩)
  block g r space := h'.block g r (h.block g r space)

theorem atomicRmw_ready {s : State} (n : Nat) {sp : Sp} {a len : Nat} (kind scope storage : Nat) (f : List Byte → List Byte) (ready : Ready s sp a len) :
    let r := atomicRmw s n sp a len kind scope storage f
    r.1.bytes = s.readHome sp a len ∧ r.1.poison = false ∧ Stores s r.2 [(sp, a, f (s.readHome sp a len))] := by
  unfold atomicRmw drainOverlap
  rw [drainWhere_of_none ready.relaxed]
  refine ⟨rfl, Bool.eq_false_iff.2 ready.sound, ?_⟩
  dsimp only
  have noted (rels : List Release) : AgentsNoted s (s.updAgent n fun x => { x with lastRel := rels }) :=
    updAgent_noted s n ⟨fun _ => ⟨rfl, rfl⟩, fun _ => rfl, fun _ => rfl⟩
  have store {u : State} (rel : Option (Nat × Nat)) (bump : Bool) (h : AgentsNoted s u) :
      Stores s (storeHome u n sp a (f (s.readHome sp a len)) rel true bump) [(sp, a, f (s.readHome sp a len))] :=
    have ready' := ready.of_stores h.stores
    h.stores.after (storeHome_atomic n a _ rel bump ready'.relaxed ready'.block)
  split
  · exact store _ _ ((noted _).trans (syncAll_noted ..))
  · exact store _ _ (noted _)

/-- Where one lane of an atomic goes. -/
structure AtomSpot where
  lane : Nat
  va : Nat
  sp : Sp
  addr : Nat

/-- One lane's read-modify-write at its place. -/
def atomAt (s : State) (k : Iss) (x : Mem) (e : AtomSpot) : Got × State := atomLane s k x (ordOf x.ord) e.lane e.va e.sp e.addr

theorem lane_atomAt (s : State) (k : Iss) (x : Mem) (e : AtomSpot) : (atomAt s k x e).1.lane = e.lane := by
  unfold atomAt atomLane
  dsimp only
  split <;> rfl

/-- R261: a lane finds what its location holds, and leaves the new value there. -/
theorem atomAt_ready {s : State} (k : Iss) {x : Mem} {e : AtomSpot} (ready : Ready s e.sp e.addr x.ty.bytes) :
    let old := leNat (s.readHome e.sp e.addr x.ty.bytes)
    (atomAt s k x e).1.val = old ∧ Stores s (atomAt s k x e).2 [(e.sp, e.addr, leBytes x.ty.bytes (atomStep x k.src old e.lane))] := by
  obtain ⟨bytes, sound, store⟩ := atomicRmw_ready k.agent (ordOf x.ord).kind (ordOf x.ord).scope (ordOf x.ord).storage
    (fun old => leBytes x.ty.bytes (atomNew x.op x.ty (leNat old) (rawOf k.src x.ty x.b.toNat e.lane) (rawOf k.src x.ty x.c.toNat e.lane)).1) ready
  unfold atomAt atomLane
  dsimp only
  rw [sound]
  exact ⟨congrArg leNat bytes, store⟩

/-! ## The lanes of an atomic in order (R262) -/

/-- Lanes one after the other: what each found, and the machine after them. -/
def atomLanes (s : State) (k : Iss) (x : Mem) : List AtomSpot → List Got × State
  | [] => ([], s)
  | e :: es => let r := atomLanes (atomAt s k x e).2 k x es; ((atomAt s k x e).1 :: r.1, r.2)

/-- The model's fold over the lanes of an atomic, from what the lanes before have found. -/
theorem foldl_atomAt {α : Type} (k : Iss) (x : Mem) (spot : α → AtomSpot) (l : List α) (gs : List Got) (s : State) :
    l.foldl (fun acc e => (acc.1 ++ [(atomAt acc.2 k x (spot e)).1], (atomAt acc.2 k x (spot e)).2)) (gs, s)
      = (gs ++ (atomLanes s k x (l.map spot)).1, (atomLanes s k x (l.map spot)).2) := by
  induction l generalizing gs s with
  | nil => exact congrArg (·, s) (List.append_nil gs).symm
  | cons e l ih => exact (ih _ _).trans (congrArg (·, _) (List.append_assoc ..))

theorem lanes_atomLanes (s : State) (k : Iss) (x : Mem) (es : List AtomSpot) : (atomLanes s k x es).1.map (·.lane) = es.map (·.lane) := by
  induction es generalizing s with
  | nil => rfl
  | cons e es ih => exact congrArg₂ List.cons (lane_atomAt s k x e) (ih _)

theorem atomStep_lt {x : Mem} (pairing : atomTy x.op x.ty) (r : Regs) {old : Nat} (h : old < 256 ^ x.ty.bytes) (l : Nat) : atomStep x r old l < 256 ^ x.ty.bytes := by
  rw [← two_pow_width] at h ⊢
  exact atomNew_lt pairing h (rawOf_lt ..) (rawOf_lt ..)

/-- R262: lanes that name one location are applied in lane order, each finding what the lane before it left. -/
theorem atomLanes_chain (k : Iss) {x : Mem} (pairing : atomTy x.op x.ty) {sp : Sp} {a : Nat} {es : List AtomSpot} (here : ∀ e ∈ es, e.sp = sp ∧ e.addr = a)
    {s : State} (ready : Ready s sp a x.ty.bytes) :
    let old := leNat (s.readHome sp a x.ty.bytes)
    (atomLanes s k x es).1.map (fun g => (g.lane, g.val)) = atomChain x k.src old (es.map (·.lane))
      ∧ Stores s (atomLanes s k x es).2 [(sp, a, leBytes x.ty.bytes (atomLast x k.src old (es.map (·.lane))))] := by
  induction es generalizing s with
  | nil =>
    have back : leBytes x.ty.bytes (leNat (s.readHome sp a x.ty.bytes)) = s.readHome sp a x.ty.bytes := by
      simpa only [length_readHome] using leBytes_leNat (s.readHome sp a x.ty.bytes)
    refine ⟨rfl, ?_⟩
    have same := stores_readHome s sp a x.ty.bytes
    rw [← back] at same
    exact same
  | cons e es ih =>
    obtain ⟨space, addr⟩ := here e List.mem_cons_self
    subst space addr
    obtain ⟨val, store⟩ := atomAt_ready k ready
    have bound := leNat_lt (s.readHome e.sp e.addr x.ty.bytes)
    rw [length_readHome] at bound
    have found : leNat ((atomAt s k x e).2.readHome e.sp e.addr x.ty.bytes) = atomStep x k.src (leNat (s.readHome e.sp e.addr x.ty.bytes)) e.lane := by
      have back := readHome_of_stored store.mem
      rw [length_leBytes] at back
      rw [back, leNat_leBytes, Nat.mod_eq_of_lt (atomStep_lt pairing k.src bound e.lane)]
    obtain ⟨chain, last⟩ := ih (fun f hf => here f (List.mem_cons_of_mem e hf)) (ready.of_stores store)
    rw [found] at chain last
    refine ⟨congrArg₂ List.cons ?_ chain, store.again last ?_⟩
    · exact Prod.ext (lane_atomAt s k x e) val
    · rw [length_leBytes, length_leBytes]

end Sys2Proof.Machine.MemoryInstructions
end

section
/-! PROOFS. ATOM, RED and ATOMS (R261-R264). -/

namespace Sys2Proof.Machine.MemoryInstructions

open NumberFormats MemoryModel UnitQueries

/-! ## What the result of an atomic leaves -/

theorem later_stores (k : Iss) (s : State) (g : Ctl) (r : Result) : Stores s (k.later s g r) [] := by
  obtain ⟨pend, nextId, d, eq⟩ := later_eq k s g r
  have listed : Stores s { s with pend := pend, nextId := nextId } [] := stores_nil_of
  rw [eq]
  refine listed.before (updAgent_noted _ k.agent ?_).stores
  exact ⟨fun _ => ⟨rfl, rfl⟩, fun _ => rfl, fun _ => rfl⟩

theorem updPath_stores (s : State) (n p : Nat) (f : Path → Path) : Stores s (s.updPath n p f) [] := by
  refine (updAgent_noted s n ?_).stores
  exact ⟨fun _ => ⟨rfl, rfl⟩, fun _ => rfl, fun _ => rfl⟩

/-- The registers that lanes' values go to depend on the lanes and the values alone. -/
theorem flatMap_laneRegs (d : Nat) (t : Ty) (gs : List Got) :
    gs.flatMap (fun g => laneRegs d g.lane t g.val) = (gs.map fun g => (g.lane, g.val)).flatMap fun g => laneRegs d g.1 t g.2 := by
  rw [List.flatMap_map]

/-! ## ATOM and RED -/

theorem exec_atom (x : Mem) (red : Bool) (s : State) : exec (if red then .red x else .atom x) s = atomGlobal x red s := by
  cases red <;> rfl

theorem pairing_of_wf {x : Mem} {red : Bool} (wf : (if red then Instr.red x else .atom x).wf) : atomTy x.op x.ty := by
  cases red with
  | false =>
    simp only [Bool.false_eq_true, if_false, Instr.wf, Bool.and_eq_true] at wf
    tauto
  | true =>
    simp only [if_true, Instr.wf, Bool.and_eq_true] at wf
    tauto

theorem pairing_of_atoms_wf {x : Mem} (wf : (Instr.atoms x).wf) : atomTy x.op x.ty := by
  simp only [Instr.wf, Bool.and_eq_true] at wf
  tauto

/-- R264: no atomic of the global form goes to scratchpad. -/
theorem ne_scr_of_atomRule {op : Nat} {p : Spot} (admitted : atomRule op p = none) (g : GangKey) (r : Nat) : p.sp ≠ .scr g r := fun space => by
  unfold atomRule at admitted
  rw [space] at admitted
  cases admitted

/-- The place of a translated lane. -/
def Spot.atomSpot (p : Spot) : AtomSpot := { lane := p.lane, va := p.va, sp := p.sp, addr := p.addr }

/-- The lanes of an atomic, each at its translated address. -/
def lanesDone (x : Mem) (k : Iss) (b : State) (ts : List Spot) : List Got × State :=
  atomLanes (touchAll b k.gang (ts.map (·.va))) k x (ts.map Spot.atomSpot)

theorem lanes_lanesDone (x : Mem) (k : Iss) (b : State) (ts : List Spot) : (lanesDone x k b ts).1.map (·.lane) = ts.map (·.lane) :=
  (lanes_atomLanes ..).trans (List.map_map ..)

theorem touchAll_stores (s : State) (g : GangKey) (vas : List Nat) : Stores s (touchAll s g vas) [] := by
  obtain ⟨tlb, eq⟩ := touchAll_eq s g vas
  rw [eq]
  exact stores_nil_of

/-- The model's fold over the lanes is them one after the other. -/
theorem foldl_lanesDone (x : Mem) (k : Iss) (b : State) (ts : List Spot) :
    ts.foldl (fun acc t => (acc.1 ++ [(atomLane acc.2 k x (ordOf x.ord) t.lane t.va t.sp t.addr).1], (atomLane acc.2 k x (ordOf x.ord) t.lane t.va t.sp t.addr).2))
      ([], touchAll b k.gang (ts.map (·.va))) = lanesDone x k b ts :=
  foldl_atomAt k x Spot.atomSpot ts [] _

theorem parkOrDone_of_all (s : State) (k : Iss) : ∃ f, parkOrDone s k {} = (s.updPath k.agent k.path f, .done) := ⟨_, rfl⟩

section Global
variable {x : Mem} {red : Bool} {s : State} {k : Iss} (issues : Issues s x.ctl (atomNeed x red 2) k)

include issues in
theorem atom_idle (idle : k.lanes = 0) : Completes (if red then .red x else .atom x) s k (issued s k (atomNeed x red 2)) :=
  (exec_atom x red s).trans (instr_ends issues (if_pos (beq_iff_eq.2 idle)) nofun)

variable {b : State} (start : issued s k (atomNeed x red 2) = b) {ts : List Spot} (active : k.lanes ≠ 0)
  (go : checkLanes b k.gang k.sup .atomic x.ty.bytes (k.eas x.a.toNat (memOff20 x)) (atomRule x.op) = .go ts [])
  (free : ∀ p ∈ ts, jobEdge b (b.ctxOf k.gang).id p.va x.ty.bytes = false)
include issues start active go free

/-- With all lanes admitted and no job in the way, the lanes are done one after the other, and the result is left outstanding. -/
theorem atom_done : ∃ f, Completes (if red then .red x else .atom x) s k
    ((k.later (lanesDone x k b ts).2 x.ctl (atomResult x red (lanesDone x k b ts).1)).updPath k.agent k.path f) := by
  have lanes := (lanes_lanesDone x k b ts).trans ((of_checkLanes_all go).1.trans (eas_lanes ..))
  have some_got : (lanesDone x k b ts).1.isEmpty = false :=
    List.isEmpty_eq_false_iff.2 fun empty => lanesOf_ne_nil active (lanes.symm.trans (congrArg (List.map _) empty))
  have no_edge : (ts.any fun t => jobEdge b (b.ctxOf k.gang).id t.va x.ty.bytes) = false :=
    List.any_eq_false.2 fun p hp => by rw [free p hp]; exact Bool.false_ne_true
  obtain ⟨f, done⟩ := parkOrDone_of_all (k.later (lanesDone x k b ts).2 x.ctl (atomResult x red (lanesDone x k b ts).1)) k
  refine ⟨f, (exec_atom x red s).trans (instr_ends issues ?_ nofun)⟩
  rw [start, if_neg (active ∘ beq_iff_eq.1), go]
  simp only [no_edge, foldl_lanesDone, some_got, List.isEmpty_nil, Bool.not_true, Bool.and_false, Bool.false_eq_true, if_false]
  exact done

end Global

theorem atom_leaves {x : Mem} {k : Iss} {s : State} {gs : List Got} (f : Path → Path) :
    Leaves ((k.later s x.ctl (atomResult x false gs)).updPath k.agent k.path f) k x.ctl (gs.flatMap fun g => laneRegs x.d.toNat g.lane x.ty g.val) :=
  leaves_of_pend (leaves_later k s x.ctl (r := atomResult x false gs) rfl) rfl

/-- The lanes of an atomic at one location, from the machine as it issues. -/
theorem lanesDone_chain {x : Mem} {k : Iss} (pairing : atomTy x.op x.ty) {p : Spot} {rest : List Spot} (here : ∀ q ∈ rest, q.sp = p.sp ∧ q.addr = p.addr)
    {b : State} (ready : Ready b p.sp p.addr x.ty.bytes) :
    let r := lanesDone x k b (p :: rest)
    let old := leNat (b.readHome p.sp p.addr x.ty.bytes)
    r.1.map (fun g => (g.lane, g.val)) = atomChain x k.src old ((p :: rest).map (·.lane))
      ∧ Stores b r.2 [(p.sp, p.addr, leBytes x.ty.bytes (atomLast x k.src old ((p :: rest).map (·.lane))))] := by
  have touched := touchAll_stores b k.gang ((p :: rest).map (·.va))
  have all : ∀ e ∈ (p :: rest).map Spot.atomSpot, e.sp = p.sp ∧ e.addr = p.addr :=
    List.forall_mem_map.2 (List.forall_mem_cons.2 ⟨⟨rfl, rfl⟩, here⟩)
  obtain ⟨chain, last⟩ := atomLanes_chain k pairing all (ready.of_stores touched)
  rw [readHome_congr touched.mem, List.map_map] at chain last
  exact ⟨chain, touched.after last⟩

/-! ## ATOMS -/

theorem switchOff_eq (s : State) (k : Iss) (ls : List Nat) : ∃ agents, switchOff s k ls = { s with agents := agents } := by
  unfold switchOff
  split
  · exact ⟨_, rfl⟩
  · exact ⟨_, rfl⟩

theorem switchOff_stores (s : State) (k : Iss) (ls : List Nat) : Stores s (switchOff s k ls) [] := by
  obtain ⟨agents, eq⟩ := switchOff_eq s k ls
  rw [eq]
  exact stores_nil_of

/-- A scratchpad access that goes on has its block, and has only switched lanes off. -/
theorem of_scrCheck {s c : State} {k : Iss} {role a size : Nat} {off : Int} {as : List (Nat × Nat)} (h : scrCheck s k role a size off = .inr (as, c)) :
    s.blockOf? k.gang role ≠ none ∧ Stores s c [] := by
  unfold scrCheck at h
  split at h
  · next g block _ here =>
    refine ⟨Option.ne_none_iff_exists'.2 ⟨block, here⟩, ?_⟩
    dsimp only at h
    split at h
    · cases h
    · split at h
      · cases h
      · split at h
        · cases h
        · cases h
          exact switchOff_stores ..
  · cases h

/-- A lane's place in the scratchpad of a block. -/
def scrSpot (g : GangKey) (role : Nat) (e : Nat × Nat) : AtomSpot := { lane := e.1, va := e.2, sp := .scr g role, addr := e.2 }

/-- The model's fold over the lanes is them one after the other. -/
theorem foldl_scrSpot (x : Mem) (k : Iss) (as : List (Nat × Nat)) (c : State) :
    as.foldl (fun acc e => (acc.1 ++ [(atomLane acc.2 k x (ordOf x.ord) e.1 e.2 (.scr k.gang k.role) e.2).1],
      (atomLane acc.2 k x (ordOf x.ord) e.1 e.2 (.scr k.gang k.role) e.2).2)) ([], c) = atomLanes c k x (as.map (scrSpot k.gang k.role)) :=
  foldl_atomAt k x (scrSpot k.gang k.role) as [] c

section Scratchpad
variable {x : Mem} {s : State} {k : Iss} (issues : Issues s x.ctl { atomNeed x false 1 with pilot := false } k)

include issues in
theorem atoms_idle (idle : k.lanes = 0) : Completes (.atoms x) s k (issued s k { atomNeed x false 1 with pilot := false }) := by
  change execAtoms x s = _
  exact instr_ends issues (if_pos (beq_iff_eq.2 idle)) nofun

variable {b c : State} (start : issued s k { atomNeed x false 1 with pilot := false } = b) {as : List (Nat × Nat)} (active : k.lanes ≠ 0)
  (go : scrCheck b k k.role x.a.toNat x.ty.bytes (memOff20 x) = .inr (as, c))
include issues start active go

/-- The lanes in range are done one after the other, and the result is left outstanding. -/
theorem atoms_done : let r := atomLanes c k x (as.map (scrSpot k.gang k.role))
    Completes (.atoms x) s k (k.later r.2 x.ctl (atomResult x false r.1)) := by
  change execAtoms x s = _
  refine instr_ends issues ?_ nofun
  rw [start, if_neg (active ∘ beq_iff_eq.1), go]
  simp only [foldl_scrSpot]

end Scratchpad

theorem atoms_leaves {x : Mem} {k : Iss} {s : State} {gs : List Got} :
    Leaves (k.later s x.ctl (atomResult x false gs)) k x.ctl (gs.flatMap fun g => laneRegs x.d.toNat g.lane x.ty g.val) :=
  leaves_later k s x.ctl (r := atomResult x false gs) rfl

/-- The lanes of ATOMS at one location of the scratchpad. -/
theorem atoms_chain {x : Mem} {k : Iss} (pairing : atomTy x.op x.ty) {l a : Nat} {rest : List (Nat × Nat)} (here : ∀ q ∈ rest, q.2 = a)
    {b c : State} (switched : Stores b c []) (ready : Ready b (.scr k.gang k.role) a x.ty.bytes) :
    let r := atomLanes c k x (((l, a) :: rest).map (scrSpot k.gang k.role))
    let old := leNat (b.readHome (.scr k.gang k.role) a x.ty.bytes)
    r.1.map (fun g => (g.lane, g.val)) = atomChain x k.src old (((l, a) :: rest).map (·.1))
      ∧ Stores b r.2 [(.scr k.gang k.role, a, leBytes x.ty.bytes (atomLast x k.src old (((l, a) :: rest).map (·.1))))] := by
  have all : ∀ e ∈ ((l, a) :: rest).map (scrSpot k.gang k.role), e.sp = .scr k.gang k.role ∧ e.addr = a :=
    List.forall_mem_map.2 (List.forall_mem_cons.2 ⟨⟨rfl, rfl⟩, fun q hq => ⟨rfl, here q hq⟩⟩)
  obtain ⟨chain, last⟩ := atomLanes_chain k pairing all (ready.of_stores switched)
  rw [readHome_congr switched.mem, List.map_map] at chain last
  exact ⟨chain, switched.after last⟩

/-! ## The obligation -/

/-- Settles O29: an atomic's lanes are done one after the other, each a read and a write of its location, in a chain where they name one. -/
theorem atomicsReadModifyAndWrite : Obligations.AtomicsReadModifyAndWrite := by
  refine ⟨⟨fun x red s k => ?global, fun x s k => ?scratchpad⟩, ?floats, ?integers⟩
  case floats => exact fun _ _ _ => ⟨rfl, rfl, rfl⟩
  case integers => exact fun _ _ _ _ => atomNew_integer
  case global =>
    intro nd i issues b
    refine ⟨atom_idle issues, fun ts active go free => ?_⟩
    obtain ⟨f, done⟩ := atom_done issues rfl active go free
    refine ⟨_, done, ?_, fun p rest hts wf here drained sound => ?_⟩
    · rintro rfl
      exact ⟨_, lanes_lanesDone x k b ts, atom_leaves f⟩
    · subst hts
      have ready : Ready b p.sp p.addr x.ty.bytes :=
        ⟨drained, sound, fun g r space => absurd space (ne_scr_of_atomRule ((of_checkLanes_all go).2 p List.mem_cons_self) g r)⟩
      obtain ⟨chain, stores⟩ := lanesDone_chain (k := k) (pairing_of_wf wf) here ready
      refine ⟨((stores.before (later_stores ..)).before (updPath_stores ..)).mem, ?_⟩
      rintro rfl
      rw [← chain, ← flatMap_laneRegs]
      exact atom_leaves f
  case scratchpad =>
    intro nd issues b
    refine ⟨atoms_idle issues, fun as c active go => ?_⟩
    obtain ⟨block, switched⟩ := of_scrCheck go
    refine ⟨_, atoms_done issues rfl active go, ⟨_, (lanes_atomLanes ..).trans (List.map_map ..), atoms_leaves⟩, ?_, fun l a rest has wf here drained sound => ?_⟩
    · rintro rfl
      exact (switched.before (later_stores ..)).mem
    · subst has
      have ready : Ready b (.scr k.gang k.role) a x.ty.bytes := ⟨drained, sound, by rintro _ _ ⟨⟩; exact block⟩
      obtain ⟨chain, stores⟩ := atoms_chain (k := k) (l := l) (pairing_of_atoms_wf wf) here switched ready
      refine ⟨(stores.before (later_stores ..)).mem, ?_⟩
      rw [← chain, ← flatMap_laneRegs]
      exact atoms_leaves

end Sys2Proof.Machine.MemoryInstructions
end

section
/-! PROOFS. What noting an issue may touch, and how an instruction that issues ends (R66, R409). -/
-- One proof after another: in parallel, those of the whole text need more memory than one process may take.
set_option Elab.async false

namespace Sys2Proof.Machine.Scheduling
open Sys2Proof.Machine.NumberFormats

/-- Nothing but agents, results outstanding, local memory, the host's registers and what collective copies have missed has changed. -/
def TraceOnly (s t : State) : Prop := ∃ agents pend loc regs colls, t = { s with agents := agents, pend := pend, loc := loc, regs := regs, colls := colls }

theorem TraceOnly.refl (s : State) : TraceOnly s s := ⟨_, _, _, _, _, rfl⟩

theorem TraceOnly.trans {s t u : State} (h : TraceOnly s t) (h' : TraceOnly t u) : TraceOnly s u := by
  obtain ⟨_, _, _, _, _, rfl⟩ := h
  obtain ⟨_, _, _, _, _, rfl⟩ := h'
  exact ⟨_, _, _, _, _, rfl⟩

theorem updAgent_traceOnly (s : State) (n : Nat) (f : Agent → Agent) : TraceOnly s (s.updAgent n f) := ⟨_, _, _, _, _, rfl⟩

theorem noteRing_traceOnly (s : State) (n : Nat) : TraceOnly s (noteRing s n) := by
  unfold noteRing
  dsimp only
  split <;> exact ⟨_, _, _, _, _, rfl⟩

theorem emit_traceOnly (s : State) (bs : List Byte) : TraceOnly s (emit s bs).2 := by
  unfold emit
  split
  · obtain ⟨_, _, _, _, _, ring⟩ := noteRing_traceOnly { s with regs := { s.regs with trpending := 0 } } (lossBytes s ++ bs).length
    unfold ringWrite
    dsimp only at ring ⊢
    rw [ring]
    exact ⟨_, _, _, _, _, rfl⟩
  · exact ⟨_, _, _, _, _, rfl⟩

theorem traceSync_traceOnly (s : State) (n p : Nat) (ps : List Path) : TraceOnly s (traceSync s n p ps) := by
  unfold traceSync
  split
  · split
    · exact (emit_traceOnly s _).trans (updAgent_traceOnly _ _ _)
    · exact .refl s
  · exact .refl s

theorem traceFirst_traceOnly (s : State) (k : Iss) : TraceOnly s (traceFirst s k) := by
  unfold traceFirst
  split
  · split
    · exact traceSync_traceOnly ..
    · exact .refl s
  · exact .refl s

theorem noteIssue_traceOnly (s : State) (k : Iss) : TraceOnly s (noteIssue s k) := by
  have windows : TraceOnly s (if k.replay then s else countWindows s k.agent k.path) := by
    split
    · exact .refl s
    · exact ⟨_, _, _, _, _, rfl⟩
  exact (windows.trans (updAgent_traceOnly _ _ _)).trans (traceFirst_traceOnly _ k)

/-- An issue noted leaves everything else but the energy of blocks. -/
theorem issued_eq (s : State) (k : Iss) (nd : Need) : ∃ agents pend loc regs colls,
    issued s k nd = charge { s with agents := agents, pend := pend, loc := loc, regs := regs, colls := colls } k.gang (if k.pilot then 0 else k.role) (nd.base + nd.lane * popcount k.lanes) := by
  obtain ⟨_, _, _, _, _, noted⟩ := noteIssue_traceOnly s k
  unfold issued
  rw [noted]
  exact ⟨_, _, _, _, _, rfl⟩

theorem blockOf?_charge (s : State) (g h : GangKey) (r role amount : Nat) :
    (charge s g r amount).blockOf? h role = (s.blockOf? h role).map fun b => if b.gang == g && b.role == r then { b with energy := b.energy + amount } else b :=
  find_map_of _ _ (fun b => by split <;> rfl) s.blocks

theorem blockOf?_name {s : State} {g : GangKey} {role : Nat} {b : Block} (h : s.blockOf? g role = some b) : b.gang = g ∧ b.role = role := by
  simpa using List.find?_some h

/-- The energy goes to the block it is charged to. -/
theorem energy_charge {s : State} {h : GangKey} {role : Nat} {b : Block} (here : s.blockOf? h role = some b) (g : GangKey) (r amount : Nat) :
    (charge s g r amount).blockOf? h role = some { b with energy := b.energy + if h = g ∧ role = r then amount else 0 } := by
  obtain ⟨rfl, rfl⟩ := blockOf?_name here
  rw [blockOf?_charge, here, Option.map_some]
  by_cases mine : b.gang = g ∧ b.role = r <;> simp [mine]

/-- Settles O15: noting an issue leaves what the trace cannot touch, and the charge adds to one block's energy. -/
theorem issueChargesEnergyAndNothingElse : Obligations.IssueChargesEnergyAndNothingElse := by
  unfold Obligations.IssueChargesEnergyAndNothingElse
  intro s g nd k _ b
  have kept : Bookkeeping s b := issued_bookkeeping s k nd
  refine ⟨fun n => regsOf_issued s k nd n, kept.mem, kept.clk, kept.tick, kept.ctxs, kept.gangs, ?_, fun h role bl here => ?_⟩
  · obtain ⟨_, _, _, _, _, parts⟩ := issued_eq s k nd
    exact congrArg (·.jobs) parts
  · obtain ⟨_, _, _, _, _, parts⟩ := issued_eq s k nd
    have block := energy_charge (s := { s with agents := _, pend := _, loc := _, regs := _, colls := _ }) here k.gang (if k.pilot then 0 else k.role) (nd.base + nd.lane * popcount k.lanes)
    exact (congrArg (·.blockOf? h role) parts).trans block

/-- An instruction that issues ends as its own effect says. -/
theorem endsWith_of {i : Instr} {s t : State} {k : Iss} {g : Ctl} {nd : Need} {body : Iss → State → State × Fate} {f : Fate} (run : Host.Outcome State Fault Refusal)
    (meaning : exec i s = run) (frame : run = instr s g nd body) (issues : Issues s g nd k) (effect : body k (issued s k nd) = (t, f)) (goes : f ≠ .hold := by nofun) :
    EndsWith i s k t f := meaning.trans (frame.trans (instr_ends issues effect goes))

/-- An instruction that its own effect holds back does not issue. -/
theorem unissued_of {i : Instr} {s t : State} {k : Iss} {g : Ctl} {nd : Need} {body : Iss → State → State × Fate} (run : Host.Outcome State Fault Refusal)
    (meaning : exec i s = run) (frame : run = instr s g nd body) (issues : Issues s g nd k) (effect : body k (issued s k nd) = (t, .hold)) :
    exec i s = .next { unissue s k with cur := none } := meaning.trans (frame.trans (instr_holds issues effect))

/-! ## Gangs -/

theorem gang?_updGang (s : State) (g h : GangKey) {f : Gang → Gang} (name : ∀ y, (f y).key = y.key) :
    (s.updGang g f).gang? h = (s.gang? h).map fun y => if y.key == g then f y else y :=
  find_map_of _ _ (fun y => by split <;> simp [name]) s.gangs

theorem gang?_key {s : State} {g : GangKey} {y : Gang} (h : s.gang? g = some y) : y.key = g := by simpa using List.find?_some h

theorem gang?_updGang_same {s : State} {g : GangKey} {y : Gang} (h : s.gang? g = some y) {f : Gang → Gang} (name : ∀ y, (f y).key = y.key) :
    (s.updGang g f).gang? g = some (f y) := by
  rw [gang?_updGang s g g name, h]
  simp [gang?_key h]

end Sys2Proof.Machine.Scheduling
end

section
/-! PROOFS. What the host reads right after reset (R404, R408, R413, R415, R421). -/
-- One proof after another: in parallel, those of the whole text need more memory than one process may take.
set_option Elab.async false

namespace Sys2Proof.Machine.HostInterface

/-- The registers of a port read zero while feature 11 is not accepted. -/
theorem portRead_of_no_feature {s : State} (off : s.feature 11 = false) (p k : Nat) : portRead s p k = 0 := by
  unfold portRead
  simp [off]

/-- The window of the ports, by its offsets. -/
theorem hostRead_ports (s : State) {off : Nat} (aligned : off % 8 = 0) (lo : 0x70000 ≤ off) (hi : off < 0x80000) :
    hostRead s off = portRead s ((off - 0x70000) / 0x8000) ((off - 0x70000) % 0x8000) := by
  have base : ¬off < 0x200 := by omega
  have health : ¬off < 0x21000 := by omega
  have events : ¬off < 0x23000 := by omega
  have trace : ¬off < 0x30A00 := by omega
  have stalls : ¬off < 0x60000 := by omega
  simp [hostRead, aligned, base, health, events, trace, stalls, lo, hi]

theorem hostRead_reset_ports {off : Nat} (lo : 0x70000 ≤ off) (hi : off < 0x80000) : hostRead State.reset off = 0 := by
  by_cases aligned : off % 8 = 0
  · rw [hostRead_ports _ aligned lo hi, portRead_of_no_feature (by decide)]
  · simp [hostRead, aligned]

theorem byteAt_reset (sp : Sp) (a : Nat) : State.reset.byteAt sp a = 0 := by cases sp <;> rfl

/-- Settles O5: the single registers are evaluated, and the ports' window reads zero without its feature. -/
theorem resetRegistersReadTheirTables : Obligations.ResetRegistersReadTheirTables := by
  unfold Obligations.ResetRegistersReadTheirTables
  refine ⟨by decide, by decide, by decide, by decide, by decide, by decide, fun _ => hostRead_reset_ports, by decide, by decide, rfl, rfl, rfl, rfl, rfl, byteAt_reset⟩

end Sys2Proof.Machine.HostInterface
end

section
/-! PROOFS. WAITC and SLEEP, and what ends their waits (R336, R338). -/
-- One proof after another: in parallel, those of the whole text need more memory than one process may take.
set_option Elab.async false

namespace Sys2Proof.Machine.Scheduling
open Sys2Proof.Machine.NumberFormats

theorem waitcMet_iff (s : State) (a : Agent) (all : Bool) (c n : Nat) :
    waitcMet s a all c n ↔ if all then (∀ v ∈ a.d, v = 0) ∧ ∀ p ∈ s.pend, ¬(p.agent = a.num ∧ p.wins ≠ []) else a.d.getD c 0 ≤ n := by
  cases all <;> simp [waitcMet]

theorem waitcComplete_of {s : State} {n p c m : Nat} {a : Agent} {all : Bool} (ha : s.agent? n = some a) (waits : (s.path? n p).bind (·.wait) = some (.waitc all c m)) :
    exec (.waitcComplete n p) s = .next (if waitcMet s a all c m && gangRuns s a.gang then endSlot (acquireJobs s n) n p .nothing else s) := by
  show execWaitcComplete n p s = _
  unfold execWaitcComplete
  rw [ha, waits]
  rfl

theorem sleepExpire_of {s : State} {n p t : Nat} {a : Agent} (ha : s.agent? n = some a) (waits : (s.path? n p).bind (·.wait) = some (.sleep t)) :
    exec (.sleepExpire n p) s = .next (if t < s.tick && gangRuns s a.gang then endSlot (s.updAgent n fun x => { x with lastIssue := s.tick }) n p .nothing else s) := by
  show execSleepExpire n p s = _
  unfold execSleepExpire
  rw [ha, waits]
  rfl

/-- Settles O39: each wait's condition is the one its instruction tests, and its end tests it again. -/
theorem countersAndSleepEndTheirWaits : Obligations.CountersAndSleepEndTheirWaits := by
  unfold Obligations.CountersAndSleepEndTheirWaits
  refine ⟨?_, ?_, ?_, ?_⟩
  · intro x s k hi b all c n a ha
    have test : waitcMet b a all c n ↔ _ := waitcMet_iff b a all c n
    refine ⟨fun met => endsWith_of (execWaitc x s) rfl rfl hi ?_, fun unmet => endsWith_of (execWaitc x s) rfl rfl hi ?_⟩
    · simp only [b] at ha test
      simp only [ha]
      exact if_pos (test.2 met)
    · simp only [b] at ha test
      simp only [ha]
      exact if_neg fun met => unmet (test.1 met)
  · intro s n p c m a all ha waits
    rw [waitcComplete_of ha waits]
    exact ⟨fun met runs => by rw [met, runs]; rfl, fun unmet => by rw [unmet]; rfl⟩
  · intro x s k hi
    have tick : (issued s k {}).tick = s.tick := (issued_bookkeeping s k {}).tick
    refine endsWith_of (execSleep x s) rfl rfl hi ?_
    rw [tick, Nat.mul_assoc]
  · intro s n p t a ha waits
    rw [sleepExpire_of ha waits]
    refine ⟨fun passed runs => by rw [runs, decide_eq_true passed]; rfl, fun early => ?_⟩
    rw [decide_eq_false (Nat.not_lt.2 early)]
    rfl

end Sys2Proof.Machine.Scheduling
end

section
/-! PROOFS. FORK, LREC and PERMIT, and the grant of permits (R340-R342). -/
-- One proof after another: in parallel, those of the whole text need more memory than one process may take.
set_option Elab.async false

namespace Sys2Proof.Machine.Scheduling
open Sys2Proof.Machine.NumberFormats Sys2Proof.Machine.UnitQueries

/-! ## FORK (R340) -/

theorem mget_spaced_writes (f : Nat → Word) (j n : Nat) :
    mget 0 ((List.range n).foldl (fun m i => mset 0 m (32 * i) (f i)) []) (32 * j) = if j < n then f j else 0 := by
  induction n with
  | zero => rfl
  | succ n ih =>
    rw [List.range_succ, List.foldl_append, List.foldl_cons, List.foldl_nil, mget_mset, ih]
    by_cases last : j = n
    · simp [last]
    · have before : j < n + 1 ↔ j < n := by omega
      have other : 32 * j ≠ 32 * n := by omega
      rw [if_neg other]
      simp only [before]

/-- A forked program starts with its issuer's registers of one lane. -/
theorem get_forkRegs (r : Regs) {nregs pregs reg : Nat} (lane : Nat) (h : reg < min nregs pregs) : (forkRegs r nregs pregs lane).get reg 0 = r.get reg lane := by
  unfold forkRegs Regs.get
  exact (mget_spaced_writes (fun i => r.get i lane) reg (min nregs pregs)).trans (if_pos h)

/-- The program that FORK starts. -/
def forkedProgram (x : Eng) (k : Iss) (b : State) (a : Agent) (l : Launch) (cluster i : Nat) : Agent :=
  { newPilot (releaseAgent b k.agent) k.gang cluster i (brTarget k.pc (x.imm.extractLsb' 3 29) (x.imm.extractLsb' 0 3)).toNat
      ((((releaseAgent b k.agent).agent? k.agent).map (·.clock)).getD 0) with
    regs := forkRegs k.src a.nregs l.kernel.pregs ((lanesOf k.lanes).headD 0) }

/-- The machine with the program started. -/
def forked (x : Eng) (k : Iss) (b : State) (a : Agent) (l : Launch) (cluster i : Nat) : State :=
  { releaseAgent b k.agent with agents := (releaseAgent b k.agent).agents ++ [forkedProgram x k b a l cluster i], nextId := (releaseAgent b k.agent).nextId + 1 }

/-- The newest agent stays the newest while a result is left outstanding, which only counts it. -/
theorem newest_later (k : Iss) (s : State) (g : Ctl) (r : Result) {p : Agent} (newest : s.agents.getLast? = some p) :
    ∃ d, (k.later s g r).agents.getLast? = some { p with d := d } := by
  unfold Iss.later
  split
  · exact ⟨p.d, newest⟩
  · dsimp only
    split
    · exact ⟨p.d, newest⟩
    · refine ⟨if p.num == k.agent && !p.ended then bumpCounter p.d g.cnt.toNat true else p.d, ?_⟩
      unfold State.updAgent updWhere
      rw [List.getLast?_map, newest, Option.map_some]
      dsimp only
      split <;> rfl

section Fork
variable {x : Eng} {s : State} {k : Iss} (hi : Issues s x.ctl { regs := [(x.d.toNat, 1)] } k)
include hi

theorem fork_idle (idle : k.lanes = 0) : Completes (.fork x) s k (issued s k { regs := [(x.d.toNat, 1)] }) :=
  endsWith_of (execFork x s) rfl rfl hi (by rw [idle]; rfl)

variable {y : Gang} {l : Launch} {a : Agent} (active : k.lanes ≠ 0) (hy : (issued s k { regs := [(x.d.toNat, 1)] }).gang? k.gang = some y)
  (hl : (issued s k { regs := [(x.d.toNat, 1)] }).launches.find? (fun l => l.id == k.gang.launch) = some l) (ha : (issued s k { regs := [(x.d.toNat, 1)] }).agent? k.agent = some a)
include active hy hl ha

theorem fork_faults (none : l.kernel.pilot = false) : EndsWith (.fork x) s k (issued s k { regs := [(x.d.toNat, 1)] }) (.fault 0x04 k.lanes 0) := by
  refine endsWith_of (execFork x s) rfl rfl hi ?_
  rw [if_neg (by simpa using active), hy, hl, ha]
  simp [none]

theorem fork_finds_none (pilot : l.kernel.pilot = true) (full : freePilot (issued s k { regs := [(x.d.toNat, 1)] }) y.cluster = none) :
    Completes (.fork x) s k (k.later (issued s k { regs := [(x.d.toNat, 1)] }) x.ctl { writes := laneWrites x.d.toNat (fun _ => 0xFFFFFFFF) (lanesOf k.lanes) }) := by
  refine endsWith_of (execFork x s) rfl rfl hi ?_
  rw [if_neg (by simpa using active), hy, hl, ha]
  simp [pilot, full]

theorem fork_starts (pilot : l.kernel.pilot = true) {i : Nat} (free : freePilot (issued s k { regs := [(x.d.toNat, 1)] }) y.cluster = some i) :
    Completes (.fork x) s k (k.later (forked x k (issued s k { regs := [(x.d.toNat, 1)] }) a l y.cluster i) x.ctl
      { writes := laneWrites x.d.toNat (fun _ => BitVec.ofNat 32 i) (lanesOf k.lanes) }) := by
  refine endsWith_of (execFork x s) rfl rfl hi ?_
  rw [if_neg (by simpa using active), hy, hl, ha]
  simp only [pilot, free]
  rfl

end Fork

/-! ## PERMIT (R341) -/

section Permit
variable {x : Eng} {s : State} {k : Iss} (hi : Issues s x.ctl { regs := [(x.d.toNat, 1)] } k)
include hi

/-- A PERMIT of lanes that names an engine of its gang does what its form does. -/
theorem permit_ends {i : Instr} {body : Iss → Nat → State → State × Fate} {t : State} {f : Fate} (meaning : exec i s = permitInstr x s body) (active : k.lanes ≠ 0)
    (named : bitsOf x.imm.toNat 3 2 < (((issued s k { regs := [(x.d.toNat, 1)] }).gang? k.gang).map (·.size)).getD 1)
    (effect : body k (bitsOf x.imm.toNat 3 2) (issued s k { regs := [(x.d.toNat, 1)] }) = (t, f)) (goes : f ≠ .hold := by nofun) : EndsWith i s k t f := by
  refine endsWith_of (permitInstr x s body) meaning rfl hi ?_ goes
  rw [if_neg (by simpa using active), if_neg (by omega)]
  exact effect

theorem permit_idle {i : Instr} {body : Iss → Nat → State → State × Fate} (meaning : exec i s = permitInstr x s body) (idle : k.lanes = 0) :
    Completes i s k (issued s k { regs := [(x.d.toNat, 1)] }) :=
  endsWith_of (permitInstr x s body) meaning rfl hi (if_pos (by simpa using idle))

theorem permit_faults {i : Instr} {body : Iss → Nat → State → State × Fate} (meaning : exec i s = permitInstr x s body) (active : k.lanes ≠ 0)
    (unnamed : (((issued s k { regs := [(x.d.toNat, 1)] }).gang? k.gang).map (·.size)).getD 1 ≤ bitsOf x.imm.toNat 3 2) :
    EndsWith i s k (issued s k { regs := [(x.d.toNat, 1)] }) (.fault 0x04 k.lanes 0) := by
  refine endsWith_of (permitInstr x s body) meaning rfl hi ?_
  rw [if_neg (by simpa using active), if_pos (by exact unnamed)]

end Permit

/-- PERMIT.RSV as one of three ends. -/
def reserve (x : Eng) (k : Iss) (role : Nat) (s : State) : State × Fate :=
  let n := bitsOf x.imm.toNat 13 8
  let q := ((s.gang? k.gang).map (·.permitQ)).getD []
  let asked := (q.filter fun r => r.1 == k.agent && r.2.1 == role).foldl (fun m r => m + r.2.2) 0
  if rsvOf s k.gang role k.agent + asked + n > 32 then (s, .fault 0x20 k.lanes 0)
  else if q.all (fun r => r.2.1 != role) && s.permitsFree k.gang role ≥ n then
    (k.later (setRsv s k.gang role k.agent (rsvOf s k.gang role k.agent + n)) x.ctl { writes := laneWrites x.d.toNat (fun _ => BitVec.ofNat 32 n) (lanesOf k.lanes) }, .done)
  else (k.later (s.updGang k.gang fun y => { y with permitQ := y.permitQ ++ [(k.agent, role, n)] }) x.ctl { hold := .permit role n x.d.toNat k.lanes }, .done)

theorem exec_permitRsv (x : Eng) (s : State) : exec (.permitRsv x) s = permitInstr x s (reserve x) := rfl

/-! ## PERMIT_GRANT (R341) -/

/-- A request of some permits granted. -/
def granted (s : State) (g : GangKey) (role n m d : Nat) (lanes : Word) (p : Pend) : State :=
  { setRsv (s.updGang g fun y => { y with permitQ := y.permitQ.erase (n, role, m) }) g role n (rsvOf s g role n + m) with
    pend := [{ p with hold := .none, writes := laneWrites d (fun _ => BitVec.ofNat 32 m) (lanesOf lanes) }] }

/-- The one result outstanding is the request's own. -/
theorem permitGrant_of {s : State} {g : GangKey} {role n m d : Nat} {lanes : Word} {y : Gang} {p : Pend} (hy : s.gang? g = some y)
    (oldest : y.permitQ.find? (fun r => r.2.1 == role) = some (n, role, m)) (alone : s.pend = [p]) (own : p.agent = n) (waits : p.hold = .permit role m d lanes) :
    exec (.permitGrant g role) s = .next (if !gangRuns s g || s.permitsFree g role < m then s else granted s g role n m d lanes p) := by
  show execPermitGrant g role s = _
  unfold execPermitGrant
  rw [hy]
  simp only [Option.bind_some]
  rw [show (y.permitQ.find? fun (_, r, _) => r == role) = some (n, role, m) from oldest]
  simp only [alone, List.findSome?_cons, waits, own, beq_self_eq_true, Bool.and_self, if_true, Option.map_some]
  split
  · rfl
  · have served : updWhere (fun q => q.id == p.id) (fun q : Pend => { q with hold := .none, writes := laneWrites d (fun _ => BitVec.ofNat 32 m) (lanesOf lanes) }) s.pend
        = [{ p with hold := .none, writes := laneWrites d (fun _ => BitVec.ofNat 32 m) (lanesOf lanes) }] := by simp [updWhere, alone]
    exact congrArg (fun ps => Host.Outcome.next { setRsv (s.updGang g fun y => { y with permitQ := y.permitQ.erase (n, role, m) }) g role n (rsvOf s g role n + m) with pend := ps }) served

/-- Settles O40: each form under each of its conditions, and a grant by whether its permits are free. -/
theorem forksAndPermits : Obligations.ForksAndPermits := by
  unfold Obligations.ForksAndPermits
  refine ⟨?_, ?_, ?_, ?_⟩
  · intro x s k nd hi b
    refine ⟨fork_idle hi, fun y l a active hy hl ha => ⟨fork_faults hi active hy hl ha, fork_finds_none hi active hy hl ha, fun i pilot free => ?_⟩⟩
    obtain ⟨d, newest⟩ := newest_later k (forked x k b a l y.cluster i) x.ctl { writes := laneWrites x.d.toNat (fun _ => BitVec.ofNat 32 i) (lanesOf k.lanes) } List.getLast?_concat
    refine ⟨_, _, fork_starts hi active hy hl ha pilot free, leaves_later _ _ _ rfl, newest, rfl, rfl, rfl, rfl, rfl, ?_, rfl, fun r hr => get_forkRegs _ _ hr, rfl, rfl⟩
    simp [forkedProgram, newPilot]
  · intro x
    refine does_of (fun s => show execLrec x s = _ from rfl) fun k s => ?_
    by_cases idle : k.lanes = 0
    · rw [if_pos (beq_iff_eq.2 idle), if_pos idle]
    · rw [if_neg (fun h => idle (beq_iff_eq.1 h)), if_neg idle]
  · intro x i s k form nd hi b role n size q held asked gives
    have meaning : ∃ body, exec i s = permitInstr x s body := by
      simp only [List.mem_cons, List.not_mem_nil, or_false] at form
      obtain rfl | rfl | rfl := form
      · exact ⟨_, show execPermitQ x s = _ from rfl⟩
      · exact ⟨_, exec_permitRsv x s⟩
      · exact ⟨_, show execPermitRel x s = _ from rfl⟩
    obtain ⟨body, meaning⟩ := meaning
    refine ⟨permit_idle hi meaning, permit_faults hi meaning, fun active named => ⟨?_, ?_, ?_, ?_, ?_⟩⟩
    · rintro rfl
      exact permit_ends hi (show execPermitQ x s = _ from rfl) active named rfl
    · rintro rfl
      exact permit_ends hi (show execPermitRel x s = _ from rfl) active named rfl
    · rintro rfl many
      exact permit_ends hi (exec_permitRsv x s) active named (if_pos many)
    · rintro rfl fits first free
      refine permit_ends hi (exec_permitRsv x s) active named ((if_neg (Nat.not_lt.2 fits)).trans (if_pos ?_))
      exact Bool.and_eq_true_iff.2 ⟨List.all_eq_true.2 fun r hr => bne_iff_ne.2 (first r hr), decide_eq_true free⟩
    · rintro rfl fits waits
      refine permit_ends hi (exec_permitRsv x s) active named ((if_neg (Nat.not_lt.2 fits)).trans (if_neg ?_))
      simp only [Bool.and_eq_true, List.all_eq_true, bne_iff_ne, decide_eq_true_eq, not_and_or, not_forall, not_not, Nat.not_le]
      exact waits.imp_left fun ⟨r, hr, same⟩ => ⟨r, hr, same⟩
  · intro s g role n m d lanes y p hy oldest alone own waits
    rw [permitGrant_of hy oldest alone own waits]
    refine ⟨fun runs free => ⟨_, congrArg _ (if_neg ?_), rfl, _, gang?_updGang_same hy fun _ => rfl, rfl⟩, fun short => congrArg _ (if_pos ?_)⟩
    · simp [runs, free]
    · simp [short]

end Sys2Proof.Machine.Scheduling
end

section
/-! PROOFS. What stores that reach their homes, and releases and acquires of agents, leave alone (R226-R236). -/
-- One proof after another: in parallel, those of the whole text need more memory than one process may take.
set_option Elab.async false

namespace Sys2Proof.Machine.Scheduling
open Sys2Proof.Machine.NumberFormats

/-- A path but for what it is parked on. -/
def Path.SameButPark (p q : Path) : Prop := q = { p with park := q.park, bun := q.bun }

theorem Path.SameButPark.trans {p q r : Path} (h : Path.SameButPark p q) (h' : Path.SameButPark q r) : Path.SameButPark p r := by
  unfold Path.SameButPark at h h' ⊢
  exact h'.trans (by rw [h])

/-- A block but for its scratchpad. -/
def Block.SameButScr (b c : Block) : Prop := c = { b with scr := c.scr }

theorem Block.SameButScr.trans {b c d : Block} (h : Block.SameButScr b c) (h' : Block.SameButScr c d) : Block.SameButScr b d := by
  unfold Block.SameButScr at h h' ⊢
  exact h'.trans (by rw [h])

/-- The lanes that leave with a path's bundle, where it has one. -/
def Path.leaving (q : Path) : Option Word := q.bun.map (·.exits)

/-- An agent that has noted something of memory: its clock and its floors have not gone down, and its paths are as before but for what they are parked on. -/
structure Forward (x y : Agent) : Prop where
  same : y = { x with clock := y.clock, relTs := y.relTs, mon := y.mon, relFence := y.relFence, lastRel := y.lastRel, floors := y.floors, seen := y.seen, paths := y.paths }
  clock : x.clock ≤ y.clock
  floors : ∀ c, (∀ f ∈ x.floors, c ≤ f) → ∀ f ∈ y.floors, c ≤ f
  paths : ∃ g, (∀ p, Path.SameButPark p (g p)) ∧ y.paths = x.paths.map g
  leaving : y.paths.map Path.leaving = x.paths.map Path.leaving

theorem forward_of {x y : Agent} (same : y = { x with clock := y.clock, relTs := y.relTs, mon := y.mon, relFence := y.relFence, lastRel := y.lastRel, floors := y.floors, seen := y.seen, paths := y.paths } := by rfl)
    (clock : x.clock ≤ y.clock := by exact Nat.le_refl _) (floors : ∀ c, (∀ f ∈ x.floors, c ≤ f) → ∀ f ∈ y.floors, c ≤ f := by exact fun _ h => h)
    (paths : y.paths = x.paths := by rfl) : Forward x y := ⟨same, clock, floors, ⟨id, fun _ => rfl, by rw [paths, List.map_id]⟩, by rw [paths]⟩

theorem Forward.refl (x : Agent) : Forward x x := forward_of

theorem Forward.trans {x y z : Agent} (h : Forward x y) (h' : Forward y z) : Forward x z where
  same := h'.same.trans (by rw [h.same])
  clock := h.clock.trans h'.clock
  floors c low := h'.floors c (h.floors c low)
  paths := by
    obtain ⟨g, keeps, paths⟩ := h.paths
    obtain ⟨g', keeps', paths'⟩ := h'.paths
    exact ⟨g' ∘ g, fun p => (keeps p).trans (keeps' (g p)), by rw [paths', paths, List.map_map]⟩
  leaving := h'.leaving.trans h.leaving

theorem Forward.name {x y : Agent} (h : Forward x y) : y.num = x.num ∧ y.ended = x.ended := ⟨congrArg (·.num) h.same, congrArg (·.ended) h.same⟩

/-- Nothing but memory, its stamps, copies and releases, and what agents and collective copies have noted of it has changed; no store is under way that was
not before. -/
structure Performs (s t : State) : Prop where
  frame : t = { s with
    loc := t.loc, host := t.host, peer := t.peer, pool := t.pool, rkmem := t.rkmem, homes := t.homes, copies := t.copies, relaxed := t.relaxed
    releases := t.releases, poison := t.poison, extClk := t.extClk, seq := t.seq, agents := t.agents, blocks := t.blocks, colls := t.colls }
  agents : ∃ f, (∀ x, Forward x (f x)) ∧ t.agents = s.agents.map f
  blocks : ∃ f : Block → Block, (∀ b, Block.SameButScr b (f b)) ∧ t.blocks = s.blocks.map f
  relaxed : ∀ r ∈ t.relaxed, r ∈ s.relaxed
  seq : s.seq ≤ t.seq

theorem performs_of {s t : State} (frame : t = { s with
    loc := t.loc, host := t.host, peer := t.peer, pool := t.pool, rkmem := t.rkmem, homes := t.homes, copies := t.copies, relaxed := t.relaxed
    releases := t.releases, poison := t.poison, extClk := t.extClk, seq := t.seq, agents := t.agents, blocks := t.blocks, colls := t.colls } := by rfl)
    (agents : t.agents = s.agents := by rfl) (blocks : t.blocks = s.blocks := by rfl) (relaxed : ∀ r ∈ t.relaxed, r ∈ s.relaxed := by exact fun _ h => h)
    (seq : s.seq ≤ t.seq := by exact Nat.le_refl _) : Performs s t :=
  ⟨frame, ⟨id, fun x => .refl x, by rw [agents, List.map_id]⟩, ⟨id, fun _ => rfl, by rw [blocks, List.map_id]⟩, relaxed, seq⟩

theorem Performs.refl (s : State) : Performs s s := performs_of

theorem Performs.trans {s t u : State} (h : Performs s t) (h' : Performs t u) : Performs s u where
  frame := h'.frame.trans (by rw [h.frame])
  agents := by
    obtain ⟨f, fwd, agents⟩ := h.agents
    obtain ⟨f', fwd', agents'⟩ := h'.agents
    exact ⟨f' ∘ f, fun x => (fwd x).trans (fwd' (f x)), by rw [agents', agents, List.map_map]⟩
  blocks := by
    obtain ⟨f, scr, blocks⟩ := h.blocks
    obtain ⟨f', scr', blocks'⟩ := h'.blocks
    exact ⟨f' ∘ f, fun b => (scr b).trans (scr' (f b)), by rw [blocks', blocks, List.map_map]⟩
  relaxed r here := h.relaxed r (h'.relaxed r here)
  seq := h.seq.trans h'.seq

/-- An agent that is found after is the same agent, gone forward. -/
theorem Performs.agent? {s t : State} (h : Performs s t) (n : Nat) : ∃ f, (∀ x, Forward x (f x)) ∧ t.agent? n = (s.agent? n).map f := by
  obtain ⟨f, fwd, agents⟩ := h.agents
  refine ⟨f, fwd, Eq.trans ?_ (agent?_map s n f fun x => (fwd x).name)⟩
  unfold State.agent?
  rw [agents]

theorem Performs.found {s t : State} (h : Performs s t) {n : Nat} {x : Agent} (hx : s.agent? n = some x) : ∃ y, t.agent? n = some y ∧ Forward x y := by
  obtain ⟨f, fwd, found⟩ := h.agent? n
  exact ⟨f x, by rw [found, hx]; rfl, fwd x⟩

theorem Performs.was_found {s t : State} (h : Performs s t) {n : Nat} {y : Agent} (hy : t.agent? n = some y) : ∃ x, s.agent? n = some x ∧ Forward x y := by
  obtain ⟨f, fwd, found⟩ := h.agent? n
  rw [found] at hy
  obtain ⟨x, hx, rfl⟩ := Option.map_eq_some_iff.1 hy
  exact ⟨x, hx, fwd x⟩

theorem updAgent_performs (s : State) (n : Nat) {f : Agent → Agent} (fwd : ∀ x, Forward x (f x)) : Performs s (s.updAgent n f) where
  frame := rfl
  agents := ⟨fun x => if x.num == n && !x.ended then f x else x, fun x => by
    dsimp only
    split
    · exact fwd x
    · exact .refl x, rfl⟩
  blocks := ⟨id, fun _ => rfl, (List.map_id _).symm⟩
  relaxed _ h := h
  seq := Nat.le_refl _

theorem foldl_performs {α : Type} {f : State → α → State} (step : ∀ s a, Performs s (f s a)) (l : List α) (s : State) : Performs s (l.foldl f s) :=
  List.foldlRecOn l _ (.refl s) fun t h a _ => h.trans (step t a)

theorem noteWrite_performs (s : State) (sp : Sp) (a n : Nat) : Performs s (noteWrite s sp a n) where
  frame := rfl
  agents := by
    refine ⟨_, ?_, rfl⟩
    refine fun x => ⟨rfl, Nat.le_refl _, fun _ h => h, ?_, ?_⟩
    · refine ⟨_, ?_, rfl⟩
      exact fun _ => rfl
    · refine List.map_map.trans (List.map_congr_left fun q _ => ?_)
      exact (Option.map_map ..).trans rfl
  blocks := ⟨id, fun _ => rfl, (List.map_id _).symm⟩
  relaxed _ h := h
  seq := Nat.le_refl _

theorem setCells_performs (s : State) (sp : Sp) (c : List Host.Cell) : Performs s (s.setCells sp c) := by
  cases sp with
  | scr g r =>
    refine ⟨rfl, ⟨id, fun x => .refl x, (List.map_id _).symm⟩, ⟨fun b => if b.gang == g && b.role == r then { b with scr := c } else b, fun b => ?_, rfl⟩, fun _ h => h, Nat.le_refl _⟩
    dsimp only
    split <;> rfl
  | _ => exact performs_of

theorem writeOn_performs (s : State) (sp : Sp) (a : Nat) (bs : List Byte) : Performs s (s.writeOn sp a bs) :=
  ((setCells_performs s sp _).trans (t := s.setCells sp _) performs_of).trans (noteWrite_performs _ _ _ _)

theorem writeRaw_performs (s : State) (sp : Sp) (a : Nat) (bs : List Byte) : Performs s (s.writeRaw sp a bs) :=
  Performs.trans (t := s.endSequences sp a bs.length) performs_of (writeOn_performs _ _ _ _)

theorem setStamps_performs (s : State) (sp : Sp) (a n ts : Nat) : Performs s (s.setStamps sp a n ts) := by
  unfold State.setStamps
  exact foldl_performs (fun _ _ => performs_of) _ s

theorem see_performs (s : State) (n : Nat) (sp : Sp) (a len ts : Nat) : Performs s (s.see n sp a len ts) := by
  unfold State.see
  split
  · exact updAgent_performs s n fun _ => forward_of
  · exact .refl s

theorem seeParts_performs (s : State) (n : Nat) (ps : List ((Sp × Nat × Nat) × Nat)) : Performs s (s.seeParts n ps) := by
  unfold State.seeParts
  exact foldl_performs (fun s p => see_performs s n p.1.1 p.1.2.1 p.1.2.2 p.2) ps s

theorem performRelaxed_performs (s : State) (r : Relaxed) : Performs s (performRelaxed s r) := by
  unfold performRelaxed
  refine .trans ?_ (performs_of (seq := Nat.le_succ _))
  refine .trans ?_ (seeParts_performs ..)
  refine .trans ?_ (updAgent_performs _ _ fun _ => forward_of)
  exact (writeRaw_performs ..).trans (setStamps_performs ..)

theorem relaxed_see (s : State) (n : Nat) (sp : Sp) (a len ts : Nat) : (s.see n sp a len ts).relaxed = s.relaxed := by
  unfold State.see
  split <;> rfl

theorem relaxed_foldl {α : Type} {f : State → α → State} (step : ∀ s a, (f s a).relaxed = s.relaxed) (l : List α) (s : State) : (l.foldl f s).relaxed = s.relaxed :=
  List.foldlRecOn l _ (motive := fun t : State => t.relaxed = s.relaxed) rfl fun _ h a _ => (step _ a).trans h

theorem relaxed_performRelaxed (s : State) (r : Relaxed) : (performRelaxed s r).relaxed = s.relaxed := by
  unfold performRelaxed
  refine (relaxed_foldl (fun s p => relaxed_see s ..) _ _).trans ?_
  refine (relaxed_foldl (f := fun s l => s.setStamp r.sp l _) (fun _ _ => rfl) _ _).trans ?_
  cases r.sp <;> rfl

/-- The stores that are performed are under way no longer. -/
theorem relaxed_drainWhere (s : State) (p : Relaxed → Bool) : (drainWhere s p).relaxed = s.relaxed.filter fun r => !p r :=
  relaxed_foldl relaxed_performRelaxed _ _

theorem drainWhere_performs (s : State) (p : Relaxed → Bool) : Performs s (drainWhere s p) :=
  Performs.trans (t := { s with relaxed := s.relaxed.filter fun r => !p r }) (performs_of (relaxed := fun _ h => (List.mem_filter.1 h).1)) (foldl_performs performRelaxed_performs _ _)

theorem releaseAgent_performs (s : State) (n : Nat) : Performs s (releaseAgent s n) :=
  (drainWhere_performs s _).trans (updAgent_performs _ n fun x => forward_of (clock := Nat.le_max_left ..))

theorem fenceRelease_performs (s : State) (n scope storage : Nat) : Performs s (fenceRelease s n scope storage) :=
  (releaseAgent_performs s n).trans (updAgent_performs _ n fun _ => forward_of)

/-- A release leaves none of its agent's relaxed stores under way. -/
theorem relaxed_fenceRelease (s : State) (n scope storage : Nat) : (fenceRelease s n scope storage).relaxed = s.relaxed.filter fun r => !(r.agent == n) :=
  relaxed_drainWhere s _

theorem raised_floors {l : List Nat} {g : Nat → Nat → Nat} (up : ∀ k f, f ≤ g k f) (c : Nat) (low : ∀ f ∈ l, c ≤ f) : ∀ f ∈ l.mapIdx g, c ≤ f := by
  intro f hf
  obtain ⟨i, hi, rfl⟩ := List.mem_mapIdx.1 hf
  exact (low _ (List.getElem_mem hi)).trans (up _ _)

theorem syncWith_performs (s : State) (r : Release) (y scope storage : Nat) : Performs s (syncWith s r y scope storage) := by
  unfold syncWith
  split
  · exact updAgent_performs s y fun x => forward_of (clock := Nat.le_max_left ..) (floors := fun c low => raised_floors (fun k f => by split <;> omega) c low)
  · exact .refl s

theorem fenceAcquire_performs (s : State) (n scope storage : Nat) : Performs s (fenceAcquire s n scope storage) :=
  (drainWhere_performs s _).trans (foldl_performs (fun s r => syncWith_performs s r n scope storage) _ _)

theorem acquireAll_performs (s : State) (n : Nat) : Performs s (acquireAll s n) :=
  updAgent_performs s n fun x => forward_of (floors := fun c low f hf => by
    obtain ⟨g, hg, rfl⟩ := List.mem_map.1 hf
    exact (low g hg).trans (Nat.le_max_left ..))

end Sys2Proof.Machine.Scheduling
end

section
/-! PROOFS. Barriers and rendezvous: what a meeting orders, and how an arrival is accepted (R333-R335, R337). -/
-- One proof after another: in parallel, those of the whole text need more memory than one process may take.
set_option Elab.async false

namespace Sys2Proof.Machine.Scheduling
open Sys2Proof.Machine.NumberFormats Sys2Proof.Machine.MemoryModel

/-! ## Meetings (R335) -/

/-- The releases of those that arrive. -/
def arrive (s : State) (ns : List Nat) (scope : Nat) : State := ns.foldl (fun s n => fenceRelease s n scope 4) s

/-- One departs, with at least the clock that the arrivals bring. -/
def depart (clock scope : Nat) (s : State) (n : Nat) : State :=
  fenceAcquire (acquireAll (s.updAgent n fun x => { x with clock := max x.clock clock }) n) n scope 4

/-- The newest clock of those that have arrived. -/
def meetingClock (s : State) (ns : List Nat) : Nat := ns.foldl (fun m n => max m (((s.agent? n).map (·.clock)).getD 0)) 0

theorem meetAll_eq (s : State) (ns : List Nat) (scope : Nat) :
    meetAll s ns scope = ns.foldl (depart (meetingClock (arrive s ns scope) ns) scope) (arrive s ns scope) := rfl

theorem arrive_performs (s : State) (ns : List Nat) (scope : Nat) : Performs s (arrive s ns scope) :=
  foldl_performs (fun s n => fenceRelease_performs s n scope 4) ns s

theorem raise_performs (clock : Nat) (s : State) (n : Nat) : Performs s (s.updAgent n fun x => { x with clock := max x.clock clock }) :=
  updAgent_performs s n fun _ => forward_of (clock := Nat.le_max_left ..)

theorem depart_performs (clock scope : Nat) (s : State) (n : Nat) : Performs s (depart clock scope s n) :=
  ((raise_performs clock s n).trans (acquireAll_performs _ n)).trans (fenceAcquire_performs ..)

theorem meetAll_performs (s : State) (ns : List Nat) (scope : Nat) : Performs s (meetAll s ns scope) := by
  rw [meetAll_eq]
  exact (arrive_performs s ns scope).trans (foldl_performs (depart_performs _ scope) _ _)

/-- No relaxed store of those that arrive is left. -/
theorem relaxed_arrive {r : Relaxed} (scope : Nat) : ∀ (ns : List Nat) {s : State}, r ∈ (arrive s ns scope).relaxed → r.agent ∉ ns
  | [], _, _ => List.not_mem_nil
  | n :: ns, s, h => by
    have before : r ∈ (fenceRelease s n scope 4).relaxed := (arrive_performs _ ns scope).relaxed r h
    rw [relaxed_fenceRelease] at before
    have other : r.agent ≠ n := by simpa using (List.mem_filter.1 before).2
    exact List.not_mem_cons_of_ne_of_not_mem other (relaxed_arrive scope ns h)

/-- One that departs has the meeting's clock, and its relaxed loads take no copy from before. -/
theorem departed {clock scope : Nat} {s t : State} {n : Nat} {y : Agent} (after : Performs (depart clock scope s n) t) (hy : t.agent? n = some y) :
    clock ≤ y.clock ∧ ∀ f ∈ y.floors, s.seq ≤ f := by
  have rest : Performs (acquireAll (s.updAgent n fun x => { x with clock := max x.clock clock }) n) t := (fenceAcquire_performs ..).trans after
  obtain ⟨z, hz, fwd⟩ := rest.was_found hy
  have raised := agent?_updAgent_same s n (fun x => { x with clock := max x.clock clock }) fun _ => ⟨rfl, rfl⟩
  have floored := agent?_updAgent_same (s.updAgent n fun x => { x with clock := max x.clock clock }) n (fun x => { x with floors := x.floors.map fun f => max f s.seq }) fun _ => ⟨rfl, rfl⟩
  rw [raised, Option.map_map] at floored
  obtain ⟨x, -, rfl⟩ := Option.map_eq_some_iff.1 (floored.symm.trans hz)
  refine ⟨(Nat.le_max_right ..).trans fwd.clock, fwd.floors s.seq fun f hf => ?_⟩
  obtain ⟨g, -, rfl⟩ := List.mem_map.1 hf
  exact Nat.le_max_right ..

theorem all_departed {clock scope : Nat} {n : Nat} {y : Agent} : ∀ {ns : List Nat} {s : State}, n ∈ ns → (ns.foldl (depart clock scope) s).agent? n = some y →
    clock ≤ y.clock ∧ ∀ f ∈ y.floors, s.seq ≤ f
  | [], _, h, _ => absurd h List.not_mem_nil
  | k :: ns, s, h, hy => by
    by_cases later : n ∈ ns
    · obtain ⟨clocks, floors⟩ := all_departed later hy
      exact ⟨clocks, fun f hf => (depart_performs clock scope s k).seq.trans (floors f hf)⟩
    · obtain rfl : n = k := (List.mem_cons.1 h).resolve_right later
      exact departed (foldl_performs (depart_performs clock scope) ns _) hy

/-- A meeting brings every clock of those that met to each of them. -/
theorem meetAll_orders {s : State} {ns : List Nat} {scope n m : Nat} {x y : Agent} (hn : n ∈ ns) (hm : m ∈ ns) (hx : s.agent? n = some x)
    (hy : (meetAll s ns scope).agent? m = some y) : x.clock ≤ y.clock ∧ ∀ f ∈ y.floors, s.seq ≤ f := by
  obtain ⟨z, hz, fwd⟩ := (arrive_performs s ns scope).found hx
  have brought : z.clock ≤ meetingClock (arrive s ns scope) ns := by
    have held := (le_foldl_max (fun n => (((arrive s ns scope).agent? n).map (·.clock)).getD 0) ns 0).2 n hn
    rwa [hz] at held
  rw [meetAll_eq] at hy
  obtain ⟨clocks, floors⟩ := all_departed hm hy
  exact ⟨(fwd.clock.trans brought).trans clocks, fun f hf => (arrive_performs s ns scope).seq.trans (floors f hf)⟩

/-! ## The acceptance of an arrival (R337) -/

theorem eraseDups_of_all_eq {α : Type} [BEq α] [LawfulBEq α] {a : α} {l : List α} (ne : l ≠ []) (h : ∀ b ∈ l, b = a) : l.eraseDups = [a] := by
  cases l with
  | nil => exact absurd rfl ne
  | cons b l =>
    obtain rfl := h b List.mem_cons_self
    have rest : l.filter (fun c => !c == b) = [] := List.filter_eq_nil_iff.2 fun c hc => by simp [h c (List.mem_cons_of_mem _ hc)]
    rw [List.eraseDups_cons, rest, List.eraseDups_nil]

/-- The count that a path waiting at the point names. -/
def rdzvCount (k : Nat) (p : Path) : Option Nat := match p.wait with | some (.rdzv j m _) => if j == k then some m else none | _ => none

/-- The path's arrival is accepted. -/
def accepted (k : Nat) (p : Path) : Path := match p.wait with | some (.rdzv j m _) => if j == k then { p with wait := some (.rdzv j m true) } else p | _ => p

theorem rdzvCount_eq_some {k m : Nat} {p : Path} : rdzvCount k p = some m ↔ ∃ b, p.wait = some (.rdzv k m b) := by
  unfold rdzvCount
  split
  · next j c b h =>
    rw [h]
    by_cases same : j = k
    · subst same
      simp [eq_comm]
    · simp [same]
  · next other => exact ⟨nofun, fun ⟨b, h⟩ => absurd h (other _ _ _)⟩

/-- Every path that waits at the point names one count, and one does. -/
theorem rdzv_counts {x : Agent} {k m : Nat} (at_ : atRdzv x k = true) (same : ∀ p ∈ x.paths, ∀ n b, p.wait = some (.rdzv k n b) → n = m) :
    (x.paths.filterMap (rdzvCount k)).eraseDups = [m] := by
  refine eraseDups_of_all_eq (fun none => ?_) fun c hc => ?_
  · obtain ⟨p, hp, waits⟩ := List.any_eq_true.1 (Bool.and_eq_true_iff.1 at_).2
    split at waits
    · next j c h =>
      obtain rfl : j = k := beq_iff_eq.1 waits
      exact absurd (rdzvCount_eq_some.2 ⟨_, h⟩) (by simp [List.filterMap_eq_nil_iff.1 none p hp])
    · exact absurd waits nofun
  · obtain ⟨p, hp, counts⟩ := List.mem_filterMap.1 hc
    obtain ⟨b, waits⟩ := rdzvCount_eq_some.1 counts
    exact same p hp c b waits

theorem wait_accepted (k n : Nat) (p : Path) : (accepted k p).wait ≠ some (.rdzv k n false) := by
  unfold accepted
  split
  · next j c b h =>
    by_cases same : j = k
    · simp [same]
    · rw [if_neg (by simpa using same), h]
      simp [same]
  · next other => exact fun h => other _ _ _ h

/-- The phases of a gang with one more arrival: in the open phase of the point, or in a new one. -/
def phasesWith (k m n : Nat) (y : Gang) : List (Nat × Nat × List Nat) :=
  match y.rdzv.find? fun p => p.1 == k && p.2.2.length < p.2.1 with
  | some e => y.rdzv.map fun f => if f = e then (e.1, e.2.1, e.2.2 ++ [n]) else f
  | none => y.rdzv ++ [(k, m, [n])]

/-- The gang with the agent's arrival noted. -/
def arrived (phase : Option (Nat × Nat × List Nat)) (k m n : Nat) (z : Gang) : Gang :=
  match phase with
  | some e => { z with rdzv := z.rdzv.map fun f => if some f == some e then (f.1, f.2.1, f.2.2 ++ [n]) else f }
  | none => { z with rdzv := z.rdzv ++ [(k, m, [n])] }

section Accept
variable {s : State} {k m : Nat} {x : Agent} {y : Gang} (hx : s.agent? x.num = some x) (at_ : atRdzv x k = true) (hy : s.gang? x.gang = some y)
  (same : ∀ p ∈ x.paths, ∀ n b, p.wait = some (.rdzv k n b) → n = m)
include hx at_ hy same

/-- An arrival at the open phase of its point, or at none. -/
theorem rdzvAccept_arrival : rdzvAccept s x.num k = match y.rdzv.find? fun p => p.1 == k && p.2.2.length < p.2.1 with
    | some e => if e.2.1 != m then rdzvFail s x.num k else
        ((fenceRelease s x.num 2 4).updGang x.gang fun z => { z with rdzv := z.rdzv.map fun f => if some f == some e then (f.1, f.2.1, f.2.2 ++ [x.num]) else f }).updAgent x.num fun z =>
          { z with paths := z.paths.map (accepted k) }
    | none => ((fenceRelease s x.num 2 4).updGang x.gang fun z => { z with rdzv := z.rdzv ++ [(k, m, [x.num])] }).updAgent x.num fun z =>
          { z with paths := z.paths.map (accepted k) } := by
  unfold rdzvAccept
  rw [hx]
  dsimp only
  rw [if_neg (by simp [at_]), hy]
  split
  · next m' z counts gang =>
    obtain rfl : z = y := (Option.some.inj gang).symm
    obtain rfl : m' = m := (List.cons.inj (counts.symm.trans (rdzv_counts at_ same))).1
    cases phase : z.rdzv.find? fun p => p.1 == k && p.2.2.length < p.2.1 with
    | none => rfl
    | some e => rfl
  · next _ other => exact (other m y (rdzv_counts at_ same) rfl).elim

theorem rdzvAccept_mismatch {e : Nat × Nat × List Nat} (phase : (y.rdzv.find? fun p => p.1 == k && p.2.2.length < p.2.1) = some e) (other : e.2.1 ≠ m) :
    rdzvAccept s x.num k = rdzvFail s x.num k := by
  rw [rdzvAccept_arrival hx at_ hy same, phase]
  exact if_pos (by simpa using other)

theorem rdzvAccept_accepts (agree : ∀ e, (y.rdzv.find? fun p => p.1 == k && p.2.2.length < p.2.1) = some e → e.2.1 = m) :
    ∃ f : Gang → Gang, (∀ z, (f z).key = z.key) ∧ (f y).rdzv = phasesWith k m x.num y
      ∧ rdzvAccept s x.num k = ((fenceRelease s x.num 2 4).updGang x.gang f).updAgent x.num fun z => { z with paths := z.paths.map (accepted k) } := by
  rw [rdzvAccept_arrival hx at_ hy same]
  unfold phasesWith
  cases phase : y.rdzv.find? fun p => p.1 == k && p.2.2.length < p.2.1 with
  | none => exact ⟨arrived none k m x.num, fun _ => rfl, rfl, rfl⟩
  | some e =>
    refine ⟨arrived (some e) k m x.num, fun _ => rfl, ?_, if_neg (by simp [agree e phase])⟩
    refine List.map_congr_left fun f _ => ?_
    by_cases this : f = e <;> simp [this]

end Accept

/-- Settles O38: a meeting's releases, then its acquires, and the arrivals accepted one by one. -/
theorem barriersAndRendezvousPass : Obligations.BarriersAndRendezvousPass := by
  unfold Obligations.BarriersAndRendezvousPass
  refine ⟨⟨?_, ?_, ?_⟩, ?_, ?_, ?_, ?_⟩
  · exact fun x s k hi => endsWith_of (execBar x s) rfl rfl hi rfl
  · exact fun x s k hi => endsWith_of (execGbar x s) rfl rfl hi rfl
  · intro s g role gang k ws point ns t
    refine ⟨fun runs ne arrived => ?_, fun ⟨x, hx, away⟩ => ?_, fun r hr => ?_, fun n x m y hn hm hx hy => meetAll_orders hn hm hx hy⟩
    · have complete : barrierDone ws point = true := by simpa [barrierDone, ne] using arrived
      exact if_pos (Bool.and_eq_true_iff.2 ⟨runs, complete⟩)
    · refine if_neg fun h => away ?_
      exact List.all_eq_true.1 (Bool.and_eq_true_iff.1 (Bool.and_eq_true_iff.1 h).2).2 x hx
    · exact relaxed_arrive _ ns ((foldl_performs (depart_performs _ _) ns _).relaxed r hr)
  · exact fun x s k hi => endsWith_of (execRdzv x s) rfl rfl hi rfl
  · intro s g k runs t full
    have go : ¬(!gangRuns s g) = true := by simp [runs]
    refine ⟨fun none => ?_, fun c l found => ?_⟩
    · show execRdzvPhaseComplete g k s = _
      unfold execRdzvPhaseComplete
      rw [if_neg go]
      dsimp only
      rw [show ((t.gang? g).bind fun y => y.rdzv.find? fun (j, c, l) => j == k && l.length ≥ c) = _ from none]
      rfl
    · show execRdzvPhaseComplete g k s = _
      unfold execRdzvPhaseComplete
      rw [if_neg go]
      dsimp only
      rw [show ((t.gang? g).bind fun y => y.rdzv.find? fun (j, c, l) => j == k && l.length ≥ c) = _ from found]
      rfl
  · intro s k x hx away
    unfold rdzvAccept
    simp [hx, away]
  · intro s k m x y hx at_ hy same phase u t
    refine ⟨fun e found other => rdzvAccept_mismatch hx at_ hy same found other, fun agree => ?_⟩
    obtain ⟨f, key, phases, accept⟩ := rdzvAccept_accepts hx at_ hy same agree
    have regs : SameRegs u t := fun n => by
      rw [show t = _ from accept]
      exact (regsOf_updAgent _ _ _ (fun z => { z with paths := z.paths.map (accepted k) }) (fun _ => ⟨rfl, rfl⟩) fun _ => rfl).trans (regsOf_agents rfl n)
    obtain ⟨v, hv, fwd⟩ := (fenceRelease_performs s x.num 2 4).found hx
    refine ⟨?_, regs, ?_, ?_, ⟨v, { v with paths := v.paths.map (accepted k) }, hv, ?_, rfl, rfl, fwd.clock, fun p hp n => ?_⟩, ?_⟩
    · rw [show t = _ from accept]
      exact sameMemory_of
    · rw [show t = _ from accept]
      rfl
    · rw [show t = _ from accept]
      intro r hr
      have left : r ∈ (fenceRelease s x.num 2 4).relaxed := hr
      rw [relaxed_fenceRelease] at left
      simpa using (List.mem_filter.1 left).2
    · rw [show t = _ from accept, agent?_updAgent_same _ _ (fun z => { z with paths := z.paths.map (accepted k) }) fun _ => ⟨rfl, rfl⟩]
      exact congrArg _ hv
    · obtain ⟨q, -, rfl⟩ := List.mem_map.1 hp
      exact wait_accepted k n q
    · have found : u.gang? x.gang = some y := by
        have gangs : u.gangs = s.gangs := congrArg (·.gangs) (fenceRelease_performs s x.num 2 4).frame
        unfold State.gang?
        rw [gangs]
        exact hy
      rw [show t = _ from accept]
      exact ⟨f y, gang?_updGang_same found key, phases⟩

end Sys2Proof.Machine.Scheduling
end

section
/-! PROOFS. What a TLBI leaves of translations, and what it waits for (R401, R402). -/
-- One proof after another: in parallel, those of the whole text need more memory than one process may take.
set_option Elab.async false

namespace Sys2Proof.Machine.Scheduling

theorem lanesOf_zero : lanesOf 0 = [] := by decide

/-- R402 steps 1 to 3: the release, the translations dropped, every store that waits performed. -/
def tlbiState (s : State) (n : Nat) (i : Inv) : State := drainWhere (dropXlates (fenceRelease s n 3 4) i) fun _ => true

theorem tlbi_held {s : State} (k : Iss) {i : Inv} (used : oldUsers s i ≠ []) : tlbi k s i = (s, .hold) :=
  if_pos (by simpa using used)

theorem tlbi_unused {s : State} (k : Iss) {i : Inv} (unused : oldUsers s i = []) :
    tlbi k s i = (tlbiState s k.agent i, match lockHolders (tlbiState s k.agent i) i with | [] => .done | js => .wait (.locks js)) := by
  refine (if_neg (by simp [unused])).trans ?_
  dsimp only
  cases holders : lockHolders (tlbiState s k.agent i) i <;> simp only [tlbiState] at holders ⊢ <;> simp only [holders]

theorem tlbi_state {s : State} (k : Iss) {i : Inv} (unused : oldUsers s i = []) : (tlbi k s i).1 = tlbiState s k.agent i := by
  rw [tlbi_unused k unused]

theorem tlb_tlbiState (s : State) (n : Nat) (i : Inv) :
    (tlbiState s n i).tlb = (fenceRelease s n 3 4).tlb.filter fun t => !i.covers t.asn (t.page * 2 ^ t.leaf.logSize) (2 ^ t.leaf.logSize) :=
  congrArg (·.tlb) (drainWhere_performs (dropXlates (fenceRelease s n 3 4) i) fun _ => true).frame

theorem relaxed_tlbiState (s : State) (n : Nat) (i : Inv) : (tlbiState s n i).relaxed = [] := by
  unfold tlbiState
  rw [relaxed_drainWhere]
  simp

/-- How a TLBI ends that names `what`, once its operands are in order. -/
theorem tlbi_ends {i : Instr} {s : State} {k : Iss} {g : Ctl} {nd : Need} {body : Iss → State → State × Fate} {what : Inv} (run : Host.Outcome State Fault Refusal)
    (meaning : exec i s = run) (frame : run = instr s g nd body) (issues : Issues s g nd k) (effect : body k (issued s k nd) = tlbi k (issued s k nd) what) :
    let t := tlbiState (issued s k nd) k.agent what
    (oldUsers (issued s k nd) what ≠ [] → exec i s = .next { unissue s k with cur := none })
    ∧ (oldUsers (issued s k nd) what = [] → lockHolders t what = [] → Completes i s k t)
    ∧ (oldUsers (issued s k nd) what = [] → lockHolders t what ≠ [] → EndsWith i s k t (.wait (.locks (lockHolders t what)))) := by
  refine ⟨fun used => unissued_of run meaning frame issues (effect.trans (tlbi_held k used)), fun unused free => ?_, fun unused locked => ?_⟩
  · refine endsWith_of run meaning frame issues ((effect.trans (tlbi_unused k unused)).trans ?_)
    rw [free]
  · refine endsWith_of run meaning frame issues ((effect.trans (tlbi_unused k unused)).trans ?_)
    cases holders : lockHolders (tlbiState (issued s k nd) k.agent what) what with
    | nil => exact absurd holders locked
    | cons => rfl

/-- Settles O49: the drop leaves no translation named, and the stores performed after it bring none back. -/
theorem tlbInvalidationsDropTranslations : Obligations.TlbInvalidationsDropTranslations := by
  unfold Obligations.TlbInvalidationsDropTranslations
  refine ⟨fun s k i used => tlbi_held k used, fun s k i unused => ?_, ?_, ?_⟩
  · rw [tlbi_state k unused]
    refine ⟨relaxed_tlbiState s k.agent i, fun t ht => ?_⟩
    rw [tlb_tlbiState] at ht
    simpa using (List.mem_filter.1 ht).2
  · intro s k i unused u t ht apart
    rw [tlbi_state k unused, tlb_tlbiState]
    exact List.mem_filter.2 ⟨ht, by rw [apart]; rfl⟩
  · intro x s k i rs which nd hi b
    simp only [List.mem_cons, Prod.mk.injEq, List.not_mem_nil, or_false] at which
    rcases which with ⟨rfl, rfl⟩ | ⟨rfl, rfl⟩ | ⟨rfl, rfl⟩
    · refine ⟨fun idle => endsWith_of (execTlbiVa x s) rfl rfl hi (by simp only [idle, lanesOf_zero]; rfl), ?_⟩
      intro l rest lanes va len asn what
      have named : what = .range asn va len := if_pos rfl
      clear_value what
      subst named
      intro t
      have ends (inside : va + len ≤ 2 ^ 57 ∧ va < 2 ^ 57) := tlbi_ends (i := .tlbiVa x) (what := .range asn va len) (execTlbiVa x s) rfl rfl hi (by
        simp only [lanes]
        exact if_neg (by simp; omega))
      refine ⟨fun _ outside => endsWith_of (execTlbiVa x s) rfl rfl hi ?_, fun inside => (ends (inside rfl)).1, fun inside => (ends (inside rfl)).2.1, fun inside => (ends (inside rfl)).2.2⟩
      simp only [lanes]
      exact if_pos (by simp; omega)
    · refine ⟨fun idle => endsWith_of (execTlbiAsn x s) rfl rfl hi (by simp only [idle, lanesOf_zero]; rfl), ?_⟩
      intro l rest lanes va len asn what
      have named : what = .asn asn := by simp [what]
      clear_value what
      subst named
      intro t
      obtain ⟨held, done, waits⟩ := tlbi_ends (i := .tlbiAsn x) (what := .asn asn) (execTlbiAsn x s) rfl rfl hi (by simp only [lanes]; rfl)
      exact ⟨nofun, fun _ => held, fun _ => done, fun _ => waits⟩
    · refine ⟨fun idle => endsWith_of (execTlbiAll x s) rfl rfl hi (if_pos (beq_iff_eq.2 idle)), ?_⟩
      intro l rest lanes va len asn what
      have named : what = .all := by simp [what]
      clear_value what
      subst named
      intro t
      have active : k.lanes ≠ 0 := fun idle => by simp [idle, lanesOf] at lanes
      obtain ⟨held, done, waits⟩ := tlbi_ends (i := .tlbiAll x) (what := .all) (execTlbiAll x s) rfl rfl hi (if_neg (by simpa using active))
      exact ⟨nofun, fun _ => held, fun _ => done, fun _ => waits⟩

end Sys2Proof.Machine.Scheduling
end

section
/-! PROOFS. Outputs, flips and wake trails (R421-R427). -/
-- One proof after another: in parallel, those of the whole text need more memory than one process may take.
set_option Elab.async false

namespace Sys2Proof.Machine.HostInterface

theorem not_lt_four {o : Nat} (h : o < 4) : ¬o ≥ 4 := Nat.not_le.2 h

/-! ## Outputs -/

theorem not_bnot {b : Bool} (h : b = true) : ¬(!b) = true := by simp [h]

theorem out_disp (s : State) (o : Nat) : (s.disp o).out = o := by
  unfold State.disp findD
  cases found : s.disps.find? fun d => d.out == o with
  | none => rfl
  | some d => simpa using List.find?_some found

/-- An output that is there reads as it was last set. -/
theorem disp_setDisp {s : State} {d : Disp} (here : ∃ e ∈ s.disps, e.out = d.out) : (s.setDisp d).disp d.out = d := by
  have found : (s.setDisp d).disps.find? (fun e => e.out == d.out) = (s.disps.find? fun e => e.out == d.out).map fun e => if e.out == d.out then d else e :=
    find_map_of _ _ (fun e => by split <;> simp_all) s.disps
  obtain ⟨e, he, out⟩ := here
  unfold State.disp findD
  rw [found]
  cases first : s.disps.find? fun e => e.out == d.out with
  | none => exact absurd out (by simpa using List.find?_eq_none.1 first e he)
  | some f => simp [show f.out = d.out by simpa using List.find?_some first]

/-- The machine with a flip accepted: the output's next frame, and the trails of its tag. -/
def flipped (s : State) (o base : Nat) (tag : BitVec 32) : State :=
  let u := { s with disps := s.disps.map (Disp.forget tag) }
  let u := u.setDisp { u.disp o with error := false, pending := some (BitVec.ofNat 64 base, some tag) }
  { u with trails := updWhere (fun (t : Trail) => t.tag == tag) (fun t => { t with out := o, flipped := true, tflip := if t.flipped then t.tflip else u.tick / 16 }) u.trails }

theorem disp_flipped {s : State} {o : Nat} (base : Nat) (tag : BitVec 32) (here : ∃ d ∈ s.disps, d.out = o) :
    ((flipped s o base tag).disp o).pending = some (BitVec.ofNat 64 base, some tag) ∧ ((flipped s o base tag).disp o).error = false := by
  obtain ⟨d, hd, out⟩ := here
  let u : State := { s with disps := s.disps.map (Disp.forget tag) }
  let e : Disp := { u.disp o with error := false, pending := some (BitVec.ofNat 64 base, some tag) }
  have names : e.out = o := out_disp u o
  have set : (u.setDisp e).disp e.out = e := disp_setDisp ⟨d.forget tag, List.mem_map_of_mem hd, out.trans names.symm⟩
  rw [names] at set
  exact ⟨congrArg (·.pending) set, congrArg (·.error) set⟩

theorem trails_flipped (s : State) (o base : Nat) {tag : BitVec 32} {r : Trail} (here : r ∈ (flipped s o base tag).trails) (tagged : r.tag = tag) : r.flipped ∧ r.out = o := by
  obtain ⟨t, -, rfl⟩ := List.mem_map.1 here
  by_cases own : t.tag = tag
  · simp [own]
  · rw [if_neg (by simpa using own)] at tagged
    exact absurd tagged own

/-- What a write of AUXCMD does: nothing, or a transaction is under way. -/
theorem auxStart_ignored {s : State} {o code : Nat} {v : Dword} (h : 4 ≤ o ∨ ((barWrite s).disp o).auxBusy ≠ none ∨ bitsOf v.toNat 23 20 ≠ code) :
    auxStart s o code v = barWrite s :=
  if_pos (by simpa [or_assoc, Option.isSome_iff_ne_none] using h)

theorem auxStart_starts {s : State} {o code : Nat} {v : Dword} (out : o < 4) (idle : ((barWrite s).disp o).auxBusy = none) (request : bitsOf v.toNat 23 20 = code) :
    auxStart s o code v = (barWrite s).setDisp { (barWrite s).disp o with
      auxBusy := some (code, bitsOf v.toNat 19 0, bitsOf v.toNat 27 24 + 1), auxstat := ((barWrite s).disp o).auxstat ||| 1 } :=
  if_neg (by simp [idle, request]; omega)

/-- Settles O57: each happening's checks in turn, and what it sets. -/
theorem outputsTrainFlipAndStampTrails : Obligations.OutputsTrainFlipAndStampTrails := by
  unfold Obligations.OutputsTrainFlipAndStampTrails
  refine ⟨?_, ?_, ?_, ?_, ?_, ?_, ?_, ?_, ?_, ?_, ?_, ?_⟩
  · intro s o v b d w off
    refine ⟨fun out => if_pos out, fun out dis => ?_, fun out en bad => ?_, fun out en ok => ?_⟩
    all_goals refine (if_neg (not_lt_four out)).trans ?_
    · exact if_pos (congrArg (! ·) dis)
    · exact (if_neg (not_bnot en)).trans (if_pos (congrArg (! ·) bad))
    · exact (if_neg (not_bnot en)).trans (if_neg (not_bnot ok))
  · intro s o rate lanes d out training hpd
    have goes : ¬(decide (o ≥ 4) || !d.training || !d.hpd) = true := by simp [training, hpd, out]
    refine ⟨(if_neg goes).trans (if_pos rfl), fun within lanes_ => ⟨fun short => ?_, fun enough => ?_⟩⟩
    all_goals
      refine (if_neg goes).trans ((if_neg (by decide)).trans ((if_neg ?_).trans ?_))
      · simp [within, lanes_, d]
    · exact if_pos short
    · exact if_neg (Nat.not_lt.2 enough)
  · exact fun s o => ⟨rfl, rfl⟩
  · intro s o code v i which b d
    have starts : exec i s = .next (auxStart s o code v) := by
      simp only [List.mem_cons, Prod.mk.injEq, List.not_mem_nil, or_false] at which
      rcases which with ⟨rfl, rfl⟩ | ⟨rfl, rfl⟩ | ⟨rfl, rfl⟩ | ⟨rfl, rfl⟩ | ⟨rfl, rfl⟩ | ⟨rfl, rfl⟩ <;> rfl
    exact ⟨fun h => starts.trans (congrArg _ (auxStart_ignored h)), fun out idle request => starts.trans (congrArg _ (auxStart_starts out idle request))⟩
  · intro s o reply bs
    refine ⟨fun code a n busy out re => ?_, fun idle => ?_⟩
    · show execAuxReply o reply bs s = _
      unfold execAuxReply
      simp only [busy]
      rw [if_neg (by simp; omega)]
      have read : (auxReads code && reply == 0) = decide (code % 2 = 1 ∧ reply = 0) := by simp [auxReads, Bool.beq_eq_decide_eq]
      simp only [read, decide_eq_true_eq]
      rfl
    · show execAuxReply o reply bs s = _
      unfold execAuxReply
      simp only [idle]
      rfl
  · intro s v b o base
    refine ⟨fun out => if_pos out, fun inside there => ⟨flipped b o base (v.setWidth 32), if_neg (Nat.not_lt.2 inside), ?_⟩⟩
    obtain ⟨pending, error⟩ := disp_flipped base (v.setWidth 32) there
    exact ⟨pending, error, fun r hr tagged => trails_flipped b o base hr tagged⟩
  · intro s o
    refine ⟨fun h => ?_, fun out scans a g pending => ?_⟩
    · refine if_pos ?_
      simpa using h
    · show execFrameBoundary o s = _
      unfold execFrameBoundary
      rw [if_neg (by simp [scans, out])]
      simp only [pending]
      rfl
  · intro s o g
    show (_ → execFirstPixel o s = _) ∧ ∀ r, _ → _ → _ → (_ → execFirstPixel o s = _)
    unfold execFirstPixel
    refine ⟨fun none => by simp only [none]; rfl, fun r first out scans => ?_⟩
    intro found
    simp only [first]
    rw [if_neg (by simp [scans, out]), found]
    rfl
  · intro s v b
    refine ⟨fun off h => if_pos (congrArg (! ·) off), fun on => ⟨?_, ?_⟩⟩
    · exact (if_neg (not_bnot on)).trans (if_neg (by decide))
    · exact (if_neg (not_bnot on)).trans (if_pos rfl)
  · intro s r open_
    show (_ → execTrailTimeout r.tag s = _) ∧ (_ → execTrailTimeout r.tag s = _)
    unfold execTrailTimeout
    simp only [open_]
    exact ⟨fun late => if_pos late, fun early => if_neg (Nat.not_le.2 early)⟩
  · intro s v log b
    refine ⟨fun off => if_pos (congrArg (! ·) off), fun on => ⟨_, if_neg (not_bnot on), rfl, ?_⟩⟩
    cases log <;> exact ⟨rfl, rfl, rfl, rfl⟩
  · intro s v b
    refine ⟨fun on lo hi => if_neg ?_, fun h => if_pos ?_⟩
    · rw [not_bnot on |> Bool.eq_false_iff.2, Bool.false_or, decide_eq_false (Nat.not_lt.2 lo), decide_eq_false (Nat.not_lt.2 hi)]
      nofun
    · rcases h with off | low | high
      · exact Bool.or_eq_true_iff.2 (.inl (Bool.or_eq_true_iff.2 (.inl (congrArg (! ·) off))))
      · exact Bool.or_eq_true_iff.2 (.inl (Bool.or_eq_true_iff.2 (.inr (decide_eq_true low))))
      · exact Bool.or_eq_true_iff.2 (.inr (decide_eq_true high))

end Sys2Proof.Machine.HostInterface
end

section
/-! PROOFS. The SPDM responder and the extension of measurements (R417-R419). -/
-- One proof after another: in parallel, those of the whole text need more memory than one process may take.
set_option Elab.async false

namespace Sys2Proof.Machine.HostInterface

/-! ## Arrival and answer -/

theorem arrive_keeps (s : State) (t : Nat) (req : List Byte) : ∃ rs, (arrive s t req).2 = { s with attest := { s.attest with requests := rs } } := by
  unfold arrive
  split
  · exact ⟨_, rfl⟩
  · split
    · exact ⟨_, rfl⟩
    · split <;> exact ⟨_, rfl⟩

theorem sendOwn_frame (s : State) (p : Nat) (f : List Byte) : ∃ ports, sendOwn s p f = { s with ports := ports } := ⟨_, rfl⟩

theorem sendOwns_frame (p : Nat) (fs : List (List Byte)) (s : State) : ∃ ports, fs.foldl (fun s f => sendOwn s p f) s = { s with ports := ports } :=
  List.foldlRecOn fs _ (motive := fun t : State => ∃ ports, t = { s with ports := ports }) ⟨_, rfl⟩ fun t ⟨_, h⟩ f _ => by
    rw [h]
    exact ⟨_, rfl⟩

theorem port_sendOwn {s : State} {p : Nat} (here : ∃ y ∈ s.ports, y.port = p) (f : List Byte) :
    (sendOwn s p f).port p = { s.port p with own := (s.port p).own ++ [((s.port p).txtail, f)] } := by
  have found : (sendOwn s p f).ports.find? (fun y => y.port == p) = (s.ports.find? fun y => y.port == p).map fun y => if y.port == p then { y with own := y.own ++ [(y.txtail, f)] } else y :=
    find_map_of _ _ (fun y => by split <;> simp_all) s.ports
  obtain ⟨y, hy, name⟩ := here
  unfold State.port findD
  rw [found]
  cases first : s.ports.find? fun y => y.port == p with
  | none => exact absurd name (by simpa using List.find?_eq_none.1 first y hy)
  | some z => simp [show z.port = p by simpa using List.find?_some first]

theorem there_sendOwn {s : State} {p : Nat} (here : ∃ y ∈ s.ports, y.port = p) (f : List Byte) : ∃ y ∈ (sendOwn s p f).ports, y.port = p := by
  obtain ⟨y, hy, name⟩ := here
  exact ⟨_, List.mem_map_of_mem hy, by simp [name]⟩

/-- The frames sent join the port's own in order. -/
theorem own_sendOwns {p : Nat} (fs : List (List Byte)) : ∀ {s : State}, (∃ y ∈ s.ports, y.port = p) →
    ((fs.foldl (fun s f => sendOwn s p f) s).port p).own = (s.port p).own ++ fs.map fun f => ((s.port p).txtail, f) := by
  induction fs with
  | nil => exact fun _ => (List.append_nil _).symm
  | cons f fs ih =>
    intro s here
    rw [List.foldl_cons, ih (there_sendOwn here f), port_sendOwn here]
    simp

theorem respond_on_port (s : State) (p : Nat) (r : List Byte) : respond s (p + 1) r =
    (Config.tcpFrames p (dspMessage r) s.tick).foldl (fun s f => sendOwn s p f) { s with attest := { s.attest with responses := s.attest.responses ++ [(p + 1, r)] } } := rfl

theorem respond_keeps (s : State) (t : Nat) (r : List Byte) : ∃ ports, respond s t r =
    { s with attest := { s.attest with responses := s.attest.responses ++ [(t, r)] }, ports := ports } := by
  cases t with
  | zero => exact ⟨_, rfl⟩
  | succ p => exact sendOwns_frame p _ _

/-! ## Requests of a stage -/

section Requests
variable {s : State} {t code stage len : Nat} {req : List Byte} {f : State → State × List Byte}

theorem spdm_other (other : leField req 1 1 ≠ code) : spdm s t req code stage len f = .next s := if_pos (by simpa using other)

variable (named : leField req 1 1 = code)
include named

theorem spdm_arrive : spdm s t req code stage len f = if (arrive s t req).1 then
      if req.length < len then event (respond (arrive s t req).2 t (spdmError 0x13 1))
      else if leField req 0 1 != 0x13 then event (respond (arrive s t req).2 t (spdmError 0x13 0x41))
      else if s.attest.stage < stage then event (respond (arrive s t req).2 t (spdmError 0x13 4))
      else event (respond (f (arrive s t req).2).1 t (f (arrive s t req).2).2)
    else event (arrive s t req).2 := by
  obtain ⟨rs, kept⟩ := arrive_keeps s t req
  refine (if_neg (by simp [named])).trans ?_
  split
  · next u h => rw [h]; rfl
  · next u h =>
    rw [h] at kept ⊢
    rw [show u.attest.stage = s.attest.stage by rw [show u = _ from kept]]
    rfl

theorem spdm_unserved (unserved : (arrive s t req).1 = false) : spdm s t req code stage len f = .next (arrive s t req).2 := by
  rw [spdm_arrive named, unserved]
  rfl

variable (served : (arrive s t req).1 = true)
include served

theorem spdm_short (short : req.length < len) : spdm s t req code stage len f = .next (respond (arrive s t req).2 t [0x13, 0x7F, 0x01, 0]) := by
  rw [spdm_arrive named, if_pos served]
  exact if_pos short

theorem spdm_version (long : len ≤ req.length) (version : leField req 0 1 ≠ 0x13) : spdm s t req code stage len f = .next (respond (arrive s t req).2 t [0x13, 0x7F, 0x41, 0]) := by
  rw [spdm_arrive named, if_pos served, if_neg (Nat.not_lt.2 long)]
  exact if_pos (by simpa using version)

theorem spdm_early (long : len ≤ req.length) (version : leField req 0 1 = 0x13) (early : s.attest.stage < stage) :
    spdm s t req code stage len f = .next (respond (arrive s t req).2 t [0x13, 0x7F, 0x04, 0]) := by
  rw [spdm_arrive named, if_pos served, if_neg (Nat.not_lt.2 long), if_neg (by simp [version])]
  exact if_pos early

theorem spdm_answer (long : len ≤ req.length) (version : leField req 0 1 = 0x13) (staged : stage ≤ s.attest.stage) :
    spdm s t req code stage len f = .next (respond (f (arrive s t req).2).1 t (f (arrive s t req).2).2) := by
  rw [spdm_arrive named, if_pos served, if_neg (Nat.not_lt.2 long), if_neg (by simp [version]), if_neg (Nat.not_lt.2 staged)]
  rfl

end Requests

/-- An answer of the responder, from the machine with the request taken: the response of its code, which moves the negotiation on, or an error. -/
structure Answers (u : State) (code answer next : Nat) (fit : Bool) (v : State × List Byte) : Prop where
  meas6 : v.1.attest.meas6 = u.attest.meas6
  regs : v.1.regs = u.regs
  stage : v.1.attest.stage = if fit then next else u.attest.stage
  response : fit → v.2.take 2 = [0x13, BitVec.ofNat 8 answer]
  error : fit = false → v.2 = [0x13, 0x7F, 0x01, 0] ∨ v.2 = [0x13, 0x7F, 0x04, 0]
  digests : code = 0x81 → v.2 = [0x13, 0x01, 1, 1] ++ sha512 (Config.certChain (cdi u))

/-- An instruction that answers a request of a code at a stage, at least as long as its form: `fit` says when with the response of its code. -/
def Serves (run : State → Host.Outcome State Fault Refusal) (t : Nat) (req : List Byte) (code len stage answer : Nat) (next : State → Nat) (fit : State → Bool) : Prop :=
  ∃ f, (∀ s, run s = spdm s t req code stage len f) ∧ ∀ u, stage ≤ u.attest.stage → Answers u code answer (next u) (fit u) (f u)

theorem bitOf_eq_testBit (x k : Nat) : bitOf x k = x.testBit k := by rw [bitOf, Nat.testBit_eq_decide_div_mod_eq, Bool.beq_eq_decide_eq]

section Requests
variable (t : Nat) (req : List Byte)

theorem getCapabilities_serves : Serves (execGetCapabilities t req) t req 0xE1 20 1 0x61 (fun _ => 2) fun u => u.attest.stage == 1 := by
  refine ⟨_, fun _ => rfl, fun u _ => ?_⟩
  by_cases fit : u.attest.stage = 1
  · simp only [fit]
    exact ⟨rfl, rfl, rfl, fun _ => rfl, nofun, nofun⟩
  · dsimp only
    rw [if_pos (by simpa using fit), beq_eq_false_iff_ne.2 fit]
    exact ⟨rfl, rfl, rfl, nofun, fun _ => .inr rfl, nofun⟩

theorem negotiateAlgorithms_serves : Serves (execNegotiateAlgorithms t req) t req 0xE3 32 2 0x63 (fun _ => 3) fun u =>
    u.attest.stage == 2 && (leField req 8 4).testBit 8 && (leField req 12 4).testBit 2 := by
  refine ⟨_, fun _ => rfl, fun u _ => ?_⟩
  dsimp only
  rw [bitOf_eq_testBit, bitOf_eq_testBit]
  by_cases stage : u.attest.stage = 2
  · rw [if_neg (by simp [stage]), show (u.attest.stage == 2) = true by simp [stage]]
    cases base : (leField req 8 4).testBit 8
    · exact ⟨rfl, rfl, rfl, nofun, fun _ => .inl rfl, nofun⟩
    · cases hash : (leField req 12 4).testBit 2
      · exact ⟨rfl, rfl, rfl, nofun, fun _ => .inl rfl, nofun⟩
      · exact ⟨rfl, rfl, rfl, fun _ => rfl, nofun, nofun⟩
  · rw [if_pos (by simpa using stage), beq_eq_false_iff_ne.2 stage]
    exact ⟨rfl, rfl, rfl, nofun, fun _ => .inr rfl, nofun⟩

theorem getDigests_serves : Serves (execGetDigests t req) t req 0x81 4 3 0x01 (·.attest.stage) fun _ => true :=
  ⟨_, fun _ => rfl, fun _ _ => ⟨rfl, rfl, rfl, fun _ => rfl, nofun, fun _ => rfl⟩⟩

theorem getCertificate_serves : Serves (execGetCertificate t req) t req 0x82 8 3 0x02 (·.attest.stage) fun u =>
    leField req 2 1 % 16 == 0 && decide (leField req 4 2 < (Config.certChain (cdi u)).length) := by
  refine ⟨_, fun _ => rfl, fun u _ => ?_⟩
  dsimp only
  by_cases slot : leField req 2 1 % 16 = 0
  · by_cases inside : leField req 4 2 < (Config.certChain (cdi u)).length
    · rw [if_neg (by simp [slot, inside]), decide_eq_true inside, slot]
      exact ⟨rfl, rfl, rfl, fun _ => rfl, nofun, nofun⟩
    · rw [if_pos (by simp [Nat.not_lt.1 inside]), decide_eq_false inside, Bool.and_false]
      exact ⟨rfl, rfl, rfl, nofun, fun _ => .inl rfl, nofun⟩
  · rw [if_pos (by simp [slot]), beq_eq_false_iff_ne.2 slot]
    exact ⟨rfl, rfl, rfl, nofun, fun _ => .inl rfl, nofun⟩

theorem challenge_serves : Serves (execChallenge t req) t req 0x83 44 3 0x03 (·.attest.stage) fun _ => leField req 2 1 % 16 == 0 := by
  refine ⟨_, fun _ => rfl, fun u _ => ?_⟩
  dsimp only
  by_cases slot : leField req 2 1 % 16 = 0
  · rw [if_neg (by simp [slot]), slot]
    exact ⟨rfl, rfl, rfl, fun _ => rfl, nofun, nofun⟩
  · rw [if_pos (by simpa using slot), beq_eq_false_iff_ne.2 slot]
    exact ⟨rfl, rfl, rfl, nofun, fun _ => .inl rfl, nofun⟩

/-- The measurements that a request names (R417): none, all, or the one of an index. -/
def asked (u : State) (op : Nat) : List (Nat × Nat × Bool × List Byte) :=
  if op == 0 then [] else if op == 0xFF then measurements u else (measurements u).filter fun m => m.1 == op

theorem asked_none (u : State) (op : Nat) : (op != 0 && (asked u op).isEmpty) = !(op == 0 || op == 0xFF || ((measurements u).map (·.1)).contains op) := by
  unfold asked
  by_cases none : op = 0
  · simp [none]
  · by_cases every : op = 0xFF
    · simp [every, measurements]
    · rw [if_neg (by simpa using none), if_neg (by simpa using every), Bool.eq_iff_iff]
      simp only [bne_iff_ne, beq_eq_false_iff_ne.2 none, beq_eq_false_iff_ne.2 every, Bool.false_or, Bool.and_eq_true, List.isEmpty_iff, List.filter_eq_nil_iff,
        Bool.not_eq_true', ← Bool.not_eq_true, List.contains_iff_mem, List.mem_map]
      exact ⟨fun h ⟨m, hm, e⟩ => h.2 m hm (beq_iff_eq.2 e), fun h => ⟨none, fun m hm e => h ⟨m, hm, beq_iff_eq.1 e⟩⟩⟩

theorem getMeasurements_serves : Serves (execGetMeasurements t req) t req 0xE0 (if leField req 2 1 % 2 == 1 then 45 else 12) 3 0x60 (·.attest.stage) fun u =>
    (leField req 3 1 == 0 || leField req 3 1 == 0xFF || ((measurements u).map (·.1)).contains (leField req 3 1)) && (!(leField req 2 1 % 2 == 1) || leField req 36 1 % 16 == 0) := by
  refine ⟨_, fun _ => rfl, fun u _ => ?_⟩
  have named := asked_none u (leField req 3 1)
  unfold asked at named
  dsimp only
  rw [named]
  cases (leField req 3 1 == 0 || leField req 3 1 == 0xFF || ((measurements u).map (·.1)).contains (leField req 3 1))
  · exact ⟨rfl, rfl, rfl, nofun, fun _ => .inl rfl, nofun⟩
  · cases signed : leField req 2 1 % 2 == 1
    · exact ⟨rfl, rfl, rfl, fun _ => rfl, nofun, nofun⟩
    · by_cases slot : leField req 36 1 % 16 = 0
      · rw [if_neg (by simp [slot]), if_pos rfl, slot]
        exact ⟨rfl, rfl, rfl, fun _ => rfl, nofun, nofun⟩
      · rw [if_pos (by simp [slot]), beq_eq_false_iff_ne.2 slot]
        exact ⟨rfl, rfl, rfl, nofun, fun _ => .inl rfl, nofun⟩

end Requests

/-- The instruction of a request answers it, with the machine once the request is taken. -/
theorem serves_answers {run : State → Host.Outcome State Fault Refusal} {t code len stage answer : Nat} {req : List Byte} {next : State → Nat} {fit : State → Bool} (serves : Serves run t req code len stage answer next fit)
    {s : State} (named : leField req 1 1 = code) (served : (arrive s t req).1 = true) (long : len ≤ req.length) (version : leField req 0 1 = 0x13) (staged : stage ≤ s.attest.stage) :
    ∃ v r, run s = .next (respond v t r) ∧ Answers (arrive s t req).2 code answer (next (arrive s t req).2) (fit (arrive s t req).2) (v, r) := by
  obtain ⟨f, meaning, effect⟩ := serves
  obtain ⟨rs, kept⟩ := arrive_keeps s t req
  exact ⟨_, _, (meaning s).trans (spdm_answer named served long version staged), effect _ (by rw [kept]; exact staged)⟩

/-- Settles O54: the order of arrival, then one request's checks in turn, then its response. -/
theorem responderAnswersInOrder : Obligations.ResponderAnswersInOrder := by
  unfold Obligations.ResponderAnswersInOrder
  refine ⟨?_, ?_, ?_, ?_, ?_, ?_, ?_⟩
  · intro s v part
    show (_ → execMeasext v s = _) ∧ (_ → execMeasext v s = _)
    refine ⟨fun few => ?_, fun full => ?_⟩
    · exact congrArg (fun a => event { s with attest := a }) (if_pos few)
    · exact congrArg (fun a => event { s with attest := a }) (if_neg (Nat.not_lt.2 full))
  · intro s t req i code stage len which u
    have form : ∃ f, exec i s = spdm s t req code stage len f := by
      simp only [List.mem_cons, Prod.mk.injEq, List.not_mem_nil, or_false] at which
      rcases which with ⟨rfl, rfl, rfl, rfl⟩ | ⟨rfl, rfl, rfl, rfl⟩ | ⟨rfl, rfl, rfl, rfl⟩ | ⟨rfl, rfl, rfl, rfl⟩ | ⟨rfl, rfl, rfl, rfl⟩ | ⟨rfl, rfl, rfl, rfl⟩
      · exact ⟨_, show execGetCapabilities t req s = _ from rfl⟩
      · exact ⟨_, show execNegotiateAlgorithms t req s = _ from rfl⟩
      · exact ⟨_, show execGetDigests t req s = _ from rfl⟩
      · exact ⟨_, show execGetCertificate t req s = _ from rfl⟩
      · exact ⟨_, show execChallenge t req s = _ from rfl⟩
      · simp only [← beq_iff_eq (a := leField req 2 1 % 2)]
        exact ⟨_, show execGetMeasurements t req s = _ from rfl⟩
    obtain ⟨f, form⟩ := form
    rw [form]
    exact ⟨spdm_other, spdm_unserved, fun named served => ⟨spdm_short named served, spdm_version named served, spdm_early named served⟩⟩
  · intro s t req i code len stage answer next fit u all op slot0 signed which named served long version staged
    obtain ⟨rs, kept⟩ := arrive_keeps s t req
    have stage_u : u.attest.stage = s.attest.stage := congrArg (·.attest.stage) kept
    have answers : ∃ v r, exec i s = .next (respond v t r) ∧ Answers u code answer next fit (v, r) := by
      simp only [List.mem_cons, Prod.mk.injEq, List.not_mem_nil, or_false] at which
      rcases which with ⟨rfl, rfl, rfl, rfl, rfl, rfl, rfl⟩ | ⟨rfl, rfl, rfl, rfl, rfl, rfl, rfl⟩ | ⟨rfl, rfl, rfl, rfl, rfl, rfl, rfl⟩ | ⟨rfl, rfl, rfl, rfl, rfl, rfl, rfl⟩ | ⟨rfl, rfl, rfl, rfl, rfl, rfl, rfl⟩ | ⟨rfl, rfl, rfl, rfl, rfl, rfl, rfl⟩
        <;> rw [← stage_u]
      · exact serves_answers (getCapabilities_serves t req) named served long version staged
      · exact serves_answers (negotiateAlgorithms_serves t req) named served long version staged
      · exact serves_answers (getDigests_serves t req) named served long version staged
      · exact serves_answers (getCertificate_serves t req) named served long version staged
      · exact serves_answers (challenge_serves t req) named served long version staged
      · exact serves_answers (getMeasurements_serves t req) named served long version staged
    obtain ⟨v, r, run, a⟩ := answers
    refine ⟨v, r, run, ?_, ?_, ?_, a.response, a.error, a.digests⟩
    · exact a.meas6.trans (congrArg (·.attest.meas6) kept)
    · exact a.regs.trans (congrArg (·.regs) kept)
    · rw [← stage_u]
      exact a.stage
  · intro s t req served u
    have arrived : arrive s t req = (true, u) := Prod.ext served rfl
    show (_ → _ → _ → ∃ v, execGetVersion t req s = _ ∧ _) ∧ (_ → execGetVersion t req s = _)
    unfold execGetVersion
    rw [arrived]
    refine ⟨fun named long version => ?_, fun other => ?_⟩
    · simp only [named, version]
      rw [if_neg (by decide), if_neg (by decide), if_neg (by simp [long])]
      exact ⟨_, rfl, rfl⟩
    · have unnamed : (leField req 1 1 != 0x84) = true := bne_iff_ne.2 fun e => other (by rw [e]; decide)
      rw [if_neg (by simpa using fun _ => other)]
      exact if_pos unnamed
  · intro s t req
    refine ⟨fun empty => ?_, fun rest first => ?_, fun r rest first other => ?_⟩
    all_goals
      unfold arrive
      rw [‹s.attest.requests = _›]
    · exact if_pos (by simp)
    · dsimp only
      rw [if_neg (by simpa using other)]
      by_cases doe : t = 0 ∧ transportOn s 0
      · rw [if_pos (by simp [doe]), if_pos doe]
        exact ⟨rfl, rfl⟩
      · rw [if_neg (by simpa using doe), if_neg doe]
        exact ⟨rfl, by simp [first]⟩
  · intro s t r
    obtain ⟨ports, kept⟩ := respond_keeps s t r
    refine ⟨congrArg (·.attest.responses) kept, congrArg (·.regs) kept, fun doe => by rw [doe]; rfl, fun p port here => ?_⟩
    rw [port, respond_on_port]
    exact own_sendOwns _ here
  · intro s m hm index
    simp only [measurements, List.mem_cons, List.not_mem_nil, or_false] at hm
    rcases hm with rfl | rfl | rfl | rfl | rfl | rfl | rfl
    case inr.inr.inr.inl => rfl
    all_goals exact nomatch index

end Sys2Proof.Machine.HostInterface
end

section
/-! PROOFS. What a store of the device's own units writes, and what it leaves alone (R228, R245). -/
-- One proof after another: in parallel, those of the whole text need more memory than one process may take.
set_option Elab.async false

namespace Sys2Proof.Machine.Scheduling
open Sys2Proof.Machine.NumberFormats Sys2Proof.Machine.MemoryModel

/-- Of two runs of stores the later one counts. -/
theorem lastStored_append (ts us : List (Sp × Nat × List Byte)) (sp : Sp) (a : Nat) : lastStored (ts ++ us) sp a = (lastStored us sp a).or (lastStored ts sp a) := by
  unfold lastStored
  rw [List.foldl_append]
  generalize List.foldl _ none ts = o
  induction us using List.reverseRecOn with
  | nil => rfl
  | append_singleton us u ih =>
    simp only [List.foldl_append, List.foldl_cons, List.foldl_nil, ih]
    split <;> rfl

theorem storedOnly_append {s t u : State} {ts us : List (Sp × Nat × List Byte)} (h : StoredOnly s t ts) (h' : StoredOnly t u us) : StoredOnly s u (ts ++ us) := by
  intro sp a
  rw [h', h, lastStored_append]
  cases lastStored us sp a <;> rfl

theorem storeAs_eq (who : Who) (s : State) (sp : Sp) (a : Nat) (bs : List Byte) : ∃ extClk seq releases, storeAs who s sp a bs =
    { stampedWrite s sp a bs (s.storeTs sp a bs.length s.extClk) with extClk := extClk, seq := seq, releases := releases } := ⟨_, _, _, rfl⟩

theorem stampedWrite_performs (s : State) (sp : Sp) (a : Nat) (bs : List Byte) (ts : Nat) : Performs s (stampedWrite s sp a bs ts) :=
  (writeRaw_performs s sp a bs).trans (setStamps_performs ..)

theorem storeAs_performs (who : Who) (s : State) (sp : Sp) (a : Nat) (bs : List Byte) : Performs s (storeAs who s sp a bs) :=
  (stampedWrite_performs s sp a bs _).trans (performs_of (seq := Nat.le_succ _))

theorem storeDevice_performs (s : State) (sp : Sp) (a : Nat) (bs : List Byte) : Performs s (storeDevice s sp a bs) := storeAs_performs .unit s sp a bs

theorem storeDevice_storedOnly (s : State) {sp : Sp} (a : Nat) (bs : List Byte) (home : ∀ g r, sp = .scr g r → s.blockOf? g r ≠ none) : StoredOnly s (storeDevice s sp a bs) [(sp, a, bs)] := by
  obtain ⟨_, _, _, store⟩ := storeAs_eq .unit s sp a bs
  rw [storeDevice, store]
  exact storedOnly_between (fun _ _ => rfl) (stampedWrite_storedOnly a bs _ home) sameMemory_of

theorem storeDevice_regs (s : State) (sp : Sp) (a : Nat) (bs : List Byte) : SameRegs s (storeDevice s sp a bs) := fun m =>
  (regsOf_agents rfl m).trans (stampedWrite_regs s sp a bs _ m)

end Sys2Proof.Machine.Scheduling
end

section
/-! PROOFS. Ports: what they send next, what they receive, their gates and the time base (R413-R416). -/
-- One proof after another: in parallel, those of the whole text need more memory than one process may take.
set_option Elab.async false

namespace Sys2Proof.Machine.HostInterface
open Sys2Proof.Machine.NumberFormats

/-! ## The ports -/

theorem name_port (s : State) (p : Nat) : (s.port p).port = p := by
  unfold State.port findD
  cases found : s.ports.find? fun x => x.port == p with
  | none => rfl
  | some x => simpa using List.find?_some found

theorem find?_setPort (s : State) (x : Port) (p : Nat) :
    (s.setPort x).ports.find? (fun y => y.port == p) = (s.ports.find? fun y => y.port == p).map fun y => if y.port == x.port then x else y :=
  find_map_of _ _ (fun y => by split <;> simp_all) s.ports

/-- A port that is there reads as it was last set. -/
theorem port_setPort {s : State} {x : Port} {p : Nat} (here : ∃ y ∈ s.ports, y.port = p) (name : x.port = p) : (s.setPort x).port p = x := by
  obtain ⟨y, hy, rfl⟩ := here
  unfold State.port findD
  rw [find?_setPort]
  cases first : s.ports.find? fun z => z.port == y.port with
  | none => exact absurd (beq_self_eq_true y.port) (List.find?_eq_none.1 first y hy)
  | some z => simp [show z.port = y.port by simpa using List.find?_some first, name]

theorem port_setPort_ne {s : State} {x : Port} {p : Nat} (other : x.port ≠ p) : (s.setPort x).port p = s.port p := by
  unfold State.port findD
  rw [find?_setPort]
  cases first : s.ports.find? fun z => z.port == p with
  | none => rfl
  | some z => simp [show z.port = p by simpa using List.find?_some first, other.symm]

theorem there_setPort {s : State} {x : Port} {p : Nat} (here : ∃ y ∈ s.ports, y.port = p) : ∃ y ∈ (s.setPort x).ports, y.port = p := by
  obtain ⟨y, hy, rfl⟩ := here
  refine ⟨_, List.mem_map_of_mem hy, ?_⟩
  split <;> simp_all

theorem port_congr {s t : State} (same : t.ports = s.ports) (p : Nat) : t.port p = s.port p := by
  unfold State.port
  rw [same]

/-! ## The time base (R413) -/

theorem ports_selectMaster (s : State) : (selectMaster s).ports = s.ports := by
  unfold selectMaster
  split
  · split <;> rfl
  · split <;> rfl

/-- Without a grandmaster a port is as it was but for that. -/
theorem port_dropMaster {s : State} {p : Nat} (here : ∃ y ∈ s.ports, y.port = p) : (dropMaster s p).port p = { s.port p with master := none, syncAt := none } :=
  (port_congr (ports_selectMaster _) p).trans (port_setPort here (name_port s p))

theorem master_dropMaster (s : State) (p : Nat) : ((dropMaster s p).port p).master = none := by
  by_cases here : ∃ y ∈ s.ports, y.port = p
  · rw [port_dropMaster here]
  · have absent : (dropMaster s p).ports.find? (fun x => x.port == p) = none := by
      rw [show (dropMaster s p).ports = _ from ports_selectMaster _, find?_setPort, List.find?_eq_none.2 fun y hy => by simpa using fun name => here ⟨y, hy, name⟩]
      rfl
    unfold State.port findD
    rw [absent]
    rfl

theorem selectMaster_none {s : State} (none : bestMaster s = none) (had : s.regs.syncPort ≠ 3) : (selectMaster s).regs.syncPort = 3
    ∧ (selectMaster s).regs.syncState = if s.regs.syncState = 2 ∨ s.regs.syncState = 3 then 3 else 0 := by
  unfold selectMaster
  rw [none]
  dsimp only
  rw [if_neg (by simpa using had)]
  exact ⟨rfl, by simp [loseMaster]⟩

theorem selectMaster_some {s : State} {p : Nat} (best : bestMaster s = some p) : (selectMaster s).regs.syncPort = p ∧ (p ≠ s.regs.syncPort → (selectMaster s).regs.syncState = 1) := by
  unfold selectMaster
  rw [best]
  dsimp only
  split
  · next same => exact ⟨beq_iff_eq.1 same, fun other => absurd (beq_iff_eq.1 same).symm other⟩
  · exact ⟨rfl, fun _ => rfl⟩

/-- The best grandmaster is the least of those announced. -/
theorem bestMaster_least {s : State} {p : Nat} (best : bestMaster s = some p) : p < 2 ∧ ∃ m, (s.port p).master = some m ∧ ∀ q < 2, ∀ n, (s.port q).master = some n → m ≤ n := by
  have two (m : Nat) : (∀ n, (s.port 0).master = some n → m ≤ n) → (∀ n, (s.port 1).master = some n → m ≤ n) → ∀ q < 2, ∀ n, (s.port q).master = some n → m ≤ n := by
    intro zero one q hq
    obtain rfl | rfl : q = 0 ∨ q = 1 := by omega
    · exact zero
    · exact one
  unfold bestMaster at best
  split at best
  · next a b ha hb =>
    obtain rfl := Option.some.inj best
    by_cases le : a ≤ b
    · rw [if_pos le]
      exact ⟨by decide, a, ha, two a (by simp [ha]) (by simpa [hb] using le)⟩
    · rw [if_neg le]
      exact ⟨by decide, b, hb, two b (by simp [ha]; omega) (by simp [hb])⟩
  · next a ha hb =>
    obtain rfl := Option.some.inj best
    exact ⟨by decide, a, ha, two a (by simp [ha]) (by simp [hb])⟩
  · next b ha hb =>
    obtain rfl := Option.some.inj best
    exact ⟨by decide, b, hb, two b (by simp [ha]) (by simp [hb])⟩
  · exact absurd best nofun

theorem bestMaster_eq_none (s : State) : bestMaster s = none ↔ (s.port 0).master = none ∧ (s.port 1).master = none := by
  unfold bestMaster
  cases (s.port 0).master <;> cases (s.port 1).master <;> simp

/-! ## What a port sends next (R415, R416) -/

theorem nextTx_none {s : State} {x : Port} (none : nextTx s x = none) {c : Nat} (hc : c < 8) {y : Tx} (oldest : oldestTx s x c = some y) : ¬x.maySend c s.tick y.frame.length := by
  intro may
  have here := List.findSome?_eq_none_iff.1 none c (by simpa using hc)
  rw [oldest] at here
  exact absurd here (by simp [may])

theorem mem_of_at {s : State} {x : Port} {c : Nat} {y : Tx} (h : (match oldestTx s x c with | some y => if x.maySend c s.tick y.frame.length then some y else none | none => none) = some y) :
    oldestTx s x c = some y ∧ x.maySend c s.tick y.frame.length := by
  split at h
  · next z oldest =>
    split at h
    · next may =>
      obtain rfl := Option.some.inj h
      exact ⟨oldest, may⟩
    · exact absurd h nofun
  · exact absurd h nofun

theorem nextTx_some {s : State} {x : Port} {y : Tx} (some_ : nextTx s x = some y) : ∃ c < 8, oldestTx s x c = some y ∧ x.maySend c s.tick y.frame.length
    ∧ ∀ h, c < h → h < 8 → ∀ z, oldestTx s x h = some z → ¬x.maySend h s.tick z.frame.length := by
  obtain ⟨above, c, below, list, here, skipped⟩ := List.findSome?_eq_some_iff.1 some_
  have sorted : (above ++ c :: below).Pairwise (· > ·) := list ▸ by decide
  have mem (h : Nat) : h < 8 ↔ h ∈ above ++ c :: below := by rw [← list]; simp
  obtain ⟨oldest, may⟩ := mem_of_at here
  refine ⟨c, (mem c).2 (by simp), oldest, may, fun h higher hh z first mayz => ?_⟩
  have before : h ∈ above := by
    rcases List.mem_append.1 ((mem h).1 hh) with hab | hbe
    · exact hab
    · rcases List.mem_cons.1 hbe with rfl | low
      · exact absurd higher (Nat.lt_irrefl _)
      · exact absurd ((List.pairwise_cons.1 (List.pairwise_append.1 sorted).2.1).1 h low) (Nat.lt_asymm higher)
  have none := skipped h before
  rw [first] at none
  exact absurd none (by simp [mayz])

/-! ## The oldest frame of a class -/

theorem posted_sorted (x : Port) : x.posted.Pairwise (· < ·) := by
  unfold Port.posted
  split
  · refine List.Pairwise.filter _ (List.pairwise_map.2 ?_)
    exact List.pairwise_lt_range.imp fun h => Nat.add_lt_add_left h _
  · exact .nil

/-- A descriptor's frame. -/
def postedFrame (s : State) (x : Port) (k : Nat) : List Byte := txFrame s (s.readHome .host (x.txDesc k) 32)

/-- The class of a descriptor's frame. -/
def postedClass (s : State) (x : Port) (k : Nat) : Nat := x.classOf (vlanPrio (postedFrame s x k))

/-- The oldest posted descriptor of a class. -/
def oldestPosted (s : State) (x : Port) (c : Nat) : Option Nat := x.posted.find? fun k => postedClass s x k == c

theorem oldestTx_eq (s : State) (x : Port) (c : Nat) : oldestTx s x c =
    match oldestPosted s x c, if x.classOf 0 == c then x.own.head? else none with
    | some k, some (at_, g) => some (if k < at_ then .posted k (s.readHome .host (x.txDesc k) 32) (postedFrame s x k) else .own g)
    | some k, none => some (.posted k (s.readHome .host (x.txDesc k) 32) (postedFrame s x k))
    | none, some (_, g) => some (.own g)
    | none, none => none := by
  unfold oldestTx
  dsimp only
  have first : x.posted.find? ((fun e : Nat × List Byte × List Byte => x.classOf (vlanPrio e.2.2) == c) ∘ fun k =>
      (k, s.readHome .host (x.txDesc k) 32, txFrame s (s.readHome .host (x.txDesc k) 32))) = oldestPosted s x c := rfl
  rw [List.find?_map, first]
  cases oldestPosted s x c <;> cases (if x.classOf 0 == c then x.own.head? else none) <;> rfl

theorem oldestPosted_first {s : State} {x : Port} {c k : Nat} (h : oldestPosted s x c = some k) : k ∈ x.posted ∧ postedClass s x k = c ∧ ∀ j ∈ x.posted, postedClass s x j = c → k ≤ j := by
  obtain ⟨own, before, after, list, skipped⟩ := List.find?_eq_some_iff_append.1 h
  have sorted := posted_sorted x
  rw [list] at sorted
  refine ⟨by simp [list], by simpa using own, fun j hj same => ?_⟩
  rw [list] at hj
  rcases List.mem_append.1 hj with hb | ha
  · exact absurd same (by simpa using skipped j hb)
  · rcases List.mem_cons.1 ha with rfl | ha
    · exact Nat.le_refl _
    · exact Nat.le_of_lt ((List.pairwise_cons.1 (List.pairwise_append.1 sorted).2.1).1 j ha)

theorem oldestPosted_none {s : State} {x : Port} {c : Nat} (h : oldestPosted s x c = none) : ∀ k ∈ x.posted, postedClass s x k ≠ c := fun k hk => by
  simpa using List.find?_eq_none.1 h k hk

theorem ownFirst_some {x : Port} {c : Nat} {g : Nat × List Byte} (h : (if x.classOf 0 == c then x.own.head? else none) = some g) : x.classOf 0 = c ∧ x.own.head? = some g := by
  split at h
  · next zero => exact ⟨beq_iff_eq.1 zero, h⟩
  · exact absurd h nofun

theorem ownFirst_none {x : Port} {c : Nat} (h : (if x.classOf 0 == c then x.own.head? else none) = none) (zero : x.classOf 0 = c) : x.own.head? = none := by
  rwa [if_pos (beq_iff_eq.2 zero)] at h

/-! ## Writes of PCTL (R415) -/

/-- A port with PCTL written: one that is enabled begins with empty rings. -/
def withPctl (x : Port) (v : Dword) : Port :=
  let y := if v.getLsbD 0 && !x.en then { x with txtail := 0, txhead := 0, rxtail := 0, rxhead := 0, sent := [], own := x.own.map fun e => (0, e.2) } else x
  { y with pctl := v &&& 7 }

theorem name_withPctl (x : Port) (v : Dword) : (withPctl x v).port = x.port := by
  unfold withPctl
  dsimp only
  split <;> rfl

/-! ## Reception (R416) -/

/-- A frame for which there is no descriptor is counted. -/
theorem rxDeliver_dropped {s : State} {p : Nat} (f : List Byte) (full : ¬((s.port p).rxhead ≠ (s.port p).rxtail ∧ 4 ≤ (s.port p).rxlog.toNat ∧ (s.port p).rxlog.toNat ≤ 14)) :
    rxDeliver s p f = s.setPort { s.port p with rxdrop := min (2 ^ 32 - 1) ((s.port p).rxdrop + 1) } :=
  if_pos (by
    rw [Bool.or_eq_true, beq_iff_eq, Bool.not_eq_true', ringOk, Bool.and_eq_false_iff]
    simp only [decide_eq_false_iff_not]
    tauto)

/-- A frame delivered is stored, and its completion after it. -/
theorem rxDeliver_delivered {s : State} {p : Nat} (f : List Byte) (free : (s.port p).rxhead ≠ (s.port p).rxtail ∧ 4 ≤ (s.port p).rxlog.toNat ∧ (s.port p).rxlog.toNat ≤ 14) :
    let x := s.port p
    let d := s.readHome .host (x.rxDesc x.rxhead) 32
    let n := min f.length (leField d 8 2)
    ∃ u v, Scheduling.Performs s u ∧ StoredOnly s u [(.host, leField d 0 8, f.take n)] ∧ SameRegs s u
      ∧ Scheduling.Performs u v ∧ StoredOnly u v [(.host, x.rxDesc x.rxhead + 16, leBytes 8 (s.tick / 16) ++ [if n < f.length then 3 else 1] ++ leBytes 2 f.length)] ∧ SameRegs u v
      ∧ rxDeliver s p f = v.setPort { x with rxhead := x.rxhead + 1 } := by
  intro x d n
  obtain ⟨ne, lo, hi⟩ := free
  refine ⟨storeDevice s .host (leField d 0 8) (f.take n), storeDevice (storeDevice s .host (leField d 0 8) (f.take n)) .host (x.rxDesc x.rxhead + 16) _,
    Scheduling.storeDevice_performs .., Scheduling.storeDevice_storedOnly _ _ _ nofun, Scheduling.storeDevice_regs _ _ _ _,
    Scheduling.storeDevice_performs .., Scheduling.storeDevice_storedOnly _ _ _ nofun, Scheduling.storeDevice_regs _ _ _ _, ?_⟩
  refine (if_neg ?_).trans ?_
  · simp [ringOk, ne, lo, hi]
  · have tick : (storeDevice s .host (leField d 0 8) (f.take n)).tick = s.tick := congrArg (·.tick) (Scheduling.storeDevice_performs ..).frame
    rw [← tick]

theorem received {s : State} {p : Nat} {f : List Byte} (hp : p < 2) (on : s.feature 11 = true) (en : (s.port p).en = true) (link : (s.port p).link = true) (long : 14 ≤ f.length)
    (data : (s.port p).pctl.getLsbD 2 = false ∨ beField f 12 2 ≠ 0x88F7) : exec (.frameReceive p f true) s =
      if (s.port p).isArp f then .next (sendOwn s p ((s.port p).arpAnswer f))
      else if (s.port p).isSolicit f then .next (sendOwn s p ((s.port p).solicitAnswer f))
      else match (s.port p).tcpPayload f with
        | some (opens, pl) => .next (tcpReceive ((Config.endpointFrames p f s.tick).foldl (fun s f => sendOwn s p f) s) p opens pl)
        | none => .next (if (s.port p).wants f then rxDeliver s p f else s) := by
  refine (if_neg ?_).trans ((if_neg ?_).trans ?_)
  · simp [on, en, link]
    omega
  · rcases data with off | other
    · rw [off]
      nofun
    · simp [other]
  · refine if_congr Iff.rfl rfl (if_congr Iff.rfl rfl ?_)
    cases (s.port p).tcpPayload f with
    | some r => rfl
    | none =>
      dsimp only
      split <;> rfl

section Transmit
variable {s : State} {p : Nat} (on : s.feature 11 = true) (en : (s.port p).en = true) (link : (s.port p).link = true)
include on en link

theorem transmit_refused {k : Nat} (found : ((s.port p).posted.find? fun k => txRefused (s.readHome .host ((s.port p).txDesc k) 32)) = some k) :
    exec (.frameTransmit p) s = .next (completeTx s p k 1 none) := by
  refine (if_neg (by simp [on, en, link])).trans ?_
  rw [found]
  rfl

/-- Without a descriptor to refuse, the next frame leaves once the port is free. -/
theorem transmit_next (none : ((s.port p).posted.find? fun k => txRefused (s.readHome .host ((s.port p).txDesc k) 32)) = none) :
    exec (.frameTransmit p) s = if (s.port p).busyUntil > s.tick then .next s else match nextTx s (s.port p) with
      | some y =>
        let gone : Port := { s.port p with busyUntil := s.tick + wireTime y.frame.length, out := (s.port p).out ++ [(s.tick / 16, wireFrame y.frame)] }
        match y with
        | .posted k d _ => .next (completeTx (s.setPort gone) p k 0 (if leField d 10 1 == 1 then some (s.tick / 16) else .none))
        | .own _ => .next (s.setPort { gone with own := (s.port p).own.drop 1 })
      | .none => .next s := by
  refine (if_neg (by simp [on, en, link])).trans ?_
  rw [none]
  dsimp only
  split
  · rfl
  · cases nextTx s (s.port p) with
    | none => rfl
    | some y => cases y <;> rfl

end Transmit

/-- Settles O58: each happening's checks in turn; the oldest frames are first finds in the order of posting, and the port sends the first find from the highest class down. -/
theorem portsSendReceiveAndGate : Obligations.PortsSendReceiveAndGate := by
  unfold Obligations.PortsSendReceiveAndGate
  refine ⟨?_, fun s p => rfl, ?_, ?_, ?_, ?_, ?_, ?_, ?_, fun s p => rfl, fun s p => rfl, ?_⟩
  · intro s p v b
    refine ⟨fun h => if_pos (by simpa using h), fun hp on here => ?_⟩
    let u := if v.getLsbD 2 then b else dropMaster b p
    have there : ∃ x ∈ u.ports, x.port = p := by
      simp only [u]
      split
      · exact here
      · rw [show (dropMaster b p).ports = _ from ports_selectMaster _]
        exact there_setPort here
    have en : (u.port p).en = (b.port p).en := by
      simp only [u]
      split
      · rfl
      · rw [port_dropMaster here]
        rfl
    have bits : (v &&& 7).getLsbD 2 = v.getLsbD 2 ∧ (v &&& 7).getLsbD 0 = v.getLsbD 0 := by simp
    refine ⟨u.setPort (withPctl (u.port p) v), ?_, ?_⟩
    · show execPctlWrite p v s = _
      unfold execPctlWrite
      dsimp only
      rw [if_neg (by simp [show (barWrite s).feature 11 = true from on, hp]), bits.1, bits.2]
      rfl
    · rw [port_setPort there ((name_withPctl _ v).trans (name_port u p))]
      refine ⟨rfl, fun enables off => ?_⟩
      rw [← en] at off
      unfold withPctl
      rw [if_pos (by rw [enables, off]; rfl)]
      exact ⟨rfl, rfl, rfl, rfl⟩
  · intro s p x
    show (_ → execGateCycleStart p s = _) ∧ (∀ t, _ → _ → _ → execGateCycleStart p s = _) ∧ (_ → _ → _ → _ → execGateCycleStart p s = _)
    unfold execGateCycleStart
    refine ⟨fun off => if_pos (congrArg (! ·) off), fun t on pending due => ?_, fun on pending gating due => ?_⟩
    · refine (if_neg (not_bnot on)).trans ?_
      simp only [show (s.port p).cfgPending = some t from pending]
      exact if_pos due
    · refine (if_neg (not_bnot on)).trans ?_
      split
      · next t h => exact absurd (pending.symm.trans h) nofun
      · exact if_pos (Bool.and_eq_true_iff.2 ⟨gating, decide_eq_true due⟩)
  · intro s p x due
    have test : (x.gating && x.operIdx + 1 < x.operLen && x.entryEnd ≤ s.tick && x.entryEnd < x.cycleStart + x.operCycle) = true ↔ due := by simp [due, and_assoc]
    exact ⟨fun h => if_pos (test.2 h), fun h => if_neg fun e => h (test.1 e)⟩
  · intro s p x desc
    refine ⟨fun off => if_pos (by simpa [or_assoc] using off), fun k on en link found => transmit_refused on en link found, fun on en link good => ?_⟩
    have none : x.posted.find? (fun k => txRefused (desc k)) = none := List.find?_eq_none.2 fun k hk => by simp [good k hk]
    have next := transmit_next on en link none
    refine ⟨fun h => next.trans ?_, ?_⟩
    · rcases h with busy | nothing
      · exact if_pos busy
      · rw [show nextTx s (s.port p) = _ from nothing]
        exact ite_self _
    · intro idle y hy gone
      rw [if_neg (Nat.not_lt.2 idle), show nextTx s (s.port p) = _ from hy] at next
      refine ⟨fun k d f posted => next.trans ?_, fun f own => next.trans ?_⟩
      · subst posted
        exact congrArg (fun time => Host.Outcome.next (completeTx (s.setPort gone) p k 0 time)) (if_congr beq_iff_eq rfl rfl)
      · subst own
        rfl
  · exact fun s x => ⟨fun none c hc y oldest => nextTx_none none hc oldest, fun y some_ => nextTx_some some_⟩
  · intro s x c frame class_
    have eq := oldestTx_eq s x c
    cases own : (if x.classOf 0 == c then x.own.head? else none) with
    | none =>
      have no_own := ownFirst_none own
      cases first : oldestPosted s x c with
      | none =>
        rw [first, own] at eq
        exact ⟨fun _ => ⟨oldestPosted_none first, fun zero => List.head?_eq_none_iff.1 (no_own zero)⟩, fun k d f h => absurd (eq.symm.trans h) nofun, fun f h => absurd (eq.symm.trans h) nofun⟩
      | some k =>
        rw [first, own] at eq
        obtain ⟨hk, same, oldest⟩ := oldestPosted_first first
        refine ⟨fun h => absurd (eq.symm.trans h) nofun, fun k' d f h => ?_, fun f h => absurd (eq.symm.trans h) nofun⟩
        obtain ⟨rfl, rfl, rfl⟩ := Tx.posted.inj (Option.some.inj (eq.symm.trans h))
        exact ⟨hk, same, rfl, rfl, fun j hj lower e => Nat.not_le.2 lower (oldest j hj e), fun zero g hg => absurd ((no_own zero).symm.trans hg) nofun⟩
    | some g =>
      obtain ⟨zero, head⟩ := ownFirst_some own
      cases first : oldestPosted s x c with
      | none =>
        rw [first, own] at eq
        refine ⟨fun h => absurd (eq.symm.trans h) nofun, fun k d f h => absurd (eq.symm.trans h) nofun, fun f h => ?_⟩
        obtain rfl := Tx.own.inj (Option.some.inj (eq.symm.trans h))
        exact ⟨zero, g.1, head, fun j hj same => absurd same (oldestPosted_none first j hj)⟩
      | some k =>
        rw [first, own] at eq
        dsimp only at eq
        obtain ⟨hk, same, oldest⟩ := oldestPosted_first first
        refine ⟨fun h => absurd (eq.symm.trans h) nofun, ?_⟩
        by_cases before : k < g.1
        · rw [if_pos before] at eq
          refine ⟨fun k' d f h => ?_, fun f h => absurd (eq.symm.trans h) nofun⟩
          obtain ⟨rfl, rfl, rfl⟩ := Tx.posted.inj (Option.some.inj (eq.symm.trans h))
          refine ⟨hk, same, rfl, rfl, fun j hj lower e => Nat.not_le.2 lower (oldest j hj e), fun _ g' hg => ?_⟩
          rwa [← Option.some.inj (head.symm.trans hg)]
        · rw [if_neg before] at eq
          refine ⟨fun k' d f h => absurd (eq.symm.trans h) nofun, fun f h => ?_⟩
          obtain rfl := Tx.own.inj (Option.some.inj (eq.symm.trans h))
          exact ⟨zero, g.1, head, fun j hj e => (Nat.not_lt.1 before).trans (oldest j hj e)⟩
  · intro s p f here x free d n t
    by_cases full : free
    · obtain ⟨u, v, performs, store, regs, performs', store', regs', delivered⟩ := rxDeliver_delivered f full
      have ports : v.ports = s.ports := (congrArg (·.ports) performs'.frame).trans (congrArg (·.ports) performs.frame)
      rw [show t = _ from delivered]
      refine ⟨fun m => (regsOf_agents rfl m).trans ((regs' m).trans (regs m)), fun h => absurd full h, fun _ => ⟨port_setPort (by rw [ports]; exact here) (name_port s p), ?_⟩⟩
      exact Scheduling.storedOnly_append (ts := [_]) store (MemoryModel.storedOnly_between (fun _ _ => rfl) store' sameMemory_of)
    · rw [show t = _ from rxDeliver_dropped f full]
      exact ⟨fun m => regsOf_agents rfl m, fun _ => ⟨sameMemory_of, port_setPort here (name_port s p)⟩, fun h => absurd h full⟩
  · intro s p f ok x
    refine ⟨fun h => if_pos ?_, fun hp on en link long data arp solicit tcp => ?_, fun hp on en link long data => ⟨fun arp => ?_, fun arp solicit => ?_⟩⟩
    · simpa [or_assoc] using h
    · rw [received hp on en link long data]
      simp only [show (s.port p).isArp f = _ from arp, show (s.port p).isSolicit f = _ from solicit, show (s.port p).tcpPayload f = _ from tcp]
      rfl
    · rw [received hp on en link long data]
      exact if_pos arp
    · rw [received hp on en link long data, if_neg (by simp [show (s.port p).isArp f = _ from arp])]
      exact if_pos solicit
  · intro s
    refine ⟨fun none => if_pos (by simpa using none), fun had => ⟨dropMaster s s.regs.syncPort, if_neg (by simpa using had), master_dropMaster s _, ?_⟩, fun p best => bestMaster_least best, bestMaster_eq_none s⟩
    split
    · next none => exact selectMaster_none none had
    · next p best => exact selectMaster_some best

end Sys2Proof.Machine.HostInterface
end

section
/-! PROOFS. What the trace, merges and stops may touch (R100, R464-R473). -/
-- One proof after another: in parallel, those of the whole text need more memory than one process may take.
set_option Elab.async false

namespace Sys2Proof.Machine.Scheduling
open Sys2Proof.Machine.NumberFormats

/-- Nothing but agents, results outstanding, local memory, the host's registers, what collective copies have missed, held paths and since when gangs are held
has changed. -/
structure StopsOnly (s t : State) : Prop where
  frame : t = { s with agents := t.agents, pend := t.pend, loc := t.loc, regs := t.regs, colls := t.colls, stops := t.stops, gangs := t.gangs }
  gangs : ∃ f : Gang → Gang, (∀ y, f y = { y with stopSince := (f y).stopSince }) ∧ t.gangs = s.gangs.map f

theorem stopsOnly_of {s t : State} (frame : t = { s with agents := t.agents, pend := t.pend, loc := t.loc, regs := t.regs, colls := t.colls, stops := t.stops, gangs := t.gangs } := by rfl)
    (gangs : t.gangs = s.gangs := by rfl) : StopsOnly s t := ⟨frame, id, fun _ => rfl, by rw [gangs, List.map_id]⟩

theorem StopsOnly.refl (s : State) : StopsOnly s s := stopsOnly_of

theorem StopsOnly.trans {s t u : State} (h : StopsOnly s t) (h' : StopsOnly t u) : StopsOnly s u where
  frame := h'.frame.trans (by rw [h.frame])
  gangs := by
    obtain ⟨f, same, gangs⟩ := h.gangs
    obtain ⟨f', same', gangs'⟩ := h'.gangs
    refine ⟨f' ∘ f, fun y => ?_, by rw [gangs', gangs, List.map_map]⟩
    show f' (f y) = { y with stopSince := (f' (f y)).stopSince }
    exact (same' (f y)).trans (by rw [same y])

theorem TraceOnly.stopsOnly {s t : State} (h : TraceOnly s t) : StopsOnly s t := by
  obtain ⟨_, _, _, _, _, rfl⟩ := h
  exact stopsOnly_of

theorem foldl_stopsOnly {α : Type} {f : State → α → State} (step : ∀ s a, StopsOnly s (f s a)) (l : List α) (s : State) : StopsOnly s (l.foldl f s) :=
  List.foldlRecOn l _ (.refl s) fun t h a _ => h.trans (step t a)

theorem packet_traceOnly (s : State) (x : Agent) (bs : List Byte) (isSync : Bool) : TraceOnly s (packet s x bs isSync) := (emit_traceOnly s bs).trans (updAgent_traceOnly _ _ _)

theorem dropPacket_traceOnly (s : State) (n : Nat) : TraceOnly s (dropPacket s n) := ⟨_, _, _, _, _, rfl⟩

theorem traceFrom_traceOnly (s : State) (n type p : Nat) (payload : Word) (ext : List Byte) (tbl : List Path) : TraceOnly s (traceFrom s n type p payload ext tbl) := by
  unfold traceFrom
  split
  · exact .refl s
  · split
    · exact .refl s
    · split
      · exact traceSync_traceOnly ..
      · dsimp only
        split
        · exact dropPacket_traceOnly s n
        · have synced (due : Bool) : TraceOnly s (if due then traceSync s n p tbl else s) := by
            cases due
            · exact .refl s
            · exact traceSync_traceOnly ..
          split
          · exact (synced _).trans (packet_traceOnly ..)
          · exact synced _

theorem trace_traceOnly (s : State) (n type p : Nat) (payload : Word) (ext : List Byte) : TraceOnly s (trace s n type p payload ext) := traceFrom_traceOnly ..

theorem mergeAt_stopsOnly (s : State) (n : Nat) (x : Agent) (pc : Dword) : StopsOnly s (mergeAt s n x pc) := by
  unfold mergeAt
  dsimp only
  split
  · split
    · exact .refl s
    · exact .trans (t := { s with agents := _, pend := _ }) stopsOnly_of (traceFrom_traceOnly ..).stopsOnly
  · exact .refl s

theorem updGang_stopsOnly (s : State) (g : GangKey) {f : Gang → Gang} (same : ∀ y, f y = { y with stopSince := (f y).stopSince }) : StopsOnly s (s.updGang g f) where
  frame := rfl
  gangs := by
    refine ⟨fun y => if y.key == g then f y else y, fun y => ?_, rfl⟩
    dsimp only
    split
    · exact same y
    · rfl

theorem holdPath_stopsOnly (s : State) (n p cause : Nat) : StopsOnly s (holdPath s n p cause) := by
  unfold holdPath
  split
  · refine .trans ?_ (trace_traceOnly ..).stopsOnly
    refine .trans (.trans (t := { s with agents := _ }) stopsOnly_of (updGang_stopsOnly _ _ fun _ => rfl)) stopsOnly_of
  · exact .refl s

theorem breakHold_stopsOnly (s : State) (n p k : Nat) : StopsOnly s (breakHold s n p k) := by
  unfold breakHold
  dsimp only
  split
  · exact (holdPath_stopsOnly s n p k).trans stopsOnly_of
  · exact holdPath_stopsOnly s n p k

theorem stopArrivals_stopsOnly (s : State) (n : Nat) : StopsOnly s (stopArrivals s n) := by
  unfold stopArrivals
  split
  · exact .refl s
  · refine foldl_stopsOnly (fun s i => ?_) _ s
    split
    · split
      · split
        · exact breakHold_stopsOnly ..
        · exact .refl s
      · exact .refl s
    · exact .refl s

theorem mergeTest_stopsOnly (s : State) (n : Nat) : StopsOnly s (mergeTest s n) := by
  unfold mergeTest
  dsimp only
  split
  · exact stopArrivals_stopsOnly s n
  · refine (stopArrivals_stopsOnly s n).trans (foldl_stopsOnly (fun s pc => ?_) _ _)
    split
    · exact mergeAt_stopsOnly ..
    · exact .refl s

theorem endHeld_stopsOnly (s : State) (g : GangKey) : StopsOnly s (endHeld s g) := by
  unfold endHeld
  split
  · exact .refl s
  · split
    · exact .refl s
    · exact .trans (updGang_stopsOnly s g fun _ => rfl) stopsOnly_of

theorem mergeAfterGo_stopsOnly (s : State) (n : Nat) (before : Agent) : StopsOnly s (mergeAfterGo s n before) := by
  unfold mergeAfterGo
  split
  · exact .refl s
  · split
    · exact mergeTest_stopsOnly s n
    · exact .trans (.trans (t := s.updAgent n _) stopsOnly_of (mergeTest_stopsOnly ..)) stopsOnly_of

theorem releaseStop_stopsOnly (s : State) (t : Stop) (step : Bool) : StopsOnly s (releaseStop s t step) := by
  unfold releaseStop
  dsimp only
  split
  · exact stopsOnly_of
  · refine .trans (.trans ?_ (mergeAfterGo_stopsOnly ..)) (endHeld_stopsOnly ..)
    exact .trans (t := { s with agents := _, stops := _ }) stopsOnly_of (trace_traceOnly ..).stopsOnly

theorem releaseCtx_stopsOnly (s : State) (ctx : Nat) : StopsOnly s (releaseCtx s ctx) := foldl_stopsOnly (fun s t => releaseStop_stopsOnly s t false) _ s

end Sys2Proof.Machine.Scheduling
end

section
/-! PROOFS. Contexts created and destroyed, features, modes, plain registers, RESYNC and reset (R395-R398, R404-R408, R420, R448). -/
-- One proof after another: in parallel, those of the whole text need more memory than one process may take.
set_option Elab.async false

namespace Sys2Proof.Machine.HostInterface
open Sys2Proof.Machine.NumberFormats Sys2Proof.Machine.Scheduling

theorem not_bne {a b : Nat} (h : a = b) : ¬(a != b) = true := by simp [h]

/-! ## The power limit (R407) -/

theorem watchPower_within {s : State} (h : s.regs.fixed = false ∨ s.power ≤ s.regs.powerlim) : watchPower s = { s with overSince := none } :=
  congrArg (fun since => { s with overSince := since }) (if_neg fun e => by
    obtain ⟨fixed, above⟩ := Bool.and_eq_true_iff.1 e
    exact h.elim (fun off => Bool.eq_false_iff.1 off fixed) (Nat.not_le.2 (of_decide_eq_true above)))

theorem watchPower_above {s : State} (fixed : s.regs.fixed = true) (above : s.regs.powerlim < s.power) : watchPower s = { s with overSince := s.overSince.or (some s.tick) } :=
  congrArg (fun since => { s with overSince := since }) (if_pos (by rw [fixed, decide_eq_true above]; rfl))

/-! ## Contexts -/

theorem ctx?_setCtx (s : State) (c : Ctx) : (s.setCtx c).ctx? c.id = some c := by simp [State.setCtx, State.ctx?]

theorem ctxs_writeCstate (s : State) (n code : Nat) : (writeCstate s n code).ctxs = s.ctxs := congrArg (·.ctxs) (storeDevice_performs ..).frame

theorem regs_writeCstate (s : State) (n code : Nat) : (writeCstate s n code).regs = s.regs := congrArg (·.regs) (storeDevice_performs ..).frame

theorem ctx?_congr {s t : State} (same : t.ctxs = s.ctxs) (n : Nat) : t.ctx? n = s.ctx? n := by
  unfold State.ctx?
  rw [same]

theorem ctx?_updCtx {s : State} {n : Nat} {c : Ctx} (here : s.ctx? n = some c) {f : Ctx → Ctx} (name : ∀ x, (f x).id = x.id) : (s.updCtx n f).ctx? n = some (f c) := by
  have found : (s.updCtx n f).ctx? n = (s.ctx? n).map fun x => if x.id == n then f x else x := find_map_of _ _ (fun x => by split <;> simp [name]) s.ctxs
  rw [found, here, Option.map_some]
  exact congrArg some (if_pos (List.find?_some (p := fun x : Ctx => x.id == n) here))

theorem id_of_ctx? {s : State} {n : Nat} {c : Ctx} (here : s.ctx? n = some c) : c.id = n := by simpa using List.find?_some here

/-- A context that is there is refused a create while it is live or being destroyed. -/
theorem create_refused {s : State} {n : Nat} (h : 256 ≤ n ∨ ∃ c, (barWrite s).ctx? n = some c ∧ (c.cstate = 1 ∨ c.cstate = 2)) : exec (.ctxCreate n) s = .next (barWrite s) := by
  refine if_pos ?_
  rcases h with far | ⟨c, here, live⟩
  · simp [far]
  · rw [here]
    simp [live]

theorem create_open {s : State} {n : Nat} (near : n < 256) (free : ∀ c, (barWrite s).ctx? n = some c → c.cstate ≠ 1 ∧ c.cstate ≠ 2) :
    ¬(decide (n ≥ 256) || (((barWrite s).ctx? n).map fun c => c.cstate == 1 || c.cstate == 2).getD false) = true := by
  cases here : (barWrite s).ctx? n with
  | none => simpa using near
  | some c => simp [free c here, near]

/-- A created context is as its descriptor says. -/
theorem create_live {s : State} {n : Nat} (near : n < 256) (free : ∀ c, (barWrite s).ctx? n = some c → c.cstate ≠ 1 ∧ c.cstate ≠ 2)
    (good : createCode (barWrite s) n ((barWrite s).readHome .loc (ctxDescAt (barWrite s) n) 128) = 1) :
    ∃ (u : State) (c : Ctx), exec (.ctxCreate n) s = .next (writeCstate { u.setCtx c with regs := { (u.setCtx c).regs with ctxEver := true } } n 1)
      ∧ c = { ctxOfDesc n ((barWrite s).readHome .loc (ctxDescAt (barWrite s) n) 128) with bwidx := c.bwidx, blost := c.blost } := by
  show ∃ (u : State) (c : Ctx), execCtxCreate n s = _ ∧ _
  unfold execCtxCreate
  dsimp only
  rw [if_neg (create_open near free), if_neg (not_bne good)]
  exact ⟨_, _, rfl, rfl⟩

/-! ## Destroying (R398) -/

theorem asnShared_of {s t : State} {c : Ctx} (same : t.ctxs = updWhere (fun x => x.id == c.id) (fun x => { x with cstate := 2 }) s.ctxs) : asnShared t c = asnShared s c := by
  unfold asnShared liveCtxs
  rw [same, Bool.eq_iff_iff, List.any_eq_true, List.any_eq_true]
  constructor
  · rintro ⟨x, hx, other⟩
    obtain ⟨hx, live⟩ := List.mem_filter.1 hx
    obtain ⟨y, hy, rfl⟩ := List.mem_map.1 hx
    by_cases own : y.id = c.id
    · simp [own] at other
    · rw [if_neg (by simpa using own)] at live other
      exact ⟨y, List.mem_filter.2 ⟨hy, live⟩, other⟩
  · rintro ⟨x, hx, other⟩
    obtain ⟨hx, live⟩ := List.mem_filter.1 hx
    have own : ¬(x.id == c.id) = true := fun e => by simp [beq_iff_eq.1 e] at other
    exact ⟨x, List.mem_filter.2 ⟨List.mem_map.2 ⟨x, hx, if_neg own⟩, live⟩, other⟩

/-- The machine with a context marked as being destroyed. -/
def marked (s : State) (n : Nat) : State := writeCstate ((barWrite s).updCtx n fun c => { c with cstate := 2 }) n 2

/-- The same with the context's paths released. -/
def destroying (s : State) (n : Nat) : State := releaseCtx (marked s n) n

theorem marked_frame (s : State) (n : Nat) : Performs ((barWrite s).updCtx n fun c => { c with cstate := 2 }) (marked s n) := storeDevice_performs ..

theorem destroying_frame (s : State) (n : Nat) : StopsOnly (marked s n) (destroying s n) := releaseCtx_stopsOnly ..

theorem ctxs_destroying (s : State) (n : Nat) : (destroying s n).ctxs = updWhere (fun x => x.id == n) (fun x => { x with cstate := 2 }) s.ctxs :=
  (congrArg (·.ctxs) (destroying_frame s n).frame).trans (congrArg (·.ctxs) (marked_frame s n).frame)

theorem gangs_destroying {s : State} (n : Nat) (none : s.gangs = []) : (destroying s n).gangs = [] := by
  obtain ⟨f, -, gangs⟩ := (destroying_frame s n).gangs
  rw [gangs, show (marked s n).gangs = s.gangs from congrArg (·.gangs) (marked_frame s n).frame, none]
  rfl

/-- What a destroy leaves that has nothing to disable, end or free. -/
def destroyed (s : State) (n : Nat) : State :=
  { s with pins := s.pins.filter (fun p => p.ctx != n), stageHolds := s.stageHolds.filter (fun h => h.1 != n)
           books := s.books.map fun b => if b.owner.getD 1 256 == n then { b with owner := [] } else b }

theorem foldl_filter_nil {α β : Type} {l : List α} (none : l = []) {p : α → Bool} {f : β → α → β} {b : β} : (l.filter p).foldl f b = b := by
  rw [none]
  rfl

theorem dropFills_none {s : State} (n : Nat) (fills : s.fills = []) (asks : s.asks = []) : dropFills s n = s := by
  unfold dropFills retryAsks
  simp only [fills, asks, List.filter_nil, List.foldl_nil]
  rw [← fills, ← asks]

theorem destroy_idle {s : State} {n : Nat} {c : Ctx} (here : s.ctx? n = some c) (live : c.cstate = 1) (gangs : s.gangs = []) (launches : s.launches = []) (queues : s.queues = [])
    (fills : s.fills = []) (asks : s.asks = []) : exec (.ctxDestroy n) s = .next (
      if asnShared s c then destroyed (destroying s n) n else dropXlates (dropLines (destroyed (destroying s n) n) c.asn fun _ => true) (.asn c.asn)) := by
  have names := id_of_ctx? here
  have gangs_ := gangs_destroying n gangs
  have launches_ : (destroying s n).launches = [] := ((congrArg (·.launches) (destroying_frame s n).frame).trans (congrArg (·.launches) (marked_frame s n).frame)).trans launches
  have queues_ : (destroying s n).queues = [] := ((congrArg (·.queues) (destroying_frame s n).frame).trans (congrArg (·.queues) (marked_frame s n).frame)).trans queues
  have fills_ : (destroying s n).fills = [] := ((congrArg (·.fills) (destroying_frame s n).frame).trans (congrArg (·.fills) (marked_frame s n).frame)).trans fills
  have asks_ : (destroying s n).asks = [] := ((congrArg (·.asks) (destroying_frame s n).frame).trans (congrArg (·.asks) (marked_frame s n).frame)).trans asks
  have shared : asnShared (destroyed (destroying s n) n) c = asnShared s c := asnShared_of ((ctxs_destroying s n).trans (by rw [names]))
  show execCtxDestroy n s = _
  unfold execCtxDestroy
  dsimp only
  rw [show (barWrite s).ctx? n = some c from here]
  dsimp only
  rw [if_neg (by simp [live]), show releaseCtx (writeCstate ((barWrite s).updCtx n fun c => { c with cstate := 2 }) n 2) n = destroying s n from rfl, ← shared]
  generalize destroying s n = u at *
  rw [foldl_filter_nil queues_, dropFills_none n fills_ asks_, foldl_filter_nil gangs_, foldl_filter_nil gangs_, foldl_filter_nil launches_]
  show (if asnShared (destroyed u n) c then _ else _) = _
  split <;> rfl

theorem powerlim_write (s : State) (v : BitVec 64) : exec (.registerWrite 0x30 v) s =
    .next (if 150000 ≤ v.toNat ∧ v.toNat ≤ 900000 then watchPower { barWrite s with regs := { s.regs with powerlim := v.toNat } } else barWrite s) := by
  have write : exec (.registerWrite 0x30 v) s =
    .next (if 150000 ≤ v.toNat && v.toNat ≤ 900000 then watchPower { barWrite s with regs := { s.regs with powerlim := v.toNat } } else barWrite s) := rfl
  rw [write]
  simp only [Bool.and_eq_true, decide_eq_true_eq]

/-- RESYNC's last store is DONE, the sequence number behind the summary. -/
theorem resync_done {s : State} (v : BitVec 64) (page : v.toNat % 4096 = 0) (some_ : v ≠ 0) : ∃ u, exec (.resync v) s = .next { storeDevice u .host (v.toNat + 56) (leBytes 8 (s.regs.resyncSeq + 1)) with fresh := u.fresh + 1 }
    ∧ u.regs = { s.regs with resyncSeq := s.regs.resyncSeq + 1 } := by
  have nonzero : v.toNat ≠ 0 := fun zero => some_ (BitVec.eq_of_toNat_eq zero)
  exact ⟨_, if_neg (by simp [page, nonzero]), congrArg (·.regs) (storeDevice_performs ..).frame⟩

/-- Settles O53: each happening tests, then sets its registers or states; a destroy with nothing left to end drops what the context held. -/
theorem hostControlsContextsAndFeatures : Obligations.HostControlsContextsAndFeatures := by
  unfold Obligations.HostControlsContextsAndFeatures
  refine ⟨?_, ?_, ?_, ?_, ?_, ?_, ?_, ?_, ?_, ?_, ?_, ?_⟩
  · intro s n b desc
    refine ⟨create_refused, fun near free bad => (if_neg (create_open near free)).trans (if_pos (bne_iff_ne.2 bad)), fun near free good => ?_⟩
    obtain ⟨u, c, run, desc_⟩ := create_live near free good
    have name : c.id = n := by rw [desc_]; rfl
    refine ⟨_, c, run, (ctx?_congr (ctxs_writeCstate ..) n).trans (name ▸ ctx?_setCtx u c), by rw [desc_]; rfl, by rw [desc_]; rfl, by rw [desc_]; rfl, by rw [desc_]; rfl, ?_, ?_⟩
    · rw [desc_]
      exact if_congr beq_iff_eq rfl rfl
    · rw [regs_writeCstate]
  · intro s n away
    show execCtxDestroy n s = _
    unfold execCtxDestroy
    dsimp only
    cases here : (barWrite s).ctx? n with
    | none => rfl
    | some c => exact if_pos (by simpa using away c here)
  · intro s n c here live gangs launches queues fills asks
    have run := destroy_idle here live gangs launches queues fills asks
    have state : (destroyed (destroying s n) n).ctx? n = some { c with cstate := 2 } :=
      (ctx?_congr (t := destroyed (destroying s n) n) (s := s.updCtx n fun x => { x with cstate := 2 }) (ctxs_destroying s n) n).trans (ctx?_updCtx here fun _ => rfl)
    have pins : ∀ p ∈ (destroyed (destroying s n) n).pins, p.ctx ≠ n := fun p hp => by simpa using (List.mem_filter.1 hp).2
    have holds : ∀ h ∈ (destroyed (destroying s n) n).stageHolds, h.1 ≠ n := fun h hh => by simpa using (List.mem_filter.1 hh).2
    generalize destroyed (destroying s n) n = u at run state pins holds
    cases shared : asnShared s c with
    | true =>
      rw [shared, if_pos rfl] at run
      exact ⟨_, _, run, state, rfl, pins, holds, nofun⟩
    | false =>
      rw [shared, if_neg nofun] at run
      refine ⟨_, _, run, state, rfl, pins, holds, fun _ => ⟨fun x hx => ?_, fun l => ?_⟩⟩
      · have left := (List.mem_filter.1 hx).2
        exact fun own => by simp [Inv.covers, own] at left
      · refine List.any_eq_false.2 fun r hr => ?_
        have left := (List.mem_filter.1 hr).2
        rw [Bool.and_true] at left
        simp [show r.asn ≠ c.asn by simpa using left]
  · intro s n c here
    show (_ → execDestroyComplete n s = _) ∧ (_ → _ → _ → _ → execDestroyComplete n s = _)
    unfold execDestroyComplete
    simp only [here]
    refine ⟨fun h => ?_, fun ending jobs gangs colls => ?_⟩
    · refine congrArg Host.Outcome.next (if_neg fun test => ?_)
      simp only [Bool.and_eq_true, beq_iff_eq, Bool.not_eq_true', List.any_eq_false] at test
      rcases h with other | ⟨j, hj, own⟩ | ⟨y, hy, own⟩
      · exact other test.1.1.1
      · exact test.1.1.2 j hj own
      · exact test.1.2 y hy own
    · refine congrArg Host.Outcome.next (if_pos ?_)
      simp only [Bool.and_eq_true, beq_iff_eq, Bool.not_eq_true', List.any_eq_false]
      exact ⟨⟨⟨ending, jobs⟩, gangs⟩, by simp [colls]⟩
  · intro s v r
    refine ⟨fun h done => if_pos done, fun fresh => (if_neg ?_).trans (if_pos rfl), fun fresh => (if_neg ?_).trans (if_neg (by decide))⟩
    all_goals exact Bool.eq_false_iff.1 fresh
  · intro s v b free
    have taken : (!b.feature 9 || b.ctxs.any fun c => c.cstate == 1 || c.cstate == 2) = true ↔ ¬free := by
      simp only [free, Bool.or_eq_true, Bool.not_eq_true', List.any_eq_true, beq_iff_eq, not_and_or, not_forall, Bool.not_eq_true]
      refine or_congr Iff.rfl ⟨fun ⟨c, hc, live⟩ => ⟨c, hc, ?_⟩, fun ⟨c, hc, live⟩ => ⟨c, hc, ?_⟩⟩ <;> tauto
    refine ⟨fun h => if_pos (taken.2 h), fun h on off => ?_, fun h off => ?_⟩
    · refine (if_neg fun e => taken.1 e h).trans ((if_pos (by rw [on, show (barWrite s).regs.fixed = false from off]; rfl)).trans ?_)
      simp only [watchPower, on, Bool.true_and, decide_eq_true_eq]
      rfl
    · refine (if_neg fun e => taken.1 e h).trans ((if_neg (by rw [off]; nofun)).trans ?_)
      rw [watchPower_within (.inl off), off]
      rfl
  · intro s w
    show (_ → execOverpower w s = _) ∧ (∀ t, _ → _ → _ → _ → execOverpower w s = _)
    unfold execOverpower
    refine ⟨fun h => ?_, fun t fixed above since late => ?_⟩
    · rw [watchPower_within (s := { s with power := w }) h]
      rfl
    · rw [watchPower_above (s := { s with power := w }) fixed above]
      simp only [since]
      exact if_pos late
  · intro s a b
    show execFirmwareReload a b s = _
    unfold execFirmwareReload
    split <;> rfl
  · exact fun s off v odd => if_pos (by simpa using odd)
  · intro s v
    rw [powerlim_write]
    refine ⟨_, rfl, ?_⟩
    by_cases accepted : 150000 ≤ v.toNat ∧ v.toNat ≤ 900000
    · rw [if_pos accepted, if_pos accepted]
      refine ⟨fun fixed _ => ?_, rfl, sameMemory_of, fun n => regsOf_agents rfl n⟩
      simp only [watchPower, show s.regs.fixed = true from fixed, Bool.true_and, decide_eq_true_eq]
      rfl
    · rw [if_neg accepted, if_neg accepted]
      exact ⟨fun _ changed => absurd rfl changed, rfl, sameMemory_of, fun n => regsOf_agents rfl n⟩
  · intro s v
    refine ⟨fun h => if_pos (by simpa using h.imp id fun zero => congrArg BitVec.toNat zero), fun page some_ => ?_⟩
    obtain ⟨u, run, regs⟩ := resync_done (s := s) v page some_
    refine ⟨_, run, ?_, ?_⟩
    · exact (congrArg (·.regs.resyncSeq) (storeDevice_performs u ..).frame).trans (congrArg (·.resyncSeq) regs)
    · have stored := MemoryInstructions.readHome_of_stored (storeDevice_storedOnly u (sp := .host) (v.toNat + 56) (leBytes 8 (s.regs.resyncSeq + 1)) nofun)
      rw [MemoryInstructions.length_leBytes] at stored
      exact (congrArg leNat stored).trans (MemoryInstructions.leNat_leBytes 8 _)
  · exact fun s => ⟨_, rfl, rfl, rfl, rfl, rfl, rfl, rfl, rfl⟩

end Sys2Proof.Machine.HostInterface
end

section
/-! PROOFS. A released path may be held again at once (R471, R472, R484). -/
-- One proof after another: in parallel, those of the whole text need more memory than one process may take.
set_option Elab.async false

namespace Sys2Proof.Machine.Scheduling

/-- A wave with one path at its join, where a breakpoint of the whole wave stands, and one held at its own join by another breakpoint. -/
def heldAtJoin : Agent :=
  { num := 0, gang := ⟨0, 0⟩, role := 0, idx := 0
    paths := [{ st := .join, pc := 64, jpc := some 64, xmask := 1 }, { st := .stopped, pc := 128, jpc := some 128, xmask := 2 }] }

/-- The entry of the held path, in STOPTAB slot 1. -/
def heldEntry : Stop := { slot := 1, pc := 128, agent := 0, path := 1, ctx := 0, cause := 1, xmask := 2 }

/-- Stops are armed for the wave's context; breakpoint 0, with WAVE, is at the first path's join and breakpoint 1 at the second's. -/
def heldWave : State :=
  { State.reset with
    agents := [heldAtJoin]
    stops := [heldEntry]
    regs := { State.reset.regs with stoparm := [(0, 1)], bkpt := [(0, 64), (1, 0x300), (2, 128), (3, 0x100)] } }

/-- The release's merge test holds the first path, whose breakpoint takes the second one's release away, and then the second one too: in the lowest free slot, its old one. -/
theorem release_holds_again : heldEntry ∈ (releaseStop heldWave heldEntry false).stops := by decide

/-- Refutes O56: a released path that stands at its join is held again in its old entry, where a breakpoint of its wave is hit in the same merge test. -/
theorem not_traceAndStopsAreControlled : ¬ Obligations.TraceAndStopsAreControlled := by
  unfold Obligations.TraceAndStopsAreControlled
  rintro ⟨-, -, releases, -⟩
  have named : stopNamed (barWrite heldWave) 0 0 1 = some heldEntry := by decide
  obtain ⟨-, -, gone⟩ := (releases heldWave 0 0 1 false).2 heldEntry named
  exact (gone heldAtJoin { st := .stopped, pc := 128, jpc := some 128, xmask := 2 } rfl rfl rfl).1 release_holds_again

end Sys2Proof.Machine.Scheduling
end

section
/-! PROOFS. TSTAMP's stamp and mark, and TRCM's packet (R427, R428, R470). -/
-- One proof after another: in parallel, those of the whole text need more memory than one process may take.
set_option Elab.async false

namespace Sys2Proof.Machine.Scheduling
open Sys2Proof.Machine.NumberFormats Sys2Proof.Machine.MemoryModel Sys2Proof.Machine.MemoryInstructions Sys2Proof.Machine.UnitQueries

/-! ## A store at its home, as a release too (R228, R234) -/

theorem releaseAgent_unwritten {s : State} (n : Nat) (drained : s.relaxed = []) : Unwritten s (releaseAgent s n) := by
  unfold releaseAgent drainAgent
  rw [drainWhere_of_none drained]
  exact updAgent_unwritten s n (fun _ => ⟨rfl, rfl⟩) fun _ => rfl

theorem relaxed_releaseAgent {s : State} (n : Nat) (drained : s.relaxed = []) : (releaseAgent s n).relaxed = [] := by
  unfold releaseAgent drainAgent
  rw [drainWhere_of_none drained]
  exact drained

/-- A release's store is one stamped write too. -/
theorem storeHome_release_writes {s : State} (n : Nat) (sp : Sp) (a : Nat) (bs : List Byte) (rel : Nat × Nat) (drained : s.relaxed = []) :
    ∃ u ts, Unwritten s u ∧ Unwritten (stampedWrite u sp a bs ts) (storeHome s n sp a bs (some rel) false true) := by
  obtain ⟨cur, waits⟩ := foldl_meetRefresh_eq (unitParts sp a bs.length) (takeRel (releaseAgent s n) n (some rel)).2
  let taken := (takeRel (releaseAgent s n) n (some rel)).2
  refine ⟨{ taken with cur := cur }, taken.storeTs sp a bs.length (((taken.agent? n).map (·.clock)).getD 0), ((releaseAgent_unwritten n drained).trans (takeRel_unwritten ..)).marked _ _ _ _, ?_⟩
  unfold storeHome storeParts
  simp only [List.foldl_cons, List.foldl_nil, drainOverlap, drainWhere_of_none drained, List.flatMap_cons, List.flatMap_nil, List.append_nil,
    Option.isSome_some, Bool.false_eq_true, if_false, if_true]
  rw [waits]
  refine .marked (.trans ?_ (seeParts_unwritten ..)) _ _ _ _
  exact .trans (.marked (.refl _) _ _ _ _) (updAgent_unwritten _ n (fun _ => ⟨rfl, rfl⟩) fun _ => rfl)

/-- A store that is not relaxed stores its bytes and no other. -/
theorem storeOrd_storedOnly {s : State} (n : Nat) {sp : Sp} (a : Nat) (bs : List Byte) {kind : Nat} (scope storage : Nat) (drained : s.relaxed = []) (home : ∀ g r, sp = .scr g r → s.blockOf? g r ≠ none)
    (strong : kind ≠ 1) : StoredOnly s (storeOrd s n sp a bs kind scope storage) [(sp, a, bs)] := by
  unfold storeOrd
  rw [if_neg (by simpa using strong)]
  split
  · obtain ⟨u, ts, before, after⟩ := storeHome_release_writes n sp a bs (scope, storage) drained
    exact storedOnly_of_stampedWrite home before after
  · obtain ⟨⟨u, before, after⟩, -⟩ := storeHome_writes n sp a bs drained
    exact storedOnly_of_stampedWrite home before after

theorem place_space (c : Ctx) (l : Leaf) (va : Nat) (g : GangKey) (r : Nat) : (place c l va).1 ≠ .scr g r := by
  unfold place
  split
  · nofun
  · dsimp only
    split <;> nofun

/-- An address translates to no scratchpad. -/
theorem tr_space {s : State} {c : Ctx} {sup : Bool} {w : Want} {va a : Nat} {sp : Sp} {l : Leaf} (h : tr s c sup w va = .ok sp a l) (g : GangKey) (r : Nat) : sp ≠ .scr g r := by
  unfold tr at h
  split at h
  · exact absurd h nofun
  · split at h
    · exact absurd h nofun
    · exact absurd h nofun
    · split at h
      · obtain ⟨rfl, -, -⟩ := Tr.ok.inj h
        exact place_space c _ va g r
      · exact absurd h nofun

theorem checkLanes_space {s : State} {g : GangKey} {sup : Bool} {want : Want} {size : Nat} {eas : List (Nat × Nat)} {rule : Spot → Option Nat} {ts : List Spot} {miss : List (Nat × Miss)}
    (h : checkLanes s g sup want size eas rule = .go ts miss) {p : Spot} (hp : p ∈ ts) (h' : GangKey) (r : Nat) : p.sp ≠ .scr h' r := by
  obtain ⟨rfl, -, -⟩ := of_checkLanes_go h
  obtain ⟨⟨q, o⟩, hq, rfl⟩ := List.mem_map.1 hp
  obtain ⟨e, he, spot⟩ := List.mem_filterMap.1 hq
  obtain ⟨v, -, rfl⟩ := List.mem_map.1 he
  unfold spotOf at spot
  dsimp only at spot
  split at spot
  · next sp a leaf translated =>
    obtain ⟨rfl, -⟩ := Prod.mk.inj (Option.some.inj spot)
    exact tr_space translated h' r
  · exact absurd spot nofun

/-! ## Packets of a wave (R465-R468) -/

theorem dropPacket_bookkeeping (s : State) (n : Nat) : Bookkeeping s (dropPacket s n) :=
  (Untouched.bookkeeping (t := { s with regs := { s.regs with trlost := _, trpending := _ } }) untouched_of).trans (updAgent_bookkeeping _ _ (fun _ => ⟨rfl, rfl⟩) fun _ _ => rfl)

theorem traceFrom_untraced {s : State} {n : Nat} {x : Agent} (hx : s.agent? n = some x) (off : traced s x = false) (type p : Nat) (payload : Word) (ext : List Byte) (tbl : List Path) :
    traceFrom s n type p payload ext tbl = s := by
  unfold traceFrom
  rw [hx]
  exact if_pos (by rw [off]; rfl)

theorem traceFrom_bookkeeping (s : State) (n type p : Nat) (payload : Word) (ext : List Byte) (tbl : List Path) : Bookkeeping s (traceFrom s n type p payload ext tbl) := by
  unfold traceFrom
  split
  · exact .refl s
  · next x hx =>
    split
    · exact .refl s
    · next shown =>
      have on : s.regs.trctl.getLsbD 0 := by
        refine on_of_traced (x := x) ?_
        by_contra off
        exact shown (by rw [Bool.eq_false_iff.2 off]; rfl)
      split
      · exact traceSync_bookkeeping ..
      · dsimp only
        split
        · exact dropPacket_bookkeeping s n
        · have synced (due : Bool) : Bookkeeping s (if due then traceSync s n p tbl else s) := by
            cases due
            · exact .refl s
            · exact traceSync_bookkeeping ..
          split
          · refine (synced _).trans (packet_bookkeeping ?_ ..)
            rw [(synced _).trctl]
            exact on
          · exact synced _

theorem trace_bookkeeping (s : State) (n type p : Nat) (payload : Word) (ext : List Byte) : Bookkeeping s (trace s n type p payload ext) := traceFrom_bookkeeping ..

theorem pilotMark_bookkeeping (s : State) (x : Agent) (v : Word) (ext : List Byte) : Bookkeeping s (pilotMark s x v ext) := by
  unfold pilotMark
  split
  · next shown => exact packet_bookkeeping (on_of_traced shown) ..
  · exact .refl s

theorem regsOf_pilotMark (s : State) (x : Agent) (v : Word) (ext : List Byte) (m : Nat) : (pilotMark s x v ext).regsOf m = s.regsOf m := by
  unfold pilotMark
  split
  · exact regsOf_packet ..
  · rfl

/-- Settles O45: the stamp is one store at its home, the mark an update of trails, and a packet writes the ring alone. -/
theorem stampsAndTraceMarks : Obligations.StampsAndTraceMarks := by
  unfold Obligations.StampsAndTraceMarks
  refine ⟨?_, ?_, ?_⟩
  · intro x s k nd hi b now at_
    have time : b.tick / 16 = now := congrArg (· / 16) (issued_bookkeeping s k nd).tick
    refine ⟨fun idle => endsWith_of (execTstamp x s) rfl rfl hi (by simp only [idle, lanesOf_zero]; rfl), fun l rest lanes => ⟨fun code info faults => endsWith_of (execTstamp x s) rfl rfl hi ?_, fun p goes edge => ?_⟩⟩
    · simp only [lanes, show checkLanes (issued s k (memNeed [(x.d.toNat, 2), (x.a.toNat, 2)])) k.gang k.sup .write 8 [(l, eaOf (k.src.get64 x.a.toNat l) (memOff x))] (storeRule .b64) = _ from faults]
      rfl
    · let u := storeOrd (touch b (b.ctxOf k.gang) p.va) k.agent p.sp p.addr (leBytes 8 now) (ordKind x.ord) (ordAgent x.ord) (ordStorage x.ord)
      obtain ⟨tlb, kept⟩ := touch_eq b (b.ctxOf k.gang) p.va
      refine ⟨k.later u x.ctl { writes := laneWrites64 x.d.toNat (fun _ => BitVec.ofNat 64 now) (lanesOf k.lanes) }, endsWith_of (execTstamp x s) rfl rfl hi ?_, leaves_later k u x.ctl rfl, fun drained strong => ?_⟩
      · simp only [lanes, show checkLanes (issued s k (memNeed [(x.d.toNat, 2), (x.a.toNat, 2)])) k.gang k.sup .write 8 [(l, eaOf (k.src.get64 x.a.toNat l) (memOff x))] (storeRule .b64) = _ from goes]
        rw [if_neg (Bool.eq_false_iff.1 edge)]
        rw [show (issued s k (memNeed [(x.d.toNat, 2), (x.a.toNat, 2)])).tick / 16 = now from time]
        rfl
      · refine storedOnly_between (fun _ _ => rfl) ?_ (later_unwritten k u x.ctl _).mem
        have store := storeOrd_storedOnly (s := touch b (b.ctxOf k.gang) p.va) k.agent p.addr (leBytes 8 now) (ordAgent x.ord) (ordStorage x.ord) (by rw [kept]; exact drained)
          (fun g r space => absurd space (checkLanes_space goes List.mem_cons_self g r)) strong
        exact storedOnly_between (by rw [kept]; exact sameMemory_of) store fun _ _ => rfl
  · intro x s k nd hi b now
    have time : b.tick / 16 = now := congrArg (· / 16) (issued_bookkeeping s k nd).tick
    refine ⟨fun idle => endsWith_of (execTstampWake x s) rfl rfl hi (by simp only [idle, lanesOf_zero]; rfl), fun l rest lanes => ?_⟩
    let u := markTrail b (k.src.get x.a.toNat l) x.c.toNat
    have kept := later_unwritten k u x.ctl { writes := laneWrites64 x.d.toNat (fun _ => BitVec.ofNat 64 now) (lanesOf k.lanes) }
    refine ⟨k.later u x.ctl { writes := laneWrites64 x.d.toNat (fun _ => BitVec.ofNat 64 now) (lanesOf k.lanes) }, endsWith_of (execTstampWake x s) rfl rfl hi ?_, fun n => (kept.regs n).trans (regsOf_agents rfl n),
      fun sp a => (kept.mem sp a).trans ((sameMemory_of : SameMemory b u) sp a), leaves_later k u x.ctl rfl, ?_⟩
    · simp only [lanes]
      rw [show (issued s k (memNeed [(x.d.toNat, 2), (x.a.toNat, 1)])).tick / 16 = now from time]
    · obtain ⟨pend, nextId, d, later⟩ := later_eq k u x.ctl { writes := laneWrites64 x.d.toNat (fun _ => BitVec.ofNat 64 now) (lanesOf k.lanes) }
      rw [later]
      show updWhere _ _ b.trails = _
      refine List.map_congr_left fun r _ => ?_
      dsimp only
      rw [time]
      refine if_congr ?_ rfl rfl
      simp
  · intro x s k nd hi b
    refine ⟨fun idle => endsWith_of (execTrcm x s) rfl rfl hi (by simp only [idle, lanesOf_zero]; rfl), fun l rest a lanes ha => ?_⟩
    have ends : Completes (.trcm x) s k (if k.pilot then pilotMark b a (k.src.get x.a.toNat l) (leBytes 8 (x.imm.toNat % 65536)) else
        trace b k.agent 7 k.path (k.src.get x.a.toNat l) (leBytes 8 (x.imm.toNat % 65536))) := endsWith_of (execTrcm x s) rfl rfl hi (by
      simp only [lanes, show (issued s k { regs := [(x.a.toNat, 1)], feature := some 8 }).agent? k.agent = some a from ha]
      rfl)
    cases kind : k.pilot with
    | true =>
      rw [kind, if_pos rfl] at ends
      exact ⟨_, ends, fun n => regsOf_pilotMark .., (pilotMark_bookkeeping ..).mem, fun off => if_neg (Bool.eq_false_iff.1 off), nofun⟩
    | false =>
      rw [kind, if_neg nofun] at ends
      exact ⟨_, ends, fun n => regsOf_trace .., (trace_bookkeeping ..).mem, fun off => traceFrom_untraced ha off .., fun _ => rfl⟩

end Sys2Proof.Machine.Scheduling
end

section
/-! PROOFS. Agents across loads, stores and misses: they go forward (R226-R236, R354). -/
-- One proof after another: in parallel, those of the whole text need more memory than one process may take.
set_option Elab.async false

namespace Sys2Proof.Machine.Scheduling
open Sys2Proof.Machine.NumberFormats

/-- An agent but for what it has noted of memory, and for what its paths are parked on. -/
structure Kept (x y : Agent) : Prop where
  same : y = { x with clock := y.clock, relTs := y.relTs, mon := y.mon, relFence := y.relFence, lastRel := y.lastRel, floors := y.floors, seen := y.seen, paths := y.paths }
  paths : ∃ g, (∀ p, Path.SameButPark p (g p)) ∧ y.paths = x.paths.map g
  leaving : y.paths.map Path.leaving = x.paths.map Path.leaving

theorem Forward.kept {x y : Agent} (h : Forward x y) : Kept x y := ⟨h.same, h.paths, h.leaving⟩

theorem kept_of {x y : Agent} (same : y = { x with clock := y.clock, relTs := y.relTs, mon := y.mon, relFence := y.relFence, lastRel := y.lastRel, floors := y.floors, seen := y.seen, paths := y.paths } := by rfl)
    (paths : y.paths = x.paths := by rfl) : Kept x y := ⟨same, ⟨id, fun _ => rfl, by rw [paths, List.map_id]⟩, by rw [paths]⟩

theorem Kept.refl (x : Agent) : Kept x x := kept_of

theorem Kept.trans {x y z : Agent} (h : Kept x y) (h' : Kept y z) : Kept x z where
  same := h'.same.trans (by rw [h.same])
  paths := by
    obtain ⟨g, keeps, paths⟩ := h.paths
    obtain ⟨g', keeps', paths'⟩ := h'.paths
    exact ⟨g' ∘ g, fun p => (keeps p).trans (keeps' (g p)), by rw [paths', paths, List.map_map]⟩
  leaving := h'.leaving.trans h.leaving

theorem Kept.name {x y : Agent} (h : Kept x y) : y.num = x.num ∧ y.ended = x.ended := ⟨congrArg (·.num) h.same, congrArg (·.ended) h.same⟩

/-- Every agent is as before but for what it has noted of memory, and for what its paths are parked on. -/
def AgentsKept (s t : State) : Prop := ∃ f, (∀ x, Kept x (f x)) ∧ t.agents = s.agents.map f

theorem agentsKept_of {s t : State} (agents : t.agents = s.agents := by rfl) : AgentsKept s t := ⟨id, .refl, by rw [agents, List.map_id]⟩

theorem AgentsKept.refl (s : State) : AgentsKept s s := agentsKept_of

theorem AgentsKept.trans {s t u : State} (h : AgentsKept s t) (h' : AgentsKept t u) : AgentsKept s u := by
  obtain ⟨f, kept, agents⟩ := h
  obtain ⟨f', kept', agents'⟩ := h'
  exact ⟨f' ∘ f, fun x => (kept x).trans (kept' (f x)), by rw [agents', agents, List.map_map]⟩

theorem Performs.agentsKept {s t : State} (h : Performs s t) : AgentsKept s t := by
  obtain ⟨f, kept, agents⟩ := h.agents
  exact ⟨f, fun x => (kept x).kept, agents⟩

theorem AgentsKept.found {s t : State} (h : AgentsKept s t) {n : Nat} {x : Agent} (hx : s.agent? n = some x) : ∃ y, t.agent? n = some y ∧ Kept x y := by
  obtain ⟨f, kept, agents⟩ := h
  refine ⟨f x, Eq.trans ?_ ((agent?_map s n f fun x => (kept x).name).trans (congrArg (Option.map f) hx)), kept x⟩
  unfold State.agent?
  rw [agents]

theorem AgentsKept.regs {s t : State} (h : AgentsKept s t) : SameRegs s t := by
  intro n
  obtain ⟨f, kept, agents⟩ := h
  have found : t.agent? n = (s.agent? n).map f := by
    refine Eq.trans ?_ (agent?_map s n f fun x => (kept x).name)
    unfold State.agent?
    rw [agents]
  unfold State.regsOf
  rw [found, Option.map_map]
  exact congrArg (fun g => Option.map g (s.agent? n)) (funext fun x => congrArg (·.regs) (kept x).same)

/-- A path of an agent that is kept is that path but for what it is parked on. -/
theorem Kept.path {x y : Agent} (h : Kept x y) {p : Nat} {q : Path} (hq : x.paths[p]? = some q) : ∃ z, y.paths[p]? = some z ∧ Path.SameButPark q z := by
  obtain ⟨g, keeps, paths⟩ := h.paths
  exact ⟨g q, by rw [paths, List.getElem?_map, hq]; rfl, keeps q⟩

theorem foldl_agentsKept {α : Type} {f : State → α → State} (step : ∀ s a, AgentsKept s (f s a)) (l : List α) (s : State) : AgentsKept s (l.foldl f s) :=
  List.foldlRecOn l _ (.refl s) fun t h a _ => h.trans (step t a)

theorem updAgent_agentsKept (s : State) (n : Nat) {f : Agent → Agent} (kept : ∀ x, Kept x (f x)) : AgentsKept s (s.updAgent n f) := by
  refine ⟨fun x => if x.num == n && !x.ended then f x else x, fun x => ?_, rfl⟩
  dsimp only
  split
  · exact kept x
  · exact .refl x

/-! ## Loads and stores -/

/-- Nothing but memory, its stamps, copies, leases and releases, kept translations, the free choices made, the issue under way, and what agents and collective copies
have noted of memory has changed. -/
structure Accesses (s t : State) : Prop where
  frame : t = { s with
    loc := t.loc, host := t.host, peer := t.peer, pool := t.pool, rkmem := t.rkmem, homes := t.homes, copies := t.copies, relaxed := t.relaxed
    releases := t.releases, poison := t.poison, extClk := t.extClk, seq := t.seq, agents := t.agents, blocks := t.blocks, colls := t.colls
    tlb := t.tlb, leases := t.leases, cur := t.cur, fresh := t.fresh }
  agents : AgentsKept s t
  blocks : ∃ f : Block → Block, (∀ b, Block.SameButScr b (f b)) ∧ t.blocks = s.blocks.map f

theorem accesses_of {s t : State} (frame : t = { s with
    loc := t.loc, host := t.host, peer := t.peer, pool := t.pool, rkmem := t.rkmem, homes := t.homes, copies := t.copies, relaxed := t.relaxed
    releases := t.releases, poison := t.poison, extClk := t.extClk, seq := t.seq, agents := t.agents, blocks := t.blocks, colls := t.colls
    tlb := t.tlb, leases := t.leases, cur := t.cur, fresh := t.fresh } := by rfl)
    (agents : t.agents = s.agents := by rfl) (blocks : t.blocks = s.blocks := by rfl) : Accesses s t :=
  ⟨frame, agentsKept_of agents, ⟨id, fun _ => rfl, by rw [blocks, List.map_id]⟩⟩

theorem Accesses.refl (s : State) : Accesses s s := accesses_of

theorem Accesses.trans {s t u : State} (h : Accesses s t) (h' : Accesses t u) : Accesses s u where
  frame := h'.frame.trans (by rw [h.frame])
  agents := h.agents.trans h'.agents
  blocks := by
    obtain ⟨f, scr, blocks⟩ := h.blocks
    obtain ⟨f', scr', blocks'⟩ := h'.blocks
    exact ⟨f' ∘ f, fun b => (scr b).trans (scr' (f b)), by rw [blocks', blocks, List.map_map]⟩

theorem Performs.accesses {s t : State} (h : Performs s t) : Accesses s t := ⟨by rw [h.frame], h.agentsKept, h.blocks⟩

theorem Accesses.ite {s t u : State} {c : Prop} [Decidable c] (h : Accesses s t) (h' : Accesses s u) : Accesses s (if c then t else u) := by
  split
  · exact h
  · exact h'

theorem foldl_accesses {α : Type} {f : State → α → State} (step : ∀ s a, Accesses s (f s a)) (l : List α) (s : State) : Accesses s (l.foldl f s) :=
  List.foldlRecOn l _ (.refl s) fun t h a _ => h.trans (step t a)

theorem updAgent_accesses (s : State) (n : Nat) {f : Agent → Agent} (kept : ∀ x, Kept x (f x)) : Accesses s (s.updAgent n f) :=
  ⟨rfl, updAgent_agentsKept s n kept, ⟨id, fun _ => rfl, (List.map_id _).symm⟩⟩

theorem copyRoom_accesses (s : State) (place : Nat) : Accesses s (copyRoom s place) := by
  unfold copyRoom
  dsimp only
  split
  · exact .refl s
  · split
    · exact accesses_of
    · exact .refl s

theorem meetRefresh_accesses (s : State) (sp : Sp) (line : Nat) : Accesses s (meetRefresh s sp line) := by
  unfold meetRefresh
  split
  · exact accesses_of
  · exact .refl s

theorem poolRoom_accesses (s : State) (sp : Sp) (line : Nat) : Accesses s (poolRoom s sp line) := by
  unfold poolRoom
  refine Accesses.ite (.refl s) (.ite (.refl s) ?_)
  dsimp only
  split
  · exact accesses_of
  · exact .refl s

/-- What `renew` does to the caches once the line's stamp is set. -/
theorem renewCopies_accesses (s : State) (sp : Sp) (line : Nat) (places : List Nat) (gone : Copy → Bool) (cs : List Copy) :
    Accesses s (let t := places.foldl copyRoom { poolRoom s sp line with copies := (poolRoom s sp line).copies.filter gone }; { t with copies := cs ++ t.copies }) := by
  have dropped : Accesses s { poolRoom s sp line with copies := (poolRoom s sp line).copies.filter gone } := (poolRoom_accesses ..).trans accesses_of
  exact (dropped.trans (foldl_accesses copyRoom_accesses places _)).trans accesses_of

theorem renew_accesses (s : State) (n : Nat) (sp : Sp) (line clock upto : Nat) : Accesses s (renew s n sp line clock upto) := by
  have stamped (h : Stamp) (l : Nat) : Accesses s (meetRefresh { s.setStamp sp line h with leases := l } sp line) := .trans accesses_of (meetRefresh_accesses _ sp line)
  unfold renew
  dsimp only
  split
  · exact (stamped _ _).trans (renewCopies_accesses ..)
  · exact stamped _ _

theorem fetchParts_accesses (s : State) (n : Nat) (us : List (Sp × Nat × Nat)) (relaxed : Bool) : Accesses s (fetchParts s n us relaxed).2.2 := by
  unfold fetchParts
  dsimp only
  split
  · exact accesses_of
  · exact foldl_accesses (fun s u => renew_accesses ..) us s

theorem observe_performs (s : State) (n : Nat) (seen : List ((Sp × Nat × Nat) × Nat)) (kind scope storage : Nat) : Performs s (observe s n seen kind scope storage) := by
  have noted (rels : List Release) : Performs s ((s.updAgent n fun x => { x with clock := if kind == 1 then x.clock else max x.clock (seen.foldl (fun m p => max m p.2) 0 + 1), lastRel := rels }).seeParts n seen) :=
    .trans (updAgent_performs s n fun x => forward_of (clock := by dsimp only; split <;> omega)) (seeParts_performs ..)
  have synced (t : State) (rs : List Release) (scope storage : Nat) : Performs t (syncAll t rs n scope storage) := foldl_performs (fun s r => syncWith_performs s r n scope storage) rs t
  unfold observe
  dsimp only
  split
  · exact (noted _).trans (synced ..)
  · exact (noted _).trans (synced ..)
  · exact noted _

theorem loadParts_accesses (s : State) (n : Nat) (ps : List (Sp × Nat × Nat)) (kind scope storage : Nat) : Accesses s (loadParts s n ps kind scope storage).2 := by
  have drained : Accesses s (ps.foldl (fun s p => drainOverlap s n p.1 p.2.1 p.2.2) s) := foldl_accesses (fun s p => (drainWhere_performs ..).accesses) ps s
  exact (drained.trans (fetchParts_accesses ..)).trans ((observe_performs ..).accesses.trans accesses_of)

theorem loadPlain_accesses (s : State) (n : Nat) (sp : Sp) (a len : Nat) : Accesses s (loadPlain s n sp a len).2 := loadParts_accesses ..

theorem takeRel_performs (s : State) (n : Nat) (own : Option (Nat × Nat)) : Performs s (takeRel s n own).2 := updAgent_performs s n fun _ => forward_of

/-- A store's parts after its releases: `storeParts`' own step for one part. -/
def putPart (n : Nat) (atomic : Bool) (ts clk : Nat) (rl : List (Nat × Nat × Nat)) (s : State) (p : Sp × Nat × List Byte) : State :=
  let t := (if atomic then s.writeOn p.1 p.2.1 p.2.2 else s.writeRaw p.1 p.2.1 p.2.2).setStamps p.1 p.2.1 p.2.2.length ts
  { t with releases := releasesOf (t.whoOf n) p.1 p.2.1 p.2.2.length rl ts clk ++ t.releases }

theorem putPart_accesses (n : Nat) (atomic : Bool) (ts clk : Nat) (rl : List (Nat × Nat × Nat)) (s : State) (p : Sp × Nat × List Byte) :
    Accesses s (putPart n atomic ts clk rl s p) := by
  have written : Performs s ((if atomic then s.writeOn p.1 p.2.1 p.2.2 else s.writeRaw p.1 p.2.1 p.2.2).setStamps p.1 p.2.1 p.2.2.length ts) := by
    refine .trans ?_ (setStamps_performs ..)
    split
    · exact writeOn_performs ..
    · exact writeRaw_performs ..
  exact written.accesses.trans accesses_of

theorem putParts_accesses (s : State) (n : Nat) (ps : List (Sp × Nat × List Byte)) (atomic : Bool) (ts clk m : Nat) (rl : List (Nat × Nat × Nat)) (seen : List ((Sp × Nat × Nat) × Nat))
    {f : Agent → Agent} (kept : ∀ x, Kept x (f x)) :
    Accesses s { ((ps.foldl (putPart n atomic ts clk rl) s).updAgent n f).seeParts n seen with seq := m } := by
  have put := (foldl_accesses (putPart_accesses n atomic ts clk rl) ps s).trans (updAgent_accesses _ n kept)
  exact (put.trans (seeParts_performs _ n seen).accesses).trans accesses_of

theorem storeParts_accesses (s : State) (n : Nat) (ps : List (Sp × Nat × List Byte)) (rel : Option (Nat × Nat)) (atomic bump : Bool) : Accesses s (storeParts s n ps rel atomic bump) := by
  have drained : Performs s (ps.foldl (fun s p => drainOverlap s n p.1 p.2.1 p.2.2.length) s) := foldl_performs (fun s p => drainWhere_performs ..) ps s
  have released (u : State) : Performs u (if rel.isSome then releaseAgent u n else u) := by
    split
    · exact releaseAgent_performs u n
    · exact .refl u
  have met (us : List (Sp × Nat × Nat)) (u : State) : Accesses u (us.foldl (fun s u => meetRefresh s u.1 (lineOf u.1 u.2.1)) u) := foldl_accesses (fun s u => meetRefresh_accesses ..) us u
  have before := (drained.trans ((released _).trans (takeRel_performs _ n rel))).accesses.trans (met (ps.flatMap fun p => unitParts p.1 p.2.1 p.2.2.length) _)
  exact before.trans (putParts_accesses _ n ps atomic _ _ _ _ _ fun _ => kept_of)

theorem storeOrd_accesses (s : State) (n : Nat) (sp : Sp) (a : Nat) (bs : List Byte) (kind scope storage : Nat) : Accesses s (storeOrd s n sp a bs kind scope storage) := by
  unfold storeOrd
  split
  · exact ((drainWhere_performs ..).trans (takeRel_performs _ n none)).accesses.trans accesses_of
  · exact storeParts_accesses ..

theorem touch_accesses (s : State) (c : Ctx) (va : Nat) : Accesses s (touch s c va) := by
  obtain ⟨tlb, eq⟩ := MemoryInstructions.touch_eq s c va
  rw [eq]
  exact accesses_of

end Sys2Proof.Machine.Scheduling
end

section
/-! PROOFS. Reckoned misses: what an access of a reckoned line leaves as it was (R354, R365, R366). -/
-- One proof after another: in parallel, those of the whole text need more memory than one process may take.
set_option Elab.async false

namespace Sys2Proof.Machine.Scheduling
open Sys2Proof.Machine.NumberFormats

/-- Nothing but memory, its stamps, copies and leases, the reckoned lines, fills and what waits for one, the contexts' stamps, the free choices made, the issue under
way, and what agents and collective copies have noted of memory has changed. -/
structure Reckons (s t : State) : Prop where
  frame : t = { s with
    loc := t.loc, host := t.host, peer := t.peer, pool := t.pool, rkmem := t.rkmem, homes := t.homes, copies := t.copies, relaxed := t.relaxed
    releases := t.releases, poison := t.poison, extClk := t.extClk, seq := t.seq, agents := t.agents, blocks := t.blocks, colls := t.colls
    tlb := t.tlb, leases := t.leases, cur := t.cur, fresh := t.fresh, rkLines := t.rkLines, fills := t.fills, asks := t.asks, nextId := t.nextId, ctxs := t.ctxs }
  agents : AgentsKept s t
  blocks : ∃ f : Block → Block, (∀ b, Block.SameButScr b (f b)) ∧ t.blocks = s.blocks.map f

theorem reckons_of {s t : State} (frame : t = { s with
    loc := t.loc, host := t.host, peer := t.peer, pool := t.pool, rkmem := t.rkmem, homes := t.homes, copies := t.copies, relaxed := t.relaxed
    releases := t.releases, poison := t.poison, extClk := t.extClk, seq := t.seq, agents := t.agents, blocks := t.blocks, colls := t.colls
    tlb := t.tlb, leases := t.leases, cur := t.cur, fresh := t.fresh, rkLines := t.rkLines, fills := t.fills, asks := t.asks, nextId := t.nextId, ctxs := t.ctxs } := by rfl)
    (agents : t.agents = s.agents := by rfl) (blocks : t.blocks = s.blocks := by rfl) : Reckons s t :=
  ⟨frame, agentsKept_of agents, ⟨id, fun _ => rfl, by rw [blocks, List.map_id]⟩⟩

theorem Reckons.refl (s : State) : Reckons s s := reckons_of

theorem Reckons.trans {s t u : State} (h : Reckons s t) (h' : Reckons t u) : Reckons s u where
  frame := h'.frame.trans (by rw [h.frame])
  agents := h.agents.trans h'.agents
  blocks := by
    obtain ⟨f, scr, blocks⟩ := h.blocks
    obtain ⟨f', scr', blocks'⟩ := h'.blocks
    exact ⟨f' ∘ f, fun b => (scr b).trans (scr' (f b)), by rw [blocks', blocks, List.map_map]⟩

theorem Accesses.reckons {s t : State} (h : Accesses s t) : Reckons s t := ⟨by rw [h.frame], h.agents, h.blocks⟩

theorem Reckons.pins {s t : State} (h : Reckons s t) : t.pins = s.pins := by rw [h.frame]

theorem foldl_reckons {α : Type} {f : State → α → State} (step : ∀ s a, Reckons s (f s a)) (l : List α) (s : State) : Reckons s (l.foldl f s) :=
  List.foldlRecOn l _ (.refl s) fun t h a _ => h.trans (step t a)

/-! ## The victim store and eviction -/

/-- Lines may have left the stacked cache or come to it; no fill has changed, and nothing asks for one that did not. -/
structure Evicts (s t : State) : Prop where
  reckons : Reckons s t
  fills : t.fills = s.fills
  asks : t.asks = s.asks

theorem evicts_of {s t : State} (frame : t = { s with
    loc := t.loc, host := t.host, peer := t.peer, pool := t.pool, rkmem := t.rkmem, homes := t.homes, copies := t.copies, relaxed := t.relaxed
    releases := t.releases, poison := t.poison, extClk := t.extClk, seq := t.seq, agents := t.agents, blocks := t.blocks, colls := t.colls
    tlb := t.tlb, leases := t.leases, cur := t.cur, fresh := t.fresh, rkLines := t.rkLines, fills := t.fills, asks := t.asks, nextId := t.nextId, ctxs := t.ctxs } := by rfl)
    (agents : t.agents = s.agents := by rfl) (blocks : t.blocks = s.blocks := by rfl) (fills : t.fills = s.fills := by rfl) (asks : t.asks = s.asks := by rfl) : Evicts s t :=
  ⟨reckons_of frame agents blocks, fills, asks⟩

theorem Evicts.refl (s : State) : Evicts s s := evicts_of

theorem Evicts.trans {s t u : State} (h : Evicts s t) (h' : Evicts t u) : Evicts s u := ⟨h.reckons.trans h'.reckons, h'.fills.trans h.fills, h'.asks.trans h.asks⟩

theorem Accesses.evicts {s t : State} (h : Accesses s t) : Evicts s t := ⟨h.reckons, by rw [h.frame], by rw [h.frame]⟩

theorem foldl_evicts {α : Type} {f : State → α → State} (step : ∀ s a, Evicts s (f s a)) (l : List α) (s : State) : Evicts s (l.foldl f s) :=
  List.foldlRecOn l _ (.refl s) fun t h a _ => h.trans (step t a)

theorem storeDevice_evicts (s : State) (sp : Sp) (a : Nat) (bs : List Byte) : Evicts s (storeDevice s sp a bs) := (storeDevice_performs ..).accesses.evicts

theorem addPoison_evicts (s : State) (sp : Sp) (a n : Nat) : Evicts s (addPoison s sp a n) := evicts_of

theorem setVictimBit_evicts (s : State) (c : Ctx) (d : RkDesc) (u : Nat) (b : Bool) : Evicts s (setVictimBit s c d u b) := by
  unfold setVictimBit
  split
  · exact storeDevice_evicts ..
  · exact .refl s

theorem victimWrite_evicts {s t : State} {c : Ctx} {d : RkDesc} {u : Nat} (h : victimWrite s c d u = some t) : Evicts s t := by
  unfold victimWrite at h
  dsimp only at h
  split at h
  · nomatch h
  · refine Option.some.inj h ▸ .trans (foldl_evicts (fun s p => ?_) _ s) (setVictimBit_evicts ..)
    split
    · refine .trans (storeDevice_evicts ..) (foldl_evicts (fun t i => ?_) _ _)
      split
      · exact addPoison_evicts ..
      · exact .refl t
    · exact .refl s

theorem dropLines_evicts (s : State) (asn : Nat) (p : Nat → Bool) : Evicts s (dropLines s asn p) := evicts_of

theorem evictUnit_evicts (s : State) (c : Ctx) (u : Nat × Nat) : Evicts s (evictUnit s c u) := by
  have written (d : RkDesc) : Evicts s ((victimWrite s c d u.2).getD s) := by
    cases eq : victimWrite s c d u.2 with
    | none => exact .refl s
    | some t => exact victimWrite_evicts eq
  unfold evictUnit
  dsimp only
  refine .trans ?_ (dropLines_evicts ..)
  split
  · exact written _
  · exact .refl s

theorem sliceRoom_evicts (s : State) (asn line : Nat) : Evicts s (sliceRoom s asn line) := by
  have bumped : Evicts s { s with fresh := s.fresh + 1 } := evicts_of
  unfold sliceRoom
  dsimp only
  split
  · exact .refl s
  · split
    · exact bumped.trans (evictUnit_evicts ..)
    · exact .refl s

theorem putLine_evicts (s : State) (asn line : Nat) (bs : List Byte) (clock : Nat) : Evicts s (putLine s asn line bs clock) := by
  have written (h : Stamp) : Evicts s ((s.writeRaw (.rk asn) (line * 128) bs).setStamp (.rk asn) line h) := .trans (writeRaw_performs ..).accesses.evicts evicts_of
  exact (written _).trans evicts_of

theorem victimReload_evicts {s t : State} {c : Ctx} {d : RkDesc} {u clock : Nat} (h : victimReload s c d u clock = some t) : Evicts s t := by
  unfold victimReload at h
  dsimp only at h
  refine List.foldlRecOn (motive := fun r => ∀ t, r = some t → Evicts s t) _ _ (fun t h => Option.some.inj h ▸ .refl s) (fun acc from_ i _ t h => ?_) t h
  cases acc with
  | none => nomatch h
  | some v =>
    dsimp only at h
    split at h
    · split at h
      · nomatch h
      · exact Option.some.inj h ▸ (from_ v rfl).trans ((sliceRoom_evicts ..).trans (putLine_evicts ..))
    · nomatch h

/-! ## Misses -/

theorem updAgent_reckons (s : State) (n : Nat) {f : Agent → Agent} (kept : ∀ x, Kept x (f x)) : Reckons s (s.updAgent n f) := (updAgent_accesses s n kept).reckons

theorem nestmaxFor_reckons (s : State) (c : Ctx) (m : Misser) : Reckons s (nestmaxFor s c m).2 := by
  have read : Reckons s (readNestmax s c m.clock).2.2 := reckons_of
  unfold nestmaxFor
  dsimp only
  split
  · exact read.trans (updAgent_reckons _ _ fun _ => kept_of)
  · exact read.trans (updAgent_reckons _ _ fun _ => kept_of)
  · exact read

theorem updFill_reckons (s : State) (id : Nat) (f : Fill → Fill) : Reckons s (s.updFill id f) := reckons_of

theorem addNode_reckons (s : State) (id : Nat) (m : Misser) (line : Nat) : Reckons s (addNode s id m line) := reckons_of

theorem applyRaise_reckons (s : State) (l : List (Nat × Nat)) : Reckons s (applyRaise s l) := by
  unfold applyRaise
  exact foldl_reckons (fun s r => updFill_reckons s r.1 fun f => { f with depth := max f.depth r.2 }) l s

theorem newFill_reckons (s : State) (c : Ctx) (idx : Nat) (d : RkDesc) (kern : Kernel) (u depth clock missva : Nat) : Reckons s (newFill s c idx d kern u depth clock missva).2 := reckons_of

theorem askLater_reckons (s : State) (c : Ctx) (idx line : Nat) (m : Misser) : Reckons s (askLater s c idx line m) := by
  unfold askLater
  dsimp only
  split
  · exact .refl s
  · exact reckons_of

theorem rkAccess_reckons (s : State) (c : Ctx) (idx line : Nat) (m : Misser) (prefetch : Bool) : Reckons s (rkAccess s c idx line m prefetch).2 := by
  have read := nestmaxFor_reckons s c m
  have refuses (t : State) (code : Nat) (h : Reckons s t) : Reckons s (if prefetch then (RkGo.present, t) else (.poison code, t)).2 := by
    split <;> exact h
  unfold rkAccess
  dsimp only
  split
  · exact .refl s
  · split
    · next t reload =>
      split at reload
      · exact (victimReload_evicts reload).reckons
      · nomatch reload
    · generalize nestmaxFor s c m = r at read
      obtain ⟨nestmax, t⟩ := r
      dsimp only at read ⊢
      split
      · split
        · exact refuses t _ read
        · split
          · exact refuses t _ read
          · next l _ =>
            have raised := read.trans (applyRaise_reckons t l)
            split
            · exact raised
            · split
              · exact raised.trans (addNode_reckons ..)
              · exact read
      · split
        · exact refuses t _ read
        · split
          · exact refuses t _ read
          · split
            · split
              · exact refuses t _ read
              · split
                · split
                  · exact read.trans (askLater_reckons ..)
                  · exact read
                · split
                  · exact read
                  · split
                    · exact read.trans (newFill_reckons ..)
                    · exact (read.trans (newFill_reckons ..)).trans (addNode_reckons ..)
            · exact refuses t _ read

theorem rkLines_reckons (s : State) (n p : Nat) (c : Ctx) (idx : Nat) (lines : List Nat) : Reckons s (rkLines s n p c idx lines).2 := by
  unfold rkLines
  dsimp only
  refine List.foldlRecOn (motive := fun r : Rk × State => Reckons s r.2) lines _ (.refl s) fun r h l _ => ?_
  have one := h.trans (rkAccess_reckons r.2 c idx l (missOf r.2 n p) false)
  obtain ⟨acc, t⟩ := r
  dsimp only at h one ⊢
  split
  · exact h
  · split
    · exact h
    · split
      · exact one
      · exact one
      · exact one
      · exact one

end Sys2Proof.Machine.Scheduling
end

section
/-! PROOFS. Traps that are taken (R430-R439). -/
-- One proof after another: in parallel, those of the whole text need more memory than one process may take.
set_option Elab.async false

namespace Sys2Proof.Machine.Scheduling
open Sys2Proof.Machine.NumberFormats

theorem path?_of {s : State} {n p : Nat} {x : Agent} (hx : s.agent? n = some x) : s.path? n p = x.paths[p]? := by
  unfold State.path?
  rw [hx]
  rfl

theorem path?_updPath_same {s : State} {n p : Nat} {q : Path} (f : Path → Path) (hq : s.path? n p = some q) : (s.updPath n p f).path? n p = some (f q) := by
  unfold State.path? at hq ⊢
  rw [State.updPath, agent?_updAgent_same s n (fun x => { x with paths := x.paths.mapIdx fun i q => if i == p then f q else q }) fun _ => ⟨rfl, rfl⟩]
  cases hx : s.agent? n with
  | none => rw [hx] at hq; nomatch hq
  | some x =>
    rw [hx] at hq
    have hq : x.paths[p]? = some q := hq
    simp [List.getElem?_mapIdx, hq]

/-- A path whose trap block is an absent reckoned line is parked until it is there. -/
theorem trapReckon_parks {s t : State} {x : Agent} {n p : Nat} {q : Path} (hx : s.agent? n = some x) (hq : s.path? n p = some q) (h : trapReckon s x p = some t) :
    SameRegs s t ∧ ∃ z, t.path? n p = some z ∧ z.st = .parked := by
  unfold trapReckon at h
  dsimp only at h
  split at h
  · nomatch h
  · split at h
    · split at h
      · nomatch h
      · split at h
        · next l _ _ _ res u eq =>
          have reckons := (rkLines_reckons s x.num p (s.ctxOf x.gang) (l.pfn % 4096) [(s.ctxOf x.gang).trapvec.toNat / 128]).agents
          rw [eq] at reckons
          dsimp only at reckons
          obtain ⟨y, hy, kept⟩ := reckons.found hx
          obtain ⟨z, hz, -⟩ := kept.path ((path?_of hx).symm.trans hq)
          rw [(agent?_num hx).1] at h
          have there : u.path? n p = some z := (path?_of hy).trans hz
          obtain rfl := Option.some.inj h
          exact ⟨fun m => (regsOf_updPath ..).trans (reckons.regs m), _, path?_updPath_same _ there, rfl⟩
        · nomatch h
    · nomatch h

theorem standing_of_due {x : Agent} {q : Path} {f : FaultRec} (due : q.dueNow x = some f) : standing x q = some (f, none) := by
  unfold standing
  rw [due]

theorem standing_of_redo {x : Agent} {q : Path} {b : Bun} {r : Redo} {rest : List Redo} {f : FaultRec} (due : q.dueNow x = none) (bun : q.bun = some b)
    (over_ : b.rest = []) (redo : b.redo = r :: rest) (fault : r.flt = some f) : standing x q = some (f, some r.pc) := by
  unfold standing
  rw [due, bun]
  dsimp only
  rw [over_, redo]
  dsimp only
  rw [fault]
  rfl

/-- A due trap is not taken while its frame cannot be written. -/
theorem takeDue_of_waits {s : State} {n : Nat} (p : Nat) (waits : trapWaits s n = true) : takeDue s n p = s := by
  unfold takeDue
  split
  · split
    · rw [waits, Bool.not_true, Bool.and_false, if_neg (by decide)]
    · rfl
  · rfl

theorem takeDue_of_due {s : State} {n p : Nat} {x : Agent} {q : Path} {f : FaultRec} (hx : s.agent? n = some x) (hq : s.path? n p = some q) (due : q.dueNow x = some f)
    (st : q.st = .eligible) (held : q.trapHeld = false) (wait : q.wait = none) (waits : trapWaits s n = false) :
    takeDue s n p = takeTrap (s.updPath n p fun y => { y with due := y.due.erase f }) n p f q.nextIssue := by
  unfold takeDue
  rw [hx, hq]
  dsimp only
  rw [due]
  dsimp only
  rw [st, held, wait, waits]
  rfl

theorem nextIssue_eq (q : Path) : q.nextIssue = (q.bun.map fun b => b.rest.headD b.next).getD q.pc := by
  unfold Path.nextIssue
  cases q.bun <;> rfl

section
variable {s : State} {n p : Nat} {x : Agent} {q : Path} (hx : s.agent? n = some x) (hq : s.path? n p = some q)
include hx hq

theorem trapEntry_not_taken (h : mayIssue s x p q = false ∨ standing x q = none ∨ trapReckon s x p = none ∧ trapWaits s n) : exec (.trapEntry n p) s = .next s := by
  show event _ = _
  refine congrArg Host.Outcome.next ?_
  rw [hx, hq]
  dsimp only
  split
  · rfl
  · next may =>
    obtain may' | none_ | ⟨present, waits⟩ := h
    · exact absurd (congrArg not may') may
    · rw [none_]
    · rw [present]
      dsimp only
      rw [takeDue_of_waits p waits, waits]
      split
      · rfl
      · exact ite_self _

theorem trapEntry_reckon {t : State} (may : mayIssue s x p q) (stands : standing x q ≠ none) (reckon : trapReckon s x p = some t) : exec (.trapEntry n p) s = .next t := by
  show event _ = _
  refine congrArg Host.Outcome.next ?_
  rw [hx, hq]
  dsimp only
  rw [may, reckon]
  obtain ⟨r, stands⟩ := Option.ne_none_iff_exists'.mp stands
  rw [stands]
  rfl

theorem trapEntry_taken {f : FaultRec} {pc : Option Dword} (may : mayIssue s x p q) (stands : standing x q = some (f, pc)) (reckon : trapReckon s x p = none) (waits : trapWaits s n = false) :
    exec (.trapEntry n p) s = .next (if pc.isNone then takeDue s n p else takeTrap s n p f (pc.getD 0)) := by
  show event _ = _
  refine congrArg Host.Outcome.next ?_
  rw [hx, hq]
  dsimp only
  rw [may, stands, reckon, waits]
  rfl

end

theorem brk_does (x : Sys) : Does (.brk x) x.ctl {} fun k b =>
    if k.lanes = 0 then b
    else if stopsArmed b (b.ctxOf k.gang).id ∧ b.stops.length < 64 then
      b.updPath k.agent k.path fun q => { q with bun := q.bun.map fun n => { n with brk := some { code := 0x61, kind := 2, mask := k.lanes, info := BitVec.ofNat 64 (x.imm.toNat % 65536), pc := k.pc, sup := k.sup } } }
    else b.updPath k.agent k.path fun q => { q with due := q.due ++ [{ code := 0x61, kind := 2, mask := k.lanes, info := BitVec.ofNat 64 (x.imm.toNat % 65536), pc := k.pc, sup := k.sup, clk := b.clk }] } :=
  does_of (show ∀ s, exec (.brk x) s = execBrk x s from fun _ => rfl) fun k b => by
    simp only [beq_iff_eq, Bool.and_eq_true, decide_eq_true_eq]
    by_cases none_ : k.lanes = 0
    · rw [if_pos none_, if_pos none_]
    · rw [if_neg none_, if_neg none_]
      by_cases armed : stopsArmed b (b.ctxOf k.gang).id = true ∧ b.stops.length < 64
      · rw [if_pos armed, if_pos armed]
        rfl
      · rw [if_neg armed, if_neg armed]
        rfl

theorem trap_does (x : Sys) : Does (.trap x) x.ctl {} fun k b => if k.lanes = 0 then b else
    b.updPath k.agent k.path fun q => { q with due := q.due ++ [{ code := 0x60, kind := 2, mask := k.lanes, info := BitVec.ofNat 64 (x.imm.toNat % 65536), pc := k.pc, sup := k.sup, clk := b.clk }] } :=
  does_of (show ∀ s, exec (.trap x) s = execTrap x s from fun _ => rfl) fun k b => by
    simp only [beq_iff_eq]
    by_cases none_ : k.lanes = 0
    · rw [if_pos none_, if_pos none_]
    · rw [if_neg none_, if_neg none_]
      rfl

/-- Settles O46: TRAP_ENTRY by what stands at its path, and by whether its trap block is there and its frame can be written. -/
theorem trapInstructionsLeaveTheirTrap : Obligations.TrapInstructionsLeaveTheirTrap := by
  unfold Obligations.TrapInstructionsLeaveTheirTrap
  refine ⟨trap_does, brk_does, fun x m hm => ?_, fun s n p x q hx hq => ⟨trapEntry_not_taken hx hq, fun t may stands reckon => ?_, fun may reckon waits => ⟨?_, ?_⟩⟩⟩
  · simp only [List.mem_cons, List.not_mem_nil, or_false] at hm
    obtain rfl | rfl | rfl := hm
    · exact does_of (fun _ => rfl) fun _ _ => rfl
    · exact does_of (fun _ => rfl) fun _ _ => rfl
    · exact does_of (fun _ => rfl) fun _ _ => rfl
  · exact ⟨trapEntry_reckon hx hq may stands reckon, trapReckon_parks hx hq reckon⟩
  · intro b r rest f due bun over_ redo fault
    exact trapEntry_taken hx hq may (standing_of_redo due bun over_ redo fault) reckon waits
  · intro f due st held wait
    refine (trapEntry_taken hx hq may (standing_of_due due) reckon waits).trans (congrArg Host.Outcome.next ?_)
    exact (takeDue_of_due hx hq due st held wait waits).trans (congrArg _ (nextIssue_eq q))

end Sys2Proof.Machine.Scheduling
end

section
/-! PROOFS. Trap frames: what entering and leaving a handler does to registers and paths (R431-R438). -/
-- One proof after another: in parallel, those of the whole text need more memory than one process may take.
set_option Elab.async false

namespace Sys2Proof.Machine.Scheduling
open Sys2Proof.Machine.NumberFormats

/-! ## The frame's accesses -/

theorem supLoad_accesses {s t : State} {x : Agent} {va w : Nat} (h : supLoad s x va = some (w, t)) : Accesses s t := by
  unfold supLoad at h
  dsimp only at h
  split at h
  · nomatch h
  · split at h
    · split at h
      · nomatch h
      · obtain rfl := (Prod.ext_iff.mp (Option.some.inj h)).2
        exact (touch_accesses ..).trans (loadPlain_accesses ..)
    · nomatch h

theorem supStore_accesses {s t : State} {x : Agent} {va : Nat} {bs : List Byte} (h : supStore s x va bs = some t) : Accesses s t := by
  unfold supStore at h
  dsimp only at h
  split at h
  · nomatch h
  · split at h
    · exact Option.some.inj h ▸ (touch_accesses ..).trans (storeOrd_accesses ..)
    · nomatch h

theorem supStores_accesses {s t : State} {x : Agent} {va : Nat} {bs : List Byte} (h : supStores s x va bs = some t) : Accesses s t := by
  unfold supStores at h
  refine List.foldlRecOn (motive := fun r => ∀ t, r = some t → Accesses s t) _ _ (fun t h => Option.some.inj h ▸ .refl s) (fun acc from_ i _ t h => ?_) t h
  cases acc with
  | none => nomatch h
  | some u => exact (from_ u rfl).trans (supStore_accesses h)

theorem readTrapvec_kept (s : State) (x : Agent) : AgentsKept s (readTrapvec s x).2 := updAgent_agentsKept _ _ fun _ => kept_of

theorem readFrame_accesses {s u : State} {x : Agent} {b : List Byte} (h : readFrame s x = some (b, u)) : Accesses s u := by
  unfold readFrame at h
  obtain ⟨⟨ws, u'⟩, read, eq⟩ := Option.map_eq_some_iff.mp h
  obtain rfl : u' = u := congrArg Prod.snd eq
  refine List.foldlRecOn (motive := fun r => ∀ ws t, r = some (ws, t) → Accesses s t) _ _ (fun ws t h => ?_) (fun acc from_ i _ ws t h => ?_) ws u' read
  · obtain rfl : s = t := congrArg Prod.snd (Option.some.inj h)
    exact .refl s
  · cases acc with
    | none => nomatch h
    | some r =>
      obtain ⟨⟨w, v⟩, load, eq⟩ := Option.map_eq_some_iff.mp h
      obtain rfl : v = t := congrArg Prod.snd eq
      exact (from_ r.1 r.2 rfl).trans (supLoad_accesses load)

/-! ## Registers written in lanes -/

theorem get_setLanes (reg : Nat) (f : Nat → Word) (a l : Nat) (hl : l < 32) : ∀ (ls : List Nat) (r : Regs), (∀ j ∈ ls, j < 32) →
    (r.setLanes reg f ls).get a l = if a = reg ∧ l ∈ ls then f l else r.get a l
  | [], r, _ => by simp [Regs.setLanes]
  | j :: ls, r, small => by
    have hj := small j List.mem_cons_self
    have rest := get_setLanes reg f a l hl ls (r.set reg j (f j)) fun i hi => small i (List.mem_cons_of_mem j hi)
    refine Eq.trans (show (r.setLanes reg f (j :: ls)).get a l = ((r.set reg j (f j)).setLanes reg f ls).get a l from rfl) (rest.trans ?_)
    rw [get_set]
    by_cases same : a = reg ∧ l = j
    · obtain ⟨rfl, rfl⟩ := same
      simp
    · have apart : ¬32 * a + l = 32 * reg + j := by omega
      rw [if_neg apart]
      refine if_congr ⟨fun h => ⟨h.1, List.mem_cons_of_mem j h.2⟩, fun h => ⟨h.1, (List.mem_cons.mp h.2).resolve_left fun eq => same ⟨h.1, eq⟩⟩⟩ rfl rfl

theorem get_setLanes_mask (reg : Nat) (f : Nat → Word) (a l : Nat) (hl : l < 32) (m : Word) (r : Regs) :
    (r.setLanes reg f (lanesOf m)).get a l = if a = reg ∧ m.getLsbD l then f l else r.get a l := by
  rw [get_setLanes reg f a l hl (lanesOf m) r fun j hj => (mem_lanesOf.mp hj).1]
  exact if_congr (and_congr_right fun _ => mem_lanesOf.trans (and_iff_right hl)) rfl rfl

/-- Vector registers written in lanes: nothing else of the registers. -/
theorem setLanes_eq (reg : Nat) (f : Nat → Word) : ∀ (ls : List Nat) (r : Regs), r.setLanes reg f ls = { r with v := (r.setLanes reg f ls).v }
  | [], _ => rfl
  | j :: ls, r => setLanes_eq reg f ls (r.set reg j (f j))

/-- Several registers written in lanes one after another. -/
theorem get_foldl_setLanes (f : Nat → Nat → Word) (a l : Nat) (hl : l < 32) (m : Word) : ∀ (regs : List Nat) (r : Regs),
    (regs.foldl (fun r reg => r.setLanes reg (f reg) (lanesOf m)) r).get a l = if a ∈ regs ∧ m.getLsbD l then f a l else r.get a l
  | [], r => by simp
  | reg :: regs, r => by
    rw [List.foldl_cons, get_foldl_setLanes f a l hl m regs, get_setLanes_mask reg (f reg) a l hl]
    by_cases lane : m.getLsbD l = true
    · by_cases later_ : a ∈ regs
      · rw [if_pos ⟨later_, lane⟩, if_pos ⟨List.mem_cons_of_mem _ later_, lane⟩]
      · rw [if_neg fun h => later_ h.1]
        by_cases same : a = reg
        · rw [if_pos ⟨same, lane⟩, if_pos ⟨List.mem_cons.mpr (.inl same), lane⟩, same]
        · rw [if_neg fun h => same h.1, if_neg fun h => (List.mem_cons.mp h.1).elim same later_]
    · rw [if_neg fun h => lane h.2, if_neg fun h => lane h.2, if_neg fun h => lane h.2]

theorem foldl_setLanes_eq (f : Nat → Nat → Word) (ls : List Nat) (regs : List Nat) (r : Regs) :
    regs.foldl (fun r reg => r.setLanes reg (f reg) ls) r = { r with v := (regs.foldl (fun r reg => r.setLanes reg (f reg) ls) r).v } :=
  List.foldlRecOn (motive := fun r' : Regs => r' = { r with v := r'.v }) regs _ rfl fun r' h reg _ =>
    (setLanes_eq reg (f reg) ls r').trans (congrArg (fun q : Regs => { q with v := (r'.setLanes reg (f reg) ls).v }) h)

/-! ## Entering the handler -/

/-- What the handler's registers hold: the frame's address, the code and the lanes in v0 to v3 of the path's lanes, and no trap enabled. -/
theorem get_handlerRegs (x : Agent) (path : Nat) (q : Path) (f : FaultRec) (frame reg l : Nat) (hl : l < 32) : (handlerRegs x path q f frame).get reg l =
    if reg = 3 ∧ q.xmask.getLsbD l then f.mask
    else if reg = 2 ∧ q.xmask.getLsbD l then BitVec.ofNat 32 (f.code + 256 * f.kind + 65536 * path)
    else if reg = 1 ∧ q.xmask.getLsbD l then BitVec.ofNat 32 (frame / 2 ^ 32)
    else if reg = 0 ∧ q.xmask.getLsbD l then BitVec.ofNat 32 frame
    else x.regs.get reg l := by
  have at_ (reg' : Nat) (f : Nat → Word) := get_setLanes_mask reg' f reg l hl q.xmask
  have unfolded : (handlerRegs x path q f frame).get reg l = ((((x.regs.setLanes 0 (fun _ => BitVec.ofNat 32 frame) (lanesOf q.xmask)).setLanes 1
      (fun _ => BitVec.ofNat 32 (frame / 2 ^ 32)) (lanesOf q.xmask)).setLanes 2 (fun _ => BitVec.ofNat 32 (f.code + 256 * f.kind + 65536 * path)) (lanesOf q.xmask)).setLanes 3
      (fun _ => f.mask) (lanesOf q.xmask)).get reg l := rfl
  rw [unfolded, at_, at_, at_, at_]

theorem handlerRegs_eq (x : Agent) (path : Nat) (q : Path) (f : FaultRec) (frame : Nat) :
    handlerRegs x path q f frame = { x.regs with v := (handlerRegs x path q f frame).v, trapen := 0 } := by
  unfold handlerRegs
  dsimp only
  rw [setLanes_eq 3, setLanes_eq 2, setLanes_eq 1, setLanes_eq 0]

/-- A path of a wave whose path `p` enters a handler. -/
def entryOf (p hpc : Nat) (f : FaultRec) (i : Nat) (y : Path) : Path :=
  if i == p then { y with pc := BitVec.ofNat 64 hpc, jpc := none, st := .eligible, park := none, wait := none, bun := none, saved := y.bun, entry := .handler f.code,
                          released := false, relAfter := y.released && y.bun.isNone }
  else if y.st == .free then y else { y with trapHeld := true }

/-- The wave in its handler. -/
def inHandler (p : Nat) (q : Path) (f : FaultRec) (frame hpc : Nat) (y : Agent) : Agent :=
  { y with regs := handlerRegs y p q f frame, sup := true, frame := BitVec.ofNat 64 frame, inTrap := some (p, f), trOwed := true, paths := y.paths.mapIdx (entryOf p hpc f) }

section
variable {s : State} {n p : Nat} {x : Agent} {q : Path} (f : FaultRec) (rpc : Dword) (hx : s.agent? n = some x) (hq : s.path? n p = some q)
include hx hq

theorem takeTrap_of_user (pilot : ¬x.pilot) (sup : ¬x.sup) (vec : (readTrapvec s x).1 = 0) : takeTrap s n p f rpc = endAgent (readTrapvec s x).2 n f.code := by
  unfold takeTrap
  rw [hx, hq]
  dsimp only
  rw [if_neg (by simp [pilot, sup]), if_pos (by rw [vec]; rfl)]

theorem takeTrap_of_handler {hpc frames : Nat} {u v w : State} (pilot : ¬x.pilot) (sup : ¬x.sup) (vec : (readTrapvec s x).1 ≠ 0)
    (handler : supLoad (readTrapvec s x).2 x (readTrapvec s x).1.toNat = some (hpc, u)) (place : supLoad u x ((readTrapvec s x).1.toNat + 8) = some (frames, v))
    (stored : supStores v x (frameAddr frames x.num) (frameBytes x p q f rpc) = some w) : takeTrap s n p f rpc
      = (overwrite w n w.nextId ((List.range 4).flatMap fun r => laneKeys r q.xmask)).updAgent n (inHandler p q f (frameAddr frames x.num) hpc) := by
  unfold takeTrap
  rw [hx, hq]
  dsimp only
  rw [if_neg (by simp [pilot, sup]), if_neg (by simpa using vec), handler]
  simp only [Option.bind_eq_bind, Option.bind_some]
  rw [place]
  simp only [Option.bind_some]
  rw [stored]
  rfl

end

/-- Settles O47: the frame's accesses leave the registers and the paths as they were, and `inHandler` says the rest. -/
theorem trapEntrySavesAndEntersTheHandler : Obligations.TrapEntrySavesAndEntersTheHandler := by
  unfold Obligations.TrapEntrySavesAndEntersTheHandler
  intro s n p x q f rpc hx hq
  refine ⟨fun ends => ?_, fun pilot sup vec => takeTrap_of_user f rpc hx hq pilot sup vec, fun hpc u frames v w pilot sup vec handler place => ?_⟩
  · unfold takeTrap
    rw [hx, hq]
    exact if_pos (by simpa using ends)
  · intro frame stored
    have kept : AgentsKept s w := (readTrapvec_kept s x).trans (((supLoad_accesses handler).trans (supLoad_accesses place)).trans (supStores_accesses stored)).agents
    obtain ⟨y, hy, same⟩ := kept.found hx
    obtain ⟨z, hz, samePath⟩ := same.path ((path?_of hx).symm.trans hq)
    have mask : z.xmask = q.xmask := by rw [show z = { q with park := z.park, bun := z.bun } from samePath]
    have kept_ : y.regs = x.regs := congrArg (·.regs) same.same
    have get := get_handlerRegs y p q f (frameAddr frames x.num)
    have regs := handlerRegs_eq y p q f (frameAddr frames x.num)
    rw [kept_] at get regs
    rw [takeTrap_of_handler f rpc hx hq pilot sup vec handler place stored]
    refine ⟨sameMemory_of, inHandler p q f (frameAddr frames x.num) hpc y, entryOf p hpc f p z, ?_, ?_, rfl, rfl, rfl, ?_⟩
    · refine (agent?_updAgent_same _ n (inHandler p q f (frameAddr frames x.num) hpc) fun _ => ⟨rfl, rfl⟩).trans ?_
      exact congrArg (Option.map _) hy
    · simp [inHandler, List.getElem?_mapIdx, hz]
    · rw [show entryOf p hpc f p z = _ from if_pos (beq_self_eq_true p)]
      refine ⟨rfl, rfl, rfl, mask, fun i z' other hz' live => ?_, rfl, congrArg (·.p) regs, congrArg (·.rnd) regs, congrArg (·.arith) regs, congrArg (·.mem) regs, fun l hl lane => ?_, fun reg l hl other => ?_⟩
      · have hz' : (y.paths.mapIdx (entryOf p hpc f))[i]? = some z' := hz'
        rw [List.getElem?_mapIdx] at hz'
        obtain ⟨z₀, -, rfl⟩ := Option.map_eq_some_iff.mp hz'
        unfold entryOf at live ⊢
        rw [if_neg (by simpa using other)] at live ⊢
        split at live
        · next free => exact absurd (beq_iff_eq.mp free) live
        · next free => rw [if_neg free]
      · refine ⟨(get 0 l hl).trans ?_, (get 1 l hl).trans ?_, (get 2 l hl).trans ?_, (get 3 l hl).trans ?_⟩ <;> simp [lane, frame, frameAddr]
      · refine (get reg l hl).trans ?_
        obtain high | lane := other
        · rw [if_neg (by omega), if_neg (by omega), if_neg (by omega), if_neg (by omega)]
        · simp [lane]

end Sys2Proof.Machine.Scheduling
end

section
/-! PROOFS. Returning from a handler (R438). -/
-- One proof after another: in parallel, those of the whole text need more memory than one process may take.
set_option Elab.async false

namespace Sys2Proof.Machine.Scheduling
open Sys2Proof.Machine.NumberFormats

/-- A word of v0 to v3 in a frame (R433). -/
def frameWord (b : List Byte) (reg l : Nat) : Word := BitVec.ofNat 32 (leField b (128 + 128 * reg + 4 * l) 4)

/-- The registers that a return leaves. -/
def returnedRegs (b : List Byte) (m : Word) (r : Regs) : Regs :=
  let r := (List.range 4).foldl (fun r reg => r.setLanes reg (frameWord b reg) (lanesOf m)) r
  { r with p := (lanesOf m).foldl (fun p l => mset 0 p l (BitVec.ofNat 16 (leField b (640 + 2 * l) 2))) r.p, trapen := BitVec.ofNat 32 (leField b 36 4 % 32) }

/-- A path that has left the handler, before it goes on. -/
def leftHandler (b : List Byte) (mode : Nat) (q : Path) : Path :=
  { q with jpc := if leField b 40 8 == 2 ^ 64 - 1 then none else some (BitVec.ofNat 64 (leField b 40 8)), saved := none, bun := none, abort := if mode == 0 then q.abort else []
           released := q.relAfter, relAfter := false }

/-- The slots that a return from a fault leaves: the one that faulted again, without its fault, or those after it. -/
def redone (mode : Nat) (rs : List Redo) : List Redo :=
  if mode == 1 then rs.drop 1 else match rs with
    | r :: t => { r with flt := none, park := none } :: t
    | [] => []

/-- The path that a return leaves. -/
def returnedPath (b : List Byte) (mode : Nat) (q : Path) : Path :=
  let z := leftHandler b mode q
  let rpc := BitVec.ofNat 64 (leField b 16 8)
  if mode == 2 then arriveAt z rpc
  else if leField b 1 1 == 0 then
    match q.saved with
    | some bn => if mode == 0 && !bn.started then arriveAt z bn.first else { z with pc := bn.first, st := .eligible, bun := some { bn with redo := redone mode bn.redo, now := none } }
    | none => arriveAt z rpc
  else match q.saved with
    | some bn => if bn.rest.head? == some rpc then { z with pc := bn.first, st := .eligible, bun := some bn } else arriveAt z rpc
    | none => arriveAt z rpc

/-- The wave once its path `p` has returned. -/
def returned (b : List Byte) (mode p : Nat) (x : Agent) (q : Path) (y : Agent) : Agent :=
  { y with regs := returnedRegs b q.xmask x.regs, sup := false, inTrap := none, trOwed := true, paths := y.paths.mapIdx fun i z => if i == p then returnedPath b mode q else { z with trapHeld := false } }

section
variable {s u : State} {n p mode : Nat} {x : Agent} {q : Path} {b : List Byte} (hx : s.agent? n = some x) (hq : s.path? n p = some q) (read : readFrame s x = some (b, u))
include hx hq read

/-- A return whose frame can be read. -/
theorem trapReturn_of_read : trapReturn s n p mode = if leField b 32 4 != q.xmask.toNat then endAgent u n 0x04
    else if mode == 2 && !([0, 12, 24, 36, 48].contains ((BitVec.ofNat 64 (leField b 16 8)).toNat % 64)) then endAgent u n 0x03
    else (overwrite u n u.nextId ((List.range 4).flatMap fun r => laneKeys r q.xmask)).updAgent n (returned b mode p x q) := by
  unfold readFrame at read
  obtain ⟨⟨ws, u'⟩, words, eq⟩ := Option.map_eq_some_iff.mp read
  obtain ⟨rfl, rfl⟩ : ws.flatMap (leBytes 8) = b ∧ u' = u := Prod.mk.inj eq
  unfold trapReturn
  rw [hx, hq]
  dsimp only
  split
  · next none_ => exact absurd (none_.symm.trans words) nofun
  · next found =>
    obtain ⟨rfl, rfl⟩ := Prod.mk.inj (Option.some.inj (found.symm.trans words))
    rfl

end

theorem returnPc_slot (b : List Byte) : (BitVec.ofNat 64 (leField b 16 8)).toNat % 64 = leField b 16 8 % 64 := by
  rw [BitVec.toNat_ofNat]
  omega

/-! ## What a return leaves -/

theorem get_returnedRegs (b : List Byte) (m : Word) (r : Regs) (reg l : Nat) (hl : l < 32) :
    (returnedRegs b m r).get reg l = if reg ∈ List.range 4 ∧ m.getLsbD l then frameWord b reg l else r.get reg l :=
  get_foldl_setLanes (frameWord b) reg l hl m (List.range 4) r

theorem mget_foldl_mset (f : Nat → BitVec 16) (l : Nat) : ∀ (ls : List Nat) (p : List (Nat × BitVec 16)),
    mget 0 (ls.foldl (fun p l => mset 0 p l (f l)) p) l = if l ∈ ls then f l else mget 0 p l
  | [], p => by simp
  | j :: ls, p => by
    rw [List.foldl_cons, mget_foldl_mset f l ls, mget_mset]
    by_cases same : l = j
    · simp [same]
    · simp [same]

theorem arriveAt_keeps (q : Path) (pc : Dword) : (arriveAt q pc).pc = pc ∧ (arriveAt q pc).bun = none ∧ (arriveAt q pc).xmask = q.xmask ∧ (arriveAt q pc).jpc = q.jpc :=
  ⟨rfl, rfl, rfl, rfl⟩

section
variable (b : List Byte) (mode : Nat) (q : Path)

/-- A return keeps the path's lanes, and restores its join PC. -/
theorem returnedPath_keeps : (returnedPath b mode q).xmask = q.xmask ∧ (returnedPath b mode q).jpc = (leftHandler b mode q).jpc := by
  unfold returnedPath
  dsimp only
  split
  · exact ⟨rfl, rfl⟩
  · split
    · split
      · split <;> exact ⟨rfl, rfl⟩
      · exact ⟨rfl, rfl⟩
    · split
      · split <;> exact ⟨rfl, rfl⟩
      · exact ⟨rfl, rfl⟩

theorem returnedPath_to_frame (h : mode = 2 ∨ q.saved = none ∨ leField b 1 1 ≠ 0 ∧ ∀ bn, q.saved = some bn → bn.rest.head? ≠ some (BitVec.ofNat 64 (leField b 16 8))) :
    returnedPath b mode q = arriveAt (leftHandler b mode q) (BitVec.ofNat 64 (leField b 16 8)) := by
  unfold returnedPath
  obtain rfl | saved | ⟨kind, apart⟩ := h
  · rfl
  · rw [saved]
    dsimp only
    rw [ite_self, ite_self]
  · dsimp only
    rw [if_neg (by simpa using kind : ¬(leField b 1 1 == 0) = true)]
    cases saved : q.saved with
    | none => exact ite_self _
    | some bn =>
      dsimp only
      rw [if_neg (c := (bn.rest.head? == some (BitVec.ofNat 64 (leField b 16 8))) = true) (by simpa using apart bn saved), ite_self]

variable {b mode q} {bn : Bun} (back : mode ≠ 2) (saved : q.saved = some bn)
include back saved

theorem returnedPath_in_bundle (kind : leField b 1 1 ≠ 0) (next : bn.rest.head? = some (BitVec.ofNat 64 (leField b 16 8))) :
    (returnedPath b mode q).pc = bn.first ∧ (returnedPath b mode q).bun = some bn := by
  unfold returnedPath
  dsimp only
  rw [if_neg (by simpa using back), if_neg (by simpa using kind), saved]
  dsimp only
  rw [if_pos (by simpa using next)]
  exact ⟨rfl, rfl⟩

theorem returnedPath_of_fault (kind : leField b 1 1 = 0) : returnedPath b mode q = if mode == 0 && !bn.started then arriveAt (leftHandler b mode q) bn.first
    else { leftHandler b mode q with pc := bn.first, st := .eligible, bun := some { bn with redo := redone mode bn.redo, now := none } } := by
  unfold returnedPath
  dsimp only
  rw [if_neg (by simpa using back), if_pos (by simpa using kind), saved]

end

/-- Issued again, a slot is the same slot without its fault. -/
theorem redone_again (rs : List Redo) : (redone 0 rs).map (fun r => (r.pc, r.lanes)) = rs.map (fun r => (r.pc, r.lanes)) ∧ ∀ r ∈ (redone 0 rs).head?, r.flt = none := by
  cases rs with
  | nil => exact ⟨rfl, nofun⟩
  | cons r rs => exact ⟨rfl, fun y hy => Option.mem_some.mp hy ▸ rfl⟩

/-- Settles O48: the frame's accesses leave registers and paths as they were, and `returnedRegs` and `returnedPath` say the rest. -/
theorem trapReturnRestoresTheFrame : Obligations.TrapReturnRestoresTheFrame := by
  unfold Obligations.TrapReturnRestoresTheFrame
  intro s n p mode x q b u hx hq read
  have returns := trapReturn_of_read (mode := mode) hx hq read
  have slot := returnPc_slot b
  refine ⟨fun other => returns.trans (if_pos (by simpa using other)), fun lanes two bad => ?_, fun lanes good => ?_⟩
  · refine returns.trans ((if_neg (by simpa using lanes)).trans (if_pos ?_))
    rw [slot, two]
    simpa using bad
  · have ends : trapReturn s n p mode = (overwrite u n u.nextId ((List.range 4).flatMap fun r => laneKeys r q.xmask)).updAgent n (returned b mode p x q) := by
      refine returns.trans ((if_neg (by simpa using lanes)).trans (if_neg ?_))
      rw [slot]
      by_cases two : mode = 2
      · have slots : [0, 12, 24, 36, 48].contains (leField b 16 8 % 64) = true := List.contains_iff_mem.mpr (good two)
        rw [slots, Bool.not_true, Bool.and_false]
        decide
      · simp [two]
    obtain ⟨y, hy, same⟩ := (readFrame_accesses read).agents.found hx
    obtain ⟨z, hz, -⟩ := same.path ((path?_of hx).symm.trans hq)
    have get := get_returnedRegs b q.xmask x.regs
    obtain ⟨mask, join⟩ := returnedPath_keeps b mode q
    rw [ends]
    refine ⟨sameMemory_of, returned b mode p x q y, returnedPath b mode q, ?_, ?_, rfl, rfl, rfl, mask, fun i z' other hz' => ?_, ?_, fun h => ?_, fun bn back saved => ⟨fun kind next => ?_, fun kind zero fresh => ?_, fun kind zero started => ?_, fun kind one => ?_⟩,
      fun l hl lane => ⟨?_, fun r hr => ?_⟩, fun reg l hl other => ?_⟩
    · exact (agent?_updAgent_same _ n (returned b mode p x q) fun _ => ⟨rfl, rfl⟩).trans (congrArg (Option.map _) hy)
    · simp [returned, List.getElem?_mapIdx, hz]
    · have hz' : (y.paths.mapIdx fun i z => if i == p then returnedPath b mode q else { z with trapHeld := false })[i]? = some z' := hz'
      rw [List.getElem?_mapIdx] at hz'
      obtain ⟨z₀, -, rfl⟩ := Option.map_eq_some_iff.mp hz'
      rw [if_neg (by simpa using other)]
    · rw [join]
      exact if_congr beq_iff_eq rfl rfl
    · rw [returnedPath_to_frame b mode q h]
      exact ⟨rfl, rfl⟩
    · exact returnedPath_in_bundle back saved kind next
    · rw [returnedPath_of_fault back saved kind, if_pos (by simp [zero, fresh])]
      exact ⟨rfl, rfl⟩
    · rw [returnedPath_of_fault back saved kind, if_neg (by simp [started])]
      obtain ⟨pcs, faults⟩ := redone_again bn.redo
      exact ⟨rfl, _, rfl, rfl, rfl, rfl, zero ▸ pcs, zero ▸ faults⟩
    · rw [returnedPath_of_fault back saved kind, if_neg (by simp [one])]
      refine ⟨rfl, ?_⟩
      rw [one]
      rfl
    · exact (mget_foldl_mset (fun l => BitVec.ofNat 16 (leField b (640 + 2 * l) 2)) l (lanesOf q.xmask) _).trans (if_pos (mem_lanesOf.mpr ⟨hl, lane⟩))
    · exact (get r l hl).trans (if_pos ⟨List.mem_range.mpr hr, lane⟩)
    · refine (get reg l hl).trans (if_neg fun h => ?_)
      obtain high | off := other
      · exact absurd (List.mem_range.mp h.1) (by omega)
      · exact absurd (h.2.symm.trans off) (by decide)

end Sys2Proof.Machine.Scheduling
end

section
/-! PROOFS. Gangs suspended in the context store, and made eligible again (R442, R487). -/
-- One proof after another: in parallel, those of the whole text need more memory than one process may take.
set_option Elab.async false

namespace Sys2Proof.Machine.Scheduling
open Sys2Proof.Machine.NumberFormats

/-! ## Saving -/

/-- The gangs of before, each under its key. -/
def GangsKeyed (s t : State) : Prop := ∃ f : Gang → Gang, (∀ y, (f y).key = y.key) ∧ t.gangs = s.gangs.map f

theorem gangsKeyed_of {s t : State} (gangs : t.gangs = s.gangs := by rfl) : GangsKeyed s t := ⟨id, fun _ => rfl, by rw [gangs, List.map_id]⟩

theorem GangsKeyed.trans {s t u : State} (h : GangsKeyed s t) (h' : GangsKeyed t u) : GangsKeyed s u := by
  obtain ⟨f, keyed, gangs⟩ := h
  obtain ⟨f', keyed', gangs'⟩ := h'
  exact ⟨f' ∘ f, fun y => (keyed' (f y)).trans (keyed y), by rw [gangs', gangs, List.map_map]⟩

theorem GangsKeyed.found {s t : State} (h : GangsKeyed s t) {g : GangKey} {y : Gang} (hy : s.gang? g = some y) : ∃ z, t.gang? g = some z := by
  obtain ⟨f, keyed, gangs⟩ := h
  refine ⟨f y, Eq.trans ?_ ((find_map_of (fun y : Gang => y.key == g) f (fun y => congrArg (· == g) (keyed y)) s.gangs).trans (congrArg (Option.map f) hy))⟩
  unfold State.gang?
  rw [gangs]

theorem Performs.gangs {s t : State} (h : Performs s t) : t.gangs = s.gangs := by rw [h.frame]

theorem Accesses.gangs {s t : State} (h : Accesses s t) : t.gangs = s.gangs := by rw [h.frame]

theorem renameAgent_gangsKeyed (s : State) (old new : Nat) : GangsKeyed s (renameAgent s old new) := by
  refine ⟨_, ?_, rfl⟩
  exact fun _ => rfl

theorem parkNames_gangsKeyed (s : State) (g : GangKey) : GangsKeyed s (parkNames s g) :=
  List.foldlRecOn (s.gangAgents g) _ gangsKeyed_of fun t h x _ =>
    h.trans ((gangsKeyed_of (drainWhere_performs t _).gangs).trans (renameAgent_gangsKeyed _ x.num (0x100000 + t.nextId)))

/-- A save leaves its gang with its run. -/
theorem saveGang_slots {s t : State} {g : GangKey} {kind : Nat} (h : saveGang s g kind none = some t) :
    ∃ y r, t.gang? g = some y ∧ y.st = (if kind == 3 then .suspended else .saved) ∧ y.slots = some r ∧ r.state = kind ∧ r.gang = g := by
  unfold saveGang at h
  split at h
  · nomatch h
  · next y hy =>
    obtain ⟨first, -, rfl⟩ := Option.map_eq_some_iff.mp h
    have listed (runs : List Slots) : GangsKeyed s { s with slotRuns := runs } := gangsKeyed_of
    obtain ⟨z, hz⟩ := ((listed _).trans (parkNames_gangsKeyed _ g)).found hy
    refine ⟨_, _, gang?_updGang_same hz fun _ => rfl, rfl, rfl, rfl, gang?_key hy⟩

/-! ## CTXSV and CTXLD -/

section
variable {x : Sys} {s : State} {k : Iss}

theorem ctxsv_no_lanes (hi : Issues s x.ctl { pilot := false, sup := true, regs := [(x.d.toNat, 1), (x.a.toNat, 2)] } k) (none_ : k.lanes = 0) :
    Completes (.ctxsv x) s k (issued s k { pilot := false, sup := true, regs := [(x.d.toNat, 1), (x.a.toNat, 2)] }) := by
  refine endsWith_of (execCtxsv x s) rfl rfl hi ?_
  dsimp only
  rw [none_, lanesOf_zero]

section
variable (hi : Issues s x.ctl { pilot := false, sup := true, regs := [(x.d.toNat, 1), (x.a.toNat, 2)] } k) {b : State}
  (hb : issued s k { pilot := false, sup := true, regs := [(x.d.toNat, 1), (x.a.toNat, 2)] } = b) {l : Nat} {rest : List Nat} {a : Agent}
  (lanes : lanesOf k.lanes = l :: rest) (agent : b.agent? k.agent = some a)
include hi hb lanes agent

theorem ctxsv_faults {code info : Nat} (at_ : checkLanes b k.gang k.sup .write 8 [(l, (k.src.get64 x.a.toNat l).toNat)] (storeRule .b64) = .fault code info) :
    EndsWith (.ctxsv x) s k b (.fault code k.lanes (BitVec.ofNat 64 info)) := by
  refine endsWith_of (execCtxsv x s) rfl rfl hi ?_
  rw [hb]
  dsimp only
  rw [lanes, agent]
  dsimp only
  rw [at_]

/-- CTXSV at a place that it may write: what it waits for, and what its save leaves. -/
theorem ctxsv_at {p : Spot} (at_ : checkLanes b k.gang k.sup .write 8 [(l, (k.src.get64 x.a.toNat l).toNat)] (storeRule .b64) = .go [p] []) :
    let u := fenceRelease b k.agent 3 4
    let w := u.updPath k.agent k.path fun q => { q with wait := some (.suspended x.d.toNat (maskOf ((lanesOf k.lanes).filter fun l => !k.kept.contains (32 * x.d.toNat + l)))) }
    ((¬enginesIdle b k.gang ∨ jobEdge b (b.ctxOf k.gang).id p.va 8) → exec (.ctxsv x) s = .next { unissue s k with cur := none })
    ∧ (enginesIdle b k.gang → jobEdge b (b.ctxOf k.gang).id p.va 8 = false → newSave w k.gang 3 none = none → Completes (.ctxsv x) s k (k.write u x.d.toNat fun _ => 1))
    ∧ ∀ v, enginesIdle b k.gang → jobEdge b (b.ctxOf k.gang).id p.va 8 = false → newSave w k.gang 3 none = some v →
        ∃ t, EndsWith (.ctxsv x) s k t .gone ∧ Accesses v t := by
  refine ⟨fun waits => ?_, fun idle free none_ => ?_, fun v idle free saved => ?_⟩
  · refine unissued_of (execCtxsv x s) rfl rfl hi (t := b) ?_
    rw [hb]
    dsimp only
    rw [lanes, agent]
    dsimp only
    rw [at_]
    exact if_pos (by simpa using waits)
  · refine endsWith_of (execCtxsv x s) rfl rfl hi ?_
    rw [hb]
    dsimp only
    rw [lanes, agent]
    dsimp only
    rw [at_]
    refine (if_neg (by simp [idle, free])).trans ?_
    rw [lanes] at none_
    rw [none_]
  · refine ⟨storeOrd v ((v.agents.find? fun y => y.gang == k.gang && y.role == k.role && y.idx == a.idx && !y.pilot && !y.ended).map (·.num) |>.getD 0) p.sp p.addr
      (leBytes 8 ((((v.gang? k.gang).bind (·.slots)).map (·.first)).getD 0)) 0 0 0, endsWith_of (execCtxsv x s) rfl rfl hi ?_, storeOrd_accesses ..⟩
    rw [hb]
    dsimp only
    rw [lanes, agent]
    dsimp only
    rw [at_]
    refine (if_neg (by simp [idle, free])).trans ?_
    rw [lanes] at saved
    rw [saved]

end

/-- CTXLD's own change: the gang of a run is to be placed again, and its CTXSV acquires at `clock`. -/
def madeEligible (s : State) (r : Slots) (clock : Nat) : State :=
  let t := ({ s with slotRuns := s.slotRuns.map fun (y : Slots) => if y.first == r.first then { r with state := 2 } else y } : State).updGang r.gang
    fun y => { y with st := .saved, slots := some { r with state := 2 } }
  { t with agents := updWhere (fun y => y.gang == r.gang && !y.ended) (fun y => { y with clock := max y.clock clock }) t.agents }

theorem madeEligible_agents (s : State) (r : Slots) (clock : Nat) : AgentsKept s (madeEligible s r clock) := by
  refine ⟨fun y => if y.gang == r.gang && !y.ended then { y with clock := max y.clock clock } else y, fun y => ?_, rfl⟩
  dsimp only
  split
  · exact kept_of
  · exact .refl y

theorem madeEligible_gang {s : State} {r : Slots} {y : Gang} (clock : Nat) (hy : s.gang? r.gang = some y) :
    (madeEligible s r clock).gang? r.gang = some { y with st := .saved, slots := some { r with state := 2 } } :=
  gang?_updGang_same (s := { s with slotRuns := s.slotRuns.map fun (y : Slots) => if y.first == r.first then { r with state := 2 } else y }) hy
    (f := fun y => { y with st := .saved, slots := some { r with state := 2 } }) fun _ => rfl

/-- A register of an agent that a write gives one value. -/
theorem vreg_write {s : State} {k : Iss} {reg m : Nat} (f : Nat → Word) (hm : m < 32) (sets : k.sets reg m) (there : (s.regsOf k.agent).isSome) :
    (k.write s reg f).vreg k.agent reg m = f m := by
  obtain ⟨r, hr⟩ := Option.isSome_iff_exists.mp there
  have mem : m ∈ (lanesOf k.lanes).filter fun l => !k.kept.contains (32 * reg + l) := by
    obtain ⟨lane, free⟩ := sets
    exact List.mem_filter.mpr ⟨mem_lanesOf.mpr ⟨hm, lane⟩, by simpa using free⟩
  unfold State.vreg Iss.write
  rw [regsOf_mapRegs_same, hr]
  refine (get_setLanes reg f reg m hm _ r fun j hj => ?_).trans (if_pos ⟨rfl, mem⟩)
  exact (mem_lanesOf.mp (List.mem_of_mem_filter hj)).1

section
variable (hi : Issues s x.ctl { pilot := false, sup := true, regs := [(x.d.toNat, 1), (x.b.toNat, 1)] } k) {b : State}
  (hb : issued s k { pilot := false, sup := true, regs := [(x.d.toNat, 1), (x.b.toNat, 1)] } = b)
include hi hb

theorem ctxld_no_lanes (none_ : k.lanes = 0) : Completes (.ctxld x) s k b := by
  refine endsWith_of (execCtxld x s) rfl rfl hi ?_
  rw [hb]
  dsimp only
  rw [none_, lanesOf_zero]

variable {l : Nat} {rest : List Nat} (lanes : lanesOf k.lanes = l :: rest)
include lanes

theorem ctxld_absent (none_ : ((fenceRelease b k.agent 3 4).slotRuns.find? fun r => r.first == (k.src.get x.b.toNat l).toNat && r.state == 3 && r.ctx == ((fenceRelease b k.agent 3 4).ctxOf k.gang).id) = none) :
    Completes (.ctxld x) s k (k.write (fenceRelease b k.agent 3 4) x.d.toNat fun _ => 1) := by
  refine endsWith_of (execCtxld x s) rfl rfl hi ?_
  rw [hb]
  dsimp only
  rw [lanes]
  dsimp only
  rw [none_]

theorem ctxld_found {r : Slots} (found : ((fenceRelease b k.agent 3 4).slotRuns.find? fun r => r.first == (k.src.get x.b.toNat l).toNat && r.state == 3 && r.ctx == ((fenceRelease b k.agent 3 4).ctxOf k.gang).id) = some r) :
    Completes (.ctxld x) s k (k.write (madeEligible (fenceRelease b k.agent 3 4) r ((((fenceRelease b k.agent 3 4).agent? k.agent).map (·.clock)).getD 0)) x.d.toNat fun _ => 0) := by
  refine endsWith_of (execCtxld x s) rfl rfl hi ?_
  rw [hb]
  dsimp only
  rw [lanes]
  dsimp only
  rw [found]
  rfl

end

end

/-- Settles O50: a save leaves its run with its gang, and the accesses after it change no gang; CTXLD's own change is `madeEligible`. -/
theorem gangsAreSuspendedAndResumed : Obligations.GangsAreSuspendedAndResumed := by
  unfold Obligations.GangsAreSuspendedAndResumed
  refine ⟨fun x s k => ?_, fun x s k => ?_⟩
  · intro nd hi b
    refine ⟨ctxsv_no_lanes hi, fun l rest a lanes agent => ?_⟩
    intro at_
    refine ⟨fun code info => ctxsv_faults hi rfl lanes agent, fun p goes => ?_⟩
    obtain ⟨holds, none_, saves⟩ := ctxsv_at hi rfl lanes agent goes
    refine ⟨holds, none_, fun v idle free saved => ?_⟩
    obtain ⟨t, ends, accesses⟩ := saves v idle free saved
    obtain ⟨y, r, hy, st, slots, state, gang⟩ := saveGang_slots saved
    refine ⟨t, y, r, ends, ?_, st, slots, state, gang⟩
    unfold State.gang? at hy ⊢
    rw [accesses.gangs, hy]
  · intro nd hi b
    refine ⟨ctxld_no_lanes hi rfl, fun l rest lanes => ⟨ctxld_absent hi rfl lanes, fun r found => ?_⟩⟩
    refine ⟨_, ctxld_found hi rfl lanes found, fun m hm sets there => vreg_write _ hm sets ?_, fun y hy => ⟨{ y with st := .saved, slots := some { r with state := 2 } }, madeEligible_gang ((((fenceRelease b k.agent 3 4).agent? k.agent).map (·.clock)).getD 0) hy, rfl, rfl⟩⟩
    rw [(madeEligible_agents _ r _).regs, (fenceRelease_performs b k.agent 3 4).agentsKept.regs]
    exact there

end Sys2Proof.Machine.Scheduling
end

section
/-! PROOFS. Switch points: VARPT and the helm's answers (R317, R318, R344-R346). -/
-- One proof after another: in parallel, those of the whole text need more memory than one process may take.
set_option Elab.async false

namespace Sys2Proof.Machine.Scheduling
open Sys2Proof.Machine.NumberFormats

/-! ## VARPT -/

/-- R344: the issuer's wave is at one path, at no join's. -/
def Single (b : State) (k : Iss) (a : Agent) : Prop := (a.paths.filter fun p => p.st != .free).length ≤ 1 ∧ (b.path? k.agent k.path).bind (·.jpc) = none

/-- R345: no counter of the issuer's wave is up, and none of its results has an open window. -/
def QuietWave (b : State) (k : Iss) (a : Agent) : Prop := (∀ v ∈ a.d, v = 0) ∧ ∀ p ∈ b.pend, ¬(p.agent = k.agent ∧ p.wins ≠ [])

theorem single_iff {b : State} {k : Iss} {a : Agent} :
    ((decide ((a.paths.filter fun p => p.st != .free).length > 1) || ((b.path? k.agent k.path).bind (·.jpc)).isSome) = true) ↔ ¬Single b k a := by
  unfold Single
  rw [Bool.or_eq_true, decide_eq_true_eq, ← Option.ne_none_iff_isSome, not_and_or, Nat.not_le]

theorem quiet_iff {b : State} {k : Iss} {a : Agent} :
    ((a.d.any (· != 0) || b.pend.any fun p => p.agent == k.agent && !p.wins.isEmpty) = true) ↔ ¬QuietWave b k a := by
  unfold QuietWave
  rw [Bool.or_eq_true, List.any_eq_true, List.any_eq_true, not_and_or]
  refine or_congr ?_ ?_
  · simp
  · simp

section
variable {x : Sys} {s : State} {k : Iss} (hi : Issues s x.ctl { pilot := false, regs := [(x.d.toNat, 1)] } k) {b : State} (hb : issued s k { pilot := false, regs := [(x.d.toNat, 1)] } = b)
  {y : Gang} {a : Agent} (gang : b.gang? k.gang = some y) (agent : b.agent? k.agent = some a)
include hi hb gang agent

theorem varpt_no_point (at_ : ((kernelOfGang b y).switches.find? fun w => w.id == x.imm.toNat) = none) : EndsWith (.varpt x) s k b (.fault 0x01 k.lanes 0) := by
  refine endsWith_of (execVarpt x s) rfl rfl hi ?_
  rw [hb]
  rw [gang, agent]
  dsimp only
  rw [at_]

variable {w : SwitchPt} (at_ : ((kernelOfGang b y).switches.find? fun w => w.id == x.imm.toNat) = some w)
include at_

theorem varpt_not_live (dead : w.live ≤ x.d.toNat) : EndsWith (.varpt x) s k b (.fault 0x01 k.lanes 0) := by
  refine endsWith_of (execVarpt x s) rfl rfl hi ?_
  rw [hb]
  rw [gang, agent]
  dsimp only
  rw [at_]
  exact if_pos dead

variable (live : x.d.toNat < w.live)
include live

theorem varpt_several (several : ¬Single b k a) : EndsWith (.varpt x) s k b (.fault 0x04 k.lanes 0) := by
  refine endsWith_of (execVarpt x s) rfl rfl hi ?_
  rw [hb]
  rw [gang, agent]
  dsimp only
  rw [at_]
  exact (if_neg (Nat.not_le.mpr live)).trans (if_pos (single_iff.mpr several))

variable (single : Single b k a)
include single

theorem varpt_holds (busy : ¬QuietWave b k a) : exec (.varpt x) s = .next { unissue s k with cur := none } := by
  refine unissued_of (execVarpt x s) rfl rfl hi (t := b) ?_
  rw [hb]
  rw [gang, agent]
  dsimp only
  rw [at_]
  exact (if_neg (Nat.not_le.mpr live)).trans ((if_neg fun h => single_iff.mp h single).trans (if_pos (quiet_iff.mpr busy)))

variable (quiet : QuietWave b k a)
include quiet

theorem varpt_passes (none_ : k.sup ∨ y.request = false ∧ switchAct b y = .none) :
    Completes (.varpt x) s k (b.mapRegs k.agent fun r => r.setLanes x.d.toNat (fun _ => 0) (lanesOf k.xmask)) := by
  refine endsWith_of (execVarpt x s) rfl rfl hi ?_
  rw [hb]
  rw [gang, agent]
  dsimp only
  rw [at_]
  refine (if_neg (Nat.not_le.mpr live)).trans ((if_neg fun h => single_iff.mp h single).trans ((if_neg fun h => quiet_iff.mp h quiet).trans (if_pos ?_)))
  simpa using none_

theorem varpt_waits (sup : ¬k.sup) (asked : y.request ∨ switchAct b y ≠ .none) :
    EndsWith (.varpt x) s k (stopPilots (b.updGang k.gang fun z => { z with request := true }) k.gang) (.wait (.varpt x.imm.toNat x.d.toNat b.tick true)) := by
  refine endsWith_of (execVarpt x s) rfl rfl hi ?_
  rw [hb]
  rw [gang, agent]
  dsimp only
  rw [at_]
  refine (if_neg (Nat.not_le.mpr live)).trans ((if_neg fun h => single_iff.mp h single).trans ((if_neg fun h => quiet_iff.mp h quiet).trans (if_neg ?_)))
  simpa [sup, or_iff_not_imp_left] using asked

end

/-! ## The helm -/

section
variable {s : State} {g : GangKey} {y : Gang} {l : Launch} (gang : s.gang? g = some y) (launch : (s.launches.find? fun l => l.id == g.launch) = some l)
include gang launch

theorem switchPointReached_none (none_ : switchPoint s y = none) : exec (.switchPointReached g) s = .next s := by
  show execSwitchPointReached g s = _
  unfold execSwitchPointReached
  rw [gang, launch]
  dsimp only
  rw [none_]
  rfl

variable {id : Nat} (point : switchPoint s y = some id)
include point

theorem switchPointReached_some : exec (.switchPointReached g) s =
    let u := checkpointed (serveSaves s (some g)) y id
    let go (s : State) : State := s.updGang g fun y => { y with request := false }
    match switchAct s y with
    | .none => .next (releaseVarpt (go u) g)
    | .preempt => match newSave u g 1 (some id) with
      | some s => .next s
      | none => .next (releaseVarpt ((go u).updGang g fun y => { y with want := { y.want with preempt := none } }) g)
    | .migrate => .next (migrate u y l id)
    | .variants vs =>
      let p : Pick := (List.range y.size).map fun r => match u.blockOf? g r with
        | some b => (b.core, ((vs.find? fun v => v.1 == r).map (·.2)).getD b.variant)
        | none => (0, 0)
      .next (rebuildGang (go u) l.kernel g id p false) := by
  show execSwitchPointReached g s = _
  unfold execSwitchPointReached
  rw [gang, launch]
  dsimp only
  rw [point]
  dsimp only
  cases switchAct s y <;> rfl

end

theorem foldl_min_add_le (f : α → Nat) (d c : Nat) : ∀ (l : List α) (m : Nat), l.foldl (fun m w => min m (f w)) m + d ≤ c ↔ m + d ≤ c ∨ ∃ w ∈ l, f w + d ≤ c
  | [], m => by simp
  | w :: l, m => by
    have step : min m (f w) + d ≤ c ↔ m + d ≤ c ∨ f w + d ≤ c := by omega
    rw [List.foldl_cons, foldl_min_add_le f d c l, step, List.exists_mem_cons_iff, or_assoc]

theorem switchWaitTimeout_eq {s : State} {g : GangKey} {y : Gang} {id t : Nat} {ws : List (Nat × Nat)} (gang : s.gang? g = some y) (waits : varptWaits s g = (id, t) :: ws)
    (resident : y.st = .resident) (kept : y.want.preempt = none) : exec (.switchWaitTimeout g) s =
      if (∃ w ∈ ws, w.1 ≠ id) ∨ switchPoint s y = none ∧ ∃ w ∈ (id, t) :: ws, w.2 + 20000 * 16 ≤ s.tick then .next (releaseVarpt s g) else .next s := by
  have first := foldl_min_add_le (fun w : Nat × Nat => w.2) 320000 s.tick ws t
  show execSwitchWaitTimeout g s = _
  unfold execSwitchWaitTimeout
  rw [gang, waits]
  refine if_congr ?_ rfl rfl
  rw [resident, kept, Bool.and_eq_true, Bool.or_eq_true, Bool.and_eq_true (decide _), decide_eq_true_eq, first, List.any_eq_true, Option.isNone_iff_eq_none, List.exists_mem_cons_iff]
  refine (and_iff_right (by decide)).trans (or_congr ?_ and_comm)
  simp

/-- Settles O42: VARPT by its checks in their order, SWITCH_POINT_REACHED by what is asked of the gang, SWITCH_WAIT_TIMEOUT by its one condition. -/
theorem switchPointsAreOffered : Obligations.SwitchPointsAreOffered := by
  unfold Obligations.SwitchPointsAreOffered
  refine ⟨fun x s k => ?_, fun s g y l gang launch => ⟨switchPointReached_none gang launch, fun id point => ?_⟩, fun s g y id t ws gang waits resident kept => ?_⟩
  · intro nd hi b y a gang agent at_ single quiet
    exact ⟨varpt_no_point hi rfl gang agent, fun w hw => ⟨varpt_not_live hi rfl gang agent hw, varpt_several hi rfl gang agent hw, varpt_holds hi rfl gang agent hw,
      varpt_passes hi rfl gang agent hw, varpt_waits hi rfl gang agent hw⟩⟩
  · have reached := switchPointReached_some gang launch point
    refine ⟨fun act => ?_, fun t act saved => ?_, fun act none_ => ?_, fun act => ?_⟩
    · rw [reached, act]
    · rw [reached, act]
      dsimp only
      rw [saved]
    · rw [reached, act]
      dsimp only
      rw [none_]
    · rw [reached, act]
  · have timeout := switchWaitTimeout_eq gang waits resident kept
    refine ⟨fun over_ => timeout.trans (if_pos over_), fun same waiting => timeout.trans (if_neg ?_)⟩
    rintro (⟨w, hw, other⟩ | ⟨none_, w, hw, late⟩)
    · exact other (same w hw)
    · obtain point | early := waiting
      · exact point none_
      · exact absurd (early w hw) (Nat.not_lt.mpr late)

end Sys2Proof.Machine.Scheduling
end

section
/-! PROOFS. QAPP (R343). -/
-- One proof after another: in parallel, those of the whole text need more memory than one process may take.
set_option Elab.async false

namespace Sys2Proof.Machine.Scheduling
open Sys2Proof.Machine.NumberFormats

/-- What QAPP needs to issue. -/
def qappNeed (x : Eng) : Need := { regs := [(x.d.toNat, 2), (x.a.toNat, 2), (x.b.toNat, 1)], base := 0 }

/-- A payload charged to its block. -/
def qappCharged (k : Iss) (b : State) (bytes : Nat) : State := charge b k.gang (if k.pilot then 0 else k.role) (copyEnergy bytes)

section
variable {x : Eng} {s : State} {k : Iss} (hi : Issues s x.ctl (qappNeed x) k) {b : State} (hb : issued s k (qappNeed x) = b)
include hi hb

theorem qapp_no_lanes (none_ : k.lanes = 0) : Completes (.qapp x) s k (qappCharged k b 0) := by
  refine endsWith_of (execQapp x s) rfl rfl hi ?_
  rw [show issued s k { regs := [(x.d.toNat, 2), (x.a.toNat, 2), (x.b.toNat, 1)], base := 0 } = b from hb]
  dsimp only
  exact if_pos (by simp [none_])

variable (some_ : k.lanes ≠ 0) {q : Nat} (hq : (k.src.get x.b.toNat ((lanesOf k.lanes).headD 0)).toNat = q)
include some_ hq

theorem qapp_foreign (other : ¬(q < 4096 ∧ (qdesc b q).ctx = (b.ctxOf k.gang).id)) :
    EndsWith (.qapp x) s k (qappCharged k b (if q < 4096 then (x.imm.toNat + 1) * (qdesc b q).recsz else 0)) (.fault 0x04 k.lanes 0) := by
  refine endsWith_of (execQapp x s) rfl rfl hi ?_
  rw [show issued s k { regs := [(x.d.toNat, 2), (x.a.toNat, 2), (x.b.toNat, 1)], base := 0 } = b from hb]
  dsimp only
  refine (if_neg (by simpa using some_)).trans ?_
  rw [hq]
  refine if_pos ?_
  simpa [or_iff_not_imp_left] using other

variable {a : Nat} (ha : (k.src.get64 x.a.toNat ((lanesOf k.lanes).headD 0)).toNat = a) (own : q < 4096 ∧ (qdesc b q).ctx = (b.ctxOf k.gang).id)
include ha own

theorem qapp_misaligned (off : a % 32 ≠ 0) : EndsWith (.qapp x) s k (qappCharged k b ((x.imm.toNat + 1) * (qdesc b q).recsz)) (.fault 0x03 k.lanes (BitVec.ofNat 64 a)) := by
  obtain ⟨number, ctx⟩ := own
  refine endsWith_of (execQapp x s) rfl rfl hi ?_
  rw [show issued s k { regs := [(x.d.toNat, 2), (x.a.toNat, 2), (x.b.toNat, 1)], base := 0 } = b from hb]
  dsimp only
  refine (if_neg (by simpa using some_)).trans ?_
  rw [hq, ha, if_neg (by simp [number, ctx]), if_pos (by simpa using off), if_pos number]
  rfl

end

/-- QAPP's own effect once its payload has been asked for. -/
def qappEffect (x : Eng) (k : Iss) (q : Nat) (d : QDesc) : SpanRead → State × Fate
  | .stop s f => (s, f)
  | .poison s code va => (k.later s x.ctl { writes := pairWrites x.d.toNat (2 ^ 64 - 3) (lanesOf k.lanes), mem := 1, traps := [(code, k.lanes, BitVec.ofNat 64 va)] }, .done)
  | .bytes s bs =>
    if (s.queue q).status == 1 && (s.queue q).pending + (x.imm.toNat + 1) ≤ 2 ^ d.logcap && (List.range (x.imm.toNat + 1)).any fun i => jobEdge s d.ctx (recordAt d ((s.queue q).tail + i)) d.recsz
      then (s, .hold)
    else (k.later (appendNow s k q d (x.imm.toNat + 1) bs).2 x.ctl { writes := pairWrites x.d.toNat (appendNow s k q d (x.imm.toNat + 1) bs).1 (lanesOf k.lanes) }, .done)

section
variable {x : Eng} {s : State} {k : Iss} (hi : Issues s x.ctl (qappNeed x) k) {b : State} (hb : issued s k (qappNeed x) = b)
  (some_ : k.lanes ≠ 0) {q a : Nat} (hq : (k.src.get x.b.toNat ((lanesOf k.lanes).headD 0)).toNat = q) (ha : (k.src.get64 x.a.toNat ((lanesOf k.lanes).headD 0)).toNat = a)
  (own : q < 4096 ∧ (qdesc b q).ctx = (b.ctxOf k.gang).id) (aligned : a % 32 = 0) {r : SpanRead}
  (read : readSpan (qappCharged k b ((x.imm.toNat + 1) * (qdesc b q).recsz)) k a ((x.imm.toNat + 1) * (qdesc b q).recsz) = r)
include hi hb some_ hq ha own aligned read

theorem qapp_ends {t : State} {f : Fate} (effect : qappEffect x k q (qdesc b q) r = (t, f)) (goes : f ≠ .hold) : EndsWith (.qapp x) s k t f := by
  obtain ⟨number, ctx⟩ := own
  refine endsWith_of (execQapp x s) rfl rfl hi ?_ goes
  rw [show issued s k { regs := [(x.d.toNat, 2), (x.a.toNat, 2), (x.b.toNat, 1)], base := 0 } = b from hb]
  dsimp only
  refine (if_neg (by simpa using some_)).trans ?_
  rw [hq, ha, if_neg (by simp [number, ctx]), if_neg (by simp [aligned]), if_pos number]
  subst read
  exact effect

theorem qapp_unissued {t : State} (effect : qappEffect x k q (qdesc b q) r = (t, .hold)) : exec (.qapp x) s = .next { unissue s k with cur := none } := by
  obtain ⟨number, ctx⟩ := own
  refine unissued_of (execQapp x s) rfl rfl hi (t := t) ?_
  rw [show issued s k { regs := [(x.d.toNat, 2), (x.a.toNat, 2), (x.b.toNat, 1)], base := 0 } = b from hb]
  dsimp only
  refine (if_neg (by simpa using some_)).trans ?_
  rw [hq, ha, if_neg (by simp [number, ctx]), if_neg (by simp [aligned]), if_pos number]
  subst read
  exact effect

end

/-! ## The append -/

theorem appendRecords_queue {s t : State} {n : Nat} {c : Ctx} {d : QDesc} {tail : Nat} {recs : List (List Byte)} (h : appendRecords s n c d tail recs = some t) {q : Nat} :
    t.queue q = s.queue q := by
  unfold appendRecords at h
  dsimp only at h
  split at h
  · have accesses := Option.some.inj h ▸ storeParts_accesses s n _ (some (3, 4)) false true
    unfold State.queue
    rw [accesses.frame]
  · nomatch h

theorem updQueue_congr {s : State} {q : Nat} {f g : Queue → Queue} (h : f (s.queue q) = g (s.queue q)) : s.updQueue q f = s.updQueue q g := by
  unfold State.updQueue
  rw [h]

section
variable {u : State} {k : Iss} {q n : Nat} {d : QDesc} (bs : List Byte)

theorem appendNow_disabled (off : (u.queue q).status ≠ 1) : appendNow u k q d n bs = (2 ^ 64 - 2, u) := if_pos (by simpa using off)

variable (on : (u.queue q).status = 1)
include on

theorem appendNow_full (full : 2 ^ d.logcap < (u.queue q).pending + n) : appendNow u k q d n bs = (2 ^ 64 - 1, u) := (if_neg (by simp [on])).trans (if_pos full)

variable {bs} (room : (u.queue q).pending + n ≤ 2 ^ d.logcap)
include room

theorem appendNow_unusable (none_ : appendRecords u k.agent ((u.ctx? d.ctx).getD { id := d.ctx }) d (u.queue q).tail ((List.range n).map fun i => (bs.drop (i * d.recsz)).take d.recsz) = none) :
    appendNow u k q d n bs = (2 ^ 64 - 4, u) := by
  unfold appendNow
  dsimp only
  rw [if_neg (by simp [on]), if_neg (Nat.not_lt.mpr room), none_]

theorem appendNow_appended {v : State}
    (appended : appendRecords u k.agent ((u.ctx? d.ctx).getD { id := d.ctx }) d (u.queue q).tail ((List.range n).map fun i => (bs.drop (i * d.recsz)).take d.recsz) = some v) :
    appendNow u k q d n bs = ((u.queue q).tail, v.updQueue q fun z => z.grow ((u.queue q).tail + n) v.tick (((v.agent? k.agent).map (·.clock)).getD 0)) := by
  unfold appendNow
  dsimp only
  rw [if_neg (by simp [on]), if_neg (Nat.not_lt.mpr room), appended]
  exact congrArg (Prod.mk _) (updQueue_congr (by rw [appendRecords_queue appended]))

end

theorem qappEffect_append {x : Eng} {k : Iss} {q : Nat} {d : QDesc} {u v : State} {bs : List Byte} {n : Nat} (appended : appendNow u k q d (x.imm.toNat + 1) bs = (n, v))
    (free : (u.queue q).status = 1 → (u.queue q).pending + (x.imm.toNat + 1) ≤ 2 ^ d.logcap →
      ((List.range (x.imm.toNat + 1)).any fun i => jobEdge u d.ctx (recordAt d ((u.queue q).tail + i)) d.recsz) = false) :
    qappEffect x k q d (.bytes u bs) = (k.later v x.ctl { writes := pairWrites x.d.toNat n (lanesOf k.lanes) }, .done) := by
  refine (if_neg fun held => ?_).trans (by rw [appended])
  simp only [Bool.and_eq_true, beq_iff_eq, decide_eq_true_eq] at held
  obtain ⟨⟨on, room⟩, edge⟩ := held
  exact absurd ((free on room).symm.trans edge) (by decide)

/-- Settles O41: QAPP by its checks in their order, then by what its queue answers. -/
theorem queueAppendIsOneStep : Obligations.QueueAppendIsOneStep := by
  unfold Obligations.QueueAppendIsOneStep
  intro x s k nd hi b l q a n d own paid r
  refine ⟨qapp_no_lanes hi rfl, fun some_ other => qapp_foreign hi rfl some_ rfl other, fun some_ own off => qapp_misaligned hi rfl some_ rfl rfl own off, fun some_ own aligned => ?_⟩
  have ends {t : State} {f : Fate} {r' : SpanRead} (read : r = r') (effect : qappEffect x k q d r' = (t, f)) (goes : f ≠ .hold) : EndsWith (.qapp x) s k t f :=
    qapp_ends hi rfl some_ rfl rfl own aligned read effect goes
  refine ⟨fun u f read goes => ends read rfl goes, fun u code va read => ends read rfl nofun, fun u bs read => ?_⟩
  intro y edge recs gives
  refine ⟨fun off => ?_, fun on room held => ?_, fun on full => ?_, fun free on room none_ => ?_, fun v free on room some_ => ?_⟩
  · exact ends read (qappEffect_append (appendNow_disabled bs off) fun on => absurd on off) nofun
  · refine qapp_unissued hi rfl some_ rfl rfl own aligned (t := u) read (if_pos ?_)
    simp only [Bool.and_eq_true, beq_iff_eq, decide_eq_true_eq]
    exact ⟨⟨on, room⟩, held⟩
  · exact ends read (qappEffect_append (appendNow_full bs on full) fun _ room => absurd room (Nat.not_le.mpr full)) nofun
  · exact ends read (qappEffect_append (appendNow_unusable on room none_) fun _ _ => free) nofun
  · exact ends read (qappEffect_append (appendNow_appended on room some_) fun _ _ => free) nofun

end Sys2Proof.Machine.Scheduling
end

section
/-! PROOFS. Who stands where, and which lanes leave, through traces and through fills that end (R357, R362, R363). -/
-- One proof after another: in parallel, those of the whole text need more memory than one process may take.
set_option Elab.async false

namespace Sys2Proof.Machine.Scheduling
open Sys2Proof.Machine.NumberFormats

/-- An agent at its place, and with the same lanes leaving with its bundles. -/
structure SamePlace (x y : Agent) : Prop where
  name : y.num = x.num ∧ y.ended = x.ended
  place : y.gang = x.gang ∧ y.role = x.role ∧ y.pilot = x.pilot
  leaving : y.paths.map Path.leaving = x.paths.map Path.leaving

theorem SamePlace.refl (x : Agent) : SamePlace x x := ⟨⟨rfl, rfl⟩, ⟨rfl, rfl, rfl⟩, rfl⟩

theorem SamePlace.trans {x y z : Agent} (h : SamePlace x y) (h' : SamePlace y z) : SamePlace x z where
  name := ⟨h'.name.1.trans h.name.1, h'.name.2.trans h.name.2⟩
  place := by
    obtain ⟨gang, role, pilot⟩ := h.place
    obtain ⟨gang', role', pilot'⟩ := h'.place
    exact ⟨gang'.trans gang, role'.trans role, pilot'.trans pilot⟩
  leaving := h'.leaving.trans h.leaving

theorem Kept.samePlace {x y : Agent} (h : Kept x y) : SamePlace x y :=
  ⟨h.name, ⟨congrArg (·.gang) h.same, congrArg (·.role) h.same, congrArg (·.pilot) h.same⟩, h.leaving⟩

/-- Every agent stands where it stood. -/
def RosterKept (s t : State) : Prop := ∃ f, (∀ x, SamePlace x (f x)) ∧ t.agents = s.agents.map f

theorem rosterKept_of {s t : State} (agents : t.agents = s.agents := by rfl) : RosterKept s t := ⟨id, .refl, by rw [agents, List.map_id]⟩

theorem RosterKept.trans {s t u : State} (h : RosterKept s t) (h' : RosterKept t u) : RosterKept s u := by
  obtain ⟨f, same, agents⟩ := h
  obtain ⟨f', same', agents'⟩ := h'
  exact ⟨f' ∘ f, fun x => (same x).trans (same' (f x)), by rw [agents', agents, List.map_map]⟩

theorem RosterKept.ite {s t u : State} {c : Prop} [Decidable c] (h : RosterKept s t) (h' : RosterKept s u) : RosterKept s (if c then t else u) := by
  split
  · exact h
  · exact h'

theorem foldl_rosterKept {α : Type} {f : State → α → State} (step : ∀ s a, RosterKept s (f s a)) (l : List α) (s : State) : RosterKept s (l.foldl f s) :=
  List.foldlRecOn l _ rosterKept_of fun t h a _ => h.trans (step t a)

theorem AgentsKept.rosterKept {s t : State} (h : AgentsKept s t) : RosterKept s t := by
  obtain ⟨f, kept, agents⟩ := h
  exact ⟨f, fun x => (kept x).samePlace, agents⟩

theorem updAgent_rosterKept (s : State) (n : Nat) {f : Agent → Agent} (same : ∀ x, SamePlace x (f x)) : RosterKept s (s.updAgent n f) := by
  refine ⟨fun x => if x.num == n && !x.ended then f x else x, fun x => ?_, rfl⟩
  dsimp only
  split
  · exact same x
  · exact .refl x

theorem RosterKept.waves {s t : State} (h : RosterKept s t) (g : GangKey) (role : Nat) : (t.wavesOf g role).map (·.num) = (s.wavesOf g role).map (·.num) := by
  obtain ⟨f, same, agents⟩ := h
  unfold State.wavesOf
  rw [agents, List.filter_map, List.map_map]
  have stays (x : Agent) : ((fun x : Agent => x.gang == g && x.role == role && !x.pilot && !x.ended) ∘ f) x = (x.gang == g && x.role == role && !x.pilot && !x.ended) := by
    obtain ⟨gang, role', pilot⟩ := (same x).place
    simp [gang, role', pilot, (same x).name.2]
  rw [funext stays]
  exact List.map_congr_left fun x _ => (same x).name.1

/-- The lanes that leave with the bundle at a path's entry. -/
theorem RosterKept.leaving {s t : State} (h : RosterKept s t) (n p : Nat) : (t.path? n p).bind Path.leaving = (s.path? n p).bind Path.leaving := by
  obtain ⟨f, same, agents⟩ := h
  have found : t.agent? n = (s.agent? n).map f := by
    refine Eq.trans ?_ (agent?_map s n f fun x => (same x).name)
    unfold State.agent?
    rw [agents]
  unfold State.path?
  rw [found]
  cases s.agent? n with
  | none => rfl
  | some x =>
    have entry := congrArg (·[p]?) (same x).leaving
    rw [List.getElem?_map, List.getElem?_map] at entry
    have joined := congrArg (Option.bind · id) entry
    rw [Option.bind_map, Option.bind_map] at joined
    exact joined

/-! ## Traces -/

theorem noteRing_rosterKept (s : State) (n : Nat) : RosterKept s (noteRing s n) := by
  unfold noteRing
  have first (a len : Nat) : RosterKept s (noteWrite s .loc a len) := (noteWrite_performs ..).agentsKept.rosterKept
  exact .ite (first _ _) ((first _ _).trans (noteWrite_performs ..).agentsKept.rosterKept)

theorem emit_rosterKept (s : State) (bs : List Byte) : RosterKept s (emit s bs).2 := by
  unfold emit
  split
  · exact .trans (rosterKept_of (t := { s with regs := { s.regs with trpending := 0 } })) ((noteRing_rosterKept ..).trans rosterKept_of)
  · exact rosterKept_of

theorem packet_rosterKept (s : State) (x : Agent) (bs : List Byte) (isSync : Bool) : RosterKept s (packet s x bs isSync) := by
  refine (emit_rosterKept s bs).trans (updAgent_rosterKept _ _ fun y => ?_)
  split <;> exact ⟨⟨rfl, rfl⟩, ⟨rfl, rfl, rfl⟩, rfl⟩

theorem traceSync_rosterKept (s : State) (n p : Nat) (tbl : List Path) : RosterKept s (traceSync s n p tbl) := by
  unfold traceSync
  split
  · exact .ite (packet_rosterKept ..) rosterKept_of
  · exact rosterKept_of

theorem dropPacket_rosterKept (s : State) (n : Nat) : RosterKept s (dropPacket s n) :=
  .trans (rosterKept_of (t := { s with regs := _ })) (updAgent_rosterKept _ _ fun _ => ⟨⟨rfl, rfl⟩, ⟨rfl, rfl, rfl⟩, rfl⟩)

theorem trace_rosterKept (s : State) (n type p : Nat) (payload : Word) (ext : List Byte) : RosterKept s (trace s n type p payload ext) := by
  unfold trace traceFrom
  split
  · exact rosterKept_of
  · refine .ite rosterKept_of (.ite (traceSync_rosterKept ..) (.ite (dropPacket_rosterKept ..) ?_))
    have synced (due : Bool) (tbl : List Path) : RosterKept s (if due then traceSync s n p tbl else s) := .ite (traceSync_rosterKept ..) rosterKept_of
    dsimp only
    split
    · exact (synced _ _).trans (packet_rosterKept ..)
    · exact synced _ _

/-! ## Fills that end -/

theorem releasePath_leaving (q : Path) (asn : Nat) (aborted : List Nat) (still : Bool) : Path.leaving (releasePath q asn aborted still) = Path.leaving q := by
  unfold releasePath
  dsimp only
  split
  · rfl
  · split
    · exact (Option.map_map ..).trans rfl
    · rfl

theorem releaseNode_rosterKept (s : State) (asn : Nat) (n : Node) (aborted : List Nat) : RosterKept s (releaseNode s asn n aborted) := by
  unfold releaseNode
  dsimp only
  split
  · refine updAgent_rosterKept s _ fun x => ⟨⟨rfl, rfl⟩, ⟨rfl, rfl, rfl⟩, ?_⟩
    refine List.ext_getElem? fun i => ?_
    dsimp only
    rw [List.getElem?_map, List.getElem?_map, List.getElem?_mapIdx, Option.map_map]
    refine congrArg (Option.map · _) (funext fun q => ?_)
    dsimp only [Function.comp]
    split
    · exact releasePath_leaving ..
    · rfl
  · exact rosterKept_of
  · exact rosterKept_of

theorem releaseNode_fills (s : State) (asn : Nat) (n : Node) (aborted : List Nat) : (releaseNode s asn n aborted).fills = s.fills ∧ (releaseNode s asn n aborted).asks = s.asks := by
  unfold releaseNode
  dsimp only
  split <;> exact ⟨rfl, rfl⟩

theorem retryAsks_reckons (s : State) : Reckons s (retryAsks s) := by
  unfold retryAsks
  refine .trans (reckons_of (t := { s with asks := [] })) (foldl_reckons (fun s a => ?_) _ _)
  split
  · exact rkAccess_reckons ..
  · exact .refl s

theorem retryAsks_none {s : State} (none_ : s.asks = []) : retryAsks s = s := by
  unfold retryAsks
  rw [none_]
  show ({ s with asks := [] } : State) = s
  rw [← none_]

theorem devAtomic_accesses (s : State) (c : Ctx) (va : Nat) (bs : List Byte) : Accesses s (devAtomic s c va bs) := by
  unfold devAtomic
  split
  · refine foldl_accesses (fun s p => ?_) _ s
    dsimp only
    split
    · exact ((writeOn_performs ..).trans (setStamps_performs ..)).accesses.trans accesses_of
    · exact .refl s
  · exact .refl s

theorem countFill_accesses (s : State) (c : Ctx) (idx : Nat) (complete : Bool) (reason : Nat) : Accesses s (countFill s c idx complete reason) :=
  Accesses.ite (devAtomic_accesses ..) ((devAtomic_accesses ..).trans (devAtomic_accesses ..))

/-- A fill's end counted in its descriptor, where its context is there. -/
def countEnd (s : State) (f : Fill) : State := match s.ctx? f.ctx with
  | some c => countFill s c f.rkidx (((List.range f.nlines).map (f.base + ·)).all fun l => f.committed.contains l) f.reason
  | none => s

theorem countEnd_accesses (s : State) (f : Fill) : Accesses s (countEnd s f) := by
  unfold countEnd
  split
  · exact countFill_accesses ..
  · exact .refl s

/-- A fill that ends: it is gone, its end is counted, and what waited on it and for its entry goes on. -/
theorem fillEnd_eq {s : State} {id : Nat} {f : Fill} (here : s.fill? id = some f) (live : f.stale = false) :
    fillEnd s id = retryAsks (f.nodes.foldl (fun s n => releaseNode s f.asn n (n.lines.filter fun l => !f.committed.contains l)) (countEnd { s with fills := s.fills.filter fun x => x.id != id } f)) := by
  unfold fillEnd
  rw [here]
  exact if_neg (by simp [live])

theorem fillEnd_stale {s : State} {id : Nat} {f : Fill} (here : s.fill? id = some f) (stale : f.stale = true) : ∃ fills nextId, fillEnd s id = { s with fills := fills, nextId := nextId } := by
  unfold fillEnd
  rw [here]
  exact ⟨_, _, if_pos stale⟩

theorem fillEnd_rosterKept (s : State) (id : Nat) : RosterKept s (fillEnd s id) := by
  have removed : RosterKept s { s with fills := s.fills.filter fun x => x.id != id } := rosterKept_of
  cases here : s.fill? id with
  | none =>
    unfold fillEnd
    rw [here]
    exact rosterKept_of
  | some f =>
    by_cases live : f.stale = false
    · rw [fillEnd_eq here live]
      exact ((removed.trans (countEnd_accesses ..).agents.rosterKept).trans (foldl_rosterKept (fun s n => releaseNode_rosterKept ..) ..)).trans (retryAsks_reckons _).agents.rosterKept
    · obtain ⟨_, _, replaced⟩ := fillEnd_stale here (by simpa using live)
      rw [replaced]
      exact rosterKept_of

theorem fillEnd_gone {s : State} {id : Nat} {f : Fill} (here : s.fill? id = some f) (live : f.stale = false) (none_ : s.asks = []) : (fillEnd s id).fill? id = none := by
  let removed : State := { s with fills := s.fills.filter fun x => x.id != id }
  have counted : (countEnd removed f).fills = removed.fills ∧ (countEnd removed f).asks = [] := by
    have parts := (countEnd_accesses removed f).evicts
    exact ⟨parts.fills, parts.asks.trans none_⟩
  have released := List.foldlRecOn (motive := fun t : State => t.fills = removed.fills ∧ t.asks = []) f.nodes
    (fun s n => releaseNode s f.asn n (n.lines.filter fun l => !f.committed.contains l)) counted fun t h n _ => by
      obtain ⟨fills, asks⟩ := releaseNode_fills t f.asn n (n.lines.filter fun l => !f.committed.contains l)
      exact ⟨fills.trans h.1, asks.trans h.2⟩
  rw [fillEnd_eq here live, retryAsks_none released.2]
  unfold State.fill?
  rw [released.1]
  exact List.find?_eq_none.mpr fun x hx => by simpa using (List.mem_filter.mp hx).2

end Sys2Proof.Machine.Scheduling
end

section
/-! PROOFS. The lines that staging holds, and which gangs there are, are no matter of agents that end or of the end of a slot (R56, R101-R105, R295). -/
-- One proof after another: in parallel, those of the whole text need more memory than one process may take.
set_option Elab.async false

namespace Sys2Proof.Machine.Scheduling
open Sys2Proof.Machine.NumberFormats

/-- Staging holds the lines that it held, and the gangs are those there were. -/
structure HoldsKept (s t : State) : Prop where
  holds : t.stageHolds = s.stageHolds
  gangs : GangsKeyed s t

theorem holdsKept_of {s t : State} (holds : t.stageHolds = s.stageHolds := by rfl) (gangs : t.gangs = s.gangs := by rfl) : HoldsKept s t := ⟨holds, gangsKeyed_of gangs⟩

theorem HoldsKept.trans {s t u : State} (h : HoldsKept s t) (h' : HoldsKept t u) : HoldsKept s u := ⟨h'.holds.trans h.holds, h.gangs.trans h'.gangs⟩

theorem HoldsKept.ite {s t u : State} {c : Prop} [Decidable c] (h : HoldsKept s t) (h' : HoldsKept s u) : HoldsKept s (if c then t else u) := by
  split
  · exact h
  · exact h'

theorem foldl_holdsKept {α : Type} {f : State → α → State} (step : ∀ s a, HoldsKept s (f s a)) (l : List α) (s : State) : HoldsKept s (l.foldl f s) :=
  List.foldlRecOn l _ holdsKept_of fun t h a _ => h.trans (step t a)

theorem Reckons.holdsKept {s t : State} (h : Reckons s t) : HoldsKept s t := holdsKept_of (by rw [h.frame]) (by rw [h.frame])

theorem Performs.holdsKept {s t : State} (h : Performs s t) : HoldsKept s t := h.accesses.reckons.holdsKept

theorem StopsOnly.holdsKept {s t : State} (h : StopsOnly s t) : HoldsKept s t := by
  obtain ⟨f, same, gangs⟩ := h.gangs
  exact ⟨by rw [h.frame], f, fun y => congrArg (·.key) (same y), gangs⟩

theorem TraceOnly.holdsKept {s t : State} (h : TraceOnly s t) : HoldsKept s t := h.stopsOnly.holdsKept

/-! ## Fills that end -/

theorem releaseNode_holdsKept (s : State) (asn : Nat) (n : Node) (aborted : List Nat) : HoldsKept s (releaseNode s asn n aborted) := by
  unfold releaseNode
  split <;> exact holdsKept_of

theorem fillEnd_holdsKept (s : State) (id : Nat) : HoldsKept s (fillEnd s id) := by
  have removed : HoldsKept s { s with fills := s.fills.filter fun x => x.id != id } := holdsKept_of
  unfold fillEnd
  split
  · exact holdsKept_of
  · dsimp only
    split
    · exact holdsKept_of
    · refine .trans ?_ (retryAsks_reckons _).holdsKept
      refine .trans ?_ (foldl_holdsKept (fun s n => releaseNode_holdsKept ..) _ _)
      split
      · exact removed.trans (countFill_accesses ..).reckons.holdsKept
      · exact removed

/-! ## Collectives that go on -/

theorem devWrite_holdsKept (s : State) (c : Ctx) (va : Nat) (bs : List Byte) : HoldsKept s (devWrite s c va bs) := by
  unfold devWrite
  split
  · refine foldl_holdsKept (fun s p => ?_) _ s
    dsimp only
    split
    · exact (storeDevice_performs ..).holdsKept
    · exact holdsKept_of
  · exact holdsKept_of

theorem faultRecord_holdsKept (s : State) (c : Ctx) (agent : Nat) (m : Miss) : HoldsKept s (faultRecord s c agent m) := by
  unfold faultRecord
  dsimp only
  have counted (t : State) (f : Ctx → Ctx) : HoldsKept t (t.updCtx c.id f) := holdsKept_of
  refine .ite ((counted s _).trans (devWrite_holdsKept ..)) (.ite ?_ holdsKept_of)
  exact ((devWrite_holdsKept ..).trans (devWrite_holdsKept ..)).trans (counted _ _)

theorem missColl_holdsKept (s : State) (c : Collective) (ms : List Miss) : HoldsKept s (missColl s c ms) := by
  unfold missColl
  refine .trans (t := (List.foldl _ (c, s) ms).2) ?_ (holdsKept_of rfl rfl)
  refine List.foldlRecOn (motive := fun r : Collective × State => HoldsKept s r.2) ms _ ?_ fun r h m _ => ?_
  · exact holdsKept_of
  · dsimp only
    split
    · exact h
    · exact h.trans ((faultRecord_holdsKept ..).trans holdsKept_of)

theorem submitJob_holdsKept (s : State) (n clock : Nat) (j : Job) : HoldsKept s (submitJob s n clock j).2 := (releaseAgent_performs s n).holdsKept.trans holdsKept_of

theorem giveColl_holdsKept (s : State) (c : Collective) (j : Job) : HoldsKept s (giveColl s c j) := by
  unfold giveColl
  refine foldl_holdsKept (fun s p => ?_) _ s
  split
  · exact HoldsKept.ite holdsKept_of holdsKept_of
  · exact holdsKept_of

theorem submitColl_holdsKept (s : State) (c : Collective) : HoldsKept s (submitColl s c) := by
  have released : HoldsKept s (c.waves.foldl releaseAgent s) := foldl_holdsKept (fun s n => (releaseAgent_performs s n).holdsKept) _ s
  unfold submitColl
  extract_lets key cl shared last
  split
  · refine .ite holdsKept_of ?_
    extract_lets made j
    have submitted := submitJob_holdsKept (c.waves.foldl releaseAgent s) last c.clock j
    generalize submitJob (c.waves.foldl releaseAgent s) last c.clock j = r at submitted ⊢
    exact ((released.trans submitted).trans holdsKept_of).trans (giveColl_holdsKept ..)
  · exact missColl_holdsKept ..
  · exact holdsKept_of

theorem submitReady_holdsKept (s : State) : HoldsKept s (submitReady s) := by
  unfold submitReady
  refine List.foldlRecOn (motive := fun r : List (GangKey × Nat) × State => HoldsKept s r.2) s.colls _ holdsKept_of fun r h c _ => ?_
  dsimp only
  split
  · exact h
  · split <;> exact h.trans (submitColl_holdsKept ..)

/-! ## Agents that end -/

theorem updAgent_holdsKept (s : State) (n : Nat) (f : Agent → Agent) : HoldsKept s (s.updAgent n f) := holdsKept_of

theorem updGang_holdsKept (s : State) (g : GangKey) {f : Gang → Gang} (name : ∀ y, (f y).key = y.key) : HoldsKept s (s.updGang g f) :=
  ⟨rfl, fun y => if y.key == g then f y else y, fun y => by dsimp only; split <;> simp [name], rfl⟩

theorem updBlock_holdsKept (s : State) (g : GangKey) (role : Nat) (f : Block → Block) : HoldsKept s (s.updBlock g role f) := holdsKept_of

theorem dropWaiter_holdsKept (s : State) (p : Waiter → Bool) : HoldsKept s (dropWaiter s p) := holdsKept_of

theorem endHeld_holdsKept (s : State) (g : GangKey) : HoldsKept s (endHeld s g) := (endHeld_stopsOnly ..).holdsKept

/-- New lists of blocks, held paths, agents, results outstanding, jobs, collectives and releases, and another name for the next: no matter of staging. -/
theorem relisted_holdsKept (s : State) (stops : List Stop) (agents : List Agent) (blocks : List Block) (id : Nat) (pend : List Pend) (jobs : List Job) (colls : List Collective) (releases : List Release) :
    HoldsKept s { s with stops := stops, agents := agents, blocks := blocks, nextId := id, pend := pend, jobs := jobs, colls := colls, releases := releases } := holdsKept_of

theorem finalEnd_holdsKept (s : State) (n : Nat) : HoldsKept s (finalEnd s n) := by
  unfold finalEnd
  split
  · exact holdsKept_of
  · next x _ =>
    extract_lets s₁ s₂ s₃ others last s₄ s₅ s₆ gone rename s₇ s₈ s₉
    have drained : HoldsKept s s₁ := (drainWhere_performs s _).holdsKept.trans (updGang_holdsKept _ _ fun _ => rfl)
    have left : HoldsKept s₁ s₅ := (dropWaiter_holdsKept ..).trans ((updAgent_holdsKept ..).trans ((updBlock_holdsKept ..).trans (relisted_holdsKept ..)))
    have released : HoldsKept s₅ s₆ := (relisted_holdsKept ..).trans (endHeld_holdsKept ..)
    have renamed : HoldsKept s₆ s₈ := (relisted_holdsKept ..).trans (relisted_holdsKept ..)
    have over_ : HoldsKept s s₉ := (((drained.trans left).trans released).trans renamed).trans (submitReady_holdsKept s₈)
    refine .ite ?_ over_
    split
    · exact over_.trans (fillEnd_holdsKept ..)
    · exact over_

theorem checkEmpty_holdsKept (s : State) (n : Nat) : HoldsKept s (checkEmpty s n) := by
  have idle (t : State) : HoldsKept t (endIfIdle t n) := by
    unfold endIfIdle
    split
    · exact .ite (finalEnd_holdsKept ..) holdsKept_of
    · exact holdsKept_of
  unfold checkEmpty
  split
  · exact .ite ((updAgent_holdsKept ..).trans (idle _)) holdsKept_of
  · exact holdsKept_of

theorem endAgent_holdsKept (s : State) (n code : Nat) : HoldsKept s (endAgent s n code) := by
  unfold endAgent
  split
  · exact holdsKept_of
  · refine .trans (.trans (foldl_holdsKept (fun s p => ?_) _ s) holdsKept_of) (checkEmpty_holdsKept ..)
    exact .ite holdsKept_of (trace_traceOnly ..).holdsKept

theorem trapReturn_holdsKept (s : State) (n p mode : Nat) : HoldsKept s (trapReturn s n p mode) := by
  have left (u : State) (code before : Nat) (keys : List Nat) (f : Agent → Agent) (c d : Bool) :
      HoldsKept u (if c then endAgent u n 4 else if d then endAgent u n 3 else (overwrite u n before keys).updAgent n f) :=
    .ite (endAgent_holdsKept ..) (.ite (endAgent_holdsKept ..) holdsKept_of)
  unfold trapReturn
  split
  · next x q _ _ =>
    dsimp only
    split
    · split <;> exact endAgent_holdsKept ..
    · next ws u found =>
      have read : readFrame s x = some (ws.flatMap (leBytes 8), u) := congrArg (Option.map _) found
      exact (readFrame_accesses read).reckons.holdsKept.trans (left u 0 _ _ _ _ _)
  · exact holdsKept_of

/-! ## The end of a slot -/

theorem updPath_holdsKept (s : State) (n p : Nat) (f : Path → Path) : HoldsKept s (s.updPath n p f) := holdsKept_of

theorem splitPends_holdsKept (s : State) (n i dst : Nat) : HoldsKept s (splitPends s n i dst) := holdsKept_of

theorem freeEntry_holdsKept (s : State) (n p : Nat) : HoldsKept s (freeEntry s n p) := holdsKept_of

theorem overwrite_holdsKept (s : State) (n before : Nat) (keys : List Nat) : HoldsKept s (overwrite s n before keys) := holdsKept_of

theorem leaveLanes_holdsKept (s : State) (n p : Nat) (gone : Word) : HoldsKept s (leaveLanes s n p gone) :=
  (trace_traceOnly s n 5 p gone []).holdsKept.trans holdsKept_of

theorem undoLanes_holdsKept (s : State) (n p : Nat) (b : Bun) (left : Word) (nregs : Nat) : HoldsKept s (undoLanes s n p b left nregs) := by
  unfold undoLanes
  exact .ite holdsKept_of holdsKept_of

theorem endBrk_holdsKept (s : State) (n p : Nat) (b : Bun) : HoldsKept s (endBrk s n p b) := by
  unfold endBrk
  split
  · exact holdsKept_of
  · exact .ite (holdPath_stopsOnly ..).holdsKept holdsKept_of

theorem mergeTest_holdsKept (s : State) (n : Nat) : HoldsKept s (mergeTest s n) := (mergeTest_stopsOnly ..).holdsKept

theorem endBundle_holdsKept (s : State) (n p : Nat) (b : Bun) : HoldsKept s (endBundle s n p b) := by
  have leaves (t : State) : HoldsKept t (if b.exits != 0 then leaveLanes t n p b.exits else t) := .ite (leaveLanes_holdsKept ..) holdsKept_of
  have empties (t : State) : HoldsKept t (checkEmpty (mergeTest (freeEntry t n p) n) n) := (freeEntry_holdsKept ..).trans ((mergeTest_holdsKept ..).trans (checkEmpty_holdsKept ..))
  unfold endBundle
  split
  · split
    · extract_lets s₁ s₂
      have returned : HoldsKept s s₁ := (updPath_holdsKept ..).trans (trapReturn_holdsKept ..)
      have left : HoldsKept s₁ s₂ := leaveLanes_holdsKept ..
      clear_value s₂ s₁
      exact .ite (returned.trans (mergeTest_holdsKept ..)) (.ite (returned.trans (left.trans (empties _))) (returned.trans (left.trans (mergeTest_holdsKept ..))))
    · extract_lets s₁ xm pc held groups free sp pairs s₂
      have left : HoldsKept s s₁ := leaves s
      have grouped : HoldsKept s₁ s₂ := by
        refine foldl_holdsKept (fun s g => ?_) pairs s₁
        exact (trace_traceOnly ..).holdsKept.trans (splitPends_holdsKept ..)
      clear_value s₂ s₁
      refine .ite (left.trans (empties _)) (.ite ?_ ?_)
      · exact left.trans ((updPath_holdsKept ..).trans (endBrk_holdsKept ..))
      · split
        extract_lets s₃ s₄ place s₅ s₆ s₇ s₈
        have branched : HoldsKept s₂ s₃ := .ite (trace_traceOnly ..).holdsKept holdsKept_of
        have undone : HoldsKept s₃ s₄ := undoLanes_holdsKept ..
        clear_value s₄ s₃
        have placed : HoldsKept s₄ s₅ := holdsKept_of
        have broken : HoldsKept s₅ s₆ := endBrk_holdsKept s₅ n p b
        have gone : HoldsKept s₆ s₈ := (updPath_holdsKept ..).trans (updPath_holdsKept ..)
        exact left.trans (grouped.trans (branched.trans (undone.trans (placed.trans (broken.trans (gone.trans (mergeTest_holdsKept ..)))))))
  · exact holdsKept_of

theorem settle_holdsKept (s : State) (n p : Nat) : HoldsKept s (settle s n p) := by
  unfold settle
  split
  · exact holdsKept_of
  · split
    · exact endBundle_holdsKept ..
    · extract_lets rest s₁
      have noted : HoldsKept s s₁ := updPath_holdsKept ..
      split
      · exact noted.trans (updPath_holdsKept ..)
      · exact noted

theorem slotWrites_holdsKept (s : State) (n p : Nat) (b : Bun) (undone : Word) : HoldsKept s (slotWrites s n p b undone).1 := by
  unfold slotWrites
  split
  · exact holdsKept_of
  · dsimp only
    split
    · exact holdsKept_of
    · split <;> exact holdsKept_of

theorem endSlot_holdsKept (s : State) (n p : Nat) (add : Undone) : HoldsKept s (endSlot s n p add) := by
  unfold endSlot
  split
  · exact holdsKept_of
  · next b _ =>
    have written := slotWrites_holdsKept s n p b add.lanes
    generalize slotWrites s n p b add.lanes = r at written ⊢
    obtain ⟨u, c⟩ := r
    have noted (f : Path → Path) : HoldsKept s (u.updPath n p f) := HoldsKept.trans written (updPath_holdsKept ..)
    exact .ite ((noted _).trans (settle_holdsKept ..)) (noted _)

/-- Staging holds what it held once a slot has ended. -/
theorem finish_stageHolds (s : State) (k : Iss) (f : Fate) : (finish s k f).stageHolds = s.stageHolds := by
  cases f with
  | done | fault | faultOn | park | last => exact (endSlot_holdsKept ..).holds
  | wait => exact (updPath_holdsKept ..).holds
  | hold | gone => rfl

end Sys2Proof.Machine.Scheduling
end

section
/-! PROOFS. STAGE_HOLD over a reckoned line whose slice is full: the unit that makes room is written to the victim store, and may be written over a descriptor (R295, R366). -/
-- One proof after another: in parallel, those of the whole text need more memory than one process may take.
set_option Elab.async false

namespace Sys2Proof.Machine.Scheduling
open Sys2Proof.Machine.NumberFormats

/-- The units that may go to make room for a line, with the contexts that name them. -/
def evictables (s : State) (asn line : Nat) : List (Ctx × (Nat × Nat)) :=
  (s.rkLines.filter fun r => rkSlice r.asn (r.line * 128) == rkSlice asn (line * 128)).flatMap fun r =>
    (s.ctxs.filter fun c => c.asn == r.asn).filterMap fun c => (unitOfLine s c r.line).bind fun u => if evictable s c u then some (c, u) else none

/-- A full slice in which one unit may go loses it. -/
theorem sliceRoom_of_one {s : State} {asn line : Nat} {c : Ctx} {u : Nat × Nat} (absent : s.resident asn line = false)
    (full : sliceLines s ≤ (s.rkLines.filter fun r => rkSlice r.asn (r.line * 128) == rkSlice asn (line * 128)).length) (one : evictables s asn line = [(c, u)]) :
    sliceRoom s asn line = evictUnit { s with fresh := s.fresh + 1 } c u := by
  unfold sliceRoom
  dsimp only
  rw [absent, if_neg (by simpa using full)]
  rw [show List.flatMap _ _ = [(c, u)] from one]
  rw [List.length_singleton, Nat.mod_one]
  rfl

/-- A reload of a unit of one line from a place that is not poisoned. -/
theorem victimReload_of_one {s : State} {c : Ctx} {d : RkDesc} {u clock a : Nat} (one : d.logUnit = 0) (place : victimPlace s c (d.victim + 128 * u) = some a) (clean : s.poisoned .loc a 128 = false) :
    victimReload s c d u clock = some (putLine (sliceRoom s c.asn (d.unitBase u)) c.asn (d.unitBase u) (s.readHome .loc a 128) clock) := by
  unfold victimReload
  dsimp only
  rw [one]
  show (match victimPlace s c (d.victim + 128 * (u * 1 + 0)) with
      | some a => if s.poisoned .loc a 128 then none else some (putLine (sliceRoom s c.asn (d.unitBase u + 0)) c.asn (d.unitBase u + 0) (s.readHome .loc a 128) clock)
      | none => none) = _
  rw [Nat.mul_one, Nat.add_zero, place]
  dsimp only
  rw [clean]
  rfl

/-- An access of a line whose unit the victim store holds. -/
theorem rkAccess_of_reload {s t : State} {c : Ctx} {idx line : Nat} {m : Misser} {prefetch : Bool} (absent : s.resident c.asn line = false)
    (held : ((rkDesc s c idx).ok && ((rkDesc s c idx).rbase / 128 ≤ line && line < ((rkDesc s c idx).rbase + (rkDesc s c idx).rlen) / 128) && victimBit s c (rkDesc s c idx) ((rkDesc s c idx).unitOf line)) = true)
    (reload : victimReload s c (rkDesc s c idx) ((rkDesc s c idx).unitOf line) m.clock = some t) : rkAccess s c idx line m prefetch = (.present, t) := by
  unfold rkAccess
  dsimp only
  rw [absent, if_neg (by decide), held, if_pos rfl, reload]

/-- STAGE_HOLD of one line. -/
theorem stageHold_of_one {x : Eng} {s b t : State} {k : Iss} {line : Sp × Nat × Leaf} {new : Bool} (hi : Issues s x.ctl { regs := [(x.d.toNat, 1), (x.a.toNat, 2), (x.b.toNat, 1)], base := 0 } k)
    (hb : issued s k { regs := [(x.d.toNat, 1), (x.a.toNat, 2), (x.b.toNat, 1)], base := 0 } = b) (lanes : k.lanes ≠ 0)
    (lines : stageLines b k (k.src.get64 x.a.toNat ((lanesOf k.lanes).headD 0)).toNat (k.src.get x.b.toNat ((lanesOf k.lanes).headD 0)).toNat = [line])
    (one : stageOne (charge b k.gang (if k.pilot then 0 else k.role) (copyEnergy (k.src.get x.b.toNat ((lanesOf k.lanes).headD 0)).toNat)) k line = (new, t)) :
    ∃ o, Completes (.stageHold x) s k (k.later t x.ctl o) := by
  generalize charged : charge b k.gang (if k.pilot then 0 else k.role) (copyEnergy (k.src.get x.b.toNat ((lanesOf k.lanes).headD 0)).toNat) = v at one
  refine ⟨{ writes := laneWrites x.d.toNat (fun _ => BitVec.ofNat 32 (if new then 0 + 1 else 0)) (lanesOf k.lanes)
            hold := if (if line.2.2.rk && t.stageHolds.contains ((v.ctxOf k.gang).id, line.1, line.2.1) then [] ++ [((v.ctxOf k.gang).asn, line.2.1)] else []).isEmpty then .none
              else .stage (if line.2.2.rk && t.stageHolds.contains ((v.ctxOf k.gang).id, line.1, line.2.1) then [] ++ [((v.ctxOf k.gang).asn, line.2.1)] else []) },
    endsWith_of (stageInstr x true s) rfl rfl hi ?_⟩
  rw [hb]
  dsimp only
  rw [if_neg (by simpa using lanes), if_pos rfl, lines, List.foldl_cons, List.foldl_nil]
  subst charged
  dsimp only
  rw [one]

theorem later_stageHolds (k : Iss) (s : State) (g : Ctl) (r : Result) : (k.later s g r).stageHolds = s.stageHolds := by
  obtain ⟨_, _, _, eq⟩ := MemoryInstructions.later_eq k s g r
  rw [eq]
  rfl

/-- Of two effects with which an instruction completes, staging holds the same lines. -/
theorem stageHolds_of_completes {i : Instr} {s t u : State} {k : Iss} (h : Completes i s k t) (h' : Completes i s k u) : t.stageHolds = u.stageHolds := by
  have same := congrArg State.stageHolds (Host.Outcome.next.inj (h.symm.trans h'))
  exact (finish_stageHolds t k .done).symm.trans (same.trans (finish_stageHolds u k .done))

/-! ## The counterexample -/

/-- Its context: a reckon table of two descriptors, and a quota of two lines. -/
def stagingCtx : Ctx := { id := 0, rktab := 0x180000, rkcount := 2, stgquota := 2 }

/-- The registers that name the line. -/
def stagingRegs : Regs := { v := [(128, 0x40000000), (192, 1)] }

/-- A wave about to issue STAGE_HOLD of the first line of a reckoned range whose units are single lines and go to a victim store that lies over the second descriptor: unit 65's
place there is that descriptor. The first line is in the victim store, the stacked cache has no room but unit 65's, and a pin of the second descriptor counts two lines. -/
def stagingState : State :=
  { State.reset with
    loc := [(0x18000B, 0x40), (0x180012, 1), (0x18001A, 1), (0x18001B, 1), (0x180021, 0xE0), (0x180022, 0x17), (0x180098, 1), (0x18E000, 1)]
    regs := { State.reset.regs with feat := 1, cssize := 16384 }
    tlb := [{ asn := 0, page := 0x40000, leaf := { rk := true, r := true, w := true } }, { asn := 0, page := 0, leaf := { logSize := 36, r := true, w := true, x := true } }]
    ctxs := [stagingCtx]
    gangs := [{ key := { launch := 1, idx := 0 }, ctx := 0 }]
    agents := [{ num := 0, gang := { launch := 1, idx := 0 }, role := 0, idx := 0, paths := [{ st := .eligible, xmask := 1 }] }]
    cur := some { agent := 0, path := 0, pc := 0, src := stagingRegs, lanes := 1, xmask := 1 }
    rkLines := [{ asn := 0, line := 0x800041 }]
    pins := [{ ctx := 0, rkidx := 1, unit := 0, count := 1 }] }

def stagingInstr : Eng := { d := 2, a := 4, b := 6 }

def stagingNeed : Need := { regs := [(stagingInstr.d.toNat, 1), (stagingInstr.a.toNat, 2), (stagingInstr.b.toNat, 1)], base := 0 }

/-- Its issue. -/
def stagingIss : Iss :=
  { agent := 0, path := 0, pc := 0, lanes := 1, xmask := 1, src := stagingRegs, pilot := false, sup := false, gang := { launch := 1, idx := 0 }, role := 0, replay := false }

/-- The state in which its line is brought in. -/
def stagingBegun : State := charge (issued stagingState stagingIss stagingNeed) stagingIss.gang 0 (copyEnergy 1)

theorem staging_issues : Issues stagingState stagingInstr.ctl stagingNeed stagingIss := ⟨_, rfl, by decide, .inl rfl⟩

theorem staging_lines : stageLines (issued stagingState stagingIss stagingNeed) stagingIss 0x40000000 1 = [(.rk 0, 0x800000, { rk := true, r := true, w := true })] := by decide +kernel

/-- The second descriptor counts two lines before. -/
theorem staging_pinned : ((issued stagingState stagingIss stagingNeed).pins.filter fun p => p.ctx == stagingCtx.id).foldl
    (fun n p => n + 2 ^ (rkDesc (issued stagingState stagingIss stagingNeed) stagingCtx p.rkidx).logUnit) 0 = 2 := by decide +kernel

theorem staging_evictables : evictables stagingBegun 0 0x800000 = [(stagingCtx, (0, 65))] := by decide +kernel

/-- The state with the line brought in, and unit 65 over the second descriptor. -/
def stagingLoaded : State :=
  putLine (evictUnit { stagingBegun with fresh := stagingBegun.fresh + 1 } stagingCtx (0, 65)) 0 0x800000 (stagingBegun.readHome .loc 0x17E000 128) (missOf stagingBegun 0 0).clock

theorem staging_reload : victimReload stagingBegun stagingCtx (rkDesc stagingBegun stagingCtx 0) ((rkDesc stagingBegun stagingCtx 0).unitOf 0x800000) (missOf stagingBegun 0 0).clock = some stagingLoaded := by
  have unit : (rkDesc stagingBegun stagingCtx 0).unitOf 0x800000 = 0 := by decide +kernel
  have base : (rkDesc stagingBegun stagingCtx 0).unitBase 0 = 0x800000 := by decide +kernel
  have room : sliceRoom stagingBegun stagingCtx.asn 0x800000 = evictUnit { stagingBegun with fresh := stagingBegun.fresh + 1 } stagingCtx (0, 65) :=
    sliceRoom_of_one (by decide +kernel) (by decide +kernel) staging_evictables
  rw [unit, victimReload_of_one (a := 0x17E000) (by decide +kernel) (by decide +kernel) (by decide +kernel), base, room]
  rfl

theorem staging_access : rkAccess stagingBegun stagingCtx (0 % 4096) 0x800000 (missOf stagingBegun stagingIss.agent stagingIss.path) true = (.present, stagingLoaded) :=
  rkAccess_of_reload (by decide +kernel) (by decide +kernel) staging_reload

/-- The line is held: the pin counts one line by now. -/
theorem staging_holds : stageOne stagingBegun stagingIss (.rk 0, 0x800000, { rk := true, r := true, w := true })
    = (true, { stagingLoaded with stageHolds := stagingLoaded.stageHolds ++ [(0, .rk 0, 0x800000)] }) := by
  have room : (!stageComes stagingLoaded stagingCtx { rk := true, r := true, w := true } 0x800000 || stagingLoaded.stageHolds.contains (stagingCtx.id, Sp.rk 0, 0x800000)
      || decide ((stagingLoaded.stageHolds.filter fun h => h.1 == stagingCtx.id).length
        + (stagingLoaded.pins.filter fun p => p.ctx == stagingCtx.id).foldl (fun n p => n + 2 ^ (rkDesc stagingLoaded stagingCtx p.rkidx).logUnit) 0 ≥ stagingCtx.stgquota)) = false := by decide +kernel
  have ctx : stagingBegun.ctxOf stagingIss.gang = stagingCtx := by decide +kernel
  unfold stageOne
  dsimp only
  rw [ctx, if_pos rfl, staging_access]
  exact if_neg (by rw [room]; decide)

theorem staging_completes : ∃ o, Completes (.stageHold stagingInstr) stagingState stagingIss
    (stagingIss.later { stagingLoaded with stageHolds := stagingLoaded.stageHolds ++ [(0, .rk 0, 0x800000)] } stagingInstr.ctl o) :=
  stageHold_of_one (b := issued stagingState stagingIss stagingNeed) staging_issues rfl (by decide) staging_lines staging_holds

/-- Refutes O37: a line of reckoned memory is held beyond the quota, as its context's pins were counted before, where the unit that makes room for it is written over a
descriptor of a pinned unit. -/
theorem not_stagingHoldsAndReleasesLines : ¬ Obligations.StagingHoldsAndReleasesLines := by
  unfold Obligations.StagingHoldsAndReleasesLines
  rintro ⟨holds, -⟩
  obtain ⟨-, held, -⟩ := holds stagingInstr stagingState stagingIss staging_issues
  obtain ⟨t, new, ends, added, -, -, -, -, quota, -⟩ := held (by decide)
  obtain ⟨o, actual⟩ := staging_completes
  have kept : t.stageHolds = stagingLoaded.stageHolds ++ [(0, .rk 0, 0x800000)] :=
    (stageHolds_of_completes ends actual).trans (later_stageHolds ..)
  have loaded : stagingLoaded.stageHolds = [] := by decide +kernel
  rw [loaded, List.nil_append] at kept
  have first : new = [(0, .rk 0, 0x800000)] := added.symm.trans kept
  have within := quota (by rw [first]; nofun)
  rw [kept] at within
  exact absurd within (by decide +kernel)

end Sys2Proof.Machine.Scheduling
end

section
/-! PROOFS. JOB, and a job's start and completion (R280-R294). -/
-- One proof after another: in parallel, those of the whole text need more memory than one process may take.
set_option Elab.async false

namespace Sys2Proof.Machine.Scheduling
open Sys2Proof.Machine.NumberFormats

/-! ## Submission -/

theorem submitJob_jobs (s : State) (n clock : Nat) (j : Job) : (submitJob s n clock j).2.jobs = s.jobs ++ [(submitJob s n clock j).1] := by
  have kept : (releaseAgent s n).jobs = s.jobs := by rw [(releaseAgent_performs s n).frame]
  exact congrArg (· ++ [_]) kept

theorem later_jobs (k : Iss) (s : State) (g : Ctl) (r : Result) : (k.later s g r).jobs = s.jobs := by
  obtain ⟨_, _, _, eq⟩ := MemoryInstructions.later_eq k s g r
  rw [eq]
  rfl

theorem addDue_jobs (s : State) (n p : Nat) (ts : List FaultRec) : (addDue s n p ts).jobs = s.jobs := by
  unfold addDue
  split <;> rfl

theorem now_jobs (k : Iss) (s : State) (r : Result) : (k.now s r).jobs = s.jobs := addDue_jobs ..

theorem jobResult_jobs (k : Iss) (s : State) (g : Ctl) (d : Nat) (j : Job) : (jobResult k s g d j).jobs = s.jobs := by
  unfold jobResult
  dsimp only
  split
  · exact later_jobs ..
  · exact (later_jobs ..).trans (now_jobs ..)

/-- A job as it is submitted: named, numbered and stamped, and with what its submitter's reckoned reads need; its own fields as they were. -/
def SubmittedAs (i j : Job) : Prop :=
  i = { j with id := i.id, seq := i.seq, clock := i.clock, fill := i.fill, depth := i.depth, prio := i.prio, deadline := i.deadline }

section
variable (k : Iss) (s : State) (g : Ctl) (d : Nat) (j : Job) (energy : Nat) (room : Bool) (after : Job → State → State)

theorem submitOne_held (none_ : ¬(room = true ∧ s.locksFree j.cluster j.locks = true)) : submitOne k s g d j energy room after = (s, .hold) := by
  refine if_pos ?_
  cases room
  · rfl
  · simpa using none_

theorem submitOne_submits (free : room = true) (locks : s.locksFree j.cluster j.locks = true) (kept : ∀ i t, (after i t).jobs = t.jobs) :
    ∃ t i, submitOne k s g d j energy room after = (t, .done) ∧ t.jobs = s.jobs ++ [i] ∧ SubmittedAs i j :=
  ⟨_, _, if_neg (by simp [free, locks]), ((jobResult_jobs ..).trans (kept ..)).trans (submitJob_jobs ..), rfl⟩

end

/-! ## JOB's card -/

/-- The matrix word of a card. -/
def cardWord (bs : List Byte) : Option Instr := if leField bs 0 1 == 3 then matrixWord (BitVec.ofNat 96 (leField bs 16 12)) else none

theorem cardWord_eq (bs : List Byte) : cardWord bs = if leField bs 0 1 = 3 then matrixWord (BitVec.ofNat 96 (leField bs 16 12)) else none := by
  unfold cardWord
  simp only [beq_iff_eq]

/-- The card of the job that a lane's bytes describe. -/
def cardRead (x : Eng) (k : Iss) (u : State) (bs : List Byte) : Card := cardOf u (u.ctxOf k.gang) bs (k.src.get64 x.b.toNat ((lanesOf k.lanes).headD 0)).toNat

/-- A codebook expansion. -/
def CardBook (bs : List Byte) : Prop := leField bs 0 1 = 1 ∧ leField bs 2 1 % 4 = 3

/-- A card whose unit is the submitter's to use. -/
structure CardOwned (k : Iss) (u : State) (bs : List Byte) : Prop where
  matrix : leField bs 0 1 = 3 → cardWord bs ≠ none ∧ leField bs 1 1 < ((u.gang? k.gang).map (·.size)).getD 1 ∧ k.pilot = true
  book : CardBook bs → (u.book (u.clusterOf k.gang) (leField bs 1 1)).owner = ownerKey u k

/-- A card in order: its fields, its derived extents inside its regions, and its regions apart. -/
def CardFits (x : Eng) (k : Iss) (u : State) (bs : List Byte) : Prop :=
  (cardRead x k u bs).ok = true ∧ ((cardRead x k u bs).exts ++ stampExt (leField bs 8 8)).all (inCard (cardRegions bs)) = true ∧ selfOverlap (cardRegions bs) = false

/-- What a card's pages answer. -/
def cardPages (x : Eng) (k : Iss) (u : State) (bs : List Byte) : PageCheck :=
  submitPages u (u.ctxOf k.gang) k.sup (((cardRegions bs).map fun q => { va := q.va, len := q.len, write := q.write : Ext }) ++ (cardRead x k u bs).exts) (cardRead x k u bs).mis (leField bs 8 8) []

/-- The job of a card. -/
def cardJob (x : Eng) (k : Iss) (u : State) (bs : List Byte) (locks : List Xlate) : Job :=
  let card := cardRead x k u bs
  { k.job u card.kind card.chan with
    xform := card.xf.xf, ty := card.xf.ty, tag := card.xf.tag, auto := card.xf.auto, slices := [card.slice], word := cardWord bs, rnd := k.src.rnd.toNat % 4,
    regions := cardRegions bs, locks := locks, stamp := leField bs 8 8, role := if leField bs 0 1 == 3 then leField bs 1 1 else k.role }

/-- The permits of a matrix engine that a pilot program has reserved. -/
def heldPermits (k : Iss) (u : State) (unit : Nat) : Nat := (((u.blockOf? k.gang unit).bind fun bl => bl.rsv.find? fun e => e.1 == k.agent).map (·.2)).getD 0

/-- A reserved permit, where there is one, goes to the job. -/
def takePermit (k : Iss) (u : State) (unit : Nat) (s : State) : State :=
  if heldPermits k u unit == 0 then s
  else s.updBlock k.gang unit fun bl => { bl with rsv := (bl.rsv.map fun r => if r.1 == k.agent then (r.1, r.2 - 1) else r).filter fun r => r.2 != 0 }

theorem takePermit_jobs (k : Iss) (u : State) (unit : Nat) (s : State) : (takePermit k u unit s).jobs = s.jobs := by
  unfold takePermit
  split <;> rfl

/-- What a card's job charges (R409). -/
def cardEnergy (bs : List Byte) : Nat := copyEnergy ((cardRegions bs).foldl (fun n r => n + r.len) 0)

/-- Whether a card's job finds its entry or its permit. -/
def cardRoom (k : Iss) (u : State) (bs : List Byte) : Prop :=
  if leField bs 0 1 = 3 then heldPermits k u (leField bs 1 1) ≠ 0 ∨ u.permitsFree k.gang (leField bs 1 1) ≠ 0 else u.sharedFree (u.clusterOf k.gang) = true

section
variable {x : Eng} {k : Iss} {u : State} {bs : List Byte}

theorem submitCard_noWord (matrix : leField bs 0 1 = 3) (none_ : cardWord bs = none) : submitCard x k u bs = (u, .fault 0x01 k.lanes 0) := by
  refine if_pos ?_
  unfold cardWord at none_
  rw [if_pos (by simpa using matrix)] at none_
  simp [matrix, none_]

theorem submitCard_unowned (unit : (leField bs 0 1 = 3 ∧ cardWord bs ≠ none ∧ (((u.gang? k.gang).map (·.size)).getD 1 ≤ leField bs 1 1 ∨ ¬k.pilot = true))
    ∨ (CardBook bs ∧ (u.book (u.clusterOf k.gang) (leField bs 1 1)).owner ≠ ownerKey u k)) : submitCard x k u bs = (u, .fault 0x04 k.lanes 0) := by
  obtain ⟨matrix, word, foreign⟩ | ⟨⟨copy, book⟩, owner⟩ := unit
  · refine (if_neg ?_).trans (if_pos ?_)
    · unfold cardWord at word
      rw [if_pos (by simpa using matrix)] at word
      simpa [matrix] using word
    · simpa [matrix] using foreign
  · refine (if_neg ?_).trans (if_pos ?_)
    · simp [copy]
    · simp [copy, book, owner]

variable (owned : CardOwned k u bs)
include owned

/-- The unit of a card being the submitter's, its fields and its pages decide. -/
theorem submitCard_owned [Decidable (CardFits x k u bs)] : submitCard x k u bs =
    afterCheck u k (if CardFits x k u bs then cardPages x k u bs else .fault 0x20 0) fun locks =>
      if leField bs 0 1 == 3 then
        submitOne k u x.ctl x.d.toNat (cardJob x k u bs locks) (cardEnergy bs)
          (heldPermits k u (leField bs 1 1) != 0 || u.permitsFree k.gang (leField bs 1 1) != 0) fun _ s => takePermit k u (leField bs 1 1) s
      else submitOne k u x.ctl x.d.toNat (cardJob x k u bs locks) (cardEnergy bs) (u.sharedFree (u.clusterOf k.gang)) fun _ s => s := by
  have matrix := owned.matrix
  have book := owned.book
  refine (if_neg fun noWord => ?_).trans ((if_neg fun foreign => ?_).trans ?_)
  · obtain ⟨three, none_⟩ : leField bs 0 1 = 3 ∧ cardWord bs = none := by simpa [cardWord] using noWord
    exact (matrix three).1 none_
  · simp only [Bool.or_eq_true, Bool.and_eq_true, beq_iff_eq, decide_eq_true_eq, Bool.not_eq_true', bne_iff_ne] at foreign
    obtain ⟨three, none_⟩ | ⟨copy, owner⟩ := foreign
    · obtain ⟨-, size, pilot⟩ := matrix three
      exact none_.elim (Nat.not_le.mpr size) (by simp [pilot])
    · exact owner (book copy)
  · refine congrArg (fun check => afterCheck u k check _) ?_
    have fits_iff : ((cardRead x k u bs).ok && ((cardRead x k u bs).exts ++ stampExt (leField bs 8 8)).all (inCard (cardRegions bs)) && !selfOverlap (cardRegions bs)) = true ↔ CardFits x k u bs := by
      unfold CardFits
      rw [Bool.and_eq_true, Bool.and_eq_true, Bool.not_eq_true', and_assoc]
    by_cases fits : CardFits x k u bs
    · rw [if_pos fits]
      exact if_neg (fun bad => absurd (fits_iff.mpr fits) (by rwa [Bool.not_eq_true', ← Bool.not_eq_true] at bad))
    · rw [if_neg fits]
      exact if_pos (by rw [Bool.not_eq_true', ← Bool.not_eq_true]; exact fun h => fits (fits_iff.mp h))

theorem submitCard_unfit (not_ : ¬CardFits x k u bs) : submitCard x k u bs = (u, .fault 0x20 k.lanes 0) := by
  classical
  rw [submitCard_owned owned, if_neg not_]
  rfl

variable (fits : CardFits x k u bs)
include fits

theorem submitCard_pageFault {code info : Nat} (pages : cardPages x k u bs = .fault code info) : submitCard x k u bs = (u, .fault code k.lanes (BitVec.ofNat 64 info)) := by
  classical
  rw [submitCard_owned owned, if_pos fits, pages]
  rfl

theorem submitCard_pageMiss {ms : List Miss} (pages : cardPages x k u bs = .miss ms) : submitCard x k u bs = parkAll u k ms [] := by
  classical
  rw [submitCard_owned owned, if_pos fits, pages]
  rfl

variable {locks : List Xlate} (pages : cardPages x k u bs = .ok locks)
include pages

theorem submitCard_held (none_ : ¬(cardRoom k u bs ∧ u.locksFree (u.clusterOf k.gang) locks = true)) : submitCard x k u bs = (u, .hold) := by
  classical
  rw [submitCard_owned owned, if_pos fits, pages]
  unfold cardRoom at none_
  by_cases matrix : leField bs 0 1 = 3
  · rw [if_pos matrix] at none_
    refine (if_pos (by simpa using matrix)).trans (submitOne_held _ _ _ _ _ _ _ _ fun free => none_ ⟨?_, free.2⟩)
    simpa using free.1
  · rw [if_neg matrix] at none_
    exact (if_neg (by simpa using matrix)).trans (submitOne_held _ _ _ _ _ _ _ _ none_)

theorem submitCard_submits (room : cardRoom k u bs) (free : u.locksFree (u.clusterOf k.gang) locks = true) :
    ∃ t i, submitCard x k u bs = (t, .done) ∧ t.jobs = u.jobs ++ [i] ∧ SubmittedAs i (cardJob x k u bs locks) := by
  classical
  rw [submitCard_owned owned, if_pos fits, pages]
  unfold cardRoom at room
  by_cases matrix : leField bs 0 1 = 3
  · rw [if_pos matrix] at room
    obtain ⟨t, i, eq, submitted⟩ := submitOne_submits k u x.ctl x.d.toNat (cardJob x k u bs locks) (cardEnergy bs)
      (heldPermits k u (leField bs 1 1) != 0 || u.permitsFree k.gang (leField bs 1 1) != 0) (fun _ s => takePermit k u (leField bs 1 1) s) (by simpa using room) free fun _ t => takePermit_jobs ..
    exact ⟨t, i, (if_pos (by simpa using matrix)).trans eq, submitted⟩
  · rw [if_neg matrix] at room
    obtain ⟨t, i, eq, submitted⟩ := submitOne_submits k u x.ctl x.d.toNat (cardJob x k u bs locks) (cardEnergy bs)
      (u.sharedFree (u.clusterOf k.gang)) (fun _ s => s) room free fun _ _ => rfl
    exact ⟨t, i, (if_neg (by simpa using matrix)).trans eq, submitted⟩
end

/-! ## JOB -/

/-- An instruction whose every lane is blocked parks with all of them. -/
theorem parkOrDone_all (s : State) (k : Iss) (lanes : k.lanes ≠ 0) {b : Blocked} (all : ∀ l, l ∈ b.miss.map (·.1) ++ b.wait.map (·.1) ↔ l ∈ lanesOf k.lanes) :
    ∃ t why, parkOrDone s k b = (t, .park k.lanes why) := by
  have mask : b.lanes = k.lanes := BitVec.eq_of_getLsbD_eq fun l hl => by
    rw [Bool.eq_iff_iff]
    exact (Sys2Proof.Machine.ControlFlow.getLsbD_maskOf hl _).trans ((all l).trans (mem_lanesOf.trans (and_iff_right hl)))
  have some_ : b.miss ≠ [] ∨ b.wait ≠ [] := by
    by_contra none_
    obtain ⟨miss, wait⟩ := not_or.mp none_
    rw [not_not] at miss wait
    refine lanes (mask.symm.trans ?_)
    unfold Blocked.lanes
    rw [miss, wait]
    rfl
  obtain ⟨t, why, parked⟩ := Sys2Proof.Machine.UnitQueries.parkOrDone_of_blocked s k some_
  exact ⟨t, why, mask ▸ parked⟩

theorem parkAll_miss (s : State) (k : Iss) {ms : List Miss} (some_ : ms ≠ []) (lanes : k.lanes ≠ 0) : ∃ t why, parkAll s k ms [] = (t, .park k.lanes why) := by
  obtain ⟨m, ms, rfl⟩ := List.exists_cons_of_ne_nil some_
  exact parkOrDone_all s k lanes fun l => by simp

theorem parkAll_wait (s : State) (k : Iss) (res : Bool) (lanes : k.lanes ≠ 0) : ∃ t why, parkAll s k [] [res] = (t, .park k.lanes why) :=
  parkOrDone_all s k lanes fun l => by simp

/-- What JOB needs to issue. -/
def jobNeed (x : Eng) : Need := { regs := [(x.d.toNat, 2), (x.a.toNat, 2), (x.b.toNat, 2)], base := 0 }

/-- JOB's answer to a poisoned card: all ones. -/
def jobRefused (x : Eng) (k : Iss) (a code : Nat) (s : State) : State :=
  k.now s { writes := pairWrites x.d.toNat (2 ^ 64 - 1) (lanesOf k.lanes), mem := 1, traps := [(code, k.lanes, BitVec.ofNat 64 a)] }

/-- The card's line there: it is one plain load. -/
def readCard (k : Iss) (c : Ctx) (sp : Sp) (pa a : Nat) (leaf : Leaf) (s : State) : Loaded × State :=
  loadPlain (touch (if leaf.rk then raiseClock s k.agent c.asn (a / 128) else s) c a) k.agent sp pa 128

/-- JOB's own effect once its card's line has been asked for. -/
def jobEffect (x : Eng) (k : Iss) (c : Ctx) (sp : Sp) (pa a : Nat) (leaf : Leaf) : Rk × State → State × Fate
  | (.wait res, s) => parkAll s k [] [res]
  | (.poison code, s) => (jobRefused x k a code (poisonedLoad (forgetAborts s k.agent k.path c.asn [a / 128]) k.agent), .done)
  | (.present, s) =>
    if (readCard k c sp pa a leaf s).1.poison then (jobRefused x k a 0x12 (readCard k c sp pa a leaf s).2, .done)
    else match submitCard x k (readCard k c sp pa a leaf s).2 (readCard k c sp pa a leaf s).1.bytes with
      | (_, .hold) => (if leaf.rk then raiseClock s k.agent c.asn (a / 128) else s, .hold)
      | r => r

section
variable {x : Eng} {s : State} {k : Iss} (hi : Issues s x.ctl (jobNeed x) k) {b : State} (hb : issued s k (jobNeed x) = b)
include hi hb

theorem job_no_lanes (none_ : k.lanes = 0) : Completes (.job x) s k b := by
  refine endsWith_of (execJob x s) rfl rfl hi ?_
  rw [show issued s k { regs := [(x.d.toNat, 2), (x.a.toNat, 2), (x.b.toNat, 2)], base := 0 } = b from hb]
  exact if_pos (by simp [none_])

variable (some_ : k.lanes ≠ 0) {a : Nat} (ha : (k.src.get64 x.a.toNat ((lanesOf k.lanes).headD 0)).toNat = a)
include some_ ha

theorem job_misaligned (off : a % 128 ≠ 0) : EndsWith (.job x) s k b (.fault 0x03 k.lanes (BitVec.ofNat 64 a)) := by
  refine endsWith_of (execJob x s) rfl rfl hi ?_
  rw [show issued s k { regs := [(x.d.toNat, 2), (x.a.toNat, 2), (x.b.toNat, 2)], base := 0 } = b from hb]
  dsimp only
  refine (if_neg (by simpa using some_)).trans ?_
  rw [ha]
  exact if_pos (by simpa using off)

variable (aligned : a % 128 = 0)
include aligned

theorem job_unreadable (perm : tr b (b.ctxOf k.gang) k.sup .read a = .perm) : EndsWith (.job x) s k b (.fault 0x11 k.lanes (BitVec.ofNat 64 a)) := by
  refine endsWith_of (execJob x s) rfl rfl hi ?_
  rw [show issued s k { regs := [(x.d.toNat, 2), (x.a.toNat, 2), (x.b.toNat, 2)], base := 0 } = b from hb]
  dsimp only
  refine (if_neg (by simpa using some_)).trans ?_
  rw [ha, if_neg (by simp [aligned]), perm]

theorem job_absent {m : Miss} (miss : tr b (b.ctxOf k.gang) k.sup .read a = .miss m) : ∃ t why, EndsWith (.job x) s k t (.park k.lanes why) := by
  obtain ⟨t, why, parked⟩ := parkAll_miss b k (ms := [m]) nofun some_
  refine ⟨t, why, endsWith_of (execJob x s) rfl rfl hi ?_⟩
  rw [show issued s k { regs := [(x.d.toNat, 2), (x.a.toNat, 2), (x.b.toNat, 2)], base := 0 } = b from hb]
  dsimp only
  refine (if_neg (by simpa using some_)).trans ?_
  rw [ha, if_neg (by simp [aligned]), miss]
  exact parked

variable {sp : Sp} {pa : Nat} {leaf : Leaf} (found : tr b (b.ctxOf k.gang) k.sup .read a = .ok sp pa leaf) {r : Rk × State}
  (lines : (if leaf.rk then rkLines b k.agent k.path (b.ctxOf k.gang) (leaf.pfn % 4096) [a / 128] else (Rk.present, b)) = r)
include found lines

theorem job_effect {t : State} {f : Fate} (effect : jobEffect x k (b.ctxOf k.gang) sp pa a leaf r = (t, f)) (goes : f ≠ .hold) : EndsWith (.job x) s k t f := by
  refine endsWith_of (execJob x s) rfl rfl hi ?_ goes
  rw [show issued s k { regs := [(x.d.toNat, 2), (x.a.toNat, 2), (x.b.toNat, 2)], base := 0 } = b from hb]
  dsimp only
  refine (if_neg (by simpa using some_)).trans ?_
  rw [ha, if_neg (by simp [aligned]), found]
  dsimp only
  rw [lines]
  obtain ⟨rk, v⟩ := r
  cases rk <;> exact effect

theorem job_unissued {t : State} (effect : jobEffect x k (b.ctxOf k.gang) sp pa a leaf r = (t, .hold)) : exec (.job x) s = .next { unissue s k with cur := none } := by
  refine unissued_of (execJob x s) rfl rfl hi (t := t) ?_
  rw [show issued s k { regs := [(x.d.toNat, 2), (x.a.toNat, 2), (x.b.toNat, 2)], base := 0 } = b from hb]
  dsimp only
  refine (if_neg (by simpa using some_)).trans ?_
  rw [ha, if_neg (by simp [aligned]), found]
  dsimp only
  rw [lines]
  obtain ⟨rk, v⟩ := r
  cases rk <;> exact effect

end

/-! ## What JOB does with its card -/

theorem mget_mset_const {v : Word} {key : Nat} (ws : List (Nat × Word)) (all : ∀ w ∈ ws, w.2 = v) (m : List (Nat × Word)) (there : key ∈ ws.map (·.1) ∨ mget 0 m key = v) :
    mget 0 (ws.foldl (fun m w => mset 0 m w.1 w.2) m) key = v := by
  induction ws generalizing m with
  | nil => simpa using there
  | cons w ws ih =>
    refine ih (fun u hu => all u (List.mem_cons_of_mem w hu)) _ ?_
    rw [mget_mset]
    rw [List.map_cons, List.mem_cons] at there
    have first : w.2 = v := all w List.mem_cons_self
    by_cases same : key = w.1
    · exact .inr (by rw [if_pos same, first])
    · rw [if_neg same]
      exact there.imp_left (Or.resolve_left · same)

/-- JOB refused: no job, and all ones in D. -/
structure Refused (x : Eng) (s : State) (k : Iss) (jobs : List Job) (t : State) : Prop where
  completes : Completes (.job x) s k t
  jobs : t.jobs = jobs
  ones : ∀ l < 32, (k.sets x.d.toNat l → t.vreg k.agent x.d.toNat l = 0xFFFFFFFF) ∧ (k.sets (x.d.toNat + 1) l → t.vreg k.agent (x.d.toNat + 1) l = 0xFFFFFFFF)

theorem Refused.gives {x : Eng} {s : State} {k : Iss} {jobs : List Job} {t : State} (h : Refused x s k jobs t) : ∃ t, Completes (.job x) s k t ∧ t.jobs = jobs
    ∧ ∀ l < 32, (k.sets x.d.toNat l → t.vreg k.agent x.d.toNat l = 0xFFFFFFFF) ∧ (k.sets (x.d.toNat + 1) l → t.vreg k.agent (x.d.toNat + 1) l = 0xFFFFFFFF) := ⟨t, h.completes, h.jobs, h.ones⟩

theorem poisonedLoad_regs (s : State) (n m : Nat) : (poisonedLoad s n).regsOf m = s.regsOf m := regsOf_updAgent s n m _ (fun _ => ⟨rfl, rfl⟩) fun _ => rfl

theorem jobRefused_ones (x : Eng) (k : Iss) (a code : Nat) {s : State} (there : (s.regsOf k.agent).isSome) {reg l : Nat} (hl : l < 32) (dest : reg = x.d.toNat ∨ reg = x.d.toNat + 1)
    (sets : k.sets reg l) : (jobRefused x k a code s).vreg k.agent reg l = 0xFFFFFFFF := by
  obtain ⟨r, hr⟩ := Option.isSome_iff_exists.mp there
  obtain ⟨lane, free⟩ := sets
  unfold State.vreg jobRefused Iss.now
  rw [regsOf_addDue, regsOf_mapRegs_same, hr]
  refine (congrArg (fun q : Regs => q.get reg l) (setKeys_eq _ r)).trans (mget_mset_const _ (fun w hw => ?_) _ (.inl ?_))
  · have mem := List.mem_of_mem_filter hw
    unfold pairWrites at mem
    rw [List.mem_append, List.mem_map, List.mem_map] at mem
    obtain ⟨_, _, rfl⟩ | ⟨_, _, rfl⟩ := mem <;> rfl
  · have mem : l ∈ lanesOf k.lanes := mem_lanesOf.mpr ⟨hl, lane⟩
    refine List.mem_map.mpr ⟨(32 * reg + l, 0xFFFFFFFF), List.mem_filter.mpr ⟨?_, by simpa using free⟩, rfl⟩
    unfold pairWrites
    rw [List.mem_append, List.mem_map, List.mem_map]
    obtain rfl | rfl := dest
    · exact .inl ⟨l, mem, rfl⟩
    · exact .inr ⟨l, mem, rfl⟩

theorem jobRefused_refused {x : Eng} {s u : State} {k : Iss} {a code : Nat} (completes : Completes (.job x) s k (jobRefused x k a code u)) (there : (u.regsOf k.agent).isSome) :
    Refused x s k u.jobs (jobRefused x k a code u) :=
  ⟨completes, now_jobs .., fun _ hl => ⟨jobRefused_ones x k a code there hl (.inl rfl), jobRefused_ones x k a code there hl (.inr rfl)⟩⟩

theorem there_of_lines {s : State} {k : Iss} {c : Ctx} {idx : Nat} {leaf : Leaf} {ls : List Nat} {r : Rk × State} (there : (s.regsOf k.agent).isSome)
    (lines : (if leaf.rk then rkLines s k.agent k.path c idx ls else (Rk.present, s)) = r) : (r.2.regsOf k.agent).isSome := by
  subst lines
  split
  · rwa [(rkLines_reckons ..).agents.regs]
  · exact there

theorem there_of_card {s : State} (k : Iss) (c : Ctx) (sp : Sp) (pa a : Nat) (leaf : Leaf) (there : (s.regsOf k.agent).isSome) : ((readCard k c sp pa a leaf s).2.regsOf k.agent).isSome := by
  have raised : (if leaf.rk then raiseClock s k.agent c.asn (a / 128) else s).regsOf k.agent = s.regsOf k.agent := by
    split
    · exact regsOf_updAgent _ _ _ _ (fun _ => ⟨rfl, rfl⟩) fun _ => rfl
    · rfl
  unfold readCard
  rwa [(loadPlain_accesses ..).agents.regs, (touch_accesses ..).agents.regs, raised]

section
variable {x : Eng} {k : Iss} {c : Ctx} {sp : Sp} {pa a : Nat} {leaf : Leaf} {v u : State} {r : Loaded} (read : readCard k c sp pa a leaf v = (r, u))
include read

theorem jobEffect_poisoned (poison : r.poison = true) : jobEffect x k c sp pa a leaf (.present, v) = (jobRefused x k a 0x12 u, .done) := by
  unfold jobEffect
  dsimp only
  rw [read]
  exact if_pos poison

variable (clean : r.poison = false)
include clean

theorem jobEffect_ends {t : State} {f : Fate} (submit : submitCard x k u r.bytes = (t, f)) (goes : f ≠ .hold) : jobEffect x k c sp pa a leaf (.present, v) = (t, f) := by
  unfold jobEffect
  dsimp only
  rw [read]
  refine (if_neg (by simp [clean])).trans ?_
  dsimp only
  rw [submit]
  cases f
  case hold => exact absurd rfl goes
  all_goals rfl

theorem jobEffect_held (submit : submitCard x k u r.bytes = (u, .hold)) : ∃ t, jobEffect x k c sp pa a leaf (.present, v) = (t, .hold) := by
  unfold jobEffect
  dsimp only
  rw [read]
  refine ⟨if leaf.rk then raiseClock v k.agent c.asn (a / 128) else v, (if_neg (by simp [clean])).trans ?_⟩
  dsimp only
  rw [submit]

end

theorem jobNeed_there {x : Eng} {s : State} {k : Iss} (hi : Issues s x.ctl (jobNeed x) k) : ((issued s k (jobNeed x)).regsOf k.agent).isSome := by
  obtain ⟨_, issues, -⟩ := hi
  rw [regsOf_issued]
  unfold State.regsOf
  rw [issOf_agent issues]
  rfl

/-! ## Start and completion -/

theorem job?_updJob {s : State} {id : Nat} {j : Job} (here : s.job? id = some j) {f : Job → Job} (name : ∀ i, (f i).id = i.id) : (s.updJob id f).job? id = some (f j) := by
  have found : (s.updJob id f).job? id = (s.job? id).map fun i => if i.id == id then f i else i := find_map_of _ _ (fun i => by split <;> simp [name]) s.jobs
  rw [found, here, Option.map_some]
  exact congrArg some (if_pos (List.find?_some (p := fun i : Job => i.id == id) here))

section
variable {s : State} {j : Job} (here : s.job? j.id = some j)
include here

theorem startJob_held (held : edgeOn s j = true ∨ turnOf s j = false) (fresh : j.started = false) : startJob s j.id = s := by
  unfold startJob
  rw [here]
  refine if_pos ?_
  simp only [Bool.or_eq_true, Bool.and_eq_true, Bool.not_eq_true']
  exact .inr ⟨fresh, held⟩

variable (waiting : j.ran = false) (lines : jobWaits s j.id = false) (edges : edgeOn s j = false) (turn : turnOf s j = true)
include waiting lines edges turn

theorem startJob_runs (copies : j.kind ≠ 3) : startJob s j.id = runJob (s.updJob j.id fun j => { j with started := true }) j := by
  unfold startJob
  rw [here]
  refine (if_neg ?_).trans (if_neg ?_)
  · simp [waiting, lines, edges, turn, copies]
  · simpa using copies

variable (matrix : j.kind = 3) (placed : onCluster s j.gang = true) (unsent : j.op = none)
include matrix placed unsent

theorem startJob_dispatches : startJob s j.id = dispatchMatrix (s.updJob j.id fun j => { j with started := true }) j := by
  unfold startJob
  rw [here]
  refine (if_neg ?_).trans ((if_pos ?_).trans ?_)
  · simp [waiting, lines, edges, turn, placed]
  · simpa using matrix
  · rw [unsent]

variable {b : Block} {i : Instr} (word : j.word = some i) (block : s.blockOf? j.gang j.role = some b)
include word block

theorem startJob_refused (bad : engCheck b i = false) :
    startJob s j.id = (s.updJob j.id fun j => { j with started := true }).updJob j.id fun j => { j with ran := true, status := 0x01 } := by
  rw [startJob_dispatches here waiting lines edges turn matrix placed unsent]
  unfold dispatchMatrix
  rw [word, show (s.updJob j.id fun j => { j with started := true }).blockOf? j.gang j.role = some b from block]
  exact if_pos (by simp [bad])

theorem startJob_accepted (good : engCheck b i = true) : ∃ u op, startJob s j.id = engAccept u j.gang j.role op ∧ op.instr = i ∧ op.job = some j.id
    ∧ op.agent = j.agents.headD 0x20000 ∧ ∃ h, u.job? j.id = some h ∧ h.op = some op.id ∧ h.started = true := by
  rw [startJob_dispatches here waiting lines edges turn matrix placed unsent]
  unfold dispatchMatrix
  rw [word, show (s.updJob j.id fun j => { j with started := true }).blockOf? j.gang j.role = some b from block]
  have started := job?_updJob here (f := fun j => { j with started := true }) fun _ => rfl
  have sent := job?_updJob started (f := fun j => { j with op := some s.nextId }) fun _ => rfl
  exact ⟨_, _, if_neg (by simp [good]), rfl, rfl, rfl, _, sent, rfl, rfl⟩

end

theorem engineWrite_accesses (s : State) (ps : List (Sp × Nat × List Byte)) (atLeast : Nat) (rel : Bool) : Accesses s (engineWrite s ps atLeast rel).2 := by
  refine (foldl_accesses (fun s p => ?_) ps s).trans accesses_of
  exact ((writeRaw_performs s p.1 p.2.1 p.2.2).trans (setStamps_performs ..)).accesses.trans accesses_of

/-- An agent that takes a job's faults into its MEMSTAT. -/
def takeFaults (m : Word) (x : Agent) : Agent := { x with regs := { x.regs with mem := x.regs.mem ||| m } }

theorem agents_takeFaults (m : Word) (ns : List Nat) {s : State} {n : Nat} {x : Agent} (hx : s.agent? n = some x) :
    ∃ y, (ns.foldl (fun s n => s.updAgent n (takeFaults m)) s).agent? n = some y
      ∧ (n ∈ ns → y.regs.mem = x.regs.mem ||| m) ∧ (y.regs.mem = x.regs.mem ∨ y.regs.mem = x.regs.mem ||| m) := by
  induction ns generalizing s x with
  | nil => exact ⟨x, hx, nofun, .inl rfl⟩
  | cons a ns ih =>
    by_cases same : n = a
    · subst same
      obtain ⟨y, hy, -, mem⟩ := ih (s := s.updAgent n (takeFaults m)) (x := takeFaults m x) (by rw [agent?_updAgent_same s n (takeFaults m) fun _ => ⟨rfl, rfl⟩, hx]; rfl)
      have raised : y.regs.mem = x.regs.mem ||| m := mem.elim id fun twice => twice.trans ((BitVec.or_assoc ..).trans (congrArg _ BitVec.or_self))
      exact ⟨y, hy, fun _ => raised, .inr raised⟩
    · obtain ⟨y, hy, inner, mem⟩ := ih (s := s.updAgent a (takeFaults m)) (x := x) (by rw [agent?_updAgent_ne s (takeFaults m) same fun _ => ⟨rfl, rfl⟩, hx])
      exact ⟨y, hy, fun h => inner ((List.mem_cons.mp h).resolve_left same), mem⟩

/-- The state in which a job has left the scheduler (R280-R282): its memory, with its pointer and its agents' MEMSTAT. -/
def jobGone (s : State) (j : Job) (ts : Nat) : State :=
  let s := s.updCtx j.ctx fun c => { c with wptr := mset 0 c.wptr (16 * j.cluster + j.chan) j.seq }
  let s := { s with jobs := s.jobs.filter fun k => k.id != j.id, chanTs := mset 0 s.chanTs (16 * j.cluster + j.chan) ts }
  let s := j.agents.foldl (fun s n => s.updAgent n (takeFaults (BitVec.ofNat 32 (j.flags % 8)))) s
  match j.op with | some op => engComplete s j.gang j.role op | none => s

theorem engComplete_eq (s : State) (g : GangKey) (role id : Nat) : ∃ blocks, engComplete s g role id = { s with blocks := blocks } := by
  unfold engComplete
  split <;> exact ⟨_, rfl⟩

/-- What a job that has left the scheduler left behind. -/
theorem jobGone_leaves {s t : State} (written : Accesses s t) (j : Job) (ts : Nat) : (jobGone t j ts).jobs = s.jobs.filter (fun k => k.id != j.id)
    ∧ (∀ c, s.ctx? j.ctx = some c → ∃ d, (jobGone t j ts).ctx? j.ctx = some d ∧ mget 0 d.wptr (16 * j.cluster + j.chan) = j.seq)
    ∧ ∀ n x, n ∈ j.agents → s.agent? n = some x → ∃ y, (jobGone t j ts).agent? n = some y ∧ y.regs.mem = x.regs.mem ||| BitVec.ofNat 32 (j.flags % 8) := by
  have jobs : t.jobs = s.jobs := by rw [written.frame]
  have ctxs : t.ctxs = s.ctxs := by rw [written.frame]
  let pointed : State := t.updCtx j.ctx fun c => { c with wptr := mset 0 c.wptr (16 * j.cluster + j.chan) j.seq }
  let gone : State := { pointed with jobs := pointed.jobs.filter fun k => k.id != j.id, chanTs := mset 0 pointed.chanTs (16 * j.cluster + j.chan) ts }
  let raised : State := j.agents.foldl (fun s n => s.updAgent n (takeFaults (BitVec.ofNat 32 (j.flags % 8)))) gone
  have agents : ∃ as, raised = { gone with agents := as } :=
    List.foldlRecOn (motive := fun u => ∃ as, u = { gone with agents := as }) j.agents _ ⟨_, rfl⟩ fun _ ⟨_, eq⟩ n _ => ⟨_, by rw [eq]; rfl⟩
  have blocks : ∃ bs, jobGone t j ts = { raised with blocks := bs } := by
    unfold jobGone
    dsimp only
    cases j.op with
    | none => exact ⟨_, rfl⟩
    | some op => exact engComplete_eq ..
  obtain ⟨_, agents⟩ := agents
  obtain ⟨_, blocks⟩ := blocks
  refine ⟨?_, fun c hc => ?_, fun n x mem hx => ?_⟩
  · rw [blocks, agents, ← jobs]
    rfl
  · have found : t.ctx? j.ctx = some c := by
      unfold State.ctx?
      rw [ctxs]
      exact hc
    refine ⟨{ c with wptr := mset 0 c.wptr (16 * j.cluster + j.chan) j.seq }, ?_, by simp⟩
    rw [blocks, agents]
    exact HostInterface.ctx?_updCtx found fun _ => rfl
  · obtain ⟨z, hz, kept⟩ := written.agents.found hx
    obtain ⟨y, hy, taken, -⟩ := agents_takeFaults (BitVec.ofNat 32 (j.flags % 8)) j.agents (s := gone) hz
    refine ⟨y, ?_, ?_⟩
    · rw [blocks]
      exact hy
    · rw [taken mem, kept.same]

/-- A job's stamp written, with the timestamp it takes. -/
def stampWritten (s : State) (j : Job) : Nat × State :=
  let low := max (max j.ts j.clock) (mget 0 s.chanTs (16 * j.cluster + j.chan))
  match (if j.stamp == 0 then none else j.storage ((s.ctx? j.ctx).getD { id := j.ctx }) j.stamp) with
  | some (sp, a, _) => engineWrite s [(sp, a, leBytes 8 (j.seq % 2 ^ 48 + j.status * 2 ^ 48 + j.flags % 64 * 2 ^ 56))] (low + 1) true
  | none => (low, s)

/-- A job's write pointer written. -/
def pointerWritten (s : State) (c : Ctx) (j : Job) (ts : Nat) : Nat × State :=
  match devPlace s c (c.chanstat + 8 * (16 * j.cluster + j.chan)) with
  | some (sp, a) => engineWrite s [(sp, a, leBytes 8 j.seq)] (ts + 1) true
  | none => (ts, s)

theorem stampWritten_accesses (s : State) (j : Job) : Accesses s (stampWritten s j).2 := by
  unfold stampWritten
  dsimp only
  split
  · exact engineWrite_accesses ..
  · exact .refl s

theorem pointerWritten_accesses (s : State) (c : Ctx) (j : Job) (ts : Nat) : Accesses s (pointerWritten s c j ts).2 := by
  unfold pointerWritten
  split
  · exact engineWrite_accesses ..
  · exact .refl s

theorem completeJob_waits {s : State} {j : Job} (here : s.job? j.id = some j)
    (waits : j.ran = false ∨ ∃ k ∈ s.jobs.takeWhile (fun k => k.id != j.id), k.cluster = j.cluster ∧ k.chan = j.chan ∧ (j.chan < 8 ∨ k.ctx = j.ctx)) : completeJob s j.id = s := by
  unfold completeJob
  rw [here]
  refine if_pos ?_
  simpa [and_assoc] using waits

theorem completeJob_leaves {s : State} {j : Job} (here : s.job? j.id = some j) (ran : j.ran = true)
    (first : ∀ k ∈ s.jobs.takeWhile (fun k => k.id != j.id), ¬(k.cluster = j.cluster ∧ k.chan = j.chan ∧ (j.chan < 8 ∨ k.ctx = j.ctx))) :
    ∃ t ts, Accesses s t ∧ completeJob s j.id = submitReady (settleTlbis (releaseLocks (dropJobCounters (jobGone t j ts) j.id ts) j.id)) := by
  let c := (s.ctx? j.ctx).getD { id := j.ctx }
  let p := pointerWritten (stampWritten s j).2 c j (stampWritten s j).1
  refine ⟨p.2, p.1, (stampWritten_accesses s j).trans (pointerWritten_accesses ..), ?_⟩
  unfold completeJob
  rw [here]
  refine if_neg ?_
  simpa [ran, and_assoc] using first

/-- Settles O36: JOB by its card's checks in their order; a job's start by its kind; its completion by what has left the scheduler. -/
theorem jobsAreSubmittedRunAndComplete : Obligations.JobsAreSubmittedRunAndComplete := by
  unfold Obligations.JobsAreSubmittedRunAndComplete
  refine ⟨?_, ?_, ?_, ?_, ?_, ?_, ?_⟩
  · intro x s k nd hi b l a c refused
    have there : (b.regsOf k.agent).isSome := jobNeed_there hi
    refine ⟨job_no_lanes hi rfl, fun some_ off => job_misaligned hi rfl some_ rfl off, fun some_ aligned perm => job_unreadable hi rfl some_ rfl aligned perm, fun m some_ aligned => job_absent hi rfl some_ rfl aligned, fun sp pa leaf some_ aligned found => ?_⟩
    intro rk
    have ends {t : State} {f : Fate} {r : Rk × State} (lines : rk = r) (effect : jobEffect x k c sp pa a leaf r = (t, f)) (goes : f ≠ .hold) : EndsWith (.job x) s k t f :=
      job_effect hi rfl some_ rfl aligned found lines effect goes
    have held {t : State} {r : Rk × State} (lines : rk = r) (effect : jobEffect x k c sp pa a leaf r = (t, .hold)) : exec (.job x) s = .next { unissue s k with cur := none } :=
      job_unissued hi rfl some_ rfl aligned found lines effect
    have known : (rk.2.regsOf k.agent).isSome := there_of_lines there rfl
    generalize rk = r at ends held known ⊢
    obtain ⟨rk, v⟩ := r
    dsimp only at known
    refine ⟨fun ⟨res, wait⟩ => ?_, fun ⟨code, poison⟩ => ?_, fun present => ?_⟩
    · obtain rfl : rk = .wait res := wait
      obtain ⟨t, why, parked⟩ := parkAll_wait v k res some_
      exact ⟨t, why, ends rfl parked nofun⟩
    · obtain rfl : rk = .poison code := poison
      exact (jobRefused_refused (ends rfl rfl nofun) (by rwa [poisonedLoad_regs, show (forgetAborts v k.agent k.path c.asn [a / 128]).regsOf k.agent = v.regsOf k.agent from regsOf_updPath ..])).gives
    · obtain rfl : rk = .present := present
      intro v' r u cu cl card rs es kind unit stamp word book room
      have read : readCard k c sp pa a leaf v = (r.1, u) := rfl
      have word_eq : word = cardWord r.1.bytes := (cardWord_eq _).symm
      have cardEnds {t : State} {f : Fate} (clean : r.1.poison = false) (submit : submitCard x k u r.1.bytes = (t, f)) (goes : f ≠ .hold) : EndsWith (.job x) s k t f :=
        ends rfl (jobEffect_ends read clean submit goes) goes
      rw [word_eq]
      refine ⟨fun poison => ?_, fun clean matrix none_ => ?_, fun clean foreign => ?_, fun clean matrix owner => ?_, fun locks clean matrix owner ok derived apart pages => ?_⟩
      · exact (jobRefused_refused (ends rfl (jobEffect_poisoned read poison) nofun) (there_of_card k c sp pa a leaf known)).gives
      · exact cardEnds clean (submitCard_noWord matrix none_) nofun
      · exact cardEnds clean (submitCard_unowned foreign) nofun
      · have owned : CardOwned k u r.1.bytes := ⟨matrix, owner⟩
        refine ⟨fun unfit => cardEnds clean (submitCard_unfit owned unfit) nofun, fun ok derived apart => ⟨fun code info pages => ?_, fun ms pages some_' => ?_⟩⟩
        · exact cardEnds clean (submitCard_pageFault owned ⟨ok, derived, apart⟩ pages) nofun
        · obtain ⟨t, why, parked⟩ := parkAll_miss u k some_' some_
          exact ⟨t, why, cardEnds clean ((submitCard_pageMiss owned ⟨ok, derived, apart⟩ pages).trans parked) nofun⟩
      · have owned : CardOwned k u r.1.bytes := ⟨matrix, owner⟩
        have fits : CardFits x k u r.1.bytes := ⟨ok, derived, apart⟩
        refine ⟨fun none_ => ?_, fun free open_ => ?_⟩
        · obtain ⟨t, held'⟩ := jobEffect_held read clean (submitCard_held owned fits pages none_)
          exact held rfl held'
        · obtain ⟨t, i, submitted, jobs, as⟩ := submitCard_submits owned fits pages free open_
          refine ⟨t, i, cardEnds clean submitted nofun, jobs, ?_⟩
          rw [as]
          exact ⟨rfl, rfl, rfl, rfl, rfl, rfl, rfl, rfl⟩
  · intro s j here waiting lines edges turn copies
    exact congrArg event (startJob_runs here waiting lines edges turn copies)
  · intro s j here heldBack fresh
    exact congrArg event (startJob_held here heldBack fresh)
  · intro s j b i here waiting lines placed edges turn matrix unsent word block bad
    exact congrArg event (startJob_refused here waiting lines edges turn matrix placed unsent word block bad)
  · intro s j b i here waiting lines placed edges turn matrix unsent word block good
    obtain ⟨u, op, started, what⟩ := startJob_accepted here waiting lines edges turn matrix placed unsent word block good
    exact ⟨u, op, congrArg event started, what⟩
  · intro s j here waits
    exact congrArg event (completeJob_waits here waits)
  · intro s j here ran first
    obtain ⟨t, ts, written, completed⟩ := completeJob_leaves here ran first
    obtain ⟨jobs, pointer, faults⟩ := jobGone_leaves written j ts
    refine ⟨jobGone t j ts, ts, congrArg event completed, jobs, pointer, fun n x mem hx => ?_⟩
    obtain ⟨y, hy, taken⟩ := faults n x mem hx
    refine ⟨y, hy, fun i hi => ?_⟩
    have low : (j.flags % 8).testBit i = j.flags.testBit i := (Nat.testBit_mod_two_pow j.flags 3 i).trans (by simp [hi])
    rw [taken, BitVec.getLsbD_or, BitVec.getLsbD_ofNat, BitVec.getLsbD_ofNat, low]

end Sys2Proof.Machine.Scheduling
end

section
/-! PROOFS. FILLC, FILLX, RKINV and RKPIN (R357, R363, R369-R371). -/
-- One proof after another: in parallel, those of the whole text need more memory than one process may take.
set_option Elab.async false

namespace Sys2Proof.Machine.Scheduling
open Sys2Proof.Machine.NumberFormats

theorem later_reckoning (k : Iss) (s : State) (g : Ctl) (r : Result) : (k.later s g r).rkLines = s.rkLines ∧ (k.later s g r).fills = s.fills ∧ (k.later s g r).pins = s.pins := by
  obtain ⟨_, _, _, eq⟩ := MemoryInstructions.later_eq k s g r
  rw [eq]
  exact ⟨rfl, rfl, rfl⟩

/-! ## FILLC -/

theorem commitLine_evicts (s : State) (n asn line : Nat) (bs : List Byte) : Evicts s (commitLine s n asn line bs) :=
  ((sliceRoom_evicts ..).trans (storeParts_accesses ..).evicts).trans evicts_of

theorem commitLine_resident (s : State) (n asn line : Nat) (bs : List Byte) : (commitLine s n asn line bs).resident asn line = true := by
  unfold commitLine State.resident
  dsimp only
  split
  · assumption
  · simp

/-- Where its slice has room, a committed line is one store. -/
theorem commitLine_storedOnly {s : State} (n : Nat) {asn line : Nat} (bs : List Byte) (drained : s.relaxed = []) (room : sliceRoom s asn line = s) :
    StoredOnly s (commitLine s n asn line bs) [(.rk asn, line * 128, bs)] := by
  obtain ⟨⟨u, before, after⟩, -⟩ := MemoryModel.storeHome_writes n (.rk asn) (line * 128) bs drained
  have stored : StoredOnly s (storeHome s n (.rk asn) (line * 128) bs none false true) [(.rk asn, line * 128, bs)] := MemoryModel.storedOnly_of_stampedWrite nofun before after
  have listed (t : State) (lines : List RkLine) (same : StoredOnly s t [(.rk asn, line * 128, bs)]) : StoredOnly s { t with rkLines := lines } [(.rk asn, line * 128, bs)] := same
  unfold commitLine
  rw [room]
  exact listed _ _ stored

theorem fill?_updFill {s : State} {id : Nat} {f : Fill} (here : s.fill? id = some f) {h : Fill → Fill} (name : ∀ x, (h x).id = x.id) : (s.updFill id h).fill? id = some (h f) := by
  have found : (s.updFill id h).fill? id = (s.fill? id).map fun x => if x.id == id then h x else x := find_map_of _ _ (fun x => by split <;> simp [name]) s.fills
  rw [found, here, Option.map_some]
  exact congrArg some (if_pos (List.find?_some (p := fun x : Fill => x.id == id) here))

/-- What FILLC needs to issue. -/
def fillcNeed (x : Mem) : Need := { pilot := false, regs := [(x.a.toNat, 2), (x.b.toNat, 1)], feature := some 0, fill := true, base := 8, lane := 6 }

/-- A line that FILLC has committed. -/
def fillcDone (x : Mem) (k : Iss) (b : State) (f : Fill) (line : Nat) : State :=
  k.later ((commitLine b k.agent f.asn line (fillLine k.src x.b.toNat k.lanes)).updFill f.id fun f => { f with committed := f.committed ++ [line] }) x.ctl { opens := false }

theorem fillcDone_leaves (x : Mem) (k : Iss) {b : State} {f : Fill} (line : Nat) (here : b.fill? f.id = some f) : let t := fillcDone x k b f line
    SameRegs b t ∧ (b.relaxed = [] → sliceRoom b f.asn line = b → StoredOnly b t [(.rk f.asn, line * 128, fillLine k.src x.b.toNat k.lanes)])
      ∧ t.resident f.asn line = true ∧ ∃ g, t.fill? f.id = some g ∧ g.committed = f.committed ++ [line] := by
  intro t
  let c := commitLine b k.agent f.asn line (fillLine k.src x.b.toNat k.lanes)
  let u := c.updFill f.id fun f => { f with committed := f.committed ++ [line] }
  have last : MemoryModel.Unwritten u t := MemoryInstructions.later_unwritten ..
  have evicts : Evicts b c := commitLine_evicts ..
  have resident : c.resident f.asn line = true := commitLine_resident ..
  have stored : b.relaxed = [] → sliceRoom b f.asn line = b → StoredOnly b c [(.rk f.asn, line * 128, fillLine k.src x.b.toNat k.lanes)] :=
    fun drained room => commitLine_storedOnly k.agent _ drained room
  obtain ⟨lines, fills, -⟩ : t.rkLines = u.rkLines ∧ t.fills = u.fills ∧ t.pins = u.pins := later_reckoning k u x.ctl { opens := false }
  clear_value t c
  refine ⟨fun n => (last.regs n).trans ((show u.regsOf n = c.regsOf n from rfl).trans (evicts.reckons.agents.regs n)), fun drained room sp a => ?_, ?_, ?_⟩
  · exact (last.mem sp a).trans (stored drained room sp a)
  · unfold State.resident at resident ⊢
    rwa [lines]
  · have found : c.fill? f.id = some f := by
      unfold State.fill?
      rw [evicts.fills]
      exact here
    refine ⟨{ f with committed := f.committed ++ [line] }, ?_, rfl⟩
    unfold State.fill?
    rw [fills]
    exact fill?_updFill found fun _ => rfl

section
variable {x : Mem} {s : State} {k : Iss} (hi : Issues s x.ctl (fillcNeed x) k) {b : State} (hb : issued s k (fillcNeed x) = b)
include hi hb

theorem fillc_no_lanes (none_ : k.lanes = 0) : Completes (.fillc x) s k b := by
  refine endsWith_of (execFillc x s) rfl rfl hi ?_
  rw [show issued s k { pilot := false, regs := [(x.a.toNat, 2), (x.b.toNat, 1)], feature := some 0, fill := true, base := 8, lane := 6 } = b from hb]
  exact if_pos (by simp [none_])

variable (some_ : k.lanes ≠ 0) {ea : Nat} (ha : eaOf (k.src.get64 x.a.toNat ((lanesOf k.lanes).headD 0)) (memOff x) = ea)
include some_ ha

theorem fillc_misaligned (off : ea % 128 ≠ 0) : EndsWith (.fillc x) s k b (.fault 0x03 k.lanes (BitVec.ofNat 64 ea)) := by
  refine endsWith_of (execFillc x s) rfl rfl hi ?_
  rw [show issued s k { pilot := false, regs := [(x.a.toNat, 2), (x.b.toNat, 1)], feature := some 0, fill := true, base := 8, lane := 6 } = b from hb]
  refine (if_neg (by simpa using some_)).trans ?_
  rw [ha]
  exact if_pos (by simpa using off)

variable (aligned : ea % 128 = 0) {f : Fill} (own : b.agentFill k.agent = some f)
include aligned own

theorem fillc_foreign (not_ : ¬(f.base ≤ ea / 128 ∧ ea / 128 < f.base + f.nlines ∧ ea / 128 ∉ f.committed)) :
    EndsWith (.fillc x) s k b (.fault 0x04 k.lanes (BitVec.ofNat 64 ea)) := by
  refine endsWith_of (execFillc x s) rfl rfl hi ?_
  rw [show issued s k { pilot := false, regs := [(x.a.toNat, 2), (x.b.toNat, 1)], feature := some 0, fill := true, base := 8, lane := 6 } = b from hb]
  refine (if_neg (by simpa using some_)).trans ?_
  rw [ha, own]
  refine (if_neg (by simp [aligned])).trans (if_pos ?_)
  simp only [Bool.or_eq_true, decide_eq_true_eq, List.contains_eq_mem]
  by_contra inside
  simp only [not_or, Nat.not_lt, Nat.not_le] at inside
  obtain ⟨⟨low, high⟩, fresh⟩ := inside
  exact not_ ⟨low, high, fresh⟩

variable (mine : f.base ≤ ea / 128 ∧ ea / 128 < f.base + f.nlines ∧ ea / 128 ∉ f.committed)
include mine

theorem fillc_ends {t : State} (effect : (if f.stale then k.later b x.ctl { opens := false } else fillcDone x k b f (ea / 128)) = t) : Completes (.fillc x) s k t := by
  obtain ⟨low, high, fresh⟩ := mine
  refine endsWith_of (execFillc x s) rfl rfl hi ?_
  rw [show issued s k { pilot := false, regs := [(x.a.toNat, 2), (x.b.toNat, 1)], feature := some 0, fill := true, base := 8, lane := 6 } = b from hb]
  refine (if_neg (by simpa using some_)).trans ?_
  rw [ha, own]
  refine (if_neg (by simp [aligned])).trans ((if_neg ?_).trans ?_)
  · simp [Nat.not_lt.mpr low, Nat.not_le.mpr high, fresh]
  · subst effect
    split <;> rfl

end

/-! ## FILLX -/

/-- What FILLX needs to issue. -/
def fillxNeed : Need := { pilot := false, feature := some 0, fill := true }

/-- A wave's fill ended, where it runs one. -/
def fillxEnded (x : Sys) (k : Iss) (b : State) : State := match b.agentFill k.agent with
  | some f => fillEnd (b.updFill f.id fun f => { f with reason := x.imm.toNat % 256 }) f.id
  | none => b

theorem fillxEnded_rosterKept (x : Sys) (k : Iss) (b : State) : RosterKept b (fillxEnded x k b) := by
  unfold fillxEnded
  split
  · exact .trans (rosterKept_of (t := b.updFill _ _)) (fillEnd_rosterKept ..)
  · exact rosterKept_of

theorem fillxEnded_gone {x : Sys} {k : Iss} {b : State} {f : Fill} (own : b.agentFill k.agent = some f) (live : f.stale = false) (none_ : b.asks = []) (here : b.fill? f.id = some f) :
    (fillxEnded x k b).fill? f.id = none := by
  unfold fillxEnded
  rw [own]
  exact fillEnd_gone (fill?_updFill here fun _ => rfl) live none_

/-- The paths of a wave but one traced as they leave. -/
def othersTraced (s : State) (n p : Nat) (x : Agent) : State :=
  (List.range x.paths.length).foldl (fun s i => match x.paths[i]? with
    | some q => if i == p || q.st == .free then s else trace s n 5 i q.xmask []
    | none => s) s

theorem othersTraced_step (n p : Nat) (x : Agent) (s : State) (i : Nat) {R : State → State → Prop} (same : R s s) (traced : ∀ w, R s (trace s n 5 i w [])) :
    R s (match x.paths[i]? with | some q => if i == p || q.st == .free then s else trace s n 5 i q.xmask [] | none => s) := by
  split
  · split
    · exact same
    · exact traced _
  · exact same

theorem othersTraced_rosterKept (s : State) (n p : Nat) (x : Agent) : RosterKept s (othersTraced s n p x) :=
  foldl_rosterKept (fun s i => othersTraced_step n p x s i rosterKept_of fun _ => trace_rosterKept ..) _ s

theorem othersTraced_traceOnly (s : State) (n p : Nat) (x : Agent) : TraceOnly s (othersTraced s n p x) :=
  List.foldlRecOn _ _ (.refl s) fun t h i _ => h.trans (othersTraced_step n p x t i (.refl t) fun _ => trace_traceOnly ..)

/-- A wave left by its other paths keeps what leaves with its own path's bundle, and every fill. -/
theorem leaveOthers_leaves (s : State) (n p : Nat) : ((leaveOthers s n p).path? n p).bind Path.leaving = (s.path? n p).bind Path.leaving ∧ (leaveOthers s n p).fills = s.fills := by
  unfold leaveOthers
  cases found : s.agent? n with
  | none => exact ⟨rfl, rfl⟩
  | some x =>
    have kept : (State.path? _ n p).bind Path.leaving = _ := (othersTraced_rosterKept s n p x).leaving n p
    have fills : (othersTraced s n p x).fills = s.fills := by
      obtain ⟨_, _, _, _, _, eq⟩ := othersTraced_traceOnly s n p x
      rw [eq]
    refine ⟨Eq.trans ?_ kept, fills⟩
    show (State.path? ((othersTraced s n p x).updAgent n fun y => { y with paths := y.paths.mapIdx fun i q => if i == p then q else {} }) n p).bind Path.leaving = _
    unfold State.path?
    rw [agent?_updAgent_same _ n (fun y : Agent => { y with paths := y.paths.mapIdx fun i q => if i == p then q else {} }) fun _ => ⟨rfl, rfl⟩]
    cases (othersTraced s n p x).agent? n with
    | none => rfl
    | some y =>
      dsimp only [Option.map_some, Option.bind_some]
      rw [List.getElem?_mapIdx]
      cases y.paths[p]? <;> simp

/-- The lanes of FILLX's path leave with its bundle. -/
def fillxDone (x : Sys) (k : Iss) (b : State) : State :=
  (leaveOthers (fillxEnded x k b) k.agent k.path).updPath k.agent k.path fun q => { q with bun := q.bun.map fun (b : Bun) => { b with exits := b.exits ||| k.xmask } }

theorem fillxDone_gone {x : Sys} {k : Iss} {b : State} {f : Fill} (own : b.agentFill k.agent = some f) (live : f.stale = false) (none_ : b.asks = []) (here : b.fill? f.id = some f) :
    (fillxDone x k b).fill? f.id = none := by
  have fills : (fillxDone x k b).fills = (fillxEnded x k b).fills := (leaveOthers_leaves ..).2
  have gone := fillxEnded_gone (x := x) own live none_ here
  unfold State.fill? at gone ⊢
  rwa [fills]

theorem fillxDone_bundle {x : Sys} {k : Iss} {b : State} {bn : Bun} (here : b.bundle k.agent k.path = some bn) :
    ∃ m, (fillxDone x k b).bundle k.agent k.path = some m ∧ m.exits = bn.exits ||| k.xmask := by
  have leaving : ((leaveOthers (fillxEnded x k b) k.agent k.path).path? k.agent k.path).bind Path.leaving = some bn.exits := by
    rw [(leaveOthers_leaves ..).1, (fillxEnded_rosterKept x k b).leaving]
    unfold State.bundle at here
    obtain ⟨q, path, bundle⟩ := Option.bind_eq_some_iff.mp here
    rw [path]
    exact congrArg (Option.map (·.exits)) bundle
  obtain ⟨q, path, leaving⟩ := Option.bind_eq_some_iff.mp leaving
  obtain ⟨m, bundle, exits⟩ := Option.map_eq_some_iff.mp leaving
  refine ⟨{ m with exits := m.exits ||| k.xmask }, ?_, by rw [← exits]⟩
  unfold State.bundle fillxDone
  rw [path?_updPath_same (fun q : Path => { q with bun := q.bun.map fun (b : Bun) => { b with exits := b.exits ||| k.xmask } }) path]
  exact congrArg (Option.map _) bundle

section
variable {x : Sys} {s : State} {k : Iss} (hi : Issues s x.ctl fillxNeed k) {b : State} (hb : issued s k fillxNeed = b)
include hi hb

theorem fillx_no_lanes (none_ : k.lanes = 0) : Completes (.fillx x) s k b := by
  refine endsWith_of (execFillx x s) rfl rfl hi ?_
  rw [show issued s k { pilot := false, feature := some 0, fill := true } = b from hb]
  exact if_pos (by simp [none_])

theorem fillx_ends (some_ : k.lanes ≠ 0) (alone : ∀ y ∈ b.wavesOf k.gang k.role, y.num = k.agent) : Completes (.fillx x) s k (fillxDone x k b) := by
  have others : ((fillxEnded x k b).wavesOf k.gang k.role).filter (fun y => y.num != k.agent) = [] := by
    refine List.filter_eq_nil_iff.mpr fun y hy => ?_
    have num : y.num ∈ ((fillxEnded x k b).wavesOf k.gang k.role).map (·.num) := List.mem_map_of_mem hy
    rw [(fillxEnded_rosterKept x k b).waves] at num
    obtain ⟨z, hz, same⟩ := List.mem_map.mp num
    simp [← same, alone z hz]
  refine endsWith_of (execFillx x s) rfl rfl hi ?_
  rw [show issued s k { pilot := false, feature := some 0, fill := true } = b from hb]
  refine (if_neg (by simpa using some_)).trans ?_
  show ((leaveOthers ((((fillxEnded x k b).wavesOf k.gang k.role).filter fun y => y.num != k.agent).foldl (fun s y => endAgent s y.num 0) (fillxEnded x k b)) k.agent k.path).updPath k.agent k.path _, Fate.done) = _
  rw [others]
  rfl

end

/-! ## Units -/

/-- What RKINV and RKPIN need to issue. -/
def unitNeed (x : Mem) : Need := { regs := [(x.d.toNat, 1), (x.a.toNat, 2), (x.b.toNat, 1)], feature := some 0, base := 8, lane := 6 }

/-- The units of a lane's interval, acted on in turn. -/
def unitsActed (act : Nat × Nat → State → Bool × State) (us : List (Nat × Nat)) (acc : Nat × State) : Nat × State :=
  us.foldl (fun acc u => (if (act u acc.2).1 then acc.1 + 1 else acc.1, (act u acc.2).2)) acc

theorem unitsActed_le (act : Nat × Nat → State → Bool × State) (us : List (Nat × Nat)) (acc : Nat × State) : (unitsActed act us acc).1 ≤ acc.1 + us.length := by
  induction us generalizing acc with
  | nil => exact Nat.le_refl _
  | cons u us ih =>
    refine (ih _).trans ?_
    rw [List.length_cons]
    dsimp only
    split <;> omega

theorem unitsActed_all {act : Nat × Nat → State → Bool × State} (all : ∀ u s, (act u s).1 = true) (us : List (Nat × Nat)) (acc : Nat × State) :
    (unitsActed act us acc).1 = acc.1 + us.length := by
  induction us generalizing acc with
  | nil => rfl
  | cons u us ih =>
    refine (ih _).trans ?_
    rw [List.length_cons]
    dsimp only
    rw [if_pos (all u _)]
    omega

section
variable {x : Mem} {i : Instr} {act : Iss → Ctx → Nat × Nat → State → Bool × State} {s : State} {k : Iss} (meaning : exec i s = unitInstr x act s)
  (hi : Issues s x.ctl (unitNeed x) k) {b : State} (hb : issued s k (unitNeed x) = b)
include meaning hi hb

theorem unit_no_lanes (none_ : k.lanes = 0) : Completes i s k b := by
  refine endsWith_of (unitInstr x act s) meaning rfl hi ?_
  rw [show issued s k { regs := [(x.d.toNat, 1), (x.a.toNat, 2), (x.b.toNat, 1)], feature := some 0, base := 8, lane := 6 } = b from hb]
  exact if_pos (by simp [none_])

/-- What has been acted on is counted in D. -/
theorem unit_gives (some_ : k.lanes ≠ 0) {us : List (Nat × Nat)}
    (units : unitsIn b (b.ctxOf k.gang) k.sup (eaOf (k.src.get64 x.a.toNat ((lanesOf k.lanes).headD 0)) (memOff x)) (k.src.get x.b.toNat ((lanesOf k.lanes).headD 0)).toNat = us)
    {n : Nat} {u : State} (acted : unitsActed (act k (b.ctxOf k.gang)) us (0, b) = (n, u)) : ∃ t, (Completes i s k t
      ∧ Leaves t k x.ctl (laneWrites x.d.toNat (fun _ => BitVec.ofNat 32 n) (lanesOf k.lanes))) ∧ t.rkLines = u.rkLines ∧ t.pins = u.pins := by
  obtain ⟨lines, -, pins⟩ := later_reckoning k u x.ctl { writes := laneWrites x.d.toNat (fun _ => BitVec.ofNat 32 n) (lanesOf k.lanes) }
  refine ⟨k.later u x.ctl { writes := laneWrites x.d.toNat (fun _ => BitVec.ofNat 32 n) (lanesOf k.lanes) }, ⟨?_, UnitQueries.leaves_later _ _ _ rfl⟩, lines, pins⟩
  refine endsWith_of (unitInstr x act s) meaning rfl hi ?_
  rw [show issued s k { regs := [(x.d.toNat, 1), (x.a.toNat, 2), (x.b.toNat, 1)], feature := some 0, base := 8, lane := 6 } = b from hb]
  refine (if_neg (by simpa using some_)).trans ?_
  dsimp only
  rw [units]
  show ((k.later (unitsActed (act k (b.ctxOf k.gang)) us (0, b)).2 x.ctl
    { writes := laneWrites x.d.toNat (fun _ => BitVec.ofNat 32 (unitsActed (act k (b.ctxOf k.gang)) us (0, b)).1) (lanesOf k.lanes) }, Fate.done) : State × Fate) = _
  rw [acted]

end

theorem setVictimBit_accesses (s : State) (c : Ctx) (d : RkDesc) (u : Nat) (v : Bool) : Accesses s (setVictimBit s c d u v) := by
  unfold setVictimBit
  split
  · exact (storeDevice_performs ..).accesses
  · exact .refl s

/-- After RKINV of a unit that no context has pinned none of its lines is resident. -/
theorem invUnit_absent {k : Iss} {c : Ctx} {u : Nat × Nat} {s : State} (free : s.pinned c.asn (unitSpan s c u).1 = false) {j : Nat} (inside : j < (unitSpan s c u).2) :
    (invUnit k c u s).2.resident c.asn ((unitSpan s c u).1 + j) = false := by
  have dropped (t : State) : (dropLines t c.asn fun l => (unitSpan s c u).1 ≤ l && l < (unitSpan s c u).1 + (unitSpan s c u).2).resident c.asn ((unitSpan s c u).1 + j) = false := by
    unfold State.resident
    refine List.any_eq_false.mpr fun r hr => ?_
    have outside := (List.mem_filter.mp hr).2
    by_contra here
    simp only [Bool.and_eq_true, beq_iff_eq] at here
    obtain ⟨asn, line⟩ := here
    simp [asn, line, inside] at outside
  have cleared (t : State) (d : RkDesc) (absent : t.resident c.asn ((unitSpan s c u).1 + j) = false) :
      (if d.policy == 1 then setVictimBit t c d u.2 false else t).resident c.asn ((unitSpan s c u).1 + j) = false := by
    split
    · unfold State.resident
      rw [(setVictimBit_accesses ..).frame]
      exact absent
    · exact absent
  unfold invUnit
  dsimp only
  rw [if_neg (by simp [free])]
  exact cleared _ _ (dropped _)

theorem askUnit_pins (s : State) (c : Ctx) (u : Nat × Nat) (m : Misser) : (askUnit s c u m).pins = s.pins := by
  unfold askUnit
  split
  · exact (rkAccess_reckons ..).pins
  · rfl

theorem pinOf_setPin (s : State) (c : Nat) (u : Nat × Nat) (n : Nat) : (s.setPin c u n).pinOf c u = n := by
  have gone : (s.pins.filter fun p => !(p.ctx == c && p.rkidx == u.1 && p.unit == u.2)).find? (fun p => p.ctx == c && p.rkidx == u.1 && p.unit == u.2) = none :=
    List.find?_eq_none.mpr fun p hp => by
      rw [Bool.not_eq_true, ← Bool.not_eq_true']
      exact (List.mem_filter.mp hp).2
  unfold State.pinOf State.setPin
  dsimp only
  split
  · rw [gone]
    simp_all
  · rw [List.find?_append, gone]
    simp

theorem pinUnit_refuses {k : Iss} {c : Ctx} {u : Nat × Nat} {s : State} (full : 255 ≤ s.pinOf c.id u ∨ s.pinOf c.id u = 0 ∧ c.stgquota < quotaUsed s c + (unitSpan s c u).2) :
    pinUnit k c u s = (false, s) := if_pos (by simpa using full)

theorem pinUnit_pins {k : Iss} {c : Ctx} {u : Nat × Nat} {s : State} (low : s.pinOf c.id u < 255) (quota : s.pinOf c.id u = 0 → quotaUsed s c + (unitSpan s c u).2 ≤ c.stgquota) :
    (pinUnit k c u s).1 = true ∧ (pinUnit k c u s).2.pins = (s.setPin c.id u (s.pinOf c.id u + 1)).pins := by
  have pinned : pinUnit k c u s = (true, askUnit (s.setPin c.id u (s.pinOf c.id u + 1)) c u (missOf s k.agent k.path)) := by
    refine if_neg ?_
    simp only [Bool.or_eq_true, decide_eq_true_eq, Bool.and_eq_true, beq_iff_eq]
    rintro (high | ⟨zero, more⟩)
    · exact absurd high (Nat.not_le.mpr low)
    · exact absurd (quota zero) (Nat.not_le.mpr more)
  rw [pinned]
  exact ⟨rfl, askUnit_pins ..⟩

theorem unpinUnit_refuses {k : Iss} {c : Ctx} {u : Nat × Nat} {s : State} (none_ : s.pinOf c.id u = 0) : unpinUnit k c u s = (false, s) := if_pos (by simpa using none_)

theorem unpinUnit_unpins {k : Iss} {c : Ctx} {u : Nat × Nat} {s : State} (some_ : s.pinOf c.id u ≠ 0) : unpinUnit k c u s = (true, s.setPin c.id u (s.pinOf c.id u - 1)) := if_neg (by simpa using some_)

theorem pinOf_congr {s t : State} (pins : t.pins = s.pins) (c : Nat) (u : Nat × Nat) : t.pinOf c u = s.pinOf c u := by
  unfold State.pinOf
  rw [pins]

theorem resident_congr {s t : State} (lines : t.rkLines = s.rkLines) (asn l : Nat) : t.resident asn l = s.resident asn l := by
  unfold State.resident
  rw [lines]

/-- Settles O43: FILLC and FILLX by what they leave; a unit instruction by its fold over the units, and each action on one unit. -/
theorem fillsCommitAndUnitsAreInvalidated : Obligations.FillsCommitAndUnitsAreInvalidated := by
  unfold Obligations.FillsCommitAndUnitsAreInvalidated
  refine ⟨⟨?_, ?_⟩, ?_⟩
  · intro x s k nd hi b ea line
    refine ⟨fillc_no_lanes hi rfl, fun some_ off => fillc_misaligned hi rfl some_ rfl off, fun f some_ aligned own => ?_⟩
    intro mine
    refine ⟨fun not_ => fillc_foreign hi rfl some_ rfl aligned own not_, fun mine stale => fillc_ends hi rfl some_ rfl aligned own mine (if_pos stale), fun mine live here => ?_⟩
    obtain ⟨regs, stored, resident, fill⟩ := fillcDone_leaves x k line here
    refine ⟨fillcDone x k b f line, fillc_ends hi rfl some_ rfl aligned own mine (if_neg (by simp [live])), regs, fun drained room => ?_, resident, fill⟩
    rw [Nat.mul_comm 128 line]
    exact stored drained room
  · intro x s k nd hi b
    refine ⟨fillx_no_lanes hi rfl, fun f some_ own alone => ⟨fillxDone x k b, fillx_ends hi rfl some_ alone, fun live none_ here => ?_, fun bn bundle => fillxDone_bundle bundle⟩⟩
    exact fillxDone_gone own live none_ here
  · intro x i s k mem nd hi b l c us gives
    have none_ {act : Iss → Ctx → Nat × Nat → State → Bool × State} (meaning : exec i s = unitInstr x act s) : k.lanes = 0 → Completes i s k b := unit_no_lanes meaning hi rfl
    have all {act : Iss → Ctx → Nat × Nat → State → Bool × State} (meaning : exec i s = unitInstr x act s) (whole : i = .rkinv x → ∀ u s, (act k c u s).1 = true) (some_ : k.lanes ≠ 0) :
        ∃ t n, gives t n ∧ n ≤ us.length ∧ (i = .rkinv x → n = us.length) ∧ (us = [] → t.pins = b.pins ∧ t.rkLines = b.rkLines) := by
      obtain ⟨t, given, lines, pins⟩ := unit_gives meaning hi rfl some_ rfl (n := (unitsActed (act k c) us (0, b)).1) (u := (unitsActed (act k c) us (0, b)).2) rfl
      refine ⟨t, _, given, (unitsActed_le ..).trans (Nat.zero_add _).le, fun inv => (unitsActed_all (whole inv) ..).trans (Nat.zero_add _), fun empty => ?_⟩
      rw [lines, pins, empty]
      exact ⟨rfl, rfl⟩
    have one {act : Iss → Ctx → Nat × Nat → State → Bool × State} (meaning : exec i s = unitInstr x act s) {u : Nat × Nat} (some_ : k.lanes ≠ 0) (single : us = [u]) {v : State} {acts : Bool}
        (acted : act k c u b = (acts, v)) : ∃ t, gives t (if acts then 1 else 0) ∧ t.rkLines = v.rkLines ∧ t.pins = v.pins :=
      unit_gives meaning hi rfl some_ single (by
        show (if (act k c u b).1 then 0 + 1 else 0, (act k c u b).2) = _
        rw [acted])
    simp only [List.mem_cons, List.not_mem_nil, or_false] at mem
    obtain rfl | rfl | rfl := mem
    · refine ⟨none_ (act := invUnit) rfl, all (act := invUnit) rfl fun _ _ _ => rfl, fun u some_ single => ⟨fun _ free => ?_, nofun, nofun, nofun, nofun⟩⟩
      obtain ⟨t, given, lines, -⟩ := one (act := invUnit) rfl some_ single (acts := true) (v := (invUnit k c u b).2) rfl
      exact ⟨t, given, fun j inside => (resident_congr lines _ _).trans (invUnit_absent free inside)⟩
    · refine ⟨none_ (act := pinUnit) rfl, all (act := pinUnit) rfl nofun, fun u some_ single => ⟨nofun, fun _ full => ?_, fun _ low quota => ?_, nofun, nofun⟩⟩
      · obtain ⟨t, given, -, pins⟩ := one (act := pinUnit) rfl some_ single (pinUnit_refuses full)
        exact ⟨t, given, pins⟩
      · obtain ⟨acts, set⟩ := pinUnit_pins (k := k) low quota
        obtain ⟨t, given, -, pins⟩ := one (act := pinUnit) rfl some_ single (Prod.ext acts rfl)
        exact ⟨t, given, (pinOf_congr (pins.trans set) _ _).trans (pinOf_setPin ..)⟩
    · refine ⟨none_ (act := unpinUnit) rfl, all (act := unpinUnit) rfl nofun, fun u some_ single => ⟨nofun, nofun, nofun, fun _ zero => ?_, fun _ nonzero => ?_⟩⟩
      · obtain ⟨t, given, -, pins⟩ := one (act := unpinUnit) rfl some_ single (unpinUnit_refuses zero)
        exact ⟨t, given, pins⟩
      · obtain ⟨t, given, -, pins⟩ := one (act := unpinUnit) rfl some_ single (unpinUnit_unpins nonzero)
        exact ⟨t, given, (pinOf_congr pins _ _).trans (pinOf_setPin ..)⟩

end Sys2Proof.Machine.Scheduling
end

section
/-! PROOFS. Queues, launches and gangs as the helm moves them on (R29, R307-R321, R330, R355, R364, R487). -/
-- One proof after another: in parallel, those of the whole text need more memory than one process may take.
set_option Elab.async false

namespace Sys2Proof.Machine.Scheduling
open Sys2Proof.Machine.NumberFormats

/-! ## Queues enabled and disabled -/

theorem lateOf_readHome (s : State) (a : Nat) : leField (s.readHome .loc a 8) 0 8 = leNat (s.readHome .loc a 8) := by
  unfold leField
  rw [List.drop_zero, List.take_of_length_le (MemoryInstructions.length_readHome ..).le]

theorem enableCode_bad {s : State} {q : Nat} (bad : (qdesc s q).ok = false) : (enableCode s q).1 = 3 := by
  unfold enableCode
  dsimp only
  rw [if_pos (by simp [bad])]

/-- A queue that is enabled has a descriptor in order, and its kernel is one of a live context and no reckoner. -/
theorem enableCode_enabled {s : State} {q : Nat} {k : Kernel} (enabled : enableCode s q = (1, k)) :
    (qdesc s q).ok = true ∧ k.reckoner = false ∧ ∃ c, s.ctx? (qdesc s q).ctx = some c ∧ c.cstate = 1 ∧ kernelAt s c (qdesc s q).khdr = some k := by
  unfold enableCode at enabled
  dsimp only at enabled
  split at enabled
  · nomatch enabled
  · next ok =>
    split at enabled
    · nomatch enabled
    · split at enabled
      · nomatch enabled
      · split at enabled
        · nomatch enabled
        · next kern found =>
          split at enabled
          · nomatch enabled
          · next plain =>
            obtain rfl : kern = k := congrArg Prod.snd enabled
            obtain ⟨c, ctx, kernel⟩ := Option.bind_eq_some_iff.mp found
            have live : c.cstate = 1 := by
              by_contra other
              rw [if_neg (by simpa using other)] at kernel
              nomatch kernel
            rw [if_pos (by simp [live])] at kernel
            exact ⟨by simpa using ok, by simpa using plain, c, ctx, live, kernel⟩

section
variable {s b : State} {q : Nat} (hb : barWrite s = b)
include hb

theorem tailDoorbell_off {v : BitVec 64} (off : 4096 ≤ q ∨ (b.queue q).status ≠ 1) : execTailDoorbell q v s = .next b := by
  unfold execTailDoorbell
  rw [hb]
  exact if_pos (by simpa using off)

section
variable {v : BitVec 64} (number : q < 4096) (on : (b.queue q).status = 1)
include number on

theorem tailDoorbell_marks (bad : v.toNat < (b.queue q).tail ∨ 2 ^ (qdesc b q).logcap < v.toNat - (b.queue q).head) :
    execTailDoorbell q v s = .next (b.updQueue q fun x => { x with ovr := true }) := by
  unfold execTailDoorbell
  rw [hb]
  exact (if_neg (by simp [number, on])).trans (if_pos (by simpa using bad))

theorem tailDoorbell_grows (grows : (b.queue q).tail < v.toNat) (room : v.toNat - (b.queue q).head ≤ 2 ^ (qdesc b q).logcap) :
    execTailDoorbell q v s = .next (b.updQueue q fun x => x.grow v.toNat b.tick (freshClock b)) := by
  unfold execTailDoorbell
  rw [hb]
  exact (if_neg (by simp [number, on])).trans ((if_neg (by simp [Nat.not_lt.mpr grows.le, Nat.not_lt.mpr room])).trans (if_neg (by simpa using Nat.ne_of_gt grows)))

end

theorem queueEnable_off (off : 4096 ≤ q ∨ (b.queue q).status = 1 ∨ (b.queue q).status = 2) : execQueueEnable q s = .next b := by
  unfold execQueueEnable
  rw [hb]
  exact if_pos (by simpa [or_assoc] using off)

theorem queueEnable_enables (number : q < 4096) (on : (b.queue q).status ≠ 1) (draining : (b.queue q).status ≠ 2) : execQueueEnable q s = .next (b.updQueue q fun _ =>
    { q := q, ctx := (qdesc b q).ctx, kernel := (enableCode b q).2, status := (enableCode b q).1, late := leNat (b.readHome .loc (b.regs.qtable + 64 * q + 48) 8) }) := by
  unfold execQueueEnable
  rw [hb, ← lateOf_readHome]
  refine (if_neg (by simp [number, on, draining])).trans ?_
  generalize enableCode b q = r
  obtain ⟨code, k⟩ := r
  rfl

theorem queueDisable_off (off : 4096 ≤ q ∨ (b.queue q).status ≠ 1) : execQueueDisable q s = .next b := by
  unfold execQueueDisable disableQueue
  rw [hb]
  by_cases number : q < 4096
  · rw [if_pos number, if_pos (by simpa using off.resolve_left (Nat.not_le.mpr number))]
    rfl
  · rw [if_neg number]
    rfl

theorem queueDisable_disables (number : q < 4096) (on : (b.queue q).status = 1) :
    execQueueDisable q s = .next (b.updQueue q fun x => { x with status := if b.launches.any (fun l => l.queue == q) then 2 else 0 }) := by
  unfold execQueueDisable disableQueue
  rw [hb, if_pos number, if_neg (by simp [on])]
  rfl

end

/-! ## Staging -/

section
variable {s : State} {l : Launch} (here : s.launches.find? (fun m => m.id == l.id) = some l)
include here

theorem stagingDone_stages (began : l.stgStart ≠ none) (resident : ∀ p ∈ l.stgLines, ∀ asn, p.1 = .rk asn → s.resident asn p.2 = true) :
    execStagingDone l.id s = .next (s.updLaunch l.id fun l => { l with staged := true }) := by
  unfold execStagingDone
  rw [here]
  refine congrArg event (if_pos ?_)
  rw [Bool.and_eq_true, Option.isSome_iff_ne_none, List.all_eq_true]
  refine ⟨began, fun p hp => ?_⟩
  obtain ⟨sp, line⟩ := p
  cases sp with
  | rk asn => exact resident _ hp asn rfl
  | _ => rfl

theorem stagingTimeout_late {t : Nat} (began : l.stgStart = some t) (late : t + 320000 ≤ s.tick) :
    execStagingTimeout l.id s = .next (s.updLaunch l.id fun l => { l with staged := true }) := by
  unfold execStagingTimeout
  rw [here]
  simp only [began, Option.map_some, Option.getD_some, decide_eq_true late, if_true, event]

theorem stagingTimeout_early {t : Nat} (began : l.stgStart = some t) (early : s.tick < t + 320000) : execStagingTimeout l.id s = .next s := by
  unfold execStagingTimeout
  rw [here]
  simp only [began, Option.map_some, Option.getD_some, decide_eq_false (Nat.not_le.mpr early), Bool.false_eq_true, if_false, event]

end

/-! ## The queue that goes first -/

/-- Of two queues the one that goes first, the earlier of equals. -/
def firstOf (s : State) (b : Option Queue) (x : Queue) : Option Queue := match b with
  | none => some x
  | some y => if goesBefore s x y then some x else some y

/-- A queue that goes before every other of some goes before all of them. -/
theorem foldl_firstOf {s : State} {x : Queue} (qs : List Queue) (ahead : ∀ y ∈ qs, y = x ∨ (goesBefore s x y = true ∧ goesBefore s y x = false)) (b : Option Queue)
    (mem : b = some x ∨ x ∈ qs ∧ ∀ y, b = some y → y = x ∨ goesBefore s x y = true) : qs.foldl (firstOf s) b = some x := by
  induction qs generalizing b with
  | nil => exact mem.resolve_right fun h => nomatch h.1
  | cons y qs ih =>
    have later : ∀ z ∈ qs, z = x ∨ (goesBefore s x z = true ∧ goesBefore s z x = false) := fun z hz => ahead z (List.mem_cons_of_mem y hz)
    refine ih later _ ?_
    obtain rfl | ⟨inside, behind⟩ := mem
    · left
      obtain rfl | ⟨-, after⟩ := ahead y List.mem_cons_self
      · exact ite_self _
      · exact if_neg (by simp [after])
    · obtain rfl | tail := List.mem_cons.mp inside
      · left
        cases b with
        | none => rfl
        | some z =>
          obtain rfl | before := behind z rfl
          · exact ite_self _
          · exact if_pos before
      · refine .inr ⟨tail, fun z hz => ?_⟩
        have own : y = x ∨ goesBefore s x y = true := (ahead y List.mem_cons_self).imp_right And.left
        cases b with
        | none => exact Option.some.inj hz ▸ own
        | some w =>
          unfold firstOf at hz
          dsimp only at hz
          split at hz
          · exact Option.some.inj hz ▸ own
          · exact Option.some.inj hz ▸ behind w rfl

/-- R310: the order of two queues, field by field. -/
def Ahead (s : State) (x y : Queue) : Prop := (s.overdue x = true ∧ ¬s.overdue y = true) ∨ (s.overdue x = true ∧ s.overdue y = true ∧ y.age s.tick < x.age s.tick)
  ∨ ((s.overdue x = true ↔ s.overdue y = true) ∧ (s.overdue x = true → x.age s.tick = y.age s.tick) ∧ ((qdesc s y.q).prio < (qdesc s x.q).prio
    ∨ (qdesc s x.q).prio = (qdesc s y.q).prio ∧ (y.pending * (qdesc s x.q).batch < x.pending * (qdesc s y.q).batch ∨ x.pending * (qdesc s y.q).batch = y.pending * (qdesc s x.q).batch ∧ x.q < y.q)))

/-- The order of two queues of which neither is overdue for longer. -/
def byPriority (s : State) (x y : Queue) : Bool :=
  if (qdesc s x.q).prio != (qdesc s y.q).prio then (qdesc s x.q).prio > (qdesc s y.q).prio
  else if x.pending * (qdesc s y.q).batch != y.pending * (qdesc s x.q).batch then x.pending * (qdesc s y.q).batch > y.pending * (qdesc s x.q).batch
  else x.q < y.q

theorem goesBefore_byPriority {s : State} {x y : Queue} (due : s.overdue x = s.overdue y) (ages : s.overdue x = true → x.age s.tick = y.age s.tick) :
    goesBefore s x y = byPriority s x y := by
  refine (if_neg (by simp [due])).trans (if_neg ?_)
  simp only [Bool.and_eq_true, bne_iff_ne, not_and, not_not]
  exact ages

theorem Ahead.goes {s : State} {x y : Queue} (h : Ahead s x y) : goesBefore s x y = true ∧ goesBefore s y x = false := by
  obtain ⟨due, notDue⟩ | ⟨due, due', older⟩ | ⟨same, ages, rest⟩ := h
  · simp [goesBefore, due, notDue]
  · simp [goesBefore, due, due', Nat.ne_of_gt older, Nat.ne_of_lt older, older, Nat.le_of_lt older]
  · have same : s.overdue x = s.overdue y := Bool.eq_iff_iff.mpr same
    rw [goesBefore_byPriority same ages, goesBefore_byPriority same.symm fun due => (ages (same.trans due)).symm]
    unfold byPriority
    obtain prio | ⟨prio, fuller | ⟨even, number⟩⟩ := rest
    · simp [Nat.ne_of_gt prio, Nat.ne_of_lt prio, prio, Nat.le_of_lt prio]
    · simp [prio, Nat.ne_of_gt fuller, Nat.ne_of_lt fuller, fuller, Nat.le_of_lt fuller]
    · simp [prio, even, number, Nat.le_of_lt number]

theorem execTakeRecord_none {s : State} (none_ : s.queues.filter s.eligibleQ = []) : execTakeRecord s = .next s := by
  unfold execTakeRecord
  dsimp only
  rw [none_]
  rfl

theorem execTakeRecord_first {s : State} {x : Queue} (best : (s.queues.filter s.eligibleQ).foldl (firstOf s) none = some x) :
    execTakeRecord s = .next ((List.range (min (min x.pending (qdesc s x.q).batch) (1024 - s.launches.length))).foldl (fun s _ => takeOne s x.q) s) := by
  unfold execTakeRecord
  dsimp only
  split
  · next none_ => exact nomatch none_.symm.trans best
  · next y found =>
    obtain rfl : y = x := Option.some.inj (found.symm.trans best)
    rfl

/-! ## Gangs that retire -/

/-- No gang has this key. -/
def NoGang (s : State) (g : GangKey) : Prop := ∀ y ∈ s.gangs, y.key ≠ g

theorem GangsKeyed.noGang {s t : State} (h : GangsKeyed s t) {g : GangKey} (none_ : NoGang s g) : NoGang t g := by
  obtain ⟨f, keyed, gangs⟩ := h
  intro y hy
  rw [gangs] at hy
  obtain ⟨z, hz, rfl⟩ := List.mem_map.mp hy
  rw [keyed]
  exact none_ z hz

theorem blockRecord_holdsKept (s : State) (ctx launch : Nat) (b : Block) : HoldsKept s (blockRecord s ctx launch b) := by
  have counted (t : State) (f : Ctx → Ctx) : HoldsKept t (t.updCtx ctx f) := holdsKept_of
  unfold blockRecord
  split
  · exact holdsKept_of
  · dsimp only
    refine .ite ((counted s _).trans (devWrite_holdsKept ..)) (.ite ?_ holdsKept_of)
    exact ((devWrite_holdsKept ..).trans (counted _ _)).trans (devWrite_holdsKept ..)

theorem freeSlots_holdsKept (s : State) (r : Option Slots) : HoldsKept s (freeSlots s r) := by
  unfold freeSlots
  split <;> exact holdsKept_of

/-- A gang that retires leaves the gangs there were but for itself. -/
theorem retireGang_gangs (s : State) (y : Gang) : ∃ u, GangsKeyed s u ∧ (retireGang s y).gangs = u.gangs.filter fun z => z.key != y.key := by
  unfold retireGang
  extract_lets s₁ bs s₂ bs' s₃ s₄ s₅
  have ended : HoldsKept s s₂ := .trans (t := s₁) holdsKept_of (foldl_holdsKept (fun s x => finalEnd_holdsKept ..) _ _)
  have recorded : HoldsKept s₂ s₃ := foldl_holdsKept (fun s b => blockRecord_holdsKept ..) bs' s₂
  have counted : HoldsKept s₃ s₄ := holdsKept_of
  have freed : HoldsKept s₄ s₅ := (freeSlots_holdsKept ..).trans (freeSlots_holdsKept ..)
  exact ⟨s₅, (((ended.trans recorded).trans counted).trans freed).gangs, rfl⟩

theorem retireGang_noGang (s : State) (y : Gang) : NoGang (retireGang s y) y.key := by
  obtain ⟨u, -, gangs⟩ := retireGang_gangs s y
  intro z hz
  rw [gangs] at hz
  simpa using (List.mem_filter.mp hz).2

theorem NoGang.retireGang {s : State} {g : GangKey} (none_ : NoGang s g) (y : Gang) : NoGang (retireGang s y) g := by
  obtain ⟨u, keyed, gangs⟩ := retireGang_gangs s y
  intro z hz
  rw [gangs] at hz
  exact keyed.noGang none_ z (List.mem_of_mem_filter hz)

/-- The gangs of a formation retired together, none of them executed again. -/
def retireAll (ps : List Gang) (s : State) : State := ps.foldl (fun s z => settleReexec (retireGang s z) z) s

theorem settleReexec_none (s : State) {y : Gang} (first : y.reexec = none) : settleReexec s y = s := by
  unfold settleReexec
  rw [first]

theorem partners_alone {s : State} {y : Gang} (alone : y.fw * y.fh ≤ 1) : partners s y = [y] := if_pos alone

theorem retireAll_noGang {ps : List Gang} (first : ∀ z ∈ ps, z.reexec = none) (s : State) {g : GangKey} (here : NoGang s g ∨ ∃ z ∈ ps, z.key = g) : NoGang (retireAll ps s) g := by
  induction ps generalizing s with
  | nil => exact here.resolve_right fun ⟨_, mem, _⟩ => absurd mem List.not_mem_nil
  | cons y ps ih =>
    have plain : settleReexec (retireGang s y) y = retireGang s y := settleReexec_none _ (first y List.mem_cons_self)
    refine ih (fun z hz => first z (List.mem_cons_of_mem y hz)) _ ?_
    dsimp only
    rw [plain]
    obtain none_ | ⟨z, hz, rfl⟩ := here
    · exact .inl (none_.retireGang y)
    · obtain rfl | tail := List.mem_cons.mp hz
      · exact .inl (retireGang_noGang s z)
      · exact .inr ⟨z, tail, rfl⟩

theorem mirrorQueue_holdsKept (s : State) (x : Queue) : HoldsKept s (mirrorQueue s x) := by
  unfold mirrorQueue
  extract_lets a s₁ s₂
  have first : HoldsKept s s₁ := (storeDevice_performs ..).holdsKept
  have second : HoldsKept s₁ s₂ := (storeDevice_performs ..).holdsKept
  clear_value s₁ s₂
  exact (first.trans second).trans (storeDevice_performs ..).holdsKept

theorem updQueue_holdsKept (s : State) (q : Nat) (f : Queue → Queue) : HoldsKept s (s.updQueue q f) := by
  have listed (qs : List Queue) : HoldsKept s { s with queues := qs } := holdsKept_of
  exact (listed _).trans (mirrorQueue_holdsKept ..)

theorem launchEntry_holdsKept (s : State) (l : Launch) (status retired : Nat) : HoldsKept s (launchEntry s l status retired) := by
  unfold launchEntry
  split
  · exact holdsKept_of
  · exact devWrite_holdsKept ..

theorem checkLaunch_holdsKept (s : State) (id : Nat) : HoldsKept s (checkLaunch s id) := by
  unfold checkLaunch
  split
  · refine .ite ?_ holdsKept_of
    unfold retireLaunch
    extract_lets late s₁ status s₂ s₃
    have counted : HoldsKept s s₁ := .ite (updQueue_holdsKept ..) holdsKept_of
    have entered : HoldsKept s₁ s₂ := launchEntry_holdsKept ..
    have left : HoldsKept s s₃ := (counted.trans entered).trans holdsKept_of
    exact .ite (left.trans (updQueue_holdsKept ..)) left
  · exact holdsKept_of

theorem gangRetire_waits {s : State} {y : Gang} (here : s.gang? y.key = some y)
    (waits : y.st = .waiting ∨ ∃ z ∈ partners s y, blocksOver s z.key = false ∨ z.st = .waiting ∨ matrixBusy s z.key = true) : execGangRetire y.key s = .next s := by
  unfold execGangRetire
  rw [here]
  refine if_pos ?_
  obtain waiting | ⟨z, hz, busy⟩ := waits
  · simp [waiting]
  · rw [Bool.or_eq_true, Bool.not_eq_true', List.all_eq_false]
    refine .inr ⟨z, hz, ?_⟩
    obtain over_ | waiting | busy := busy
    · simp [over_]
    · simp [waiting]
    · simp [busy]

theorem gangRetire_retires {s : State} {y : Gang} (here : s.gang? y.key = some y) (there : y.st ≠ .waiting)
    (done : ∀ z ∈ partners s y, blocksOver s z.key = true ∧ z.st ≠ .waiting ∧ matrixBusy s z.key = false) :
    execGangRetire y.key s = .next (checkLaunch (retireAll (partners s y) s) y.key.launch) := by
  unfold execGangRetire
  rw [here]
  refine if_neg ?_
  rw [Bool.or_eq_true, not_or, Bool.not_eq_true', Bool.not_eq_false, List.all_eq_true]
  refine ⟨by simpa using there, fun z hz => ?_⟩
  obtain ⟨over_, placed, idle⟩ := done z hz
  simp [over_, placed, idle]

/-! ## Gangs that move, are saved and go on -/

section
variable {s : State} {y : Gang} (here : s.gang? y.key = some y)
include here

theorem fullSaveTimeout_early {t : Nat} (since : y.want.preempt = some t) (early : s.tick < t + 320000) : execFullSaveTimeout y.key s = .next s := by
  unfold execFullSaveTimeout
  rw [here]
  dsimp only
  rw [since]
  exact if_neg (by simp [Nat.not_le.mpr early])

theorem fullSaveTimeout_due {t : Nat} (since : y.want.preempt = some t) (late : t + 320000 ≤ s.tick) (resident : y.st = .resident) (idle : enginesIdle s y.key = true)
    (running : blocksOver s y.key = false) {o : Option State} (save : newSave s y.key 2 none = o) :
    execFullSaveTimeout y.key s = .next (o.getD (s.updGang y.key fun y => { y with want := { y.want with preempt := none } })) := by
  unfold execFullSaveTimeout
  rw [here]
  dsimp only
  rw [since]
  refine (if_pos (by simp [late, resident, idle, running])).trans ?_
  rw [save]
  cases o <;> rfl

theorem migrationResume_stays (still : y.migrating = false) : execMigrationResume y.key s = .next s := by
  unfold execMigrationResume
  rw [here]
  exact congrArg event (if_pos (by simp [still]))

end

/-- Whether a scratchpad is one that a moved gang's forwarding entries lead from. -/
def forwarded (y : Gang) (sp : Sp) : Bool := match sp with
  | .scr g role => g == y.key && y.fwd.any fun f => f.1 == role
  | _ => false

/-- A moved gang that goes on: what was sent to its old cores has arrived. -/
def resumed (s : State) (y : Gang) : State :=
  let t := ((drainWhere s fun r => forwarded y r.sp).updGang y.key fun z => { z with fwd := [] }).updGang y.key fun y => { y with migrating := false }
  { t with agents := updWhere (fun x => x.gang == y.key && !x.ended) (fun x => { x with lastIssue := t.tick }) t.agents }

theorem migrationResume_resumes {s : State} {y : Gang} (here : s.gang? y.key = some y) (moving : y.migrating = true) : execMigrationResume y.key s = .next (resumed s y) := by
  unfold execMigrationResume
  rw [here]
  exact congrArg event (if_neg (by simp [moving]))

theorem resumed_gang {s : State} {y : Gang} (here : s.gang? y.key = some y) : (resumed s y).gang? y.key = some { y with migrating := false, fwd := [] } := by
  have drained : (drainWhere s fun r => forwarded y r.sp).gang? y.key = some y := by
    unfold State.gang?
    rw [(drainWhere_performs ..).gangs]
    exact here
  exact gang?_updGang_same (y := { y with fwd := [] }) (f := fun y => { y with migrating := false }) (gang?_updGang_same drained (f := fun z => { z with fwd := [] }) fun _ => rfl) fun _ => rfl

theorem resumed_relaxed {s : State} {y : Gang} {r : Relaxed} (left : r ∈ (resumed s y).relaxed) {f : Nat × Nat} (forward : f ∈ y.fwd) : r.sp ≠ .scr y.key f.1 := by
  have same (t : State) (f f' : Gang → Gang) (as : List Agent) : ({ (t.updGang y.key f).updGang y.key f' with agents := as } : State).relaxed = t.relaxed := rfl
  unfold resumed at left
  rw [same, relaxed_drainWhere] at left
  have other := (List.mem_filter.mp left).2
  intro here
  rw [here] at other
  have mine : forwarded y (.scr y.key f.1) = true := by
    unfold forwarded
    simp only [beq_self_eq_true, Bool.true_and, List.any_eq_true, beq_iff_eq]
    exact ⟨f, forward, rfl⟩
  simp [mine] at other

theorem resumed_sameMemory {s : State} (y : Gang) (none_ : s.relaxed = []) : SameMemory s (resumed s y) := by
  intro sp a
  have same (t : State) (f f' : Gang → Gang) (as : List Agent) : ({ (t.updGang y.key f).updGang y.key f' with agents := as } : State).byteAt sp a = t.byteAt sp a := rfl
  unfold resumed
  rw [MemoryModel.drainWhere_of_none none_]
  exact same s _ _ _

theorem placeGang_places {s : State} {c : Cand} {p : List (Nat × Pick)} (first : (candidates s).findSome? (fun c => (feasible s c).map fun p => (c, p)) = some (c, p)) :
    execPlaceGang s = .next (placeCand s c p) := by
  unfold execPlaceGang
  rw [first]
  rfl

theorem placeGang_none {s : State} (none_ : ∀ c ∈ candidates s, feasible s c = none) : execPlaceGang s = .next (raiseRequests (decidePreempt s)) := by
  have nothing : (candidates s).findSome? (fun c => (feasible s c).map fun p => (c, p)) = none := List.findSome?_eq_none_iff.mpr fun c hc => by rw [none_ c hc]; rfl
  unfold execPlaceGang
  rw [nothing]
  rfl

theorem reckonHeldSave_of {s : State} {y : Gang} {t : Nat} (single : s.gangs = [y]) (held : heldSince s y = some t) (idle : enginesIdle s y.key = true)
    (stuck : someFitsNowhere s (fun _ => true) = true) : execReckonHeldSave s = .next (if t + 800000 ≤ s.tick then (newSave s y.key 4 none).getD s else s) := by
  unfold execReckonHeldSave
  rw [single]
  by_cases late : t + 800000 ≤ s.tick
  · simp [held, idle, late, stuck, event]
  · simp [held, late, event]

theorem fillLaunch_launches {s : State} {f : Fill} {k : Nat} (next : nextFill (retryAsks s) = some (f, k)) : execFillLaunch s = .next (launchFill (retryAsks s) f k) := by
  unfold execFillLaunch
  dsimp only
  rw [next]
  rfl

theorem fillLaunch_none {s : State} (none_ : nextFill (retryAsks s) = none) : execFillLaunch s = .next (retryAsks s) := by
  unfold execFillLaunch
  dsimp only
  rw [none_]
  rfl

/-- Settles O52: queues and staging by their conditions; the queue that goes first by a fold; gangs that retire by the keys that are left; a migrated gang by what has drained. -/
theorem queuesAndGangsAdvance : Obligations.QueuesAndGangsAdvance := by
  unfold Obligations.QueuesAndGangsAdvance
  refine ⟨⟨?_, ?_, fun s q bad => enableCode_bad bad, fun s q k enabled => enableCode_enabled enabled, ?_⟩, fun s none_ => execTakeRecord_none none_, ?_, ?_, ?_, ?_, ?_, ?_, ?_, ?_,
    fun s => rfl, ?_, ?_, ?_⟩
  · exact fun s q v => ⟨tailDoorbell_off rfl, tailDoorbell_marks rfl, tailDoorbell_grows rfl⟩
  · exact fun s q => ⟨queueEnable_off rfl, queueEnable_enables rfl⟩
  · exact fun s q => ⟨queueDisable_off rfl, queueDisable_disables rfl⟩
  · intro s x mem eligible due d first ahead
    refine execTakeRecord_first (foldl_firstOf _ (fun y hy => ?_) none (.inr ⟨List.mem_filter.mpr ⟨mem, eligible⟩, nofun⟩))
    obtain ⟨listed, eligible'⟩ := List.mem_filter.mp hy
    exact (ahead y listed eligible').imp_right Ahead.goes
  · exact fun s l here began resident => stagingDone_stages here began resident
  · exact fun s l t here began => ⟨stagingTimeout_late here began, stagingTimeout_early here began⟩
  · exact fun s c p first => placeGang_places first
  · exact fun s none_ => placeGang_none none_
  · intro s y here waits
    exact gangRetire_waits here waits
  · intro s y here there done
    refine ⟨_, gangRetire_retires here there done, fun plain z hz => ?_, fun alone plain => ?_⟩
    · exact (checkLaunch_holdsKept ..).gangs.noGang (retireAll_noGang plain s (.inr ⟨z, hz, rfl⟩))
    · rw [partners_alone alone]
      refine ⟨congrArg (checkLaunch · y.key.launch) (settleReexec_none _ plain), retireGang_noGang s y⟩
  · intro s y t here since
    refine ⟨fullSaveTimeout_early here since, fun late resident idle running u save => fullSaveTimeout_due here since late resident idle running save,
      fun late resident idle running save => fullSaveTimeout_due here since late resident idle running save⟩
  · intro s y here
    exact ⟨migrationResume_stays here, fun moving => ⟨_, _, migrationResume_resumes here moving, resumed_gang here, rfl, fun r left f forward => resumed_relaxed left forward, resumed_sameMemory y⟩⟩
  · exact fun s => ⟨fun f k next => fillLaunch_launches next, fun none_ => fillLaunch_none none_, retryAsks_none⟩
  · exact fun s y t single held idle stuck => ⟨fun late => (reckonHeldSave_of single held idle stuck).trans (congrArg _ (if_pos late)),
      fun early => (reckonHeldSave_of single held idle stuck).trans (congrArg _ (if_neg (Nat.not_le.mpr early)))⟩

end Sys2Proof.Machine.Scheduling
end
